-- ==== Sys2Proof/Word.lean ====
section
/-!
DEFINITION. The words of the HX-960 and the plain data types that instructions and state share:
operand specifiers (03 R80), sparse maps in canonical form, and the arguments that outside agents give the machine.
-/
namespace Sys2Proof

abbrev Byte := BitVec 8
abbrev W32 := BitVec 32
abbrev W64 := BitVec 64
/-- A virtual address, a pc or a capability base (01 R17, R20). -/
abbrev Addr := BitVec 48
/-- The parcel triple of an instruction (03 R75). -/
abbrev W96 := BitVec 96
abbrev W128 := BitVec 128
abbrev W512 := BitVec 512

/-- Data by number, listed with strictly rising numbers and no default entries, so that equal contents are equal lists. -/
abbrev SMap (α : Type) := List (Nat × α)

/-- An operand specifier (03 R80). The values 0x88-0xBF are reserved and have no constructor. -/
inductive Opnd where
  | s (i : BitVec 6)
  | v (i : BitVec 5)
  | m (i : BitVec 4)
  | k (i : BitVec 4)
  | p (i : BitVec 3)
  | imm (x : BitVec 6)
  deriving DecidableEq, Repr

/-- The place a host request names (18 R363): a BAR of a function, or the host's own memory (whose changes by the host
the device sees only when it reads). -/
inductive HostLoc where
  /-- BAR4 of physical function 0 on host port 0, and of physical function 1 on host port 1: HBM offset `off`. -/
  | bar4 (off : Nat)
  | pf1 (off : Nat)
  /-- BAR4 of virtual function `f`: virtual address `off` in window address space `asid`. -/
  | vfBar4 (f : Nat) (asid : Nat) (off : Nat)
  /-- A register of PF0 BAR0 at byte offset `off`. -/
  | bar0 (off : Nat)
  /-- A doorbell page of queue `q`, at byte offset `off` of the page. -/
  | door (q : Nat) (off : Nat)
  /-- BAR2 of virtual function `f`, the doorbell pages of its queues. -/
  | vfDoor (f : Nat) (off : Nat)
  /-- BAR0 of virtual function `f`. -/
  | vfBar0 (f : Nat) (off : Nat)
  /-- The host's own memory. -/
  | hostMem (addr : Nat)
  deriving DecidableEq, Repr

/-- Who writes a shared control register (18 R383). -/
inductive Master where
  | host
  | sideband
  deriving DecidableEq, Repr

/-- The message of a fabric flit (18 R377, R378), header fields and data bytes. -/
structure FabMsg where
  op : Nat
  sub : Nat := 0
  addr : Nat := 0
  bytes : Nat := 0
  src : Nat := 0
  dst : Nat := 0
  tag : Nat := 0
  svf : Nat := 0
  len : Nat := 0
  resv : Bool := false
  data : W512 := 0
  deriving DecidableEq, Repr

/-- An error that an outside cause put into one element of a matrix step sum (07 R203): row, column, the amount added in
units of 2^-48, and the half-step of a q4 step. -/
structure Upset where
  row : Nat
  col : Nat
  delta : Int
  half : Nat := 0
  deriving DecidableEq, Repr

/-- What a scrub pass finds at one HBM word (21 R434). -/
structure ScrubFinding where
  off : Nat
  uncorrectable : Bool
  deriving DecidableEq, Repr

/-- An attestation request (22 R452): over the DOE mailbox of physical function 0 or the side-band port, for one measurement, for all of them (255),
or for the certificate chain (0). -/
structure SpdmMsg where
  doe : Bool
  index : Nat
  deriving DecidableEq, Repr

/-- A control message of the side-band port (18 R382). -/
inductive PldmMsg where
  | discovery
  | readBank (u : Nat)
  | powerCap (watts : Nat)
  | packageReset
  | sensor
  | clearBank (u : Nat)
  /-- A write of the telemetry configuration, and a read of the ownership effecter (18 R383). -/
  | telemetry (period : Nat)
  | semaphore
  /-- A firmware update brings an image with its signature, and a configuration block comes the same way (22 R451). -/
  | update (firmware : Nat) (image : List Byte)
  | block (bytes : List Byte)
  /-- The fabric manager's assignment: fabric id, and destinations with their ports (18 R376). -/
  | fabric (id : BitVec 12) (routes : List (Nat × Nat))
  deriving DecidableEq, Repr

end Sys2Proof
end

