-- ==== Sys2Proof/Config.lean ====
section
/-!
DEFINITION. What the manual leaves to the implementation or leaves open: constants without a body, so that nothing can be proved of
their values (log entries 4, 7 and 8).
-/
namespace Sys2Proof.Config

/-- The latency in cycles of the n-th piece of scheduled work (00 R6: figures are no promise; log entry 4). -/
opaque latency : Nat → Nat

/-- A value the manual leaves open (18 R371: the data bytes of a poisoned completion; log entry 4). -/
opaque freeValue : Nat → W512

/-- The entry of the machine-mode firmware and its code capability (20 R416; log entry 7). -/
opaque fwEntry : Addr
opaque fwCap : W128

/-- The modulus of the vendor firmware key, whose digest the security controller holds; the images of a firmware that flash holds as the module is
made, by firmware and place; and the security version that an image's header states (22 R451; log entry 8). -/
opaque vendorKey : Nat
opaque factoryImage : Nat → Nat → List Byte
opaque secVersion : List Byte → Nat

/-- What a configuration block says: the modulus of the owner key that it enrols, if it does, and else minimum versions by firmware (22 R451; log
entry 8). -/
opaque blockKey : List Byte → Option Nat
opaque blockMin : List Byte → SMap Nat

/-- The signature that the identity key makes, and the identity's certificate chain (22 R452; log entry 8). -/
opaque identitySign : List Byte → List Byte
opaque certChain : List Byte

/-- The pseudo-channel, bank and row of an HBM offset (21 R427; the manual gives no address map; log entry 4). -/
opaque rowOf : Nat → Nat × Nat × Nat

/-- Firmware interleaves the second-tier range across 1, 2, 4 or 8 ports (18 R374): the logarithm of their number, and the choice of each port in turn
among those that are left (log entry 4). -/
opaque tier2Ways : Nat
opaque tier2Order : Nat → Nat

/-- Whether the controller of a stack has stopped by a cycle (21 R433; log entry 4). -/
opaque stalls : Nat → Nat → Bool

/-- Whether the n-th training of a stack passes (21 R429; log entry 4). -/
opaque trains : Nat → Bool

/-- The module's serial number, and the number of the format in which the stack firmware keeps its training records (21 R429). -/
opaque serial : Nat
opaque trainFormat : Nat

/-- The lane values that the n-th training or retuning of a pseudo-channel finds, and whether the n-th retuning verifies (21 R429, R432; log
entry 4). -/
opaque laneValues : Nat → Nat → Nat
opaque tunes : Nat → Bool

/-- The rows of a bank (21 R427; log entry 4); what scrub finds and what the mode registers count in a refresh of a pseudo-channel, by stack,
pseudo-channel and cycle (21 R434, R435; log entry 4). -/
opaque bankRows : Nat
opaque scrubFinds : Nat → Nat → Nat → List ScrubFinding
opaque bankCounts : Nat → Nat → Nat → List (Nat × Nat)

/-- The temperatures in °C of a die and of a stack in a cycle (23 R458; log entry 4). -/
opaque dieTemp : Nat → Nat → Byte
opaque stackTemp : Nat → Nat → Byte

/-- Whether flash takes and verifies the n-th intent record (20 R408; log entry 4). -/
opaque flashOk : Nat → Bool

end Sys2Proof.Config
end

