-- ==== Sys2Proof/Syntax.lean ====
section
/-!
DEFINITION. The steps of the machine: one constructor for each row of the opcode table. A thread instruction carries the fields
of its 96-bit word (03 R76, R77), a cue instruction those of its 32-bit word (19 R391), and every other row is a whole
step of the device (95), with what an outside agent or the choice of a unit gives it.
-/
namespace Sys2Proof

/-- The fields of a 96-bit instruction word beside OP and FN (03 R76, R77). `imm` is imm32, off32 or the ENG descriptor
[95:64] with its upper half zero, and imm48 [95:48] in the I48 form, where `c` and `m` stand for no bits of their own. -/
structure Fields where
  gp : BitVec 3 := 0
  gi : Bool := false
  d : Opnd := .s 0
  a : Opnd := .s 0
  b : Opnd := .s 0
  c : Opnd := .s 0
  m : BitVec 8 := 0
  imm : BitVec 48 := 0
  e : Bool := false
  cp : BitVec 2 := 0
  n : Bool := false
  deriving DecidableEq, Repr

/-- One constructor for each row of spec/opcode_table.json. An `amo` carries its size: `dbl` is FN[5:4] = 1 (06 R156). -/
inductive Instr where
  | iaAdd (f : Fields)
  | iaSub (f : Fields)
  | iaMul (f : Fields)
  | iaMulh (f : Fields)
  | iaMulhu (f : Fields)
  | iaDiv (f : Fields)
  | iaDivu (f : Fields)
  | iaRem (f : Fields)
  | iaRemu (f : Fields)
  | iaAnd (f : Fields)
  | iaOr (f : Fields)
  | iaXor (f : Fields)
  | iaAndn (f : Fields)
  | iaShl (f : Fields)
  | iaShr (f : Fields)
  | iaSra (f : Fields)
  | iaRot (f : Fields)
  | iaMin (f : Fields)
  | iaMax (f : Fields)
  | iaMinu (f : Fields)
  | iaMaxu (f : Fields)
  | iaClz (f : Fields)
  | iaCtz (f : Fields)
  | iaPopc (f : Fields)
  | iaMov (f : Fields)
  | iaMovC (f : Fields)
  | iaAddI (f : Fields)
  | iaSubI (f : Fields)
  | iaMulI (f : Fields)
  | iaMulhI (f : Fields)
  | iaMulhuI (f : Fields)
  | iaDivI (f : Fields)
  | iaDivuI (f : Fields)
  | iaRemI (f : Fields)
  | iaRemuI (f : Fields)
  | iaAndI (f : Fields)
  | iaOrI (f : Fields)
  | iaXorI (f : Fields)
  | iaAndnI (f : Fields)
  | iaShlI (f : Fields)
  | iaShrI (f : Fields)
  | iaSraI (f : Fields)
  | iaRotI (f : Fields)
  | iaMinI (f : Fields)
  | iaMaxI (f : Fields)
  | iaMinuI (f : Fields)
  | iaMaxuI (f : Fields)
  | iaBfx (f : Fields)
  | iaBfi (f : Fields)
  | iaSel (f : Fields)
  | iaBfxI (f : Fields)
  | iaBfiI (f : Fields)
  | iaLi (f : Fields)
  | icmpEq (f : Fields)
  | icmpNe (f : Fields)
  | icmpLt (f : Fields)
  | icmpLtu (f : Fields)
  | icmpLe (f : Fields)
  | icmpLeu (f : Fields)
  | icmpEqI (f : Fields)
  | icmpNeI (f : Fields)
  | icmpLtI (f : Fields)
  | icmpLtuI (f : Fields)
  | icmpLeI (f : Fields)
  | icmpLeuI (f : Fields)
  | capBound (f : Fields)
  | capPerm (f : Fields)
  | capSetaddr (f : Fields)
  | capIncaddr (f : Fields)
  | capGetbase (f : Fields)
  | capGetlen (f : Fields)
  | capGetperm (f : Fields)
  | capTagtest (f : Fields)
  | capClear (f : Fields)
  | capBoundI (f : Fields)
  | capPermI (f : Fields)
  | capIncaddrI (f : Fields)
  | prdAnd (f : Fields)
  | prdOr (f : Fields)
  | prdXor (f : Fields)
  | prdNot (f : Fields)
  | prdSet (f : Fields)
  | ctlBr (f : Fields)
  | ctlBrBq (f : Fields)
  | ctlCall (f : Fields)
  | ctlLoop (f : Fields)
  | ctlJr (f : Fields)
  | ctlRet (f : Fields)
  | ctlTrap (f : Fields)
  | ctlNop (f : Fields)
  | ctlExit (f : Fields)
  | ctlAlign (f : Fields)
  | fpuAdd (f : Fields)
  | fpuSub (f : Fields)
  | fpuMul (f : Fields)
  | fpuDiv (f : Fields)
  | fpuMin (f : Fields)
  | fpuMax (f : Fields)
  | fpuSqrt (f : Fields)
  | fpuCmp (f : Fields)
  | fpuCvt (f : Fields)
  | fpuFma (f : Fields)
  | vecAdd (f : Fields)
  | vecSub (f : Fields)
  | vecMul (f : Fields)
  | vecMin (f : Fields)
  | vecMax (f : Fields)
  | vecAbs (f : Fields)
  | vecNeg (f : Fields)
  | vecAnd (f : Fields)
  | vecOr (f : Fields)
  | vecXor (f : Fields)
  | vecShl (f : Fields)
  | vecShr (f : Fields)
  | vecCmp (f : Fields)
  | vecBcast (f : Fields)
  | vecPerm (f : Fields)
  | vecRed (f : Fields)
  | vecScan (f : Fields)
  | vecExp2 (f : Fields)
  | vecLog2 (f : Fields)
  | vecRcp (f : Fields)
  | vecRsqrt (f : Fields)
  | vecTanh (f : Fields)
  | vecCvt (f : Fields)
  | vecPack (f : Fields)
  | vecUnpack (f : Fields)
  | vecFma (f : Fields)
  | vecSel (f : Fields)
  | vecBcastI (f : Fields)
  | vecShlI (f : Fields)
  | vecShrI (f : Fields)
  | qzBlk (f : Fields)
  | qzDq (f : Fields)
  | qzTagget (f : Fields)
  | qzTagset (f : Fields)
  | qzSplit (f : Fields)
  | ldB (f : Fields)
  | ldH (f : Fields)
  | ldW (f : Fields)
  | ldD (f : Fields)
  | ldC (f : Fields)
  | ldBu (f : Fields)
  | ldHu (f : Fields)
  | ldWu (f : Fields)
  | stB (f : Fields)
  | stH (f : Fields)
  | stW (f : Fields)
  | stD (f : Fields)
  | stC (f : Fields)
  | vmVld (f : Fields)
  | vmVst (f : Fields)
  | vmVlds (f : Fields)
  | vmVsts (f : Fields)
  | vmVgath (f : Fields)
  | vmVscat (f : Fields)
  | feLwf (f : Fields)
  | feLwfe (f : Fields)
  | feSwe (f : Fields)
  | feSf (f : Fields)
  | feCe (f : Fields)
  | fePeek (f : Fields)
  | lrW (f : Fields)
  | lrD (f : Fields)
  | scW (f : Fields)
  | scD (f : Fields)
  | amoAdd (dbl : Bool) (f : Fields)
  | amoAnd (dbl : Bool) (f : Fields)
  | amoOr (dbl : Bool) (f : Fields)
  | amoXor (dbl : Bool) (f : Fields)
  | amoMin (dbl : Bool) (f : Fields)
  | amoMax (dbl : Bool) (f : Fields)
  | amoMinu (dbl : Bool) (f : Fields)
  | amoMaxu (dbl : Bool) (f : Fields)
  | amoSwap (dbl : Bool) (f : Fields)
  | amoCas (dbl : Bool) (f : Fields)
  | fence (f : Fields)
  | watchSet (f : Fields)
  | watchClr (f : Fields)
  | watchWaitrs (f : Fields)
  | aregBegin (f : Fields)
  | aregCommit (f : Fields)
  | aregAbort (f : Fields)
  | aregStat (f : Fields)
  | msgSend (f : Fields)
  | msgSendI (f : Fields)
  | msgSendn (f : Fields)
  | msgClr (f : Fields)
  | msgWait (f : Fields)
  | msgImask (f : Fields)
  | msgImaskI (f : Fields)
  | msgIret (f : Fields)
  | cpLin (f : Fields)
  | cpTd (f : Fields)
  | cpG (f : Fields)
  | cpMx (f : Fields)
  | cpWany (f : Fields)
  | cpWall (f : Fields)
  | cpFfr (f : Fields)
  | cpFfrRec (f : Fields)
  | barArm (f : Fields)
  | barArrive (f : Fields)
  | barWait (f : Fields)
  | barStat (f : Fields)
  | mxMma (f : Fields)
  | mxMmaq (f : Fields)
  | mxZero (f : Fields)
  | mxLd (f : Fields)
  | mxSt (f : Fields)
  | mxChk (f : Fields)
  | mxChkInject (f : Fields)
  | ropeSchema (f : Fields)
  | ropeLeaf (f : Fields)
  | ropeCat (f : Fields)
  | ropeSplit (f : Fields)
  | ropeSplice (f : Fields)
  | ropeSum (f : Fields)
  | ropeSeek (f : Fields)
  | ropeWalk (f : Fields)
  | ropePin (f : Fields)
  | ropePinH (f : Fields)
  | ropeUnpin (f : Fields)
  | ropePub (f : Fields)
  | qPush (f : Fields)
  | qPop (f : Fields)
  | qClose (f : Fields)
  | qCloseKill (f : Fields)
  | qGang (f : Fields)
  | pairLock (f : Fields)
  | pairSplit (f : Fields)
  | pairEnd (f : Fields)
  | pqPush (f : Fields)
  | pqPop (f : Fields)
  | bqPush (f : Fields)
  | sysEcall (f : Fields)
  | sysEret (f : Fields)
  | sysWfi (f : Fields)
  | sysTlbinv (f : Fields)
  | sysCtxsave (f : Fields)
  | sysCtxload (f : Fields)
  | sysYield (f : Fields)
  | sysCsrr (f : Fields)
  | sysCsrw (f : Fields)
  | feRequestRetry (req : Nat)
  | lrLeaseExpiry (word : Nat)
  | memoryReply (req : Nat)
  | writeAck (req : Nat)
  | registerScrubDone (cell : Nat) (slot : Nat)
  | timerExpiry (cell : Nat) (slot : Nat)
  | timerInterrupt (cell : Nat) (slot : Nat)
  | arrivalInterrupt (cell : Nat) (slot : Nat)
  | imaskWindowEnd (cell : Nat) (slot : Nat)
  | packetCountClose (cell : Nat) (slot : Nat)
  | packetEnterNetwork (cell : Nat) (slot : Nat)
  | packetLanding (pkt : Nat)
  | packetReoffer (pkt : Nat)
  | commitPerform (cell : Nat) (slot : Nat)
  | barArrivalCount (cell : Nat) (slot : Nat)
  | pairTimeout (cell : Nat) (slot : Nat)
  | alignTimeout (cell : Nat) (slot : Nat)
  | copySegmentWrite (op : Nat)
  | cpGEntryRead (op : Nat)
  | cpmxChainEnqueue (op : Nat)
  | matrixStep (cell : Nat) (upsets : List Upset) (again : List Upset)
  | engineCompletion (op : Nat)
  | checksumFaultTrap (cell : Nat) (slot : Nat)
  | engineFaultRecord (op : Nat)
  | engineFaultReply (fn : Nat) (n : Nat)
  | ropeCommandExecute (cmd : Nat)
  | ropeResultLanding (cmd : Nat)
  | walkRecordEmit (cmd : Nat)
  | walkTailPoll (cmd : Nat)
  | nodeReclaim (pool : Nat)
  | stageRefill (part : Nat) (stage : Nat)
  | headPacketRead (q : Nat)
  | dispatchEvent (part : Nat)
  | tickEvent (part : Nat)
  | controlEventTake (part : Nat)
  | decisionOverrun (part : Nat) (ctl : Bool)
  | fixedPolicyDecision (part : Nat) (ctl : Bool)
  | gangPlacement (die : Nat)
  | cueAdd (d : BitVec 4) (a : BitVec 4) (b : BitVec 4)
  | cueSub (d : BitVec 4) (a : BitVec 4) (b : BitVec 4)
  | cueAnd (d : BitVec 4) (a : BitVec 4) (b : BitVec 4)
  | cueOr (d : BitVec 4) (a : BitVec 4) (b : BitVec 4)
  | cueXor (d : BitVec 4) (a : BitVec 4) (b : BitVec 4)
  | cueShl (d : BitVec 4) (a : BitVec 4) (b : BitVec 4)
  | cueShr (d : BitVec 4) (a : BitVec 4) (b : BitVec 4)
  | cueSlt (d : BitVec 4) (a : BitVec 4) (b : BitVec 4)
  | cueSltu (d : BitVec 4) (a : BitVec 4) (b : BitVec 4)
  | cueSeq (d : BitVec 4) (a : BitVec 4) (b : BitVec 4)
  | cueAddi (d : BitVec 4) (a : BitVec 4) (i : BitVec 18)
  | cueAndi (d : BitVec 4) (a : BitVec 4) (i : BitVec 18)
  | cueLi (d : BitVec 4) (i : BitVec 18)
  | cueLih (d : BitVec 4) (a : BitVec 4) (i : BitVec 18)
  | cueBeq (a : BitVec 4) (b : BitVec 4) (o : BitVec 18)
  | cueBne (a : BitVec 4) (b : BitVec 4) (o : BitVec 18)
  | cueBlt (a : BitVec 4) (b : BitVec 4) (o : BitVec 18)
  | cueJmp (o : BitVec 18)
  | cueRdw (d : BitVec 4) (a : BitVec 4) (w : BitVec 6) (i : BitVec 12)
  | cueBind (a : BitVec 4)
  | cueDefer
  | cuePreempt (a : BitVec 4)
  | cueResume (a : BitVec 4)
  | cueKill
  | cueFwd
  | cueEnd
  | queueContextWrite (q : Nat) (mask : W512) (value : W512)
  | doorbellTail (q : Nat) (value : W32)
  | doorbellCplhead (q : Nat) (value : W32)
  | cplerrClear (q : Nat)
  | hostWrite (loc : HostLoc) (data : List Byte) (poisoned : Bool)
  | hostRead (loc : HostLoc) (len : Nat)
  | hostAtomicop (loc : HostLoc) (op : Nat) (size : Nat) (x : W64) (y : W64)
  | hostAtomicCompletion (req : Nat) (ok : Bool)
  | semaphoreWrite (who : Master) (value : W32)
  | sidebandReset
  | pldmRequest (msg : PldmMsg)
  | spdmRequest (msg : SpdmMsg)
  | tier2LinkDown (port : Nat)
  | flitReceive (port : Nat) (flit : BitVec 2048)
  | fabricRead (port : Nat) (msg : FabMsg)
  | fabricWrite (port : Nat) (msg : FabMsg)
  | fabricAtomic (port : Nat) (msg : FabMsg)
  | fabricLaunch (port : Nat) (msg : FabMsg)
  | fabricResponse (port : Nat) (msg : FabMsg)
  | peerTimeout (req : Nat)
  | layoutCommit (flashOk : Bool)
  | layoutFlip
  | journalRecovery
  | sliceSwitch (part : Nat)
  | slotHalt (cell : Nat) (slot : Nat)
  | granuleExchange (cell : Nat)
  | cellStateExchange (cell : Nat)
  | hbmRefresh (stack : Nat) (pc : Nat) (scrub : List ScrubFinding) (counts : List (Nat × Nat))
  | sequencerTakeover (stack : Nat)
  | retune (stack : Nat) (ok : Bool)
  | throttleRelease (req : Nat)
  | stackRestart (stack : Nat)
  | stackRetry (stack : Nat) (passes : Bool)
  | coldBootTraining (stack : Nat) (passes : Bool)
  | warmResetRestore (stack : Nat) (intact : Bool) (temp : Int) (passes : Bool)
  | countTableWrite (stack : Nat) (bank : Nat)
  | errorBankClear (who : Master) (u : Nat)
  | functionCounterClear (f : Nat) (i : Nat)
  | cueLoad (part : Nat)
  | cueLoadVerified (part : Nat)
  | cueSwap (part : Nat)
  | budgetWrite (f : Nat) (window : Option W32) (budget : Option W64)
  | energyWindowOpen (f : Nat)
  | powerWindowEnd
  | ephemerisModeWrite (part : Nat) (mode : BitVec 2)
  | replayTimeout (part : Nat)
  | registerWrite (off : Nat) (value : W64)
  | packageReset (powerOn : Bool)
  | tier2LinkUp (port : Nat)
  | forwardedFaultResolution (cell : Nat) (slot : Nat) (kill : Bool)
  deriving DecidableEq, Repr

end Sys2Proof
end

