-- ==== Sys2Proof/Machine/State.lean ====
section
/-!
DEFINITION. Everything the manual gives the machine as plain data: threads, cells, memory, engine operations, ropes, queues, prompters,
partitions, stacks, errors, energy and the outside ports; and the state after package reset.
-/
namespace Sys2Proof.Machine

/-- The ways a step can stop. No part of the manual stops the machine as a whole, so nothing of the model raises a fault. -/
inductive Fault where
  /-- Raised by nobody: the manual describes no machine check. Safe. -/
  | machineCheck
  deriving DecidableEq, Repr

/-- Why a step has no meaning. -/
inductive Refusal where
  /-- Raised by the dispatch for an instruction whose meaning is not written. Safe: nothing can be proved of it. -/
  | notModelled (mnemonic : String)
  deriving DecidableEq, Repr

/-- `status.mode` (01 R16); the value 2 never occurs. -/
inductive Mode where
  | user | supervisor | machine
  deriving DecidableEq, Repr

/-- The slot states of 01 R9. -/
inductive SlotState where
  | empty | ready | parked | saved | dead
  deriving DecidableEq, Repr

/-- A scalar cell: data, or a capability when the tag is set (01 R18). -/
structure Reg where
  val : W128 := 0
  tag : Bool := false
  deriving DecidableEq, Repr, Inhabited

/-- A vector register (01 R24). -/
structure VReg where
  bits : W512 := 0
  tag : BitVec 4 := 0
  scale : W64 := 0
  deriving DecidableEq, Repr

/-- A message register (01 R26) with its pending arrival interrupt (06 R174). -/
structure MReg where
  val : W64 := 0
  full : Bool := false
  pend : Bool := false
  deriving DecidableEq, Repr

/-- A loop level (01 R27). -/
structure Level where
  lbeg : Addr := 0
  lend : Addr := 0
  lcnt : W32 := 0
  active : Bool := false
  deriving DecidableEq, Repr

/-- cause, epc and tval of one handling mode (01 R33). -/
structure TrapRegs where
  cause : W64 := 0
  epc : Addr := 0
  tval : W96 := 0
  deriving DecidableEq, Repr

/-- A message packet: the receiver's physical cell and slot, its words by register, and the register whose arrival interrupt the closing
send asked for (06 R172, R174). `id` is the number it got when it was first offered to the network, and `after` the number that every
write before its closing is below (11 R315). -/
structure Packet where
  cell : Nat := 0
  slot : Nat := 0
  words : List (Nat × W64) := []
  int : Option Nat := none
  id : Nat := 0
  after : Nat := 0
  /-- Released by a commit (06 R166). -/
  rel : Bool := false
  deriving DecidableEq, Repr

/-- A load that an atomic region recorded (06 R164): place, size, extension and value as read. -/
structure RLoad where
  key : Nat
  va : Nat
  size : Nat
  signed : Bool
  val : W64
  deriving DecidableEq, Repr

/-- A symbolic tag: the cell holds ext(V k) + c (06 R165). -/
structure Sym where
  k : Nat
  c : W64
  deriving DecidableEq, Repr

/-- The relations of `icmp` (04 R101). -/
inductive Rel where
  | eq | ne | lt | ltu | le | leu
  deriving DecidableEq, Repr

/-- A constraint of a region (06 R165). `left` says that the tagged operand is the first one. -/
inductive Constr where
  | unchanged (k : Nat)
  | rel (r : Rel) (y : Sym) (other : W64) (left : Bool) (outcome : Bool)
  deriving DecidableEq, Repr

/-- A buffered store or send of a region (06 R164). -/
inductive RBuf where
  | store (key size : Nat) (val : W64) (sym : Option Sym)
  | send (cell slot reg : Nat) (val : W64) (fin int : Bool)
  deriving DecidableEq, Repr

/-- An active atomic region (06 R162-R166). -/
structure Region where
  target : Addr := 0
  ckS : SMap Reg := []
  ckShadow : SMap Reg := []
  ckP : Byte := 1
  ckL0 : Level := {}
  ckL1 : Level := {}
  domain : Option Nat := none
  loads : List RLoad := []
  constrs : List Constr := []
  buf : List RBuf := []
  sym : SMap Sym := []
  committing : Bool := false
  /-- The number that everything before its `areg.begin` is below. -/
  born : Nat := 0
  deriving DecidableEq, Repr

/-- Why a thread is parked and what its wake must do (01 R14, 04 R117). -/
inductive Wait where
  /-- On the reply to request `req`. -/
  | reply (req : Nat)
  /-- On an empty message register among `regs`; the instruction issues again. -/
  | msgReg (regs : List Nat)
  | msgWait (mask : W64) (d : Opnd)
  /-- A pop of a stage queue, or of a work queue counted from 2^31. -/
  | pop (queue : Nat) (d : Opnd) (key : Nat)
  /-- A push whose spill write has met a fault. -/
  | spill (id : Nat)
  | tags (all : Bool) (mask : W64) (d : Opnd)
  | barrier (n : Nat) (phase : Bool)
  | watch (d : Opnd) (p : BitVec 3)
  /-- On the lock of a tile of a cell; the instruction issues again. -/
  | tile (cell n : Nat)
  | wfi
  /-- A supervisor-mode trap that waits for the fault decision (20 R417). -/
  | fault
  deriving DecidableEq, Repr

/-- The waiting state of `ctl.align` (04 R119). -/
structure AlignWait where
  addr : Addr
  cohort : BitVec 4
  first : Nat
  limit : Nat
  deriving DecidableEq, Repr

/-- The waiting state of `pair.lock` and `pair.split` (07 R213), with the destination of the code and the message registers that its
completion reads. -/
structure PairWait where
  split : Bool
  d : Opnd
  partner : Nat
  addr : Addr
  first : Nat
  limit : Nat
  ms : List Nat := []
  deriving DecidableEq, Repr

/-- What a thread holds (01 R17, R33-R41; 06; 07 R212; 20 R413). -/
structure Thread where
  s : SMap Reg := []
  shadow : SMap Reg := []
  v : SMap VReg := []
  /-- p1-p7 at their bits; bit 0 is p0 and always set. -/
  p : Byte := 1
  m : SMap MReg := []
  l0 : Level := {}
  l1 : Level := {}
  pc : Addr := 0
  ucap : Reg := {}
  scap : Reg := {}
  mode : Mode := .user
  mie : Bool := false
  tie : Bool := false
  hnd : Bool := false
  imask : Bool := false
  icnt : Nat := 0
  ut : TrapRegs := {}
  st : TrapRegs := {}
  mt : TrapRegs := {}
  sfrom : Mode := .user
  mfrom : Mode := .user
  ivec : Addr := 0
  timer : W64 := 0
  tpend : Bool := false
  fmode : Byte := 0
  srseed : W32 := 0
  asid : BitVec 13 := 0
  cue : Byte := 0
  retired : W64 := 0
  resv : Option Nat := none
  resvLost : Bool := false
  region : Option Region := none
  acause : Byte := 0
  adetail : Byte := 0
  icount : Nat := 0
  lcount : Nat := 0
  scount : Nat := 0
  ccount : Nat := 0
  openPkt : Option Packet := none
  /-- The packet in the open buffer is already closed (06 R173); and how many packets of `released` closed before it. -/
  openClosed : Bool := false
  openAfter : Nat := 0
  closedPkt : Option Packet := none
  pktCount : Nat := 0
  /-- Packets a commit released that have not entered the network (06 R166). -/
  released : List Packet := []
  lnd : Bool := false
  lndAddr : Addr := 0
  /-- The instruction on which the thread is parked has taken its lend action (04 R117); and the levels before it, when the parking issue took it. -/
  parkLnd : Bool := false
  parkLev : Option (Level × Level) := none
  /-- The instruction that a tile lock held issues again, and is not abandoned before it completes (06 R175). -/
  again : Bool := false
  wait : Option Wait := none
  /-- The number that the writes from before the last restore are below (11 R321); and the address of a waiting `sys.tlbinv` with the number
  that everything before its first issue is below (07 R221). -/
  resume : Nat := 0
  inval : Option (Addr × Nat) := none
  /-- `status.pair` and the partner's slot. -/
  pair : BitVec 2 := 0
  partner : Nat := 0
  align : Option AlignWait := none
  /-- Cohorts that the thread has named in a `ctl.align` (04 R119). -/
  cohorts : BitVec 16 := 0
  pairWait : Option PairWait := none
  /-- A checksum fault to take at the next boundary: tile and step (07 R203). -/
  ckTrap : Option (Nat × Nat) := none
  deriving DecidableEq, Repr

/-- The bind record that filled a slot (19 R389): queue, entry, and the number of the bind; and the stage the thread belongs to
(10 R296). -/
structure Bind where
  part : Nat
  queue : Option Nat
  entry : Nat
  group : Nat
  stage : Option Nat := none
  /-- The function it was launched for; a thread put in place without a launch belongs to the owner of its address space. -/
  fn : Option Nat := none
  deriving DecidableEq, Repr

/-- A slot of a cell with its last issue cycle (01 R9, R10), its entry of the slot table (19 R388), its count of eligible turns under
a cut (23 R457), and the cycles in which its ready bit was last set by a wake (01 R14) and its thread last saved (20 R414). -/
structure Slot where
  state : SlotState := .empty
  th : Thread := {}
  last : Option Nat := none
  bind : Option Bind := none
  turns : Nat := 0
  woke : Option Nat := none
  savedAt : Option Nat := none
  /-- Saved by a slice switch, so that the return switch resumes it. -/
  switched : Bool := false
  deriving DecidableEq, Repr

/-- A write to a common register on its way (01 R29). -/
structure KWrite where
  bank : Bool
  reg : Nat
  val : W64
  at_ : Nat
  deriving DecidableEq, Repr

/-- A barrier object (07 R192): current state and armed values, and what it has counted in this cycle (07 R195). -/
structure Barrier where
  phase : Bool := false
  fault : Bool := false
  arr : Nat := 0
  bytes : Int := 0
  armArr : Nat := 0
  armBytes : Nat := 0
  nowArr : Nat := 0
  nowBytes : Nat := 0
  nowFault : Bool := false
  deriving DecidableEq, Repr

/-- A watch entry (06 R159, R160): owner, watched word and fired bit. -/
structure Watch where
  slot : Nat
  word : Nat
  fired : Bool := false
  deriving DecidableEq, Repr

/-- A value that the leader of a locked pair took from outside, with its address or register name (07 R214). -/
structure LVal where
  name : Nat
  val : W512
  full : Bool := false
  deriving DecidableEq, Repr

/-- An effect a leader holds (07 R214): kind, address, size, data. -/
structure HeldEff where
  kind : Nat
  addr : Nat
  size : Nat
  data : List W512
  deriving DecidableEq, Repr

/-- A value that the leader's last instruction takes from outside and its destination, not yet in the queue: name, register, predicate. -/
structure Owed where
  name : Nat
  d : Opnd
  p : Option Nat
  /-- A load of an atomic region; and the value, where it went into a common register. -/
  region : Bool := false
  val : W64 := 0
  deriving DecidableEq, Repr

/-- The queues of a bound pair (07 R214, R216), under the lower slot. Entries of the split queues record the producer's slot. `pend` says
that the leader waits for the match of its last held effect, and `owed` what its last instruction still owes the queue. -/
structure Link where
  lvq : List LVal := []
  held : List HeldEff := []
  pend : Bool := false
  owed : Option Owed := none
  dq : List (Nat × W64) := []
  bq : List (Nat × Bool) := []
  deriving DecidableEq, Repr

/-- A packet accepted at its receiving cell and not landed (10 R300); `arrived` once it has been found that it cannot land. -/
structure HeldPkt where
  fromCell : Nat
  fromSlot : Nat
  slot : Nat
  pkt : Packet
  arrived : Bool := false
  /-- The function whose stream it is, by which it finds a thread that a slice switch has taken out (20 R412). -/
  fn : Option Nat := none
  deriving DecidableEq, Repr

/-- A translation held by a TLB (20 R425): page base and size (log2) of an asid, and the leaf as walked. -/
structure TlbEntry where
  asid : Nat
  base : Nat
  log : Nat
  leaf : W64
  deriving DecidableEq, Repr

/-- What a cell holds (01 R28-R32, R42; 06 R159; 07; 10 R300; 20 R425). -/
structure Cell where
  slots : SMap Slot := []
  last : Nat := 15
  pword : W32 := 0
  k0 : SMap W64 := []
  k1 : SMap W64 := []
  kpend : List KWrite := []
  locks : SMap Nat := []
  bars : SMap Barrier := []
  tdone : W64 := BitVec.allOnes 64
  tfail : W64 := 0
  tcount : SMap Nat := []
  trec : SMap W64 := []
  watch : SMap Watch := []
  mxq : List Nat := []
  repairs : Nat := 0
  replays : Nat := 0
  faults : Nat := 0
  inject : Bool := false
  /-- The banks of the pool that the copy engine and the array have used, by number, in cycle `bankAt` (01 R12). -/
  bankAt : Nat := 0
  banks : W32 := 0
  held : List HeldPkt := []
  links : SMap Link := []
  tlb : List TlbEntry := []
  /-- The cell's share of a slice switch (20 R410-R412): whether one runs, slots halted in order, the granule being exchanged, granules
  exchanged, and whether the cell state block has been. -/
  switch : Bool := false
  halted : List Nat := []
  moving : Option Nat := none
  granules : List Nat := []
  /-- Scratchpad granules that an access waits for. -/
  wanted : List Nat := []
  blockDone : Bool := false
  deriving DecidableEq, Repr

/-- What a switched-out tenant has left of a cell (20 R412): the cell state block, whose format is the device's own, its partition word, its
bank of common registers, and what the slots hold beside their images. -/
structure Block where
  pword : W32 := 0
  k : SMap W64 := []
  slots : SMap Slot := []
  locks : SMap Nat := []
  bars : SMap Barrier := []
  tdone : W64 := BitVec.allOnes 64
  tfail : W64 := 0
  tcount : SMap Nat := []
  trec : SMap W64 := []
  watch : SMap Watch := []
  mxq : List Nat := []
  held : List HeldPkt := []
  links : SMap Link := []
  /-- The bytes under which it was saved to the context area: the argument of the free values they are (log entry 51). -/
  image : Option Nat := none
  deriving DecidableEq, Repr, Inhabited

/-- What a request asks of a word's home (06). -/
inductive ReqOp where
  | load (size : Nat) (signed cap : Bool) (d : Opnd)
  | lr (size : Nat) (d : Opnd)
  | sc (size : Nat) (val : W64) (d : Opnd)
  | amo (op : Nat) (size : Nat) (b c : W64) (d : Opnd)
  /-- A full/empty function by its FN, with its data, D and predicate. -/
  | fe (fn : Nat) (val : W64) (d : Opnd) (p : BitVec 3)
  | store (size : Nat) (val : W512) (tag : Bool)
  /-- A vector load or store by its elements in lane order, each with its key and virtual address. -/
  | vload (elems : List (Nat × Nat)) (esize : Nat) (d : Opnd)
  | vstore (elems : List (Nat × Nat)) (esize : Nat) (val : W512)
  /-- The flush read that follows a write to host or peer memory (06 R149). -/
  | flush
  | commit (d : Opnd)
  deriving DecidableEq, Repr

/-- A request in flight. A posted request is a write that awaits its acknowledgment (06 R148). -/
structure Req where
  cell : Nat
  slot : Nat
  fn : Nat
  va : Nat
  key : Nat
  op : ReqOp
  posted : Bool := false
  /-- Performed at its home, with the value to deliver. -/
  done : Option W512 := none
  full : Bool := false
  poisoned : Bool := false
  /-- Virtual address of the lowest poisoned byte read; numbers of the parts that a peer has answered. -/
  pva : Nat := 0
  got : List Nat := []
  /-- Held at the home (fe, lr), or refused by a full controller. -/
  held : Bool := false
  refused : Bool := false
  /-- The thread has ended: nobody takes the reply. -/
  dead : Bool := false
  /-- The cycle in which a request to a peer was sent; and the detail of the page fault that its answer gives (18 R380). -/
  sent : Nat := 0
  fail : Option Nat := none
  /-- Made by an engine operation for itself (18 R380). -/
  engine : Option Nat := none
  /-- The peer's atomic that the host performs for it (18 R379). -/
  asked : Option FabMsg := none
  /-- The row-policy hint of its instruction (03 R87). -/
  cp : BitVec 2 := 0
  deriving DecidableEq, Repr

/-- An lr lease (06 R155). -/
structure Lease where
  word : Nat
  cell : Nat
  slot : Nat
  until_ : Nat
  deriving DecidableEq, Repr

/-- An arrival of `bar.arrive` that waits for earlier writes (07 R194): cell, slot and function of the thread, barrier, and the number that those
writes are below. -/
structure Arrival where
  cell : Nat
  slot : Nat
  fn : Nat
  bar : Nat
  below : Nat
  deriving DecidableEq, Repr

/-- The object an engine operation signals (07 R180). -/
inductive Compl where
  | tag (cell n : Nat)
  | bar (cell n : Nat)
  deriving DecidableEq, Repr, Inhabited

/-- The matrix command of `mx.mma`, `mx.mmaq` and `cp.mx` (07 R197, R201). -/
structure Mma where
  quant : Bool
  a : Reg
  b : Reg
  geo0 : W128
  geo1 : W128
  side : W64
  fmt : Nat
  seed : W32
  isat : Bool
  deriving DecidableEq, Repr, Inhabited

/-- What an engine operation does (07 R184-R188, R199, R204). -/
inductive OpKind where
  /-- `cp.lin`: source, destination, length. -/
  | lin (src dst len : Nat)
  /-- `cp.td`: source, destination, row length, row count and strides. -/
  | copy (src dst len rows : Nat) (sst dst' : Int)
  | gather (src dst : Reg) (list n : Nat)
  | copyMx (src dst len rows : Nat) (sst dst' : Int) (mx : Mma)
  | mma (mx : Mma)
  | zero (mask : W64)
  | mxld (addr : Nat) (stride : Int) (mask : W64) (fmt : Nat)
  | mxst (addr : Nat) (stride : Int) (mask : W64) (fmt : Nat)
  deriving DecidableEq, Repr, Inhabited

/-- An operation record with its progress (07 R179, R201, R202). `part` and `group` name the issuer's partition and the number of its
bind. -/
structure Op where
  cell : Nat
  slot : Nat
  fn : Nat
  part : Nat
  group : Option Nat
  asid : BitVec 13
  user : Bool
  kind : OpKind
  compl : Compl
  tile : Option Nat := none
  started : Bool := false
  /-- Copies: the destination address up to which all is written. Matrix operations: steps or elements done. -/
  prog : Nat := 0
  /-- Gathers: entries read, bytes they name, and the pieces they name: destination, source, length, poison. -/
  entry : Nat := 0
  total : Nat := 0
  pieces : List (Nat × Nat × Nat × Bool) := []
  /-- Cycle of the next matrix step. -/
  next : Nat := 0
  /-- Column generators, and the 48-bit accumulators of an int32 operation (02 R68, R69). -/
  gens : List W32 := []
  acc : List Int := []
  /-- An injected error still to be added to the first step (07 R205). -/
  inject : Bool := false
  /-- A `cp.mx` whose copy is done: its command waits to enter the array's queue, or is in it. -/
  chain : Bool := false
  /-- A failed translation: access kind and address; and the record of its function whose reply it awaits. -/
  stop : Option (Nat × Nat) := none
  fault : Option (Nat × Nat) := none
  /-- A read of peer memory outstanding, and what peers have returned: key and data. -/
  peer : Option Nat := none
  fetched : List (Nat × W512) := []
  /-- What a matrix operation has read: each aligned 64-byte segment, read at one instant (07 R201): address, data, poison of each byte. -/
  view : List (Nat × W512 × W64) := []
  poison : Bool := false
  /-- Ended early: cause, detail and address. -/
  failed : Option (Nat × Nat × Nat) := none
  finished : Bool := false
  /-- Stopped with its partition (07 R182). -/
  held : Bool := false
  /-- The row-policy hint of its instruction (03 R87). -/
  cp : BitVec 2 := 0
  deriving DecidableEq, Repr, Inhabited

/-- A walk in progress (08 R243): root, next position, records written, stale bit, end, the prefix over the range up to the leaf of
the last record, and the nodes on the path to that leaf (12 R339). -/
structure Walk where
  root : Nat
  pos : Nat
  records : Nat
  stale : Bool
  fin : Nat
  acc : W64
  path : List Nat := []
  deriving DecidableEq, Repr

/-- A captured rope command (08 R232). -/
structure RopeCmd where
  cell : Nat
  slot : Nat
  fn : Nat
  part : Nat
  group : Option Nat
  asid : BitVec 13
  user : Bool
  op : Nat
  m : Byte
  mreg : Nat
  pool : Reg
  b : Reg
  d : Reg
  c0 : W64
  c1 : W64
  /-- The hint N: nodes read are not kept in the node cache; and the row-policy hint (03 R87). -/
  hintN : Bool := false
  cp : BitVec 2 := 0
  /-- Slots found stale before a failed translation (08 R234). -/
  stale : Nat := 0
  walk : Option Walk := none
  /-- Nodes that it has stepped on before it had to wait (12 R339); and of a walk whose fault was declared unresolvable, its status and the address. -/
  seen : List Nat := []
  givenUp : Option (Nat × Nat) := none
  result : Option (List W64) := none
  /-- The number that its completion got: results of one engine for one slot land in that order (08 R233, 10 R300). -/
  ended : Nat := 0
  /-- A failed translation: access kind and address; and the record of its function whose reply it awaits. -/
  stop : Option (Nat × Nat) := none
  fault : Option (Nat × Nat) := none
  /-- Stopped with its partition (08 R245). -/
  held : Bool := false
  /-- Stack of the home engine, and number of the result packet once the cell holds it (08 R233). -/
  home : Nat := 0
  pkt : Nat := 0
  deriving DecidableEq, Repr

/-- What the home engine of a pool holds about it: the pending list's tail (12 R324), and the last command, through whose address space it
reclaims. -/
structure PoolSt where
  tail : Option Nat := none
  last : Option RopeCmd := none
  deriving DecidableEq, Repr

/-- What a rigging engine holds: the cycles of its recent reclaims (12 R337), and the lines of its node cache by their pool and key, least recently
used first (12 R339). The cache is write-through, so it holds what memory holds. -/
structure Rigging where
  reclaims : List Nat := []
  lines : List (Nat × Nat) := []
  deriving DecidableEq, Repr

/-- A stage queue (10 R292-R298). -/
structure Stage where
  home : Nat
  qcap : Nat
  ring : Nat
  scap : Nat
  spill : Nat
  asid : BitVec 13
  low : Nat
  high : Nat
  /-- Bits [287:0] of its record, with its first virtual cell and its number of cells (09 R262, R275). -/
  record : W512 := 0
  first : Nat := 0
  cells : Nat := 1
  head : Nat := 0
  count : Nat := 0
  spHead : Nat := 0
  spCount : Nat := 0
  closed : Bool := false
  killed : Bool := false
  lastMove : Option Nat := none
  refilling : Bool := false
  /-- Parked pops in the order in which they parked: cell, slot, cycle. -/
  parked : List (Nat × Nat × Nat) := []
  deriving DecidableEq, Repr

/-- A spill write or a refill read of a stage queue that has met a translation fault (10 R294): the stage, the pushing thread with the D
of its push, the item, the threads saved meanwhile and those still to be saved, the failed access, and the record whose reply it awaits. -/
structure Spill where
  stage : Nat
  cell : Nat
  slot : Nat
  fn : Nat
  part : Nat
  group : Option Nat
  asid : BitVec 13
  user : Bool
  refill : Bool
  d : Opnd
  item : W512
  poison : Bool
  saved : List (Nat × Nat)
  toSave : List (Nat × Nat)
  stop : Option (Nat × Nat)
  fault : Option (Nat × Nat)
  /-- The failed access has been resolved, and is to be made again. -/
  redo : Bool := false
  deriving DecidableEq, Repr

/-- A hardware work queue (18 R364-R369): its context, CPLHEAD, the head packet the prompter holds, completion records not yet written,
the waiting flag (10 R288), the tail values with the cycles of the writes that set them (19 R393), whether it was closed or killed (07
R210, 20 R419), and pops parked on it. -/
structure HwQueue where
  ctx : W512 := 0
  cplhead : W32 := 0
  head : Option W512 := none
  heldCpl : List W128 := []
  waiting : Bool := false
  marks : List (Nat × Nat) := []
  closed : Bool := false
  killed : Bool := false
  parked : List (Nat × Nat × Nat) := []
  /-- Items of the disabled queue are still to be dropped. -/
  dropping : Bool := false
  deriving DecidableEq, Repr

/-- An event that a decision engine decides (19 R385): the thread concerned and the number of its bind, and for faults
cause, tval and epc. -/
inductive CueEvent where
  | dispatch
  | tick
  | yield (cell slot : Nat) (group : Option Nat)
  | fault (cell slot : Nat) (group : Option Nat) (cause : W64) (tval : W96) (epc : Addr)
  deriving DecidableEq, Repr

/-- A staged emit (19 R394). -/
inductive Emit where
  | bind (q : Nat)
  | defer
  | preempt (cell slot : Nat)
  | resume (cell slot : Nat)
  | kill
  | fwd
  deriving DecidableEq, Repr

/-- A decision engine (19 R384, R390). -/
structure Engine where
  event : Option CueEvent := none
  pc : Nat := 0
  steps : Nat := 0
  emits : List Emit := []
  prog : List W32 := []
  /-- The fixed policy decides the event. -/
  fixed : Bool := false
  q : SMap W64 := []
  /-- Steps that the decision may take, as its start found them (19 R398). -/
  budget : Nat := 256
  /-- The cycle in which the decision's records are written, once its last step is done; and that of the last decision (19 R386). -/
  writing : Option Nat := none
  ended : Nat := 0
  /-- The program was swapped: q8 to q15 are zeroed before the next decision (19 R400). -/
  swapped : Bool := false
  deriving DecidableEq, Repr

/-- The prompter's and the partition blocks' state of one partition (19 R384-R400, 20 R410, 23 R465). -/
structure Part where
  disp : Engine := {}
  ctl : Engine := {}
  active : List W32 := []
  actbase : W64 := 0
  standby : List W32 := []
  stbase : W64 := 0
  sbase : W64 := 0
  stlen : BitVec 16 := 0
  stvalid : Bool := false
  errcnt : W32 := 0
  ovcnt : W32 := 0
  lasterr : Byte := 0
  budget : Nat := 256
  tick : W32 := 0
  tickFrom : Nat := 0
  tickPend : Bool := false
  lastBound : Option Nat := none
  lastPrio : SMap Nat := []
  /-- A load is being verified (19 R399). -/
  loading : Bool := false
  /-- Threads whose pre-emption waits until they can be saved: cell, slot, number of the bind (19 R394). -/
  preempts : List (Nat × Nat × Option Nat) := []
  /-- A swap has been written in this cycle, with the program that decisions of the cycle run (19 R400). -/
  swapFrom : Option (List W32) := none
  /-- The second tenant runs; and it has not run since the flip that enabled the partition (20 R412). -/
  tenant : Bool := false
  firstTurn : Bool := false
  sliceFrom : Nat := 0
  switching : Option Nat := none
  ephBase : BitVec 48 := 0
  ephCap : W32 := 0
  ephPos : W64 := 0
  ephMode : BitVec 2 := 0
  ephDiv : Bool := false
  ephWrap : Bool := false
  ephWait : Nat := 0
  /-- Records of the last recording, and the numbers of those that a replay has consumed. -/
  ephCount : Nat := 0
  ephUsed : List Nat := []
  deriving DecidableEq, Repr

/-- A gang record that a prompter holds (10 R289, 18 R368): the issuer (for `q.gang`, with its target register) or the work queue. -/
structure Gang where
  id : Nat := 0
  /-- Its work queue, and the count of its item there. -/
  queue : Option Nat := none
  item : Nat := 0
  cell : Nat := 0
  slot : Nat := 0
  reg : Nat := 0
  tcell : Nat := 0
  tslot : Nat := 0
  fn : Nat := 0
  asid : BitVec 13 := 0
  part : Nat := 0
  mode : Mode := .user
  /-- The record of a `q.gang` as far as it has been read, with its capability: bytes, bytes asked for, whether a part was poisoned or could not
  be read, and the parts still with a peer (offset, size, key). -/
  rec_ : Reg := {}
  raw : Nat := 0
  size : Nat := 0
  bad : Bool := false
  need : List (Nat × Nat × Nat) := []
  /-- The members that have been placed, with their arguments. -/
  members : List W512 := []
  args : List (List W64) := []
  /-- The cycle from which its outcome word is offered again. -/
  retry : Nat := 0
  /-- Reserved slots of each member, by cells in rank order; and the outcome. -/
  plan : Option (List (List (Nat × List Nat))) := none
  outcome : Option Nat := none
  deriving DecidableEq, Repr

/-- The prompter of a die (19 R385): gang records; held events with their partitions; and faults forwarded and not yet resolved (20 R417). -/
structure Die where
  gangs : List Gang := []
  yields : List (Nat × Nat × Nat × Option Nat) := []
  faults : List (Nat × CueEvent) := []
  forwarded : List CueEvent := []
  deriving DecidableEq, Repr

/-- An MSI-X vector (18 R370), with its table entry under the PCIe specification, by which it is masked at reset. -/
structure Vec where
  armed : Bool := true
  addr : W64 := 0
  data : W32 := 0
  masked : Bool := true
  pending : Bool := false
  sent : Nat := 0
  deriving DecidableEq, Repr

/-- An activation that throttling holds for an agent that makes no request of its own (23 R455): the thread, as its slot plus 1, or 0 for a unit of
the device; the stack and the row; and the cycle until which it is held. -/
structure HeldAct where
  agent : Nat
  stack : Nat
  row : Nat × Nat × Nat
  until_ : Nat
  deriving DecidableEq, Repr

/-- What the device holds of one function (18 R370; 20 R426; 22 R448; 23 R454-R456, R462). -/
structure Fn where
  pj : Nat := 0
  budget : W64 := 0
  window : W32 := 2700000
  credit : Int := 2 ^ 63 - 1
  cut : Nat := 0
  /-- The cut that governs the turns of this cycle (23 R456). -/
  turnCut : Nat := 0
  opened : Nat := 0
  /-- Its budget or window was written in this cycle, at whose end a window opens. -/
  opening : Bool := false
  /-- Energy counter at which the credit was last brought up to date. -/
  mark : Nat := 0
  rfmcnt : W32 := 0
  heldcnt : W32 := 0
  /-- Held activations that have been counted in heldcnt and are not requests. -/
  heldActs : List HeldAct := []
  ringbase : BitVec 48 := 0
  ringlog : BitVec 5 := 6
  logEn : Bool := false
  ovf : Bool := false
  lhead : W32 := 0
  ltail : W32 := 0
  bmbase : BitVec 48 := 0
  ovfcnt : W32 := 0
  counters : SMap W64 := []
  vecs : SMap Vec := []
  faultN : Nat := 0
  /-- Fault records that await a reply; and the first words of kill records that wait for a free record (20 R426). -/
  faultOpen : List Nat := []
  killsHeld : List Nat := []
  deriving DecidableEq, Repr

/-- Activations of a row by a function since the row's refresh, with the cycle of the last, and whether one has made the function throttled on the
row (21 R436). -/
structure RowCount where
  pc : Nat
  bank : Nat
  row : Nat
  fn : Nat
  count : Nat
  last : Nat
  slow : Bool := false
  deriving DecidableEq, Repr

/-- An error as an error bank records it (22 R445). -/
structure ErrRec where
  unit_ : Nat
  kind : Nat
  uc : Bool
  fn : Option Nat
  addr : Nat
  syn : Nat := 0
  deriving DecidableEq, Repr
/-- The errors that have reached a bank in a cycle, in their order, and what it held before them (22 R446). -/
structure ErrLog where
  cycle : Nat
  base : W512
  errs : List ErrRec
  deriving DecidableEq, Repr

/-- What the host or a peer asks of memory, or of registers after it (18 R363, R377). -/
inductive OuterReq where
  | write (loc : HostLoc) (data : List Byte) (poisoned : Bool)
  | read (loc : HostLoc) (len : Nat)
  | atomic (loc : HostLoc) (op size : Nat) (x y : W64)
  | peerRead (port : Nat) (msg : FabMsg)
  | peerWrite (port : Nat) (msg : FabMsg)
  | peerAtomic (port : Nat) (msg : FabMsg)
  | peerLaunch (port : Nat) (msg : FabMsg)
  deriving DecidableEq, Repr

/-- A request that a throttled row holds at its controller, or that comes behind one (21 R436, R437): the number of the request, operation or
command, or a number of its own for what the host or a peer sent; its function; and the places that it accesses. -/
structure HeldAt where
  id : Nat
  fn : Nat
  places : List (Nat × Nat)
  again : Option OuterReq := none
  deriving DecidableEq, Repr

/-- The training record of a stack in flash (21 R429): stack and serial number, temperature, format number, the lane values of each
pseudo-channel, and the check code. -/
structure TrainRec where
  stack : Nat
  serial : Nat
  temp : Int
  format : Nat
  lanes : SMap Nat
  check : W512
  deriving DecidableEq, Repr

/-- An HBM stack's controller (21 R428-R438). -/
structure Stack where
  takeovers : BitVec 16 := 0
  scrubh : Byte := 24
  athr : BitVec 16 := 2048
  owner : Bool := false
  train : BitVec 2 := 0
  restored : Bool := false
  record : Option TrainRec := none
  /-- The row that scrub checks next, counted over pseudo-channel, bank and row, and the cycle in which the pass over the stack began (21 R434). -/
  scrub : Nat := 0
  scrubFrom : Nat := 0
  /-- The lane values in use; the pseudo-channel that is retuned next, 64 when no retune runs; and the cycle and temperature of the last one. -/
  lanes : SMap Nat := []
  tuning : Nat := 64
  tuned : Nat := 0
  tuneTemp : Int := 0
  /-- What was added to the count table in a cycle, by entry. -/
  addedAt : Nat := 0
  added : SMap (BitVec 16) := []
  /-- Cycle of the last refresh of each pseudo-channel (its heartbeat, while the controller owns refresh). -/
  beat : SMap Nat := []
  restarting : Bool := false
  /-- The cycle in which the restarted controller takes ownership. -/
  returnAt : Option Nat := none
  counts : SMap (BitVec 16) := []
  rows : List RowCount := []
  /-- Rows that an access has left open, by pseudo-channel and bank (03 R87). -/
  openRow : SMap Nat := []
  deriving DecidableEq, Repr

/-- A phase of a layout commit (20 R406). -/
inductive Phase where
  | idle | checking | journalling | flipping
  deriving DecidableEq, Repr

/-- The layout banks, by 64-bit words, and the layout control (20 R403-R406); the last intent record of the flash journal with whether
its check code verifies (20 R408, R409). -/
structure Layout where
  bank0 : SMap W64 := []
  bank1 : SMap W64 := []
  seq : W32 := 0
  err : Byte := 0
  phase : Phase := .idle
  sel : Bool := false
  intent : Option (W32 × SMap W64 × Bool) := none
  deriving DecidableEq, Repr

/-- A fabric port (18 R376): sequence number sent last, last sequence received intact, credits returned and not spent by class, and the retry
buffer: the flits that no flit has acknowledged yet. -/
structure Port where
  seq : Nat := 4095
  ack : Nat := 4095
  credits : SMap Nat := []
  retry : List (Nat × BitVec 2048) := []
  /-- Credits to be returned, by class; messages that wait for room in the retry buffer; and the acknowledgment heard last. -/
  owed : SMap Nat := []
  waiting : List FabMsg := []
  heard : Nat := 4095
  deriving DecidableEq, Repr

/-- What the device has sent to the outside: messages, completions and reports, oldest first. -/
inductive Out where
  /-- A completion of a host request: Unsupported Request, or data with EP. -/
  | completion (ok : Bool) (poison : Bool) (data : List Byte)
  | msix (fn vec : Nat)
  | aer (fn : Nat) (kind : Nat)
  | pldm (unit_ : Nat)
  | pldmReply (data : List W64)
  /-- A measurement report of the security controller, over the side-band port or the DOE mailbox: the digests by index, signed; and the
  certificate chain (22 R452). -/
  | spdm (doe : Bool) (digests : List (Nat × W512)) (sign : List Byte)
  | spdmChain (doe : Bool) (chain : List Byte)
  | fabric (port : Nat) (msg : FabMsg) (flit : BitVec 2048)
  /-- A flit sent again from a port's retry buffer. -/
  | replay (port : Nat) (flit : BitVec 2048)
  | hostWrite (addr : Nat) (data : List Byte) (poison : Bool)
  | hostRead (addr : Nat) (len : Nat)
  | hostAtomic (req : Nat) (addr op size : Nat) (b c : W64)
  | coreIrq (part code : Nat)
  | faultFwd (cell slot : Nat)
  deriving DecidableEq, Repr

/-- The module block, semaphore and security state (18 R383, 22 R451, R452, 23 R458). -/
structure Module where
  semOwner : BitVec 2 := 0
  semLost : Bool := false
  semDenied : Bool := false
  /-- The cycle in which the host last claimed the semaphore. -/
  semClaim : Option Nat := none
  cap : BitVec 16 := 3200
  power : BitVec 16 := 0
  mcut : Nat := 0
  totalPj : Nat := 0
  windowPj : Nat := 0
  above : Nat := 0
  tper : BitVec 16 := 1000
  dietemp : SMap Byte := []
  stktemp : SMap Byte := []
  measured : SMap W512 := []
  /-- The owner key's modulus, 0 when none is enrolled, the minimum versions of the owner configuration, the firmware images that updates have
  written (image k of firmware f under 2f + k), and the image that each firmware runs (22 R451). -/
  ownerKey : Nat := 0
  minVersion : SMap Nat := []
  images : SMap (List Byte) := []
  running : SMap Nat := []
  dead : Bool := false
  deriving DecidableEq, Repr

/-- Work that elapsed time has made due; each stands for the step of the opcode table of the same name. -/
inductive Due where
  | feRetry (req : Nat)
  | leaseExpiry (word : Nat)
  | reply (req : Nat)
  | ack (req : Nat)
  | scrubDone (cell slot : Nat)
  | timerExpiry (cell slot : Nat)
  | timerInt (cell slot : Nat)
  | arrivalInt (cell slot : Nat)
  | ckTrap (cell slot : Nat)
  | imaskEnd (cell slot : Nat)
  | pktCount (cell slot : Nat)
  | packetEnter (cell slot : Nat)
  | packetLand (id : Nat)
  | packetReoffer (id : Nat)
  | commit (cell slot : Nat)
  | barCount (cell slot : Nat)
  | pairTimeout (cell slot : Nat)
  | alignTimeout (cell slot : Nat)
  | segment (op : Nat)
  | entryRead (op : Nat)
  | chain (op : Nat)
  | matrixStep (cell : Nat)
  | completion (op : Nat)
  | faultRecord (op : Nat)
  | faultReply (fn n : Nat)
  | ropeExec (cmd : Nat)
  | ropeLand (cmd : Nat)
  | walkEmit (cmd : Nat)
  | tailPoll (cmd : Nat)
  | reclaim (pool : Nat)
  | refill (part stage : Nat)
  | headRead (q : Nat)
  | dispatch (part : Nat)
  | tick (part : Nat)
  | control (part : Nat)
  | fixedPolicy (part : Nat) (ctl : Bool)
  | gang (die : Nat)
  | slice (part : Nat)
  | window (fn : Nat)
  | power
  | refresh (stack pc cycle : Nat)
  | retune (stack : Nat) (ok : Bool)
  | takeover (stack : Nat)
  | peerTimeout (req : Nat)
  | replayTimeout (part : Nat)
  | throttle (req : Nat)
  | slotHalt (cell slot : Nat)
  | granule (cell : Nat)
  | block (cell : Nat)
  | train (stack : Nat) (passes : Bool)
  | hostDone (req : Nat)
  | fabric (port : Nat) (msg : FabMsg)
  | layoutCommit (flashOk : Bool)
  | layoutFlip
  | cueLoaded (part : Nat)
  deriving DecidableEq, Repr

/-- The whole machine. -/
structure State where
  cells : SMap Cell := []
  /-- What switched-out tenants have left: cell c of tenant t under 2c + t. -/
  blocks : SMap Block := []
  /-- Memory by physical key (Machine/Ops.lean): listed bytes, and the words, granules and 4-byte places that are empty, tagged and
  poisoned. -/
  mem : List Host.Cell := []
  emptyW : List Nat := []
  tags : List Nat := []
  poison : List Nat := []
  reqs : SMap Req := []
  /-- Held full/empty operations and held lr, in arrival order (06 R153, R155). -/
  feHeld : List Nat := []
  lrHeld : List Nat := []
  leases : List Lease := []
  ops : SMap Op := []
  cmds : SMap RopeCmd := []
  pools : SMap PoolSt := []
  rigs : SMap Rigging := []
  arrivals : List Arrival := []
  /-- Commits that have reached their engines, by their requests, in the order in which they reached them (16 R353). -/
  commits : List Nat := []
  stages : SMap Stage := []
  spills : SMap Spill := []
  queues : SMap HwQueue := []
  dies : SMap Die := []
  parts : SMap Part := []
  fns : SMap Fn := []
  hbms : SMap Stack := []
  layout : Layout := {}
  banks : SMap W512 := []
  errLog : SMap ErrLog := []
  acl : SMap W64 := []
  ports : SMap Port := []
  linksDown : List Nat := []
  /-- Requests that throttling holds at the controllers, in the order in which they came (21 R437). -/
  throttled : List HeldAt := []
  /-- Aborts of regions still to be noted in their partitions' ephemerides: cell, slot and data (23 R466). -/
  aborts : List (Nat × Nat × Nat) := []
  /-- Settings of d in the cycle that are still to be logged: made by a thread, function, HBM offset and size (log2) of the page (23 R463). -/
  dirty : List (Bool × Nat × Nat × Nat) := []
  /-- The fabric id of the device and its route table, destination to port (18 R376). -/
  fabricId : BitVec 12 := 0
  routes : SMap Nat := []
  /-- Reserved slots of a gang being placed, and the prompter that holds the token (10 R290, R291). -/
  reserved : List (Nat × Nat) := []
  token : Option Nat := none
  /-- Notices of fault records that have not entered the network (20 R426, 10 R300). -/
  notices : List HeldPkt := []
  module : Module := {}
  l2tlb : SMap (List TlbEntry) := []
  /-- The ASID contexts that the second-level TLB of a stack domain holds: an address space and its level-3 table (20 R425). -/
  l2ctx : SMap (List (Nat × Nat)) := []
  /-- Instruction-cache lines held by a cluster: cluster, asid, line address (own-pool code carries the cell), whether user mode may execute
  it, and bytes (03 R94). -/
  icache : List (Nat × Nat × Nat × Bool × List Byte) := []
  out : List Out := []
  cycle : Nat := 0
  /-- The thread or decision engine whose move the step is. -/
  cur : Nat × Nat := (0, 0)
  curEng : Nat × Bool := (1, false)
  turn : Nat := 0
  /-- Steps that outside agents have made due, oldest first; and work that elapsed time has made due now, and later with its cycle. -/
  agenda : List Instr := []
  due : List Due := []
  later : List (Nat × Due) := []
  /-- Argument of the free values of Config. -/
  fresh : Nat := 0
  nextId : Nat := 1
  deriving DecidableEq, Repr

/-- The machine after package reset: every register at the value the manual gives, and where it gives none at the value of the assumption
log's entries 1 and 2 (the defaults of the fields above). -/
def State.reset : State := {}

end Sys2Proof.Machine
end

