-- ==== Sys2Proof/Machine/Encoding.lean ====
section
/-!
DEFINITION. The encoding table of the thread instructions (03 R77, R79-R92): for each row its OP, FN, form, operand classes, minimum
mode, and the rules of its modifier byte, immediate and hints. The decoder, the encoder, well-formedness and the class and
mode checks of an issue all read this one table.
-/
namespace Sys2Proof

/-- The forms of the upper part of a word (03 R77). -/
inductive Form where
  | r3 | r4 | i32 | i48 | br | eng
  deriving DecidableEq, Repr

/-- The class of one operand field (03 R81): unused, d, c, v or p; a d source whose scalar register must be even (`es`), a vector
register that must be even (`ev`); and fields whose use a modifier decides: `dq` is v when M[7] = 1 and unused otherwise
(05 R138), `wc` and `wd` are c and d when M[0] = 0 and unused otherwise (06 R160), `wk` is c when M[0] = 0 and d otherwise
(08 R243). -/
inductive Cls where
  | no | d | c | v | p | es | ev | dq | wc | wd | wk
  deriving DecidableEq, Repr

/-- What a function defines of its modifier byte (03 R88, R89; each function's own description). -/
inductive MRule where
  | zero
  | is (n : Nat)
  /-- Only the bits of the mask may be set. -/
  | bits (mask : Nat)
  /-- Ordering, plain or this one ORD value (03 R88). -/
  | ord (o : Nat)
  | ordAny | fence | fpu | fpuCmp | fpuCvt | vecCmp | bcast | red | scan | vecCvt | blk | dq | cpMx | acc | tlb
  deriving DecidableEq, Repr

/-- What a function defines of its immediate or descriptor (03 R77, R79, R92). -/
inductive IRule where
  | zero
  | any
  /-- Bits `n` and up are reserved. -/
  | below (n : Nat)
  /-- `ctl.loop`: off32 is at least 1 (04 R115). -/
  | loop
  /-- A strided access: [31:30] reserved, [29:28] not 3 (06 R151). -/
  | stride
  /-- The descriptor fields in use: MREG, TILE, completion (CSEL, BOBJ, CTAG). -/
  | desc (mreg tile compl : Bool)
  | bobj
  | csr
  deriving DecidableEq, Repr

/-- The hints a function accepts (03 R87). -/
inductive HRule where
  | none | e | cp | cpN
  deriving DecidableEq, Repr

/-- One row of the encoding table. -/
structure Row where
  op : Nat
  fn : Nat
  form : Form
  d : Cls
  a : Cls
  b : Cls
  c : Cls
  mode : Nat
  m : MRule
  imm : IRule
  hint : HRule
  deriving DecidableEq, Repr


/-- The row of the opcode table a thread instruction stands for, with its fields (03 R90, and the operand classes and modifiers of
the instruction chapters 04-08); none for a cue word or an event. -/
def rowOf : Instr → Option (Row × Fields)
  | .iaAdd f => some (⟨0x00, 0, .r3, .d, .d, .d, .no, 0, .zero, .zero, .none⟩, f)
  | .iaSub f => some (⟨0x00, 1, .r3, .d, .d, .d, .no, 0, .zero, .zero, .none⟩, f)
  | .iaMul f => some (⟨0x00, 2, .r3, .d, .d, .d, .no, 0, .zero, .zero, .none⟩, f)
  | .iaMulh f => some (⟨0x00, 3, .r3, .d, .d, .d, .no, 0, .zero, .zero, .none⟩, f)
  | .iaMulhu f => some (⟨0x00, 4, .r3, .d, .d, .d, .no, 0, .zero, .zero, .none⟩, f)
  | .iaDiv f => some (⟨0x00, 5, .r3, .d, .d, .d, .no, 0, .zero, .zero, .none⟩, f)
  | .iaDivu f => some (⟨0x00, 6, .r3, .d, .d, .d, .no, 0, .zero, .zero, .none⟩, f)
  | .iaRem f => some (⟨0x00, 7, .r3, .d, .d, .d, .no, 0, .zero, .zero, .none⟩, f)
  | .iaRemu f => some (⟨0x00, 8, .r3, .d, .d, .d, .no, 0, .zero, .zero, .none⟩, f)
  | .iaAnd f => some (⟨0x00, 9, .r3, .d, .d, .d, .no, 0, .zero, .zero, .none⟩, f)
  | .iaOr f => some (⟨0x00, 10, .r3, .d, .d, .d, .no, 0, .zero, .zero, .none⟩, f)
  | .iaXor f => some (⟨0x00, 11, .r3, .d, .d, .d, .no, 0, .zero, .zero, .none⟩, f)
  | .iaAndn f => some (⟨0x00, 12, .r3, .d, .d, .d, .no, 0, .zero, .zero, .none⟩, f)
  | .iaShl f => some (⟨0x00, 13, .r3, .d, .d, .d, .no, 0, .zero, .zero, .none⟩, f)
  | .iaShr f => some (⟨0x00, 14, .r3, .d, .d, .d, .no, 0, .zero, .zero, .none⟩, f)
  | .iaSra f => some (⟨0x00, 15, .r3, .d, .d, .d, .no, 0, .zero, .zero, .none⟩, f)
  | .iaRot f => some (⟨0x00, 16, .r3, .d, .d, .d, .no, 0, .zero, .zero, .none⟩, f)
  | .iaMin f => some (⟨0x00, 17, .r3, .d, .d, .d, .no, 0, .zero, .zero, .none⟩, f)
  | .iaMax f => some (⟨0x00, 18, .r3, .d, .d, .d, .no, 0, .zero, .zero, .none⟩, f)
  | .iaMinu f => some (⟨0x00, 19, .r3, .d, .d, .d, .no, 0, .zero, .zero, .none⟩, f)
  | .iaMaxu f => some (⟨0x00, 20, .r3, .d, .d, .d, .no, 0, .zero, .zero, .none⟩, f)
  | .iaClz f => some (⟨0x00, 21, .r3, .d, .d, .no, .no, 0, .zero, .zero, .none⟩, f)
  | .iaCtz f => some (⟨0x00, 22, .r3, .d, .d, .no, .no, 0, .zero, .zero, .none⟩, f)
  | .iaPopc f => some (⟨0x00, 23, .r3, .d, .d, .no, .no, 0, .zero, .zero, .none⟩, f)
  | .iaMov f => some (⟨0x00, 24, .r3, .d, .d, .no, .no, 0, (.is 0), .zero, .none⟩, f)
  | .iaMovC f => some (⟨0x00, 24, .r3, .c, .c, .no, .no, 0, (.is 1), .zero, .none⟩, f)
  | .iaAddI f => some (⟨0x02, 0, .i32, .d, .d, .no, .no, 0, .zero, .any, .none⟩, f)
  | .iaSubI f => some (⟨0x02, 1, .i32, .d, .d, .no, .no, 0, .zero, .any, .none⟩, f)
  | .iaMulI f => some (⟨0x02, 2, .i32, .d, .d, .no, .no, 0, .zero, .any, .none⟩, f)
  | .iaMulhI f => some (⟨0x02, 3, .i32, .d, .d, .no, .no, 0, .zero, .any, .none⟩, f)
  | .iaMulhuI f => some (⟨0x02, 4, .i32, .d, .d, .no, .no, 0, .zero, .any, .none⟩, f)
  | .iaDivI f => some (⟨0x02, 5, .i32, .d, .d, .no, .no, 0, .zero, .any, .none⟩, f)
  | .iaDivuI f => some (⟨0x02, 6, .i32, .d, .d, .no, .no, 0, .zero, .any, .none⟩, f)
  | .iaRemI f => some (⟨0x02, 7, .i32, .d, .d, .no, .no, 0, .zero, .any, .none⟩, f)
  | .iaRemuI f => some (⟨0x02, 8, .i32, .d, .d, .no, .no, 0, .zero, .any, .none⟩, f)
  | .iaAndI f => some (⟨0x02, 9, .i32, .d, .d, .no, .no, 0, .zero, .any, .none⟩, f)
  | .iaOrI f => some (⟨0x02, 10, .i32, .d, .d, .no, .no, 0, .zero, .any, .none⟩, f)
  | .iaXorI f => some (⟨0x02, 11, .i32, .d, .d, .no, .no, 0, .zero, .any, .none⟩, f)
  | .iaAndnI f => some (⟨0x02, 12, .i32, .d, .d, .no, .no, 0, .zero, .any, .none⟩, f)
  | .iaShlI f => some (⟨0x02, 13, .i32, .d, .d, .no, .no, 0, .zero, (.below 6), .none⟩, f)
  | .iaShrI f => some (⟨0x02, 14, .i32, .d, .d, .no, .no, 0, .zero, (.below 6), .none⟩, f)
  | .iaSraI f => some (⟨0x02, 15, .i32, .d, .d, .no, .no, 0, .zero, (.below 6), .none⟩, f)
  | .iaRotI f => some (⟨0x02, 16, .i32, .d, .d, .no, .no, 0, .zero, (.below 6), .none⟩, f)
  | .iaMinI f => some (⟨0x02, 17, .i32, .d, .d, .no, .no, 0, .zero, .any, .none⟩, f)
  | .iaMaxI f => some (⟨0x02, 18, .i32, .d, .d, .no, .no, 0, .zero, .any, .none⟩, f)
  | .iaMinuI f => some (⟨0x02, 19, .i32, .d, .d, .no, .no, 0, .zero, .any, .none⟩, f)
  | .iaMaxuI f => some (⟨0x02, 20, .i32, .d, .d, .no, .no, 0, .zero, .any, .none⟩, f)
  | .iaBfx f => some (⟨0x01, 0, .r4, .d, .d, .d, .no, 0, (.bits 1), .zero, .none⟩, f)
  | .iaBfi f => some (⟨0x01, 1, .r4, .d, .d, .d, .d, 0, .zero, .zero, .none⟩, f)
  | .iaSel f => some (⟨0x01, 2, .r4, .d, .d, .d, .p, 0, .zero, .zero, .none⟩, f)
  | .iaBfxI f => some (⟨0x03, 0, .i32, .d, .d, .no, .no, 0, (.bits 1), (.below 13), .none⟩, f)
  | .iaBfiI f => some (⟨0x03, 1, .i32, .d, .d, .d, .no, 0, .zero, (.below 13), .none⟩, f)
  | .iaLi f => some (⟨0x04, 0, .i48, .d, .no, .no, .no, 0, .zero, .any, .none⟩, f)
  | .icmpEq f => some (⟨0x05, 0, .r3, .p, .d, .d, .no, 0, .zero, .zero, .none⟩, f)
  | .icmpNe f => some (⟨0x05, 1, .r3, .p, .d, .d, .no, 0, .zero, .zero, .none⟩, f)
  | .icmpLt f => some (⟨0x05, 2, .r3, .p, .d, .d, .no, 0, .zero, .zero, .none⟩, f)
  | .icmpLtu f => some (⟨0x05, 3, .r3, .p, .d, .d, .no, 0, .zero, .zero, .none⟩, f)
  | .icmpLe f => some (⟨0x05, 4, .r3, .p, .d, .d, .no, 0, .zero, .zero, .none⟩, f)
  | .icmpLeu f => some (⟨0x05, 5, .r3, .p, .d, .d, .no, 0, .zero, .zero, .none⟩, f)
  | .icmpEqI f => some (⟨0x06, 0, .i32, .p, .d, .no, .no, 0, .zero, .any, .none⟩, f)
  | .icmpNeI f => some (⟨0x06, 1, .i32, .p, .d, .no, .no, 0, .zero, .any, .none⟩, f)
  | .icmpLtI f => some (⟨0x06, 2, .i32, .p, .d, .no, .no, 0, .zero, .any, .none⟩, f)
  | .icmpLtuI f => some (⟨0x06, 3, .i32, .p, .d, .no, .no, 0, .zero, .any, .none⟩, f)
  | .icmpLeI f => some (⟨0x06, 4, .i32, .p, .d, .no, .no, 0, .zero, .any, .none⟩, f)
  | .icmpLeuI f => some (⟨0x06, 5, .i32, .p, .d, .no, .no, 0, .zero, .any, .none⟩, f)
  | .capBound f => some (⟨0x10, 0, .r3, .c, .c, .d, .no, 0, (.bits 7), .zero, .none⟩, f)
  | .capPerm f => some (⟨0x10, 1, .r3, .c, .c, .d, .no, 0, .zero, .zero, .none⟩, f)
  | .capSetaddr f => some (⟨0x10, 2, .r3, .c, .c, .d, .no, 0, .zero, .zero, .none⟩, f)
  | .capIncaddr f => some (⟨0x10, 3, .r3, .c, .c, .d, .no, 0, .zero, .zero, .none⟩, f)
  | .capGetbase f => some (⟨0x10, 4, .r3, .d, .c, .no, .no, 0, .zero, .zero, .none⟩, f)
  | .capGetlen f => some (⟨0x10, 5, .r3, .d, .c, .no, .no, 0, .zero, .zero, .none⟩, f)
  | .capGetperm f => some (⟨0x10, 6, .r3, .d, .c, .no, .no, 0, .zero, .zero, .none⟩, f)
  | .capTagtest f => some (⟨0x10, 7, .r3, .p, .c, .no, .no, 0, .zero, .zero, .none⟩, f)
  | .capClear f => some (⟨0x10, 8, .r3, .c, .c, .no, .no, 0, .zero, .zero, .none⟩, f)
  | .capBoundI f => some (⟨0x11, 0, .i32, .c, .c, .no, .no, 0, (.bits 7), .any, .none⟩, f)
  | .capPermI f => some (⟨0x11, 1, .i32, .c, .c, .no, .no, 0, .zero, (.below 16), .none⟩, f)
  | .capIncaddrI f => some (⟨0x11, 3, .i32, .c, .c, .no, .no, 0, .zero, .any, .none⟩, f)
  | .prdAnd f => some (⟨0x18, 0, .r3, .p, .p, .p, .no, 0, .zero, .zero, .none⟩, f)
  | .prdOr f => some (⟨0x18, 1, .r3, .p, .p, .p, .no, 0, .zero, .zero, .none⟩, f)
  | .prdXor f => some (⟨0x18, 2, .r3, .p, .p, .p, .no, 0, .zero, .zero, .none⟩, f)
  | .prdNot f => some (⟨0x18, 3, .r3, .p, .p, .no, .no, 0, .zero, .zero, .none⟩, f)
  | .prdSet f => some (⟨0x18, 4, .r3, .p, .d, .no, .no, 0, .zero, .zero, .none⟩, f)
  | .ctlBr f => some (⟨0x20, 0, .br, .no, .no, .no, .no, 0, (.is 0), .any, .none⟩, f)
  | .ctlBrBq f => some (⟨0x20, 0, .br, .no, .no, .no, .no, 0, (.is 1), .any, .none⟩, f)
  | .ctlCall f => some (⟨0x20, 1, .br, .d, .no, .no, .no, 0, .zero, .any, .none⟩, f)
  | .ctlLoop f => some (⟨0x20, 2, .br, .no, .d, .no, .no, 0, .zero, .loop, .none⟩, f)
  | .ctlJr f => some (⟨0x21, 0, .r3, .d, .d, .no, .no, 0, .zero, .zero, .none⟩, f)
  | .ctlRet f => some (⟨0x21, 1, .r3, .no, .d, .no, .no, 0, .zero, .zero, .none⟩, f)
  | .ctlTrap f => some (⟨0x21, 2, .r3, .no, .d, .d, .no, 0, .zero, .zero, .none⟩, f)
  | .ctlNop f => some (⟨0x21, 3, .r3, .no, .no, .no, .no, 0, .zero, .zero, .none⟩, f)
  | .ctlExit f => some (⟨0x21, 4, .r3, .no, .no, .no, .no, 0, .zero, .zero, .none⟩, f)
  | .ctlAlign f => some (⟨0x22, 0, .i32, .no, .no, .no, .no, 0, .zero, (.below 20), .none⟩, f)
  | .fpuAdd f => some (⟨0x30, 0, .r3, .d, .d, .d, .no, 0, .fpu, .zero, .none⟩, f)
  | .fpuSub f => some (⟨0x30, 1, .r3, .d, .d, .d, .no, 0, .fpu, .zero, .none⟩, f)
  | .fpuMul f => some (⟨0x30, 2, .r3, .d, .d, .d, .no, 0, .fpu, .zero, .none⟩, f)
  | .fpuDiv f => some (⟨0x30, 3, .r3, .d, .d, .d, .no, 0, .fpu, .zero, .none⟩, f)
  | .fpuMin f => some (⟨0x30, 4, .r3, .d, .d, .d, .no, 0, .fpu, .zero, .none⟩, f)
  | .fpuMax f => some (⟨0x30, 5, .r3, .d, .d, .d, .no, 0, .fpu, .zero, .none⟩, f)
  | .fpuSqrt f => some (⟨0x30, 6, .r3, .d, .d, .no, .no, 0, .fpu, .zero, .none⟩, f)
  | .fpuCmp f => some (⟨0x30, 7, .r3, .p, .d, .d, .no, 0, .fpuCmp, .zero, .none⟩, f)
  | .fpuCvt f => some (⟨0x30, 8, .r3, .d, .d, .no, .no, 0, .fpuCvt, .zero, .none⟩, f)
  | .fpuFma f => some (⟨0x31, 0, .r4, .d, .d, .d, .d, 0, .fpu, .zero, .none⟩, f)
  | .vecAdd f => some (⟨0x40, 0, .r3, .v, .v, .v, .no, 0, (.bits 3), .zero, .none⟩, f)
  | .vecSub f => some (⟨0x40, 1, .r3, .v, .v, .v, .no, 0, (.bits 3), .zero, .none⟩, f)
  | .vecMul f => some (⟨0x40, 2, .r3, .v, .v, .v, .no, 0, (.bits 3), .zero, .none⟩, f)
  | .vecMin f => some (⟨0x40, 3, .r3, .v, .v, .v, .no, 0, (.bits 3), .zero, .none⟩, f)
  | .vecMax f => some (⟨0x40, 4, .r3, .v, .v, .v, .no, 0, (.bits 3), .zero, .none⟩, f)
  | .vecAbs f => some (⟨0x40, 5, .r3, .v, .v, .no, .no, 0, (.bits 3), .zero, .none⟩, f)
  | .vecNeg f => some (⟨0x40, 6, .r3, .v, .v, .no, .no, 0, (.bits 3), .zero, .none⟩, f)
  | .vecAnd f => some (⟨0x40, 7, .r3, .v, .v, .v, .no, 0, .zero, .zero, .none⟩, f)
  | .vecOr f => some (⟨0x40, 8, .r3, .v, .v, .v, .no, 0, .zero, .zero, .none⟩, f)
  | .vecXor f => some (⟨0x40, 9, .r3, .v, .v, .v, .no, 0, .zero, .zero, .none⟩, f)
  | .vecShl f => some (⟨0x40, 10, .r3, .v, .v, .v, .no, 0, .zero, .zero, .none⟩, f)
  | .vecShr f => some (⟨0x40, 11, .r3, .v, .v, .v, .no, 0, (.bits 1), .zero, .none⟩, f)
  | .vecCmp f => some (⟨0x40, 12, .r3, .v, .v, .v, .no, 0, .vecCmp, .zero, .none⟩, f)
  | .vecBcast f => some (⟨0x40, 13, .r3, .v, .d, .no, .no, 0, .bcast, .zero, .none⟩, f)
  | .vecPerm f => some (⟨0x40, 14, .r3, .v, .v, .v, .no, 0, .zero, .zero, .none⟩, f)
  | .vecRed f => some (⟨0x40, 15, .r3, .d, .v, .no, .no, 0, .red, .zero, .none⟩, f)
  | .vecScan f => some (⟨0x40, 16, .r3, .v, .v, .no, .no, 0, .scan, .zero, .none⟩, f)
  | .vecExp2 f => some (⟨0x40, 17, .r3, .v, .v, .no, .no, 0, .zero, .zero, .none⟩, f)
  | .vecLog2 f => some (⟨0x40, 18, .r3, .v, .v, .no, .no, 0, .zero, .zero, .none⟩, f)
  | .vecRcp f => some (⟨0x40, 19, .r3, .v, .v, .no, .no, 0, .zero, .zero, .none⟩, f)
  | .vecRsqrt f => some (⟨0x40, 20, .r3, .v, .v, .no, .no, 0, .zero, .zero, .none⟩, f)
  | .vecTanh f => some (⟨0x40, 21, .r3, .v, .v, .no, .no, 0, .zero, .zero, .none⟩, f)
  | .vecCvt f => some (⟨0x40, 22, .r3, .v, .v, .no, .no, 0, .vecCvt, .zero, .none⟩, f)
  | .vecPack f => some (⟨0x40, 23, .r3, .v, .v, .v, .no, 0, .zero, .zero, .none⟩, f)
  | .vecUnpack f => some (⟨0x40, 24, .r3, .v, .v, .no, .no, 0, (.bits 1), .zero, .none⟩, f)
  | .vecFma f => some (⟨0x41, 0, .r4, .v, .v, .v, .v, 0, (.bits 3), .zero, .none⟩, f)
  | .vecSel f => some (⟨0x41, 1, .r4, .v, .v, .v, .v, 0, .zero, .zero, .none⟩, f)
  | .vecBcastI f => some (⟨0x42, 0, .i32, .v, .no, .no, .no, 0, .bcast, .any, .none⟩, f)
  | .vecShlI f => some (⟨0x42, 1, .i32, .v, .v, .no, .no, 0, .zero, (.below 6), .none⟩, f)
  | .vecShrI f => some (⟨0x42, 2, .i32, .v, .v, .no, .no, 0, (.bits 1), (.below 6), .none⟩, f)
  | .qzBlk f => some (⟨0x60, 0, .r3, .v, .v, .v, .no, 0, .blk, .zero, .none⟩, f)
  | .qzDq f => some (⟨0x60, 1, .r3, .v, .v, .dq, .no, 0, .dq, .zero, .none⟩, f)
  | .qzTagget f => some (⟨0x60, 2, .r3, .d, .v, .no, .no, 0, (.bits 1), .zero, .none⟩, f)
  | .qzTagset f => some (⟨0x60, 3, .r3, .v, .v, .d, .no, 0, (.bits 1), .zero, .none⟩, f)
  | .qzSplit f => some (⟨0x61, 0, .r4, .ev, .v, .v, .d, 0, (.bits 31), .zero, .none⟩, f)
  | .ldB f => some (⟨0x70, 0, .i32, .d, .c, .d, .no, 0, (.ord 1), .any, .cp⟩, f)
  | .ldH f => some (⟨0x70, 1, .i32, .d, .c, .d, .no, 0, (.ord 1), .any, .cp⟩, f)
  | .ldW f => some (⟨0x70, 2, .i32, .d, .c, .d, .no, 0, (.ord 1), .any, .cp⟩, f)
  | .ldD f => some (⟨0x70, 3, .i32, .d, .c, .d, .no, 0, (.ord 1), .any, .cp⟩, f)
  | .ldC f => some (⟨0x70, 4, .i32, .c, .c, .d, .no, 0, (.ord 1), .any, .cp⟩, f)
  | .ldBu f => some (⟨0x70, 5, .i32, .d, .c, .d, .no, 0, (.ord 1), .any, .cp⟩, f)
  | .ldHu f => some (⟨0x70, 6, .i32, .d, .c, .d, .no, 0, (.ord 1), .any, .cp⟩, f)
  | .ldWu f => some (⟨0x70, 7, .i32, .d, .c, .d, .no, 0, (.ord 1), .any, .cp⟩, f)
  | .stB f => some (⟨0x71, 0, .i32, .no, .c, .d, .d, 0, (.ord 2), .any, .cp⟩, f)
  | .stH f => some (⟨0x71, 1, .i32, .no, .c, .d, .d, 0, (.ord 2), .any, .cp⟩, f)
  | .stW f => some (⟨0x71, 2, .i32, .no, .c, .d, .d, 0, (.ord 2), .any, .cp⟩, f)
  | .stD f => some (⟨0x71, 3, .i32, .no, .c, .d, .d, 0, (.ord 2), .any, .cp⟩, f)
  | .stC f => some (⟨0x71, 4, .i32, .no, .c, .d, .c, 0, (.ord 2), .any, .cp⟩, f)
  | .vmVld f => some (⟨0x80, 0, .i32, .v, .c, .d, .no, 0, (.ord 1), .any, .cp⟩, f)
  | .vmVst f => some (⟨0x80, 1, .i32, .no, .c, .d, .v, 0, (.ord 2), .any, .cp⟩, f)
  | .vmVlds f => some (⟨0x80, 2, .i32, .v, .c, .d, .no, 0, (.ord 1), .stride, .cp⟩, f)
  | .vmVsts f => some (⟨0x80, 3, .i32, .no, .c, .d, .v, 0, (.ord 2), .stride, .cp⟩, f)
  | .vmVgath f => some (⟨0x80, 4, .i32, .v, .c, .v, .no, 0, (.ord 1), .any, .cp⟩, f)
  | .vmVscat f => some (⟨0x80, 5, .i32, .no, .c, .v, .v, 0, (.ord 2), .any, .cp⟩, f)
  | .feLwf f => some (⟨0x90, 0, .i32, .d, .c, .d, .no, 0, .zero, .any, .cp⟩, f)
  | .feLwfe f => some (⟨0x90, 1, .i32, .d, .c, .d, .no, 0, .zero, .any, .cp⟩, f)
  | .feSwe f => some (⟨0x90, 2, .i32, .no, .c, .d, .d, 0, .zero, .any, .cp⟩, f)
  | .feSf f => some (⟨0x90, 3, .i32, .no, .c, .d, .d, 0, .zero, .any, .cp⟩, f)
  | .feCe f => some (⟨0x90, 4, .i32, .no, .c, .d, .no, 0, .zero, .any, .cp⟩, f)
  | .fePeek f => some (⟨0x90, 5, .i32, .d, .c, .d, .no, 0, (.bits 7), .any, .cp⟩, f)
  | .lrW f => some (⟨0x91, 2, .i32, .d, .c, .d, .no, 0, (.ord 1), .any, .cp⟩, f)
  | .lrD f => some (⟨0x91, 3, .i32, .d, .c, .d, .no, 0, (.ord 1), .any, .cp⟩, f)
  | .scW f => some (⟨0x92, 2, .i32, .d, .c, .d, .d, 0, (.ord 2), .any, .cp⟩, f)
  | .scD f => some (⟨0x92, 3, .i32, .d, .c, .d, .d, 0, (.ord 2), .any, .cp⟩, f)
  | .amoAdd dbl f => some (⟨0x93, 0 + cond dbl 16 0, .i32, .d, .c, .d, .no, 0, .ordAny, .any, .cp⟩, f)
  | .amoAnd dbl f => some (⟨0x93, 1 + cond dbl 16 0, .i32, .d, .c, .d, .no, 0, .ordAny, .any, .cp⟩, f)
  | .amoOr dbl f => some (⟨0x93, 2 + cond dbl 16 0, .i32, .d, .c, .d, .no, 0, .ordAny, .any, .cp⟩, f)
  | .amoXor dbl f => some (⟨0x93, 3 + cond dbl 16 0, .i32, .d, .c, .d, .no, 0, .ordAny, .any, .cp⟩, f)
  | .amoMin dbl f => some (⟨0x93, 4 + cond dbl 16 0, .i32, .d, .c, .d, .no, 0, .ordAny, .any, .cp⟩, f)
  | .amoMax dbl f => some (⟨0x93, 5 + cond dbl 16 0, .i32, .d, .c, .d, .no, 0, .ordAny, .any, .cp⟩, f)
  | .amoMinu dbl f => some (⟨0x93, 6 + cond dbl 16 0, .i32, .d, .c, .d, .no, 0, .ordAny, .any, .cp⟩, f)
  | .amoMaxu dbl f => some (⟨0x93, 7 + cond dbl 16 0, .i32, .d, .c, .d, .no, 0, .ordAny, .any, .cp⟩, f)
  | .amoSwap dbl f => some (⟨0x93, 8 + cond dbl 16 0, .i32, .d, .c, .d, .no, 0, .ordAny, .any, .cp⟩, f)
  | .amoCas dbl f => some (⟨0x93, 9 + cond dbl 16 0, .i32, .d, .c, .d, .d, 0, .ordAny, .any, .cp⟩, f)
  | .fence f => some (⟨0x94, 0, .r3, .no, .no, .no, .no, 0, .fence, .zero, .none⟩, f)
  | .watchSet f => some (⟨0x95, 0, .r3, .d, .c, .d, .no, 0, .zero, .zero, .none⟩, f)
  | .watchClr f => some (⟨0x95, 1, .r3, .no, .wc, .wd, .no, 0, (.bits 1), .zero, .none⟩, f)
  | .watchWaitrs f => some (⟨0x95, 2, .r3, .d, .no, .no, .no, 0, (.bits 7), .zero, .none⟩, f)
  | .aregBegin f => some (⟨0x98, 0, .br, .no, .no, .no, .no, 0, .zero, .any, .none⟩, f)
  | .aregCommit f => some (⟨0x99, 0, .r3, .d, .no, .no, .no, 0, .zero, .zero, .none⟩, f)
  | .aregAbort f => some (⟨0x99, 1, .r3, .no, .d, .no, .no, 0, .zero, .zero, .none⟩, f)
  | .aregStat f => some (⟨0x99, 2, .r3, .d, .no, .no, .no, 0, .zero, .zero, .none⟩, f)
  | .msgSend f => some (⟨0xA0, 0, .r3, .no, .d, .d, .no, 0, (.bits 1), .zero, .e⟩, f)
  | .msgSendI f => some (⟨0xA1, 0, .i32, .no, .d, .no, .no, 0, (.bits 1), (.below 18), .e⟩, f)
  | .msgSendn f => some (⟨0xA0, 1, .r3, .no, .d, .d, .no, 0, (.bits 1), .zero, .e⟩, f)
  | .msgClr f => some (⟨0xA0, 2, .r3, .no, .d, .no, .no, 0, .zero, .zero, .none⟩, f)
  | .msgWait f => some (⟨0xA0, 3, .r3, .d, .d, .no, .no, 0, .zero, .zero, .none⟩, f)
  | .msgImask f => some (⟨0xA0, 4, .r3, .no, .d, .no, .no, 0, .zero, .zero, .none⟩, f)
  | .msgImaskI f => some (⟨0xA1, 4, .i32, .no, .no, .no, .no, 0, .zero, (.below 7), .none⟩, f)
  | .msgIret f => some (⟨0xA0, 5, .r3, .no, .no, .no, .no, 0, .zero, .zero, .none⟩, f)
  | .cpLin f => some (⟨0xB0, 0, .eng, .no, .c, .c, .d, 0, .zero, (.desc false false true), .cpN⟩, f)
  | .cpTd f => some (⟨0xB0, 1, .eng, .no, .c, .c, .es, 0, .zero, (.desc false false true), .cpN⟩, f)
  | .cpG f => some (⟨0xB0, 2, .eng, .no, .c, .c, .es, 0, .zero, (.desc false false true), .cpN⟩, f)
  | .cpMx f => some (⟨0xB0, 3, .eng, .no, .c, .no, .no, 0, .cpMx, (.desc false true true), .cpN⟩, f)
  | .cpWany f => some (⟨0xB1, 0, .r3, .d, .d, .no, .no, 0, .zero, .zero, .none⟩, f)
  | .cpWall f => some (⟨0xB1, 1, .r3, .d, .d, .no, .no, 0, .zero, .zero, .none⟩, f)
  | .cpFfr f => some (⟨0xB1, 2, .r3, .d, .d, .no, .no, 0, (.is 0), .zero, .none⟩, f)
  | .cpFfrRec f => some (⟨0xB1, 2, .r3, .d, .d, .no, .no, 0, (.is 1), .zero, .none⟩, f)
  | .barArm f => some (⟨0xB8, 0, .eng, .no, .d, .d, .no, 0, .zero, .bobj, .none⟩, f)
  | .barArrive f => some (⟨0xB8, 1, .eng, .d, .no, .no, .no, 0, .zero, .bobj, .none⟩, f)
  | .barWait f => some (⟨0xB8, 2, .eng, .no, .d, .no, .no, 0, .zero, .bobj, .none⟩, f)
  | .barStat f => some (⟨0xB8, 3, .eng, .d, .no, .no, .no, 0, (.bits 1), .bobj, .none⟩, f)
  | .mxMma f => some (⟨0xC0, 0, .eng, .no, .c, .c, .es, 0, .acc, (.desc false true true), .cpN⟩, f)
  | .mxMmaq f => some (⟨0xC0, 1, .eng, .d, .c, .c, .es, 0, .acc, (.desc false true true), .cpN⟩, f)
  | .mxZero f => some (⟨0xC0, 2, .eng, .no, .no, .no, .d, 0, .zero, (.desc false true true), .none⟩, f)
  | .mxLd f => some (⟨0xC0, 3, .eng, .no, .c, .d, .d, 0, .acc, (.desc false true true), .cpN⟩, f)
  | .mxSt f => some (⟨0xC0, 4, .eng, .no, .c, .d, .d, 0, .acc, (.desc false true true), .cpN⟩, f)
  | .mxChk f => some (⟨0xC0, 5, .eng, .d, .no, .no, .no, 0, (.is 0), (.desc false false false), .none⟩, f)
  | .mxChkInject f => some (⟨0xC0, 5, .eng, .d, .no, .no, .no, 1, (.is 1), (.desc false false false), .none⟩, f)
  | .ropeSchema f => some (⟨0xD0, 0, .eng, .no, .c, .d, .no, 0, .zero, (.desc true false false), .cpN⟩, f)
  | .ropeLeaf f => some (⟨0xD0, 1, .eng, .no, .c, .c, .d, 0, .zero, (.desc true false false), .cpN⟩, f)
  | .ropeCat f => some (⟨0xD0, 2, .eng, .no, .c, .d, .d, 0, .zero, (.desc true false false), .cpN⟩, f)
  | .ropeSplit f => some (⟨0xD0, 3, .eng, .no, .c, .d, .d, 0, .zero, (.desc true false false), .cpN⟩, f)
  | .ropeSplice f => some (⟨0xD0, 4, .eng, .no, .c, .d, .es, 0, .zero, (.desc true false false), .cpN⟩, f)
  | .ropeSum f => some (⟨0xD0, 5, .eng, .no, .c, .d, .es, 0, .zero, (.desc true false false), .cpN⟩, f)
  | .ropeSeek f => some (⟨0xD0, 6, .eng, .no, .c, .d, .d, 0, (.bits 3), (.desc true false false), .cpN⟩, f)
  | .ropeWalk f => some (⟨0xD0, 7, .eng, .wk, .c, .d, .es, 0, (.bits 7), (.desc true false false), .cpN⟩, f)
  | .ropePin f => some (⟨0xD0, 8, .eng, .no, .c, .d, .no, 0, (.is 0), (.desc true false false), .cpN⟩, f)
  | .ropePinH f => some (⟨0xD0, 8, .eng, .no, .c, .c, .no, 0, (.is 1), (.desc true false false), .cpN⟩, f)
  | .ropeUnpin f => some (⟨0xD0, 9, .eng, .no, .c, .d, .no, 0, .zero, (.desc true false false), .cpN⟩, f)
  | .ropePub f => some (⟨0xD0, 10, .eng, .no, .c, .c, .d, 0, .zero, (.desc true false false), .cpN⟩, f)
  | .qPush f => some (⟨0xE0, 0, .r3, .d, .d, .c, .no, 0, .zero, .zero, .none⟩, f)
  | .qPop f => some (⟨0xE0, 1, .r3, .d, .d, .c, .no, 0, (.bits 1), .zero, .none⟩, f)
  | .qClose f => some (⟨0xE0, 2, .r3, .d, .d, .no, .no, 0, (.is 0), .zero, .none⟩, f)
  | .qCloseKill f => some (⟨0xE0, 2, .r3, .d, .d, .no, .no, 1, (.is 1), .zero, .none⟩, f)
  | .qGang f => some (⟨0xE0, 3, .r3, .d, .c, .d, .no, 0, .zero, .zero, .none⟩, f)
  | .pairLock f => some (⟨0xE8, 0, .r3, .d, .d, .d, .no, 0, .zero, .zero, .none⟩, f)
  | .pairSplit f => some (⟨0xE8, 1, .r3, .d, .d, .d, .no, 0, .zero, .zero, .none⟩, f)
  | .pairEnd f => some (⟨0xE8, 2, .r3, .no, .no, .no, .no, 0, .zero, .zero, .none⟩, f)
  | .pqPush f => some (⟨0xE9, 0, .r3, .no, .d, .no, .no, 0, .zero, .zero, .none⟩, f)
  | .pqPop f => some (⟨0xE9, 1, .r3, .d, .no, .no, .no, 0, .zero, .zero, .none⟩, f)
  | .bqPush f => some (⟨0xEA, 0, .r3, .no, .p, .no, .no, 0, .zero, .zero, .none⟩, f)
  | .sysEcall f => some (⟨0xF0, 0, .r3, .no, .no, .no, .no, 0, .zero, .zero, .none⟩, f)
  | .sysEret f => some (⟨0xF0, 1, .r3, .no, .no, .no, .no, 1, .zero, .zero, .none⟩, f)
  | .sysWfi f => some (⟨0xF0, 2, .r3, .no, .no, .no, .no, 0, .zero, .zero, .none⟩, f)
  | .sysTlbinv f => some (⟨0xF0, 3, .r3, .no, .d, .d, .no, 1, .tlb, .zero, .none⟩, f)
  | .sysCtxsave f => some (⟨0xF0, 4, .r3, .d, .d, .no, .no, 1, .zero, .zero, .none⟩, f)
  | .sysCtxload f => some (⟨0xF0, 5, .r3, .d, .d, .no, .no, 1, .zero, .zero, .none⟩, f)
  | .sysYield f => some (⟨0xF0, 6, .r3, .d, .no, .no, .no, 0, .zero, .zero, .none⟩, f)
  | .sysCsrr f => some (⟨0xF1, 0, .i32, .d, .no, .no, .no, 0, .zero, .csr, .none⟩, f)
  | .sysCsrw f => some (⟨0xF1, 1, .i32, .d, .d, .no, .no, 0, .zero, .csr, .none⟩, f)
  | .feRequestRetry _ => none
  | .lrLeaseExpiry _ => none
  | .memoryReply _ => none
  | .writeAck _ => none
  | .registerScrubDone _ _ => none
  | .timerExpiry _ _ => none
  | .timerInterrupt _ _ => none
  | .arrivalInterrupt _ _ => none
  | .imaskWindowEnd _ _ => none
  | .packetCountClose _ _ => none
  | .packetEnterNetwork _ _ => none
  | .packetLanding _ => none
  | .packetReoffer _ => none
  | .commitPerform _ _ => none
  | .barArrivalCount _ _ => none
  | .pairTimeout _ _ => none
  | .alignTimeout _ _ => none
  | .copySegmentWrite _ => none
  | .cpGEntryRead _ => none
  | .cpmxChainEnqueue _ => none
  | .matrixStep _ _ _ => none
  | .engineCompletion _ => none
  | .checksumFaultTrap _ _ => none
  | .engineFaultRecord _ => none
  | .engineFaultReply _ _ => none
  | .ropeCommandExecute _ => none
  | .ropeResultLanding _ => none
  | .walkRecordEmit _ => none
  | .walkTailPoll _ => none
  | .nodeReclaim _ => none
  | .stageRefill _ _ => none
  | .headPacketRead _ => none
  | .dispatchEvent _ => none
  | .tickEvent _ => none
  | .controlEventTake _ => none
  | .decisionOverrun _ _ => none
  | .fixedPolicyDecision _ _ => none
  | .gangPlacement _ => none
  | .cueAdd _ _ _ => none
  | .cueSub _ _ _ => none
  | .cueAnd _ _ _ => none
  | .cueOr _ _ _ => none
  | .cueXor _ _ _ => none
  | .cueShl _ _ _ => none
  | .cueShr _ _ _ => none
  | .cueSlt _ _ _ => none
  | .cueSltu _ _ _ => none
  | .cueSeq _ _ _ => none
  | .cueAddi _ _ _ => none
  | .cueAndi _ _ _ => none
  | .cueLi _ _ => none
  | .cueLih _ _ _ => none
  | .cueBeq _ _ _ => none
  | .cueBne _ _ _ => none
  | .cueBlt _ _ _ => none
  | .cueJmp _ => none
  | .cueRdw _ _ _ _ => none
  | .cueBind _ => none
  | .cueDefer => none
  | .cuePreempt _ => none
  | .cueResume _ => none
  | .cueKill => none
  | .cueFwd => none
  | .cueEnd => none
  | .queueContextWrite _ _ _ => none
  | .doorbellTail _ _ => none
  | .doorbellCplhead _ _ => none
  | .cplerrClear _ => none
  | .hostWrite _ _ _ => none
  | .hostRead _ _ => none
  | .hostAtomicop _ _ _ _ _ => none
  | .hostAtomicCompletion _ _ => none
  | .semaphoreWrite _ _ => none
  | .sidebandReset => none
  | .pldmRequest _ => none
  | .spdmRequest _ => none
  | .tier2LinkDown _ => none
  | .flitReceive _ _ => none
  | .fabricRead _ _ => none
  | .fabricWrite _ _ => none
  | .fabricAtomic _ _ => none
  | .fabricLaunch _ _ => none
  | .fabricResponse _ _ => none
  | .peerTimeout _ => none
  | .layoutCommit _ => none
  | .layoutFlip => none
  | .journalRecovery => none
  | .sliceSwitch _ => none
  | .slotHalt _ _ => none
  | .granuleExchange _ => none
  | .cellStateExchange _ => none
  | .hbmRefresh _ _ _ _ => none
  | .sequencerTakeover _ => none
  | .retune _ _ => none
  | .throttleRelease _ => none
  | .stackRestart _ => none
  | .stackRetry _ _ => none
  | .coldBootTraining _ _ => none
  | .warmResetRestore _ _ _ _ => none
  | .countTableWrite _ _ => none
  | .errorBankClear _ _ => none
  | .functionCounterClear _ _ => none
  | .cueLoad _ => none
  | .cueLoadVerified _ => none
  | .cueSwap _ => none
  | .budgetWrite _ _ _ => none
  | .energyWindowOpen _ => none
  | .powerWindowEnd => none
  | .ephemerisModeWrite _ _ => none
  | .replayTimeout _ => none
  | .registerWrite _ _ => none
  | .packageReset _ => none
  | .tier2LinkUp _ => none
  | .forwardedFaultResolution _ _ _ => none

/-- The instruction an allocated OP and FN name (03 R90), given its fields; where one function has two rows of the table, its modifier
byte says which (a modifier that neither row allows is refused afterwards, 03 R84 code 5). -/
def ctorAt (op fn : Nat) : Option (Fields → Instr) :=
  match op with
  | 0x00 =>
    match fn with
    | 0 => some .iaAdd
    | 1 => some .iaSub
    | 2 => some .iaMul
    | 3 => some .iaMulh
    | 4 => some .iaMulhu
    | 5 => some .iaDiv
    | 6 => some .iaDivu
    | 7 => some .iaRem
    | 8 => some .iaRemu
    | 9 => some .iaAnd
    | 10 => some .iaOr
    | 11 => some .iaXor
    | 12 => some .iaAndn
    | 13 => some .iaShl
    | 14 => some .iaShr
    | 15 => some .iaSra
    | 16 => some .iaRot
    | 17 => some .iaMin
    | 18 => some .iaMax
    | 19 => some .iaMinu
    | 20 => some .iaMaxu
    | 21 => some .iaClz
    | 22 => some .iaCtz
    | 23 => some .iaPopc
    | 24 => some fun f => if f.m = 1 then .iaMovC f else .iaMov f
    | _ => none
  | 0x02 =>
    match fn with
    | 0 => some .iaAddI
    | 1 => some .iaSubI
    | 2 => some .iaMulI
    | 3 => some .iaMulhI
    | 4 => some .iaMulhuI
    | 5 => some .iaDivI
    | 6 => some .iaDivuI
    | 7 => some .iaRemI
    | 8 => some .iaRemuI
    | 9 => some .iaAndI
    | 10 => some .iaOrI
    | 11 => some .iaXorI
    | 12 => some .iaAndnI
    | 13 => some .iaShlI
    | 14 => some .iaShrI
    | 15 => some .iaSraI
    | 16 => some .iaRotI
    | 17 => some .iaMinI
    | 18 => some .iaMaxI
    | 19 => some .iaMinuI
    | 20 => some .iaMaxuI
    | _ => none
  | 0x01 =>
    match fn with
    | 0 => some .iaBfx
    | 1 => some .iaBfi
    | 2 => some .iaSel
    | _ => none
  | 0x03 =>
    match fn with
    | 0 => some .iaBfxI
    | 1 => some .iaBfiI
    | _ => none
  | 0x04 =>
    match fn with
    | 0 => some .iaLi
    | _ => none
  | 0x05 =>
    match fn with
    | 0 => some .icmpEq
    | 1 => some .icmpNe
    | 2 => some .icmpLt
    | 3 => some .icmpLtu
    | 4 => some .icmpLe
    | 5 => some .icmpLeu
    | _ => none
  | 0x06 =>
    match fn with
    | 0 => some .icmpEqI
    | 1 => some .icmpNeI
    | 2 => some .icmpLtI
    | 3 => some .icmpLtuI
    | 4 => some .icmpLeI
    | 5 => some .icmpLeuI
    | _ => none
  | 0x10 =>
    match fn with
    | 0 => some .capBound
    | 1 => some .capPerm
    | 2 => some .capSetaddr
    | 3 => some .capIncaddr
    | 4 => some .capGetbase
    | 5 => some .capGetlen
    | 6 => some .capGetperm
    | 7 => some .capTagtest
    | 8 => some .capClear
    | _ => none
  | 0x11 =>
    match fn with
    | 0 => some .capBoundI
    | 1 => some .capPermI
    | 3 => some .capIncaddrI
    | _ => none
  | 0x18 =>
    match fn with
    | 0 => some .prdAnd
    | 1 => some .prdOr
    | 2 => some .prdXor
    | 3 => some .prdNot
    | 4 => some .prdSet
    | _ => none
  | 0x20 =>
    match fn with
    | 0 => some fun f => if f.m = 1 then .ctlBrBq f else .ctlBr f
    | 1 => some .ctlCall
    | 2 => some .ctlLoop
    | _ => none
  | 0x21 =>
    match fn with
    | 0 => some .ctlJr
    | 1 => some .ctlRet
    | 2 => some .ctlTrap
    | 3 => some .ctlNop
    | 4 => some .ctlExit
    | _ => none
  | 0x22 =>
    match fn with
    | 0 => some .ctlAlign
    | _ => none
  | 0x30 =>
    match fn with
    | 0 => some .fpuAdd
    | 1 => some .fpuSub
    | 2 => some .fpuMul
    | 3 => some .fpuDiv
    | 4 => some .fpuMin
    | 5 => some .fpuMax
    | 6 => some .fpuSqrt
    | 7 => some .fpuCmp
    | 8 => some .fpuCvt
    | _ => none
  | 0x31 =>
    match fn with
    | 0 => some .fpuFma
    | _ => none
  | 0x40 =>
    match fn with
    | 0 => some .vecAdd
    | 1 => some .vecSub
    | 2 => some .vecMul
    | 3 => some .vecMin
    | 4 => some .vecMax
    | 5 => some .vecAbs
    | 6 => some .vecNeg
    | 7 => some .vecAnd
    | 8 => some .vecOr
    | 9 => some .vecXor
    | 10 => some .vecShl
    | 11 => some .vecShr
    | 12 => some .vecCmp
    | 13 => some .vecBcast
    | 14 => some .vecPerm
    | 15 => some .vecRed
    | 16 => some .vecScan
    | 17 => some .vecExp2
    | 18 => some .vecLog2
    | 19 => some .vecRcp
    | 20 => some .vecRsqrt
    | 21 => some .vecTanh
    | 22 => some .vecCvt
    | 23 => some .vecPack
    | 24 => some .vecUnpack
    | _ => none
  | 0x41 =>
    match fn with
    | 0 => some .vecFma
    | 1 => some .vecSel
    | _ => none
  | 0x42 =>
    match fn with
    | 0 => some .vecBcastI
    | 1 => some .vecShlI
    | 2 => some .vecShrI
    | _ => none
  | 0x60 =>
    match fn with
    | 0 => some .qzBlk
    | 1 => some .qzDq
    | 2 => some .qzTagget
    | 3 => some .qzTagset
    | _ => none
  | 0x61 =>
    match fn with
    | 0 => some .qzSplit
    | _ => none
  | 0x70 =>
    match fn with
    | 0 => some .ldB
    | 1 => some .ldH
    | 2 => some .ldW
    | 3 => some .ldD
    | 4 => some .ldC
    | 5 => some .ldBu
    | 6 => some .ldHu
    | 7 => some .ldWu
    | _ => none
  | 0x71 =>
    match fn with
    | 0 => some .stB
    | 1 => some .stH
    | 2 => some .stW
    | 3 => some .stD
    | 4 => some .stC
    | _ => none
  | 0x80 =>
    match fn with
    | 0 => some .vmVld
    | 1 => some .vmVst
    | 2 => some .vmVlds
    | 3 => some .vmVsts
    | 4 => some .vmVgath
    | 5 => some .vmVscat
    | _ => none
  | 0x90 =>
    match fn with
    | 0 => some .feLwf
    | 1 => some .feLwfe
    | 2 => some .feSwe
    | 3 => some .feSf
    | 4 => some .feCe
    | 5 => some .fePeek
    | _ => none
  | 0x91 =>
    match fn with
    | 2 => some .lrW
    | 3 => some .lrD
    | _ => none
  | 0x92 =>
    match fn with
    | 2 => some .scW
    | 3 => some .scD
    | _ => none
  | 0x93 =>
    match fn with
    | 0 => some (.amoAdd false)
    | 1 => some (.amoAnd false)
    | 2 => some (.amoOr false)
    | 3 => some (.amoXor false)
    | 4 => some (.amoMin false)
    | 5 => some (.amoMax false)
    | 6 => some (.amoMinu false)
    | 7 => some (.amoMaxu false)
    | 8 => some (.amoSwap false)
    | 9 => some (.amoCas false)
    | 16 => some (.amoAdd true)
    | 17 => some (.amoAnd true)
    | 18 => some (.amoOr true)
    | 19 => some (.amoXor true)
    | 20 => some (.amoMin true)
    | 21 => some (.amoMax true)
    | 22 => some (.amoMinu true)
    | 23 => some (.amoMaxu true)
    | 24 => some (.amoSwap true)
    | 25 => some (.amoCas true)
    | _ => none
  | 0x94 =>
    match fn with
    | 0 => some .fence
    | _ => none
  | 0x95 =>
    match fn with
    | 0 => some .watchSet
    | 1 => some .watchClr
    | 2 => some .watchWaitrs
    | _ => none
  | 0x98 =>
    match fn with
    | 0 => some .aregBegin
    | _ => none
  | 0x99 =>
    match fn with
    | 0 => some .aregCommit
    | 1 => some .aregAbort
    | 2 => some .aregStat
    | _ => none
  | 0xA0 =>
    match fn with
    | 0 => some .msgSend
    | 1 => some .msgSendn
    | 2 => some .msgClr
    | 3 => some .msgWait
    | 4 => some .msgImask
    | 5 => some .msgIret
    | _ => none
  | 0xA1 =>
    match fn with
    | 0 => some .msgSendI
    | 4 => some .msgImaskI
    | _ => none
  | 0xB0 =>
    match fn with
    | 0 => some .cpLin
    | 1 => some .cpTd
    | 2 => some .cpG
    | 3 => some .cpMx
    | _ => none
  | 0xB1 =>
    match fn with
    | 0 => some .cpWany
    | 1 => some .cpWall
    | 2 => some fun f => if f.m = 1 then .cpFfrRec f else .cpFfr f
    | _ => none
  | 0xB8 =>
    match fn with
    | 0 => some .barArm
    | 1 => some .barArrive
    | 2 => some .barWait
    | 3 => some .barStat
    | _ => none
  | 0xC0 =>
    match fn with
    | 0 => some .mxMma
    | 1 => some .mxMmaq
    | 2 => some .mxZero
    | 3 => some .mxLd
    | 4 => some .mxSt
    | 5 => some fun f => if f.m = 1 then .mxChkInject f else .mxChk f
    | _ => none
  | 0xD0 =>
    match fn with
    | 0 => some .ropeSchema
    | 1 => some .ropeLeaf
    | 2 => some .ropeCat
    | 3 => some .ropeSplit
    | 4 => some .ropeSplice
    | 5 => some .ropeSum
    | 6 => some .ropeSeek
    | 7 => some .ropeWalk
    | 8 => some fun f => if f.m = 1 then .ropePinH f else .ropePin f
    | 9 => some .ropeUnpin
    | 10 => some .ropePub
    | _ => none
  | 0xE0 =>
    match fn with
    | 0 => some .qPush
    | 1 => some .qPop
    | 2 => some fun f => if f.m = 1 then .qCloseKill f else .qClose f
    | 3 => some .qGang
    | _ => none
  | 0xE8 =>
    match fn with
    | 0 => some .pairLock
    | 1 => some .pairSplit
    | 2 => some .pairEnd
    | _ => none
  | 0xE9 =>
    match fn with
    | 0 => some .pqPush
    | 1 => some .pqPop
    | _ => none
  | 0xEA =>
    match fn with
    | 0 => some .bqPush
    | _ => none
  | 0xF0 =>
    match fn with
    | 0 => some .sysEcall
    | 1 => some .sysEret
    | 2 => some .sysWfi
    | 3 => some .sysTlbinv
    | 4 => some .sysCtxsave
    | 5 => some .sysCtxload
    | 6 => some .sysYield
    | _ => none
  | 0xF1 =>
    match fn with
    | 0 => some .sysCsrr
    | 1 => some .sysCsrw
    | _ => none
  | _ => none

/-- Whether an OP value is allocated (03 R90). -/
def opAllocated (op : Nat) : Option Form :=
  match op with
  | 0x00 => some .r3
  | 0x02 => some .i32
  | 0x01 => some .r4
  | 0x03 => some .i32
  | 0x04 => some .i48
  | 0x05 => some .r3
  | 0x06 => some .i32
  | 0x10 => some .r3
  | 0x11 => some .i32
  | 0x18 => some .r3
  | 0x20 => some .br
  | 0x21 => some .r3
  | 0x22 => some .i32
  | 0x30 => some .r3
  | 0x31 => some .r4
  | 0x40 => some .r3
  | 0x41 => some .r4
  | 0x42 => some .i32
  | 0x60 => some .r3
  | 0x61 => some .r4
  | 0x70 => some .i32
  | 0x71 => some .i32
  | 0x80 => some .i32
  | 0x90 => some .i32
  | 0x91 => some .i32
  | 0x92 => some .i32
  | 0x93 => some .i32
  | 0x94 => some .r3
  | 0x95 => some .r3
  | 0x98 => some .br
  | 0x99 => some .r3
  | 0xA0 => some .r3
  | 0xA1 => some .i32
  | 0xB0 => some .eng
  | 0xB1 => some .r3
  | 0xB8 => some .eng
  | 0xC0 => some .eng
  | 0xD0 => some .eng
  | 0xE0 => some .r3
  | 0xE8 => some .r3
  | 0xE9 => some .r3
  | 0xEA => some .r3
  | 0xF0 => some .r3
  | 0xF1 => some .i32
  | _ => none

end Sys2Proof
end

