-- ==== Sys2Proof/Decode.lean ====
section
/-!
DEFINITION. From bytes to instructions and back: the 96-bit words of threads (03 R75-R92), refused by the detail code of 03 R84, and
the 32-bit words of cue programs (19 R391, R392), refused by code 2 of 19 R395.
-/
namespace Sys2Proof

/-- The operand specifier of a byte (03 R80); none for the reserved values 0x88 to 0xBF. -/
def Opnd.ofByte (b : Byte) : Option Opnd :=
  if b.toNat < 0x40 then some (.s (b.extractLsb' 0 6))
  else if b.toNat < 0x60 then some (.v (b.extractLsb' 0 5))
  else if b.toNat < 0x70 then some (.m (b.extractLsb' 0 4))
  else if b.toNat < 0x80 then some (.k (b.extractLsb' 0 4))
  else if b.toNat < 0x88 then some (.p (b.extractLsb' 0 3))
  else if b.toNat < 0xC0 then none
  else some (.imm (b.extractLsb' 0 6))

/-- The byte of an operand specifier (03 R80). -/
def Opnd.toByte : Opnd → Byte
  | .s i => 0b00#2 ++ i
  | .v i => 0b010#3 ++ i
  | .m i => 0b0110#4 ++ i
  | .k i => 0b0111#4 ++ i
  | .p i => 0b10000#5 ++ i
  | .imm x => 0b11#2 ++ x

/-- Whether a class leaves its field unused under a modifier byte (03 R81, R84 code 4). -/
def Cls.unusedAt (m : Byte) : Cls → Bool
  | .no => true
  | .dq => !m.getLsbD 7
  | .wc | .wd => m.getLsbD 0
  | _ => false

/-- Whether a function defines a modifier byte (03 R84 code 5, R88, R89 and the instruction chapters). -/
def MRule.ok (m : Byte) : MRule → Bool
  | .zero => m = 0
  | .is n => m.toNat = n
  | .bits k => (m &&& ~~~(BitVec.ofNat 8 k)) = 0
  | .ord o => (m = 0) || (m.toNat / 64 = o && m.toNat % 64 ≠ 0)
  | .ordAny => (m = 0) || (m.toNat / 64 ≠ 0 && m.toNat % 64 ≠ 0)
  | .fence => m.toNat / 64 ≠ 0 && m.toNat % 64 ≠ 0
  | .fpu => 5 ≤ m.toNat && m.toNat ≤ 8
  | .fpuCmp => m.toNat / 16 ≤ 3 && 5 ≤ m.toNat % 16 && m.toNat % 16 ≤ 8
  | .fpuCvt =>
    let s := m.toNat / 16
    let t := m.toNat % 16
    3 ≤ s && s ≤ 8 && 3 ≤ t && t ≤ 8 && (5 ≤ s || 5 ≤ t) && s ≠ t
  | .vecCmp => m.toNat / 16 ≤ 4 && m.toNat % 16 ≤ 1
  | .bcast => 1 ≤ m.toNat && m.toNat ≤ 8
  | .red => m.toNat / 16 ≤ 5 && m.toNat % 16 ≤ 1
  | .scan => m.toNat / 16 ≤ 2 && m.toNat % 16 ≤ 7
  | .vecCvt => 1 ≤ m.toNat % 16 && m.toNat % 16 ≤ 11
  | .blk =>
    let pos := m.toNat / 16
    let t := m.toNat % 16
    pos ≤ 3 && 9 ≤ t && t ≤ 11 && (t = 11 || pos ≤ 1)
  | .dq => 5 ≤ m.toNat % 16 && m.toNat % 16 ≤ 7
  | .cpMx => m.toNat < 8 && m.toNat % 4 ≠ 3
  | .acc | .tlb => m.toNat < 3

/-- The descriptor fields of the ENG form (03 R79), from imm [31:0]. -/
def descMreg (i : BitVec 48) : BitVec 4 := i.extractLsb' 24 4
def descTile (i : BitVec 48) : BitVec 8 := i.extractLsb' 16 8
def descCsel (i : BitVec 48) : Bool := i.getLsbD 15
def descBobj (i : BitVec 48) : BitVec 9 := i.extractLsb' 6 9
def descCtag (i : BitVec 48) : BitVec 6 := i.extractLsb' 0 6
def descResv (i : BitVec 48) : BitVec 4 := i.extractLsb' 28 4

/-- The system register numbers of 01 R33. -/
def csrNumbers : List Nat :=
  [0x000, 0x001, 0x002, 0x003, 0x010, 0x011, 0x012, 0x013, 0x014, 0x015, 0x020, 0x021, 0x022, 0x023, 0x024, 0x025, 0x026]

/-- Whether the reserved bits of an immediate or descriptor are as the function needs (03 R84 code 2). -/
def IRule.resvOk (i : BitVec 48) : IRule → Bool
  | .zero => i = 0
  | .any => true
  | .below n => i.toNat / 2 ^ n = 0
  | .loop => i.toNat ≠ 0 && i.toNat < 2 ^ 31
  | .stride => i.toNat / 2 ^ 30 = 0 && i.toNat / 2 ^ 28 ≠ 3
  | .desc _ _ _ | .bobj => descResv i = 0
  | .csr => i.toNat / 2 ^ 12 = 0

/-- Whether the unused descriptor fields are zero (03 R79, R84 code 4). -/
def IRule.unusedOk (i : BitVec 48) : IRule → Bool
  | .desc mreg tile compl =>
    (mreg || descMreg i = 0) && (tile || descTile i = 0) &&
    (compl || (descCsel i = false && descBobj i = 0 && descCtag i = 0))
  | .bobj => descMreg i = 0 && descTile i = 0 && descCsel i = false && descCtag i = 0
  | _ => true

/-- Whether a system register number is allocated (03 R84 code 7). -/
def IRule.csrOk (i : BitVec 48) : IRule → Bool
  | .csr => csrNumbers.contains i.toNat
  | _ => true

/-- Whether the hints are ones the function accepts (03 R84 code 6, R87). -/
def HRule.ok (e : Bool) (cp : BitVec 2) (n : Bool) : HRule → Bool
  | .none => e = false && cp = 0 && n = false
  | .e => cp = 0 && n = false
  | .cp => e = false && cp ≠ 3 && n = false
  | .cpN => e = false && cp ≠ 3

/-- Whether an unused operand field holds 0x00 (03 R81). -/
def Cls.fieldOk (m : Byte) (o : Opnd) (k : Cls) : Bool :=
  !k.unusedAt m || o = .s 0

/-- The first check of 03 R84 that the fields of a word fail, by its code; the reserved bits that lie outside every field are checked
by `decodeWord`. -/
def Row.fieldError (r : Row) (f : Fields) : Option Nat :=
  if !r.imm.resvOk f.imm then some 2
  else if !(r.d.fieldOk f.m f.d && r.a.fieldOk f.m f.a && r.b.fieldOk f.m f.b && r.c.fieldOk f.m f.c &&
      r.imm.unusedOk f.imm) then some 4
  else if !r.m.ok f.m then some 5
  else if !r.hint.ok f.e f.cp f.n then some 6
  else if !r.imm.csrOk f.imm then some 7
  else none

/-- Whether a form has a C field and a modifier byte, and the width of its immediate (03 R77). -/
def Form.hasC : Form → Bool
  | .r3 | .i48 => false
  | _ => true
def Form.hasM : Form → Bool
  | .i48 => false
  | _ => true

/-- The fields of a word under a form, with a reserved specifier read as s0 (03 R76, R77). -/
def rawFields (form : Form) (w : W96) : Fields :=
  let sp (n : Nat) : Opnd := (Opnd.ofByte (w.extractLsb' n 8)).getD (.s 0)
  { gp := w.extractLsb' 14 3, gi := w.getLsbD 17,
    d := sp 18, a := sp 26, b := sp 34,
    c := if form.hasC then sp 48 else .s 0,
    m := if form.hasM then w.extractLsb' 56 8 else 0,
    imm := match form with
      | .i48 => w.extractLsb' 48 48
      | _ => (w.extractLsb' 64 32).setWidth 48,
    e := w.getLsbD 42, cp := w.extractLsb' 43 2, n := w.getLsbD 45 }

/-- Whether every specifier field of a word under a form is allocated (03 R84 code 3). -/
def specsOk (form : Form) (w : W96) : Bool :=
  (Opnd.ofByte (w.extractLsb' 18 8)).isSome && (Opnd.ofByte (w.extractLsb' 26 8)).isSome &&
  (Opnd.ofByte (w.extractLsb' 34 8)).isSome && (!form.hasC || (Opnd.ofByte (w.extractLsb' 48 8)).isSome)

/-- Whether the reserved bits of a word that belong to no field are zero (03 R84 code 2): H, and [55:48] of the R3 form. -/
def looseOk (form : Form) (w : W96) : Bool :=
  w.extractLsb' 46 2 = 0 && (form != .r3 || w.extractLsb' 48 8 = 0)

/-- The instruction of a 96-bit word, or the lowest code of 03 R84 that applies to it. -/
def decodeWord (w : W96) : Except Nat Instr :=
  match opAllocated (w.extractLsb' 0 8).toNat with
  | none => .error 0
  | some form =>
    match ctorAt (w.extractLsb' 0 8).toNat (w.extractLsb' 8 6).toNat with
    | none => .error 1
    | some mk =>
      let i := mk (rawFields form w)
      match rowOf i with
      | none => .error 1
      | some (r, f) =>
        if !(looseOk form w && r.imm.resvOk f.imm) then .error 2
        else if !specsOk form w then .error 3
        else match r.fieldError f with
          | some c => .error c
          | none => .ok i

/-- A 32-bit word from its little-endian bytes (03 R75). -/
def wordLE : List Byte → Nat
  | [] => 0
  | b :: bs => b.toNat + 256 * wordLE bs

/-- The 12 bytes of an instruction, three little-endian parcels at ascending addresses (03 R75): the word's little-endian bytes. -/
def decodeBytes (bs : List Byte) : Except Nat (Instr × List Byte) :=
  if bs.length < 12 then .error 0
  else (decodeWord (BitVec.ofNat 96 (wordLE (bs.take 12)))).map (·, bs.drop 12)

/-- The cue instruction of a 32-bit word (19 R391, R392); none for code 2 of 19 R395. No code is generated for it (`noncomputable`): Lean's
runtime has no tags for constructors past the 245th; the kernel evaluates it as any other function. -/
noncomputable def decodeCue (w : W32) : Option Instr :=
  let op := (w.extractLsb' 26 6).toNat
  let x := w.extractLsb' 22 4
  let y := w.extractLsb' 18 4
  let z := w.extractLsb' 14 4
  let imm : BitVec 18 := w.extractLsb' 0 18
  let reg (mk : BitVec 4 → BitVec 4 → BitVec 4 → Instr) : Option Instr :=
    if w.extractLsb' 0 14 = 0 then some (mk x y z) else none
  let emit0 (i : Instr) : Option Instr := if w.extractLsb' 0 26 = 0 then some i else none
  let emit1 (mk : BitVec 4 → Instr) : Option Instr := if w.extractLsb' 0 22 = 0 then some (mk x) else none
  match op with
  | 0x01 => reg .cueAdd
  | 0x02 => reg .cueSub
  | 0x03 => reg .cueAnd
  | 0x04 => reg .cueOr
  | 0x05 => reg .cueXor
  | 0x06 => reg .cueShl
  | 0x07 => reg .cueShr
  | 0x08 => reg .cueSlt
  | 0x09 => reg .cueSltu
  | 0x0A => reg .cueSeq
  | 0x10 => some (.cueAddi x y imm)
  | 0x11 => some (.cueAndi x y imm)
  | 0x12 => if y = 0 then some (.cueLi x imm) else none
  | 0x13 => some (.cueLih x y imm)
  | 0x18 => some (.cueBeq x y imm)
  | 0x19 => some (.cueBne x y imm)
  | 0x1A => some (.cueBlt x y imm)
  | 0x1B => if w.extractLsb' 18 8 = 0 then some (.cueJmp imm) else none
  | 0x20 => if (w.extractLsb' 12 6).toNat ≤ 9 then some (.cueRdw x y (w.extractLsb' 12 6) (w.extractLsb' 0 12)) else none
  | 0x30 => emit1 .cueBind
  | 0x31 => emit0 .cueDefer
  | 0x32 => emit1 .cuePreempt
  | 0x33 => emit1 .cueResume
  | 0x34 => emit0 .cueKill
  | 0x35 => emit0 .cueFwd
  | 0x3F => emit0 .cueEnd
  | _ => none

/-- The word of a thread instruction's row and fields (03 R76, R77). -/
def encodeFields (r : Row) (f : Fields) : W96 :=
  let upper : BitVec 48 :=
    match r.form with
    | .i48 => f.imm
    | .r3 => (f.imm.extractLsb' 0 32 : BitVec 32) ++ f.m ++ 0#8
    | _ => (f.imm.extractLsb' 0 32 : BitVec 32) ++ f.m ++ f.c.toByte
  upper ++ (0#2 ++ BitVec.ofBool f.n ++ f.cp ++ BitVec.ofBool f.e ++ f.b.toByte ++ f.a.toByte ++ f.d.toByte ++
    BitVec.ofBool f.gi ++ f.gp ++ BitVec.ofNat 6 r.fn ++ BitVec.ofNat 8 r.op : BitVec 48)

/-- The 32-bit word of a cue instruction (19 R391, R392). -/
def encodeCue : Instr → Option W32
  | .cueAdd d a b => some (0x01#6 ++ d ++ a ++ b ++ 0#14)
  | .cueSub d a b => some (0x02#6 ++ d ++ a ++ b ++ 0#14)
  | .cueAnd d a b => some (0x03#6 ++ d ++ a ++ b ++ 0#14)
  | .cueOr d a b => some (0x04#6 ++ d ++ a ++ b ++ 0#14)
  | .cueXor d a b => some (0x05#6 ++ d ++ a ++ b ++ 0#14)
  | .cueShl d a b => some (0x06#6 ++ d ++ a ++ b ++ 0#14)
  | .cueShr d a b => some (0x07#6 ++ d ++ a ++ b ++ 0#14)
  | .cueSlt d a b => some (0x08#6 ++ d ++ a ++ b ++ 0#14)
  | .cueSltu d a b => some (0x09#6 ++ d ++ a ++ b ++ 0#14)
  | .cueSeq d a b => some (0x0A#6 ++ d ++ a ++ b ++ 0#14)
  | .cueAddi d a i => some (0x10#6 ++ d ++ a ++ i)
  | .cueAndi d a i => some (0x11#6 ++ d ++ a ++ i)
  | .cueLi d i => some (0x12#6 ++ d ++ 0#4 ++ i)
  | .cueLih d a i => some (0x13#6 ++ d ++ a ++ i)
  | .cueBeq a b o => some (0x18#6 ++ a ++ b ++ o)
  | .cueBne a b o => some (0x19#6 ++ a ++ b ++ o)
  | .cueBlt a b o => some (0x1A#6 ++ a ++ b ++ o)
  | .cueJmp o => some (0x1B#6 ++ 0#8 ++ o)
  | .cueRdw d a w i => some (0x20#6 ++ d ++ a ++ w ++ i)
  | .cueBind a => some (0x30#6 ++ a ++ 0#22)
  | .cueDefer => some (0x31#6 ++ 0#26)
  | .cuePreempt a => some (0x32#6 ++ a ++ 0#22)
  | .cueResume a => some (0x33#6 ++ a ++ 0#22)
  | .cueKill => some (0x34#6 ++ 0#26)
  | .cueFwd => some (0x35#6 ++ 0#26)
  | .cueEnd => some (0x3F#6 ++ 0#26)
  | _ => none

/-- The word of a thread instruction (03 R76, R77); none for cue words and events, which are no 96-bit words. -/
def encode (i : Instr) : Option W96 := (rowOf i).map fun rf => encodeFields rf.1 rf.2

/-- The instruction the decoder reads from a word of the opcode table: 32 bits for a cue word (19 R391), else a thread instruction's
96 bits (03 R75). -/
noncomputable def decodeTableWord (nbits w : Nat) : Option Instr :=
  if nbits ≤ 32 then decodeCue (BitVec.ofNat 32 w)
  else (decodeWord (BitVec.ofNat 96 w)).toOption

end Sys2Proof
end

