-- ==== Sys2Proof/WellFormed.lean ====
section
/-!
DEFINITION. Which instruction terms stand for words of the manual: the checks of 03 R84 on the fields of a thread instruction, the
windows of a cue read (19 R393), and for the steps of units the number ranges of the units they name.
-/
namespace Sys2Proof

/-- The fields of a thread instruction fit its form and pass every check of 03 R84; operand classes are checked when it issues (03 R83
step 3). -/
def Row.fits (r : Row) (f : Fields) : Bool :=
  (r.fieldError f).isNone &&
  (r.form.hasC || f.c = .s 0) &&
  (r.form.hasM || f.m = 0) &&
  (r.form == .i48 || f.imm.toNat < 2 ^ 32)

/-- The numbers of cells, slots, queues and units that events name (01 R7, R9; 18 R362, R364; 20 R402; 21 R427; 22 R444). -/
def cellSlotOk (cell slot : Nat) : Bool := cell < 1024 && slot < 16

/-- Well-formedness of every step of the machine. -/
def Instr.wf (i : Instr) : Bool :=
  match rowOf i with
  | some (r, f) => r.fits f
  | none =>
    match i with
    | .cueRdw _ _ w _ => w.toNat ≤ 9
    | .registerScrubDone c s | .timerExpiry c s | .timerInterrupt c s | .arrivalInterrupt c s | .imaskWindowEnd c s
    | .packetCountClose c s | .packetEnterNetwork c s | .commitPerform c s | .barArrivalCount c s | .pairTimeout c s
    | .alignTimeout c s | .checksumFaultTrap c s | .slotHalt c s => cellSlotOk c s
    | .forwardedFaultResolution c s _ => cellSlotOk c s
    | .matrixStep c _ _ | .granuleExchange c | .cellStateExchange c => c < 1024
    | .gangPlacement die => die < 4
    | .headPacketRead q | .queueContextWrite q _ _ | .doorbellTail q _ | .doorbellCplhead q _ | .cplerrClear q => q < 32768
    | .sequencerTakeover st | .retune st _ | .stackRestart st | .stackRetry st _ | .coldBootTraining st _
    | .warmResetRestore st _ _ _ => st < 16
    | .hbmRefresh st pc _ _ => st < 16 && pc < 64
    | .countTableWrite st b => st < 16 && b < 3072
    | .engineFaultReply fn _ | .budgetWrite fn _ _ | .energyWindowOpen fn | .functionCounterClear fn _ => fn < 256
    | .errorBankClear _ u => u < 1089
    | .tier2LinkDown p | .tier2LinkUp p => p < 8
    | .dispatchEvent p | .tickEvent p | .controlEventTake p | .sliceSwitch p | .cueLoad p | .cueLoadVerified p | .cueSwap p
    | .ephemerisModeWrite p _ | .replayTimeout p => p < 256
    | .decisionOverrun p _ | .fixedPolicyDecision p _ => p < 256
    | _ => true

end Sys2Proof
end

