-- ==== Sys2Proof/Machine/Ops.lean ====
section
/-!
DEFINITION. The named operations over registers, memory and tables that every meaning shares: sparse maps, the one memory by physical
key, cells, threads and their registers, the layout tables, energy, error banks, and taking a trap or an interrupt and returning.
-/
namespace Sys2Proof

/-! ### Sparse maps and sorted sets in canonical form -/

/-- The entry with number `k`. -/
def SMap.look {α : Type} (m : SMap α) (k : Nat) : Option α :=
  match m with
  | [] => none
  | (j, v) :: m => if j = k then some v else SMap.look m k

/-- Insert or replace, keeping the numbers rising. -/
def SMap.put {α : Type} (m : SMap α) (k : Nat) (v : α) : SMap α :=
  match m with
  | [] => [(k, v)]
  | (j, w) :: m => if k < j then (k, v) :: (j, w) :: m else if j = k then (k, v) :: m else (j, w) :: SMap.put m k v

/-- Remove what is listed at number `k`. -/
def SMap.del {α : Type} (m : SMap α) (k : Nat) : SMap α :=
  match m with
  | [] => []
  | (j, w) :: m => if j = k then SMap.del m k else (j, w) :: SMap.del m k

/-- The value at `k`, `d` where nothing is listed. -/
def SMap.at {α : Type} (m : SMap α) (k : Nat) (d : α) : α := (SMap.look m k).getD d

/-- Write the value at `k`; the default is not listed. -/
def SMap.set {α : Type} [DecidableEq α] (m : SMap α) (k : Nat) (v d : α) : SMap α :=
  if v = d then SMap.del m k else SMap.put m k v

/-- Numbers rise and no default is listed. -/
def SMap.rising {α : Type} : SMap α → Bool
  | [] => true
  | [_] => true
  | (j, _) :: (k, w) :: m => j < k && SMap.rising ((k, w) :: m)

/-- Add to a sorted set. -/
def setAdd (l : List Nat) (k : Nat) : List Nat :=
  match l with
  | [] => [k]
  | j :: l => if k < j then k :: j :: l else if j = k then j :: l else j :: setAdd l k

/-- Remove from a sorted set. -/
def setDel (l : List Nat) (k : Nat) : List Nat :=
  match l with
  | [] => []
  | j :: l => if j = k then setDel l k else j :: setDel l k

namespace Machine

/-! ### Bit fields -/

/-- The field of `len` bits at `lo` of a word, as a number. -/
def bits {w : Nat} (x : BitVec w) (lo len : Nat) : Nat := (x.toNat >>> lo) % 2 ^ len

/-- Replace the field of `len` bits at `lo` by the low bits of `v`. -/
def setBits {w : Nat} (x : BitVec w) (lo len v : Nat) : BitVec w :=
  let mask : BitVec w := BitVec.ofNat w ((2 ^ len - 1) <<< lo)
  (x &&& ~~~mask) ||| BitVec.ofNat w ((v % 2 ^ len) <<< lo)

/-- The value of the low `n` bits of a number, read as signed. -/
def sext (n x : Nat) : Int :=
  let y := x % 2 ^ n
  if y < 2 ^ (n - 1) then (y : Int) else (y : Int) - (2 ^ n : Nat)

/-- The low 64 bits of an integer. -/
def w64 (i : Int) : W64 := BitVec.ofInt 64 i
/-- A value read by a load of `size` bytes, extended (06 R147). -/
def extend (size : Nat) (signed : Bool) (v : Nat) : W64 := if signed then w64 (sext (8 * size) v) else BitVec.ofNat 64 (v % 2 ^ (8 * size))

/-! ### Places of the machine -/

/-- Mesh coordinates of a physical cell (01 R8), and the units it belongs to (01 R7). -/
def cellX (c : Nat) : Nat := c % 32
def cellY (c : Nat) : Nat := c / 32
def cellAt (x y : Nat) : Nat := y * 32 + x
def clusterOf (c : Nat) : Nat := (cellY c / 2) * 8 + cellX c / 4
def domainOf (c : Nat) : Nat := (cellY c / 8) * 4 + cellX c / 8
def dieOf (c : Nat) : Nat := (cellY c / 16) * 2 + cellX c / 16

/-- Rectangle (x0, y0, width, height) of a node of the buddy tree (20 R402). -/
def nodeRect (n : Nat) : Nat × Nat × Nat × Nat :=
  let depth := Nat.log2 n
  (List.range depth).foldl (fun r d =>
    let hi := (n >>> (depth - 1 - d)) % 2 = 1
    match r with
    | (x, y, w, h) =>
      if d % 2 = 0 then (x, if hi then y + h / 2 else y, w, h / 2)
      else (if hi then x + w / 2 else x, y, w / 2, h)) (0, 0, 32, 32)

/-- Virtual cell number of a physical cell in a partition, and back (01 R8). -/
def vcellOf (part c : Nat) : Nat :=
  let (x0, y0, w, _) := nodeRect part
  (cellY c - y0) * w + (cellX c - x0)
def physOf (part v : Nat) : Option Nat :=
  let (x0, y0, w, h) := nodeRect part
  if v < w * h then some (cellAt (x0 + v % w) (y0 + v / w)) else none
def inPart (part c : Nat) : Bool :=
  let (x0, y0, w, h) := nodeRect part
  x0 ≤ cellX c && cellX c < x0 + w && y0 ≤ cellY c && cellY c < y0 + h
def leadDie (part : Nat) : Nat :=
  let (x0, y0, _, _) := nodeRect part
  dieOf (cellAt x0 y0)

/-- The kinds of memory (06 R144) and the physical keys of the one memory list: pool offsets of all cells, with the wings of cell c as the
pool of number 1024 + c (20 R411), then HBM offsets, second-tier addresses, host addresses, and peer addresses by fabric id. -/
inductive MemKind where
  | pool (cell : Nat) | hbm | tier2 | host | peer (dev : Nat)
  deriving DecidableEq, Repr

def keyHbm : Nat := 2 ^ 44
def keyTier2 : Nat := 2 ^ 50
def keyHost : Nat := 2 ^ 51
def keyPeer : Nat := 2 ^ 62
/-- Peer launch queues (20 R421 kind 4), by fabric id; the queue index is in the page number. -/
def keyLaunch : Nat := 2 ^ 63
def poolKey (cell off : Nat) : Nat := cell * 2 ^ 20 + off
def kindOf (key : Nat) : MemKind :=
  if key < 2 ^ 31 then .pool (key / 2 ^ 20)
  else if key < keyTier2 then .hbm
  else if key < keyHost then .tier2
  else if key < keyPeer then .host
  else .peer ((key - keyPeer) / 2 ^ 48)
def isHbm (key : Nat) : Bool := 2 ^ 44 ≤ key && key < keyTier2
def hbmOff (key : Nat) : Nat := key - keyHbm
/-- The stack of an HBM offset, if a stack holds it (20 R405). -/
def stackOf (off : Nat) : Option Nat :=
  if off / 2 ^ 36 < 16 && off % 2 ^ 36 < 36 * 10 ^ 9 then some (off / 2 ^ 36) else none

/-! ### Memory -/

/-- What an unlisted byte reads as: zero (log entry 2). -/
def Memory.blank : Byte := 0

/-- The memory list is in canonical form: addresses rise and no blank byte is listed. -/
abbrev Memory.wf (m : List Host.Cell) : Bool := SMap.rising m && m.all fun x => x.2 != Memory.blank

def readByte (m : List Host.Cell) (key : Nat) : Byte := SMap.at m key Memory.blank
def writeByte (m : List Host.Cell) (key : Nat) (b : Byte) : List Host.Cell := SMap.set m key b Memory.blank

/-- `n` bytes from `key`, little-endian (02 R45). -/
def readNat (m : List Host.Cell) (key : Nat) : Nat → Nat
  | 0 => 0
  | n + 1 => (readByte m key).toNat + 256 * readNat m (key + 1) n

/-- Write the low `n` bytes of a number at `key`, little-endian. -/
def writeNat (m : List Host.Cell) (key : Nat) : Nat → Nat → List Host.Cell
  | 0, _ => m
  | n + 1, v => writeByte (writeNat m (key + 1) n (v / 256)) key (BitVec.ofNat 8 v)

def bytesToNat (bs : List Byte) : Nat := wordLE bs
def natToBytes : Nat → Nat → List Byte
  | 0, _ => []
  | n + 1, v => BitVec.ofNat 8 v :: natToBytes n (v / 256)

/-- The numbers of the aligned units of `size` bytes that `n` bytes from `key` touch. -/
def units (size key n : Nat) : List Nat :=
  if n = 0 then [] else (List.range ((key + n - 1) / size - key / size + 1)).map (· + key / size)

/-! ### Cells, slots, threads -/

def State.cell (s : State) (c : Nat) : Cell := s.cells.at c {}
def State.setCell (s : State) (c : Nat) (x : Cell) : State := { s with cells := s.cells.set c x {} }
def Cell.slot (x : Cell) (i : Nat) : Slot := x.slots.at i {}
def Cell.setSlot (x : Cell) (i : Nat) (y : Slot) : Cell := { x with slots := x.slots.set i y {} }
def State.slot (s : State) (c i : Nat) : Slot := (s.cell c).slot i
def State.setSlot (s : State) (c i : Nat) (y : Slot) : State := s.setCell c ((s.cell c).setSlot i y)
def State.th (s : State) (c i : Nat) : Thread := (s.slot c i).th
def State.setTh (s : State) (c i : Nat) (t : Thread) : State := s.setSlot c i { s.slot c i with th := t }
def State.modTh (s : State) (c i : Nat) (f : Thread → Thread) : State := s.setTh c i (f (s.th c i))
def State.modCell (s : State) (c : Nat) (f : Cell → Cell) : State := s.setCell c (f (s.cell c))

/-- All slots that hold something, with their places. -/
def State.allSlots (s : State) : List (Nat × Nat × Slot) :=
  s.cells.flatMap fun (c, x) => x.slots.map fun (i, y) => (c, i, y)

/-- The partition a slot's thread belongs to (19 R388); the whole package where no bind record says otherwise. -/
def State.partOf (s : State) (c i : Nat) : Nat := ((s.slot c i).bind.map (·.part)).getD 1

def State.part (s : State) (p : Nat) : Part := s.parts.at p {}
def State.setPart (s : State) (p : Nat) (x : Part) : State := { s with parts := s.parts.set p x {} }
def State.fnSt (s : State) (f : Nat) : Fn := s.fns.at f {}
def State.setFn (s : State) (f : Nat) (x : Fn) : State := { s with fns := s.fns.set f x {} }
def State.die (s : State) (d : Nat) : Die := s.dies.at d {}
def State.setDie (s : State) (d : Nat) (x : Die) : State := { s with dies := s.dies.set d x {} }
def State.stack (s : State) (k : Nat) : Stack := s.hbms.at k {}
def State.setStack (s : State) (k : Nat) (x : Stack) : State := { s with hbms := s.hbms.set k x {} }
def State.queue (s : State) (q : Nat) : HwQueue := s.queues.at q {}
def State.setQueue (s : State) (q : Nat) (x : HwQueue) : State := { s with queues := s.queues.set q x {} }
def State.emitOut (s : State) (o : Out) : State := { s with out := s.out ++ [o] }

/-- Work for the next step, and work due after the free latency of log entry 4, or at a given cycle. -/
def State.dueNow (s : State) (d : Due) : State := { s with due := s.due ++ [d] }
def State.dueAt (s : State) (t : Nat) (d : Due) : State := { s with later := s.later ++ [(t, d)] }
def State.dueLater (s : State) (d : Due) : State :=
  { s with later := s.later ++ [(s.cycle + 1 + Config.latency s.fresh, d)], fresh := s.fresh + 1 }

/-! ### Layout tables (20 R403, R404) -/

def Layout.bank (l : Layout) (b : Bool) : SMap W64 := if b then l.bank1 else l.bank0
def Layout.active (l : Layout) : SMap W64 := l.bank l.sel
/-- Word `w` of partition entry `n`, and of function entry `f`, of a bank. -/
def partWord (b : SMap W64) (n w : Nat) : W64 := b.at (2 * n + w) 0
def fnWord (b : SMap W64) (f w : Nat) : W64 := b.at (0x200 + 8 * f + w) 0
def partEn (b : SMap W64) (n : Nat) : Bool := (partWord b n 0).getLsbD 0
def partSlice (b : SMap W64) (n : Nat) : Bool := (partWord b n 0).getLsbD 1
def partVf0 (b : SMap W64) (n : Nat) : Nat := bits (partWord b n 0) 8 8
def partVf1 (b : SMap W64) (n : Nat) : Nat := bits (partWord b n 0) 16 8
def partSliceLen (b : SMap W64) (n : Nat) : Nat := bits (partWord b n 1) 32 32
def fnEn (b : SMap W64) (f : Nat) : Bool := (fnWord b f 0).getLsbD 0
def fnPart (b : SMap W64) (f : Nat) : Nat := bits (fnWord b f 0) 8 8
def fnAsidBase (b : SMap W64) (f : Nat) : Nat := bits (fnWord b f 0) 16 13
def fnAsidCnt (b : SMap W64) (f : Nat) : Nat := bits (fnWord b f 0) 32 14
def fnHbmBase (b : SMap W64) (f : Nat) : Nat := bits (fnWord b f 1) 0 10
def fnHbmLen (b : SMap W64) (f : Nat) : Nat := bits (fnWord b f 1) 16 11
def fnQbase (b : SMap W64) (f : Nat) : Nat := bits (fnWord b f 1) 48 15
def fnQcnt (b : SMap W64) (f : Nat) : Nat := bits (fnWord b f 2) 0 16
def fnEfqlog (b : SMap W64) (f : Nat) : Nat := bits (fnWord b f 2) 16 4
def fnFsvcv (b : SMap W64) (f : Nat) : Bool := (fnWord b f 2).getLsbD 23
def fnFsvc (b : SMap W64) (f : Nat) : Nat := bits (fnWord b f 2) 24 18
def fnEfqbase (b : SMap W64) (f : Nat) : Nat := bits (fnWord b f 3) 0 48
def fnCtxbase (b : SMap W64) (f : Nat) : Nat := bits (fnWord b f 4) 0 48
def fnSvbase (b : SMap W64) (f : Nat) : Nat := bits (fnWord b f 5) 0 48
def fnSvlen (b : SMap W64) (f : Nat) : Nat := bits (fnWord b f 5) 48 16
def fnSvent (b : SMap W64) (f : Nat) : Nat := bits (fnWord b f 6) 0 48
def fnAtab (b : SMap W64) (f : Nat) : Nat := bits (fnWord b f 7) 0 48

/-- The enabled functions of a bank, ascending. -/
def fnList (b : SMap W64) : List Nat :=
  b.filterMap fun (k, w) => if 0x200 ≤ k && k % 8 = 0 && w.getLsbD 0 then some ((k - 0x200) / 8) else none
/-- The enabled partitions of a bank, ascending. -/
def partList (b : SMap W64) : List Nat :=
  b.filterMap fun (k, w) => if 2 ≤ k && k < 0x200 && k % 2 = 0 && w.getLsbD 0 then some (k / 2) else none
/-- The enabled function that owns an address space (20 R405). -/
def State.owner (s : State) (asid : Nat) : Option Nat :=
  (fnList s.layout.active).find? fun f =>
    fnAsidBase s.layout.active f ≤ asid && asid < fnAsidBase s.layout.active f + fnAsidCnt s.layout.active f
/-- The function of the thread in a slot: that of its launch, whatever its `asid` register says (20 R420). -/
def State.slotFn (s : State) (y : Slot) : Option Nat := (y.bind.bind Bind.fn).orElse fun _ => s.owner y.th.asid.toNat
def State.threadFn (s : State) (c i : Nat) : Option Nat := s.slotFn (s.slot c i)
/-- Tenants of a partition. -/
def tenants (b : SMap W64) (n : Nat) : List Nat :=
  if partSlice b n then [partVf0 b n, partVf1 b n] else [partVf0 b n]

/-! ### Common registers (01 R28, R29) -/

/-- The bank of a thread: the second tenant of a time-sliced partition has the second bank. -/
def State.kbank (s : State) (c i : Nat) : Bool :=
  let p := s.partOf c i
  partSlice s.layout.active p && s.threadFn c i == some (partVf1 s.layout.active p)
def State.readK (s : State) (c i k : Nat) : W64 :=
  if s.kbank c i then (s.cell c).k1.at k 0 else (s.cell c).k0.at k 0
/-- The value that the leader in slot `i` owes its pair's queue went into a common register (07 R214). -/
def Cell.paid (x : Cell) (i : Nat) (v : W64) : Cell :=
  { x with links := x.links.map fun (n, l) => (n, if n = i then { l with owed := l.owed.map fun o => { o with val := v } } else l) }
/-- Write a common register in a bank, to be seen from cycle `t` on. -/
def State.writeKAt (s : State) (c i : Nat) (bank : Bool) (k : Nat) (v : W64) (t : Nat) : State :=
  s.modCell c fun x => { x.paid i v with kpend := x.kpend ++ [⟨bank, k, v, t⟩] }
/-- When a write by slot i's instruction, whose result is written now, is seen: 8 cycles after that instruction's issue, which is the slot's
last, or from the next cycle on when it was parked longer (01 R29). -/
def State.kDate (s : State) (c i : Nat) : Nat :=
  match (s.slot c i).last with
  | some t => max (t + 8) (s.cycle + 1)
  | none => s.cycle + 8
/-- A write by the instruction of slot i. -/
def State.writeK (s : State) (c i k : Nat) (v : W64) : State := s.writeKAt c i (s.kbank c i) k v (s.kDate c i)
/-- Let the writes that are due at cycle `t` be seen. -/
def Cell.commitK (x : Cell) (t : Nat) : Cell :=
  (x.kpend.filter (·.at_ ≤ t)).foldl (fun x w =>
    if w.bank then { x with k1 := x.k1.set w.reg w.val 0 } else { x with k0 := x.k0.set w.reg w.val 0 })
    { x with kpend := x.kpend.filter (fun w => t < w.at_) }

/-! ### Thread registers (01 R18, R19, R24-R26) -/

/-- Scalar cell `n`: s0 is zero, and s56-s63 are the shadow bank while a handler runs (01 R18, R19). -/
def Thread.rs (t : Thread) (n : Nat) : Reg :=
  if n = 0 then {} else if t.hnd && 56 ≤ n then t.shadow.at (n - 56) {} else t.s.at n {}
/-- Write scalar cell `n`; a write of s0 is discarded, and the cell loses its symbolic tag (01 R18, 06 R165). -/
def Thread.ws (t : Thread) (n : Nat) (r : Reg) : Thread :=
  if n = 0 then t
  else
    let t := if t.hnd && 56 ≤ n then { t with shadow := t.shadow.set (n - 56) r {} } else { t with s := t.s.set n r {} }
    { t with region := t.region.map fun g => { g with sym := g.sym.del n } }
/-- Data in a scalar cell (01 R18). -/
def dataReg (v : W64) : Reg := ⟨v.setWidth 128, false⟩
def Reg.data (r : Reg) : W64 := r.val.setWidth 64
def Thread.rv (t : Thread) (n : Nat) : VReg := t.v.at n {}
def Thread.wv (t : Thread) (n : Nat) (r : VReg) : Thread := { t with v := t.v.set n r {} }
def Thread.rp (t : Thread) (n : Nat) : Bool := n = 0 || t.p.getLsbD n
/-- A write of p0 is discarded (01 R25). -/
def Thread.wp (t : Thread) (n : Nat) (b : Bool) : Thread :=
  if n = 0 then t else { t with p := setBits t.p n 1 b.toNat }
def Thread.rm (t : Thread) (n : Nat) : MReg := t.m.at n {}
def Thread.wm (t : Thread) (n : Nat) (r : MReg) : Thread := { t with m := t.m.set n r {} }

/-- Write a d-class destination (03 R81): a scalar cell as data, a message register with its full bit (01 R26), a common register
(01 R29). Other specifiers are no destinations of class d. -/
def State.writeD (s : State) (c i : Nat) (d : Opnd) (v : W64) : State :=
  match d with
  | .s n => s.modTh c i (·.ws n.toNat (dataReg v))
  | .m n => s.modTh c i fun t => t.wm n.toNat { t.rm n.toNat with val := v, full := true }
  | .k n => s.writeK c i n.toNat v
  | _ => s

/-- `status` as a word (01 R36). -/
def Mode.num : Mode → Nat
  | .user => 0
  | .supervisor => 1
  | .machine => 3
def Mode.ofNum (n : Nat) : Mode := if n % 4 = 0 then .user else if n % 4 = 1 then .supervisor else .machine
def Thread.pktOpen (t : Thread) : Bool := t.openPkt.isSome && !t.openClosed
def Thread.status (t : Thread) : W64 :=
  BitVec.ofNat 64 (t.mode.num + 4 * t.mie.toNat + 8 * t.tie.toNat + 16 * t.hnd.toNat + 32 * t.pktOpen.toNat +
    64 * t.region.isSome.toNat + 128 * t.pair.toNat + 512 * t.imask.toNat + 1024 * t.icnt)
/-- The trap registers of the thread's mode (01 R33). -/
def Thread.trapRegs (t : Thread) : TrapRegs :=
  match t.mode with
  | .user => t.ut
  | .supervisor => t.st
  | .machine => t.mt
def Thread.setTrapRegs (t : Thread) (r : TrapRegs) : Thread :=
  match t.mode with
  | .user => { t with ut := r }
  | .supervisor => { t with st := r }
  | .machine => { t with mt := r }
/-- The code capability of the thread's mode (20 R416). -/
def Thread.codeCap (t : Thread) : Reg :=
  match t.mode with
  | .user => t.ucap
  | .supervisor => t.scap
  | .machine => ⟨Config.fwCap, true⟩

/-! ### Capabilities (01 R20-R22, 04 R103) -/

def Reg.addr (r : Reg) : Nat := bits r.val 0 48
def Reg.base (r : Reg) : Nat := bits r.val 48 48
def Reg.lman (r : Reg) : Nat := bits r.val 96 10
def Reg.lexp (r : Reg) : Nat := bits r.val 106 6
def Reg.perm (r : Reg) : Nat := bits r.val 112 16
/-- The length in bytes, and the end of the bounds (01 R21). -/
def Reg.len (r : Reg) : Nat := r.lman * 2 ^ r.lexp
def Reg.top (r : Reg) : Nat := min (r.base + r.len) (2 ^ 48)
def Reg.has (r : Reg) (bit : Nat) : Bool := r.val.getLsbD (112 + bit)
def permRd : Nat := 0
def permWr : Nat := 1
def permExec : Nat := 2
def permLdcap : Nat := 3
def permStcap : Nat := 4
def permAtom : Nat := 5
def permFe : Nat := 6
def permEng : Nat := 7
def permRpool : Nat := 8

def ceilDiv (a b : Nat) : Nat := (a + b - 1) / b
/-- The exponent that 04 R103 chooses for a length below 2^64. -/
def capExp (len : Nat) : Nat := ((List.range 64).find? fun e => ceilDiv len (2 ^ e) ≤ 1023).getD 63
def capMan (len : Nat) : Nat := ceilDiv len (2 ^ capExp len)
/-- A capability from its parts. -/
def mkCap (perm base len addr : Nat) : Reg :=
  ⟨BitVec.ofNat 128 (addr % 2 ^ 48 + base % 2 ^ 48 * 2 ^ 48 + capMan len * 2 ^ 96 + capExp len * 2 ^ 106 + perm * 2 ^ 112), true⟩

/-! ### Energy (23 R453-R456) and error banks (22 R444-R449) -/

/-- Bring a function's credit and cut up to its energy counter (23 R456). -/
def Fn.settle (f : Fn) : Fn :=
  if f.budget = 0 then { f with credit := 2 ^ 63 - 1, cut := 0, mark := f.pj / 1000 }
  else
    let n := (f.pj / 1000 + 2 ^ 64 - f.mark) % 2 ^ 64
    let cr := max (f.credit - (n : Nat)) (-(2 ^ 62))
    let cut := if 0 < cr then 0 else if -(f.budget.toNat : Int) < cr then 1 else 2
    { f with credit := cr, cut := cut, mark := f.pj / 1000 }
/-- The accumulator wraps with its counter modulo 2^64 (23 R454). -/
def pjWrap : Nat := 1000 * 2 ^ 64
/-- Charge `n` events of a class's weight to a function, or to none (23 R453). -/
def State.charge (s : State) (fn : Option Nat) (pj n : Nat) : State :=
  let s := { s with module := { s.module with totalPj := (s.module.totalPj + pj * n) % pjWrap, windowPj := s.module.windowPj + pj * n } }
  match fn with
  | none => s
  | some f =>
    let x := s.fnSt f
    s.setFn f { x with pj := (x.pj + pj * n) % pjWrap }.settle
/-- The function that a thread's events are charged to: the owner of its `asid` (23 R453). -/
def State.payer (s : State) (c i : Nat) : Option Nat := s.owner (s.th c i).asid.toNat
def State.chargeTh (s : State) (c i pj n : Nat) : State := s.charge (s.payer c i) pj n

/-- Send a message for a vector that carries no queue completions, or set its pending bit (18 R370). -/
def State.raise (s : State) (f v : Nat) : State :=
  let x := (s.fnSt f).vecs.at v {}
  let upd (y : Vec) (s : State) := s.setFn f { s.fnSt f with vecs := (s.fnSt f).vecs.set v y {} }
  if x.masked then upd { x with pending := true } s
  else upd { x with sent := x.sent + 1 } (s.emitOut (.msix f v))

/-- Add 1 to a saturating function counter (22 R448), by its number. -/
def State.count (s : State) (f i : Nat) : State :=
  let x := s.fnSt f
  let v := x.counters.at i 0
  s.setFn f { x with counters := x.counters.set i (if v = BitVec.allOnes 64 then v else v + 1) 0 }
/-- Whether a function's partition or quota touches the unit of an error bank (22 R444, R449). The ports and the security controller serve the whole
package, and every function touches them (DESIGN CHOICE, log entry 62). -/
def touches (b : SMap W64) (f u : Nat) : Bool :=
  let has (g : Nat → Bool) : Bool := (List.range 1024).any fun c => inPart (fnPart b f) c && g c
  if u < 1024 then inPart (fnPart b f) u
  else if u < 1040 then
    let lo := (u - 1024) * 2 ^ 36
    fnHbmBase b f * 2 ^ 30 < lo + 36 * 10 ^ 9 && lo < (fnHbmBase b f + fnHbmLen b f) * 2 ^ 30
  else if u < 1056 then has fun c => domainOf c = u - 1040
  else if u < 1060 then has fun c => dieOf c = u - 1056
  else true
/-- The function counters that an error raises (22 R448, R449); kills and divergences are counted where they happen. -/
def State.countErr (s : State) (e : ErrRec) : State :=
  match e.fn with
  | some f =>
    if e.kind = 1 || e.kind = 2 || (e.kind = 8 && 1062 ≤ e.unit_ && e.unit_ < 1070) then s.count f (e.uc.toNat + if e.unit_ < 1024 then 2 else 0)
    else if e.kind = 4 then s.count f 2 else if e.kind = 5 then s.count f 3 else s
  | none => ((fnList s.layout.active).filter fun f => touches s.layout.active f e.unit_).foldl (fun s f => s.count f 7) s
/-- One error applied to a bank: replacement and counting (22 R446). -/
def bankStep (b : W512) (e : ErrRec) : W512 :=
  let cnt := min (bits b 48 16 + 1) 65535
  let held := b.getLsbD 0
  let heldUc := held && b.getLsbD 1
  let fresh : W512 := BitVec.ofNat 512 (1 + 2 * e.uc.toNat + e.kind * 2 ^ 96 + (e.fn.getD 0) * 2 ^ 104 +
    e.fn.isNone.toNat * 2 ^ 112 + e.addr % 2 ^ 64 * 2 ^ 128 + e.syn % 2 ^ 64 * 2 ^ 192)
  let b' := if !held || (e.uc && !heldUc) then fresh else if e.uc && heldUc then setBits b 2 1 1 else b
  setBits b' 48 16 cnt
/-- The order of errors in one cycle: uncorrectable ones first, then by address. -/
def ErrRec.before (x y : ErrRec) : Bool := (x.uc && !y.uc) || (x.uc == y.uc && x.addr ≤ y.addr)
def insertErr (e : ErrRec) : List ErrRec → List ErrRec
  | [] => [e]
  | x :: l => if x.before e then x :: insertErr e l else e :: x :: l
/-- What is told of a record that an error makes (22 R447, 18 R371): `old` is what the bank held. -/
def State.tellErr (s : State) (e : ErrRec) (old : W512) : State :=
  let held := old.getLsbD 0
  let shared : Bool := 1024 ≤ e.unit_
  if e.uc && !(held && old.getLsbD 1) then
    let s := (s.raise 0 0).emitOut (.pldm e.unit_)
    if shared then s.emitOut (.aer (e.fn.getD 0) 1) else s
  else if !e.uc && !held && shared then s.emitOut (.aer (e.fn.getD 0) 2)
  else s
/-- Apply one error to its bank, in its place among those of the same cycle. -/
def State.err (s : State) (e : ErrRec) : State :=
  let s := s.countErr e
  let old := s.banks.at e.unit_ 0
  let l : ErrLog := match s.errLog.look e.unit_ with
    | some l => if l.cycle = s.cycle then l else ⟨s.cycle, old, []⟩
    | none => ⟨s.cycle, old, []⟩
  let l : ErrLog := { l with errs := insertErr e l.errs }
  ({ s with banks := s.banks.set e.unit_ (l.errs.foldl bankStep l.base) 0, errLog := s.errLog.put e.unit_ l } : State).tellErr e old
/-- Clear a bank: errors of the same cycle come after the clear, and make its new record (22 R446). -/
def State.clearBank (s : State) (u : Nat) : State :=
  match s.errLog.look u with
  | some l =>
    if l.cycle = s.cycle then
      let s : State := { s with banks := s.banks.set u (l.errs.foldl bankStep 0) 0, errLog := s.errLog.put u { l with base := 0 } }
      match l.errs.head? with
      | some e => if l.base.getLsbD 0 && l.base.getLsbD 1 then s.tellErr e 0 else s
      | none => s
    else { s with banks := s.banks.del u }
  | none => { s with banks := s.banks.del u }

/-- An error whose record the manual gives no address and syndrome: free values (log entry 4). -/
def State.errOpen (s : State) (u kind : Nat) (uc : Bool) (fn : Option Nat) : State :=
  let x := Config.freeValue s.fresh
  ({ s with fresh := s.fresh + 1 } : State).err ⟨u, kind, uc, fn, bits x 0 64, bits x 64 64⟩

/-! ### Waking, packets closing, and the ends of an instruction -/

/-- Set the ready bit of a parked slot (01 R14). -/
def State.ready (s : State) (c i : Nat) : State :=
  let y := s.slot c i
  if y.state = .parked then s.setSlot c i { y with state := .ready, th := { y.th with wait := none }, woke := some s.cycle } else s

/-- Move a packet that waits closed in the open buffer to the closed buffer when that is free, and no released packet that closed before it
waits (06 R166, R173). -/
def Thread.shiftPkt (t : Thread) : Thread :=
  if t.openClosed && t.closedPkt.isNone && t.openAfter = 0 then { t with closedPkt := t.openPkt, openPkt := none, openClosed := false } else t
/-- Close the open packet (06 R172, R173): the released packets that wait have closed before it. -/
def Thread.closePkt (t : Thread) : Thread :=
  if t.pktOpen then { t with openClosed := true, openAfter := t.released.length, pktCount := 0 }.shiftPkt else t

/-- Date a closed packet: it follows every write so far (11 R315). -/
def Packet.stamp (p : Packet) (n : Nat) : Packet := if p.after = 0 then { p with after := n } else p
def Thread.stampPkts (t : Thread) (n : Nat) : Thread :=
  { t with closedPkt := t.closedPkt.map (·.stamp n), openPkt := if t.openClosed then t.openPkt.map (·.stamp n) else t.openPkt }
/-- Offer a thread's next closed packet to the network (06 R173). -/
def State.offer (s : State) (c i : Nat) : State :=
  if (s.th c i).closedPkt.isSome then s.dueLater (.packetEnter c i) else s
/-- After a change of the thread in slot (c, i) that may have closed a packet: date it, and offer it if no packet was closed before. -/
def State.closing (s : State) (c i : Nat) (was : Bool) : State :=
  if (s.th c i).closedPkt.isSome then
    let s := s.modTh c i (·.stampPkts s.nextId)
    if was then s else s.offer c i
  else s

/-- The next pc after the instruction at `pc` whose lend action has been taken (04 R117). -/
def Thread.afterLend (t : Thread) (pc : Addr) : Addr :=
  if t.l1.active && t.l1.lend = pc then t.l1.lbeg
  else if t.l0.active && t.l0.lend = pc then t.l0.lbeg
  else pc + 12
/-- Whether a level ends at an address. -/
def Thread.atLend (t : Thread) (pc : Addr) : Bool := (t.l0.active && t.l0.lend = pc) || (t.l1.active && t.l1.lend = pc)
def Level.dec (l : Level) : Level :=
  if l.lcnt - 1 = 0 then { l with lcnt := 0, active := false } else { l with lcnt := l.lcnt - 1 }
/-- The lend action at `pc` (04 R116). -/
def Thread.lendAct (t : Thread) (pc : Addr) : Thread :=
  if t.l1.active && t.l1.lend = pc then
    let t := { t with l1 := t.l1.dec }
    if t.l1.active then t
    else if t.l0.active && t.l0.lend = pc then { t with l0 := t.l0.dec } else t
  else if t.l0.active && t.l0.lend = pc then { t with l0 := t.l0.dec }
  else t

/-- Complete the parked or issuing instruction: go on where 04 R117 leads, and clear the lnd bit when it stands for this instruction. -/
def Thread.complete (t : Thread) : Thread :=
  let mine := t.lnd && t.lndAddr = t.pc
  { t with pc := if mine || t.parkLnd then t.afterLend t.pc else t.pc + 12, lnd := t.lnd && !mine, parkLnd := false, parkLev := none }
/-- A parked instruction is left, to issue again: what its lend action was is recorded (04 R117). -/
def Thread.leave (t : Thread) : Thread :=
  if t.parkLnd then { t with lnd := true, lndAddr := t.pc, parkLnd := false, parkLev := none } else t
/-- The instruction on which a thread was parked traps: it makes no lend action, so that of its parking issue is undone (04 R118). -/
def Thread.unlend (t : Thread) : Thread :=
  match t.parkLev with
  | some (l0, l1) => { t with l0 := l0, l1 := l1, parkLnd := false, parkLev := none }
  | none => { t with parkLnd := false }

/-! ### Atomic-region abort (06 R167) -/

/-- Abort the region: restore the checkpoint, record cause and detail, go to the abort target. An lnd record stays: no instruction of a region is
ever left while parked (06 R163, R168), so it is one from before the region (04 R117). -/
def Thread.abortRegion (t : Thread) (cause detail : Nat) : Thread :=
  match t.region with
  | none => t
  | some g =>
    let t := { t with s := g.ckS, shadow := g.ckShadow, p := g.ckP, l0 := g.ckL0, l1 := g.ckL1, region := none, acause := BitVec.ofNat 8 cause,
                      adetail := BitVec.ofNat 8 detail, pc := g.target, parkLnd := false, parkLev := none }
    t.setTrapRegs { t.trapRegs with cause := BitVec.ofNat 64 (cause + 256 * detail) }

/-- An abort by an instruction at its issue, which the region counts up to the limit (06 R162, R163). -/
def Thread.issueAbort (t : Thread) (cause detail : Nat) : Thread :=
  ({ t with icount := min 64 (t.icount + 1) }).abortRegion cause detail

/-- The abort of a region by the thread in slot (c, i) is still to be noted in its partition's ephemeris; an understudy's is not (23 R466). -/
def State.abortNoted (s : State) (c i cause : Nat) : State :=
  if (s.th c i).region.isSome && (s.th c i).pair != 2 && (s.part (s.partOf c i)).ephMode != 0 then
    { s with aborts := s.aborts ++ [(c, i, 0x100 + cause)] }
  else s
/-- Abort the region of the thread in slot (c, i), if it has one. -/
def State.abortTh (s : State) (c i cause detail : Nat) : State := (s.abortNoted c i cause).modTh c i (·.abortRegion cause detail)

/-! ### Taking a trap (20 R415, R416), and the return from it (07 R219) -/

/-- A trap: cause code, detail byte, tval, and bit 63 of cause (07 R203 sets it for a checksum fault). -/
structure Trap where
  cause : Nat
  detail : Nat := 0
  tval : W96 := 0
  int : Bool := false
  deriving DecidableEq, Repr

def Trap.word (x : Trap) : W64 := BitVec.ofNat 64 (x.cause + 256 * (x.detail % 256) + x.int.toNat * 2 ^ 63)

/-- Where a trap goes (20 R415). -/
inductive Dest where
  | user | supervisor | machine | cue
  deriving DecidableEq, Repr

def Thread.dest (t : Thread) (cause : Nat) : Dest :=
  match t.mode with
  | .machine => .machine
  | .supervisor => if cause = 0x10 then .machine else .cue
  | .user =>
    if !t.hnd && t.ivec != 0 && (cause = 1 || cause = 2 || (4 ≤ cause && cause ≤ 0xD && cause ≠ 0xB)) then .user
    else .supervisor

/-- The supervisor code capability of a function (20 R416). -/
def svCap (b : SMap W64) (f : Nat) : Reg := mkCap 5 (fnSvbase b f) (4096 * fnSvlen b f) (fnSvbase b f)

/-- Hand a fault event to the lead prompter of a partition (19 R385). -/
def State.faultEvent (s : State) (p : Nat) (e : CueEvent) : State :=
  let d := leadDie p
  (s.setDie d { s.die d with faults := (s.die d).faults ++ [(p, e)] }).dueLater (.control p)

/-- The value of tval where the manual states none (log entry 4). -/
def State.openTval (s : State) : W96 := (Config.freeValue s.fresh).setWidth 96

/-- A trap of the thread in slot (c, i), at its pc. An active region aborts instead (06 R168); an open packet closes first (06 R172); a
reservation is lost (06 R154). -/
def State.takeTrap (s : State) (c i : Nat) (x : Trap) : State :=
  let s := { s with fresh := s.fresh + 1 }
  let t := { (s.th c i).unlend with again := false }
  let was := t.closedPkt.isSome
  if t.region.isSome then (s.abortNoted c i 0x43).setTh c i (({ t with resv := none, resvLost := t.resvLost || t.resv.isSome }).issueAbort 0x43 x.cause)
  else
    let t := { t.closePkt with resv := none, resvLost := t.resvLost || t.resv.isSome }
    let r : TrapRegs := ⟨x.word, t.pc, x.tval⟩
    let s := match t.dest x.cause with
      | .user => s.setTh c i { t with ut := r, hnd := true, pc := t.ivec + 12 * 16 }
      | .supervisor =>
        let f := ((s.owner t.asid.toNat).orElse fun _ => s.threadFn c i).getD 0
        s.setTh c i { t with st := r, sfrom := t.mode, mode := .supervisor,
                             pc := BitVec.ofNat 48 (fnSvent s.layout.active f), scap := svCap s.layout.active f }
      | .machine => s.setTh c i { t with mt := r, mfrom := t.mode, mode := .machine, pc := Config.fwEntry }
      | .cue =>
        let y := s.slot c i
        (s.setSlot c i { y with state := .parked, th := { t with wait := some .fault } }).faultEvent (s.partOf c i)
          (.fault c i (y.bind.map Bind.group) x.word x.tval t.pc)
    s.closing c i was

/-- Return from a trap: the pc and the mode of the current mode's copies (07 R219). -/
def Thread.eret (t : Thread) : Thread :=
  match t.mode with
  | .machine => { t with pc := t.mt.epc, mode := t.mfrom }
  | _ => { t with pc := t.st.epc, mode := t.sfrom }

/-! ### Interrupts (01 R38, R40; 06 R174) -/

/-- Take the timer interrupt: epc, cause, tie and the pc (01 R40). -/
def Thread.takeTimer (t : Thread) : Thread :=
  let t := t.setTrapRegs { t.trapRegs with epc := t.pc, cause := BitVec.ofNat 64 (0x20 + 2 ^ 63) }
  { t with tie := false, tpend := false, pc := t.ivec + 12 * 17 }
/-- The lowest pending arrival interrupt. -/
def Thread.lowPend (t : Thread) : Option Nat := (t.m.find? fun x => x.2.pend).map (·.1)
/-- Take the arrival interrupt of register `n` (06 R174). -/
def Thread.takeArrival (t : Thread) (n : Nat) : Thread :=
  let t := t.setTrapRegs { t.trapRegs with epc := t.pc, cause := BitVec.ofNat 64 (0x21 + 256 * n + 2 ^ 63) }
  ({ t with hnd := true, pc := t.ivec + 12 * BitVec.ofNat 48 n }).wm n { t.rm n with pend := false }
/-- Whether an interrupt may be taken at a boundary (06 R174, 01 R38, 20 R415). -/
def Thread.arrivalReady (t : Thread) : Bool := t.mie && !t.imask && !t.hnd && !t.pktOpen && t.lowPend.isSome
def Thread.timerReady (t : Thread) : Bool := t.tpend && !t.hnd && !t.pktOpen

end Machine
end Sys2Proof
end

