-- ==== Sys2Proof/Machine/Home.lean ====
section
/-!
DEFINITION. What a home does with a word: the activations of its row with their throttling (21 R436-R438), poison (22 R440), full bits and tags,
and the writes with all that they cause (06 R147, R154, R160).
-/
namespace Sys2Proof.Machine

/-! ### Main memory: row activations (21 R427, R436-R438) -/

/-- Rows of a bank (log entry 4). -/
def bankRows : Nat := max 1 Config.bankRows
/-- The pseudo-channel, bank and row of an HBM offset: 64 pseudo-channels of 48 banks (21 R427). -/
def rowAt (off : Nat) : Nat × Nat × Nat :=
  let (pc, bank, row) := Config.rowOf off
  (pc % 64, bank % 48, row % bankRows)
/-- The work by which an operation goes on. -/
def Op.work (id : Nat) (o : Op) : Due :=
  if o.finished then .completion id
  else match o.kind with
    | .gather _ _ _ n => if o.entry < n && o.failed.isNone then .entryRead id else .segment id
    | .lin .. | .copy .. => .segment id
    | .copyMx .. => if o.chain then .matrixStep o.cell else .segment id
    | _ => .matrixStep o.cell
/-- The work by which a held request goes on: that of its operation, command or commit, or its release. -/
def State.heldWork (s : State) (id : Nat) : Due :=
  match s.ops.look id, s.cmds.look id, s.reqs.look id with
  | some o, _, _ => o.work id
  | none, some r, _ => if r.walk.isSome then .walkEmit id else .ropeExec id
  | none, none, some r => match r.op with
    | .commit _ => .commit r.cell r.slot
    | _ => .throttle id
  | none, none, none => .throttle id
/-- The requests that throttled rows hold are looked at again, now that counts have returned to zero. -/
def State.wakeHeld (s : State) : State := s.throttled.foldl (fun s h => s.dueNow (s.heldWork h.id)) s
/-- Whether an access of a function finds a row as it needs it: an access that streams has left it open (03 R87), or the function has activated it
in this very cycle, whose accesses of one row share one activation. What the default row policy (CP = 0) is, the manual does not say; the model
closes a row behind every access that does not stream, since in the case of 21 R438 a function's next request of a row needs a second
activation (DEDUCED, log entry 59). -/
def Stack.rowReady (x : Stack) (f pc bank row cycle : Nat) : Bool :=
  x.openRow.look (pc * 48 + bank) = some row ||
    x.rows.any fun r => r.pc = pc && r.bank = bank && r.row = row && r.fn = f && r.last = cycle
/-- One access of a function to an HBM word: a row activation when the row is not ready, its counts, throttling and refresh management, and
the energy of the segment (23 R453 classes 8 to 10). Behind the access the row stays open for one that streams (`cp` = 1), else it is closed. -/
def State.activate (s : State) (f : Option Nat) (key : Nat) (cp : BitVec 2) : State :=
  match kindOf key with
  | .hbm =>
    match stackOf (hbmOff key) with
    | none => s
    | some k =>
      let s := s.charge f 880 1
      let (pc, bank, row) := rowAt (hbmOff key)
      let x := s.stack k
      let slot := pc * 48 + bank
      let fn := f.getD 0
      let ready := x.rowReady fn pc bank row s.cycle
      let x := { x with openRow := if cp = 1 then x.openRow.put slot row else x.openRow.del slot }
      if ready then s.setStack k x
      else
        let here (r : RowCount) : Bool := r.pc = pc && r.bank = bank && r.row = row
        let old := x.rows.find? fun r => here r && r.fn = fn
        let cnt := (old.map (·.count)).getD 0 + 1
        let slow := (old.map (·.slow)).getD false || x.athr.toNat ≤ cnt
        let rows := (x.rows.filter fun r => !(here r && r.fn = fn)) ++ [⟨pc, bank, row, fn, cnt, s.cycle, slow⟩]
        let mine := rows.filter here
        let s := (s.charge f 1500 1).setStack k { x with rows := rows }
        if 2 * x.athr.toNat ≤ (mine.map (·.count)).sum then
          let top := (mine.map (·.count)).foldl max 0
          let drv := ((mine.filter (·.count = top)).map (·.fn)).foldl min 256
          let s := s.charge (some drv) 45000 1
          let g := s.fnSt drv
          let s := s.setFn drv { g with rfmcnt := if g.rfmcnt = BitVec.allOnes 32 then g.rfmcnt else g.rfmcnt + 1 }
          (s.setStack k { s.stack k with rows := rows.filter (!here ·), openRow := x.openRow.del slot }).wakeHeld
        else s
  | .tier2 => s.charge f 1600 1
  | .host => s.charge f 1000 1
  | _ => s
/-- One access of `n` bytes at a key: its activations and its energy (23 R453 classes 3 and 8 to 14). -/
def State.access (s : State) (f : Option Nat) (key n : Nat) (wr : Bool) (cp : BitVec 2 := 0) : State :=
  match kindOf key with
  | .pool _ => s.charge f 20 (units 8 key n).length
  | .peer _ => s.charge f 500 (if wr then 1 + ceilDiv n 16 else 1)
  | _ => (units 64 key n).foldl (fun s u => s.activate f (64 * u) cp) s
/-- The accesses of one request to its places in this device's memory and the host's, of `n` bytes each: a 64-byte segment in which several lie is
read or written once. -/
def State.accessAll (s : State) (f : Option Nat) (keys : List Nat) (n : Nat) (wr : Bool) (cp : BitVec 2) : State :=
  let s := (keys.filter (· < keyHbm)).foldl (fun s k => s.access f k n wr) s
  (((keys.filter fun k => keyHbm ≤ k && k < keyPeer).flatMap fun k => units 64 k n).eraseDups).foldl (fun s u => s.access f (64 * u) 64 wr cp) s

/-- When a function's access may activate its row, if it is throttled on it and activated it within tDLY (21 R436). -/
def State.throttleWait (s : State) (f : Option Nat) (key : Nat) : Option Nat :=
  match kindOf key, stackOf (hbmOff key) with
  | .hbm, some k =>
    let (pc, bank, row) := rowAt (hbmOff key)
    let x := s.stack k
    if x.rowReady (f.getD 0) pc bank row s.cycle then none
    else match x.rows.find? fun r => r.pc = pc && r.bank = bank && r.row = row && r.fn = f.getD 0 with
      | some r => if r.slow && s.cycle < r.last + 5400 then some (r.last + 5400) else none
      | none => none
  | _, _ => none
/-- The same for all rows of some places, each an address and a length. -/
def State.rowsWait (s : State) (f : Option Nat) (ps : List (Nat × Nat)) : Option Nat :=
  (ps.flatMap fun (k, n) => (units 64 k n).filterMap fun u => s.throttleWait f (64 * u)).foldl (fun m t => some (max (m.getD 0) t)) none
/-- Whether a held request is still to be done: it, its operation or its command exists and goes on. -/
def State.stillHeld (s : State) (h : HeldAt) : Bool :=
  h.again.isSome || (s.reqs.look h.id).isSome || (s.ops.look h.id).any (fun o => !o.held && o.stop.isNone) ||
  (s.cmds.look h.id).any fun r => !r.held && r.stop.isNone && r.result.isNone
/-- Two places share a word. -/
def shareWord (x y : Nat × Nat) : Bool := x.1 / 8 ≤ (y.1 + y.2 - 1) / 8 && y.1 / 8 ≤ (x.1 + x.2 - 1) / 8
/-- Two places share a row of a stack. -/
def shareRow (x y : Nat × Nat) : Bool :=
  isHbm x.1 && isHbm y.1 && stackOf (hbmOff x.1) = stackOf (hbmOff y.1) && rowAt (hbmOff x.1) = rowAt (hbmOff y.1)
/-- Whether a request of a function comes after one that is held: one of the same words, or for a held request one of the same row
(21 R437); and what the host or a peer sends keeps its order. -/
def State.behind (s : State) (id : Option Nat) (f : Nat) (ps : List (Nat × Nat)) (outside : Bool) : Bool :=
  let mine := id.any fun n => s.throttled.any (·.id = n)
  (if mine then s.throttled.takeWhile (some ·.id != id) else s.throttled).any fun h =>
    h.fn = f && s.stillHeld h && ((outside && h.again.isSome) ||
      ps.any fun p => h.places.any fun q => isHbm p.1 && (shareWord p q || (mine && shareRow p q)))
/-- The cycle in which a request of a function to some places is looked at again when it must be held now. -/
def State.holdFor (s : State) (id : Option Nat) (f : Nat) (ps : List (Nat × Nat)) (outside : Bool := false) : Option Nat :=
  if s.behind id f ps outside then some (s.cycle + 1) else s.rowsWait (some f) ps
def Fn.countHeld (g : Fn) : Fn := { g with heldcnt := if g.heldcnt = BitVec.allOnes 32 then g.heldcnt else g.heldcnt + 1 }
/-- Count the activations that throttling holds for an agent that makes no request of its own, each once (23 R455). -/
def State.noteHeld (s : State) (f agent : Nat) (ps : List (Nat × Nat)) : State :=
  let held := ((ps.flatMap fun (k, n) => units 64 k n).filterMap fun u =>
    (s.throttleWait (some f) (64 * u)).map fun t =>
      (⟨agent, (stackOf (hbmOff (64 * u))).getD 0, rowAt (hbmOff (64 * u)), t⟩ : HeldAct)).eraseDups
  let g := s.fnSt f
  let g := { g with heldActs := g.heldActs.filter fun a => s.cycle < a.until_ }
  let new := held.filter fun a => !g.heldActs.contains a
  s.setFn f (new.foldl (fun g _ => g.countHeld) { g with heldActs := g.heldActs ++ new })
/-- The cycle until which accesses of such an agent are held, counted. -/
def State.holdAct (s : State) (f agent : Nat) (ps : List (Nat × Nat)) : State × Option Nat :=
  match s.holdFor none f ps with
  | some t => (s.noteHeld f agent ps, some t)
  | none => (s, none)
/-- Put a request among the held ones, and count it once (21 R436); one that is held already keeps its place. -/
def State.enlist (s : State) (h : HeldAt) : State :=
  if s.throttled.any (·.id = h.id) then { s with throttled := s.throttled.map fun x => if x.id = h.id then h else x }
  else
    ({ s with throttled := s.throttled.filter s.stillHeld ++ [h] } : State).setFn h.fn (s.fnSt h.fn).countHeld
/-- Hold a request until a cycle. -/
def State.holdAt (s : State) (h : HeldAt) (t : Nat) : State :=
  let s := s.enlist h
  if s.later.any fun x => x.2 = .throttle h.id && s.cycle < x.1 then s else s.dueAt t (.throttle h.id)
/-- A request is held no longer. -/
def State.unhold (s : State) (id : Nat) : State := { s with throttled := s.throttled.filter (·.id != id) }
/-- A write that the device makes on its own account for a function (a dirty log entry, a record of the ephemeris): it is done at once, or follows
as a request of its own when its row no longer holds it back (21 R436, R437). -/
def State.ownWrite (s : State) (f key n : Nat) (op : ReqOp) (now : State → State) : State :=
  match s.holdFor none f [(key, n)] with
  | none => now (s.access (some f) key n true)
  | some t =>
    let r : Req := { cell := 0, slot := 0, fn := f, va := 0, key := key, op := op, posted := true, dead := true, engine := some 0 }
    ({ s with reqs := s.reqs.put s.nextId r, nextId := s.nextId + 1 } : State).holdAt { id := s.nextId, fn := f, places := [(key, n)] } t

/-! ### Poison (22 R440, R468) -/

/-- Whether a pool offset lies in the accumulator section that a partition word sets (01 R42). -/
def inTiles (pword : W32) (off : Nat) : Bool :=
  let g := off / 4096
  bits pword 0 8 ≤ g && g < bits pword 0 8 + bits pword 8 8
/-- Size of the poison unit at a key. -/
def State.unitSize (s : State) (key : Nat) : Nat :=
  match kindOf key with
  | .pool c => if inTiles (s.cell c).pword (key % 2 ^ 20) then 4 else 8
  | .hbm => 32
  | _ => 64
/-- The 4-byte places of the poison units that `n` bytes from `key` touch, and of those that they cover whole. -/
def State.unitPlaces (s : State) (key n : Nat) (whole : Bool) : List Nat :=
  let u := s.unitSize key
  ((units u key n).filter fun k => !whole || (key ≤ k * u && (k + 1) * u ≤ key + n)).flatMap fun k =>
    (List.range (u / 4)).map (· + k * (u / 4))
/-- Clear the poison of the units that the parts of one write, each a key and a length, cover together (22 R440, R468). -/
def State.coverUnits (s : State) (ps : List (Nat × Nat)) : State :=
  let covered (u k : Nat) : Bool := (List.range u).all fun j => ps.any fun (a, n) => a ≤ k * u + j && k * u + j < a + n
  { s with poison := (ps.flatMap fun (a, n) =>
      let u := s.unitSize a
      ((units u a n).filter (covered u)).flatMap fun k => (List.range (u / 4)).map (· + k * (u / 4))).foldl setDel s.poison }
def State.poisoned (s : State) (key n : Nat) : Bool := (units 4 key n).any (s.poison.contains ·)
/-- The lowest address of `n` bytes from `key` that lies in a poisoned unit, as an offset from `key`. -/
def State.poisonAt (s : State) (key n : Nat) : Option Nat := (List.range n).find? fun j => s.poison.contains ((key + j) / 4)

/-! ### Full bits and tags -/

def State.isFull (s : State) (key : Nat) : Bool := !s.emptyW.contains (key / 8)
def State.setFull (s : State) (key : Nat) (b : Bool) : State :=
  { s with emptyW := if b then setDel s.emptyW (key / 8) else setAdd s.emptyW (key / 8) }
def State.tagAt (s : State) (key : Nat) : Bool := s.tags.contains (key / 16)
/-- Pools and HBM hold tags (06 R144). -/
def hasTags (key : Nat) : Bool := key < keyTier2

/-! ### Watches (06 R160, R161) -/

/-- What `watch.waitrs` reports: fired entries, and the reservation lost since the `lr`. -/
def State.firedMask (s : State) (c i : Nat) : W64 :=
  (s.cell c).watch.foldl (fun m (n, w) => if w.slot = i && w.fired then setBits m n 1 1 else m) 0
def State.watchDone (s : State) (c i : Nat) : Bool :=
  let t := s.th c i
  t.resvLost || s.firedMask c i != 0 || (t.resv.isNone && !((s.cell c).watch.any fun w => w.2.slot = i))
/-- Write the report, at a wake or at the issue, and clear the fired bits that it names. -/
def State.watchReport (s : State) (c i : Nat) (d : Opnd) (p : BitVec 3) : State :=
  let lost := (s.th c i).resvLost
  let m := s.firedMask c i
  let s := s.modCell c fun x => { x with watch := x.watch.map fun (n, w) => (n, if w.slot = i then { w with fired := false } else w) }
  (s.writeD c i d m).modTh c i (·.wp p.toNat lost)
/-- Wake a thread parked on `watch.waitrs` whose condition holds. -/
def State.watchWake (s : State) (c i : Nat) : State :=
  match (s.slot c i).state, (s.th c i).wait with
  | .parked, some (.watch d p) =>
    if s.watchDone c i then ((s.watchReport c i d p).modTh c i Thread.complete).ready c i else s
  | _, _ => s

/-- A write to the word `key / 8`: other agents' reservations on it are lost (06 R154), and watch entries of other threads on it fire and
wake their watcher (06 R160). `by_` is the writing thread, if one writes. -/
def State.touchWord (s : State) (by_ : Option (Nat × Nat)) (w : Nat) : State :=
  let s := s.allSlots.foldl (fun s (c, i, y) =>
    if y.th.resv = some w then
      (s.modTh c i fun t => { t with resv := none, resvLost := true }).watchWake c i
    else s) s
  match kindOf (w * 8) with
  | .pool c =>
    let hit := (s.cell c).watch.filter fun x => x.2.word = w && by_ != some (c, x.2.slot)
    let s := s.modCell c fun x => { x with watch := x.watch.map fun (n, y) =>
      (n, if y.word = w && by_ != some (c, y.slot) then { y with fired := true } else y) }
    hit.foldl (fun s x => s.watchWake c x.2.slot) s
  | _ => s

/-- Write the low `n` bytes of `v` at `key`: bytes, tags of the touched granules cleared (or the one granule set), full bits of HBM words
set, poison of whole units cleared, reservations and watches (06 R147, 22 R440). -/
def State.rawWrite (s : State) (by_ : Option (Nat × Nat)) (key n v : Nat) (tag : Bool := false) : State :=
  let s := { s with
    mem := writeNat s.mem key n v
    tags := if hasTags key then (units 16 key n).foldl (fun l g => if tag then setAdd l g else setDel l g) s.tags else s.tags
    emptyW := if isHbm key then (units 8 key n).foldl setDel s.emptyW else s.emptyW
    poison := (s.unitPlaces key n true).foldl setDel s.poison }
  (units 8 key n).foldl (fun s w => s.touchWord by_ w) s

end Sys2Proof.Machine
end

