-- ==== Sys2Proof/Machine/Replay.lean ====
section
/-!
DEFINITION. The ephemeris (23 R465-R467): the records that a partition's choices write, and what a replay prescribes.
-/
namespace Sys2Proof.Machine

/-- Record kinds (23 R466). -/
def ephLand : Nat := 1
def ephValue : Nat := 2
def ephCommit : Nat := 3
def ephSeed : Nat := 4
def ephBindLo : Nat := 5
def ephBindHi : Nat := 6
def ephDone : Nat := 7
def ephTimer : Nat := 8

def ephWord (kind c i retired : Nat) (data : W64) : W128 :=
  BitVec.ofNat 128 (kind + c % 1024 * 2 ^ 10 + i % 16 * 2 ^ 20 + retired % 2 ^ 40 * 2 ^ 24 + data.toNat * 2 ^ 64)
/-- The function whose tenant runs in a partition: its region is that tenant's (20 R410). -/
def State.running (s : State) (p : Nat) : Nat :=
  if partSlice s.layout.active p && (s.part p).tenant then partVf1 s.layout.active p else partVf0 s.layout.active p
/-- The key of record `n` of a partition's region. -/
def Part.ephKey (x : Part) (n : Nat) : Nat := keyHbm + x.ephBase.toNat + 16 * (n % max 1 x.ephCap.toNat)
/-- Held full/empty operations on the words of a write look at them again (06 R153). -/
def State.feAgain (s : State) (key n : Nat) : State :=
  (s.feHeld.filter fun id => (s.reqs.look id).any fun r => key / 8 ≤ r.key / 8 && r.key / 8 ≤ (key + n - 1) / 8).foldl
    (fun s id => s.dueNow (.feRetry id)) s
/-- Write the next record of a recording; a capacity of 0 keeps none. -/
def State.ephPut (s : State) (p kind c i : Nat) (data : W64) : State :=
  let x := s.part p
  let pos := x.ephPos.toNat
  let cap := x.ephCap.toNat
  let w := ephWord kind c i (s.th c i).retired.toNat data
  let key := x.ephKey pos
  let s := if cap = 0 then s else s.ownWrite (s.running p) key 16 (.store 16 (w.setWidth 512) false) fun s => (s.rawWrite none key 16 w.toNat).feAgain key 16
  s.setPart p { s.part p with ephPos := x.ephPos + 1, ephCount := pos + 1, ephWrap := x.ephWrap || cap ≤ pos }
/-- The record of number `n` as the region holds it. -/
def State.ephAt (s : State) (p n : Nat) : W128 :=
  BitVec.ofNat 128 (readNat s.mem ((s.part p).ephKey n) 16)
/-- The next record of a kind and cell that a replay has not consumed. -/
def State.ephNext (s : State) (p kind c : Nat) : Option (Nat × W128) :=
  let x := s.part p
  ((List.range x.ephCount).find? fun n =>
    !x.ephUsed.contains n && bits (s.ephAt p n) 0 8 = kind && bits (s.ephAt p n) 10 10 = c).map fun n => (n, s.ephAt p n)
/-- Whether a choice may be made now: outside replay always, in replay when it stands next. -/
def State.ephOk (s : State) (p kind c i : Nat) (data : W64) : Bool :=
  (s.part p).ephMode ≠ 2 || match s.ephNext p kind c with
    | some (_, w) => bits w 20 4 = i && bits w 64 64 = data.toNat
    | none => false
/-- Stop a replay: its partition's threads are saved as they can be, and the physical function is told. -/
def State.ephStop (s : State) (p : Nat) : State :=
  let x := s.part p
  let all := (s.allSlots.filter fun (c, _, y) => inPart p c && (y.state = .ready || y.state = .parked)).map fun (c, i, y) => (c, i, y.bind.map Bind.group)
  (s.setPart p { x with ephDiv := true, ephMode := 0, preempts := x.preempts ++ all }).raise 0 0
/-- Consume a record, which the device reads; the last one ends the replay. -/
def State.ephTake (s : State) (p n : Nat) : State :=
  let x := s.part p
  let s := s.access (some (s.running p)) (x.ephKey n) 16 false
  let pos := x.ephPos + 1
  s.setPart p { x with ephPos := pos, ephUsed := x.ephUsed ++ [n], ephWait := s.cycle,
                       ephMode := if x.ephCount ≤ pos.toNat then 0 else x.ephMode }
/-- A choice has been made: recorded, or held against its record. An understudy makes no records. -/
def State.note (s : State) (p kind c i : Nat) (data : W64) : State :=
  if (s.th c i).pair = 2 then s
  else match (s.part p).ephMode.toNat with
  | 1 => s.ephPut p kind c i data
  | 2 =>
    match s.ephNext p kind c with
    | some (n, w) => if bits w 20 4 = i && bits w 64 64 = data.toNat then s.ephTake p n else s.ephStop p
    | none => s.ephStop p
  | _ => s
/-- A choice of a thread, by its slot. -/
def State.noteTh (s : State) (kind c i : Nat) (data : W64) : State := s.note (s.partOf c i) kind c i data
/-- The value that a request returns to its thread, which the ephemeris records (23 R466). -/
def Req.recorded (r : Req) : Option W64 :=
  let v := (r.done.getD 0).toNat
  if r.posted || r.dead || r.poisoned || r.done.isNone then none
  else match r.op with
    | .lr n _ | .amo _ n _ _ _ => some (extend n true v)
    | .sc .. | .fe .. => some (BitVec.ofNat 64 v)
    | _ => none
/-- The partition of the thread that made a request; its function's when the thread is away. -/
def State.reqPart (s : State) (r : Req) : Nat :=
  if (s.slot r.cell r.slot).state = .empty then fnPart s.layout.active r.fn else s.partOf r.cell r.slot
/-- Whether a value may be returned for a request now: in a replay, when it stands next. -/
def State.valueOk (s : State) (r : Req) (v : W64) : Bool :=
  (s.th r.cell r.slot).pair = 2 || s.ephOk (s.reqPart r) ephValue r.cell r.slot v
/-- Note the value that a performing returns, in the order of the performings. -/
def State.noteValue (s : State) (id : Nat) : State :=
  match s.reqs.look id with
  | some r => match r.recorded with
    | some v => s.note (s.reqPart r) ephValue r.cell r.slot v
    | none => s
  | none => s
/-- Whether what a performing has made of request `id` may be returned now. -/
def State.mayReturn (s : State) (id : Nat) : Bool :=
  match s.reqs.look id with
  | some r => match r.recorded with
    | some v => s.valueOk r v
    | none => true
  | none => true
/-- Whether the timer interrupt of a thread is takeable: pending, or in a replay at the recorded count (01 R38, 23 R467). -/
def State.timerTakes (s : State) (c i : Nat) : Bool :=
  let t := s.th c i
  if (s.part (s.partOf c i)).ephMode = 2 then
    !t.hnd && !t.pktOpen && match s.ephNext (s.partOf c i) ephTimer c with
      | some (_, w) => bits w 20 4 = i && bits w 24 40 = t.retired.toNat % 2 ^ 40
      | none => false
  else t.timerReady

end Sys2Proof.Machine
end

