-- ==== Sys2Proof/Machine/Access.lean ====
section
/-!
DEFINITION. Memory accesses as the machine performs them: full/empty operations and the writes that release them (06 R152, R153), page walks
and translation (20 R420-R425), address spaces and the checks of a memory instruction (06 R143-R145), and killing a thread (20 R418).
-/
namespace Sys2Proof.Machine

/-! ### Full/empty operations at the home controller (06 R152, R153) -/

/-- Whether a full/empty function's waiting condition holds. -/
def feReady (fn : Nat) (full : Bool) : Bool := if fn = 0 || fn = 1 then full else if fn = 2 then !full else true
/-- Perform one full/empty function; a poisoned word is read by lwf, lwfe, swe and peek only, and then nothing is written (22 R441). -/
def State.fePerform (s : State) (id : Nat) (r : Req) (fn : Nat) (val : W64) : State :=
  let v : W512 := BitVec.ofNat 512 (readNat s.mem r.key 8)
  let full := s.isFull r.key
  let done (s : State) (p : Bool) := { s with reqs := s.reqs.put id { r with done := some v, full := full, poisoned := p, pva := r.va + (s.poisonAt r.key 8).getD 0, held := false } }
  let bad := s.poisoned r.key 8
  if bad && (fn ≤ 2 || fn = 5) then done s true
  else
    let s := if fn = 2 || fn = 3 then s.rawWrite (some (r.cell, r.slot)) r.key 8 val.toNat
      else if fn = 1 || fn = 4 then (s.setFull r.key false).touchWord (some (r.cell, r.slot)) (r.key / 8) else s
    done s false
/-- Whether a full/empty operation is performed now: its condition holds, and in a replay its value stands next (23 R467). -/
def State.feGoes (s : State) (r : Req) (fn : Nat) : Bool :=
  feReady fn (s.isFull r.key) && (r.posted || r.dead || s.poisoned r.key 8 || s.valueOk r (BitVec.ofNat 64 (readNat s.mem r.key 8)))
/-- Perform the held operations of a word whose condition holds, in arrival order, until none can go; each is an access of its function. -/
def State.serveFe (s : State) (w : Nat) : Nat → State
  | 0 => s
  | n + 1 =>
    match s.feHeld.find? (fun id => match s.reqs.look id with
      | some r => r.key / 8 = w && match r.op with
        | .fe fn _ _ _ => s.feGoes r fn
        | _ => false
      | none => false) with
    | none => s
    | some id =>
      match s.reqs.look id with
      | some r =>
        match r.op with
        | .fe fn val _ _ =>
          let s : State := { s with feHeld := s.feHeld.filter (· != id) }
          ((((s.access (some r.fn) r.key 8 true r.cp).fePerform id r fn val).noteValue id).dueLater (.reply id)).serveFe w n
        | _ => s
      | none => s

/-- A write as its home performs it, with the held full/empty operations that it releases (06 R153). -/
def State.write (s : State) (by_ : Option (Nat × Nat)) (key n v : Nat) (tag : Bool := false) : State :=
  let s := s.rawWrite by_ key n v tag
  if isHbm key then (units 8 key n).foldl (fun s w => s.serveFe w s.feHeld.length) s else s
/-- A write of poisoned data: every unit it touches is poisoned (22 R440, R468). -/
def State.writePoison (s : State) (by_ : Option (Nat × Nat)) (key n v : Nat) : State :=
  let s := s.write by_ key n v
  { s with poison := (s.unitPlaces key n false).foldl setAdd s.poison }

/-! ### Engine fault ring (20 R426) -/

/-- Write the next record of a function's engine fault ring; kill records are full at once. The number of the record, or none while every
record awaits a reply, or its row holds the write back (21 R436). -/
def State.faultRing (s : State) (f : Nat) (word0 va : Nat) (full : Bool) : State × Option Nat :=
  let b := s.layout.active
  let x := s.fnSt f
  let n := x.faultN
  let key := keyHbm + fnEfqbase b f + 32 * (n % 2 ^ fnEfqlog b f)
  if x.faultOpen.any fun m => m % 2 ^ fnEfqlog b f = n % 2 ^ fnEfqlog b f then (s, none)
  else match s.holdAct f 0 [(key, 32)] with
  | (s, some _) => (s, none)
  | (s, none) =>
    let s := (s.access (some f) key 32 true).setFn f { s.fnSt f with faultN := n + 1, faultOpen := if full then x.faultOpen else x.faultOpen ++ [n] }
    let s := ((s.write none key 8 word0).write none (key + 8) 8 va).write none (key + 16) 8 n
    -- word 3 is written empty: nobody reads it meanwhile, and a `fe.swe` that waits there is served (06 R153)
    let s := if full then s.write none (key + 24) 8 0
      else ((s.rawWrite none (key + 24) 8 0).setFull (key + 24) false).serveFe ((key + 24) / 8) s.feHeld.length
    if fnFsvcv b f then
      match physOf (fnPart b f) (fnFsvc b f % 1024) with
      | some c =>
        let pkt : Packet := { cell := c, slot := fnFsvc b f / 1024 % 16, words := [(fnFsvc b f / 2 ^ 14 % 16, BitVec.ofNat 64 n)], id := s.nextId }
        let h : HeldPkt := { fromCell := 1024, fromSlot := 0, slot := pkt.slot, pkt := pkt, fn := some f }
        (({ s with nextId := s.nextId + 1, notices := s.notices ++ [h] } : State).dueNow (.packetReoffer pkt.id), some n)
      | none => (s, some n)
    else (s, some n)
/-- Write a kill record; while it cannot be written it waits, as the others before it do (20 R426). -/
def State.killRecord (s : State) (f word0 : Nat) : State :=
  let later : State := s.setFn f { s.fnSt f with killsHeld := (s.fnSt f).killsHeld ++ [word0] }
  if !(s.fnSt f).killsHeld.isEmpty then later
  else match s.faultRing f word0 0 true with
    | (s, some _) => s
    | (s, none) => s.setFn f { s.fnSt f with killsHeld := (s.fnSt f).killsHeld ++ [word0] }
/-- The kill records that wait are written, as far as they can be. -/
def State.flushKills (s : State) (f : Nat) : State :=
  let l := (s.fnSt f).killsHeld
  l.foldl (fun s w => s.killRecord f w) (s.setFn f { s.fnSt f with killsHeld := [] })
def State.retryKills (s : State) : State := (s.fns.filter fun x => !x.2.killsHeld.isEmpty).foldl (fun s (f, _) => s.flushKills f) s
def faultWord (kind acc cell slot asid : Nat) : Nat := kind + acc * 2 ^ 8 + cell * 2 ^ 16 + slot * 2 ^ 26 + asid * 2 ^ 32

/-! ### The tenants of a time-sliced partition (20 R410-R412) -/

/-- The time-sliced partition that holds a cell, and the tenant that a slot of it serves: during a switch, the incoming one once the slot's
granule has been exchanged. -/
def State.slicedAt (s : State) (c : Nat) : Option Nat :=
  (partList s.layout.active).find? fun p => inPart p c && partSlice s.layout.active p
def State.slotTenant (s : State) (p c i : Nat) : Bool :=
  (s.part p).tenant != ((s.cell c).switch && (s.cell c).granules.contains i)
def tenantFn (b : SMap W64) (p : Nat) (t : Bool) : Nat := if t then partVf1 b p else partVf0 b p
/-- Whether what comes for function `fn` in a slot is for a thread that a switch has taken out. -/
def State.switchedOut (s : State) (c : Nat) (fn : Option Nat) (i : Nat) : Bool :=
  match s.slicedAt c, fn with
  | some p, some f => f = tenantFn s.layout.active p (!s.slotTenant p c i)
  | _, _ => false

/-- A tenant that the switch of a partition is taking out: what its operations do from now on stops at once (20 R410). -/
def State.leaves (s : State) (p f : Nat) : Bool := (s.part p).switching.isSome && f = tenantFn s.layout.active p (s.part p).tenant

/-! ### Ending and killing a thread (04 R114, 07 R217, 20 R418) -/

/-- Where the images of a slot lie: in its register section, and in its wing. -/
def imageKey (c i : Nat) : Nat := poolKey c (4096 * i)
def wingKey (c i : Nat) : Nat := poolKey (1024 + c) (4096 * i)
/-- Unbind a slot from its pair, with the pair's queues; the image of a saved partner says so (07 R217). -/
def State.unpair (s : State) (c i : Nat) : State :=
  let t := s.th c i
  if t.pair = 0 then s
  else
    let j := t.partner
    let s := s.modTh c i fun t => { t with pair := 0, partner := 0 }
    let s := if (s.slot c j).state = .saved then s.write none (imageKey c j + 0xF00) 8 0 else s
    let s := if (s.th c j).partner = i then s.modTh c j fun t => { t with pair := 0, partner := 0 } else s
    s.modCell c fun x => { x with links := x.links.del (min i j) }
/-- The replies of a thread that ends go to nobody. -/
def State.orphan (s : State) (c i : Nat) : State :=
  { s with reqs := s.reqs.map fun (n, r) => (n, if r.cell = c && r.slot = i && !s.switchedOut c (some r.fn) i then { r with dead := true } else r) }
/-- Withdraw the held full/empty operations and held lr of a thread. -/
def State.withdraw (s : State) (c i : Nat) : State :=
  let mine (id : Nat) : Bool := match s.reqs.look id with
    | some r => r.cell = c && r.slot = i && !s.switchedOut c (some r.fn) i
    | none => false
  { s with
    reqs := s.reqs.filter fun x => !(x.2.cell = c && x.2.slot = i && x.2.held && !s.switchedOut c (some x.2.fn) i)
    feHeld := s.feHeld.filter (!mine ·)
    lrHeld := s.lrHeld.filter (!mine ·) }
/-- Abandon the parking instruction of a slot (06 R175), which had been counted unless it waited for a message register; its lend action is
recorded (04 R117). -/
def State.abandon (s : State) (c i : Nat) : State × Bool :=
  match (s.slot c i).state, (s.th c i).wait with
  | .parked, some (.msgReg _) => (s.ready c i, false)
  | .parked, some _ => (((s.withdraw c i).modTh c i Thread.leave).ready c i, true)
  | _, _ => (s, false)
/-- Free a thread's watch entries. -/
def Cell.unwatch (x : Cell) (i : Nat) : Cell := { x with watch := x.watch.filter fun w => w.2.slot != i }
/-- Take a thread out of every queue's parked pops. -/
def State.unpop (s : State) (c i : Nat) : State :=
  let out (l : List (Nat × Nat × Nat)) := l.filter fun (d, j, _) => !(d = c && j = i)
  { s with stages := s.stages.map fun (k, q) => (k, { q with parked := out q.parked })
           queues := s.queues.map fun (k, q) => (k, { q with parked := out q.parked }) }
/-- A thread's packets stay with the slot's buffers when the thread ends. -/
def Thread.ended (t : Thread) : Thread :=
  let t := ({ t with region := none }).closePkt
  { openPkt := t.openPkt, openClosed := t.openClosed, openAfter := t.openAfter, closedPkt := t.closedPkt, released := t.released }
/-- A slot of a cell has become empty or is no longer reserved: the waiting queues of its partition are examined again (10 R288). -/
def State.slotFreed (s : State) (c : Nat) : State :=
  { s with queues := s.queues.map fun (q, x) => (q, if inPart (bits x.ctx 152 8) c then { x with waiting := false } else x) }
/-- The members of a thread's cohorts that wait at an align: its end may be what they wait for (04 R119). -/
def State.alignersOf (s : State) (c i : Nat) (bind : Option Bind) : List Due :=
  match bind with
  | none => []
  | some b => (s.allSlots.filter fun (c', i', y) => !(c' = c && i' = i) && clusterOf c' = clusterOf c && y.th.align.isSome &&
      y.bind.map (·.group) = some b.group && y.bind.map (·.part) = some b.part).map fun (c', i', _) => .alignTimeout c' i'
/-- What ending a thread does in every case. -/
def State.endThread (s : State) (c i : Nat) (st : SlotState) : State :=
  let s := (((s.unpair c i).withdraw c i).unpop c i).orphan c i
  let s : State := { s with due := s.due ++ s.alignersOf c i (s.slot c i).bind }
  let y := s.slot c i
  let was := y.th.closedPkt.isSome
  let s := s.setSlot c i { y with state := st, th := y.th.ended, bind := none }
  let s := (s.modCell c (·.unwatch i)).closing c i was
  if st = .empty then s.slotFreed c else s
/-- Kill a thread: its slot is dead until its registers are scrubbed, and a kind-6 record goes to its function's ring (20 R418). -/
def State.kill (s : State) (c i : Nat) : State :=
  let asid := (s.th c i).asid.toNat
  let f := s.threadFn c i
  let s := (s.endThread c i .dead).dueAt (s.cycle + 64) (.scrubDone c i)
  match f with
  | some f => s.killRecord f (faultWord 6 0 c i asid)
  | none => s
/-- Kill by consumed poison, with its kind-7 record and the function's kills counter (22 R441, R445, R448). -/
def State.killPoison (s : State) (c i va : Nat) : State :=
  let t := s.th c i
  let f := s.threadFn c i
  let s := s.err ⟨c, 7, true, f, va, t.pc.toNat + i * 2 ^ 48⟩
  let s := match f with
    | some f => s.count f 4
    | none => s
  s.kill c i

/-! ### A thread's writes in flight (06 R148) -/

def State.myWrites (s : State) (c i : Nat) : List (Nat × Req) := s.reqs.filter fun x => x.2.posted && !x.2.dead && x.2.engine.isNone && x.2.cell = c && x.2.slot = i && !s.switchedOut c (some x.2.fn) i
def State.unacked (s : State) (c i : Nat) : Nat := (s.myWrites c i).filter (fun x => x.2.op != .flush) |>.length
/-- Whether a write of the thread before request number `n` awaits its acknowledgment (11 R315). -/
def State.earlier (s : State) (c i n : Nat) : Bool :=
  s.reqs.any fun x => x.1 < n && x.2.posted && x.2.op != .flush && x.2.engine.isNone && x.2.cell = c && x.2.slot = i && !s.switchedOut c (some x.2.fn) i
/-- The same for the thread of a function, wherever it is. -/
def State.earlierOf (s : State) (c i fn n : Nat) : Bool :=
  s.reqs.any fun x => x.1 < n && x.2.posted && x.2.op != .flush && x.2.engine.isNone && x.2.cell = c && x.2.slot = i && x.2.fn = fn
/-- A release write or fence must wait: for acknowledgments, and with p or h in its mask for flush reads (06 R149). -/
def State.relWait (s : State) (c i : Nat) (mask : Nat) : Bool :=
  0 < s.unacked c i || (mask / 16 % 4 ≠ 0 && !(s.myWrites c i).isEmpty)
/-- Whether a write to memory touches the word at a key. -/
def Req.writesWord (r : Req) (key : Nat) : Bool :=
  let at_ (k n : Nat) : Bool := k / 8 ≤ key / 8 && key / 8 ≤ (k + n - 1) / 8
  match r.op with
  | .store n .. => at_ r.key n
  | .vstore es n _ => es.any fun x => at_ x.1 n
  | .fe .. | .amo .. => at_ r.key 8
  | _ => false
/-- Whether a thread's own write to one of some words is still to be performed (11 R309 "same word"). -/
def State.ownPending (s : State) (c : Nat) (slot : Option Nat) (ks : List Nat) : Bool :=
  slot.any fun i => (s.myWrites c i).any fun x => x.2.done.isNone && ks.any x.2.writesWord

/-! ### Page walks and translation (20 R420-R425, 23 R463) -/

/-- The kind of an access: load, store, read-modify-write, fetch (06 R145). -/
inductive Acc where
  | load | store | rmw | fetch
  deriving DecidableEq, Repr
def Acc.num : Acc → Nat
  | .load => 0
  | .store => 1
  | .rmw => 2
  | .fetch => 3

/-- An HBM page lies wholly in the quota of a function (20 R405). -/
def State.quotaOk (s : State) (f off len : Nat) : Bool :=
  let b := s.layout.active
  fnHbmBase b f * 2 ^ 30 ≤ off && off + len ≤ (fnHbmBase b f + fnHbmLen b f) * 2 ^ 30
/-- A trained stack holds an HBM offset (20 R405, 21 R431). -/
def State.offOk (s : State) (off : Nat) : Bool := (stackOf off).any fun k => (s.stack k).train = 2

/-- How an access is translated: it lands, it fails, or a read of the walk waits at a controller until a cycle (21 R436). -/
inductive Walked (α : Type) where
  | ok (v : α)
  | fault
  | held (t : Nat)
  deriving DecidableEq, Repr

/-- Follow the tables from a level (20 R422): the keys of the entries read; and the key of the leaf's entry, the leaf, and the size (log2) of
its page. -/
def State.walkFrom (s : State) (f va : Nat) : Nat → Nat → List Nat × Option (Nat × W64 × Nat)
  | level, table =>
    let off := table + 8 * (va >>> (12 + 9 * level) % 512)
    if !s.quotaOk f table 4096 || !s.offOk off then ([], none)
    else
      let k := keyHbm + off
      let e : W64 := BitVec.ofNat 64 (readNat s.mem k 8)
      if !e.getLsbD 0 || bits e 61 3 > 4 || bits e 60 1 ≠ 0 || bits e 10 2 ≠ 0 || e.getLsbD 8 then ([k], none)
      else if e.getLsbD 1 then
        let devOk := bits e 61 3 = 3 || bits e 61 3 = 4 || bits e 48 12 = 0
        let log := 12 + 9 * level
        if level ≥ 3 || !devOk || (level ≠ 0 && e.getLsbD 9) then ([k], none)
        else
          let log := if e.getLsbD 9 then 16 else log
          if bits e 12 36 % 2 ^ (log - 12) ≠ 0 then ([k], none) else ([k], some (k, e, log))
      else
        match level with
        | 0 => ([k], none)
        | l + 1 =>
          if bits e 61 3 ≠ 0 || bits e 48 12 ≠ 0 || bits e 2 8 ≠ 0 then ([k], none)
          else
            let (ks, r) := s.walkFrom f va l (bits e 12 36 * 4096)
            (k :: ks, r)

/-- The key of an ASID context, and the level-3 table that it gives (20 R420). -/
def State.rootKey (s : State) (f asid : Nat) : Nat := keyHbm + fnAtab s.layout.active f + 16 * (asid - fnAsidBase s.layout.active f)
def State.rootOf (s : State) (f asid : Nat) : Option Nat :=
  let x := readNat s.mem (s.rootKey f asid) 16
  if x % 2 = 1 && x / 2 % 2 ^ 63 = 0 && x / 2 ^ 112 = 0 && x / 2 ^ 64 % 4096 = 0 then some (x / 2 ^ 64 % 2 ^ 48) else none

/-- Log one setting of d in a kind-0 leaf (23 R463). -/
def State.dirtyLog (s : State) (f off log : Nat) : State :=
  let x := s.fnSt f
  if !x.ovf && (x.lhead - x.ltail).toNat < 2 ^ x.ringlog.toNat then
    let sz := if log = 12 then 0 else if log = 16 then 1 else if log = 21 then 2 else 3
    let k := keyHbm + x.ringbase.toNat + 8 * (x.lhead.toNat % 2 ^ x.ringlog.toNat)
    let w := off / 4096 + sz * 2 ^ 36
    (s.setFn f { x with lhead := x.lhead + 1 }).ownWrite f k 8 (.store 8 (BitVec.ofNat 512 w) false) fun s => s.write none k 8 w
  else
    let x' := if x.ovf then x else { x with ovf := true, ovfcnt := if x.ovfcnt = BitVec.allOnes 32 then x.ovfcnt else x.ovfcnt + 1 }
    let rel := off - fnHbmBase s.layout.active f * 2 ^ 30
    (units (2 ^ 21) rel (2 ^ log)).foldl (fun s g =>
      let k := keyHbm + x.bmbase.toNat + g / 8
      s.ownWrite f k 1 (.amo 2 1 (BitVec.ofNat 64 (2 ^ (g % 8))) 0 (.s 0)) fun s => s.write none k 1 ((readNat s.mem k 1) ||| 2 ^ (g % 8))) (s.setFn f x')
/-- Log the settings of the cycle: those of threads come before those of engines (11 R307), each kind in the order in which it was made. -/
def State.logDirty (s : State) : State :=
  let (th, eng) := s.dirty.partition (·.1)
  (th ++ eng).foldl (fun s (_, f, off, log) => s.dirtyLog f off log) { s with dirty := [] }

/-- Whether a leaf permits an access (20 R423). -/
def leafOk (e : W64) (acc : Acc) (user : Bool) : Bool :=
  (!user || e.getLsbD 5) && bits e 61 3 ≠ 4 &&
  match acc with
  | .load => e.getLsbD 2
  | .store | .rmw => e.getLsbD 3
  | .fetch => e.getLsbD 4
/-- The physical key of a virtual address under a leaf. A second-tier address (kind 1) above what the ports hold, up to 8 TB (00 R2), is memory like
any other below 2^48: the manual gives it no outcome (DESIGN CHOICE, log entry 61). -/
def leafKey (e : W64) (log va : Nat) : Nat :=
  let pa := bits e 12 36 * 4096 + va % 2 ^ log
  match bits e 61 3 with
  | 0 => keyHbm + pa
  | 1 => keyTier2 + pa
  | 2 => keyHost + pa
  | 3 => keyPeer + bits e 48 12 * 2 ^ 48 + pa
  | _ => keyLaunch + bits e 48 12 * 2 ^ 48 + pa
def tlbFind (l : List TlbEntry) (asid va : Nat) : Option TlbEntry :=
  l.find? fun e => e.asid = asid && e.base = va / 2 ^ e.log
def tlbFill (n : Nat) (l : List TlbEntry) (e : TlbEntry) : List TlbEntry :=
  ((l.filter fun x => !(x.asid = e.asid && x.base = e.base && x.log = e.log)) ++ [e]).reverse.take n |>.reverse

/-- Whether a leaf serves an access: as 20 R423 says, or for the launch copy of 18 R381 the page of a peer launch queue. -/
def leafServes (e : W64) (acc : Acc) (user launch : Bool) : Bool :=
  leafOk e acc user || (launch && bits e 61 3 = 4 && e.getLsbD 3 && (!user || e.getLsbD 5))
/-- The key where an access through a leaf lands, if there is memory (20 R405). -/
def State.landing (s : State) (e : W64) (log va : Nat) : Option Nat :=
  let k := leafKey e log va
  if isHbm k && !s.offOk (hbmOff k) then none else some k
/-- Walk the tables of a function from a root, setting a, and d for a write, in the leaf's entry (20 R424): the leaf as it is then, and the
size of its page. The walk's reads, after those of `pre`, are the function's: they activate rows, and wait for a throttled one, and for the own
write of the thread in a slot to an entry that they read. -/
def State.walkRoot (s : State) (f root va : Nat) (acc : Acc) (user launch : Bool) (pre : List Nat) (cell : Nat := 0)
    (slot : Option Nat := none) : State × Walked (W64 × Nat) :=
  let (ks, r) := s.walkFrom f va 3 root
  if s.ownPending cell slot (pre ++ ks) then (s, .held (s.cycle + 1))
  else match s.holdAct f (match slot with
    | some i => 16 * cell + i + 1
    | none => 0) ((pre ++ ks).map fun k => (k, 8)) with
  | (s, some t) => (s, .held t)
  | (s, none) =>
    let s := (pre ++ ks).foldl (fun s k => s.access (some f) k 8 false) s
    match r with
    | none => (s, .fault)
    | some (key, e, log) =>
      let wr := acc = .store || acc = .rmw
      if !leafServes e acc user launch || (bits e 61 3 = 0 && !s.quotaOk f (bits e 12 36 * 4096) (2 ^ log)) || (s.landing e log va).isNone then (s, .fault)
      else
        let e' := if wr then e ||| 0xC0 else e ||| 0x40
        let s : State := if wr && !e.getLsbD 7 && bits e 61 3 = 0 && (s.fnSt f).logEn then
          { s with dirty := s.dirty ++ [(slot.isSome, f, bits e 12 36 * 4096, log)] } else s
        (if e' = e then s else (s.access (some f) key 8 true).write none key 8 e'.toNat, .ok (e', log))
/-- The level-3 table of an address space as the second-level TLB of a domain holds it, else as memory has it, with the key read for it. -/
def State.heldRoot (s : State) (d f asid : Nat) : Option (Nat × List Nat) :=
  match (s.l2ctx.at d []).find? (·.1 = asid) with
  | some x => some (x.2, [])
  | none => (s.rootOf f asid).map fun r => (r, [s.rootKey f asid])
/-- Hold an ASID context in the second-level TLB of a domain, whose contexts and translations are 4,096 together (20 R425). -/
def State.keepRoot (s : State) (d asid root : Nat) : State :=
  let l := ((s.l2ctx.at d []).filter (·.1 != asid) ++ [(asid, root)]).reverse.take 4096 |>.reverse
  let tr := (s.l2tlb.at d []).reverse.take (4096 - l.length) |>.reverse
  { s with l2ctx := s.l2ctx.set d l [], l2tlb := s.l2tlb.set d tr [] }
/-- Walk for a translation that no TLB holds, and fill the TLBs. -/
def State.walk (s : State) (f cell asid va : Nat) (acc : Acc) (user launch : Bool) (slot : Option Nat) : State × Walked (W64 × Nat) :=
  let d := domainOf cell
  if !((s.l2ctx.at d []).any (·.1 = asid)) && s.ownPending cell slot [s.rootKey f asid, s.rootKey f asid + 8] then (s, .held (s.cycle + 1))
  else match s.heldRoot d f asid with
  | none => (s, .fault)
  | some (root, pre) =>
    match s.walkRoot f root va acc user launch pre cell slot with
    | (s, .ok (e, log)) =>
      let s := s.keepRoot d asid root
      let t : TlbEntry := ⟨asid, va / 2 ^ log, log, e⟩
      let s := s.modCell cell fun x => { x with tlb := tlbFill 64 x.tlb t }
      ({ s with l2tlb := s.l2tlb.set d (tlbFill (4096 - (s.l2ctx.at d []).length) (s.l2tlb.at d []) t) [] }, .ok (e, log))
    | (s, .fault) => (if pre.isEmpty then s else s.keepRoot d asid root, .fault)
    | (s, .held t) => (s, .held t)

/-- Translate a virtual address for an access of an agent of function `fn` in a cell (20 R420, R423-R425): the function must own the address
space; a held translation serves unless its d bit must be set first. The physical key, unless the access fails or its walk waits. -/
def State.translate (s : State) (fn : Option Nat) (cell asid va : Nat) (acc : Acc) (user : Bool) (launch : Bool := false)
    (slot : Option Nat := none) : State × Walked Nat :=
  match fn with
  | none => (s, .fault)
  | some f =>
    if s.owner asid ≠ some f then (s, .fault)
    else
      let held := ((tlbFind (s.cell cell).tlb asid va).orElse fun _ => tlbFind (s.l2tlb.at (domainOf cell) []) asid va).filter fun e =>
        e.leaf.getLsbD 7 || !(acc = .store || acc = .rmw)
      match held with
      | some e =>
        match s.landing e.leaf e.log va with
        | some k => (s, if leafServes e.leaf acc user launch then .ok k else .fault)
        | none => (s, .fault)
      | none =>
        match s.walk f cell asid va acc user launch slot with
        | (s, .ok (e, log)) => (s, .ok (leafKey e log va))
        | (s, .fault) => (s, .fault)
        | (s, .held t) => (s, .held t)

/-! ### Address spaces and capability checks (06 R143-R145, 01 R23) -/

/-- The checks of 01 R23 on an access of `size` bytes at `addr`. -/
def capCheck (r : Reg) (perms : List Nat) (addr size : Nat) : Option Trap :=
  if !r.tag then some ⟨0x05, 0, BitVec.ofNat 96 addr, false⟩
  else if !(perms.all r.has) then some ⟨0x06, 0, BitVec.ofNat 96 addr, false⟩
  else if !(r.base ≤ addr && addr + size ≤ r.top) then some ⟨0x07, 0, BitVec.ofNat 96 addr, false⟩
  else none

/-- The same check where the spec names no `tval` for its fault. -/
def capCheckOpen (tv : W96) (r : Reg) (perms : List Nat) (addr size : Nat) : Option Trap :=
  (capCheck r perms addr size).map fun x => { x with tval := tv }

/-- Step 3 of 06 R145 for an agent of a partition in a cell: the key of a pool access, none for a global one, or its fault. -/
def State.spaceOf (s : State) (part c : Nat) (user : Bool) (ea size : Nat) : Except Trap (Option Nat) :=
  let tv : W96 := BitVec.ofNat 96 ea
  let sp := ea / 2 ^ 44 % 16
  let last := ea + size - 1
  if sp < 14 then
    if size ≠ 0 && last / 2 ^ 44 ≥ 14 then .error ⟨0x0B, 4, tv, false⟩ else .ok none
  else
    let vc := ea / 2 ^ 34 % 2 ^ 10
    let zero := if sp = 15 then ea / 2 ^ 20 % 2 ^ 14 = 0 else ea / 2 ^ 20 % 2 ^ 24 = 0
    if !zero || (size ≠ 0 && last / 2 ^ 20 ≠ ea / 2 ^ 20) then .error ⟨0x0B, 4, tv, false⟩
    else
      match (if sp = 15 then physOf part vc else some c) with
      | none => .error ⟨0x0A, 0, tv, false⟩
      | some pc =>
        if user && ea % 2 ^ 20 < bits (s.cell pc).pword 0 8 * 4096 then .error ⟨0x06, 0, tv, false⟩
        else .ok (some (poolKey pc (ea % 2 ^ 20)))
def State.space (s : State) (c i : Nat) (user : Bool) (ea size : Nat) : Except Trap (Option Nat) := s.spaceOf (s.partOf c i) c user ea size

/-- Why a thread's access does not go on: its trap, or a walk that waits at a controller (20 R425, 21 R436). -/
inductive Stop where
  | trap (x : Trap)
  | later
  deriving DecidableEq, Repr

/-- All checks of 06 R145 up to translation for a thread's access; the physical key. -/
def State.resolve (s : State) (c i : Nat) (r : Reg) (perms : List Nat) (ea size align : Nat) (acc : Acc) : State × Except Stop Nat :=
  let tv : W96 := BitVec.ofNat 96 ea
  let t := s.th c i
  let user := t.mode = .user
  match capCheck r perms ea size with
  | some x => (s, .error (.trap x))
  | none =>
    if ea % align ≠ 0 then (s, .error (.trap ⟨0x04, 0, tv, false⟩))
    else match s.space c i user ea size with
      | .error x => (s, .error (.trap x))
      | .ok (some k) => (s, .ok k)
      | .ok none =>
        match s.translate (s.threadFn c i) c t.asid.toNat ea acc user false (some i) with
        | (s, .ok k) => (s, .ok k)
        | (s, .fault) => (s, .error (.trap ⟨0x0B, acc.num, tv, false⟩))
        | (s, .held _) => (s, .error .later)

/-! ### Granules of a slice switch (20 R411, R412) -/

/-- Whether an access to `n` bytes at a key must wait for a granule that has not been exchanged. -/
def State.notYet (s : State) (key n : Nat) : Bool :=
  match kindOf key with
  | .pool d =>
    let x := s.cell d
    x.switch && (units 4096 (key % 2 ^ 20) n).any fun g => !x.granules.contains g
  | _ => false
/-- Ask for the scratchpad granules that an access waits for: they are moved next (20 R412). -/
def State.want (s : State) (key n : Nat) : State :=
  match kindOf key with
  | .pool d =>
    let g := (units 4096 (key % 2 ^ 20) n).filter fun g => 64 ≤ g && !(s.cell d).granules.contains g && !(s.cell d).wanted.contains g
    s.modCell d fun x => { x with wanted := x.wanted ++ g }
  | _ => s
/-- Whether a thread has come in by the switch that is running. -/
def State.incoming (s : State) (c i : Nat) : Bool := (s.cell c).switch && (s.cell c).halted.contains i

/-! ### The banks of a pool (01 R12) -/

/-- The banks that hold the 8-byte words of `n` bytes from a pool key, one bit for each of the 32. -/
def banksOf (key n : Nat) : W32 := (units 8 key n).foldl (fun b w => b ||| BitVec.ofNat 32 (2 ^ (w % 32))) 0
/-- The copy engine or the array of a cell accesses its own pool in this cycle. -/
def State.useBanks (s : State) (c key n : Nat) : State :=
  if key / 2 ^ 20 = c then
    s.modCell c fun x => { x with bankAt := s.cycle, banks := if x.bankAt = s.cycle then x.banks ||| banksOf key n else banksOf key n }
  else s
/-- An access of a thread to its own pool loses a bank that it needs: the engines' accesses of the cycle come first. -/
def State.loses (s : State) (c key n : Nat) : Bool :=
  key / 2 ^ 20 = c && (s.cell c).bankAt = s.cycle && (s.cell c).banks &&& banksOf key n != 0

/-! ### Tile locks (01 R30, R31) -/

/-- A locked tile, with its cell, that `n` bytes from a pool key touch. -/
def State.lockedTile (s : State) (key n : Nat) : Option (Nat × Nat) :=
  match kindOf key with
  | .pool c =>
    let x := s.cell c
    let b := bits x.pword 0 8 * 4096
    (x.locks.find? fun (t, _) => key % 2 ^ 20 < b + 1024 * (t + 1) && b + 1024 * t < key % 2 ^ 20 + n).map fun y => (c, y.1)
  | _ => none
def tileKey (pword : W32) (c t : Nat) : Nat := poolKey c (bits pword 0 8 * 4096 + 1024 * t)
def tileExists (pword : W32) (t : Nat) : Bool := t < 4 * bits pword 8 8

end Sys2Proof.Machine
end

