-- ==== Sys2Proof/Machine/Operands.lean ====
section
/-!
DEFINITION. The issue of one thread instruction: operand classes and values (03 R81), the order of checks of 03 R83, the limits of an atomic
region (06 R163), parking on message registers (01 R26), and how an instruction ends: its counts, its lend action and branches (04
R116-R118), its park, its trap.
-/
namespace Sys2Proof

open Machine

/-! ### Operand classes (03 R81, R85) -/

def evenS : Opnd → Bool
  | .s n => n.toNat % 2 = 0
  | _ => false
/-- Whether a source field is of its class. -/
def Cls.srcOk (m : Byte) (o : Opnd) (k : Cls) : Bool :=
  if k.unusedAt m then true
  else match k, o with
    | .d, .s _ | .d, .m _ | .d, .k _ | .d, .imm _ => true
    | .wd, .s _ | .wd, .m _ | .wd, .k _ | .wd, .imm _ => true
    | .c, .s _ | .wc, .s _ => true
    | .v, .v _ | .dq, .v _ => true
    | .p, .p _ => true
    | .es, o => evenS o
    | _, _ => false
/-- Whether a D field is of its class. -/
def Cls.dstOk (m : Byte) (o : Opnd) (k : Cls) : Bool :=
  match k, o with
  | .no, _ => true
  | .d, .s _ | .d, .m _ | .d, .k _ => true
  | .c, .s _ => true
  | .v, .v _ => true
  | .p, .p _ => true
  | .ev, .v n => n.toNat % 2 = 0
  | .wk, .s _ => true
  | .wk, .m _ | .wk, .k _ => m.getLsbD 0
  | _, _ => false
/-- The first field that fails its class, as the detail of cause 0x02 (03 R85). -/
def Row.classError (r : Row) (f : Fields) : Option Nat :=
  if !r.d.dstOk f.m f.d then some 0
  else if !r.a.srcOk f.m f.a then some 1
  else if !r.b.srcOk f.m f.b then some 2
  else if !r.c.srcOk f.m f.c then some 3
  else none

/-- Whether D is read as a source (07 R196: `mx.mmaq`; 08 R243: `rope.walk`). -/
def Row.readsD (r : Row) : Bool := (r.op = 0xC0 && r.fn = 1) || (r.op = 0xD0 && r.fn = 7)
/-- The message registers that an instruction reads, each once (01 R26). -/
def Row.msgSources (r : Row) (f : Fields) : List Nat :=
  let src (k : Cls) (o : Opnd) : List Nat :=
    match o with
    | .m n => if k.unusedAt f.m then [] else [n.toNat]
    | _ => []
  (src r.a f.a ++ src r.b f.b ++ src r.c f.c ++ (if r.readsD then src r.d f.d else [])).eraseDups

/-! ### Atomic regions: which instructions execute (06 R163) -/

def isM : Opnd → Bool
  | .m _ => true
  | _ => false
def isK : Opnd → Bool
  | .k _ => true
  | _ => false
/-- Whether an instruction executes inside a region. -/
def Row.inRegion (r : Row) (f : Fields) : Bool :=
  let noM := !(isM f.a || isM f.b || isM f.c || isM f.d)
  if r.op ≤ 0x18 then noM && !isK f.d
  else if r.op = 0x20 then f.m = 0
  else if r.op = 0x21 then r.fn ≠ 2
  else if r.op = 0x70 || r.op = 0x71 then r.fn ≠ 4 && f.m = 0
  else if r.op = 0xA0 then r.fn ≤ 1 && noM
  else if r.op = 0xA1 then r.fn = 0 && noM
  else if r.op = 0x99 then true
  else r.op = 0xF1 && r.fn = 0
/-- The limit of 64 instructions and the instructions not allowed (06 R163): the abort's cause and detail. A vec or qz instruction that is also
the 65th aborts for the limit, with detail 0 (05 R120 gives detail 4 and R163 detail 0: DESIGN CHOICE, log entry 57). -/
def Row.regionError (r : Row) (f : Fields) (t : Thread) : Option (Nat × Nat) :=
  if t.region.isNone then none
  else if 64 ≤ t.icount then some (0x41, 0)
  else if r.inRegion f then none
  else if r.form = Form.eng then some (0x45, r.op) else some (0x41, 4)

/-! ### Checks that depend on the thread (03 R84 code 5; 04 R112, 06 R177, 07 R212) -/

/-- An encoding that is one only in split mode, or only in a handler. -/
def Row.dynError (r : Row) (f : Fields) (t : Thread) : Bool :=
  (r.op = 0x20 && r.fn = 0 && f.m = 1 && t.pair ≠ 3) || ((r.op = 0xE9 || r.op = 0xEA) && t.pair ≠ 3) ||
  (r.op = 0xA0 && r.fn = 5 && !t.hnd)

namespace Machine

/-! ### Operand values -/

/-- The captured operands of an instruction: the data and the whole cell of each of A, B, C and D, and the odd cell of a pair in C. -/
structure Env where
  a : Reg := {}
  b : Reg := {}
  c : Reg := {}
  d : Reg := {}
  c1 : Reg := {}
  deriving DecidableEq, Repr

/-- The value an operand reads: a scalar cell whole, a message register, a common register, a short immediate (03 R80, R81). -/
def State.operand (s : State) (c i : Nat) (o : Opnd) : Reg :=
  match o with
  | .s n => (s.th c i).rs n.toNat
  | .m n => dataReg ((s.th c i).rm n.toNat).val
  | .k n => dataReg (s.readK c i n.toNat)
  | .imm x => dataReg (x.signExtend 64)
  | .p n => dataReg (BitVec.ofNat 64 ((s.th c i).rp n.toNat).toNat)
  | .v _ => {}
def State.env (s : State) (c i : Nat) (f : Fields) : Env :=
  { a := s.operand c i f.a, b := s.operand c i f.b, c := s.operand c i f.c, d := s.operand c i f.d,
    c1 := match f.c with
      | .s n => (s.th c i).rs (n.toNat + 1)
      | _ => {} }

/-! ### Results of a body -/

/-- How the body of an instruction ends at step 6 of 03 R83. -/
inductive Res where
  /-- Done; goes on in sequence, with the lend action of its address. -/
  | ok (s : State)
  /-- A taken branch; `leaves` says that 04 R118 lets it deactivate loop levels (a br, br.bq or jump, no call and no ret). -/
  | jump (s : State) (target : Addr) (leaves : Bool)
  /-- A `ctl.loop` that executed (04 R115), with the pc it chose. -/
  | loop (s : State) (next : Addr)
  /-- The body has set the pc and the state of the slot itself. -/
  | set (s : State)
  | trap (x : Trap)
  /-- A trap of which the page walks and translations made before it stay (20 R424). -/
  | fault (s : State) (x : Trap)
  /-- Cancelled (01 R12): nothing counts, the instruction issues again. The state carries only the waiting states of 04 R119 and 07 R213. -/
  | cancel (s : State)
  /-- Parks at this issue, having executed (04 R117). -/
  | park (s : State) (w : Wait)
  /-- Parks without having executed and issues again (04 R117). -/
  | hold (w : Wait)
  /-- Aborts the atomic region (06 R167). -/
  | abort (cause detail : Nat)
  /-- The thread consumed poison at an address (22 R441). -/
  | poison (va : Nat)
  deriving DecidableEq, Repr

/-- End with the trap of a failed check; an access whose walk waits is cancelled, and made again (01 R12). -/
def Stop.res (s : State) : Stop → Res
  | .trap x => .fault s x
  | .later => .cancel s
/-- Continue with a state and a value, or end as a check says. -/
def tryKey (x : State × Except Stop Nat) (f : State → Nat → Res) : Res :=
  match x with
  | (s, .ok k) => f s k
  | (s, .error t) => t.res s

/-! ### Ends of an instruction -/

/-- The pc after an instruction that goes on in sequence: its lend action, unless it was taken already (04 R116, R117). -/
def Thread.advance (t : Thread) : Thread :=
  if t.lnd && t.lndAddr = t.pc then t.complete
  else if t.atLend t.pc then
    let u := t.lendAct t.pc
    { u with pc := u.afterLend t.pc }
  else { t with pc := t.pc + 12 }

/-- Whether an address lies in the body of a level (04 R118). -/
def Level.holds (l : Level) (a : Addr) : Bool := l.lbeg.toNat ≤ a.toNat && a.toNat ≤ l.lend.toNat
/-- A taken branch out of a body deactivates the level (04 R118). -/
def Level.branch (l : Level) (pc target : Addr) : Level :=
  if l.active && l.holds pc && !l.holds target then { l with active := false } else l
def Thread.branch (t : Thread) (target : Addr) (leaves : Bool) : Thread :=
  let t := if leaves then { t with l0 := t.l0.branch t.pc target, l1 := t.l1.branch t.pc target } else t
  { t with lnd := if t.lndAddr = t.pc then false else t.lnd, pc := target }

/-- What every counted instruction counts in: `retired`, the `msg.imask` window (06 R176), the open packet's 64 instructions (06 R172), and
an atomic region's limit (06 R163). `opens` excludes the `msg.imask` that opens a window. -/
def Thread.counted (t : Thread) (opens : Bool) : Thread :=
  let t := { t with retired := t.retired + 1, again := false }
  let t := if t.imask && !opens then { t with icnt := t.icnt - 1 } else t
  let t := if t.region.isSome then { t with icount := t.icount + 1 } else t
  if t.pktOpen then { t with pktCount := t.pktCount + 1 } else t

/-- Count an instruction; the end of a masked window and of a packet's 64 instructions are steps of their own that follow at once. -/
def State.counted (s : State) (c i : Nat) (opens : Bool := false) : State :=
  let s := s.modTh c i (·.counted opens)
  let t := s.th c i
  let s := if t.imask && t.icnt = 0 then s.dueNow (.imaskEnd c i) else s
  if t.pktOpen && 64 ≤ t.pktCount then s.dueNow (.pktCount c i) else s

/-- Park a slot: the open packet closes (06 R172). -/
def State.park (s : State) (c i : Nat) (w : Wait) : State :=
  let y := s.slot c i
  let was := y.th.closedPkt.isSome
  let s := s.setSlot c i { y with state := .parked, th := { y.th.closePkt with wait := some w } }
  s.closing c i was

/-- The lend action at the issue of a parking instruction (04 R117), unless it was taken before. -/
def Thread.parkLend (t : Thread) : Thread :=
  if t.lnd && t.lndAddr = t.pc then { t with parkLnd := true, parkLev := none }
  else if t.atLend t.pc then { t.lendAct t.pc with parkLnd := true, parkLev := some (t.l0, t.l1) }
  else { t with parkLnd := false, parkLev := none }

/-- End an instruction of the thread in slot (c, i): `s0` is the state at its issue, in which a trap, a cancelled issue or an abort leaves
the message registers (01 R12, R26). -/
def finish (s0 : State) (c i : Nat) (r : Res) (opens : Bool := false) : State :=
  match r with
  | .ok s => (s.counted c i opens).modTh c i Thread.advance
  | .jump s tgt leaves => (s.counted c i).modTh c i (·.branch tgt leaves)
  | .loop s next => (s.counted c i).modTh c i fun t => { t with pc := next, lnd := false }
  | .set s => s
  | .trap x => s0.takeTrap c i x
  | .fault s x => (s.setTh c i (s0.th c i)).takeTrap c i x
  | .cancel s => s.modTh c i fun t => { t with m := (s0.th c i).m }
  | .park s w => ((s.counted c i).modTh c i Thread.parkLend).park c i w
  | .hold w => s0.park c i w
  | .abort cause detail => (s0.abortNoted c i cause).modTh c i (·.issueAbort cause detail)
  | .poison va => s0.killPoison c i va

/-- The guard (03 R82). -/
def Thread.guard (t : Thread) (f : Fields) : Bool := t.rp f.gp.toNat != f.gi

/-- A body of an instruction: what it does with its captured operands, at step 6 of 03 R83. -/
abbrev Body := State → Nat → Nat → Env → Res

end Machine
end Sys2Proof
end

