-- ==== Sys2Proof/Machine/Region.lean ====
section
/-!
DEFINITION. Inside an atomic region: symbolic tags and constraints (06 R165), loads, stores and sends (06 R164), and what a commit checks
and writes (06 R166).
-/
namespace Sys2Proof

open Machine

namespace Machine

/-! ### Symbolic tags and constraints -/

/-- The symbolic tag of an operand. -/
def Thread.symOf (t : Thread) (o : Opnd) : Option Sym :=
  match o, t.region with
  | .s n, some g => g.sym.look n.toNat
  | _, _ => none
/-- Record a constraint; none for a ninth. -/
def Thread.constrain (t : Thread) (x : Constr) : Option Thread :=
  match t.region with
  | none => some t
  | some g =>
    if 8 ≤ t.ccount then none
    else some { t with region := some { g with constrs := g.constrs ++ [x] }, ccount := t.ccount + 1 }
/-- Record "load k unchanged", unless the region has. -/
def Thread.unchanged (t : Thread) (k : Nat) : Option Thread :=
  if (t.region.map fun g => g.constrs.contains (.unchanged k)) = some true then some t else t.constrain (.unchanged k)
/-- Any other use of tagged sources. -/
def Thread.concretise (t : Thread) : List Opnd → Option Thread
  | [] => some t
  | o :: os =>
    match t.symOf o with
    | none => t.concretise os
    | some y => (t.unchanged y.k).bind (·.concretise os)
/-- The sources whose use is "any other use"; `ia.add`, `ia.sub`, `ia.mov`, `ia.sel`, `icmp` and the data of a store say themselves what
they do with a tagged source. -/
def otherUses (r : Row) (f : Fields) : List Opnd :=
  if (r.op = 0 && (r.fn ≤ 1 || (r.fn = 24 && f.m = 0))) || (r.op = 1 && r.fn = 2) || (r.op = 2 && r.fn ≤ 1) || r.op = 5 || r.op = 6 then []
  else if r.op = 0x71 then [f.a, f.b]
  else [f.a, f.b, f.c]

/-- The state in which a body starts: the message registers it reads are consumed (01 R26), and symbolic sources made concrete; none for a
ninth constraint. -/
def State.start (s : State) (c i : Nat) (r : Row) (f : Fields) : Option State :=
  let s := (r.msgSources f).foldl (fun s n => s.modTh c i fun t => t.wm n { t.rm n with full := false }) s
  if (s.th c i).region.isNone then some s else ((s.th c i).concretise (otherUses r f)).map (s.setTh c i)

/-! ### Values of loads -/

def RLoad.ext (l : RLoad) (v : W64) : W64 := extend l.size l.signed v.toNat
/-- The relations of `icmp` (04 R101). -/
def Rel.holds (r : Rel) (a b : W64) : Bool :=
  match r with
  | .eq => a = b
  | .ne => a ≠ b
  | .lt => a.slt b
  | .ltu => a.ult b
  | .le => a.sle b
  | .leu => a.ule b

/-! ### Loads, stores and sends (06 R164) -/

/-- The region with the stack domain of an access; its abort for another domain or another memory. -/
def Region.place (g : Region) (key : Nat) : Except (Nat × Nat) Region :=
  match isHbm key, stackOf (hbmOff key) with
  | true, some k =>
    match g.domain with
    | none => .ok { g with domain := some k }
    | some j => if j = k then .ok g else .error (0x42, 0)
  | _, _ => .error (0x42, 1)
/-- Whether a buffered store overlaps an access otherwise than by the same address and size. -/
def RBuf.clash (x : RBuf) (key size : Nat) : Bool :=
  match x with
  | .store k n _ _ => k < key + size && key < k + n && !(k = key && n = size)
  | .send .. => false
/-- The value and tag of the last buffered store of an address and size. -/
def Region.forward (g : Region) (key size : Nat) : Option (W64 × Option Sym) :=
  (g.buf.filterMap fun x => match x with
    | .store k n v y => if k = key && n = size then some (v, y) else none
    | .send .. => none).getLast?
/-- Tag a scalar register. -/
def Thread.tagSym (t : Thread) (d : Opnd) (y : Sym) : Thread :=
  match d with
  | .s n => if n = 0 then t else { t with region := t.region.map fun g => { g with sym := g.sym.put n.toNat y } }
  | _ => t
/-- Write a scalar destination and tag it, or a message register, which has no tag and keeps the value as read (log entry 49). -/
def Thread.wsSym (t : Thread) (d : Opnd) (v : W64) (y : Option Sym) : Thread :=
  let t := match d with
    | .s n => t.ws n.toNat (dataReg v)
    | .m n => t.wm n.toNat { t.rm n.toNat with val := v, full := true }
    | _ => t
  match y with
  | some y => t.tagSym d y
  | none => t
/-- A load that the buffer serves, with its result: none where it must go to memory. -/
def Thread.regionForward (t : Thread) (d : Opnd) (key size : Nat) (signed : Bool) : Option (Except (Nat × Nat) (Thread × W64)) :=
  match t.region with
  | none => none
  | some g =>
    match g.place key with
    | .error e => some (.error e)
    | .ok g =>
      if g.buf.any (·.clash key size) then some (.error (0x41, 5))
      else match g.forward key size with
        | some (v, y) =>
          let x := extend size signed v.toNat
          match y with
          | some y =>
            if size = 8 then some (.ok (t.wsSym d x (some y), x))
            else match t.unchanged y.k with
              | some t => some (.ok (t.wsSym d x none, x))
              | none => some (.error (0x41, 3))
          | none => some (.ok (t.wsSym d x none, x))
        | none => if 8 ≤ g.loads.length then some (.error (0x41, 1)) else none
/-- Record a load with the value read, and write its tagged result. -/
def Thread.regionLoad (t : Thread) (d : Opnd) (l : RLoad) : Thread :=
  match t.region with
  | none => t
  | some g =>
    let dom := match g.place l.key with
      | .ok g => g.domain
      | .error _ => g.domain
    let k := g.loads.length
    let t := { t with region := some { g with loads := g.loads ++ [l], domain := dom }, lcount := t.lcount + 1 }
    t.wsSym d (l.ext l.val) (some ⟨k, 0⟩)
/-- Buffer a store or send. -/
def Thread.buffer (t : Thread) (x : RBuf) : Except (Nat × Nat) Thread :=
  match t.region with
  | none => .ok t
  | some g => if 8 ≤ g.buf.length then .error (0x41, 2) else .ok { t with region := some { g with buf := g.buf ++ [x] }, scount := t.scount + 1 }
def Thread.bufferStore (t : Thread) (key size : Nat) (v : W64) (y : Option Sym) : Except (Nat × Nat) Thread :=
  match t.region with
  | none => .ok t
  | some g =>
    match g.place key with
    | .error e => .error e
    | .ok g => ({ t with region := some g } : Thread).buffer (.store key size v y)

/-! ### The commit (06 R166) -/

/-- The value of a tagged cell, with the fresh values. -/
def Region.value (g : Region) (fresh : List W64) (y : Sym) : W64 :=
  match g.loads[y.k]?, fresh[y.k]? with
  | some l, some v => l.ext v + y.c
  | _, _ => y.c
def Region.holds (g : Region) (fresh : List W64) (x : Constr) : Bool :=
  match x with
  | .unchanged k => fresh[k]? = (g.loads[k]?).map (·.val)
  | .rel r y other left out =>
    (if left then r.holds (g.value fresh y) other else r.holds other (g.value fresh y)) = out
/-- The first constraint that fails. -/
def Region.fails (g : Region) (fresh : List W64) : Option Nat := (List.range g.constrs.length).find? fun j =>
  match g.constrs[j]? with
  | some x => !g.holds fresh x
  | none => false
/-- D of a commit that succeeds: 1 where a fresh value differs from the recorded one (06 R166). -/
def Region.commitD (g : Region) (fresh : List W64) : W64 := if fresh = g.loads.map (·.val) then 0 else 1
/-- Registers, D and the end of the region at a commit that succeeds. -/
def State.commitRegs (s : State) (c i : Nat) (g : Region) (d : Opnd) (fresh : List W64) : State :=
  let t := s.th c i
  let t := { t with region := none }
  let t := g.sym.foldl (fun t (n, y) => t.ws n (dataReg (g.value fresh y))) t
  (s.setTh c i t).writeD c i d (g.commitD fresh)
/-- The stores of a commit, in order, each an access of its function. -/
def State.commitStores (s : State) (f c i : Nat) (g : Region) (fresh : List W64) : State :=
  g.buf.foldl (fun s x => match x with
    | .store key size v y =>
      let v := match y with
        | some y => g.value fresh y
        | none => v
      (s.access (some f) key size true).write (some (c, i)) key size (v.toNat % 2 ^ (8 * size))
    | .send .. => s) s
/-- The packets that the buffered sends form, in order (06 R172): a send with E, an eighth word, another receiver or a register already
named closes a packet, and the commit closes the last. -/
def packets : List RBuf → Option Packet → List Packet
  | [], none => []
  | [], some p => [p]
  | .store .. :: bs, p => packets bs p
  | .send cell slot reg v fin int :: bs, p =>
    let word := (reg, v)
    let mark := if int then some reg else none
    let fresh : Packet := { cell := cell, slot := slot, words := [word], int := if fin then mark else none }
    match p with
    | none => if fin then fresh :: packets bs none else packets bs (some fresh)
    | some q =>
      if q.cell = cell && q.slot = slot && !(q.words.any (·.1 = reg)) then
        let q : Packet := { q with words := q.words ++ [word] }
        if fin || 8 ≤ q.words.length then { q with int := mark } :: packets bs none else packets bs (some q)
      else q :: (if fin then fresh :: packets bs none else packets bs (some fresh))
/-- Release the sends of a committed region (06 R166). -/
def Thread.release (t : Thread) (g : Region) : Thread :=
  { t with released := t.released ++ (packets g.buf none).map fun p => { p with rel := true } }
/-- Whether a released packet has not entered the network. -/
def Thread.releasing (t : Thread) : Bool := !t.released.isEmpty || t.closedPkt.any (·.rel)
/-- Move a released packet to the closed buffer when that is free (06 R166). -/
def State.shiftReleased (s : State) (c i : Nat) : State :=
  let t := s.th c i
  match t.closedPkt, t.released with
  | none, p :: ps => (s.setTh c i { t with closedPkt := some p, released := ps, openAfter := t.openAfter - 1 }).closing c i false
  | _, _ => s

end Machine
end Sys2Proof
end

