-- ==== Sys2Proof/Machine/Context.lean ====
section
/-!
DEFINITION. Saving and restoring a thread (07 R222; 20 R413, R414): the context image, what becomes of the streams of a saved thread (10
R301), and how an event of a saved thread reaches its image.
-/
namespace Sys2Proof.Machine

/-! ### The image (20 R413) -/

/-- Park reasons by number, in the order of the table of 01 R14. -/
def Wait.code (s : State) (w : Wait) : Nat :=
  match w with
  | .reply n => match s.reqs.look n with
    | some r => match r.op with
      | .fe .. | .sc .. | .amo .. => 3
      | _ => 1
    | none => 1
  | .msgReg _ | .msgWait .. => 2
  | .pop .. | .spill _ => 4
  | .tags .. | .barrier .. | .watch .. => 5
  | .tile .. => 6
  | .wfi => 7
  | .fault => 0
/-- The destination of the reply a thread awaits. -/
def ReqOp.dest : ReqOp → Opnd
  | .load _ _ _ d | .lr _ d | .sc _ _ d | .amo _ _ _ _ d | .fe _ _ d _ | .vload _ _ d | .commit d => d
  | _ => .s 0
def waitDest (s : State) (w : Option Wait) : Nat :=
  match w with
  | some (.reply n) => match s.reqs.look n with
    | some r => r.op.dest.toByte.toNat
    | none => 0
  | _ => 0
/-- The stat word of 06 R169. -/
def Thread.statWord (t : Thread) : W64 :=
  BitVec.ofNat 64 (t.acause.toNat * 2 ^ 40 + t.adetail.toNat * 2 ^ 32 + t.region.isSome.toNat * 2 ^ 31 + t.icount * 2 ^ 24 +
    t.lcount * 2 ^ 20 + t.scount * 2 ^ 16 + t.ccount * 2 ^ 12)
/-- A closed packet in 80 bytes: cell, slot, word count and interrupt register; the registers and the packet's number; the words (log
entry 13: the manual gives no field layout). -/
def packetBytes (p : Option Packet) : Nat :=
  match p with
  | none => 0
  | some p =>
    p.cell + p.slot * 2 ^ 16 + p.words.length * 2 ^ 24 + (match p.int with
      | some n => n + 16
      | none => 0) * 2 ^ 32 + 2 ^ 40 + p.rel.toNat * 2 ^ 41 +
    (p.words.foldr (fun x k => x.1 % 16 + 16 * k) 0) * 2 ^ 64 + p.id % 2 ^ 32 * 2 ^ 96 +
    (p.words.foldr (fun x k => x.2.toNat + 2 ^ 64 * k) 0) * 2 ^ 128
def bytesPacket (x : Nat) : Option Packet :=
  if x / 2 ^ 40 % 2 = 0 then none
  else
    let n := min 8 (x / 2 ^ 24 % 256)
    some { cell := x % 1024, slot := x / 2 ^ 16 % 16,
           words := (List.range n).map fun k => (x / 2 ^ (64 + 4 * k) % 16, BitVec.ofNat 64 (x / 2 ^ (128 + 64 * k))),
           int := if x / 2 ^ 36 % 2 = 1 then some (x / 2 ^ 32 % 16) else none, id := x / 2 ^ 96 % 2 ^ 32, rel := x / 2 ^ 41 % 2 = 1 }
/-- A bit for each register. -/
def mask16 (g : Nat → Bool) : Nat := (List.range 16).foldl (fun m n => m + (g n).toNat * 2 ^ n) 0
def levelBytes (l : Level) : Nat := l.lbeg.toNat + l.lend.toNat * 2 ^ 64 + (l.lcnt.toNat + l.active.toNat * 2 ^ 32) * 2 ^ 128
def bytesLevel (x : Nat) : Level :=
  ⟨BitVec.ofNat 48 x, BitVec.ofNat 48 (x / 2 ^ 64), BitVec.ofNat 32 (x / 2 ^ 128), x / 2 ^ 160 % 2 = 1⟩
def trapBytes (r : TrapRegs) : Nat := r.cause.toNat + r.epc.toNat * 2 ^ 64 + r.tval.toNat * 2 ^ 128
def bytesTrap (x : Nat) : TrapRegs := ⟨BitVec.ofNat 64 x, BitVec.ofNat 48 (x / 2 ^ 64), BitVec.ofNat 96 (x / 2 ^ 128)⟩
def fmodeBytes (t : Thread) : Nat :=
  t.ivec.toNat + t.timer.toNat * 2 ^ 64 + t.fmode.toNat * 2 ^ 128 +
    (t.srseed.toNat + t.asid.toNat * 2 ^ 32 + t.cue.toNat * 2 ^ 48) * 2 ^ 192 + t.retired.toNat * 2 ^ 256
/-- The state word. -/
def stateWord (t : Thread) (park pdest : Nat) (ready ras : Bool) : Nat :=
  t.p.toNat / 2 + mask16 (fun n => (t.rm n).full) * 2 ^ 8 + mask16 (fun n => (t.rm n).pend) * 2 ^ 24 + 2 ^ 40 + ready.toNat * 2 ^ 41 +
    ras.toNat * 2 ^ 42 + t.lnd.toNat * 2 ^ 43 + park * 2 ^ 44 + pdest * 2 ^ 48
/-- The untagged parts of an image: offset, bytes, contents. -/
def imageParts (t : Thread) (park pdest : Nat) (ready ras : Bool) : List (Nat × Nat × Nat) :=
  (List.range 32).map (fun n => (0x400 + 64 * n, 64, (t.rv n).bits.toNat)) ++
  (List.range 32).map (fun n => (0xC00 + 8 * n, 8, (t.rv n).scale.toNat)) ++
  [(0xD00, 16, (List.range 32).foldl (fun k n => k + (t.rv n).tag.toNat * 2 ^ (4 * n)) 0)] ++
  (List.range 16).map (fun n => (0xD90 + 8 * n, 8, (t.rm n).val.toNat)) ++
  [(0xE10, 8, stateWord t park pdest ready ras), (0xE18, 8, t.pc.toNat), (0xE20, 8, t.status.toNat),
   (0xE28, 24, levelBytes t.l0), (0xE40, 24, levelBytes t.l1),
   (0xE58, 32, trapBytes t.ut), (0xE78, 32, trapBytes t.st), (0xE98, 32, trapBytes t.mt),
   (0xEB8, 40, fmodeBytes t), (0xF00, 8, t.pair.toNat + t.partner * 2 ^ 8), (0xF08, 8, t.statWord.toNat),
   (0xF10, 80, packetBytes t.closedPkt), (0xF60, 8, t.sfrom.num + 4 * t.mfrom.num), (0xF68, 8, t.lndAddr.toNat), (0xF70, 144, 0)]
/-- The tagged cells of an image. -/
def imageCells (t : Thread) : List (Nat × Reg) :=
  (List.range 64).map (fun n => (16 * n, if n = 0 then {} else t.s.at n {})) ++
  (List.range 8).map (fun n => (0xD10 + 16 * n, t.shadow.at n {})) ++ [(0xEE0, t.ucap), (0xEF0, t.scap)]
/-- Write an image at a key. -/
def State.writeImage (s : State) (key : Nat) (t : Thread) (park pdest : Nat) (ready ras : Bool) : State :=
  let s := (imageParts t park pdest ready ras).foldl (fun s (off, n, v) => s.write none (key + off) n v) s
  (imageCells t).foldl (fun s (off, r) => s.write none (key + off) 16 r.val.toNat r.tag) s
/-- A format tag of an image: 14 and 15 are no tags and never stand in a register (02 R50); an image that holds one gives the tag 0 (log
entry 13). -/
def vtag (x : Nat) : BitVec 4 := if x % 16 < 14 then BitVec.ofNat 4 x else 0
/-- Read the thread of an image; what has no place in the image comes from `rest`. -/
def State.readImage (s : State) (key : Nat) (rest : Thread) : Thread :=
  let rd (off n : Nat) : Nat := readNat s.mem (key + off) n
  let cell (off : Nat) : Reg := ⟨BitVec.ofNat 128 (rd off 16), s.tagAt (key + off)⟩
  let w := rd 0xE10 8
  let st := rd 0xE20 8
  let x := rd 0xEB8 40
  let stat := rd 0xF08 8
  let tags := rd 0xD00 16
  { rest with
    s := (List.range 63).foldl (fun m n => m.set (n + 1) (cell (16 * (n + 1))) {}) []
    shadow := (List.range 8).foldl (fun m n => m.set n (cell (0xD10 + 16 * n)) {}) []
    v := (List.range 32).foldl (fun m n => m.set n ⟨BitVec.ofNat 512 (rd (0x400 + 64 * n) 64), vtag (tags / 2 ^ (4 * n)),
      BitVec.ofNat 64 (rd (0xC00 + 8 * n) 8)⟩ {}) []
    p := BitVec.ofNat 8 (1 + 2 * (w % 128))
    m := (List.range 16).foldl (fun m n => m.set n ⟨BitVec.ofNat 64 (rd (0xD90 + 8 * n) 8), w / 2 ^ (8 + n) % 2 = 1, w / 2 ^ (24 + n) % 2 = 1⟩ {}) []
    lnd := w / 2 ^ 43 % 2 = 1
    pc := BitVec.ofNat 48 (rd 0xE18 8)
    mode := Mode.ofNum st, mie := st / 4 % 2 = 1, tie := st / 8 % 2 = 1, hnd := st / 16 % 2 = 1
    imask := st / 512 % 2 = 1, icnt := st / 1024 % 128
    l0 := bytesLevel (rd 0xE28 24), l1 := bytesLevel (rd 0xE40 24)
    ut := bytesTrap (rd 0xE58 32), st := bytesTrap (rd 0xE78 32), mt := bytesTrap (rd 0xE98 32)
    ivec := BitVec.ofNat 48 x, timer := BitVec.ofNat 64 (x / 2 ^ 64), fmode := BitVec.ofNat 8 (x / 2 ^ 128)
    srseed := BitVec.ofNat 32 (x / 2 ^ 192), asid := BitVec.ofNat 13 (x / 2 ^ 224), cue := BitVec.ofNat 8 (x / 2 ^ 240)
    retired := BitVec.ofNat 64 (x / 2 ^ 256)
    ucap := cell 0xEE0, scap := cell 0xEF0
    pair := BitVec.ofNat 2 (rd 0xF00 1), partner := rd 0xF01 1 % 16
    acause := BitVec.ofNat 8 (stat / 2 ^ 40), adetail := BitVec.ofNat 8 (stat / 2 ^ 32)
    icount := stat / 2 ^ 24 % 128, lcount := stat / 2 ^ 20 % 16, scount := stat / 2 ^ 16 % 16, ccount := stat / 2 ^ 12 % 16
    closedPkt := bytesPacket (rd 0xF10 80)
    sfrom := Mode.ofNum (rd 0xF60 1), mfrom := Mode.ofNum (rd 0xF60 1 / 4)
    lndAddr := BitVec.ofNat 48 (rd 0xF68 8) }
/-- The park reason and the ready bit of an image. -/
def State.imagePark (s : State) (key : Nat) : Nat × Bool :=
  let w := readNat s.mem (key + 0xE10) 8
  (w / 2 ^ 44 % 16, w / 2 ^ 41 % 2 = 1)
def State.imageValid (s : State) (key : Nat) : Bool := readNat s.mem (key + 0xE10) 8 / 2 ^ 40 % 2 = 1

/-! ### Saving (07 R222, 10 R301) -/

/-- What a thread keeps outside its image (log entry 13): whatever the layout of 20 R413 has no field for. -/
def Thread.residue (t : Thread) : Thread :=
  { tpend := t.tpend, resvLost := t.resvLost, released := t.released, openPkt := t.openPkt, openClosed := t.openClosed, openAfter := t.openAfter,
    ckTrap := t.ckTrap, again := t.again, cohorts := t.cohorts, asid := t.asid, pair := t.pair, partner := t.partner, wait := t.wait }
/-- Whether a thread can be saved now: no open packet, and no region load or commit in flight (06 R168, R172; 20 R410). -/
def Slot.savable (y : Slot) : Bool := !y.th.pktOpen && !(y.th.region.isSome && y.state = .parked)
/-- The thread as it is saved: its region aborted, its reservation lost, its waits at an align, a pair function or an invalidation forgotten,
and the lend action of the instruction on which it is parked recorded (04 R117). -/
def Thread.forSave (t : Thread) : Thread :=
  let t := (if t.region.isSome then t.abortRegion 0x43 0xFE else t).leave
  { t with inval := none, resvLost := t.resvLost || t.resv.isSome, resv := none, align := none, pairWait := none }
/-- Save the thread of one slot. -/
def State.saveOne (s : State) (c i : Nat) : State :=
  let s := s.abortNoted c i 0x43
  let y := s.slot c i
  let t := y.th.forSave
  let ready := y.state = .ready
  let park := match t.wait with
    | some w => w.code s
    | none => 0
  let pdest := waitDest s t.wait
  let s := s.writeImage (imageKey c i) t (if ready then 0 else park) pdest ready (y.woke = some s.cycle)
  (s.setSlot c i { s.slot c i with state := .saved, th := t.residue, savedAt := some s.cycle }).unpop c i
/-- The slots saved together with a slot: a pair as a whole (07 R217). -/
def State.savedWith (s : State) (c i : Nat) : List Nat :=
  let t := s.th c i
  if t.pair = 0 then [i] else [i, t.partner]
def State.saveSlot (s : State) (c i : Nat) : State := (s.savedWith c i).foldl (fun s j => s.saveOne c j) s
def State.canSave (s : State) (c i : Nat) : Bool := (s.savedWith c i).all fun j => (s.slot c j).savable

/-! ### Restoring -/

/-- The condition of `sys.wfi` (07 R220). -/
def Thread.wfiReady (t : Thread) : Bool := (t.mie && t.lowPend.isSome) || t.tpend
/-- The full message registers as a mask (06 R178). -/
def Thread.fullMask (t : Thread) : Nat := mask16 fun n => (t.rm n).full
/-- Whether what a saved thread waits for, a message, a tile or an interrupt, has come. -/
def State.waitOver (s : State) (w : Wait) (t : Thread) : Bool :=
  match w with
  | .msgReg rs => rs.any fun n => (t.rm n).full
  | .msgWait m _ => BitVec.ofNat 64 t.fullMask &&& m != 0
  | .tile c n => ((s.cell c).locks.look n).isNone
  | .wfi => t.wfiReady
  | _ => false
/-- The outstanding request of a thread. -/
def State.awaited (s : State) (c i fn : Nat) : Option Nat :=
  (s.reqs.find? fun x => !x.2.posted && !x.2.dead && x.2.cell = c && x.2.slot = i && x.2.fn = fn).map (·.1)
/-- Restore one slot from its image: parked on a reply that is still to come, or on a fault decision (no park reason, not ready: 20 R417); a
thread that waits for a message, a tile or an interrupt is parked as it was unless that has come meanwhile; one that waited on anything else
issues its instruction again (20 R414), and parks again where its condition does not hold yet. -/
def State.loadOne (s : State) (c i : Nat) : State :=
  let y := s.slot c i
  let key := imageKey c i
  let t := s.readImage key y.th
  -- its writes from before come before its later ones, and before its closed packet (11 R315, R321)
  let t := { t with resume := s.nextId, closedPkt := t.closedPkt.map (fun (p : Packet) => { p with after := s.nextId }) }
  let (park, rdy) := s.imagePark key
  let fn := (s.threadFn c i).getD 0
  let spill := s.spills.find? fun x => !x.2.refill && x.2.cell = c && x.2.slot = i && x.2.group = y.bind.map Bind.group
  let parked : Option Wait :=
    if rdy then none
    else if park = 1 || park = 3 then (s.awaited c i fn).map Wait.reply
    else if park = 4 then spill.map fun x => .spill x.1
    else if park = 0 then some .fault
    else match y.th.wait with
      | some w => if w.code s = park && (park = 2 || 6 ≤ park) && !s.waitOver w t then some w else none
      | none => none
  -- an instruction that a tile lock held, and holds no longer, issues again before any interrupt (06 R175)
  let tiled : Bool := match y.th.wait with
    | some (.tile ..) => parked.isNone
    | _ => false
  let s := s.setSlot c i { y with state := if parked.isSome then .parked else .ready, th := { t with wait := parked, again := t.again || tiled }, savedAt := none,
                                  woke := some s.cycle }
  s.offer c i
/-- Whether a slot's thread can be restored now: it is saved, and its image is not on its way out in a slice switch (20 R411). -/
def State.restorable (s : State) (c i : Nat) : Bool :=
  (s.slot c i).state = .saved && !((s.cell c).switch && (s.savedWith c i).any fun j => (s.cell c).moving = some j)
/-- Restore a slot. A saved partner is restored with it, as 07 R217 and R222 have a pair saved as a whole; they do not say what a load of one slot of a
pair does to the other (DESIGN CHOICE, log entry 61). -/
def State.loadSlot (s : State) (c i : Nat) : State :=
  let s := s.loadOne c i
  let t := s.th c i
  let s := if t.pair ≠ 0 && (s.slot c t.partner).state = .saved then s.loadOne c t.partner else s
  -- a slot that has halted for a switch and whose granule is still here has to halt again (20 R410)
  s.modCell c fun x => { x with halted := x.halted.filter fun j => x.granules.contains j || !(j = i || (t.pair ≠ 0 && j = t.partner)) }

/-! ### Events of a saved thread (20 R414) -/

/-- Where the thread of function `fn` in a slot lives: in the slot, or in an image at a key. -/
inductive Home where
  | live | image (key : Nat) | gone
  deriving DecidableEq, Repr
def State.home (s : State) (c i fn : Nat) : Home :=
  let y := s.slot c i
  let mine := s.slotFn y = some fn
  if s.switchedOut c (some fn) i then if s.imageValid (wingKey c i) then .image (wingKey c i) else .gone
  else if (y.state = .ready || y.state = .parked) && mine then .live
  else if y.state = .saved && mine then .image (imageKey c i)
  else .gone
/-- Where the thread of a bind lives that a fault event names (19 R385, 20 R417). -/
def State.bindHome (s : State) (c i : Nat) (group : Option Nat) : Home :=
  let y := s.slot c i
  if y.state != .empty && y.state != .dead && y.bind.map Bind.group = group then
    if y.state = .saved then .image (imageKey c i) else .live
  else match s.slicedAt c with
    | none => .gone
    | some p =>
      let z := (s.blocks.at (2 * c + (!s.slotTenant p c i).toNat) {}).slots.at i {}
      if z.state = .saved && z.bind.map Bind.group = group && s.imageValid (wingKey c i) then .image (wingKey c i) else .gone
/-- Change what the cell holds for the tenant of a switched-out thread: its block, or the cell while the block has not been exchanged. -/
def State.modTenant (s : State) (p c : Nat) (t : Bool) (watch : SMap Watch → SMap Watch) (links : SMap Link → SMap Link)
    (bars : Bool → SMap Barrier → SMap Barrier := fun _ => id) : State :=
  if t = ((s.part p).tenant != ((s.cell c).switch && (s.cell c).blockDone)) then
    s.modCell c fun x => { x with watch := watch x.watch, links := links x.links, bars := bars false x.bars }
  else
    let k := 2 * c + t.toNat
    let x := s.blocks.at k {}
    { s with blocks := s.blocks.set k { x with watch := watch x.watch, links := links x.links, bars := bars true x.bars } {} }
/-- Unbind a slot whose thread is saved: in its image, in its register section or its wing, and in what is kept beside it (07 R217). -/
def State.unpairAway (s : State) (c j fn : Nat) : State :=
  if s.switchedOut c (some fn) j then
    let s := s.write none (wingKey c j + 0xF00) 8 0
    match s.slicedAt c with
    | none => s
    | some p =>
      let k := 2 * c + (!s.slotTenant p c j).toNat
      let x := s.blocks.at k {}
      let z := x.slots.at j {}
      { s with blocks := s.blocks.set k { x with slots := x.slots.set j { z with th := { z.th with pair := 0, partner := 0 } } {} } {} }
  else if (s.slot c j).state = .saved then
    (s.write none (imageKey c j + 0xF00) 8 0).modTh c j fun t => { t with pair := 0, partner := 0 }
  else s
/-- Kill a thread that a switch has taken out: its image is discarded, its partner is unbound, its watch entries are freed and its held operations
withdrawn, with the records of 20 R418 and, when it consumed poison, 22 R441. -/
def State.killAway (s : State) (c i fn : Nat) (poison : Option Nat) : State :=
  match s.slicedAt c with
  | none => s
  | some p =>
    let k := 2 * c + (!s.slotTenant p c i).toNat
    let x := s.blocks.at k {}
    let y := x.slots.at i {}
    let s := match poison with
      | some va => (s.err ⟨c, 7, true, some fn, va, readNat s.mem (wingKey c i + 0xE18) 8 + i * 2 ^ 48⟩).count fn 4
      | none => s
    let s : State := { s.write none (wingKey c i + 0xE10) 8 0 with blocks := s.blocks.set k { x with slots := x.slots.del i } {} }
    let s := s.modTenant p c (!s.slotTenant p c i) (fun w => w.filter fun x => x.2.slot != i)
      (fun l => if y.th.pair = 0 then l else l.del (min i y.th.partner))
    let s := if y.th.pair = 0 then s else s.unpairAway c y.th.partner fn
    let mine (r : Req) : Bool := r.cell = c && r.slot = i && r.fn = fn
    let gone (id : Nat) : Bool := ((s.reqs.look id).map mine).getD false
    let s : State := { s with
      feHeld := s.feHeld.filter (!gone ·)
      lrHeld := s.lrHeld.filter (!gone ·)
      reqs := (s.reqs.filter fun x => !(mine x.2 && x.2.held)).map fun (n, r) => (n, if mine r then { r with dead := true } else r) }
    let s : State := { s with due := s.due ++ s.alignersOf c i y.bind }
    s.killRecord fn (faultWord 6 0 c i y.th.asid.toNat)
/-- Complete the parked instruction of an image with a change of its registers. -/
def State.imageReply (s : State) (c i key : Nat) (g : Thread → Thread) : State :=
  let t := (g (s.readImage key (s.th c i))).complete
  let (park, rdy) := s.imagePark key
  if rdy || !(park = 1 || park = 3 || park = 4) then s else s.writeImage key t 0 0 true ((s.slot c i).savedAt = some s.cycle)
/-- A change of an image's registers by an arrival. -/
def State.imageArrive (s : State) (c i key : Nat) (g : Thread → Thread) : State :=
  let t := s.readImage key (s.th c i)
  let (park, rdy) := s.imagePark key
  let w := readNat s.mem (key + 0xE10) 8
  s.writeImage key (g t) park (w / 2 ^ 48 % 256) rdy (w / 2 ^ 42 % 2 = 1)

end Sys2Proof.Machine
end

