-- ==== Sys2Proof/Machine/Lock.lean ====
section
/-!
DEFINITION. Lock mode (07 R214, R215), and with it the issue of every thread instruction (03 R83): what the leader of a locked pair
puts into the pair's queues, what the understudy takes from them, when a held effect is performed, and divergence.
-/
namespace Sys2Proof.Machine

/-! ### Addresses (06 R143, R151) -/

/-- EA (06 R143). -/
def eaOf (f : Fields) (e : Env) : Nat := ((e.a.addr + e.b.data.toNat + sext 32 f.imm.toNat : Int) % 2 ^ 48).toNat
def eaNoIndex (f : Fields) (e : Env) : Nat := ((e.a.addr + sext 32 f.imm.toNat : Int) % 2 ^ 48).toNat
def vregBits (s : State) (c i : Nat) (o : Opnd) : W512 :=
  match o with
  | .v n => ((s.th c i).rv n.toNat).bits
  | _ => 0
/-- Element addresses of a strided access: imm32[27:0] signed offset, esize in [29:28]. -/
def strideSize (f : Fields) : Nat := 2 ^ (1 + bits f.imm 28 2)
def strideAddrs (f : Fields) (e : Env) : List Nat :=
  (List.range (64 / strideSize f)).map fun k =>
    ((e.a.addr + sext 28 f.imm.toNat + (k : Int) * e.b.data.toInt : Int) % 2 ^ 48).toNat
/-- Element addresses of a gather or scatter, and the element size by B's tag. -/
def gatherSize (b : VReg) : Nat := if b.tag = 3 then 4 else 8
def gatherAddrs (f : Fields) (e : Env) (b : VReg) : List Nat :=
  let w := 8 * gatherSize b
  (List.range (512 / w)).map fun k =>
    ((e.a.addr + sext 32 f.imm.toNat + sext w (bits b.bits (w * k) w) : Int) % 2 ^ 48).toNat

/-! ### The issue outside lock mode -/

/-- Whether this instruction is the `msg.imask` that opens a window (06 R176). -/
def opensWindow (r : Row) (t : Thread) : Bool := (r.op = 0xA0 || r.op = 0xA1) && r.fn = 4 && !t.imask

/-- Step 6 of 03 R83 for a thread that is not in lock mode. -/
def issuePlain (r : Row) (f : Fields) (body : Body) (c i : Nat) (s : State) : State :=
  let ms := r.msgSources f
  if ms.any fun n => !((s.th c i).rm n).full then finish s c i (.hold (.msgReg ms))
  else
    match s.start c i r f with
    | none => finish s c i (.abort 0x41 3)
    | some s1 => finish s c i (body s1 c i (s.env c i f)) (opensWindow r (s.th c i))

/-! ### What an instruction exchanges with the outside -/

/-- Nothing; a value it takes; an effect it sends; both, or an effect on which the leader must wait; an effect that takes place in both
threads when it is matched (`ctl.exit`, `pair.end`, `sys.csrw`). -/
inductive LockKind where
  | plain | value | effect | both | joint
  deriving DecidableEq, Repr

def isS0 : Opnd → Bool
  | .s n => n = 0
  | _ => false
def lockKind (r : Row) (f : Fields) (region : Bool) : LockKind :=
  if r.op = 0x70 || (r.op = 0x80 && r.fn % 2 = 0) || r.op = 0x91 then .value
  else if r.op = 0x71 || (r.op = 0x80 && r.fn % 2 = 1) then if region then .plain else .effect
  else if r.op = 0x90 then if r.fn = 0 || r.fn = 5 then .value else if r.fn = 3 || r.fn = 4 then .effect else .both
  else if r.op = 0x93 then if isS0 f.d then .effect else .both
  else if r.op = 0x92 || r.op = 0x95 then if r.op = 0x95 && r.fn = 2 then .value else .both
  else if r.op = 0x99 && r.fn = 0 then .both
  else if r.op = 0xA0 || r.op = 0xA1 then
    if r.fn ≤ 1 then if region then .plain else .effect
    else if r.fn = 3 then .value else .plain
  else if r.op = 0xB1 then .value
  else if r.op = 0xB8 then if r.fn = 0 then .effect else if r.fn = 1 then .both else .value
  else if r.op = 0xC0 && r.fn = 5 then if f.m = 0 then .value else .both
  else if r.form = Form.eng then .effect
  else if r.op = 0xE0 then .both
  else if r.op = 0xE8 then if r.fn = 2 then .joint else .value
  else if r.op = 0x21 && r.fn = 4 then .joint
  else if r.op = 0xF0 then if r.fn ≤ 1 then .plain else if r.fn = 2 then .value else .both
  else if r.op = 0xF1 then if r.fn = 0 then .value else .joint
  else .plain

/-- The address or register name of an exchange. -/
def lockName (r : Row) (f : Fields) (e : Env) : Nat :=
  if r.op = 0xF1 then f.imm.toNat % 4096
  else if r.op = 0x80 && 2 ≤ r.fn && r.fn ≤ 3 then ((e.a.addr + sext 28 f.imm.toNat : Int) % 2 ^ 48).toNat
  else if r.op = 0x93 || (r.op = 0x80 && 4 ≤ r.fn) then eaNoIndex f e
  else if 0x70 ≤ r.op && r.op < 0x95 then eaOf f e
  else 2 ^ 48 + f.d.toByte.toNat

def regWord (r : Reg) : W512 := BitVec.ofNat 512 (r.val.toNat + r.tag.toNat * 2 ^ 128)
/-- The buffer of a region as data: of a stored value the bytes that it writes (06 R147, R168). -/
def RBuf.words : RBuf → List W512
  | .store key size val sym => [BitVec.ofNat 512 (key + size * 2 ^ 64 + val.toNat % 2 ^ (8 * size) * 2 ^ 128 +
      (match sym with
        | some y => 1 + 2 * y.k + 2 ^ 8 * y.c.toNat
        | none => 0) * 2 ^ 192)]
  | .send cell slot reg val fin int => [BitVec.ofNat 512 (cell + slot * 2 ^ 10 + reg * 2 ^ 14 + fin.toNat * 2 ^ 18 + int.toNat * 2 ^ 19 +
      val.toNat * 2 ^ 64 + 2 ^ 128)]
/-- The low bytes of a register's datum as data. -/
def lowBytes (n : Nat) (x : Reg) : W512 := BitVec.ofNat 512 (x.data.toNat % 2 ^ (8 * n))
/-- What an effect sends: for a write to memory its elements' addresses and the bytes that it writes, for a commit the buffer, for any other the
operands that the function reads, whole cells of an engine instruction, with its immediate. -/
def State.sent (s : State) (c i : Nat) (r : Row) (f : Fields) (e : Env) : List W512 :=
  let places (l : List Nat) : List W512 := l.map (BitVec.ofNat 512)
  let b : VReg := match f.b with
    | .v n => (s.th c i).rv n.toNat
    | _ => {}
  let whole : Bool := r.form = Form.eng || r.op = 0xE0 || r.op = 0xC0
  let src (k : Cls) (o : Opnd) (x : Reg) : List W512 :=
    if k.unusedAt f.m then [] else match o with
    | .v _ => [vregBits s c i o]
    | _ => [if whole then regWord x else x.data.setWidth 512]
  if r.op = 0x71 then if r.fn = 4 then [regWord e.c] else [lowBytes (2 ^ r.fn) e.c]
  else if r.op = 0x80 then
    (if r.fn = 3 then places (strideAddrs f e) else if r.fn = 5 then places (gatherAddrs f e b) else []) ++ [vregBits s c i f.c]
  else if r.op = 0x90 then if r.fn = 2 || r.fn = 3 then [lowBytes 8 e.c] else []
  else if r.op = 0x92 then if r.fn ≤ 1 then [] else [lowBytes (if r.fn % 2 = 0 then 4 else 8) e.c]
  else if r.op = 0x93 then
    let n := if r.fn < 16 then 4 else 8
    lowBytes n e.b :: (if r.fn % 16 = 9 then [lowBytes n e.c] else [])
  else if r.op = 0x99 then
    match (s.th c i).region with
    | some g => g.buf.flatMap RBuf.words
    | none => []
  else src r.a f.a e.a ++ src r.b f.b e.b ++ src r.c f.c e.c ++ (if r.c = .es then [regWord e.c1] else []) ++
    (if r.readsD then [regWord e.d] else []) ++ [BitVec.ofNat 512 (f.imm.toNat + f.e.toNat * 2 ^ 64)]
/-- An effect with its kind, address, size and data, or the captured record of an engine instruction. -/
def State.effect (s : State) (c i : Nat) (r : Row) (f : Fields) (e : Env) : HeldEff :=
  { kind := r.op * 256 + r.fn, addr := lockName r f e, size := r.fn, data := BitVec.ofNat 512 f.m.toNat :: s.sent c i r f e }

/-! ### The queue -/

def lockSlot (t : Thread) (i : Nat) : Nat := min i t.partner
def State.link (s : State) (c lo : Nat) : Link := (s.cell c).links.at lo {}
def State.setLink (s : State) (c lo : Nat) (l : Link) : State := s.modCell c fun x => { x with links := x.links.set lo l {} }

/-- The register and common-register sources of an instruction, by name and value, in operand order. -/
def State.outsideSources (s : State) (c i : Nat) (r : Row) (f : Fields) : List LVal :=
  let src (k : Cls) (o : Opnd) : List LVal :=
    if k.unusedAt f.m || !(isM o || isK o) then [] else [⟨2 ^ 48 + o.toByte.toNat, regWord (s.operand c i o), false⟩]
  src r.a f.a ++ src r.b f.b ++ src r.c f.c ++ (if r.readsD then src r.d f.d else [])
/-- Replace the values of message and common register operands by those of the queue, in operand order; the rest of the queue. -/
def takeSources (r : Row) (f : Fields) (e : Env) (q : List LVal) : Except Bool (Env × List LVal) :=
  let one (k : Cls) (o : Opnd) (q : List LVal) (keep : Reg) : Except Bool (Reg × List LVal) :=
    if k.unusedAt f.m || !(isM o || isK o) then .ok (keep, q)
    else match q with
      | [] => .error false
      | x :: q => if x.name = 2 ^ 48 + o.toByte.toNat then .ok (dataReg (x.val.setWidth 64), q) else .error true
  do
    let (a, q) ← one r.a f.a q e.a
    let (b, q) ← one r.b f.b q e.b
    let (c, q) ← one r.c f.c q e.c
    let (d, q) ← if r.readsD then one r.d f.d q e.d else pure (e.d, q)
    pure ({ e with a := a, b := b, c := c, d := d }, q)

/-- Put the value that the leader's last instruction took into the queue. -/
def State.payOwed (s : State) (c lo : Nat) : State :=
  let l := s.link c lo
  match l.owed with
  | none => s
  | some o =>
    let t := s.th c lo
    let p := match o.p with
      | some n => t.rp n
      | none => false
    let v : LVal := if o.region then ⟨o.name, (((t.region.bind fun g => g.loads.getLast?).map RLoad.val).getD 0).setWidth 512, p⟩ else match o.d with
      | .s n => ⟨o.name, (t.rs n.toNat).val.setWidth 512, (t.rs n.toNat).tag || p⟩
      | .v n => ⟨o.name, (t.rv n.toNat).bits, p⟩
      | .m n => ⟨o.name, (t.rm n.toNat).val.setWidth 512, p⟩
      | _ => ⟨o.name, o.val.setWidth 512, p⟩
    s.setLink c lo { l with lvq := l.lvq ++ [v], owed := none }
/-- The predicate that a value-taking function writes beside D (`fe.peek`, `watch.waitrs`). -/
def lockPred (r : Row) (f : Fields) : Option Nat :=
  if (r.op = 0x90 && r.fn = 5) || (r.op = 0x95 && r.fn = 2) then some (f.m.toNat % 8) else none
/-- Write what the queue holds for a value-taking instruction. -/
def State.takeValue (s : State) (c i : Nat) (r : Row) (f : Fields) (v : LVal) : State :=
  let s := match f.d with
    | .s n => s.modTh c i (·.ws n.toNat ⟨v.val.setWidth 128, v.full && r.op = 0x70 && r.fn = 4⟩)
    | .v n => s.modTh c i (·.wv n.toNat ⟨v.val, 0, 0⟩)
    | d => s.writeD c i d (v.val.setWidth 64)
  match lockPred r f with
  | some n => s.modTh c i (·.wp n v.full)
  | none => s

/-- The entry by which the leader records an interrupt: its cause word and its `retired` count. -/
def intMark : Nat := 2 ^ 100
def LVal.isInt (v : LVal) : Bool := intMark ≤ v.name

/-- An interrupt of a thread of a locked pair (07 R214): the leader records it with its `retired` count before and after (an abandoned
instruction was counted); the understudy takes the record. -/
def State.lockInterrupt (s : State) (c i kind : Nat) (abandoned : Bool) : State :=
  let t := s.th c i
  if t.pair = 1 then
    let s := if abandoned then s.setLink c i { s.link c i with owed := none } else s.payOwed c i
    let l := s.link c i
    let before := t.retired.toNat - abandoned.toNat
    s.setLink c i { l with lvq := l.lvq ++ [⟨intMark + kind, BitVec.ofNat 512 (before + t.retired.toNat * 2 ^ 64), false⟩] }
  else if t.pair = 2 then
    match (s.link c t.partner).lvq with
    | v :: q =>
      (s.setLink c t.partner { s.link c t.partner with lvq := q }).modTh c i fun t => { t with retired := BitVec.ofNat 64 (bits v.val 64 64) }
    | [] => s
  else s
/-- The interrupt that the understudy must take before its next instruction: 0 for the timer, 1 + n for the arrival in register n. -/
def State.followInt (s : State) (c i : Nat) : Option Nat :=
  let t := s.th c i
  match (s.link c t.partner).lvq with
  | v :: _ => if t.pair = 2 && v.isInt && bits v.val 0 64 = t.retired.toNat then some (v.name - intMark) else none
  | [] => none
/-- Whether a thread of a locked pair takes no interrupt now: the leader while it waits for a match or the queue is full, and the
understudy but for a recorded one. -/
def State.lockHolds (s : State) (c i : Nat) : Bool :=
  let t := s.th c i
  if t.pair = 1 then (s.link c i).pend || 63 ≤ (s.link c i).lvq.length
  else t.pair = 2 && (s.followInt c i).isNone

/-- A parked thread waits no longer: what it waited for goes to nobody, and its lend action is recorded (04 R117). -/
def State.endWait (s : State) (c i : Nat) : State :=
  if (s.slot c i).state = .parked then
    let s := (s.withdraw c i).unpop c i
    let s : State := { s with reqs := s.reqs.map fun (n, r) =>
      (n, if r.cell = c && r.slot = i && !r.posted && !s.switchedOut c (some r.fn) i then { r with dead := true } else r) }
    (s.modTh c i Thread.leave).ready c i
  else s
/-- Divergence (07 R215, 22 R443): both threads unbind and take trap 0x0E at their own pcs; regions abort first (06 R168). -/
def State.diverge (s : State) (c lo hi addr : Nat) : State :=
  let f := s.threadFn c lo
  let s := s.err ⟨c, 6, true, f, (s.th c lo).pc.toNat, 0⟩
  let s := match f with
    | some f => s.count f 5
    | none => s
  let s := ((s.abortNoted c lo 0x44).abortNoted c hi 0x44).unpair c lo
  let one (s : State) (i : Nat) : State :=
    let s := (s.endWait c i).modTh c i fun t => t.abortRegion 0x44 0
    s.takeTrap c i ⟨0x0E, 0, BitVec.ofNat 96 addr, false⟩
  one (one s lo) hi

/-! ### The leader -/

/-- A function that reads memory and takes the value at once; and a held effect that writes memory. The leader's read waits for it, since its one
performance stands at the leader's place in program order (11 R309, R321). -/
def readsMem (r : Row) : Bool := r.op = 0x70 || (r.op = 0x80 && r.fn % 2 = 0) || r.op = 0x90 || r.op = 0x91
def HeldEff.writesMem (h : HeldEff) : Bool :=
  let op := h.kind / 256
  op = 0x71 || (op = 0x80 && h.kind % 2 = 1) || op = 0x90 || op = 0x93
/-- Whether an instruction of the leader must wait for a held effect, which stands before it in program order and is not performed yet: a read of
memory for writes; a wait on copy tags or a barrier, a read of one, and a read of the checksum counters for engine and barrier operations (11 R309
join); a release fence for everything (11 R309, R313, R320). -/
def mustFollow (r : Row) (f : Fields) (h : HeldEff) : Bool :=
  (readsMem r && h.writesMem) || (r.op = 0x94 && 2 ≤ f.m.toNat / 64) ||
  ((r.op = 0xB1 || (r.op = 0xB8 && 2 ≤ r.fn) || (r.op = 0xC0 && r.fn = 5)) && 0xB0 ≤ h.kind / 256 && h.kind / 256 < 0xD0)

def issueLead (r : Row) (f : Fields) (body : Body) (c i : Nat) (s : State) : State :=
  let s := s.payOwed c i
  let l := s.link c i
  let ms := r.msgSources f
  if l.pend then s
  else if ms.any fun n => !((s.th c i).rm n).full then finish s c i (.hold (.msgReg ms))
  else
    let src := s.outsideSources c i r f
    let kind := lockKind r f (s.th c i).region.isSome
    let room := l.lvq.length + src.length + (if kind = .value || kind = .both then 1 else 0)
    let e := s.env c i f
    if 64 < room || ((kind = .value || kind = .plain) && l.held.any (mustFollow r f)) then s
    else match s.start c i r f with
      | none => finish s c i (.abort 0x41 3)
      | some s1 =>
        let push (s : State) (o : Option Owed) : State :=
          let l := s.link c i
          s.setLink c i { l with lvq := l.lvq ++ src, owed := o }
        let o : Owed := { name := lockName r f e, d := f.d, p := lockPred r f, region := (s.th c i).region.isSome && r.op = 0x70 }
        match kind with
        | .plain =>
          match body (push s1 none) c i e with
          -- one that is cancelled has taken nothing
          | .cancel s2 => finish s c i (.cancel (s2.setLink c i l))
          | x => finish s c i x (opensWindow r (s.th c i))
        | .value =>
          match body (push s1 (some o)) c i e with
          | .cancel _ => s
          | .ok s2 =>
            -- a region load that the buffer served took nothing from outside
            let s2 := if (s.th c i).region.isSome && r.op = 0x70 then s2.setLink c i { s2.link c i with owed := none } else s2
            finish s c i (.ok s2)
          | x => finish s c i x
        | _ =>
          match body s1 c i e with
          | .trap x | .fault _ x => finish s c i (.trap x)
          | .abort a b => finish s c i (.abort a b)
          | _ =>
            if 8 ≤ l.held.length then s
            else
              let s1 := push s1 none
              let l1 := s1.link c i
              let s1 := s1.setLink c i { l1 with held := l1.held ++ [s.effect c i r f e], pend := kind != .effect }
              if kind = .effect then finish s c i (.ok s1) else s1

/-! ### The understudy -/

/-- The understudy's commit, with the fresh values that the leader's commit read (06 R168). -/
def commitFollow (s0 s : State) (c i : Nat) (d : Opnd) (fresh : List W64) : State :=
  match (s.th c i).region with
  | none => finish s0 c i (.ok (s.writeD c i d 2))
  | some g =>
    match g.fails fresh with
    | some j => finish s0 c i (.abort 0x40 j)
    | none => finish s0 c i (.ok (s.commitRegs c i g d fresh))
/-- The understudy's region load of the value that the leader's read (06 R164, R168). -/
def loadFollow (s : State) (c i : Nat) (r : Row) (f : Fields) (e : Env) (v : LVal) : State :=
  let size := if r.fn % 5 = 4 then 16 else 2 ^ (r.fn % 5)
  let size := if r.fn ≥ 5 then 2 ^ (r.fn - 5) else size
  let t := s.th c i
  match s.translate (s.threadFn c i) c t.asid.toNat (lockName r f e) .load (t.mode = .user) with
  | (s, .ok key) => s.modTh c i (·.regionLoad f.d ⟨key, lockName r f e, size, r.fn < 5, v.val.setWidth 64 % 2 ^ (8 * size)⟩)
  | (s, _) => s

/-- What a held effect takes from its thread beside the operands: vector registers, mode and address space, and whether a region is active. -/
def Thread.issuedAs (t u : Thread) : Thread := { t with v := u.v, mode := u.mode, asid := u.asid, region := u.region }

def issueFollow (r : Row) (f : Fields) (body : Body) (c i : Nat) (s : State) :
    State :=
  let lo := (s.th c i).partner
  let l := s.link c lo
  match takeSources r f (s.env c i f) l.lvq with
  | .error false => s
  | .error true => s.diverge c lo i ((l.lvq.map (·.name)).headD 0)
  | .ok (e, q) =>
    let kind := lockKind r f (s.th c i).region.isSome
    match (s.th c i).concretise (otherUses r f) with
    | none => finish s c i (.abort 0x41 3)
    | some t1 =>
      let s1 := (s.setTh c i t1).setLink c lo { l with lvq := q }
      let opens := opensWindow r (s.th c i)
      let check := body s1 c i e
      let take (s1 : State) : State :=
        match q with
        | [] => s
        | v :: q =>
          if v.isInt || v.name ≠ lockName r f e then s.diverge c lo i v.name
          else
            let s2 := s1.setLink c lo { l with lvq := q }
            if (s.th c i).region.isSome && r.op = 0x70 then finish s c i (.ok (loadFollow s2 c i r f e v))
            else finish s c i (.ok (s2.takeValue c i r f v))
      match kind, check with
      | .plain, .cancel s2 => finish s c i (.cancel (s2.setLink c lo l))
      | .plain, x => finish s c i x opens
      | _, .trap x | _, .fault _ x => finish s c i (.trap x)
      | _, .abort a b => finish s c i (.abort a b)
      | .value, .ok s2 =>
        -- a region load that the buffer serves takes nothing from the queue
        if (s.th c i).region.isSome && r.op = 0x70 then finish s c i (.ok s2) else take s1
      | .value, _ => take s1
      | k, _ =>
        if k = .both && !l.pend then
          -- performed already: take what it returned
          if r.op = 0x99 then
            let n := ((s.th c i).region.map (·.loads.length)).getD 0
            if q.length < n then s
            else commitFollow s (s1.setLink c lo { l with lvq := q.drop n }) c i f.d ((q.take n).map fun v => v.val.setWidth 64)
          else take s1
        else
          match l.held with
          | [] => s
          | h :: hs =>
            if h ≠ s.effect c i r f e then s.diverge c lo i h.addr
            else
              let drop (s : State) : State :=
                let l := s.link c lo
                s.setLink c lo { l with held := hs, pend := if k = .effect then l.pend else false }
              match k with
              | .effect =>
                -- the leader has gone on: what the effect takes from a thread is the understudy's, which stands where the leader issued it
                let t := s1.th c lo
                let back (s : State) : State := s.modTh c lo (·.issuedAs t)
                match body ((drop s1).modTh c lo (·.issuedAs (s1.th c i))) c lo e with
                | .ok s2 => finish s c i (.ok (back s2))
                -- a store by elements into a pool: nobody waits for its reply
                | .park s2 _ => finish s c i (.ok (back s2))
                | .poison va => s.killPoison c lo va
                | _ => s
              | .both =>
                let s2 := drop s
                let l2 := s2.link c lo
                match body (s2.setLink c lo { l2 with owed := if r.op = 0x99 then none else some { name := lockName r f e, d := f.d, p := lockPred r f } }) c lo e with
                -- a cancelled issue keeps what it waits for (07 R221)
                | .cancel s3 => s.modTh c lo fun t => { t with inval := (s3.th c lo).inval }
                | .hold _ => s
                | x => finish s2 c lo x
              | _ =>
                -- both threads perform it
                match body (drop s1) c lo e with
                | .cancel _ => s
                | x =>
                  let s2 := finish (drop s1) c lo x
                  finish s2 c i (body s2 c i e)

/-! ### The issue of an instruction -/

/-- Energy of an executed instruction beyond its issue (23 R453 classes 1 and 2). -/
def energyOf (r : Row) : Nat :=
  if r.op = 0x40 && 0x11 ≤ r.fn && r.fn ≤ 0x15 then 110
  else if (0x40 ≤ r.op && r.op ≤ 0x42) || r.op = 0x60 || r.op = 0x61 then 70
  else 0
def charged (r : Row) (body : Body) : Body := fun s c i e =>
  match body s c i e with
  | .ok s => .ok (if energyOf r = 0 then s else s.chargeTh c i (energyOf r) 1)
  | x => x

/-- The instructions that wait for the cell state block of a slice switch (20 R412). -/
def needsBlock (r : Row) : Bool := r.op = 0x95 || r.op = 0xA0 || r.op = 0xA1 || r.op = 0xB1 || r.op = 0xB8 || r.form = Form.eng
/-- The functions that write memory, an item's buffer among it (07 R208). -/
def writesMem (r : Row) : Bool := r.op = 0x71 || (r.op = 0x80 && r.fn % 2 = 1) || (r.op = 0x90 && 1 ≤ r.fn && r.fn ≤ 4) || r.op = 0x92 || r.op = 0x93 ||
  (r.op = 0xE0 && r.fn = 1)
/-- A write of a restored thread waits for the thread's writes from before (11 R321). -/
def State.resumeHolds (s : State) (c i : Nat) (r : Row) : Bool := writesMem r && s.earlier c i (s.th c i).resume
/-- Steps 2 to 6 of 03 R83 for the instruction of row `r` and fields `f`, in slot (c, i): the state after it. -/
def runRow (r : Row) (f : Fields) (body : Body) (c i : Nat) (s : State) : State :=
  let t := s.th c i
  let word : W96 := encodeFields r f
  if r.dynError f t then s.takeTrap c i ⟨1, 5, word, false⟩
  else match r.classError f with
  | some k => s.takeTrap c i ⟨2, k, word, false⟩
  | none =>
    if t.mode.num < r.mode then s.takeTrap c i ⟨3, 0, word, false⟩
    else if s.incoming c i && !(s.cell c).blockDone && needsBlock r then s
    else if !t.guard f then
      if t.region.isSome && 64 ≤ t.icount then finish s c i (.abort 0x41 0) else finish s c i (.ok s)
    else match r.regionError f t with
    | some (cause, detail) => finish s c i (.abort cause detail)
    | none =>
      if s.resumeHolds c i r then s
      else if t.pair = 1 then issueLead r f body c i s
      else if t.pair = 2 then issueFollow r f body c i s
      else issuePlain r f body c i s

/-- Run a thread instruction in the current slot. Every thread instruction has a row; the other case does not arise. -/
def runThread (i : Instr) (body : Fields → Body) (s : State) : State :=
  match rowOf i with
  | some (r, f) => runRow r f (charged r (body f)) s.cur.1 s.cur.2 s
  | none => s

end Sys2Proof.Machine
end

