-- ==== Sys2Proof/Machine/Flags.lean ====
section
/-!
DEFINITION. Number formats, exact values, the one rounding of every floating result, and the flags of `fmode` (01 R37; 02 R45-R57): the
flag computations of the machine.
-/
namespace Sys2Proof.Machine

/-! ### Flags of fmode (01 R37) -/

abbrev Flags := Byte
def fNx : Flags := 0x80
def fUf : Flags := 0x40
def fOf : Flags := 0x20
def fDz : Flags := 0x10
def fNv : Flags := 0x08
/-- Flags are sticky. -/
def Thread.flag (t : Thread) (f : Flags) : Thread := { t with fmode := t.fmode ||| f }
def Thread.rnd (t : Thread) : Nat := t.fmode.toNat % 4

/-! ### Formats and exact values (02 R46) -/

/-- A binary floating format: exponent and mantissa bits. -/
structure Fmt where
  eb : Nat
  mb : Nat
  deriving DecidableEq, Repr
def fp16 : Fmt := ⟨5, 10⟩
def bf16 : Fmt := ⟨8, 7⟩
def fp32 : Fmt := ⟨8, 23⟩
def fp64 : Fmt := ⟨11, 52⟩
def Fmt.bias (f : Fmt) : Nat := 2 ^ (f.eb - 1) - 1
def Fmt.width (f : Fmt) : Nat := 1 + f.eb + f.mb
def Fmt.infBits (f : Fmt) : Nat := (2 ^ f.eb - 1) * 2 ^ f.mb
/-- The canonical NaN (02 R46). -/
def Fmt.nan (f : Fmt) : Nat := f.infBits + 2 ^ (f.mb - 1)
def Fmt.signBit (f : Fmt) : Nat := 2 ^ (f.eb + f.mb)
/-- The plain format of an R50 tag. -/
def fmtOf (tag : Nat) : Fmt := if tag = 5 then fp16 else if tag = 6 then bf16 else if tag = 7 then fp32 else fp64

/-- An exact value: (−1)^neg × m × 2^e, an infinity, or a NaN that signals or not. -/
inductive FVal where
  | fin (neg : Bool) (m : Nat) (e : Int)
  | inf (neg : Bool)
  | nan (sig : Bool)
  deriving DecidableEq, Repr

def Fmt.decode (f : Fmt) (x : Nat) : FVal :=
  let neg := x / f.signBit % 2 = 1
  let ex := x / 2 ^ f.mb % 2 ^ f.eb
  let m := x % 2 ^ f.mb
  if ex = 2 ^ f.eb - 1 then if m = 0 then .inf neg else .nan (m < 2 ^ (f.mb - 1))
  else if ex = 0 then .fin neg m (1 - (f.bias : Int) - f.mb)
  else .fin neg (2 ^ f.mb + m) ((ex : Int) - f.bias - f.mb)

def FVal.isNan : FVal → Bool
  | .nan _ => true
  | _ => false
def FVal.isSig : FVal → Bool
  | .nan sig => sig
  | _ => false
def FVal.neg? : FVal → Bool
  | .fin n _ _ => n
  | .inf n => n
  | .nan _ => false
def FVal.isZero : FVal → Bool
  | .fin _ m _ => m = 0
  | _ => false
def FVal.negate : FVal → FVal
  | .fin n m e => .fin (!n) m e
  | .inf n => .inf (!n)
  | .nan s => .nan s

/-! ### Rounding (02 R47) -/

/-- Round m × 2^e, with a further fraction of a unit when `sticky`, to a multiple of 2^q: the quotient and whether it is inexact. -/
def roundQ (rnd : Nat) (neg : Bool) (m : Nat) (e : Int) (sticky : Bool) (q : Int) : Nat × Bool :=
  if q ≤ e then (m * 2 ^ (e - q).toNat, sticky)
  else
    let sh := (q - e).toNat
    if Nat.log2 m + 2 < sh then
      let up := (rnd = 2 && !neg) || (rnd = 3 && neg)
      (if (m ≠ 0 || sticky) && up then 1 else 0, m ≠ 0 || sticky)
    else
      let n := m / 2 ^ sh
      let r := m % 2 ^ sh
      let half := 2 ^ (sh - 1)
      let inexact := r ≠ 0 || sticky
      let up :=
        if rnd = 0 then half < r || (r = half && (sticky || n % 2 = 1))
        else if rnd = 1 then false
        else if rnd = 2 then inexact && !neg
        else inexact && neg
      (n + up.toNat, inexact)

/-- The bits and flags of m × 2^e (m ≠ 0) in a format, rounded once; tininess is detected after rounding. -/
def Fmt.roundMag (f : Fmt) (rnd : Nat) (neg : Bool) (m : Nat) (e : Int) (sticky : Bool) : Nat × Flags :=
  let ex : Int := Nat.log2 m + e
  let emin : Int := 1 - (f.bias : Int)
  let q := max ex emin - f.mb
  let (n, inexact) := roundQ rnd neg m e sticky q
  let mag := (q + f.mb + f.bias - 1).toNat * 2 ^ f.mb + n
  let sgn := if neg then f.signBit else 0
  if f.infBits ≤ mag then
    let toInf := rnd = 0 || (rnd = 2 && !neg) || (rnd = 3 && neg)
    (sgn + if toInf then f.infBits else f.infBits - 1, fOf ||| fNx)
  else
    let tiny := ex < emin && !(ex = emin - 1 && (roundQ rnd neg m e sticky (ex - f.mb)).1 = 2 ^ (f.mb + 1))
    (sgn + mag, (if inexact then fNx else 0) ||| (if inexact && tiny then fUf else 0))

/-- The bits and flags of an exact value in a format; a NaN delivers the canonical NaN (02 R48). -/
def Fmt.round (f : Fmt) (rnd : Nat) (v : FVal) (sticky : Bool := false) : Nat × Flags :=
  match v with
  | .nan sig => (f.nan, if sig then fNv else 0)
  | .inf neg => ((if neg then f.signBit else 0) + f.infBits, 0)
  | .fin neg m e =>
    if m = 0 then (if neg then f.signBit else 0, 0) else f.roundMag rnd neg m e sticky

/-! ### Exact arithmetic -/

/-- The signed integer of a finite value in units of 2^e. -/
def scaled (neg : Bool) (m : Nat) (e unit_ : Int) : Int :=
  let n : Int := m * 2 ^ (e - unit_).toNat
  if neg then -n else n
def ofScaled (i : Int) (e : Int) : FVal := .fin (i < 0) i.natAbs e

/-- Exact sum; an exact zero of unlike signs is −0 only when rounding down. The flag is nv for ∞ − ∞ (02 R47, R48). -/
def FVal.add (rnd : Nat) (a b : FVal) : FVal × Flags :=
  match a, b with
  | .nan s, .nan t => (.nan false, if s || t then fNv else 0)
  | .nan s, _ | _, .nan s => (.nan false, if s then fNv else 0)
  | .inf n, .inf k => if n = k then (.inf n, 0) else (.nan false, fNv)
  | .inf n, _ | _, .inf n => (.inf n, 0)
  | .fin n m e, .fin k l d =>
    if m = 0 && l = 0 then (.fin (if n = k then n else rnd = 3) 0 0, 0)
    else
      let u := min e d
      let x := scaled n m e u + scaled k l d u
      (if x = 0 then .fin (rnd = 3) 0 0 else ofScaled x u, 0)
/-- Exact product; 0 × ∞ is NaN with nv. -/
def FVal.mul (a b : FVal) : FVal × Flags :=
  match a, b with
  | .nan s, .nan t => (.nan false, if s || t then fNv else 0)
  | .nan s, _ | _, .nan s => (.nan false, if s then fNv else 0)
  | .inf n, .inf k => (.inf (n != k), 0)
  | .inf n, .fin k l _ | .fin k l _, .inf n => if l = 0 then (.nan false, fNv) else (.inf (n != k), 0)
  | .fin n m e, .fin k l d => (.fin (n != k) (m * l) (e + d), 0)

/-- Compare two values that are no NaN, by the sign of a − b. -/
def FVal.cmp (a b : FVal) : Ordering :=
  match a, b with
  | .inf n, .inf k => if n = k then .eq else if n then .lt else .gt
  | .inf n, _ => if n then .lt else .gt
  | _, .inf k => if k then .gt else .lt
  | .fin n m e, .fin k l d => compare (scaled n m e (min e d)) (scaled k l d (min e d))
  | _, _ => .eq
def FVal.lt (a b : FVal) : Bool := !a.isNan && !b.isNan && a.cmp b = .lt
def FVal.eqv (a b : FVal) : Bool := !a.isNan && !b.isNan && a.cmp b = .eq

/-- Digit-by-digit integer square root of `n`, for 2·k bits. -/
def isqrt (k n : Nat) : Nat :=
  (List.range k).foldl (fun r j =>
    let b := r + 2 ^ (k - 1 - j)
    if b * b ≤ n then b else r) 0

/-! ### The fpu functions on exact values (04 R106, R107) -/

/-- Add, and the sum of a product and an addend, rounded once. -/
def Fmt.fadd (f : Fmt) (rnd : Nat) (a b : Nat) : Nat × Flags :=
  let (v, g) := (f.decode a).add rnd (f.decode b)
  let (r, h) := f.round rnd v
  (r, g ||| h)
/-- a − b is a + (−b); a NaN keeps its bits' meaning. -/
def Fmt.fsub (f : Fmt) (rnd a b : Nat) : Nat × Flags :=
  let (v, g) := (f.decode a).add rnd (f.decode b).negate
  let (r, h) := f.round rnd v
  (r, g ||| h)
def Fmt.fmul (f : Fmt) (rnd : Nat) (a b : Nat) : Nat × Flags :=
  let (v, g) := (f.decode a).mul (f.decode b)
  let (r, h) := f.round rnd v
  (r, g ||| h)
def Fmt.ffma (f : Fmt) (rnd : Nat) (a b c : Nat) : Nat × Flags :=
  let (p, g) := (f.decode a).mul (f.decode b)
  let (v, g') := p.add rnd (f.decode c)
  let (r, h) := f.round rnd v
  (r, g ||| g' ||| h)
/-- Division: ±∞ and dz for a finite non-zero value by zero (04 R107). -/
def Fmt.fdiv (f : Fmt) (rnd : Nat) (a b : Nat) : Nat × Flags :=
  match f.decode a, f.decode b with
  | .nan s, .nan t => (f.nan, if s || t then fNv else 0)
  | .nan s, _ | _, .nan s => (f.nan, if s then fNv else 0)
  | .inf _, .inf _ => (f.nan, fNv)
  | .inf n, .fin k _ _ => f.round rnd (.inf (n != k))
  | .fin n _ _, .inf k => f.round rnd (.fin (n != k) 0 0)
  | .fin n m e, .fin k l d =>
    if l = 0 then if m = 0 then (f.nan, fNv) else ((f.round rnd (.inf (n != k))).1, fDz)
    else if m = 0 then f.round rnd (.fin (n != k) 0 0)
    else
      let x := m * 2 ^ 160
      f.round rnd (.fin (n != k) (x / l) (e - d - 160)) (x % l ≠ 0)
/-- Square root: NaN and nv below zero; −0 stays (04 R107). -/
def Fmt.fsqrt (f : Fmt) (rnd : Nat) (a : Nat) : Nat × Flags :=
  match f.decode a with
  | .nan s => (f.nan, if s then fNv else 0)
  | .inf n => if n then (f.nan, fNv) else f.round rnd (.inf false)
  | .fin n m e =>
    if m = 0 then f.round rnd (.fin n 0 0)
    else if n then (f.nan, fNv)
    else
      let (m, e) := if e % 2 = 0 then (m, e) else (2 * m, e - 1)
      let x := m * 2 ^ 160
      let r := isqrt 120 x
      f.round rnd (.fin false r (e / 2 - 80)) (r * r ≠ x)
/-- min and max: −0 below +0, one NaN gives the other operand, nv for a signalling NaN (04 R107). -/
def Fmt.fminmax (f : Fmt) (isMax : Bool) (a b : Nat) : Nat × Flags :=
  let x := f.decode a
  let y := f.decode b
  let g : Flags := if x.isSig || y.isSig then fNv else 0
  if x.isNan && y.isNan then (f.nan, g)
  else if x.isNan then (b % 2 ^ f.width, g)
  else if y.isNan then (a % 2 ^ f.width, g)
  else
    let less := x.lt y || (x.eqv y && x.neg? && !y.neg?)
    ((if less != isMax then a else b) % 2 ^ f.width, g)
/-- Relations eq 0, lt 1, le 2, un 3 with their flag (04 R108). -/
def Fmt.fcmp (f : Fmt) (rel a b : Nat) : Bool × Flags :=
  let x := f.decode a
  let y := f.decode b
  let nan := x.isNan || y.isNan
  let sig := x.isSig || y.isSig
  let r := if rel = 0 then x.eqv y else if rel = 1 then x.lt y else if rel = 2 then x.lt y || x.eqv y else nan
  (r, if sig || (nan && (rel = 1 || rel = 2)) then fNv else 0)

/-! ### Conversions (02 R49, 04 R109) -/

/-- A floating value to an integer in [lo, hi] (02 R49). -/
def fToInt (rnd : Nat) (lo hi : Int) (v : FVal) : Int × Flags :=
  match v with
  | .nan _ => (0, fNv)
  | .inf n => (if n then lo else hi, fNv)
  | .fin n m e =>
    let (k, inexact) := roundQ rnd n m e false 0
    let i : Int := if n then -(k : Int) else k
    if i < lo then (lo, fNv) else if hi < i then (hi, fNv) else (i, if inexact then fNx else 0)
/-- An integer to a format. -/
def Fmt.ofInt (f : Fmt) (rnd : Nat) (i : Int) : Nat × Flags := f.round rnd (.fin (i < 0) i.natAbs 0)

/-! ### Transcendentals, correctly rounded (05 R133)

Each is computed to at least 120 bits beyond the rounding place; no result but the exact ones listed lies that close to a rounding
boundary of a format of at most 24 bits of precision (log entry 12). -/

/-- ln 2 in units of 2^-320. -/
def ln2q : Nat := 0xb17217f7d1cf79abc9e3b39803f2f6af40f343267298b62d8a0d175b8baafa2be7b876206debac98
/-- Σ x^j / j! in units of 2^-p, for x in those units; `t` is the current term and `k` its number. -/
def expSum (p x : Nat) : Nat → Nat → Nat → Nat
  | 0, _, _ => 0
  | n + 1, k, t => t + expSum p x n (k + 1) (t * x / 2 ^ p / (k + 1))
/-- e^x in units of 2^-p. -/
def expFix (p x : Nat) : Nat := expSum p x 80 0 (2 ^ p)
def sqFix (p x : Nat) : Nat → Nat
  | 0 => x
  | n + 1 => sqFix p (x * x / 2 ^ p) n

/-- 2^a. -/
def Fmt.fexp2 (f : Fmt) (rnd a : Nat) : Nat × Flags :=
  match f.decode a with
  | .nan s => (f.nan, if s then fNv else 0)
  | .inf n => if n then (0, 0) else (f.infBits, 0)
  | .fin n m e =>
    if m = 0 then f.round rnd (.fin false 1 0)
    else if (Nat.log2 m : Int) + e < -40 then
      f.round rnd (.fin false (if n then 2 ^ 60 - 1 else 2 ^ 60) (-60)) true
    else if 40 < (Nat.log2 m : Int) + e then
      f.round rnd (.fin false 1 (if n then -(2 ^ 40) else 2 ^ 40)) true
    else
      -- a = i + x / 2^100 with 0 ≤ x < 2^100
      let y : Int := if 0 ≤ e + 100 then scaled n m (e + 100) 0 else 0
      let i := y / 2 ^ 100
      let x := (y % 2 ^ 100).toNat
      if x = 0 then f.round rnd (.fin false 1 i)
      else f.round rnd (.fin false (expFix 320 (x * ln2q / 2 ^ 100)) (i - 320)) true
/-- The binary digits of log2 of x in [1, 2), in units of 2^-400, by repeated squaring. -/
def log2Digits (x : Nat) : Nat → Nat → Nat
  | 0, r => r
  | n + 1, r =>
    let y := x * x / 2 ^ 400
    if 2 ^ 401 ≤ y then log2Digits (y / 2) n (2 * r + 1) else log2Digits y n (2 * r)
/-- log2 a. -/
def Fmt.flog2 (f : Fmt) (rnd a : Nat) : Nat × Flags :=
  match f.decode a with
  | .nan s => (f.nan, if s then fNv else 0)
  | .inf n => if n then (f.nan, fNv) else (f.infBits, 0)
  | .fin n m e =>
    if m = 0 then (f.signBit + f.infBits, fDz)
    else if n then (f.nan, fNv)
    else
      let l := Nat.log2 m
      let ex : Int := l + e
      if m = 2 ^ l then f.round rnd (.fin (ex < 0) ex.natAbs 0)
      else
        let d := log2Digits (m * 2 ^ (400 - l)) 150 0
        let v := ex * 2 ^ 150 + d
        if 0 ≤ v then f.round rnd (.fin false v.toNat (-150)) true
        else f.round rnd (.fin true (v.natAbs - 1) (-150)) true
/-- 1 / a. -/
def Fmt.frcp (f : Fmt) (rnd a : Nat) : Nat × Flags := f.fdiv rnd (f.bias * 2 ^ f.mb) a
/-- 1 / √a. -/
def Fmt.frsqrt (f : Fmt) (rnd a : Nat) : Nat × Flags :=
  match f.decode a with
  | .nan s => (f.nan, if s then fNv else 0)
  | .inf n => if n then (f.nan, fNv) else (0, 0)
  | .fin n m e =>
    if m = 0 then ((if n then f.signBit else 0) + f.infBits, fDz)
    else if n then (f.nan, fNv)
    else
      let (m, e) := if e % 2 = 0 then (m, e) else (2 * m, e - 1)
      let y := isqrt 161 (2 ^ 320 / m)
      f.round rnd (.fin false y (-160 - e / 2)) (y * y * m ≠ 2 ^ 320)
/-- tanh a. -/
def Fmt.ftanh (f : Fmt) (rnd a : Nat) : Nat × Flags :=
  match f.decode a with
  | .nan s => (f.nan, if s then fNv else 0)
  | .inf n => f.round rnd (.fin n 1 0)
  | .fin n m e =>
    if m = 0 then f.round rnd (.fin n 0 0)
    else if (Nat.log2 m : Int) + e < -40 then f.round rnd (.fin n (m * 2 ^ 60 - 1) (e - 60)) true
    else if 6 ≤ (Nat.log2 m : Int) + e then f.round rnd (.fin n (2 ^ 60 - 1) (-60)) true
    else
      let x := m * 2 ^ (401 + e - 8).toNat
      let y := sqFix 400 (expFix 400 x) 8
      f.round rnd (.fin n ((y - 2 ^ 400) * 2 ^ 400 / (y + 2 ^ 400)) (-400)) true

end Sys2Proof.Machine
end

