-- ==== Sys2Proof/Machine/Scalar.lean ====
section
/-!
DEFINITION. The integer, compare and predicate instructions (04 R96-R101, R105), with what they do to the symbolic tags of an atomic region
(06 R165).
-/
namespace Sys2Proof.Machine

/-! ### The functions (04 R98-R101) -/

def iaMulhu (a b : W64) : W64 := BitVec.ofNat 64 (a.toNat * b.toNat / 2 ^ 64)
def iaMulh (a b : W64) : W64 := w64 (a.toInt * b.toInt / 2 ^ 64)
/-- Division never traps: by zero the quotient is −1 and the remainder a (04 R99). -/
def iaDiv (a b : W64) : W64 := if b = 0 then -1 else w64 (a.toInt.tdiv b.toInt)
def iaDivu (a b : W64) : W64 := if b = 0 then -1 else BitVec.ofNat 64 (a.toNat / b.toNat)
def iaRem (a b : W64) : W64 := if b = 0 then a else w64 (a.toInt.tmod b.toInt)
def iaRemu (a b : W64) : W64 := if b = 0 then a else BitVec.ofNat 64 (a.toNat % b.toNat)
def iaAndn (a b : W64) : W64 := a &&& ~~~b
/-- Shift amounts are taken modulo 64. -/
def iaShl (a b : W64) : W64 := a <<< (b.toNat % 64)
def iaShr (a b : W64) : W64 := a >>> (b.toNat % 64)
def iaSra (a b : W64) : W64 := a.sshiftRight (b.toNat % 64)
def iaRot (a b : W64) : W64 := a.rotateLeft (b.toNat % 64)
def iaMin (a b : W64) : W64 := if a.slt b then a else b
def iaMax (a b : W64) : W64 := if a.slt b then b else a
def iaMinu (a b : W64) : W64 := if a.ult b then a else b
def iaMaxu (a b : W64) : W64 := if a.ult b then b else a
def iaClz (a : W64) : W64 := if a = 0 then 64 else BitVec.ofNat 64 (63 - Nat.log2 a.toNat)
def iaCtz (a : W64) : W64 := BitVec.ofNat 64 (((List.range 64).find? (a.getLsbD ·)).getD 64)
def iaPopc (a : W64) : W64 := BitVec.ofNat 64 ((List.range 64).filter (a.getLsbD ·)).length
/-- Position and length of a field word; the length stops at bit 63 (04 R100). -/
def fieldPos (w : W64) : Nat := bits w 0 6
def fieldLen (w : W64) : Nat := min (bits w 6 7) (64 - fieldPos w)
def iaBfx (sgn : Bool) (a w : W64) : W64 :=
  let n := fieldLen w
  let x := bits a (fieldPos w) n
  if n = 0 then 0 else if sgn then w64 (sext n x) else BitVec.ofNat 64 x
def iaBfi (a b w : W64) : W64 := setBits a (fieldPos w) (fieldLen w) b.toNat

/-! ### Shapes of bodies -/

/-- imm32 sign-extended (04 R97). -/
def imm32 (f : Fields) : W64 := w64 (sext 32 f.imm.toNat)
def ia1 (g : W64 → W64) (f : Fields) : Body := fun s c i e => .ok (s.writeD c i f.d (g e.a.data))
def ia2 (g : W64 → W64 → W64) (f : Fields) : Body := fun s c i e => .ok (s.writeD c i f.d (g e.a.data e.b.data))
def iaI (g : W64 → W64 → W64) (f : Fields) : Body := fun s c i e => .ok (s.writeD c i f.d (g e.a.data (imm32 f)))
/-- A result that carries a symbolic tag, or concretises its tagged sources and carries none (06 R165). -/
def iaSym (f : Fields) (v : W64) (y : Option Sym) : Body := fun s c i _ =>
  if (s.th c i).region.isNone then .ok (s.writeD c i f.d v)
  else match y with
  | some y => .ok ((s.writeD c i f.d v).modTh c i (·.tagSym f.d y))
  | none =>
    match (s.th c i).concretise [f.a, f.b] with
    | some t => .ok ((s.setTh c i t).writeD c i f.d v)
    | none => .abort 0x41 3
/-- The tag of a sum: one tagged operand. -/
def addSym (a b : Option Sym) (x y : W64) : Option Sym :=
  match a, b with
  | some t, none => some { t with c := t.c + y }
  | none, some t => some { t with c := t.c + x }
  | _, _ => none
def subSym (a b : Option Sym) (y : W64) : Option Sym :=
  match a, b with
  | some t, none => some { t with c := t.c - y }
  | _, _ => none
def iaAddBody (f : Fields) (y : W64) (b : Option Sym) : Body := fun s c i e =>
  iaSym f (e.a.data + y) (addSym ((s.th c i).symOf f.a) b e.a.data y) s c i e
def iaSubBody (f : Fields) (y : W64) (b : Option Sym) : Body := fun s c i e =>
  iaSym f (e.a.data - y) (subSym ((s.th c i).symOf f.a) b y) s c i e
/-- A compare with its predicate; one tagged operand records a constraint, two are concretised (06 R165). -/
def icmpBody (r : Rel) (f : Fields) (y : W64) (b : Option Sym) : Body := fun s c i e =>
  let out := r.holds e.a.data y
  let t := s.th c i
  let t := match t.symOf f.a, b with
    | some k, none => t.constrain (.rel r k y true out)
    | none, some k => t.constrain (.rel r k e.a.data false out)
    | none, none => some t
    | some _, some _ => t.concretise [f.a, f.b]
  match t, f.d with
  | some t, .p n => .ok (s.setTh c i (t.wp n.toNat out))
  | some t, _ => .ok (s.setTh c i t)
  | none, _ => .abort 0x41 3
def icmpR (r : Rel) (f : Fields) : Body := fun s c i e => icmpBody r f e.b.data ((s.th c i).symOf f.b) s c i e
def icmpI (r : Rel) (f : Fields) : Body := icmpBody r f (imm32 f) none
/-- Write predicate D. -/
def setP (f : Fields) (b : Bool) : Body := fun s c i _ =>
  match f.d with
  | .p n => .ok (s.modTh c i (·.wp n.toNat b))
  | _ => .ok s
def Reg.bool (r : Reg) : Bool := r.data ≠ 0
def prd2 (g : Bool → Bool → Bool) (f : Fields) : Body := fun s c i e => setP f (g (Reg.bool e.a) (Reg.bool e.b)) s c i e

/-! ### Integer arithmetic and logic -/

def execIaAdd (f : Fields) (s : State) : Host.Outcome State Fault Refusal := .next (runThread (.iaAdd f) (fun f s c i e => iaAddBody f e.b.data ((s.th c i).symOf f.b) s c i e) s)
def execIaSub (f : Fields) (s : State) : Host.Outcome State Fault Refusal := .next (runThread (.iaSub f) (fun f s c i e => iaSubBody f e.b.data ((s.th c i).symOf f.b) s c i e) s)
def execIaMul (f : Fields) (s : State) : Host.Outcome State Fault Refusal := .next (runThread (.iaMul f) (ia2 (· * ·)) s)
def execIaMulh (f : Fields) (s : State) : Host.Outcome State Fault Refusal := .next (runThread (.iaMulh f) (ia2 iaMulh) s)
def execIaMulhu (f : Fields) (s : State) : Host.Outcome State Fault Refusal := .next (runThread (.iaMulhu f) (ia2 iaMulhu) s)
def execIaDiv (f : Fields) (s : State) : Host.Outcome State Fault Refusal := .next (runThread (.iaDiv f) (ia2 iaDiv) s)
def execIaDivu (f : Fields) (s : State) : Host.Outcome State Fault Refusal := .next (runThread (.iaDivu f) (ia2 iaDivu) s)
def execIaRem (f : Fields) (s : State) : Host.Outcome State Fault Refusal := .next (runThread (.iaRem f) (ia2 iaRem) s)
def execIaRemu (f : Fields) (s : State) : Host.Outcome State Fault Refusal := .next (runThread (.iaRemu f) (ia2 iaRemu) s)
def execIaAnd (f : Fields) (s : State) : Host.Outcome State Fault Refusal := .next (runThread (.iaAnd f) (ia2 (· &&& ·)) s)
def execIaOr (f : Fields) (s : State) : Host.Outcome State Fault Refusal := .next (runThread (.iaOr f) (ia2 (· ||| ·)) s)
def execIaXor (f : Fields) (s : State) : Host.Outcome State Fault Refusal := .next (runThread (.iaXor f) (ia2 (· ^^^ ·)) s)
def execIaAndn (f : Fields) (s : State) : Host.Outcome State Fault Refusal := .next (runThread (.iaAndn f) (ia2 iaAndn) s)
def execIaShl (f : Fields) (s : State) : Host.Outcome State Fault Refusal := .next (runThread (.iaShl f) (ia2 iaShl) s)
def execIaShr (f : Fields) (s : State) : Host.Outcome State Fault Refusal := .next (runThread (.iaShr f) (ia2 iaShr) s)
def execIaSra (f : Fields) (s : State) : Host.Outcome State Fault Refusal := .next (runThread (.iaSra f) (ia2 iaSra) s)
def execIaRot (f : Fields) (s : State) : Host.Outcome State Fault Refusal := .next (runThread (.iaRot f) (ia2 iaRot) s)
def execIaMin (f : Fields) (s : State) : Host.Outcome State Fault Refusal := .next (runThread (.iaMin f) (ia2 iaMin) s)
def execIaMax (f : Fields) (s : State) : Host.Outcome State Fault Refusal := .next (runThread (.iaMax f) (ia2 iaMax) s)
def execIaMinu (f : Fields) (s : State) : Host.Outcome State Fault Refusal := .next (runThread (.iaMinu f) (ia2 iaMinu) s)
def execIaMaxu (f : Fields) (s : State) : Host.Outcome State Fault Refusal := .next (runThread (.iaMaxu f) (ia2 iaMaxu) s)
def execIaClz (f : Fields) (s : State) : Host.Outcome State Fault Refusal := .next (runThread (.iaClz f) (ia1 iaClz) s)
def execIaCtz (f : Fields) (s : State) : Host.Outcome State Fault Refusal := .next (runThread (.iaCtz f) (ia1 iaCtz) s)
def execIaPopc (f : Fields) (s : State) : Host.Outcome State Fault Refusal := .next (runThread (.iaPopc f) (ia1 iaPopc) s)
def execIaMov (f : Fields) (s : State) : Host.Outcome State Fault Refusal := .next (runThread (.iaMov f) (fun f s c i e => iaSym f e.a.data ((s.th c i).symOf f.a) s c i e) s)
def execIaMovC (f : Fields) (s : State) : Host.Outcome State Fault Refusal := .next (runThread (.iaMovC f) (fun f s c i e => match f.d with
    | .s n => .ok (s.modTh c i (·.ws n.toNat e.a))
    | _ => .ok s) s)
def execIaAddI (f : Fields) (s : State) : Host.Outcome State Fault Refusal := .next (runThread (.iaAddI f) (fun f => iaAddBody f (imm32 f) none) s)
def execIaSubI (f : Fields) (s : State) : Host.Outcome State Fault Refusal := .next (runThread (.iaSubI f) (fun f => iaSubBody f (imm32 f) none) s)
def execIaMulI (f : Fields) (s : State) : Host.Outcome State Fault Refusal := .next (runThread (.iaMulI f) (iaI (· * ·)) s)
def execIaMulhI (f : Fields) (s : State) : Host.Outcome State Fault Refusal := .next (runThread (.iaMulhI f) (iaI iaMulh) s)
def execIaMulhuI (f : Fields) (s : State) : Host.Outcome State Fault Refusal := .next (runThread (.iaMulhuI f) (iaI iaMulhu) s)
def execIaDivI (f : Fields) (s : State) : Host.Outcome State Fault Refusal := .next (runThread (.iaDivI f) (iaI iaDiv) s)
def execIaDivuI (f : Fields) (s : State) : Host.Outcome State Fault Refusal := .next (runThread (.iaDivuI f) (iaI iaDivu) s)
def execIaRemI (f : Fields) (s : State) : Host.Outcome State Fault Refusal := .next (runThread (.iaRemI f) (iaI iaRem) s)
def execIaRemuI (f : Fields) (s : State) : Host.Outcome State Fault Refusal := .next (runThread (.iaRemuI f) (iaI iaRemu) s)
def execIaAndI (f : Fields) (s : State) : Host.Outcome State Fault Refusal := .next (runThread (.iaAndI f) (iaI (· &&& ·)) s)
def execIaOrI (f : Fields) (s : State) : Host.Outcome State Fault Refusal := .next (runThread (.iaOrI f) (iaI (· ||| ·)) s)
def execIaXorI (f : Fields) (s : State) : Host.Outcome State Fault Refusal := .next (runThread (.iaXorI f) (iaI (· ^^^ ·)) s)
def execIaAndnI (f : Fields) (s : State) : Host.Outcome State Fault Refusal := .next (runThread (.iaAndnI f) (iaI iaAndn) s)
def execIaShlI (f : Fields) (s : State) : Host.Outcome State Fault Refusal := .next (runThread (.iaShlI f) (iaI iaShl) s)
def execIaShrI (f : Fields) (s : State) : Host.Outcome State Fault Refusal := .next (runThread (.iaShrI f) (iaI iaShr) s)
def execIaSraI (f : Fields) (s : State) : Host.Outcome State Fault Refusal := .next (runThread (.iaSraI f) (iaI iaSra) s)
def execIaRotI (f : Fields) (s : State) : Host.Outcome State Fault Refusal := .next (runThread (.iaRotI f) (iaI iaRot) s)
def execIaMinI (f : Fields) (s : State) : Host.Outcome State Fault Refusal := .next (runThread (.iaMinI f) (iaI iaMin) s)
def execIaMaxI (f : Fields) (s : State) : Host.Outcome State Fault Refusal := .next (runThread (.iaMaxI f) (iaI iaMax) s)
def execIaMinuI (f : Fields) (s : State) : Host.Outcome State Fault Refusal := .next (runThread (.iaMinuI f) (iaI iaMinu) s)
def execIaMaxuI (f : Fields) (s : State) : Host.Outcome State Fault Refusal := .next (runThread (.iaMaxuI f) (iaI iaMaxu) s)
def execIaBfx (f : Fields) (s : State) : Host.Outcome State Fault Refusal := .next (runThread (.iaBfx f) (fun f s c i e => .ok (s.writeD c i f.d (iaBfx (f.m.getLsbD 0) e.a.data e.b.data))) s)
def execIaBfi (f : Fields) (s : State) : Host.Outcome State Fault Refusal := .next (runThread (.iaBfi f) (fun f s c i e => .ok (s.writeD c i f.d (iaBfi e.a.data e.b.data e.c.data))) s)
/-- `ia.sel` selecting a tagged source, the other untagged, keeps the tag (06 R165). -/
def execIaSel (f : Fields) (s : State) : Host.Outcome State Fault Refusal := .next (runThread (.iaSel f) (fun f s c i e =>
    let ya := (s.th c i).symOf f.a
    let yb := (s.th c i).symOf f.b
    let v := if Reg.bool e.c then e.a.data else e.b.data
    iaSym f v (if Reg.bool e.c then (if yb.isNone then ya else none) else (if ya.isNone then yb else none)) s c i e) s)
def execIaBfxI (f : Fields) (s : State) : Host.Outcome State Fault Refusal := .next (runThread (.iaBfxI f) (fun f s c i e => .ok (s.writeD c i f.d (iaBfx (f.m.getLsbD 0) e.a.data (imm32 f)))) s)
def execIaBfiI (f : Fields) (s : State) : Host.Outcome State Fault Refusal := .next (runThread (.iaBfiI f) (fun f s c i e => .ok (s.writeD c i f.d (iaBfi e.a.data e.b.data (imm32 f)))) s)
/-- imm48 sign-extended (04 R97). -/
def execIaLi (f : Fields) (s : State) : Host.Outcome State Fault Refusal := .next (runThread (.iaLi f) (fun f s c i _ => .ok (s.writeD c i f.d (w64 (sext 48 f.imm.toNat)))) s)

/-! ### Compares -/

def execIcmpEq (f : Fields) (s : State) : Host.Outcome State Fault Refusal := .next (runThread (.icmpEq f) (icmpR .eq) s)
def execIcmpNe (f : Fields) (s : State) : Host.Outcome State Fault Refusal := .next (runThread (.icmpNe f) (icmpR .ne) s)
def execIcmpLt (f : Fields) (s : State) : Host.Outcome State Fault Refusal := .next (runThread (.icmpLt f) (icmpR .lt) s)
def execIcmpLtu (f : Fields) (s : State) : Host.Outcome State Fault Refusal := .next (runThread (.icmpLtu f) (icmpR .ltu) s)
def execIcmpLe (f : Fields) (s : State) : Host.Outcome State Fault Refusal := .next (runThread (.icmpLe f) (icmpR .le) s)
def execIcmpLeu (f : Fields) (s : State) : Host.Outcome State Fault Refusal := .next (runThread (.icmpLeu f) (icmpR .leu) s)
def execIcmpEqI (f : Fields) (s : State) : Host.Outcome State Fault Refusal := .next (runThread (.icmpEqI f) (icmpI .eq) s)
def execIcmpNeI (f : Fields) (s : State) : Host.Outcome State Fault Refusal := .next (runThread (.icmpNeI f) (icmpI .ne) s)
def execIcmpLtI (f : Fields) (s : State) : Host.Outcome State Fault Refusal := .next (runThread (.icmpLtI f) (icmpI .lt) s)
def execIcmpLtuI (f : Fields) (s : State) : Host.Outcome State Fault Refusal := .next (runThread (.icmpLtuI f) (icmpI .ltu) s)
def execIcmpLeI (f : Fields) (s : State) : Host.Outcome State Fault Refusal := .next (runThread (.icmpLeI f) (icmpI .le) s)
def execIcmpLeuI (f : Fields) (s : State) : Host.Outcome State Fault Refusal := .next (runThread (.icmpLeuI f) (icmpI .leu) s)

/-! ### Predicates (04 R105) -/

def execPrdAnd (f : Fields) (s : State) : Host.Outcome State Fault Refusal := .next (runThread (.prdAnd f) (prd2 and) s)
def execPrdOr (f : Fields) (s : State) : Host.Outcome State Fault Refusal := .next (runThread (.prdOr f) (prd2 or) s)
def execPrdXor (f : Fields) (s : State) : Host.Outcome State Fault Refusal := .next (runThread (.prdXor f) (prd2 xor) s)
def execPrdNot (f : Fields) (s : State) : Host.Outcome State Fault Refusal := .next (runThread (.prdNot f) (fun f s c i e => setP f (!Reg.bool e.a) s c i e) s)
def execPrdSet (f : Fields) (s : State) : Host.Outcome State Fault Refusal := .next (runThread (.prdSet f) (fun f s c i e => setP f (Reg.bool e.a) s c i e) s)

end Sys2Proof.Machine
end

