-- ==== Sys2Proof/Machine/Control.lean ====
section
/-!
DEFINITION. Control transfer, hardware loops, the end of a thread, and fetch reconvergence (04 R110-R119).
-/
namespace Sys2Proof.Machine

/-- The target of a BR form (03 R78). -/
def brTarget (pc : Addr) (f : Fields) : Addr := pc + 12 * BitVec.ofInt 48 (sext 32 f.imm.toNat)
/-- Write pc + 12 to the link register (04 R111). -/
def State.link' (s : State) (c i : Nat) (d : Opnd) : State := s.writeD c i d (((s.th c i).pc + 12).setWidth 64)
/-- A register target: bits [47:0] of A, aligned to 4 (04 R111). -/
def regJump (e : Env) (k : Addr → Res) : Res :=
  let tgt : Addr := e.a.data.setWidth 48
  if tgt.toNat % 4 ≠ 0 then .trap ⟨0x04, 0, tgt.setWidth 96, false⟩ else k tgt

def execCtlBr (f : Fields) (s : State) : Host.Outcome State Fault Refusal :=
  .next (runThread (.ctlBr f) (fun f s c i _ => .jump s (brTarget (s.th c i).pc f) true) s)

/-- The oldest outcome or value that a producer put into a split pair's queue, and the rest (07 R216). -/
def takeFrom {α : Type} (j : Nat) : List (Nat × α) → Option (α × List (Nat × α))
  | [] => none
  | (k, v) :: q => if k = j then some (v, q) else (takeFrom j q).map fun (w, q) => (w, (k, v) :: q)
def brBqBody (f : Fields) : Body := fun s c i _ =>
  let t := s.th c i
  let lo := min i t.partner
  let l := s.link c lo
  match takeFrom t.partner l.bq with
  | none => .cancel s
  | some (b, q) =>
    let s := s.setLink c lo { l with bq := q }
    if b then .jump s (brTarget t.pc f) true else .ok s
def execCtlBrBq (f : Fields) (s : State) : Host.Outcome State Fault Refusal := .next (runThread (.ctlBrBq f) brBqBody s)

def execCtlCall (f : Fields) (s : State) : Host.Outcome State Fault Refusal :=
  .next (runThread (.ctlCall f) (fun f s c i _ => .jump (s.link' c i f.d) (brTarget (s.th c i).pc f) false) s)

/-- A jr whose D is s0 is a jump, any other a call. -/
def execCtlJr (f : Fields) (s : State) : Host.Outcome State Fault Refusal :=
  .next (runThread (.ctlJr f) (fun f s c i e => regJump e fun tgt => .jump (s.link' c i f.d) tgt (isS0 f.d)) s)

def execCtlRet (f : Fields) (s : State) : Host.Outcome State Fault Refusal :=
  .next (runThread (.ctlRet f) (fun _ s _ _ e => regJump e fun tgt => .jump s tgt false) s)

/-- The level that `ctl.loop` chooses (04 R115): 0, 1, or none. -/
def Thread.loopLevel (t : Thread) (lbeg lend : Addr) : Option Nat :=
  if t.l0.active && t.l0.lbeg = lbeg && t.l0.lend = lend then some 0
  else if t.l1.active && t.l1.lbeg = lbeg && t.l1.lend = lend then some 1
  else if !t.l0.active then some 0
  else if !t.l1.active then some 1
  else none
def Thread.setLevel (t : Thread) (n : Nat) (l : Level) : Thread := if n = 0 then { t with l0 := l } else { t with l1 := l }
def Thread.level (t : Thread) (n : Nat) : Level := if n = 0 then t.l0 else t.l1
def loopBody (f : Fields) : Body := fun s c i e =>
  let t := s.th c i
  let lbeg := t.pc + 12
  let lend := brTarget t.pc f
  let n : W32 := e.a.data.setWidth 32
  match t.loopLevel lbeg lend with
  | none => .trap ⟨0x09, 0x10, s.openTval, false⟩
  | some k =>
    if n = 0 then .loop (s.setTh c i (t.setLevel k { t.level k with active := false })) (lend + 12)
    else .loop (s.setTh c i (t.setLevel k ⟨lbeg, lend, n, true⟩)) lbeg
def execCtlLoop (f : Fields) (s : State) : Host.Outcome State Fault Refusal := .next (runThread (.ctlLoop f) loopBody s)

/-- Causes 0x01 to 0x0F are raised as they are, any other as 0x01; A[15:8] is the detail, B the tval (04 R113). -/
def trapBody (_ : Fields) : Body := fun _ _ _ e =>
  let k := bits e.a.data 0 8
  .trap ⟨if 1 ≤ k && k ≤ 15 then k else 1, bits e.a.data 8 8, e.b.data.setWidth 96, false⟩
def execCtlTrap (f : Fields) (s : State) : Host.Outcome State Fault Refusal := .next (runThread (.ctlTrap f) trapBody s)

def execCtlNop (f : Fields) (s : State) : Host.Outcome State Fault Refusal :=
  .next (runThread (.ctlNop f) (fun _ s _ _ _ => .ok s) s)

/-- `ctl.exit` (04 R114): the slot becomes empty; a region is dropped, an open packet closes, a pair is unbound. -/
def execCtlExit (f : Fields) (s : State) : Host.Outcome State Fault Refusal :=
  .next (runThread (.ctlExit f) (fun _ s c i _ => .set (s.endThread c i .empty)) s)

/-! ### `ctl.align` (04 R119) -/

def alignCohort (f : Fields) : Nat := bits f.imm 0 4
def alignLimit (f : Fields) : Nat := bits f.imm 4 16
/-- The other members of a thread's cohort: threads of the same bind record and cluster that have named it. -/
def State.cohort (s : State) (c i k : Nat) : List (Nat × Nat × Slot) :=
  match (s.slot c i).bind with
  | none => []
  | some b => s.allSlots.filter fun (c', i', y) =>
      clusterOf c' = clusterOf c && !(c' = c && i' = i) && y.th.cohorts.getLsbD k &&
      match y.bind with
      | some b' => b'.group = b.group && b'.part = b.part
      | none => false
/-- Whether a slot waits at an align of a cohort at an address. -/
def Slot.waitsAt (y : Slot) (k : Nat) (a : Addr) : Bool :=
  y.state = .ready && y.th.pc = a && match y.th.align with
    | some w => w.addr = a && w.cohort.toNat = k
    | none => false
/-- Whether a member of the cohort is out of its cell with its tenant (20 R412): it has not ended, and does not count as arrived. -/
def State.cohortAway (s : State) (c i k : Nat) : Bool :=
  match (s.slot c i).bind with
  | none => false
  | some b => s.blocks.any fun (n, x) => clusterOf (n / 2) = clusterOf c && x.slots.any fun (_, y) => y.th.cohorts.getLsbD k &&
      match y.bind with
      | some b' => b'.group = b.group && b'.part = b.part
      | none => false
/-- Whether every other member waits at address `a`, or has ended. -/
def State.meets (s : State) (c i k : Nat) (a : Addr) : Bool := !s.cohortAway c i k && (s.cohort c i k).all fun (_, _, y) => y.waitsAt k a
/-- Complete the align of a waiting thread. -/
def State.alignDone (s : State) (c i : Nat) : State := finish s c i (.ok (s.modTh c i fun t => { t with align := none }))
def alignBody (f : Fields) : Body := fun s c i _ =>
  let k := alignCohort f
  let t := s.th c i
  let first := match t.align with
    | some w => if w.addr = t.pc && w.cohort.toNat = k then w.first else s.cycle
    | none => s.cycle
  let fresh := first = s.cycle
  let s1 := s.setTh c i { t with align := some ⟨t.pc, BitVec.ofNat 4 k, first, alignLimit f⟩, cohorts := t.cohorts ||| BitVec.ofNat 16 (2 ^ k) }
  let others := s.cohort c i k
  let done (s : State) : Res := .ok (s.modTh c i fun t => { t with align := none })
  if first + alignLimit f ≤ s.cycle then done s1
  else if s.meets c i k t.pc then done (others.foldl (fun s (c', i', _) => s.alignDone c' i') s1)
  else .cancel (if fresh then s1.dueAt (s.cycle + alignLimit f) (.alignTimeout c i) else s1)
def execCtlAlign (f : Fields) (s : State) : Host.Outcome State Fault Refusal := .next (runThread (.ctlAlign f) alignBody s)

/-- A member that has waited its timeout since its first issue completes alone; and when the end of a member leaves only waiting ones, they
complete together. -/
def execAlignTimeout (cell slot : Nat) (s : State) : Host.Outcome State Fault Refusal :=
  let t := s.th cell slot
  match t.align with
  | some w =>
    let k := w.cohort.toNat
    let others := s.cohort cell slot k
    if !(s.slot cell slot).waitsAt k t.pc then .next s
    else if w.first + w.limit ≤ s.cycle then .next (s.alignDone cell slot)
    else if s.meets cell slot k t.pc then .next ((others.foldl (fun s (c', i', _) => s.alignDone c' i') s).alignDone cell slot)
    else .next s
  | none => .next s

end Sys2Proof.Machine
end

