-- ==== Sys2Proof/Machine/Flit.lean ====
section
/-!
DEFINITION. The flits of the scale-up fabric (18 R376-R378): their check code, the messages in their slots, and how a port sends a message.
-/
namespace Sys2Proof.Machine

/-! ### The check code -/

/-- CRC-64/ECMA-182 over bytes, the most significant bit of each first. -/
def crcBit (r : W64) (b : Bool) : W64 := if r.getLsbD 63 != b then (r <<< 1) ^^^ 0x42F0E1EBA9EA3693 else r <<< 1
def crcByte (r : W64) (b : Byte) : W64 := (List.range 8).foldl (fun r k => crcBit r (b.getLsbD (7 - k))) r
def crc64 (bs : List Byte) : W64 := bs.foldl crcByte 0
def flitCrcOk (x : BitVec 2048) : Bool := crc64 (natToBytes 248 x.toNat) = BitVec.ofNat 64 (bits x 1984 64)

/-! ### What a flit carries -/

def flitSeq (x : BitVec 2048) : Nat := bits x 0 12
def flitAck (x : BitVec 2048) : Nat := bits x 12 12
def flitSlot (x : BitVec 2048) (k : Nat) : Nat := bits x (128 * k + 32) 128
/-- The message of a header slot and its data slots. -/
def slotMsg (h d : Nat) : FabMsg :=
  { op := h % 16, len := h / 2 ^ 4 % 16, tag := h / 2 ^ 8 % 2 ^ 12, src := h / 2 ^ 20 % 2 ^ 12, dst := h / 2 ^ 32 % 2 ^ 12, svf := h / 2 ^ 44 % 2 ^ 8,
    sub := h / 2 ^ 52 % 16, bytes := h / 2 ^ 56 % 128, addr := h / 2 ^ 64 % 2 ^ 48, resv := h / 2 ^ 63 % 2 = 1 || h / 2 ^ 112 ≠ 0,
    data := BitVec.ofNat 512 d }
/-- The header slot of a message. -/
def headerSlot (m : FabMsg) : Nat :=
  m.op % 16 + m.len % 16 * 2 ^ 4 + m.tag % 2 ^ 12 * 2 ^ 8 + m.src % 2 ^ 12 * 2 ^ 20 + m.dst % 2 ^ 12 * 2 ^ 32 + m.svf % 2 ^ 8 * 2 ^ 44 +
    m.sub % 16 * 2 ^ 52 + m.bytes % 128 * 2 ^ 56 + m.addr % 2 ^ 48 * 2 ^ 64
/-- The messages of a flit from slot `k` on. -/
def flitMsgs (x : BitVec 2048) : Nat → Nat → List FabMsg
  | 0, _ => []
  | n + 1, k =>
    let h := flitSlot x k
    if 15 ≤ k || h % 16 = 0 then []
    else
      let len := h / 16 % 16
      let m := slotMsg h ((List.range (min len 4)).foldr (fun j d => flitSlot x (k + 1 + j) + 2 ^ 128 * d) 0)
      -- data slots beyond the flit, or more than four, make a message that no receiver knows
      (if 4 < len || 15 < k + 1 + len then { m with resv := true } else m) :: flitMsgs x n (k + 1 + len)
/-- A flit that carries one message: sequence number, acknowledgment, the credits returned with their class, and the check code. -/
def flitOf (seq ack cls cnt : Nat) (m : FabMsg) : BitVec 2048 :=
  let body := seq + ack * 2 ^ 12 + cls * 2 ^ 24 + cnt * 2 ^ 28 + (headerSlot m + m.data.toNat % 2 ^ (128 * m.len) * 2 ^ 128) * 2 ^ 32
  BitVec.ofNat 2048 (body + (crc64 (natToBytes 248 body)).toNat * 2 ^ 1984)

/-! ### Sending -/

/-- Credit class of a message: request, response or launch (18 R376). -/
def msgClass (op : Nat) : Nat := if op = 4 then 2 else if 5 ≤ op then 1 else 0
/-- Put a message into a flit of its own, with the first credits that are owed, and send it; the retry buffer keeps it. -/
def State.sendFlit (s : State) (p : Nat) (m : FabMsg) : State :=
  let x := s.ports.at p {}
  let n := (x.seq + 1) % 4096
  let k := msgClass m.op
  let cls := ((List.range 3).find? fun c => x.owed.at c 0 ≠ 0).getD 0
  let cnt := min 15 (x.owed.at cls 0)
  let flit := flitOf n x.ack cls cnt m
  let s : State := { s with ports := s.ports.set p { x with
    seq := n, retry := x.retry ++ [(n, flit)], credits := x.credits.set k (x.credits.at k 0 - 1) 0, owed := x.owed.set cls (x.owed.at cls 0 - cnt) 0 } {} }
  s.emitOut (.fabric p m flit)
/-- A message joins those that wait: a response does not wait behind a request or a launch (18 R377). -/
def joinWaiting (m : FabMsg) (l : List FabMsg) : List FabMsg :=
  if msgClass m.op = 1 then l.filter (msgClass ·.op = 1) ++ m :: l.filter (msgClass ·.op ≠ 1) else l ++ [m]
/-- Send a message through the port of its destination, after those that wait for room among the 128 flits of the retry buffer. Credits only
time it (log entry 4). -/
def State.send (s : State) (m : FabMsg) : State :=
  let p := s.routes.at m.dst 0
  let x := s.ports.at p {}
  if x.retry.length < 128 && x.waiting.isEmpty then s.sendFlit p m
  else { s with ports := s.ports.set p { x with waiting := joinWaiting m x.waiting } {} }
/-- Send waiting messages while the retry buffer has room. -/
def State.sendWaiting (s : State) (p : Nat) : Nat → State
  | 0 => s
  | n + 1 =>
    let x := s.ports.at p {}
    match x.waiting with
    | m :: l => if x.retry.length < 128 then (({ s with ports := s.ports.set p { x with waiting := l } {} } : State).sendFlit p m).sendWaiting p n else s
    | [] => s

end Sys2Proof.Machine
end

