-- ==== Sys2Proof/Machine/Memory.lean ====
section
/-!
DEFINITION. Loads, stores, full/empty operations, reserved pairs, atomics and fences (06 R143-R158): requests to other homes, how a home
performs them, and what a reply does.
-/
namespace Sys2Proof.Machine

/-! ### Places and modifiers -/

def ownPool (c key : Nat) : Bool := key / 2 ^ 20 = c
def State.fnOf (s : State) (c i : Nat) : Nat := (s.threadFn c i).getD 0
def ordOf (f : Fields) : Nat := f.m.toNat / 64
def maskOf (f : Fields) : Nat := f.m.toNat % 64

/-! ### Second tier (18 R375) and hosts -/

/-- The eight ports in the order in which firmware takes them: each choice falls on one of those that are left. -/
def tier2Ports : List Nat :=
  ((List.range 8).foldl (fun (l, left) k =>
    let p := left.getD (Config.tier2Order k % left.length) 0
    (l ++ [p], left.filter (· != p))) (([] : List Nat), List.range 8)).1
/-- The port of a second-tier key: 4 KiB blocks go in turn to 1, 2, 4 or 8 ports (18 R374). -/
def tier2Port (key : Nat) : Nat := tier2Ports.getD ((key - keyTier2) / 4096 % 2 ^ (Config.tier2Ways % 4)) 0
/-- Whether a key lies behind a second-tier port whose link is down; the request is recorded in the port's bank. -/
def State.linkDown (s : State) (key : Nat) : Bool := kindOf key = .tier2 && s.linksDown.contains (tier2Port key)
def State.linkErr (s : State) (key : Nat) : State :=
  s.errOpen (1062 + tier2Port key) 8 true none
/-- A read at its home: the value and the offset of its lowest poisoned byte. -/
def State.readHome (s : State) (key n : Nat) : State × Nat × Option Nat :=
  if s.linkDown key then (s.linkErr key, readNat s.mem key n, some 0) else (s, readNat s.mem key n, s.poisonAt key n)
/-- A write at its home; to the host it is a posted write, and what is dropped at a port whose link is down is lost. -/
def State.writeHome (s : State) (by_ : Option (Nat × Nat)) (key n v : Nat) (tag poison : Bool) : State :=
  if s.linkDown key then s.linkErr key
  else
    let s := if kindOf key = .host then s.emitOut (.hostWrite (key - keyHost) (natToBytes n v) poison) else s
    if poison then s.writePoison by_ key n v else s.write by_ key n v tag

/-! ### Read-modify-writes (06 R154-R156) -/

/-- The new value of an `amo` function, none where nothing is written. -/
def amoNew (op size : Nat) (old : Nat) (b c : W64) : Option Nat :=
  let m := 2 ^ (8 * size)
  let x := b.toNat % m
  let sx := sext (8 * size) old
  let sb := sext (8 * size) b.toNat
  match op with
  | 0 => some ((old + x) % m)
  | 1 => some (old &&& x)
  | 2 => some (old ||| x)
  | 3 => some (old ^^^ x)
  | 4 => some (if sx < sb then old else x)
  | 5 => some (if sx < sb then x else old)
  | 6 => some (min old x)
  | 7 => some (max old x)
  | 8 => some x
  | _ => if old = x then some (c.toNat % m) else none
/-- Perform an `amo` at its home: the old value, or its lowest poisoned byte, and then nothing is written (22 R441). -/
def State.amoHome (s : State) (by_ : Option (Nat × Nat)) (key size op : Nat) (b c : W64) : State × Nat × Option Nat :=
  match s.readHome key size with
  | (s, old, some j) => (s, old, some j)
  | (s, old, none) =>
    match amoNew op size old b c with
    | some v => (s.writeHome by_ key size v false false, old, none)
    | none => (s, old, none)

/-! ### Leases of lr (06 R155) -/

/-- Another thread's lease on a word that still runs. -/
def State.leased (s : State) (w c i : Nat) : Bool := s.leases.any fun l => l.word = w && !(l.cell = c && l.slot = i) && s.cycle < l.until_
/-- Perform an `lr`: its lease, and the reservation of the thread if it still waits in its slot. -/
def State.lrHome (s : State) (w c i : Nat) (live : Bool) : State :=
  let l : Lease := ⟨w, c, i, s.cycle + 1024⟩
  let s : State := { s with leases := s.leases.filter (fun x => !(x.word = w)) ++ [l] }
  (if live then s.modTh c i fun t => { t with resv := some w, resvLost := false } else s).dueAt (s.cycle + 1024) (.leaseExpiry w)
/-- Whether the thread that made a request still waits for it in its slot. -/
def State.waits (s : State) (id : Nat) (r : Req) : Bool := !r.dead && (s.th r.cell r.slot).wait = some (.reply id)
/-- An `lr` as its home grants it. -/
def State.lrGrant (s : State) (id n : Nat) (r : Req) : State :=
  let s := s.access (some r.fn) r.key n false r.cp
  let (s, v, bad) := s.readHome r.key n
  let s := s.lrHome (r.key / 8) r.cell r.slot (s.waits id r)
  { s with reqs := s.reqs.put id { r with held := false, done := some (BitVec.ofNat 512 v), poisoned := bad.isSome, pva := r.va + bad.getD 0 } }
/-- End a lease and grant it to a held `lr` of its word: of several, the first in arrival order, since 06 R155 gives no order (DESIGN CHOICE, log
entry 61). -/
def State.endLease (s : State) (w : Nat) : State :=
  let s : State := { s with leases := s.leases.filter fun l => !(l.word = w) }
  match s.lrHeld.find? fun id => ((s.reqs.look id).map (·.key / 8)) = some w with
  | none => s
  | some id =>
    let out (id : Nat) (s : State) : State := { s with lrHeld := s.lrHeld.filter (· != id) }
    match s.reqs.look id with
    | some r =>
      -- in a replay all that wait try again, and the one whose value stands next goes (23 R467)
      if (s.part (s.reqPart r)).ephMode = 2 then
        (s.lrHeld.filter fun j => ((s.reqs.look j).map (·.key / 8)) = some w).foldl (fun s j => match s.reqs.look j with
          | some q => ((out j { s with reqs := s.reqs.put j { q with held := false } }).dueAt (s.cycle + 1) (.reply j))
          | none => s) s
      else match s.holdFor (some id) r.fn [(r.key, 8)] with
      | some t => (out id { s with reqs := s.reqs.put id { r with held := false } }).holdAt { id := id, fn := r.fn, places := [(r.key, 8)] } t
      | none => ((((out id s).unhold id).lrGrant id (match r.op with
        | .lr n _ => n
        | _ => 8) r).noteValue id).dueLater (.reply id)
    | none => out id s
/-- Perform an `sc`: whether it stored. The reservation and a used lease end. -/
def State.scHome (s : State) (c i key size : Nat) (v : W64) (live : Bool) : State × Bool :=
  let w := key / 8
  -- another thread's lease on the word excludes an `sc` whose own lease is over: only a write other than an `sc` may break a pair (06 R155)
  let ok := live && (s.th c i).resv = some w && !s.leased w c i
  let s := if live then s.modTh c i fun t => { t with resv := none } else s
  let mine := s.leases.any fun l => l.word = w && l.cell = c && l.slot = i
  let s := if ok then s.writeHome (some (c, i)) key size (v.toNat % 2 ^ (8 * size)) false false else s
  (if mine then s.endLease w else s, ok)

/-! ### Requests -/

/-- The 64-byte pieces of an access, as messages to a peer carry it (18 R378): address and bytes. -/
def pieces (key n : Nat) : List (Nat × Nat) :=
  (units 64 key n).map fun u => (max key (64 * u), min (key + n) (64 * (u + 1)) - max key (64 * u))
/-- The parts of a request: address, bytes, and the first byte's place in the value that is read or written. -/
def ReqOp.lanes (op : ReqOp) (key : Nat) : List (Nat × Nat × Nat) :=
  match op with
  | .load size .. | .store size .. | .amo _ size .. | .lr size _ | .sc size .. => (pieces key size).map fun (a, n) => (a, n, a - key)
  | .vload es n _ | .vstore es n _ => ((List.range es.length).zip es).flatMap fun (j, k, _) => (pieces k n).map fun (a, m) => (a, m, n * j + (a - k))
  | .flush => [(key, 1, 0)]
  | .fe .. | .commit _ => [(key, 8, 0)]
def ReqOp.parts (op : ReqOp) (key : Nat) : List (Nat × Nat) := (op.lanes key).map fun (a, n, _) => (a, n)
/-- The parts of a request that lie in peer memory, with their numbers. -/
def Req.peers (r : Req) : List (Nat × Nat × Nat × Nat) :=
  ((List.range (r.op.lanes r.key).length).zip (r.op.lanes r.key)).filter fun x => keyPeer ≤ x.2.1
/-- The places of a request at the controllers. -/
def Req.here (r : Req) : List (Nat × Nat) := (r.op.parts r.key).filter fun x => x.1 < keyPeer
/-- The virtual address of a byte of a request, by its place in the value. -/
def Req.vaAt (r : Req) (b : Nat) : Nat :=
  match r.op with
  | .vload es n _ | .vstore es n _ => ((es[b / n]?).map fun x => x.2 + b % n).getD r.va
  | _ => r.va + b
def peerAddr (key : Nat) : Nat := (key - keyPeer) % 2 ^ 48
def peerDev (key : Nat) : Nat := (key - keyPeer) / 2 ^ 48
/-- The value of a store. -/
def ReqOp.data : ReqOp → W512
  | .store _ v _ | .vstore _ _ v => v
  | _ => 0
/-- The fabric message of one part of a request (18 R378, R380): address, bytes, and place in the value. -/
def State.peerMsg (s : State) (id : Nat) (r : Req) (a n b : Nat) : FabMsg :=
  let base : FabMsg := { op := 1, addr := peerAddr a, bytes := n, src := s.fabricId.toNat, dst := peerDev a, tag := id % 4096, svf := r.fn }
  match r.op with
  | .store .. | .vstore .. => { base with op := 2, len := ceilDiv n 16, data := BitVec.ofNat 512 (bits r.op.data (8 * b) (8 * n)) }
  | .amo op size b c _ =>
    let m := 2 ^ (8 * size)
    { base with op := 3, sub := op, len := 1, data := BitVec.ofNat 512 (b.toNat % m + (if op = 9 then c.toNat % m else 0) * 2 ^ 64) }
  | _ => base
/-- Enter a request of a thread, or of an engine operation, and send it on its way. -/
def State.requestFn (s : State) (engine : Option Nat) (fn c i va key : Nat) (op : ReqOp) (posted : Bool) (cp : BitVec 2 := 0) : State × Nat :=
  let id := s.nextId
  let r : Req := { cell := c, slot := i, fn := fn, va := va, key := key, op := op, posted := posted, engine := engine, sent := s.cycle, cp := cp }
  let s := { s with reqs := s.reqs.put id r, nextId := id + 1 }
  -- what is read from the host is asked of it
  let asks : List (Nat × Nat) := match op with
    | .load .. | .vload .. => (op.parts key).filter fun x => kindOf x.1 = .host
    | _ => []
  let s := asks.foldl (fun s (a, n) => s.emitOut (.hostRead (a - keyHost) n)) s
  match kindOf key, op with
  | .peer _, _ =>
    let stores : Bool := match op with
      | .store .. | .vstore .. => true
      | _ => false
    let s := r.peers.foldl (fun s (_, a, n, b) => (s.send (s.peerMsg id r a n b)).access (some r.fn) a (if stores then n else 0) stores) s
    (s.dueAt (s.cycle + 2 ^ 20) (.peerTimeout id), id)
  | .host, .amo o n b c _ => ((s.access (some r.fn) key n true).emitOut (.hostAtomic id (key - keyHost) o n b c), id)
  | _, _ => (s.dueLater (if posted then .ack id else .reply id), id)
def State.request (s : State) (c i va key : Nat) (op : ReqOp) (posted : Bool) (cp : BitVec 2) : State × Nat :=
  s.requestFn none (s.fnOf c i) c i va key op posted cp

/-- Read the elements of a vector load that lie in this device's memory or the host's, beside those that peers have returned. -/
def State.readElems (s : State) (id : Nat) (r : Req) (es : List (Nat × Nat)) (n : Nat) : State :=
  let s := s.accessAll (some r.fn) (es.map (·.1)) n false r.cp
  let (s, x, bad) := ((List.range es.length).zip es).foldl (fun (s, x, bad) (j, k, va) =>
    if keyPeer ≤ k then (s, x, bad)
    else
      let (s, v, b) := s.readHome k n
      let bad := match b, bad with
        | some j, some a => some (min a (va + j))
        | some j, none => some (va + j)
        | none, b => b
      (s, setBits x (8 * n * j) (8 * n) v, bad)) (s, r.done.getD 0, (none : Option Nat))
  { s with reqs := s.reqs.put id { r with done := some x, poisoned := bad.isSome, pva := bad.getD 0 } }
/-- Write the elements of a vector store that lie in this device's memory or the host's, in lane order; units that they cover together lose
their poison (22 R440). -/
def State.writeElems (s : State) (r : Req) (es : List (Nat × Nat)) (n : Nat) (v : W512) : State :=
  let here := es.filter fun x => x.1 < keyPeer
  let s := (s.accessAll (some r.fn) (es.map (·.1)) n true r.cp).coverUnits ((here.map fun x => (x.1, n)).filter fun x => !s.linkDown x.1)
  ((List.range es.length).zip es).foldl (fun s (j, k, _) =>
    if keyPeer ≤ k then s
    else s.writeHome (some (r.cell, r.slot)) k n (bits v (8 * n * j) (8 * n)) false false) s
/-- What a request asks of memory, done at its home (06 R144). Full/empty operations of a parked thread are performed on arrival instead. -/
def State.perform (s : State) (id : Nat) (r : Req) : State :=
  if r.done.isSome then s
  else
    let me := some (r.cell, r.slot)
    let acc (n : Nat) (wr : Bool) : State := s.access (some r.fn) r.key n wr r.cp
    let fin (s : State) (v : W512) (bad : Option Nat) (full : Bool) : State :=
      { s with reqs := s.reqs.put id { r with done := some v, full := full, poisoned := bad.isSome, pva := r.va + bad.getD 0 } }
    match r.op with
    | .load n _ cap _ =>
      let (s, v, bad) := (acc n false).readHome r.key n
      fin s (BitVec.ofNat 512 v) bad (cap && hasTags r.key && s.tagAt r.key)
    | .lr n _ =>
      if s.leased (r.key / 8) r.cell r.slot then { s with reqs := s.reqs.put id { r with held := true }, lrHeld := s.lrHeld ++ [id] }
      else s.lrGrant id n r
    | .sc n v _ =>
      let (s, ok) := (acc n true).scHome r.cell r.slot r.key n v (s.waits id r)
      fin s (if ok then 0 else 1) none false
    | .amo o n b c _ =>
      let (s, v, bad) := (acc n true).amoHome me r.key n o b c
      fin s (BitVec.ofNat 512 v) bad false
    | .fe fn v _ _ =>
      ((acc 8 true).fePerform id r fn v).serveFe (r.key / 8) s.feHeld.length
    | .store n v tag => fin ((acc n true).writeHome me r.key n v.toNat tag false) 0 none false
    | .vload es n _ => s.readElems id r es n
    | .vstore es n v => fin (s.writeElems r es n v) 0 none false
    | .flush => fin s 0 none false
    | .commit _ => s
/-- The thread's writes in flight to a word of an access. -/
def State.ownHits (s : State) (c i key n : Nat) : List (Nat × Req) :=
  (s.myWrites c i).filter fun (_, r) => r.done.isNone && r.op != .flush &&
    (r.op.parts r.key).any fun (a, m) => a / 8 ≤ (key + n - 1) / 8 && key / 8 ≤ (a + m - 1) / 8
/-- Whether a request is a PCIe AtomicOp, which the host performs. -/
def Req.atHost (r : Req) : Bool := kindOf r.key = .host && match r.op with
  | .amo .. => true
  | _ => false
/-- A thread's later access of a word follows its earlier writes of it (11 R309 "same word"): those are performed first. Messages to a peer
keep their order on the way. -/
def State.ownFirst (s : State) (c i key n : Nat) : State :=
  (s.ownHits c i key n).foldl (fun s (id, r) =>
    if r.atHost || keyPeer ≤ key then s
    -- one that a throttled row holds is performed later, and what follows it waits behind it (21 R437)
    else match s.holdFor (some id) r.fn r.here with
      | some t => s.holdAt { id := id, fn := r.fn, places := r.here } t
      | none =>
        if r.peers.isEmpty then (s.unhold id).perform id r
        else match r.op with
          -- of a store that also goes to a peer, the elements that lie here
          | .vstore es m v => { (s.unhold id).writeElems r es m v with reqs := s.reqs.put id { r with done := some 0 } }
          | _ => s) s

/-! ### Loads and stores (06 R146, R147) -/

/-- Write a loaded value: a whole cell, or an extended datum. -/
def State.writeLoad (s : State) (c i : Nat) (d : Opnd) (n : Nat) (signed tag : Bool) (v : Nat) : State :=
  if n = 16 then
    match d with
    | .s k => s.modTh c i (·.ws k.toNat ⟨BitVec.ofNat 128 v, tag⟩)
    | _ => s
  else s.writeD c i d (extend n signed v)
/-- Cancel an access to the own pool that loses a bank (01 R12). -/
def bankOr (s : State) (key n : Nat) (r : Res) : Res := if s.loses s.cur.1 key n then .cancel s else r
/-- Cancel an access of an incoming thread to a granule not yet exchanged (20 R411), hold one that touches a locked tile (01 R31), and cancel
one that loses a bank. -/
def tileOr (s : State) (key n : Nat) (r : Res) : Res :=
  if s.incoming s.cur.1 s.cur.2 && s.notYet key n then .cancel (s.want key n) else
  match s.lockedTile key n with
  | some (x, t) => .hold (.tile x t)
  | none => bankOr s key n r
/-- An access to words, each with a length, after the thread's own earlier writes of them; it is cancelled while the host has not performed an
AtomicOp of the thread on one of them. -/
def ownOr (s0 s : State) (c i : Nat) (ks : List (Nat × Nat)) (r : State → Res) : Res :=
  if ks.any fun (k, n) => (s.ownHits c i k n).any fun x => x.2.atHost then .cancel s0
  else r (ks.foldl (fun s (k, n) => s.ownFirst c i k n) s)
/-- Enter a request and park on its reply. -/
def parkOn (cp : BitVec 2) (s : State) (c i va key : Nat) (op : ReqOp) : Res :=
  let (s, id) := s.request c i va key op false cp
  .park s (.reply id)
/-- Enter a posted write; a 33rd is cancelled (06 R148). -/
def post (cp : BitVec 2) (s0 s : State) (c i va key : Nat) (op : ReqOp) : Res :=
  if 32 ≤ s.unacked c i then .cancel s0 else .ok (s.request c i va key op true cp).1

def loadBody (n : Nat) (signed : Bool) (f : Fields) : Body := fun s0 c i e =>
  let ea := eaOf f e
  tryKey (s0.resolve c i e.a [permRd] ea n n .load) fun s k =>
    let t := s.th c i
    if t.region.isSome then
      match t.regionForward f.d k n signed with
      | some (.ok (t, v)) =>
        let s := s.setTh c i t
        .ok (match f.d with
          | .k j => s.writeK c i j.toNat v
          | _ => s)
      | some (.error (a, b)) => .abort a b
      | none => ownOr s0 s c i [(k, n)] fun s => parkOn f.cp s c i ea k (.load n signed false f.d)
    else tileOr s k n (
      if ownPool c k then
        match s.poisonAt k n with
        | some j => .poison (ea + j)
        | none =>
          .ok ((s.access (s.payer c i) k n false).writeLoad c i f.d n signed (s.tagAt k && e.a.has permLdcap) (readNat s.mem k n))
      else ownOr s0 s c i [(k, n)] fun s => parkOn f.cp s c i ea k (.load n signed (e.a.has permLdcap) f.d))

/-- A release waits for the thread's writes (06 R149). -/
def relOr (s0 s : State) (c i : Nat) (f : Fields) (r : Res) : Res :=
  if 2 ≤ ordOf f && s.relWait c i (maskOf f) then .cancel s0 else r
def storeBody (n : Nat) (f : Fields) : Body := fun s0 c i e =>
  let ea := eaOf f e
  let perms := if n = 16 && e.c.tag then [permWr, permStcap] else [permWr]
  tryKey (s0.resolve c i e.a perms ea n n .store) fun s k =>
    let t := s.th c i
    if t.region.isSome then
      match t.bufferStore k n e.c.data (t.symOf f.c) with
      | .ok t => .ok (s.setTh c i t)
      | .error (a, b) => .abort a b
    else tileOr s k n (relOr s0 s c i f (
      let v := e.c.val.toNat % 2 ^ (8 * n)
      let tag := n = 16 && e.c.tag
      if ownPool c k then .ok ((s.access (s.payer c i) k n true).write (some (c, i)) k n v tag)
      else ownOr s0 s c i [(k, n)] fun s => post f.cp s0 s c i ea k (.store n (BitVec.ofNat 512 v) tag)))

def execLdB (f : Fields) (s : State) : Host.Outcome State Fault Refusal := .next (runThread (.ldB f) (loadBody 1 true) s)
def execLdH (f : Fields) (s : State) : Host.Outcome State Fault Refusal := .next (runThread (.ldH f) (loadBody 2 true) s)
def execLdW (f : Fields) (s : State) : Host.Outcome State Fault Refusal := .next (runThread (.ldW f) (loadBody 4 true) s)
def execLdD (f : Fields) (s : State) : Host.Outcome State Fault Refusal := .next (runThread (.ldD f) (loadBody 8 true) s)
def execLdC (f : Fields) (s : State) : Host.Outcome State Fault Refusal := .next (runThread (.ldC f) (loadBody 16 false) s)
def execLdBu (f : Fields) (s : State) : Host.Outcome State Fault Refusal := .next (runThread (.ldBu f) (loadBody 1 false) s)
def execLdHu (f : Fields) (s : State) : Host.Outcome State Fault Refusal := .next (runThread (.ldHu f) (loadBody 2 false) s)
def execLdWu (f : Fields) (s : State) : Host.Outcome State Fault Refusal := .next (runThread (.ldWu f) (loadBody 4 false) s)
def execStB (f : Fields) (s : State) : Host.Outcome State Fault Refusal := .next (runThread (.stB f) (storeBody 1) s)
def execStH (f : Fields) (s : State) : Host.Outcome State Fault Refusal := .next (runThread (.stH f) (storeBody 2) s)
def execStW (f : Fields) (s : State) : Host.Outcome State Fault Refusal := .next (runThread (.stW f) (storeBody 4) s)
def execStD (f : Fields) (s : State) : Host.Outcome State Fault Refusal := .next (runThread (.stD f) (storeBody 8) s)
def execStC (f : Fields) (s : State) : Host.Outcome State Fault Refusal := .next (runThread (.stC f) (storeBody 16) s)

/-! ### Vector loads and stores (06 R150, R151) -/

/-- Check every element in lane order, before any is accessed; their keys with their addresses. -/
def resolveAll (s : State) (c i : Nat) (cap : Reg) (perms : List Nat) (n : Nat) (acc : Acc) : List Nat → State × Except Stop (List (Nat × Nat))
  | [] => (s, .ok [])
  | ea :: es =>
    match s.resolve c i cap perms ea n n acc with
    | (s, .error x) => (s, .error x)
    | (s, .ok k) =>
      match resolveAll s c i cap perms n acc es with
      | (s, .error x) => (s, .error x)
      | (s, .ok l) => (s, .ok ((k, ea) :: l))
def tryKeys (x : State × Except Stop (List (Nat × Nat))) (f : State → List (Nat × Nat) → Res) : Res :=
  match x with
  | (s, .ok l) => f s l
  | (s, .error t) => t.res s
/-- vld and vst: the whole range first (06 R145), then its 8-byte words. -/
def tryWide (s : State) (c i : Nat) (cap : Reg) (perms : List Nat) (ea : Nat) (acc : Acc) (f : State → List (Nat × Nat) → Res) : Res :=
  tryKey (s.resolve c i cap perms ea 64 8 acc) fun s _ =>
    tryKeys (resolveAll s c i cap perms 8 acc ((List.range 8).map (ea + 8 * ·))) f
def firstKey (l : List (Nat × Nat)) : Nat := (l.headD (0, 0)).1
/-- The key by which a request of elements is routed: an element in peer memory, whose answer is awaited, if there is one. -/
def homeKey (l : List (Nat × Nat)) : Nat := ((l.map (·.1)).find? (keyPeer ≤ ·)).getD (firstKey l)
def tilesOr (s : State) (l : List (Nat × Nat)) (n : Nat) (r : Res) : Res :=
  if s.incoming s.cur.1 s.cur.2 && l.any fun (k, _) => s.notYet k n then .cancel (l.foldl (fun s (k, _) => s.want k n) s) else
  match l.findSome? fun (k, _) => s.lockedTile k n with
  | some (x, t) => .hold (.tile x t)
  | none => r
def vldBody (f : Fields) : Body := fun s0 c i e =>
  let ea := eaOf f e
  tryWide s0 c i e.a [permRd] ea .load fun s l =>
    let k := firstKey l
    tilesOr s l 8 (bankOr s k 64 (
      if ownPool c k then
        match s.poisonAt k 64 with
        | some j => .poison (ea + j)
        | none => .ok ((s.access (s.payer c i) k 64 false).modTh c i fun t =>
            match f.d with
            | .v n => t.wv n.toNat ⟨BitVec.ofNat 512 (readNat s.mem k 64), 0, 0⟩
            | _ => t)
      else ownOr s0 s c i (l.map fun x => (x.1, 8)) fun s => parkOn f.cp s c i ea (homeKey l) (.vload l 8 f.d)))
def vstBody (f : Fields) : Body := fun s0 c i e =>
  let ea := eaOf f e
  tryWide s0 c i e.a [permWr] ea .store fun s l =>
    let k := firstKey l
    let v := vregBits s c i f.c
    tilesOr s l 8 (bankOr s k 64 <| relOr s0 s c i f (
      if ownPool c k then .ok ((s.access (s.payer c i) k 64 true).write (some (c, i)) k 64 v.toNat)
      else ownOr s0 s c i (l.map fun x => (x.1, 8)) fun s => post f.cp s0 s c i ea (homeKey l) (.vstore l 8 v)))
/-- Loads by elements are performed by the bank units or homes, and park on any memory. -/
def elemLoad (f : Fields) (n : Nat) (addrs : List Nat) : Body := fun s0 c i e =>
  tryKeys (resolveAll s0 c i e.a [permRd] n .load addrs) fun s l =>
    tilesOr s l n (ownOr s0 s c i (l.map fun x => (x.1, n)) fun s => parkOn f.cp s c i (addrs.headD 0) (homeKey l) (.vload l n f.d))
/-- Stores by elements park when an element lies in a pool (01 R14); those to other memory are posted as any store is (06 R148). -/
def elemStore (f : Fields) (n : Nat) (addrs : List Nat) : Body := fun s0 c i e =>
  tryKeys (resolveAll s0 c i e.a [permWr] n .store addrs) fun s l =>
    tilesOr s l n (relOr s0 s c i f (ownOr s0 s c i (l.map fun x => (x.1, n)) fun s =>
      let op : ReqOp := .vstore l n (vregBits s c i f.c)
      if l.any fun x => x.1 < keyHbm then parkOn f.cp s c i (addrs.headD 0) (homeKey l) op
      else post f.cp s0 s c i (addrs.headD 0) (homeKey l) op))
/-- The register of gather offsets, tagged int32 or int64. -/
def withOffsets (f : Fields) (k : VReg → Body) : Body := fun s c i e =>
  let b : VReg := match f.b with
    | .v n => (s.th c i).rv n.toNat
    | _ => {}
  if b.tag = 3 || b.tag = 4 then k b s c i e else .trap ⟨0x08, 2, b.tag.setWidth 96, false⟩

def execVmVld (f : Fields) (s : State) : Host.Outcome State Fault Refusal := .next (runThread (.vmVld f) vldBody s)
def execVmVst (f : Fields) (s : State) : Host.Outcome State Fault Refusal := .next (runThread (.vmVst f) vstBody s)
def execVmVlds (f : Fields) (s : State) : Host.Outcome State Fault Refusal :=
  .next (runThread (.vmVlds f) (fun f s c i e => elemLoad f (strideSize f) (strideAddrs f e) s c i e) s)
def execVmVsts (f : Fields) (s : State) : Host.Outcome State Fault Refusal :=
  .next (runThread (.vmVsts f) (fun f s c i e => elemStore f (strideSize f) (strideAddrs f e) s c i e) s)
def execVmVgath (f : Fields) (s : State) : Host.Outcome State Fault Refusal :=
  .next (runThread (.vmVgath f) (fun f => withOffsets f fun b s c i e => elemLoad f (gatherSize b) (gatherAddrs f e b) s c i e) s)
def execVmVscat (f : Fields) (s : State) : Host.Outcome State Fault Refusal :=
  .next (runThread (.vmVscat f) (fun f => withOffsets f fun b s c i e => elemStore f (gatherSize b) (gatherAddrs f e b) s c i e) s)

/-! ### Full/empty operations (06 R152, R153) -/

/-- A full/empty operation reaches its controller: performed at once, held, or refused by a controller that holds 4,096. -/
def State.feArrive (s : State) (id : Nat) : State :=
  match s.reqs.look id with
  | none => s
  | some r =>
    match r.op with
    | .fe fn v _ _ =>
      match s.holdFor (some id) r.fn [(r.key, 8)] with
      | some t => s.holdAt { id := id, fn := r.fn, places := [(r.key, 8)] } t
      | none =>
      let s := s.unhold id
      let there := (s.feHeld.filter fun j => match s.reqs.look j with
        | some q => stackOf (hbmOff q.key) = stackOf (hbmOff r.key)
        | none => false).length
      if s.feGoes r fn then
        let s := s.access (some r.fn) r.key 8 true r.cp
        let s := ((s.fePerform id { r with refused := false } fn v).noteValue id).serveFe (r.key / 8) s.feHeld.length
        s.dueLater (.reply id)
      else if 4096 ≤ there then ({ s with reqs := s.reqs.put id { r with refused := true } } : State).dueLater (.feRetry id)
      else { s with reqs := s.reqs.put id { r with held := true, refused := false }, feHeld := s.feHeld ++ [id] }
    | _ => s
/-- Enter a request whose home acts on its arrival; `away` when the controller has not accepted it yet. -/
def State.enter (s : State) (c i va key : Nat) (op : ReqOp) (away : Bool := false) (cp : BitVec 2 := 0) : State × Nat :=
  let id := s.nextId
  let r : Req := { cell := c, slot := i, fn := s.fnOf c i, va := va, key := key, op := op, refused := away, cp := cp }
  ({ s with reqs := s.reqs.put id r, nextId := id + 1 }, id)
def fePerms (fn : Nat) : List Nat :=
  permFe :: ((if fn = 0 || fn = 1 || fn = 5 then [permRd] else []) ++ (if 1 ≤ fn && fn ≤ 4 then [permWr] else []))
def feBody (fn : Nat) (f : Fields) : Body := fun s0 c i e =>
  let ea := eaOf f e
  tryKey (s0.resolve c i e.a (fePerms fn) ea 8 8 .rmw) fun s k =>
    if !isHbm k then .fault s ⟨0x0C, 0, BitVec.ofNat 96 ea, false⟩
    else
      let rel := 1 ≤ fn && fn ≤ 4
      if rel && s.relWait c i 1 then .cancel s0
      else
        let op : ReqOp := .fe fn e.c.data f.d (BitVec.ofNat 3 f.m.toNat)
        let s := s.ownFirst c i k 8
        if fn = 3 || fn = 4 then post f.cp s0 s c i ea k op
        else
          -- it arrives at its controller as the other requests of a cycle do
          let (s, id) := s.enter c i ea k op true f.cp
          .park (s.dueLater (.feRetry id)) (.reply id)

def execFeLwf (f : Fields) (s : State) : Host.Outcome State Fault Refusal := .next (runThread (.feLwf f) (feBody 0) s)
def execFeLwfe (f : Fields) (s : State) : Host.Outcome State Fault Refusal := .next (runThread (.feLwfe f) (feBody 1) s)
def execFeSwe (f : Fields) (s : State) : Host.Outcome State Fault Refusal := .next (runThread (.feSwe f) (feBody 2) s)
def execFeSf (f : Fields) (s : State) : Host.Outcome State Fault Refusal := .next (runThread (.feSf f) (feBody 3) s)
def execFeCe (f : Fields) (s : State) : Host.Outcome State Fault Refusal := .next (runThread (.feCe f) (feBody 4) s)
def execFePeek (f : Fields) (s : State) : Host.Outcome State Fault Refusal := .next (runThread (.fePeek f) (feBody 5) s)

/-- A request that the controller has not accepted reaches it, or is made again. -/
def execFeRequestRetry (req : Nat) (s : State) : Host.Outcome State Fault Refusal :=
  match s.reqs.look req with
  | some r =>
    if r.dead then .next s
    else if r.held then .next (s.serveFe (r.key / 8) s.feHeld.length)
    else if r.refused then .next (s.feArrive req) else .next s
  | none => .next s

/-! ### Reserved pairs (06 R154, R155) -/

/-- Write the value that a read-modify-write returns (23 R466); in a replay it is held until it stands next (23 R467). -/
def State.returns (s : State) (c i : Nat) (d : Opnd) (v : W64) : State := (s.noteTh ephValue c i v).writeD c i d v
def returnsOr (s0 s : State) (c i : Nat) (d : Opnd) (v : W64) : Res :=
  if (s.th c i).pair = 2 || s.ephOk (s.partOf c i) ephValue c i v then .ok (s.returns c i d v) else .cancel s0

/-- The trap of a reserved pair outside pools and HBM (06 R144). -/
def pairKind (key : Nat) : Option Nat :=
  match kindOf key with
  | .host => some 0
  | .tier2 => some 1
  | .peer _ => some 2
  | _ => none
def lrBody (n : Nat) (f : Fields) : Body := fun s0 c i e =>
  let ea := eaOf f e
  tryKey (s0.resolve c i e.a [permRd] ea n n .rmw) fun s k =>
    match pairKind k with
    | some x => .fault s ⟨0x0D, x, BitVec.ofNat 96 ea, false⟩
    | none => tileOr s k n (
      if ownPool c k then
        if s.leased (k / 8) c i then .cancel s0
        else match s.poisonAt k n with
          | some j => .poison (ea + j)
          | none =>
            let s := (s.access (s.payer c i) k n false).lrHome (k / 8) c i true
            returnsOr s0 s c i f.d (extend n true (readNat s.mem k n))
      else parkOn f.cp (s.ownFirst c i k n) c i ea k (.lr n f.d))
def scBody (n : Nat) (f : Fields) : Body := fun s0 c i e =>
  let ea := eaOf f e
  tryKey (s0.resolve c i e.a [permWr] ea n n .rmw) fun s k =>
    match pairKind k with
    | some x => .fault s ⟨0x0D, x, BitVec.ofNat 96 ea, false⟩
    | none => tileOr s k n (relOr s0 s c i f (
      if ownPool c k then
        let (s, ok) := (s.access (s.payer c i) k n true).scHome c i k n e.c.data true
        returnsOr s0 s c i f.d (if ok then 0 else 1)
      else parkOn f.cp (s.ownFirst c i k n) c i ea k (.sc n e.c.data f.d)))
def execLrW (f : Fields) (s : State) : Host.Outcome State Fault Refusal := .next (runThread (.lrW f) (lrBody 4) s)
def execLrD (f : Fields) (s : State) : Host.Outcome State Fault Refusal := .next (runThread (.lrD f) (lrBody 8) s)
def execScW (f : Fields) (s : State) : Host.Outcome State Fault Refusal := .next (runThread (.scW f) (scBody 4) s)
def execScD (f : Fields) (s : State) : Host.Outcome State Fault Refusal := .next (runThread (.scD f) (scBody 8) s)

/-- A lease that has run its 1,024 cycles ends. -/
def execLrLeaseExpiry (word : Nat) (s : State) : Host.Outcome State Fault Refusal :=
  if s.leases.any (fun l => l.word = word && l.until_ ≤ s.cycle) then .next (s.endLease word) else .next s

/-! ### Atomics (06 R156, R157) -/

def amoBody (op : Nat) (dbl : Bool) (f : Fields) : Body := fun s0 c i e =>
  let n := if dbl then 8 else 4
  let ea := eaNoIndex f e
  tryKey (s0.resolve c i e.a [permAtom, permRd, permWr] ea n n .rmw) fun s k =>
    if kindOf k = .host && !(op = 0 || op = 8 || op = 9) then .fault s ⟨0x0D, 0, BitVec.ofNat 96 ea, false⟩
    else tileOr s k n (relOr s0 s c i f (
      let b := e.b.data
      let x := e.c.data
      if ownPool c k then
        match (s.access (s.payer c i) k n true).amoHome (some (c, i)) k n op b x with
        | (_, _, some j) => .poison (ea + j)
        | (s, old, none) => returnsOr s0 s c i f.d (extend n true old)
      else
        ownOr s0 s c i [(k, n)] fun s =>
          if isS0 f.d then post f.cp s0 s c i ea k (.amo op n b x f.d) else parkOn f.cp s c i ea k (.amo op n b x f.d)))
def execAmoAdd (dbl : Bool) (f : Fields) (s : State) : Host.Outcome State Fault Refusal := .next (runThread (.amoAdd dbl f) (amoBody 0 dbl) s)
def execAmoAnd (dbl : Bool) (f : Fields) (s : State) : Host.Outcome State Fault Refusal := .next (runThread (.amoAnd dbl f) (amoBody 1 dbl) s)
def execAmoOr (dbl : Bool) (f : Fields) (s : State) : Host.Outcome State Fault Refusal := .next (runThread (.amoOr dbl f) (amoBody 2 dbl) s)
def execAmoXor (dbl : Bool) (f : Fields) (s : State) : Host.Outcome State Fault Refusal := .next (runThread (.amoXor dbl f) (amoBody 3 dbl) s)
def execAmoMin (dbl : Bool) (f : Fields) (s : State) : Host.Outcome State Fault Refusal := .next (runThread (.amoMin dbl f) (amoBody 4 dbl) s)
def execAmoMax (dbl : Bool) (f : Fields) (s : State) : Host.Outcome State Fault Refusal := .next (runThread (.amoMax dbl f) (amoBody 5 dbl) s)
def execAmoMinu (dbl : Bool) (f : Fields) (s : State) : Host.Outcome State Fault Refusal := .next (runThread (.amoMinu dbl f) (amoBody 6 dbl) s)
def execAmoMaxu (dbl : Bool) (f : Fields) (s : State) : Host.Outcome State Fault Refusal := .next (runThread (.amoMaxu dbl f) (amoBody 7 dbl) s)
def execAmoSwap (dbl : Bool) (f : Fields) (s : State) : Host.Outcome State Fault Refusal := .next (runThread (.amoSwap dbl f) (amoBody 8 dbl) s)
def execAmoCas (dbl : Bool) (f : Fields) (s : State) : Host.Outcome State Fault Refusal := .next (runThread (.amoCas dbl f) (amoBody 9 dbl) s)

/-- A fence touches no memory; with release it waits as a release write does (06 R158). -/
def fenceBody (f : Fields) : Body := fun s c i _ => relOr s s c i f (.ok s)
def execFence (f : Fields) (s : State) : Host.Outcome State Fault Refusal := .next (runThread (.fence f) fenceBody s)

/-! ### Replies and acknowledgments (01 R14, 06 R148, R149; 20 R414) -/

/-- Write a datum to a scalar or message register of a thread. -/
def Thread.wd (t : Thread) (d : Opnd) (x : W64) : Thread :=
  match d with
  | .s n => t.ws n.toNat (dataReg x)
  | .m n => t.wm n.toNat { t.rm n.toNat with val := x, full := true }
  | _ => t
/-- What a reply writes into a thread. -/
def deliver (r : Req) (t : Thread) : Thread :=
  let v := (r.done.getD 0).toNat
  match r.op with
  | .load n signed _ d =>
    if t.region.isSome then t.regionLoad d ⟨r.key, r.va, n, signed, BitVec.ofNat 64 v⟩
    else if n = 16 then match d with
      | .s k => t.ws k.toNat ⟨BitVec.ofNat 128 v, r.full⟩
      | _ => t
    else t.wd d (extend n signed v)
  | .lr n d => t.wd d (extend n true v)
  | .sc _ _ d => t.wd d (BitVec.ofNat 64 v)
  | .amo _ n _ _ d => t.wd d (extend n true v)
  | .fe fn _ d p =>
    if fn = 0 || fn = 1 then t.wd d (BitVec.ofNat 64 v)
    else if fn = 5 then (t.wd d (BitVec.ofNat 64 v)).wp p.toNat r.full
    else t
  | .vload _ _ d =>
    match d with
    | .v n => t.wv n.toNat ⟨r.done.getD 0, 0, 0⟩
    | _ => t
  | _ => t
/-- Write a common register for the thread of slot i of a function, whose instruction issued earlier, in the bank of the function's threads. -/
def State.writeKFor (s : State) (c i fn k : Nat) (v : W64) : State :=
  let bank : Bool := match s.slicedAt c with
    | some p => fn = partVf1 s.layout.active p
    | none => false
  s.writeKAt c i bank k v (s.kDate c i)
/-- A destination in a common register is written for the thread's bank. -/
def State.deliverK (s : State) (c : Nat) (r : Req) : State :=
  let v := (r.done.getD 0).toNat
  match r.op with
  | .load n g _ (.k k) => s.writeKFor c r.slot r.fn k.toNat (extend n g v)
  | .lr n (.k k) | .amo _ n _ _ (.k k) => s.writeKFor c r.slot r.fn k.toNat (extend n true v)
  | .sc _ _ (.k k) => s.writeKFor c r.slot r.fn k.toNat (BitVec.ofNat 64 v)
  | .fe fn _ (.k k) _ => if fn = 0 || fn = 1 || fn = 5 then s.writeKFor c r.slot r.fn k.toNat (BitVec.ofNat 64 v) else s
  | _ => s
/-- Kill a thread wherever it is, for poison (22 R441). -/
def State.poisonHome (s : State) (r : Req) : State := s.killPoison r.cell r.slot r.pva
/-- A value that comes from a peer or from the host, which the device performs nothing for: it is noted when it arrives. -/
def Req.far (r : Req) : Bool := keyHost ≤ r.key && r.recorded.isSome
/-- The flush read behind a write to a peer, or to the host: a read message there, or a zero-length read on host port 0, which carries the
writes of every function that has threads (18 R362, R373, R377). -/
def State.flushRead (s : State) (r : Req) (dev : Option Nat) : State :=
  let at_ (a : Nat) : Bool := match dev with
    | some d => keyPeer ≤ a && peerDev a = d
    | none => kindOf a = .host
  let key := (((r.op.parts r.key).map (·.1)).find? at_).getD r.key
  let n := s.nextId
  let q : Req := { r with key := key, op := .flush, posted := true, done := some 0, held := false, got := [], fail := none, sent := s.cycle }
  let s : State := { s with reqs := s.reqs.put n q, nextId := n + 1 }
  match dev with
  | some _ => ((s.send (s.peerMsg n q key 1 0)).access (some r.fn) key 0 false).dueAt (s.cycle + 2 ^ 20) (.peerTimeout n)
  | none => (s.emitOut (.hostRead (key - keyHost) 0)).dueLater (.ack n)
/-- The flush reads that the ports issue behind a write to host or peer memory (06 R149). -/
def State.flushAfter (s : State) (r : Req) : State :=
  let stores : Bool := match r.op with
    | .store .. | .vstore .. | .amo .. => true
    | _ => false
  if !stores then s
  else
    let far := (((r.op.parts r.key).map (·.1)).filter fun a => keyHost ≤ a).map fun a => match kindOf a with
      | .peer d => some d
      | _ => none
    far.eraseDups.foldl (fun s dev => s.flushRead r dev) s
/-- A reply reaches its thread, or its image. -/
def State.replyTo (s : State) (id : Nat) (r : Req) : State :=
  let s := { s with reqs := s.reqs.put id r }
  if r.far && !s.mayReturn id then s.dueAt (s.cycle + 1) (.reply id)
  else
  let s := if r.far then s.noteValue id else s
  let s := { s with reqs := s.reqs.del id }
  let s := match r.op with
    | .vstore .. => s.flushAfter r
    | _ => s
  if r.dead then s
  else match s.home r.cell r.slot r.fn with
  | .gone => s
  | .live =>
    if (s.th r.cell r.slot).wait ≠ some (.reply id) then s
    else if r.poisoned then s.poisonHome r
    else ((s.deliverK r.cell r).modTh r.cell r.slot fun t => (deliver r t).complete).ready r.cell r.slot
  | .image key =>
    if r.poisoned then if poolKey 1024 0 ≤ key then s.killAway r.cell r.slot r.fn (some r.pva) else s.poisonHome r
    else (s.deliverK r.cell r).imageReply r.cell r.slot key (deliver r)
/-- Perform a request at its home if it was not before, or hold it: at a controller (21 R436), or in a replay until its value stands next
(23 R467). -/
def State.performOr (s : State) (id : Nat) (r : Req) : State × Bool :=
  match (if r.done.isNone then s.holdFor (some id) r.fn r.here else none) with
  | some t => (s.holdAt { id := id, fn := r.fn, places := r.here } t, false)
  | none =>
    if r.done.isSome then (s.unhold id, true)
    else
      let t := (s.unhold id).perform id r
      if t.mayReturn id then (t.noteValue id, true) else (s.dueAt (s.cycle + 1) (.reply id), false)
/-- The reply to a request: performed at its home if it was not before, and delivered. -/
def execMemoryReply (req : Nat) (s : State) : Host.Outcome State Fault Refusal :=
  match s.reqs.look req with
  | none => .next s
  | some r =>
    if r.held || r.refused || r.posted then .next s
    else match kindOf r.key, r.op with
    | .peer _, _ | .host, .amo .. => if r.far then .next (s.replyTo req r) else .next s
    | _, .commit _ => .next s
    | _, _ =>
      match s.performOr req r with
      | (s, false) => .next s
      | (s, true) =>
        match s.reqs.look req with
        | some r => if r.held then .next s else .next (s.replyTo req r)
        | none => .next s
/-- The requests that an own write still has after its acknowledgment: the flush read behind a write to host or peer memory. -/
def State.ackDone (s : State) (id : Nat) (r : Req) : State :=
  let s := { s with reqs := s.reqs.del id }
  match kindOf r.key, r.op with
  | _, .flush => s
  | _, _ => s.flushAfter r
def execWriteAck (req : Nat) (s : State) : Host.Outcome State Fault Refusal :=
  match s.reqs.look req with
  | none => .next s
  | some r =>
    if !r.posted then .next s
    else match kindOf r.key, r.op with
    | .peer _, .flush => .next (s.ackDone req r)
    | .peer _, _ => .next s
    | .host, .amo .. => .next s
    | _, _ =>
      match s.performOr req r with
      | (s, false) => .next s
      | (s, true) =>
        match s.reqs.look req with
        | some r =>
          if r.poisoned && !r.dead then .next ((s.ackDone req r).killPoison r.cell r.slot r.pva) else .next (s.ackDone req r)
        | none => .next s

end Sys2Proof.Machine
end

