-- ==== Sys2Proof/Machine/Atomic.lean ====
section
/-!
DEFINITION. The functions of atomic regions and the commit engine (06 R162-R169).
-/
namespace Sys2Proof.Machine

/-- Take the checkpoint and start the region; the reservation is lost (06 R154, R162). -/
def Thread.beginRegion (t : Thread) (target : Addr) (born : Nat) : Thread :=
  { t with
    region := some { target := target, ckS := t.s, ckShadow := t.shadow, ckP := t.p, ckL0 := t.l0, ckL1 := t.l1, born := born }
    icount := 0, lcount := 0, scount := 0, ccount := 0
    resvLost := t.resvLost || t.resv.isSome, resv := none }
/-- The `areg.begin` itself is not counted by its region (06 R163). -/
def aregBeginBody (f : Fields) : Body := fun s c i _ =>
  .set (((s.counted c i).modTh c i fun t => t.beginRegion (brTarget t.pc f) s.nextId).modTh c i Thread.advance)
/-- Registers, sends and the end of the region at a commit that succeeds. -/
def State.commitEnd (s : State) (c i : Nat) (g : Region) (d : Opnd) (fresh : List W64) : State :=
  ((s.commitRegs c i g d fresh).modTh c i (·.release g)).shiftReleased c i
def RBuf.isStore : RBuf → Bool
  | .store .. => true
  | .send .. => false
/-- The address that names a region's stack domain. -/
def Region.place0 (g : Region) : Nat × Nat :=
  match g.loads with
  | l :: _ => (l.key, l.va)
  | [] => ((g.buf.filterMap fun x => match x with
      | .store k _ _ _ => some (k, 0)
      | .send .. => none).headD (keyHbm, 0))
def aregCommitBody (f : Fields) : Body := fun s c i _ =>
  match (s.th c i).region with
  | none => .ok (s.writeD c i f.d 2)
  | some g =>
    if g.loads.isEmpty && !g.buf.any RBuf.isStore then
      .ok (((s.noteTh ephCommit c i 0).modTh c i fun t => { t with icount := t.icount + 1 }).commitEnd c i g f.d [])
    else
      let (s, id) := s.enter c i g.place0.2 g.place0.1 (.commit f.d)
      .park ((s.modTh c i fun t => { t with region := some { g with committing := true } }).dueLater (.commit c i)) (.reply id)
def aregAbortBody (_ : Fields) : Body := fun s c i e =>
  if (s.th c i).region.isSome then .set ((s.counted c i).abortTh c i 0x40 (0x80 + bits e.a.data 0 7)) else .ok s
/-- The word counts the `areg.stat` that reads it, which has issued (06 R163). -/
def aregStatBody (f : Fields) : Body := fun s c i _ =>
  let t := s.th c i
  .ok (s.writeD c i f.d ({ t with icount := t.icount + t.region.isSome.toNat }).statWord)

def execAregBegin (f : Fields) (s : State) : Host.Outcome State Fault Refusal := .next (runThread (.aregBegin f) aregBeginBody s)
def execAregCommit (f : Fields) (s : State) : Host.Outcome State Fault Refusal := .next (runThread (.aregCommit f) aregCommitBody s)
def execAregAbort (f : Fields) (s : State) : Host.Outcome State Fault Refusal := .next (runThread (.aregAbort f) aregAbortBody s)
def execAregStat (f : Fields) (s : State) : Host.Outcome State Fault Refusal := .next (runThread (.aregStat f) aregStatBody s)

/-! ### The commit engine (06 R166) -/

/-- The commit request on whose reply a thread is parked. -/
def State.commitOf (s : State) (c i : Nat) : Option (Nat × Req × Opnd) :=
  match (s.slot c i).state, (s.th c i).wait with
  | .parked, some (.reply id) =>
    match s.reqs.look id with
    | some r => match r.op with
      | .commit d => some (id, r, d)
      | _ => none
    | none => none
  | _, _ => none
/-- Reread the loads: the values and the lowest poisoned address. -/
def State.reread (s : State) (f : Nat) (ls : List RLoad) : State × List W64 × Option Nat :=
  ls.foldl (fun (s, vs, bad) l =>
    let s := s.access (some f) l.key l.size false
    let b := (s.poisonAt l.key l.size).map (l.va + ·)
    (s, vs ++ [BitVec.ofNat 64 (readNat s.mem l.key l.size)], match bad with
      | some a => some a
      | none => b)) (s, [], none)
/-- In lock mode the understudy takes the fresh values too (06 R168). -/
def State.commitLink (s : State) (c i : Nat) (g : Region) (fresh : List W64) : State :=
  if (s.th c i).pair = 1 then
    let l := s.link c i
    let vs := (g.loads.zip fresh).map fun (x, v) => (⟨x.va, v.setWidth 512, false⟩ : LVal)
    s.setLink c i { l with lvq := l.lvq ++ vs }
  else s
/-- The places that a commit accesses. -/
def Region.places (g : Region) : List (Nat × Nat) :=
  (g.loads.map fun l => (l.key, l.size)) ++ g.buf.filterMap fun
    | .store key size .. => some (key, size)
    | .send .. => none
/-- Whether a commit waits behind one that has reached the same engine before it (16 R353), unless a throttled row holds that one, or a write
before it, for another function (21 R437). -/
def State.commitBehind (s : State) (id : Nat) (r : Req) : Bool :=
  (s.commits.takeWhile (· != id)).any fun j => match s.reqs.look j with
    | none => false
    | some q => stackOf (hbmOff q.key) = stackOf (hbmOff r.key) && !q.dead &&
        !(q.fn ≠ r.fn && s.throttled.any fun h => h.id = j || (s.myWrites q.cell q.slot).any (·.1 = h.id))
/-- A commit reaches its engine, which performs commits one at a time in the order in which they reach it; it starts once the thread's earlier
writes are acknowledged (11 R315), and acts at one point. -/
def execCommitPerform (cell slot : Nat) (s : State) : Host.Outcome State Fault Refusal :=
  match s.commitOf cell slot, (s.th cell slot).region with
  | some (id, r, d), some g =>
    let l := s.commits.filter fun j => (s.reqs.look j).isSome
    let s : State := { s with commits := if l.contains id then l else l ++ [id] }
    if 0 < s.unacked cell slot || s.commitBehind id r then .next (s.dueAt (s.cycle + 1) (.commit cell slot))
    else match s.holdFor (some id) r.fn g.places with
    | some t => .next ((s.enlist { id := id, fn := r.fn, places := g.places }).dueAt t (.commit cell slot))
    | none =>
      let (s, fresh, bad) := (s.unhold id).reread r.fn g.loads
      match bad with
      | some va => .next (s.killPoison cell slot va)
      | none =>
        let s := ({ s with reqs := s.reqs.del id } : State).commitLink cell slot g fresh
        match g.fails fresh with
        | some j => .next ((s.abortTh cell slot 0x40 j).ready cell slot)
        | none =>
          let s := (s.noteTh ephCommit cell slot (g.commitD fresh)).commitStores r.fn cell slot g fresh
          .next (((s.commitEnd cell slot g d fresh).modTh cell slot Thread.complete).ready cell slot)
  | _, _ => .next s

end Sys2Proof.Machine
end

