-- ==== Sys2Proof/Machine/Barrier.lean ====
section
/-!
DEFINITION. Barrier objects (07 R192-R195).
-/
namespace Sys2Proof.Machine

/-- Whether a barrier completes at the end of a cycle. -/
def Barrier.complete? (b : Barrier) : Bool := (b.armArr ≠ 0 || b.armBytes ≠ 0) && b.armArr ≤ b.arr && b.bytes ≤ 0
def Barrier.complete (b : Barrier) : Barrier :=
  { b with arr := b.arr - b.armArr, bytes := b.bytes + b.armBytes, phase := !b.phase }
/-- Count arrivals and bytes (07 R195). -/
def Barrier.count (b : Barrier) (arr bytes : Nat) : Barrier :=
  { b with arr := min (b.arr + arr) 65535, fault := b.fault || 65535 < b.arr + arr, bytes := b.bytes - bytes
           nowArr := b.nowArr + arr, nowBytes := b.nowBytes + bytes }
/-- Arm a barrier; what came in this cycle is counted after the arm. -/
def Barrier.arm (b : Barrier) (arr bytes : Nat) : Barrier :=
  { b with armArr := arr, armBytes := bytes, arr := min b.nowArr 65535, bytes := bytes - b.nowBytes, fault := b.nowFault || 65535 < b.nowArr }
/-- The current state and the armed values as words (07 R192). -/
def Barrier.word (b : Barrier) : W64 :=
  w64 (b.bytes % 2 ^ 40 + (b.arr % 2 ^ 16) * 2 ^ 40 + b.fault.toNat * 2 ^ 62 + b.phase.toNat * 2 ^ 63)
def Barrier.armed (b : Barrier) : W64 :=
  BitVec.ofNat 64 (b.armBytes % 2 ^ 40 + b.armArr % 2 ^ 16 * 2 ^ 40 + b.fault.toNat * 2 ^ 62 + b.phase.toNat * 2 ^ 63)
def Cell.bar (x : Cell) (n : Nat) : Barrier := x.bars.at n {}
def Cell.setBar (x : Cell) (n : Nat) (b : Barrier) : Cell := { x with bars := x.bars.set n b {} }
def State.modBar (s : State) (c n : Nat) (g : Barrier → Barrier) : State := s.modCell c fun x => x.setBar n (g (x.bar n))
/-- The same for the tenant that a function is: the barrier may stand in the block of one that a switch has taken out (20 R412), where nothing
is armed in the cycle. -/
def State.modBarFor (s : State) (c fn n : Nat) (g : Barrier → Barrier) : State :=
  let one (idle : Bool) (m : SMap Barrier) : SMap Barrier :=
    let b := g (m.at n {})
    m.set n (if idle then { b with nowArr := 0, nowBytes := 0, nowFault := false } else b) {}
  match s.slicedAt c with
  | none => s.modBar c n g
  | some p => s.modTenant p c (fn = tenantFn s.layout.active p true) id id one
/-- Complete the parked instruction of a slot and set its ready bit. -/
def State.wake (s : State) (c i : Nat) : State := (s.modTh c i Thread.complete).ready c i
/-- The end of a cycle: complete the barriers of a cell that are due, wake their waiters, and forget what came in the cycle. -/
def State.barriers (s : State) (c : Nat) : State :=
  let s := ((s.cell c).bars.filter fun x => x.2.complete?).foldl (fun s (n, b) =>
    let s := s.modCell c (·.setBar n b.complete)
    (s.cell c).slots.foldl (fun s (i, y) =>
      match y.state, y.th.wait with
      | .parked, some (.barrier k ph) => if k = n && ph = b.phase then s.wake c i else s
      | _, _ => s) s) s
  s.modCell c fun x => { x with bars := x.bars.foldl (fun m (n, b) => SMap.set m n { b with nowArr := 0, nowBytes := 0, nowFault := false } {}) [] }

/-- The barrier of an ENG descriptor (03 R79). -/
def bobjOf (f : Fields) : Nat := bits f.imm 6 9
def barArmBody (f : Fields) : Body := fun s c _ e =>
  let a := e.a.data.toNat
  let b := e.b.data.toNat
  if 65535 < a || 2 ^ 39 ≤ b then .trap ⟨0x09, 0x32, s.openTval, false⟩
  else .ok (s.modBar c (bobjOf f) (·.arm a b))
def barArriveBody (f : Fields) : Body := fun s c i _ =>
  let n := bobjOf f
  let s' := s.writeD c i f.d (BitVec.ofNat 64 ((s.cell c).bar n).phase.toNat)
  if s.unacked c i = 0 then .ok (s'.modBar c n (·.count 1 0))
  else .ok ({ s' with arrivals := s'.arrivals ++ [(⟨c, i, s.fnOf c i, n, s'.nextId⟩ : Arrival)] }.dueLater (.barCount c i))
def barWaitBody (f : Fields) : Body := fun s c _ e =>
  let n := bobjOf f
  let ph := ((s.cell c).bar n).phase
  if ph != e.a.data.getLsbD 0 then .ok s else .park s (.barrier n ph)
def barStatBody (f : Fields) : Body := fun s c i _ =>
  let b := (s.cell c).bar (bobjOf f)
  .ok (s.writeD c i f.d (if f.m.getLsbD 0 then b.armed else b.word))

def execBarArm (f : Fields) (s : State) : Host.Outcome State Fault Refusal := .next (runThread (.barArm f) barArmBody s)
def execBarArrive (f : Fields) (s : State) : Host.Outcome State Fault Refusal := .next (runThread (.barArrive f) barArriveBody s)
def execBarWait (f : Fields) (s : State) : Host.Outcome State Fault Refusal := .next (runThread (.barWait f) barWaitBody s)
def execBarStat (f : Fields) (s : State) : Host.Outcome State Fault Refusal := .next (runThread (.barStat f) barStatBody s)

/-- Count the held arrivals of a slot whose earlier writes are acknowledged. -/
def execBarArrivalCount (cell slot : Nat) (s : State) : Host.Outcome State Fault Refusal :=
  let mine := s.arrivals.filter fun a => a.cell = cell && a.slot = slot
  let (wait, go) := mine.partition fun a => s.earlierOf a.cell a.slot a.fn a.below
  let s := { s with arrivals := s.arrivals.filter fun a => !go.contains a }
  let s := go.foldl (fun s a => s.modBarFor a.cell a.fn a.bar (·.count 1 0)) s
  .next (if wait.isEmpty then s else s.dueLater (.barCount cell slot))

end Sys2Proof.Machine
end

