-- ==== Sys2Proof/Machine/Capability.lean ====
section
/-!
DEFINITION. The capability instructions (04 R102-R104).
-/
namespace Sys2Proof.Machine

/-- Write a whole cell to D. -/
def writeC (f : Fields) (r : Reg) : Body := fun s c i _ =>
  match f.d with
  | .s n => .ok (s.modTh c i (·.ws n.toNat r))
  | _ => .ok s
/-- A must be tagged (04 R102). -/
def tagged (e : Env) (r : Res) : Res := if e.a.tag then r else .trap ⟨0x05, 0, e.a.val.setWidth 96, false⟩
def Reg.setAddr (r : Reg) (a : Nat) : Reg := { r with val := setBits r.val 0 48 a }
def Reg.andPerm (r : Reg) (m : Nat) : Reg := { r with val := setBits r.val 112 16 (r.perm &&& m) }
/-- `cap.bound` (04 R103): base at the address, the length rounded up to one that can be represented, within the parent. -/
def capBound (f : Fields) (len : Nat) : Body := fun s c i e => tagged e (
  let a := e.a
  let size := capMan len * 2 ^ capExp len
  if a.addr < a.base || a.top < a.addr + size then .trap ⟨0x07, 0, BitVec.ofNat 96 len, false⟩
  else
    let r : Reg := { a with val := setBits (setBits (setBits a.val 48 48 a.addr) 96 10 (capMan len)) 106 6 (capExp len) }
    match writeC f r s c i e with
    | .ok s => .ok (s.modTh c i (·.wp (f.m.toNat % 8) (size ≠ len)))
    | x => x)

def execCapBound (f : Fields) (s : State) : Host.Outcome State Fault Refusal := .next (runThread (.capBound f) (fun f s c i e => capBound f e.b.data.toNat s c i e) s)
def execCapPerm (f : Fields) (s : State) : Host.Outcome State Fault Refusal := .next (runThread (.capPerm f) (fun f s c i e => tagged e (writeC f (Reg.andPerm e.a (bits e.b.data 0 16)) s c i e)) s)
def execCapSetaddr (f : Fields) (s : State) : Host.Outcome State Fault Refusal := .next (runThread (.capSetaddr f) (fun f s c i e => tagged e (writeC f (Reg.setAddr e.a (bits e.b.data 0 48)) s c i e)) s)
def execCapIncaddr (f : Fields) (s : State) : Host.Outcome State Fault Refusal := .next (runThread (.capIncaddr f) (fun f s c i e => tagged e (writeC f (Reg.setAddr e.a (e.a.addr + e.b.data.toNat)) s c i e)) s)
def execCapGetbase (f : Fields) (s : State) : Host.Outcome State Fault Refusal := .next (runThread (.capGetbase f) (fun f s c i e => .ok (s.writeD c i f.d (BitVec.ofNat 64 e.a.base))) s)
def execCapGetlen (f : Fields) (s : State) : Host.Outcome State Fault Refusal := .next (runThread (.capGetlen f) (fun f s c i e => .ok (s.writeD c i f.d (BitVec.ofNat 64 (min e.a.len (2 ^ 48 - e.a.base))))) s)
def execCapGetperm (f : Fields) (s : State) : Host.Outcome State Fault Refusal := .next (runThread (.capGetperm f) (fun f s c i e => .ok (s.writeD c i f.d (BitVec.ofNat 64 e.a.perm))) s)
def execCapTagtest (f : Fields) (s : State) : Host.Outcome State Fault Refusal := .next (runThread (.capTagtest f) (fun f s c i e => setP f e.a.tag s c i e) s)
def execCapClear (f : Fields) (s : State) : Host.Outcome State Fault Refusal := .next (runThread (.capClear f) (fun f s c i e => writeC f { e.a with tag := false } s c i e) s)
def execCapBoundI (f : Fields) (s : State) : Host.Outcome State Fault Refusal := .next (runThread (.capBoundI f) (fun f s c i e => capBound f (f.imm.toNat % 2 ^ 32) s c i e) s)
def execCapPermI (f : Fields) (s : State) : Host.Outcome State Fault Refusal := .next (runThread (.capPermI f) (fun f s c i e => tagged e (writeC f (Reg.andPerm e.a (bits f.imm 0 16)) s c i e)) s)
def execCapIncaddrI (f : Fields) (s : State) : Host.Outcome State Fault Refusal := .next (runThread (.capIncaddrI f) (fun f s c i e => tagged e (writeC f (Reg.setAddr e.a (e.a.addr + (imm32 f).toNat)) s c i e)) s)

end Sys2Proof.Machine
end

