-- ==== Sys2Proof/Machine/Engine.lean ====
section
/-!
DEFINITION. What the engines of a cell share (07 R179-R183, R190): operation records and their completion objects, tile locks, the reads and
writes of an operation, its faults and its end.
-/
namespace Sys2Proof.Machine

/-! ### Descriptor fields (03 R79) -/

def ctagOf (f : Fields) : Nat := bits f.imm 0 6
def cselOf (f : Fields) : Bool := f.imm.getLsbD 15
def tileOf (f : Fields) : Nat := bits f.imm 16 8
def mregOf (f : Fields) : Nat := bits f.imm 24 4

/-- The completion object; a copy into a pool signals a barrier of the cell that owns the pool (07 R180). -/
def State.complOf (s : State) (f : Fields) (c i : Nat) (dst : Option Nat) : Compl :=
  if cselOf f then
    let b := match dst with
      | some d => if d / 2 ^ 44 % 16 = 15 then (physOf (s.partOf c i) (d / 2 ^ 34 % 2 ^ 10)).getD c else c
      | none => c
    .bar b (bobjOf f)
  else .tag c (ctagOf f)
/-- Whether a copy tag can take one more operation (07 R181). -/
def State.tagRoom (s : State) (f : Fields) (c : Nat) : Bool := cselOf f || (s.cell c).tcount.at (ctagOf f) 0 < 255
def isCopy : OpKind → Bool
  | .lin .. | .copy .. | .gather .. | .copyMx .. => true
  | _ => false
/-- Copies outstanding in a cell; a `cp.mx` counts until its command enters the array's queue. -/
def State.copies (s : State) (c : Nat) : Nat :=
  (s.ops.filter fun (id, o) => o.cell = c && isCopy o.kind && !o.held && !(s.cell c).mxq.contains id).length

/-! ### Checks at issue (07 R179) -/

/-- A capability over a range, with its address space (R23 and step 3 of R145); no rule gives the `tval` of the R23 faults of a command. -/
def State.engCheck (s : State) (c i : Nat) (r : Reg) (perms : List Nat) (addr size : Nat) : Option Trap :=
  match capCheckOpen s.openTval r perms addr size with
  | some x => some x
  | none =>
    if size = 0 then none
    else match s.space c i ((s.th c i).mode = .user) addr size with
      | .error x => some x
      | .ok _ => none
/-- Tag and permissions alone, for an empty range or one known only later. -/
def permCheck (tv : W96) (r : Reg) (perms : List Nat) : Option Trap :=
  if !r.tag then some ⟨0x05, 0, tv, false⟩
  else if !(perms.all r.has) then some ⟨0x06, 0, tv, false⟩ else none
/-- The first fault of a list of checks. -/
def firstTrap (l : List (Option Trap)) : Option Trap := l.findSome? id
def permSrc : List Nat := [permRd, permEng]
def permDst : List Nat := [permWr, permEng]

/-! ### Tile locks (01 R31) -/

def Cell.lock (x : Cell) (t : Nat) : Cell := { x with locks := x.locks.put t (x.locks.at t 0 + 1) }
/-- Release one lock of a tile; the threads held by it issue again. -/
def State.unlock (s : State) (c t : Nat) : State :=
  let n := (s.cell c).locks.at t 0
  if n ≤ 1 then
    let s := s.modCell c fun x => { x with locks := x.locks.del t }
    s.allSlots.foldl (fun s (d, i, y) => if y.th.wait = some (.tile c t) then (s.ready d i).modTh d i fun t => { t with again := true } else s) s
  else s.modCell c fun x => { x with locks := x.locks.put t (n - 1) }

/-! ### Copy tags (07 R190, R191) -/

/-- What a wait on tags yields when its condition holds. -/
def tagResult (done mask : W64) (all : Bool) : Option W64 :=
  let v := done &&& mask
  if all then if v = mask then some mask else none
  else if v ≠ 0 || mask = 0 then some v else none
/-- Wake the waiters of a cell whose tags are done. -/
def State.wakeTags (s : State) (c : Nat) : State :=
  (s.cell c).slots.foldl (fun s (i, y) =>
    match y.state, y.th.wait with
    | .parked, some (.tags all m d) =>
      match tagResult (s.cell c).tdone m all with
      | some v => (s.writeD c i d v).wake c i
      | none => s
    | _, _ => s) s
/-- An operation names its tag at issue. -/
def State.claim (s : State) (k : Compl) : State :=
  match k with
  | .tag c n => s.modCell c fun x =>
      { x with tcount := x.tcount.set n (x.tcount.at n 0 + 1) 0, tdone := setBits x.tdone n 1 0 }
  | .bar .. => s
/-- The completion, with its failure (07 R180, R190, R192, R195). -/
def State.signal (s : State) (k : Compl) (failed : Option (Nat × Nat × Nat)) : State :=
  match k with
  | .bar c n => s.modBar c n fun b => { b with fault := b.fault || failed.isSome, nowFault := b.nowFault || failed.isSome }.count 1 0
  | .tag c n =>
    let s := s.modCell c fun x =>
      let left := x.tcount.at n 0 - 1
      let x := { x with tcount := x.tcount.set n left 0, tdone := if left = 0 then setBits x.tdone n 1 1 else x.tdone }
      match failed with
      | some (cause, detail, addr) =>
        { x with tfail := setBits x.tfail n 1 1
                 trec := x.trec.set n (BitVec.ofNat 64 (cause % 256 + detail % 256 * 2 ^ 8 + addr % 2 ^ 48 * 2 ^ 16)) 0 }
      | none => x
    s.wakeTags c

/-! ### The start and the end of an operation -/

/-- Enter an operation record under its number; its completion object is claimed and its tile locked. -/
def State.startOp (s : State) (o : Op) : State × Nat :=
  let id := s.nextId
  let s := match o.kind with
    | .mma m | .copyMx _ _ _ _ _ _ m => s.note o.part ephSeed o.cell o.slot (m.seed.setWidth 64)
    | _ => s
  let s := ({ s with ops := s.ops.put id o, nextId := id + 1 } : State).claim o.compl
  (match o.tile with
    | some t => s.modCell o.cell (·.lock t)
    | none => s, id)
/-- A record with what every operation captures of its issuer. -/
def State.newOp (s : State) (c i : Nat) (k : OpKind) (compl : Compl) (tile : Option Nat) (cp : BitVec 2) : Op :=
  let t := s.th c i
  { cell := c, slot := i, fn := s.fnOf c i, part := s.partOf c i, group := (s.slot c i).bind.map (·.group), asid := t.asid,
    user := t.mode = .user, kind := k, compl := compl, tile := tile, cp := cp
    held := s.leaves (s.partOf c i) (s.fnOf c i) }
def State.op (s : State) (id : Nat) : Option Op := s.ops.look id
def State.setOp (s : State) (id : Nat) (o : Op) : State := { s with ops := s.ops.put id o }
/-- Whether an operation can go on now: it is neither stopped by a fault nor with its partition, nor waiting for a peer, nor at its end. -/
def Op.runs (o : Op) : Bool := o.stop.isNone && o.fault.isNone && o.peer.isNone && !o.held && !o.finished
/-- The first access of an operation follows every earlier write of its thread (11 R315). -/
def State.opWaits (s : State) (id : Nat) (o : Op) : Bool := !o.started && s.earlier o.cell o.slot id
/-- What a copy's completion records (23 R466): tag and the count left. -/
def State.doneData (s : State) (k : Compl) : Option (Nat × W64) :=
  match k with
  | .tag c n => some (c, BitVec.ofNat 64 (n + ((s.cell c).tcount.at n 0 - 1) * 2 ^ 6))
  | .bar .. => none
/-- The operation has done its work, or has failed: the completion step follows. -/
def State.opEnd (s : State) (id : Nat) (o : Op) (failed : Option (Nat × Nat × Nat)) : State :=
  (s.setOp id { o with finished := true, failed := failed.orElse fun _ => o.failed }).dueNow (.completion id)
/-- Bytes of a copy have landed: its barrier counts them (07 R189), also one that a slice switch has taken out with its tenant (20 R412). -/
def State.countBytes (s : State) (o : Op) (n : Nat) : State :=
  match o.compl with
  | .bar c b => s.modBarFor c o.fn b (·.count 0 n)
  | .tag .. => s
/-- Stop at a failed translation; the record step follows (07 R183). -/
def State.opStop (s : State) (id : Nat) (o : Op) (acc va : Nat) : State := (s.setOp id { o with stop := some (acc, va) }).dueNow (.faultRecord id)
/-- Whether the issuing thread still holds its slot (07 R203). -/
def State.issuerLives (s : State) (o : Op) : Bool :=
  let y := s.slot o.cell o.slot
  y.state != .empty && y.state != .dead && y.bind.map (·.group) = o.group

/-! ### Accesses of an operation -/

/-- The outcome of one access: a value with its poison, a failed translation, another address fault, the wait for a peer or a controller whose
end makes the operation go on, or a walk that waits until a cycle. -/
inductive EngRes (α : Type) where
  | ok (s : State) (v : α)
  | stop (s : State) (acc va : Nat)
  | bad (x : Trap)
  | wait (s : State)
  | held (s : State) (t : Nat)
def EngRes.bind {α β : Type} (r : EngRes α) (f : State → α → EngRes β) : EngRes β :=
  match r with
  | .ok s v => f s v
  | .stop s a v => .stop s a v
  | .bad x => .bad x
  | .wait s => .wait s
  | .held s t => .held s t
/-- Translate `n` bytes that lie in one page. -/
def engKey (s : State) (o : Op) (va n : Nat) (acc : Acc) (launch : Bool := false) : EngRes Nat :=
  match s.spaceOf o.part o.cell o.user va n with
  | .error x => .bad x
  | .ok (some k) => .ok s k
  | .ok none =>
    match s.translate (some o.fn) o.cell o.asid.toNat va acc o.user launch with
    | (s, .ok k) => .ok s k
    | (s, .fault) => .stop s acc.num va
    | (s, .held t) => .held s t
/-- Ask a peer for bytes (18 R380). -/
def State.fetchPeer (s : State) (id : Nat) (o : Op) (va key n : Nat) : State :=
  let (s, r) := s.requestFn (some id) o.fn o.cell o.slot va key (.load n false false (.s 0)) false o.cp
  s.setOp id { o with peer := some r }
/-- A throttled access waits at the controller (21 R436), and one to a granule not yet exchanged for its granule (20 R411). -/
def State.engHeld (s : State) (id : Nat) (o : Op) (key n : Nat) : Option State :=
  if s.notYet key n then some ((s.want key n).dueLater (o.work id))
  else match s.holdFor (some id) o.fn [(key, n)] with
    | some t => some ((s.enlist { id := id, fn := o.fn, places := [(key, n)] }).dueAt t (o.work id))
    | none => none
/-- The operation goes on when a walk of its access no longer waits. -/
def EngRes.at {α : Type} (r : EngRes α) (id : Nat) (o : Op) : EngRes α :=
  match r with
  | .held s t => .wait (s.dueAt t (o.work id))
  | r => r
/-- Read up to 64 bytes that lie in one aligned segment, at one instant (07 R189, R201): the value and the bytes that are poisoned. -/
def engRead (s : State) (id : Nat) (o : Op) (va n : Nat) : EngRes (Nat × List Nat) :=
  ((engKey s o va n .load).at id o).bind fun s k =>
    match kindOf k with
    | .peer _ =>
      match o.fetched.find? fun x => x.1 = k with
      | some (_, v) => .ok s (v.toNat % 2 ^ (8 * n), [])
      | none => .wait (s.fetchPeer id o va k n)
    | _ =>
      match s.engHeld id o k n with
      | some s => .wait s
      | none =>
      let s := ((s.unhold id).access (some o.fn) k n false o.cp).useBanks o.cell k n
      -- a read through a second-tier port whose link is down returns poison (18 R375)
      if s.linkDown k then .ok (s.linkErr k) (readNat s.mem k n, List.range n)
      else .ok s (readNat s.mem k n, (List.range n).filter fun j => s.poison.contains ((k + j) / 4))
/-- Write up to 64 bytes that lie in one aligned segment; `bad` tells which bytes carry poison (22 R440). -/
def engWrite (s : State) (id : Nat) (o : Op) (va n v : Nat) (bad : List Nat) : EngRes Unit :=
  ((engKey s o va n .store).at id o).bind fun s k =>
    match kindOf k with
    | .peer _ =>
      .ok (s.requestFn (some id) o.fn o.cell o.slot va k (.store n (BitVec.ofNat 512 v) false) true).1 ()
    | _ =>
      match s.engHeld id o k n with
      | some s => .wait s
      | none =>
      let down := s.linkDown k
      let s := (((s.unhold id).access (some o.fn) k n true o.cp).useBanks o.cell k n).writeHome none k n v false (!bad.isEmpty && kindOf k = .host)
      if down then .ok s () else .ok { s with poison := bad.foldl (fun l j => (s.unitPlaces (k + j) 1 false).foldl setAdd l) s.poison } ()
/-- Read `n` bytes, segment by segment; the poison of any. -/
def engReadAll (s : State) (id : Nat) (o : Op) (va : Nat) : Nat → Nat → EngRes (Nat × Bool)
  | 0, _ => .ok s (0, false)
  | fuel + 1, n =>
    if n = 0 then .ok s (0, false)
    else
      let k := min n (64 - va % 64)
      (engRead s id o va k).bind fun s (v, bad) =>
        (engReadAll s id o ((va + k) % 2 ^ 48) fuel (n - k)).bind fun s (w, b) => .ok s (v + 2 ^ (8 * k) * w, !bad.isEmpty || b)

/-! ### Engine faults (20 R426) -/

/-- The access number and address of a fault, and the kind of its record, of an operation, rope command or stage-queue spill. -/
def State.stopped (s : State) (id : Nat) : Option (Nat × Nat × Nat × Nat × Nat × Nat × Nat) :=
  match s.ops.look id, s.cmds.look id with
  | some o, _ => if o.fault.isSome then none else o.stop.map fun (a, v) => (if isCopy o.kind && !o.chain then 1 else 2, a, v, o.fn, o.cell, o.slot, o.asid.toNat)
  | none, some r => if r.fault.isSome then none else r.stop.map fun (a, v) => (3, a, v, r.fn, r.cell, r.slot, r.asid.toNat)
  | none, none =>
    (s.spills.look id).bind fun x => if x.fault.isSome then none else x.stop.map fun (a, v) => (4, a, v, x.fn, x.cell, x.slot, x.asid.toNat)

end Sys2Proof.Machine
end

