-- ==== Sys2Proof/Machine/Vector.lean ====
section
/-!
DEFINITION. The vector instructions (05 R120-R135): lanes and format checks, lanewise arithmetic, permutations, reductions and scans,
transcendentals, and conversion between lane formats with the narrow formats of 02 R51-R57.
-/
namespace Sys2Proof.Machine

/-! ### Lanes (05 R122) -/

/-- elements(T) of a tag; a raw register counts as 64 lanes of 8 bits. -/
def elements (tag : Nat) : Nat :=
  match tag with
  | 0 | 1 | 9 | 10 => 64
  | 2 | 5 | 6 => 32
  | 3 | 7 => 16
  | 4 | 8 => 8
  | 11 => 128
  | 12 => 512
  | _ => 1
def laneWidth (tag : Nat) : Nat := 512 / elements tag
def isInt (tag : Nat) : Bool := 1 ≤ tag && tag ≤ 4
def isFloat (tag : Nat) : Bool := 5 ≤ tag && tag ≤ 8
/-- The lanes of a register of a tag, lowest first. -/
def lanes (w : Nat) (x : W512) : List Nat := (List.range (512 / w)).map fun i => bits x (w * i) w
def joinLanes (w : Nat) : List Nat → Nat
  | [] => 0
  | x :: xs => x % 2 ^ w + 2 ^ w * joinLanes w xs
def ofLanes (w : Nat) (l : List Nat) : W512 := BitVec.ofNat 512 (joinLanes w l)

/-! ### Results and format faults (05 R123) -/

def State.vreg (s : State) (c i : Nat) (o : Opnd) : VReg :=
  match o with
  | .v n => (s.th c i).rv n.toNat
  | _ => {}
def VReg.t (r : VReg) : Nat := r.tag.toNat
/-- The format fault for operand `k` (0 D, 1 A, 2 B, 3 C) with its tag in tval. -/
def fmtFault (k tag : Nat) : Res := .trap ⟨0x08, k, BitVec.ofNat 96 tag, false⟩
def State.writeV (s : State) (c i : Nat) (d : Opnd) (r : VReg) : State :=
  match d with
  | .v n => s.modTh c i (·.wv n.toNat r)
  | _ => s
def vres (f : Fields) (s : State) (c i : Nat) (tag : Nat) (b : W512) (g : Flags) (scale : W64 := 0) : Res :=
  .ok ((s.modTh c i (·.flag g)).writeV c i f.d ⟨b, BitVec.ofNat 4 tag, scale⟩)
/-- Collect the lanes and the sticky flags of lane results. -/
def gather (l : List (Nat × Flags)) : List Nat × Flags := (l.map (·.1), l.foldl (fun g x => g ||| x.2) 0)

/-! ### Lanewise arithmetic (05 R124, R125) -/

def uBit (f : Fields) : Bool := f.m.getLsbD 0
def satBit (f : Fields) : Bool := f.m.getLsbD 1
def laneInt (u : Bool) (w x : Nat) : Int := if u then x else sext w x
/-- Wrap or clamp an exact integer result. -/
def laneOut (sat u : Bool) (w : Nat) (x : Int) : Nat :=
  let lo : Int := if u then 0 else -(2 ^ (w - 1))
  let hi : Int := if u then 2 ^ w - 1 else 2 ^ (w - 1) - 1
  let y := if sat then max lo (min hi x) else x
  (y % 2 ^ w).toNat
/-- A function of two lanes: on integers exact, on floats by the scalar function. -/
def lane2 (f : Fields) (tag rnd : Nat) (gi : Int → Int → Int) (gf : Fmt → Nat → Nat → Nat → Nat × Flags) (a b : Nat) : Nat × Flags :=
  let w := laneWidth tag
  if isFloat tag then gf (fmtOf tag) rnd a b else (laneOut (satBit f) (uBit f) w (gi (laneInt (uBit f) w a) (laneInt (uBit f) w b)), 0)
def vec2 (gi : Int → Int → Int) (gf : Fmt → Nat → Nat → Nat → Nat × Flags) (f : Fields) : Body := fun s c i _ =>
  let a := s.vreg c i f.a
  let b := s.vreg c i f.b
  if !(isInt a.t || isFloat a.t) then fmtFault 1 a.t
  else if b.t ≠ a.t then fmtFault 2 b.t
  else
    let w := laneWidth a.t
    let (l, g) := gather (List.zipWith (lane2 f a.t (s.th c i).rnd gi gf) (lanes w a.bits) (lanes w b.bits))
    vres f s c i a.t (ofLanes w l) g
/-- abs and neg: on floats the sign bit only. -/
def vec1 (gi : Int → Int) (gf : Nat → Nat → Nat) (f : Fields) : Body := fun s c i _ =>
  let a := s.vreg c i f.a
  if !(isInt a.t || isFloat a.t) then fmtFault 1 a.t
  else
    let w := laneWidth a.t
    let one (x : Nat) : Nat := if isFloat a.t then gf w x else laneOut (satBit f) (uBit f) w (gi (laneInt (uBit f) w x))
    vres f s c i a.t (ofLanes w ((lanes w a.bits).map one)) 0
def vecFma (f : Fields) : Body := fun s c i _ =>
  let a := s.vreg c i f.a
  let b := s.vreg c i f.b
  let d := s.vreg c i f.c
  if !(isInt a.t || isFloat a.t) then fmtFault 1 a.t
  else if b.t ≠ a.t then fmtFault 2 b.t
  else if d.t ≠ a.t then fmtFault 3 d.t
  else
    let w := laneWidth a.t
    let u := uBit f
    let one (x y z : Nat) : Nat × Flags :=
      if isFloat a.t then (fmtOf a.t).ffma (s.th c i).rnd x y z
      else (laneOut (satBit f) u w (laneInt u w x * laneInt u w y + laneInt u w z), 0)
    let (l, g) := gather ((List.zip (lanes w a.bits) (List.zip (lanes w b.bits) (lanes w d.bits))).map fun (x, y, z) => one x y z)
    vres f s c i a.t (ofLanes w l) g

/-! ### Bits, shifts, compares, selection (05 R126-R130) -/

def vecBits (g : W512 → W512 → W512) (f : Fields) : Body := fun s c i _ =>
  let a := s.vreg c i f.a
  let b := s.vreg c i f.b
  let ok (t : Nat) : Bool := t ≤ 8 || t = 12
  if !ok a.t then fmtFault 1 a.t
  else if !ok b.t || (a.t ≠ b.t && a.t ≠ 0 && b.t ≠ 0) then fmtFault 2 b.t
  else vres f s c i (if a.t = 0 then b.t else a.t) (g a.bits b.bits) 0
/-- One lane shifted by k modulo its width. -/
def laneShl (w x k : Nat) : Nat := x * 2 ^ (k % w) % 2 ^ w
def laneShr (u : Bool) (w x k : Nat) : Nat := if u then x / 2 ^ (k % w) else (sext w x / 2 ^ (k % w) % 2 ^ w).toNat
def vecShift (g : Nat → Nat → Nat → Nat) (f : Fields) : Body := fun s c i _ =>
  let a := s.vreg c i f.a
  let b := s.vreg c i f.b
  if !isInt a.t then fmtFault 1 a.t
  else if b.t ≠ a.t then fmtFault 2 b.t
  else
    let w := laneWidth a.t
    vres f s c i a.t (ofLanes w (List.zipWith (g w) (lanes w a.bits) (lanes w b.bits))) 0
def vecShiftI (g : Nat → Nat → Nat → Nat) (f : Fields) : Body := fun s c i _ =>
  let a := s.vreg c i f.a
  if !isInt a.t then fmtFault 1 a.t
  else
    let w := laneWidth a.t
    vres f s c i a.t (ofLanes w ((lanes w a.bits).map fun x => g w x (f.imm.toNat % 64))) 0
/-- A relation of two lanes with its flag (05 R127): 0 eq, 1 ne, 2 lt, 3 le, 4 un. -/
def laneCmp (tag : Nat) (u : Bool) (rel a b : Nat) : Bool × Flags :=
  if isFloat tag then
    let fm := fmtOf tag
    if rel = 0 then fm.fcmp 0 a b
    else if rel = 1 then
      let (r, g) := fm.fcmp 0 a b
      (!r, g)
    else fm.fcmp (rel - 1) a b
  else
    let w := laneWidth tag
    let x := laneInt u w a
    let y := laneInt u w b
    (if rel = 0 then x = y else if rel = 1 then x ≠ y else if rel = 2 then x < y else x ≤ y, 0)
def vecCmp (f : Fields) : Body := fun s c i _ =>
  let a := s.vreg c i f.a
  let b := s.vreg c i f.b
  let rel := f.m.toNat / 16
  if !(isInt a.t || isFloat a.t) || (rel = 4 && !isFloat a.t) then fmtFault 1 a.t
  else if b.t ≠ a.t then fmtFault 2 b.t
  else
    let w := laneWidth a.t
    let rs := List.zipWith (laneCmp a.t (uBit f) rel) (lanes w a.bits) (lanes w b.bits)
    vres f s c i 12 (ofLanes 1 (rs.map fun r => r.1.toNat)) (rs.foldl (fun g r => g ||| r.2) 0)
def vecSel (f : Fields) : Body := fun s c i _ =>
  let a := s.vreg c i f.a
  let b := s.vreg c i f.b
  let m := s.vreg c i f.c
  if 8 < a.t then fmtFault 1 a.t
  else if b.t ≠ a.t then fmtFault 2 b.t
  else if m.t ≠ 12 then fmtFault 3 m.t
  else
    let w := laneWidth a.t
    let l := (List.range (elements a.t)).map fun k => if m.bits.getLsbD k then bits a.bits (w * k) w else bits b.bits (w * k) w
    vres f s c i a.t (ofLanes w l) 0
def vecBcast (f : Fields) : Body := fun s c i e =>
  let tag := f.m.toNat % 16
  let w := laneWidth tag
  vres f s c i tag (ofLanes w (List.replicate (elements tag) e.a.data.toNat)) 0
/-- Lanes of 32 bits or fewer take imm32's low bits, int64 lanes its sign extension, fp64 lanes imm32 in their upper half. -/
def vecBcastI (f : Fields) : Body := fun s c i _ =>
  let tag := f.m.toNat % 16
  let w := laneWidth tag
  let x := f.imm.toNat % 2 ^ 32
  let v := if tag = 4 then (imm32 f).toNat else if tag = 8 then x * 2 ^ 32 else x
  vres f s c i tag (ofLanes w (List.replicate (elements tag) v)) 0
/-- The integer tag of a lane width. -/
def intTag (w : Nat) : Nat := if w = 8 then 1 else if w = 16 then 2 else if w = 32 then 3 else 4
def vecPerm (f : Fields) : Body := fun s c i _ =>
  let a := s.vreg c i f.a
  let b := s.vreg c i f.b
  let w := laneWidth a.t
  if 8 < a.t then fmtFault 1 a.t
  else if b.t ≠ intTag w then fmtFault 2 b.t
  else vres f s c i a.t (ofLanes w ((lanes w b.bits).map fun k => if k < elements a.t then bits a.bits (w * k) w else 0)) 0
def vecPack (f : Fields) : Body := fun s c i _ =>
  let a := s.vreg c i f.a
  let b := s.vreg c i f.b
  if !(a.t ≤ 8 || a.t = 12) then fmtFault 1 a.t
  else if b.t ≠ a.t then fmtFault 2 b.t
  else vres f s c i a.t (BitVec.ofNat 512 (bits a.bits 0 256 + 2 ^ 256 * bits b.bits 0 256)) 0
def vecUnpack (f : Fields) : Body := fun s c i _ =>
  let a := s.vreg c i f.a
  if !(a.t ≤ 8 || a.t = 12) then fmtFault 1 a.t
  else vres f s c i a.t (BitVec.ofNat 512 (bits a.bits (if f.m.getLsbD 0 then 256 else 0) 256)) 0

/-! ### Reductions and scans (05 R131, R132) -/

/-- Fold neighbours pairwise. -/
def pairUp {α : Type} (g : α → α → α) : List α → List α
  | x :: y :: l => g x y :: pairUp g l
  | l => l
/-- The fixed tree over a list of a power of two of elements, of at most 2^n. -/
def foldTree {α : Type} (g : α → α → α) : Nat → List α → List α
  | 0, l => l
  | n + 1, l => if l.length ≤ 1 then l else foldTree g n (pairUp g l)
/-- A floating operation 0 add, 1 min, 2 max with its flags joined to those of its operands. -/
def foldF (fm : Fmt) (rnd op : Nat) (a b : Nat × Flags) : Nat × Flags :=
  let (r, g) := if op = 0 then fm.fadd rnd a.1 b.1 else fm.fminmax (op = 2) a.1 b.1
  (r, a.2 ||| b.2 ||| g)
/-- An integer reduction step on 64-bit values: 0 add, 1 min, 2 max, 3 and, 4 or, 5 xor. -/
def foldI (u : Bool) (op : Nat) (a b : W64) : W64 :=
  if op = 0 then a + b
  else if op = 1 then if u then iaMinu a b else iaMin a b
  else if op = 2 then if u then iaMaxu a b else iaMax a b
  else if op = 3 then a &&& b else if op = 4 then a ||| b else a ^^^ b
def vecRed (f : Fields) : Body := fun s c i _ =>
  let a := s.vreg c i f.a
  let op := f.m.toNat / 16
  let w := laneWidth a.t
  if !((isInt a.t) || (isFloat a.t && op ≤ 2) || (a.t = 12 && (op = 0 || 3 ≤ op))) then fmtFault 1 a.t
  else if isFloat a.t then
    let r := (foldTree (foldF (fmtOf a.t) (s.th c i).rnd op) 9 ((lanes w a.bits).map (·, 0))).headD (0, 0)
    .ok ((s.modTh c i (·.flag r.2)).writeD c i f.d (BitVec.ofNat 64 r.1))
  else
    let u := uBit f || a.t = 12
    let l := (lanes w a.bits).map fun x => w64 (laneInt u w x)
    .ok (s.writeD c i f.d ((foldTree (foldI u op) 9 l).headD 0))
/-- One step of a scan. -/
def scanStep (f : Fields) (tag rnd op a b : Nat) : Nat × Flags :=
  if isFloat tag then foldF (fmtOf tag) rnd op (a, 0) (b, 0)
  else
    let w := laneWidth tag
    let u := uBit f
    let x := laneInt u w a
    let y := laneInt u w b
    (laneOut (satBit f && op = 0) u w (if op = 0 then x + y else if op = 1 then min x y else max x y), 0)
def scanIdentity (tag op : Nat) (u : Bool) : Nat :=
  let w := laneWidth tag
  if isFloat tag then
    let fm := fmtOf tag
    if op = 0 then 0 else if op = 1 then fm.infBits else fm.signBit + fm.infBits
  else if op = 0 then 0
  else if op = 1 then if u then 2 ^ w - 1 else 2 ^ (w - 1) - 1
  else if u then 0 else 2 ^ (w - 1)
/-- Lanes in increasing order; the accumulator, the flags. -/
def scanGo (g : Nat → Nat → Nat × Flags) (excl : Bool) : Bool → Nat → Flags → List Nat → List Nat × Flags
  | _, _, fl, [] => ([], fl)
  | first, y, fl, x :: xs =>
    if excl then
      let (z, h) := g y x
      let (l, fl) := scanGo g excl false z (fl ||| h) xs
      (y :: l, fl)
    else
      let (z, h) := if first then (x, 0) else g y x
      let (l, fl) := scanGo g excl false z (fl ||| h) xs
      (z :: l, fl)
def vecScan (f : Fields) : Body := fun s c i _ =>
  let a := s.vreg c i f.a
  let op := f.m.toNat / 16
  if !(isInt a.t || isFloat a.t) then fmtFault 1 a.t
  else
    let w := laneWidth a.t
    let (l, g) := scanGo (scanStep f a.t (s.th c i).rnd op) (f.m.getLsbD 2) true (scanIdentity a.t op (uBit f)) 0 (lanes w a.bits)
    vres f s c i a.t (ofLanes w l) g

/-! ### Transcendentals (05 R133) -/

def vecFn (g : Fmt → Nat → Nat → Nat × Flags) (f : Fields) : Body := fun s c i _ =>
  let a := s.vreg c i f.a
  if !(5 ≤ a.t && a.t ≤ 7) then fmtFault 1 a.t
  else
    let w := laneWidth a.t
    let (l, fl) := gather ((lanes w a.bits).map (g (fmtOf a.t) (s.th c i).rnd))
    vres f s c i a.t (ofLanes w l) fl

/-! ### Narrow formats (02 R51-R57) -/

/-- Mantissa bits and bias of e4m3, e5m2 and e2m1, and their largest finite magnitude code. -/
def narrowMb (tag : Nat) : Nat := if tag = 9 then 3 else if tag = 10 then 2 else 1
def narrowBias (tag : Nat) : Nat := if tag = 9 then 7 else if tag = 10 then 15 else 1
def narrowMax (tag : Nat) : Nat := if tag = 9 then 0x7E else if tag = 10 then 0x7B else 7
def narrowSign (tag : Nat) : Nat := if tag = 11 then 8 else 128
/-- The value of a narrow code; every NaN is quiet. -/
def narrowVal (tag code : Nat) : FVal :=
  let neg := code / narrowSign tag % 2 = 1
  let mag := code % narrowSign tag
  let mb := narrowMb tag
  let ex := mag / 2 ^ mb
  let m := mag % 2 ^ mb
  if tag = 9 && mag = 0x7F then .nan false
  else if tag = 10 && ex = 31 then if m = 0 then .inf neg else .nan false
  else if ex = 0 then .fin neg m (1 - (narrowBias tag : Int) - mb)
  else .fin neg (2 ^ mb + m) ((ex : Int) - narrowBias tag - mb)
/-- A value to a narrow code, to nearest even (02 R57), with the flags of 05 R135. A NaN bound for e2m1 has no code: the caller makes its
block a NaN block. A zero keeps its sign in e4m3 and e5m2 (02 R57 gives one code for both zeros only with 4 bits: DESIGN CHOICE, log entry 57). -/
def toNarrow (tag : Nat) (v : FVal) : Nat × Flags :=
  let sg (neg : Bool) : Nat := if neg then narrowSign tag else 0
  match v with
  | .nan sig => (if tag = 9 then 0x7F else if tag = 10 then 0x7E else 0, if tag = 11 || sig then fNv else 0)
  | .inf neg => if tag = 10 then (sg neg + 0x7C, 0) else (sg neg + narrowMax tag, fOf ||| fNx)
  | .fin neg m e =>
    if m = 0 then (if tag = 11 then 0 else sg neg, 0)
    else
      let mb := narrowMb tag
      let ex : Int := Nat.log2 m + e
      let emin : Int := 1 - (narrowBias tag : Int)
      let q := max ex emin - mb
      let (n, inexact) := roundQ 0 neg m e false q
      let mag := (q + mb + narrowBias tag - 1).toNat * 2 ^ mb + n
      if narrowMax tag < mag then (sg neg + if tag = 10 then 0x7C else narrowMax tag, fOf ||| fNx)
      else
        let tiny := ex < emin && !(ex = emin - 1 && (roundQ 0 neg m e false (ex - mb)).1 = 2 ^ (mb + 1))
        let g : Flags := (if inexact then fNx else 0) ||| (if inexact && tiny then fUf else 0)
        (if tag = 11 && mag = 0 then 0 else sg neg + mag, g)

/-- Multiply by a power of two. -/
def FVal.shift (v : FVal) (k : Int) : FVal :=
  match v with
  | .fin n m e => .fin n m (e + k)
  | v => v
/-- The code of element `i` of a block register, and the value it decodes to (02 R55, R56; 01 R24). -/
def blockCode (tag : Nat) (b : W512) (i : Nat) : Nat := if tag = 11 then bits b (4 * i) 4 else bits b (8 * i) 8
def blockVal (tag : Nat) (b : W512) (scale : W64) (i : Nat) : FVal :=
  let j := i / 32
  let c := if tag = 11 then bits scale (16 * j) 8 else bits scale (8 * j) 8
  let code := blockCode tag b i
  if c = 0xFF then .nan false
  else (if tag = 11 && code = 8 then narrowVal 9 (bits scale (16 * j + 8) 8) else narrowVal tag code).shift ((c : Int) - 127)
/-- The value of element `i` of a register of tag 1 to 11. -/
def elemVal (r : VReg) (u : Bool) (i : Nat) : FVal :=
  let w := laneWidth r.t
  if isInt r.t then
    let x := laneInt u w (bits r.bits (w * i) w)
    .fin (x < 0) x.natAbs 0
  else if isFloat r.t then (fmtOf r.t).decode (bits r.bits (w * i) w)
  else blockVal r.t r.bits r.scale i

/-! ### Conversion (05 R134, R135) -/

/-- Convert one value to an element of tag T. -/
def cvtElem (tag rnd : Nat) (srcInt u : Bool) (v : FVal) : Nat × Flags :=
  let w := laneWidth tag
  if isFloat tag then (fmtOf tag).round rnd v
  else if isInt tag then
    let lo : Int := if u then 0 else -(2 ^ (w - 1))
    let hi : Int := if u then 2 ^ w - 1 else 2 ^ (w - 1) - 1
    let (x, g) := fToInt rnd lo hi v
    ((x % 2 ^ w).toNat, if srcInt then 0 else g)
  else toNarrow tag v
/-- The scale field of a converted block register; a q4 block that took a NaN is a NaN block. -/
def cvtScale (tag : Nat) (nanBlocks : List Bool) : Nat :=
  if tag = 9 || tag = 10 then 0x7F7F
  else if tag = 11 then joinLanes 16 (nanBlocks.map fun b => if b then 0xFF else 0x7F)
  else 0
/-- Conversion. In a q4 block that a NaN makes a NaN block, the other elements add the flags of their own roundings, and no nx for the NaN that
they become (05 R135 is silent: DESIGN CHOICE, log entry 57). -/
def vecCvt (f : Fields) : Body := fun s c i _ =>
  let a := s.vreg c i f.a
  let tag := f.m.toNat % 16
  let p := f.m.toNat / 16 % 8
  let u := f.m.getLsbD 7
  let ns := elements a.t
  let nd := elements tag
  if !(1 ≤ a.t && a.t ≤ 11) then fmtFault 1 a.t
  else if a.t = tag then if p = 0 then .ok (s.writeV c i f.d a) else fmtFault 1 a.t
  else if 8 * nd < ns || 8 * ns < nd || (nd < ns && ns / nd ≤ p) || (ns ≤ nd && p ≠ 0) then fmtFault 1 a.t
  else
    let n := min ns nd
    let vs := (List.range nd).map fun k => if k < n then some (elemVal a u (p * n + k)) else none
    let rs := vs.map fun
      | some v => cvtElem tag (s.th c i).rnd (isInt a.t) u v
      | none => (0, 0)
    let isNan (k : Nat) : Bool := ((vs.getD k none).map FVal.isNan) = some true
    let nanB := (List.range 4).map fun b => (List.range 32).any fun k => isNan (32 * b + k)
    let codes := if tag = 11 then (List.range nd).map fun k => if nanB.getD (k / 32) false then 0 else (rs.getD k (0, 0)).1 else rs.map (·.1)
    vres f s c i tag (ofLanes (512 / nd) codes) (rs.foldl (fun g r => g ||| r.2) 0) (BitVec.ofNat 64 (cvtScale tag nanB))

/-! ### The instructions -/

def execVecAdd (f : Fields) (s : State) : Host.Outcome State Fault Refusal := .next (runThread (.vecAdd f) (vec2 (· + ·) Fmt.fadd) s)
def execVecSub (f : Fields) (s : State) : Host.Outcome State Fault Refusal := .next (runThread (.vecSub f) (vec2 (· - ·) Fmt.fsub) s)
def execVecMul (f : Fields) (s : State) : Host.Outcome State Fault Refusal := .next (runThread (.vecMul f) (vec2 (· * ·) Fmt.fmul) s)
def execVecMin (f : Fields) (s : State) : Host.Outcome State Fault Refusal := .next (runThread (.vecMin f) (vec2 min fun t _ a b => t.fminmax false a b) s)
def execVecMax (f : Fields) (s : State) : Host.Outcome State Fault Refusal := .next (runThread (.vecMax f) (vec2 max fun t _ a b => t.fminmax true a b) s)
def execVecAbs (f : Fields) (s : State) : Host.Outcome State Fault Refusal := .next (runThread (.vecAbs f) (vec1 (fun x => if x < 0 then -x else x) fun w x => x % 2 ^ (w - 1)) s)
def execVecNeg (f : Fields) (s : State) : Host.Outcome State Fault Refusal := .next (runThread (.vecNeg f) (vec1 (fun x => -x) fun w x => (x + 2 ^ (w - 1)) % 2 ^ w) s)
def execVecAnd (f : Fields) (s : State) : Host.Outcome State Fault Refusal := .next (runThread (.vecAnd f) (vecBits (· &&& ·)) s)
def execVecOr (f : Fields) (s : State) : Host.Outcome State Fault Refusal := .next (runThread (.vecOr f) (vecBits (· ||| ·)) s)
def execVecXor (f : Fields) (s : State) : Host.Outcome State Fault Refusal := .next (runThread (.vecXor f) (vecBits (· ^^^ ·)) s)
def execVecShl (f : Fields) (s : State) : Host.Outcome State Fault Refusal := .next (runThread (.vecShl f) (vecShift laneShl) s)
def execVecShr (f : Fields) (s : State) : Host.Outcome State Fault Refusal := .next (runThread (.vecShr f) (fun f => vecShift (laneShr (uBit f)) f) s)
def execVecCmp (f : Fields) (s : State) : Host.Outcome State Fault Refusal := .next (runThread (.vecCmp f) (vecCmp) s)
def execVecBcast (f : Fields) (s : State) : Host.Outcome State Fault Refusal := .next (runThread (.vecBcast f) (vecBcast) s)
def execVecPerm (f : Fields) (s : State) : Host.Outcome State Fault Refusal := .next (runThread (.vecPerm f) (vecPerm) s)
def execVecRed (f : Fields) (s : State) : Host.Outcome State Fault Refusal := .next (runThread (.vecRed f) (vecRed) s)
def execVecScan (f : Fields) (s : State) : Host.Outcome State Fault Refusal := .next (runThread (.vecScan f) (vecScan) s)
def execVecExp2 (f : Fields) (s : State) : Host.Outcome State Fault Refusal := .next (runThread (.vecExp2 f) (vecFn Fmt.fexp2) s)
def execVecLog2 (f : Fields) (s : State) : Host.Outcome State Fault Refusal := .next (runThread (.vecLog2 f) (vecFn Fmt.flog2) s)
def execVecRcp (f : Fields) (s : State) : Host.Outcome State Fault Refusal := .next (runThread (.vecRcp f) (vecFn Fmt.frcp) s)
def execVecRsqrt (f : Fields) (s : State) : Host.Outcome State Fault Refusal := .next (runThread (.vecRsqrt f) (vecFn Fmt.frsqrt) s)
def execVecTanh (f : Fields) (s : State) : Host.Outcome State Fault Refusal := .next (runThread (.vecTanh f) (vecFn Fmt.ftanh) s)
def execVecCvt (f : Fields) (s : State) : Host.Outcome State Fault Refusal := .next (runThread (.vecCvt f) (vecCvt) s)
def execVecPack (f : Fields) (s : State) : Host.Outcome State Fault Refusal := .next (runThread (.vecPack f) (vecPack) s)
def execVecUnpack (f : Fields) (s : State) : Host.Outcome State Fault Refusal := .next (runThread (.vecUnpack f) (vecUnpack) s)
def execVecFma (f : Fields) (s : State) : Host.Outcome State Fault Refusal := .next (runThread (.vecFma f) (vecFma) s)
def execVecSel (f : Fields) (s : State) : Host.Outcome State Fault Refusal := .next (runThread (.vecSel f) (vecSel) s)
def execVecBcastI (f : Fields) (s : State) : Host.Outcome State Fault Refusal := .next (runThread (.vecBcastI f) (vecBcastI) s)
def execVecShlI (f : Fields) (s : State) : Host.Outcome State Fault Refusal := .next (runThread (.vecShlI f) (vecShiftI laneShl) s)
def execVecShrI (f : Fields) (s : State) : Host.Outcome State Fault Refusal := .next (runThread (.vecShrI f) (fun f => vecShiftI (laneShr (uBit f)) f) s)

end Sys2Proof.Machine
end

