-- ==== Sys2Proof/Machine/Quant.lean ====
section
/-!
DEFINITION. Block quantisation, the outlier filter, dequantisation, tags and scale fields (05 R136-R142; 02 R58-R60, R72, R73).
-/
namespace Sys2Proof.Machine

/-! ### Magnitudes of exact values -/

def FVal.isFin : FVal → Bool
  | .fin .. => true
  | _ => false
/-- The magnitude of a finite value in units of 2^u, for u not above its exponent. -/
def FVal.mag (v : FVal) (u : Int) : Nat :=
  match v with
  | .fin _ m e => m * 2 ^ (e - u).toNat
  | _ => 0
/-- The least exponent among finite values. -/
def leastExp (l : List FVal) : Int := l.foldl (fun u v => match v with
  | .fin _ m e => if m = 0 then u else min u e
  | _ => u) 0
/-- The first of the given indices whose element is largest in magnitude. -/
def argmax (mags : List Nat) (idx : List Nat) : Option Nat :=
  idx.foldl (fun b k => match b with
    | none => some k
    | some j => if mags.getD j 0 < mags.getD k 0 then some k else some j) none

/-! ### The outlier filter (02 R72) -/

/-- The candidates of a block for a threshold: 32 x² > τ² Σ x². -/
def candidates (xs : List FVal) (tau : FVal) : List Nat :=
  let u := leastExp xs
  let mags := xs.map (·.mag u)
  let tot := (mags.map fun m => m * m).sum
  match tau with
  | .fin neg m e =>
    let t := if neg then 0 else m
    -- 32 x² > t² 2^(2e) Σ x², in integers
    (List.range 32).filter fun k =>
      let x := mags.getD k 0
      if 0 ≤ e then t * t * 2 ^ (2 * e).toNat * tot < 32 * x * x else t * t * tot < 32 * x * x * 2 ^ (-(2 * e)).toNat
  | .inf neg => if neg then (List.range 32).filter fun k => 0 < mags.getD k 0 else []
  | .nan _ => []
/-- Insert an index into a list ordered by falling magnitude, lowest index first among equals. -/
def insertMag (mags : List Nat) (k : Nat) : List Nat → List Nat
  | [] => [k]
  | j :: l => if mags.getD j 0 < mags.getD k 0 then k :: j :: l else j :: insertMag mags k l
/-- The removed elements: the four candidates of largest magnitude, ascending. -/
def removedOf (xs : List FVal) (cand : List Nat) : List Nat :=
  let mags := xs.map (·.mag (leastExp xs))
  let four := (cand.foldl (fun l k => insertMag mags k l) []).take 4
  cand.filter (four.contains ·)

/-! ### The quantiser (02 R58-R60) -/

/-- A quantised block: scale byte, special byte, codes. -/
structure QBlock where
  scale : Nat
  special : Nat
  codes : List Nat
  deriving DecidableEq, Repr
/-- |x − a| < |x − b| for finite values. -/
def nearer (x a b : FVal) : Bool :=
  let d (y : FVal) : FVal := (x.add 0 y.negate).1
  let u := leastExp [d a, d b]
  (d a).mag u < (d b).mag u
/-- Quantise 32 elements to tag 9, 10 or 11, with the candidates and the removed elements of the filter. Where every element is a candidate, so
that amax ranges over no scaling element, e is 0 and the scale 0x7F (02 R58 and 05 R139 give no maximum of none: DESIGN CHOICE, log entry 57). -/
def quantise (tag : Nat) (xs : List FVal) (cand removed : List Nat) : QBlock :=
  if !(xs.all FVal.isFin) then ⟨0xFF, 0, List.replicate 32 0⟩
  else
    let mags := xs.map (·.mag (leastExp xs))
    let top := argmax mags ((List.range 32).filter (!cand.contains ·))
    let off : Int := if tag = 9 then 8 else if tag = 10 then 15 else 2
    let e : Int := match top.bind (xs[·]?) with
      | some (.fin _ m e) => if m = 0 then 0 else Nat.log2 m + e - off
      | _ => 0
    let scale := (max 0 (min 254 (e + 127))).toNat
    let e : Int := scale - 127
    let ys := xs.map (·.shift (-e))
    if tag ≠ 11 then ⟨scale, 0, ys.map fun y => (toNarrow tag y).1⟩
    else
      let rem := (List.range 32).filter (!removed.contains ·)
      let special := match (argmax mags rem).bind (ys[·]?) with
        | some y => (toNarrow 9 y).1
        | none => 0
      let v := narrowVal 9 special
      let code (k : Nat) : Nat :=
        let y := ys.getD k (.fin false 0 0)
        let n := (toNarrow 11 y).1
        if removed.contains k then 0 else if nearer y v (narrowVal 11 n) then 8 else n
      ⟨scale, special, (List.range 32).map code⟩
/-- Put a block at position `j` of a register: from a cleared register when j = 0. -/
def putBlock (tag j : Nat) (d : VReg) (q : QBlock) : VReg :=
  let d : VReg := if j = 0 then {} else d
  let w := if tag = 11 then 4 else 8
  let b := setBits d.bits (32 * w * j) (32 * w) (joinLanes w q.codes)
  let sc := if tag = 11 then setBits d.scale (16 * j) 16 (q.scale + 256 * q.special) else setBits d.scale (8 * j) 8 q.scale
  ⟨b, BitVec.ofNat 4 tag, sc⟩
/-- The 32 source elements of A and B, or the format fault (05 R137). -/
def blockSource (a b : VReg) : Except (Nat × Nat) (List FVal) :=
  if a.t = 5 || a.t = 6 then .ok ((List.range 32).map (elemVal a false))
  else if a.t = 7 then
    if b.t = 7 then .ok ((List.range 16).map (elemVal a false) ++ (List.range 16).map (elemVal b false)) else .error (2, b.t)
  else .error (1, a.t)

def qzBlk (f : Fields) : Body := fun s c i _ =>
  let tag := f.m.toNat % 16
  let j := f.m.toNat / 16 % 4
  let d := s.vreg c i f.d
  match blockSource (s.vreg c i f.a) (s.vreg c i f.b) with
  | .error (k, t) => fmtFault k t
  | .ok xs =>
    if j ≠ 0 && d.t ≠ tag then fmtFault 0 d.t
    else .ok (s.writeV c i f.d (putBlock tag j d (quantise tag xs [] [])))

/-- The four side entries of a block (02 R73): removed elements in ascending order, the rest unused. -/
def sideEntries (j : Nat) (xs : List FVal) (removed : List Nat) : List Nat :=
  (List.range 4).map fun n => match removed[n]? with
    | some k => (fp16.round 0 (xs.getD k (.fin false 0 0))).1 * 2 ^ 16 + (32 * j + k)
    | none => 0xFFFF
def sideUnused : W512 := ofLanes 32 (List.replicate 16 0xFFFF)
/-- The odd register after an even one. -/
def nextV (o : Opnd) : Opnd :=
  match o with
  | .v n => .v (n + 1)
  | o => o
/-- The detail 0 fault of a side register v(2k+1) that is not tagged side has that register's tag as tval (05 R139 names D, which is v2k: DESIGN
CHOICE, log entry 57). -/
def qzSplit (f : Fields) : Body := fun s c i e =>
  let j := f.m.toNat / 8 % 4
  let d := s.vreg c i f.d
  let d1 := s.vreg c i (nextV f.d)
  match blockSource (s.vreg c i f.a) (s.vreg c i f.b) with
  | .error (k, t) => fmtFault k t
  | .ok xs =>
    if j ≠ 0 && d.t ≠ 11 then fmtFault 0 d.t
    else if j ≠ 0 && d1.t ≠ 13 then fmtFault 0 d1.t
    else
      let cand := if xs.all FVal.isFin then candidates xs (fp32.decode (bits e.c.data 0 32)) else []
      let removed := removedOf xs cand
      let base := if j = 0 then sideUnused else d1.bits
      let side := setBits base (128 * j) 128 (joinLanes 32 (sideEntries j xs removed))
      let s := s.writeV c i f.d (putBlock 11 j d (quantise 11 xs cand removed))
      let s := s.writeV c i (nextV f.d) ⟨side, 13, 0⟩
      .ok (s.modTh c i (·.wp (f.m.toNat % 8) (4 < cand.length)))

/-- The side values whose index is `k`. -/
def sideAt (b : W512) (k : Nat) : List FVal :=
  ((lanes 32 b).filter fun x => x % 2 ^ 16 = k).map fun x => fp16.decode (x / 2 ^ 16)
/-- `qz.dq` (05 R140): exact values with the side list added exactly, rounded once to nearest even. -/
def qzDq (f : Fields) : Body := fun s c i _ =>
  let a := s.vreg c i f.a
  let b := s.vreg c i f.b
  let tag := f.m.toNat % 16
  let p := f.m.toNat / 16 % 8
  let side := f.m.getLsbD 7
  let n := elements tag
  if !(9 ≤ a.t && a.t ≤ 11) then fmtFault 1 a.t
  else if elements a.t < p * n + n then fmtFault 1 a.t
  else if side && b.t ≠ 13 then fmtFault 2 b.t
  else
    let val (k : Nat) : FVal :=
      let v := elemVal a false (p * n + k)
      if side then (sideAt b.bits (p * n + k)).foldl (fun v x => (v.add 0 x).1) v else v
    vres f s c i tag (ofLanes (laneWidth tag) ((List.range n).map fun k => ((fmtOf tag).round 0 (val k)).1)) 0
/-- The detail 2 fault of B[3:0] = 14 or 15 has B[3:0] as tval (05 R142: B is a scalar without a format tag; DESIGN CHOICE, log entry 57). -/
def qzTagset (f : Fields) : Body := fun s c i e =>
  let a := s.vreg c i f.a
  let b := e.b.data
  if f.m.getLsbD 0 then
    if !(9 ≤ a.t && a.t ≤ 11) then fmtFault 1 a.t
    else .ok (s.writeV c i f.d { a with scale := if a.t = 11 then b else b &&& 0xFFFF })
  else
    let t := bits b 0 4
    if 14 ≤ t then fmtFault 2 t
    else .ok (s.writeV c i f.d ⟨a.bits, BitVec.ofNat 4 t, if t = 11 then a.scale else if t = 9 || t = 10 then a.scale &&& 0xFFFF else 0⟩)

/-! ### The instructions -/

def execQzBlk (f : Fields) (s : State) : Host.Outcome State Fault Refusal := .next (runThread (.qzBlk f) (qzBlk) s)
def execQzDq (f : Fields) (s : State) : Host.Outcome State Fault Refusal := .next (runThread (.qzDq f) (qzDq) s)
def execQzTagget (f : Fields) (s : State) : Host.Outcome State Fault Refusal := .next (runThread (.qzTagget f) (fun f s c i _ => let a := s.vreg c i f.a
    .ok (s.writeD c i f.d (if f.m.getLsbD 0 then a.scale else BitVec.ofNat 64 a.t))) s)
def execQzTagset (f : Fields) (s : State) : Host.Outcome State Fault Refusal := .next (runThread (.qzTagset f) (qzTagset) s)
def execQzSplit (f : Fields) (s : State) : Host.Outcome State Fault Refusal := .next (runThread (.qzSplit f) (qzSplit) s)

end Sys2Proof.Machine
end

