-- ==== Sys2Proof/Machine/Matrix.lean ====
section
/-!
DEFINITION. The matrix array of a cell (07 R196-R205, R469; 02 R61-R74): the checks of a command, its steps, checks and repairs, the side
fold, tile loads and stores, and the order of the array's queue.
-/
namespace Sys2Proof.Machine

/-! ### The command and its issue checks (07 R197, R198, R469) -/

def Mma.astride (m : Mma) : Nat := bits m.geo0 0 24
def Mma.bstride (m : Mma) : Nat := bits m.geo0 24 24
def Mma.steps (m : Mma) : Nat := bits m.geo0 48 8
def Mma.depth (m : Mma) : Nat := bits m.geo0 56 7
def Mma.ascale (m : Mma) : Int := sext 64 (bits m.geo0 64 64)
def Mma.bscale (m : Mma) : Int := sext 64 (bits m.geo1 64 64)
def Mma.atag (m : Mma) : Nat := bits m.geo1 32 4
def Mma.btag (m : Mma) : Nat := bits m.geo1 36 4
def maskList (m : Nat) : List Nat := (List.range 16).filter (m.testBit ·)
def Mma.rows (m : Mma) : List Nat := maskList (bits m.geo1 0 16)
def Mma.cols (m : Mma) : List Nat := maskList (bits m.geo1 16 16)
/-- The class of a pairing: step depth and whether the accumulator is int32 (02 R61). -/
def pairing (a b : Nat) : Option (Nat × Bool) :=
  if a = 5 && b = 5 then some (16, false)
  else if a = 1 && b = 1 then some (32, true)
  else if (a = 9 || a = 10) && (b = 9 || b = 10) then some (32, false)
  else if a = 11 && b = 11 then some (64, false) else none
def Mma.k (m : Mma) : Nat := ((pairing m.atag m.btag).map (·.1)).getD 32
/-- Elements read in a step, and in all steps. -/
def Mma.depthAt (m : Mma) (st : Nat) : Nat := if st = m.steps && m.depth ≠ 0 then m.depth else m.k
def Mma.total (m : Mma) : Nat := m.steps * m.k + m.depthAt m.steps
/-- Bytes that `n` elements of a format take. -/
def bytesOf (tag n : Nat) : Nat := if tag = 5 then 2 * n else if tag = 11 then (n + 1) / 2 else n
/-- The capability checks of one operand: its masked-in rows, their scale plane, and for A of `mx.mmaq` their side images. -/
def State.planeChecks (s : State) (c i : Nat) (r : Reg) (idx : List Nat) (stride : Nat) (tag : Nat) (m : Mma) (scale : Int)
    (side : Option W64) : Option Trap :=
  let at_ (x : Int) : Nat := ((r.addr + x : Int) % 2 ^ 48).toNat
  match idx.head?, idx.getLast? with
  | some j, some k =>
    let lo := j * stride
    let hi := k * stride + 32 * m.steps + bytesOf tag (m.depthAt m.steps)
    let (blk, w) := if tag = 11 then (16, 2) else (32, 1)
    firstTrap [s.engCheck c i r permSrc (at_ lo) (hi - lo),
      if 9 ≤ tag then s.engCheck c i r permSrc (at_ (scale + (lo / blk * w : Nat))) (((hi - 1) / blk + 1) * w - lo / blk * w) else none,
      match side with
      | some d => s.engCheck c i r permSrc (at_ (d.toInt + (lo / 64 * 64 : Nat))) (ceilDiv hi 64 * 64 - lo / 64 * 64)
      | none => none]
  | _, _ => permCheck s.openTval r permSrc
def alignOf (m : Mma) : Nat := if m.quant then 64 else if m.atag = 5 then 2 else if m.atag = 1 then 1 else 32
/-- The checks of a matrix command in the order of R469; the first fault. -/
def State.mmaCheck (s : State) (c i : Nat) (m : Mma) (tile : Nat) : Option Trap :=
  let geo (g : W128) : Option Trap := some ⟨0x09, 0x60, BitVec.ofNat 96 (bits g 0 64), false⟩
  let acc := m.fmt
  let pair := pairing m.atag m.btag
  let okAcc := match pair with
    | some (_, int) => if int then acc = 2 else acc ≤ 1
    | none => false
  let both := !m.rows.isEmpty && !m.cols.isEmpty
  let al := alignOf m
  let bad (x : Nat) : Option Trap := if x % 2 ^ 48 % al ≠ 0 then some ⟨0x04, 0, BitVec.ofNat 96 (x % 2 ^ 48), false⟩ else none
  firstTrap [
    if bits m.geo0 63 1 ≠ 0 then geo m.geo0 else none,
    if bits m.geo1 40 24 ≠ 0 then geo m.geo1 else none,
    if !okAcc || (m.quant && !(m.atag = 11 && m.btag = 11)) then some ⟨0x08, 1, BitVec.ofNat 96 m.atag, false⟩ else none,
    if m.k < m.depth then geo m.geo0 else none,
    if !tileExists (s.cell c).pword tile then some ⟨0x09, 0, s.openTval, false⟩ else none,
    s.planeChecks c i m.a (if both then m.rows else []) m.astride m.atag m m.ascale (if m.quant then some m.side else none),
    s.planeChecks c i m.b (if both then m.cols else []) m.bstride m.btag m m.bscale none,
    bad m.a.addr, bad m.b.addr, bad (m.a.addr + m.astride), bad (m.b.addr + m.bstride)]
/-- A command with the seed and the saturation of its thread at issue (02 R70). -/
def Thread.mkMma (t : Thread) (quant : Bool) (a b : Reg) (g0 g1 : W128) (side : W64) (fmt : Nat) : Mma :=
  { quant := quant, a := a, b := b, geo0 := g0, geo1 := g1, side := side, fmt := fmt, seed := t.srseed, isat := t.fmode.getLsbD 2 }

/-! ### The array's queue (07 R181, R188; 01 R31) -/

def arrayRoom (s : State) (c : Nat) : Bool := (s.cell c).mxq.length < 8
/-- Put an operation into the queue; the array's next step follows when it is first. -/
def State.enqueue (s : State) (c id : Nat) : State :=
  let first := (s.cell c).mxq.isEmpty
  let s := s.modCell c fun x => { x with mxq := x.mxq ++ [id] }
  if first then s.dueLater (.matrixStep c) else s
/-- Whether an earlier `cp.mx` whose command is not yet in the queue holds the lock of an operation's tile. -/
def State.heldByChain (s : State) (c id : Nat) (o : Op) : Bool :=
  s.ops.any fun (j, p) => j < id && p.cell = c && p.tile = o.tile && !(s.cell c).mxq.contains j && match p.kind with
    | .copyMx .. => true
    | _ => false

/-! ### Elements, sums and accumulators (02 R62-R69) -/

/-- A decoded element: an integer of weight 2^-24, an infinity, or NaN. -/
inductive El where
  | num (v : Int)
  | inf (neg : Bool)
  | nan
  deriving DecidableEq, Repr
def FVal.el (v : FVal) : El :=
  match v with
  | .fin n m e => .num (let x : Int := m * 2 ^ (e + 24).toNat; if n then -x else x)
  | .inf n => .inf n
  | .nan _ => .nan
def elOf (tag code : Nat) : El :=
  if tag = 1 then .num (sext 8 code * 2 ^ 24)
  else if tag = 5 then (fp16.decode code).el
  else (narrowVal tag code).el
/-- A sum of products: its exact finite part at weight 2^-48, and whether a NaN, a positive and a negative infinity occurred. -/
structure Dot where
  sum : Int := 0
  nan : Bool := false
  pinf : Bool := false
  ninf : Bool := false
  deriving DecidableEq, Repr
def Dot.step (d : Dot) (x y : El) : Dot :=
  match x, y with
  | .num a, .num b => { d with sum := d.sum + a * b }
  | .nan, _ | _, .nan => { d with nan := true }
  | .inf n, .inf k => if n = k then { d with pinf := true } else { d with ninf := true }
  | .inf n, .num v | .num v, .inf n =>
    if v = 0 then { d with nan := true } else if n = decide (v < 0) then { d with pinf := true } else { d with ninf := true }
def dot (xs ys : List El) : Dot := (xs.zip ys).foldl (fun d (x, y) => d.step x y) {}
def Dot.clean (d : Dot) : Bool := !d.nan && !d.pinf && !d.ninf
/-- One half-step of a row or column: its elements and its scale byte. -/
abbrev Half := List El × Nat
/-- The value of a step from its halves, each an exact sum with its scale exponent (02 R63, R64). -/
def stepValue (l : List (Dot × Int)) : FVal :=
  if l.any (·.1.nan) || (l.any (·.1.pinf) && l.any (·.1.ninf)) then .nan false
  else if l.any (·.1.pinf) then .inf false
  else if l.any (·.1.ninf) then .inf true
  else
    let u := (l.map (·.2)).foldl min 0
    ofScaled ((l.map fun (d, e) => d.sum * 2 ^ (e - u).toNat).sum) u
/-- One advance of a column generator (02 R68). -/
def advance (x : W32) : W32 :=
  let x := x ^^^ (x <<< 13)
  let x := x ^^^ (x >>> 17)
  x ^^^ (x <<< 5)
def seeds (seed : W32) : List W32 := (List.range 16).map fun j =>
  let x := seed ^^^ BitVec.ofNat 32 (j * 0x9E3779B9)
  if x = 0 then 1 else x
/-- Round an accumulator sum: fp32 to nearest even, bf16 stochastically (02 R66, R67). A negative sum that rounds to n = 0 becomes −0 (R67 does
not give the sign of that zero: DESIGN CHOICE, log entry 57). -/
def accRound (fmt : Nat) (v : FVal) (g : W32) : Nat :=
  if fmt = 0 then (fp32.round 0 v).1
  else match v with
  | .fin neg m e =>
    if m = 0 then 0
    else
      let q : Int := max (Nat.log2 m + e) (-126) - 7
      let x := if q ≤ e + 16 then m * 2 ^ (e + 16 - q).toNat else m / 2 ^ (q - e - 16).toNat
      let n := x / 2 ^ 16
      let n := if 65536 ≤ x % 2 ^ 16 + g.toNat % 2 ^ 16 then n + 1 else n
      (bf16.round 0 (.fin neg n q)).1
  | v => (bf16.round 0 v).1
/-- Add a value to an accumulator of fp32 or bf16. -/
def accAdd (fmt old : Nat) (v : FVal) (g : W32) : Nat :=
  accRound fmt (((if fmt = 0 then fp32 else bf16).decode old).add 0 v).1 g

/-! ### Operand reads (07 R198, R201) -/

/-- The segments of a row of A that the main steps read from, as offsets from A.addr. -/
def Mma.segments (m : Mma) (i : Nat) : List Nat := (List.range (ceilDiv m.total 128)).map fun q => i * m.astride + 64 * q
/-- The elements of a mask word of a tile operation (07 R204), row by row. -/
def maskEls (mask : W64) : List (Nat × Nat) := (maskList (bits mask 0 16)).flatMap fun i => (maskList (bits mask 16 16)).map fun j => (i, j)
def elSize (fmt : Nat) : Nat := if fmt = 1 then 2 else 4
def elAddr (addr : Nat) (stride : Int) (fmt : Nat) (i j : Nat) : Nat := ((addr + i * stride + (j * elSize fmt : Nat) : Int) % 2 ^ 48).toNat

/-- The bytes that a masked-in row or column takes in memory: its elements, its scales and its side images, each an address with a length. -/
def Mma.lineBytes (m : Mma) (r : Reg) (stride tag : Nat) (scale : Int) (side : Option W64) (i : Nat) : List (Nat × Nat) :=
  let at_ (x : Int) : Nat := ((r.addr + x : Int) % 2 ^ 48).toNat
  let lo := i * stride
  let hi := lo + 32 * m.steps + bytesOf tag (m.depthAt m.steps)
  let (blk, w) := if tag = 11 then (16, 2) else (32, 1)
  (at_ lo, hi - lo) :: (if 9 ≤ tag then [(at_ (scale + (lo / blk * w : Nat)), ((hi - 1) / blk + 1) * w - lo / blk * w)] else []) ++
    match side with
    | some d => (m.segments i).map fun (q : Nat) => (at_ (d.toInt + (q : Int)), 64)
    | none => []
/-- The bytes in memory that a matrix operation reads; what its masks leave out is not among them (02 R71). -/
def OpKind.bytes : OpKind → List (Nat × Nat)
  | .mma m | .copyMx _ _ _ _ _ _ m =>
    if m.rows.isEmpty || m.cols.isEmpty then []
    else (m.rows.flatMap (m.lineBytes m.a m.astride m.atag m.ascale (if m.quant then some m.side else none))) ++
      m.cols.flatMap (m.lineBytes m.b m.bstride m.btag m.bscale none)
  | .mxld addr stride mask fmt => (maskEls mask).map fun (i, j) => (elAddr addr stride fmt i j, elSize fmt)
  | _ => []
/-- The bytes in memory that it reads or writes. -/
def OpKind.touches : OpKind → List (Nat × Nat)
  | .mxst addr stride mask fmt => (maskEls mask).map fun (i, j) => (elAddr addr stride fmt i j, elSize fmt)
  | k => k.bytes
/-- The runs of the bytes of a segment that lie in some ranges, each an offset with a length. -/
def segRuns (l : List (Nat × Nat)) (seg : Nat) : List (Nat × Nat) :=
  ((List.range 64).foldl (fun (acc : List (Nat × Nat)) j =>
    if l.any fun (a, n) => (seg + j + 2 ^ 48 - a) % 2 ^ 48 < n then
      match acc with
      | (a, n) :: rest => if a + n = j then (a, n + 1) :: rest else (j, 1) :: acc
      | [] => [(j, 1)]
    else acc) []).reverse
/-- Read some runs of a segment: the segment's data there, with the poison of its bytes. -/
def readRuns (s : State) (id seg : Nat) : List (Nat × Nat) → EngRes (W512 × W64)
  | [] => .ok s (0, 0)
  | (a, n) :: l =>
    match s.op id with
    | none => .wait s
    | some o => (engRead s id o (seg + a) n).bind fun s (v, bad) => (readRuns s id seg l).bind fun s (w, b) =>
        .ok s (setBits w (8 * a) (8 * n) v, bad.foldl (fun b j => setBits b (a + j) 1 1) b)
/-- How a segment is read: a controller and a port read the segment from its first needed byte to its last; a pool reads the words, and a peer is
asked for the runs, of needed bytes alone, so that nothing outside the masks is read there (02 R71). -/
def segReads (s : State) (id : Nat) (o : Op) (seg : Nat) : EngRes (List (Nat × Nat)) :=
  let rs := segRuns o.kind.bytes seg
  match rs.head?, rs.getLast? with
  | some (a, _), some (b, n) =>
    ((engKey s o (seg + a) 1 .load).at id o).bind fun s k =>
      .ok s (if k < keyHbm || keyPeer ≤ k then rs else [(a, b + n - a)])
  | _, _ => .ok s []
/-- A segment of the operands in memory, with the poison of its bytes: as the operation read it before, or read now and kept in its record. -/
def viewSeg (s : State) (id seg : Nat) : EngRes (W512 × W64) :=
  match s.op id with
  | none => .wait s
  | some o =>
    match o.view.find? fun x => x.1 = seg with
    | some (_, v, b) => .ok s (v, b)
    | none =>
      (segReads s id o seg).bind fun s rs => (readRuns s id seg rs).bind fun s x =>
        match s.op id with
        | none => .wait s
        | some o => .ok (s.setOp id { o with view := o.view ++ [(seg, x)] }) x
/-- `n` bytes of the operands in memory, segment by segment, and whether any is poisoned; a failed translation names the first byte read. -/
def viewRead (s : State) (id va : Nat) : Nat → Nat → EngRes (Nat × Bool)
  | 0, _ => .ok s (0, false)
  | fuel + 1, n =>
    if n = 0 then .ok s (0, false)
    else
      let off := va % 64
      let k := min n (64 - off)
      match viewSeg s id (va - off) with
      | .ok s (v, b) => (viewRead s id ((va + k) % 2 ^ 48) fuel (n - k)).bind fun s (w, q) =>
          .ok s (bits v (8 * off) (8 * k) + 2 ^ (8 * k) * w, bits b off k ≠ 0 || q)
      | .stop s a _ => .stop s a va
      | .bad x => .bad x
      | .wait s => .wait s
      | .held s t => .held s t
/-- The record with the reads that its step has added. -/
def State.kept (s : State) (id : Nat) (o : Op) : Op := { o with view := ((s.op id).map (·.view)).getD [] }

/-- The elements that a masked-in row or column contributes to a step, in halves, and whether any was poisoned. -/
def rowRead (s : State) (id : Nat) (r : Reg) (stride tag : Nat) (scale : Int) (i st n : Nat) : EngRes (List Half × Bool) :=
  let off := i * stride + 32 * st
  let base := (r.addr + off) % 2 ^ 48
  let pl (x : Nat) : Nat := ((r.addr + scale + x : Int) % 2 ^ 48).toNat
  if tag = 5 then
    (viewRead s id base 2 (2 * n)).bind fun s (v, p) => .ok s ([((List.range n).map fun k => elOf 5 (v / 2 ^ (16 * k) % 2 ^ 16), 127)], p)
  else if tag = 1 then
    (viewRead s id base 2 n).bind fun s (v, p) => .ok s ([((List.range n).map fun k => elOf 1 (v / 2 ^ (8 * k) % 2 ^ 8), 127)], p)
  else if tag ≠ 11 then
    (viewRead s id (pl (off / 32)) 1 1).bind fun s (c, p) => (viewRead s id base 2 n).bind fun s (v, q) =>
      .ok s ([((List.range n).map fun k => if c = 255 then El.nan else elOf tag (v / 2 ^ (8 * k) % 2 ^ 8), c)], p || q)
  else
    let half (s : State) (h : Nat) : EngRes (Half × Bool) :=
      let m := min 32 (n - 32 * h)
      (viewRead s id (pl ((off + 16 * h) / 8)) 2 2).bind fun s (c, p) =>
        (viewRead s id ((base + 16 * h) % 2 ^ 48) 2 ((m + 1) / 2)).bind fun s (v, q) =>
          .ok s (((List.range m).map fun k =>
            let code := v / 2 ^ (4 * k) % 16
            if c % 256 = 255 then El.nan else if code = 8 then elOf 9 (c / 256) else elOf 11 code, c % 256), p || q)
    (half s 0).bind fun s (x, p) =>
      if n ≤ 32 then .ok s ([x], p) else (half s 1).bind fun s (y, q) => .ok s ([x, y], p || q)
/-- All masked-in rows of A, or columns of B, of a step. -/
def rowsRead (s : State) (id : Nat) (r : Reg) (stride tag : Nat) (scale : Int) (st n : Nat) : List Nat → EngRes (List (Nat × List Half) × Bool)
  | [] => .ok s ([], false)
  | i :: is => (rowRead s id r stride tag scale i st n).bind fun s (x, p) =>
      (rowsRead s id r stride tag scale st n is).bind fun s (l, q) => .ok s ((i, x) :: l, p || q)

/-! ### The check of a step (07 R203) -/

/-- The sums that an independent datapath would miss: per row and per column, of the errors in the elements that are checked. -/
def nonzero (l : List (Nat × Int)) : List (Nat × Int) := l.filter fun x => x.2 ≠ 0
def rowDiff (rows : List Nat) (ups : List Upset) : List (Nat × Int) := nonzero (rows.map fun i => (i, ((ups.filter (·.row = i)).map (·.delta)).sum))
def colDiff (cols : List Nat) (ups : List Upset) : List (Nat × Int) := nonzero (cols.map fun j => (j, ((ups.filter (·.col = j)).map (·.delta)).sum))
/-- The outcome of one formation of a half-step: right, one element to correct by δ, or any other mismatch. -/
inductive Check where
  | fine
  | one (i j : Nat) (delta : Int)
  | other
  deriving DecidableEq, Repr
def check (rows cols : List Nat) (ups : List Upset) : Check :=
  match rowDiff rows ups, colDiff cols ups with
  | [], [] => .fine
  | [(i, d)], [(j, e)] => if d = e then .one i j d else .other
  | _, _ => .other
/-- Count an event of the checks, with its record in the error bank (07 R205, 22 R442). -/
def State.mxEvent (s : State) (o : Op) (what st i j : Nat) : State :=
  let c := o.cell
  let tile := o.tile.getD 0
  let s := s.modCell c fun x =>
    if what = 0 then { x with repairs := min (x.repairs + 1) (2 ^ 32 - 1) }
    else if what = 1 then { x with replays := min (x.replays + 1) 65535 }
    else { x with faults := min (x.faults + 1) 65535 }
  let syn := st % 2 ^ 16 + i * 2 ^ 16 + j * 2 ^ 24 + (if what = 1 then 2 ^ 32 else 0) + (if what = 2 then 2 ^ 33 else 0) + tile * 2 ^ 40
  s.err ⟨c, if what = 2 then 5 else 4, what = 2, some o.fn, tileKey (s.cell c).pword c tile % 2 ^ 20, syn⟩
/-- The errors that remain in a half-step after check, repair and replay; none for a checksum fault. -/
def State.checked (s : State) (o : Op) (st : Nat) (rows cols : List Nat) (first again : List Upset) : State × Option (List Upset) :=
  match check rows cols first with
  | .fine => (s, some first)
  | .one i j d => (s.mxEvent o 0 st i j, some (first ++ [⟨i, j, -d, 0⟩]))
  | .other =>
    let s := s.mxEvent o 1 st 0 0
    match check rows cols again with
    | .fine => (s, some again)
    | .one i j d => (s.mxEvent o 0 st i j, some (again ++ [⟨i, j, -d, 0⟩]))
    | .other => (s.mxEvent o 2 st 0 0, none)

/-! ### Tiles (01 R30) -/

def slotKey (base i j : Nat) : Nat := base + 4 * (16 * i + j)
/-- Write a slot; it stays poisoned when it or what is written is. -/
def State.writeSlot (s : State) (key v : Nat) (bad : Bool) : State :=
  if bad || s.poisoned key 4 then s.writePoison none key 4 v else s.write none key 4 v
/-- Write back the 48-bit accumulators of an int32 operation (02 R69). -/
def State.intBack (s : State) (o : Op) (m : Mma) (base : Nat) : State :=
  if m.fmt ≠ 2 || o.acc.isEmpty then s
  else m.rows.foldl (fun s i => m.cols.foldl (fun s j =>
    let v := o.acc.getD (16 * i + j) 0
    let v := if m.isat then max (-(2 ^ 31)) (min v (2 ^ 31 - 1)) else v
    s.writeSlot (slotKey base i j) (v % 2 ^ 32).toNat o.poison) s) s
/-- Poison every slot that the operation writes. -/
def State.poisonSlots (s : State) (m : Mma) (base : Nat) : State :=
  m.rows.foldl (fun s i => m.cols.foldl (fun (s : State) j => { s with poison := setAdd s.poison (slotKey base i j / 4) }) s) s

/-! ### A step of `mx.mma` and `mx.mmaq` (07 R199) -/

def State.opBase (s : State) (o : Op) : Nat := tileKey (s.cell o.cell).pword o.cell (o.tile.getD 0)
/-- The first step of an operation seeds its generators, takes up the int32 accumulators and an armed injection (02 R68, R69; 07 R205). -/
def State.mmaStart (s : State) (o : Op) (m : Mma) : State × Op :=
  if o.started then (s, o)
  else
    let base := s.opBase o
    let some_ := !m.rows.isEmpty && !m.cols.isEmpty
    let inj := some_ && (s.cell o.cell).inject
    let acc : List Int := if m.fmt = 2 then (List.range 256).map fun k => sext 32 (readNat s.mem (base + 4 * k) 4) else []
    (if inj then s.modCell o.cell fun x => { x with inject := false } else s,
     { o with started := true, gens := seeds m.seed, acc := acc, inject := inj })
/-- Sixteen advances of every column generator: the outputs by row and column, and the generators after. -/
def genStep (gens : List W32) : List (List W32) × List W32 :=
  (List.range 16).foldl (fun (out, gs) _ =>
    let gs := gs.map advance
    (out ++ [gs], gs)) ([], gens)
/-- Energy of a step by its format (23 R453 classes 4 to 7). -/
def stepEnergy (tag : Nat) : Nat := if tag = 11 then 1380 else if tag = 9 || tag = 10 then 1300 else if tag = 1 then 1100 else 1250
/-- The element of a row or column list. -/
def halfAt (l : List (Nat × List Half)) (i h : Nat) : Half := (((l.find? (·.1 = i)).map (·.2)).getD []).getD h ([], 127)
/-- Check every half of a step in turn: the remaining errors of each. -/
def State.checkHalves (s : State) (o : Op) (m : Mma) (st : Nat) (clean : Nat → Nat → Nat → Bool) (ups again : List Upset) : Nat → State × Option (List (List Upset))
  | 0 => (s, some [])
  | h + 1 =>
    match s.checkHalves o m st clean ups again h with
    | (s, none) => (s, none)
    | (s, some l) =>
      let mine (x : Upset) : Bool := x.half = h && m.rows.contains x.row && m.cols.contains x.col && clean x.row x.col h
      match s.checked o st m.rows m.cols (ups.filter mine) (again.filter mine) with
      | (s, some u) => (s, some (l ++ [u]))
      | (s, none) => (s, none)
/-- One step: read, form, check, accumulate. -/
def State.mmaStep (s : State) (id : Nat) (o : Op) (m : Mma) (ups again : List Upset) : State :=
  let st := o.prog
  let n := m.depthAt st
  let base := s.opBase o
  let c := o.cell
  match (rowsRead s id m.a m.astride m.atag m.ascale st n m.rows).bind fun s (as, p) =>
      (rowsRead s id m.b m.bstride m.btag m.bscale st n m.cols).bind fun s (bs, q) => .ok s (as, bs, p || q) with
  | .stop s a v => s.opStop id (s.kept id o) a v
  | .bad x => s.opEnd id o (some (x.cause, x.detail, x.tval.toNat))
  | .wait s | .held s _ => s
  | .ok s (as, bs, bad) =>
    let o := { s.kept id o with poison := o.poison || bad }
    let halves := if m.atag = 11 && 32 < n then 2 else 1
    let sumAt (i j h : Nat) : Dot := dot (halfAt as i h).1 (halfAt bs j h).1
    let clean (i j h : Nat) : Bool := (sumAt i j h).clean
    let inj : List Upset := match o.inject && st = 0, m.rows, m.cols with
      | true, i :: _, j :: _ => [⟨i, j, 1, 0⟩]
      | _, _, _ => []
    let s := s.charge (some o.fn) (stepEnergy m.atag) 1
    match s.checkHalves o m st clean (ups ++ inj) again halves with
    | (s, none) =>
      -- a checksum fault (07 R203): the tile is poisoned, the issuer traps, the completion object signals failure
      let s := (s.intBack o m base)
      let s := { s with poison := (List.range 256).foldl (fun l k => setAdd l (base / 4 + k)) s.poison }
      let s := if s.issuerLives o then s.modTh c o.slot fun t => { t with ckTrap := some (o.tile.getD 0, st) } else s
      let free := Config.freeValue s.fresh
      ({ s with fresh := s.fresh + 1 } : State).opEnd id o (some (0x0F, bits free 0 8, bits free 8 48))
    | (s, some errs) =>
      let value (i j : Nat) : List (Dot × Int) := (List.range halves).map fun h =>
        let d := sumAt i j h
        let e : Int := (halfAt as i h).2 + (halfAt bs j h).2 - 254 - 48
        let fix := (((errs.getD h []).filter fun u => u.row = i && u.col = j).map (·.delta)).sum
        ({ d with sum := d.sum + fix }, e)
      let (outs, gens) := genStep o.gens
      let (s, acc) := m.rows.foldl (fun (s, acc) i => m.cols.foldl (fun (s, acc) j =>
        let v := stepValue (value i j)
        if m.fmt = 2 then
          let x := 16 * i + j
          (s, acc.set x (acc.getD x 0 + ((value i j).map fun (d, _) => d.sum / 2 ^ 48).sum))
        else if v.isZero then (s, acc)
        else
          let key := slotKey base i j
          let old := if m.fmt = 1 then readNat s.mem key 2 else readNat s.mem key 4
          (s.writeSlot key (accAdd m.fmt old v ((outs.getD i []).getD j 0)) o.poison, acc)) (s, acc)) (s, o.acc)
      let o := { o with prog := st + 1, gens := gens, acc := acc, fetched := [], next := s.cycle + 2 }
      if m.steps < o.prog then s.opEnd id o none else (s.setOp id o).dueAt (s.cycle + 2) (.matrixStep c)

/-! ### The side fold of `mx.mmaq` (07 R200, 02 R74) -/

/-- One entry to add to an accumulator: row, column, product, generator output, poison. -/
structure SideAdd where
  row : Nat
  col : Nat
  p : FVal
  g : W32
  bad : Bool
  deriving DecidableEq, Repr
/-- The dequantised B element at a depth in a column. -/
def sideB (s : State) (id : Nat) (m : Mma) (j k : Nat) : EngRes (FVal × Bool) :=
  let off := j * m.bstride + k / 2
  (viewRead s id ((m.b.addr + off) % 2 ^ 48) 1 1).bind fun s (x, p) =>
    (viewRead s id (((m.b.addr + m.bscale + (off / 16 * 2 : Nat) : Int) % 2 ^ 48).toNat) 2 2).bind fun s (sc, q) =>
      let code := x / 2 ^ (4 * (k % 2)) % 16
      let v := if sc % 256 = 255 then FVal.nan false
        else (if code = 8 then narrowVal 9 (sc / 256) else narrowVal 11 code).shift ((sc % 256 : Nat) - 127)
      .ok s (v, p || q)
/-- What one used entry adds to row i, column by column. -/
def foldCols (s : State) (id : Nat) (m : Mma) (i k : Nat) (a : FVal) (pa : Bool) (gens : List W32) : List Nat → EngRes (List SideAdd)
  | [] => .ok s []
  | j :: js => (sideB s id m j k).bind fun s (b, bad) =>
      let x : SideAdd := ⟨i, j, fp32.decode (fp32.round 0 (a.mul b).1).1, gens.getD j 0, pa || bad⟩
      (foldCols s id m i k a pa gens js).bind fun s l => .ok s (x :: l)
/-- What the 16 entries of one side image add; `bad` is the image's poison. -/
def foldImage (s : State) (id : Nat) (m : Mma) (i seg img : Nat) (bad : Bool) (gens : List W32) : List Nat → EngRes (List W32 × List SideAdd)
  | [] => .ok s (gens, [])
  | e :: es =>
    let gens := gens.map advance
    let x := img / 2 ^ (32 * e) % 2 ^ 32
    let idx := x % 2 ^ 16
    let k := 2 * (seg - i * m.astride) + idx
    let next (s : State) (l : List SideAdd) := (foldImage s id m i seg img bad gens es).bind fun s (g, r) => .ok s (g, l ++ r)
    if 128 ≤ idx || m.total ≤ k then next s []
    else (foldCols s id m i k (fp16.decode (x / 2 ^ 16)) bad gens m.cols).bind next
def foldSegs (s : State) (id : Nat) (m : Mma) (gens : List W32) : List (Nat × Nat) → EngRes (List SideAdd × Bool)
  | [] => .ok s ([], false)
  | (i, seg) :: l =>
    (viewRead s id (((m.a.addr + m.side.toInt + seg : Int) % 2 ^ 48).toNat) 2 64).bind fun s (img, bad) =>
      (foldImage s id m i seg img bad gens (List.range 16)).bind fun s (g, xs) =>
        (foldSegs s id m g l).bind fun s (ys, r) => .ok s (xs ++ ys, bad || r)
/-- Add an entry to its accumulator. -/
def State.sideApply (s : State) (o : Op) (m : Mma) (x : SideAdd) : State :=
  let key := slotKey (s.opBase o) x.row x.col
  let old := if m.fmt = 1 then readNat s.mem key 2 else readNat s.mem key 4
  s.writeSlot key (accAdd m.fmt old x.p x.g) (o.poison || x.bad)
/-- The fold: everything is read first, so that a stop or a wait leaves tile and generators as they were, and the resumed fold adds each
entry once; then the entries are added in their order. -/
def State.sideFold (s : State) (id : Nat) (o : Op) (m : Mma) : EngRes Bool :=
  if m.quant && !m.rows.isEmpty && !m.cols.isEmpty then
    (foldSegs s id m o.gens (m.rows.flatMap fun i => (m.segments i).map fun q => (i, q))).bind fun s (xs, bad) =>
      .ok (xs.foldl (fun s x => s.sideApply o m x) s) (bad || xs.any (·.bad))
  else .ok s false

/-! ### `mx.zero`, `mx.ld` and `mx.st` (07 R204) -/

/-- Move the elements from the `prog`-th on; the number done where it stops. -/
def tileMove (s : State) (id : Nat) (o : Op) (base : Nat) (addr : Nat) (stride : Int) (fmt : Nat) (store : Bool) : List (Nat × Nat) → Nat → EngRes Unit × Nat
  | [], n => (.ok s (), n)
  | (i, j) :: l, n =>
    let a := elAddr addr stride fmt i j
    let e := elSize fmt
    let key := slotKey base i j
    if store then
      match engWrite s id o a e (readNat s.mem key e) (if s.poisoned key 4 then List.range e else []) with
      | .ok s _ => tileMove s id o base addr stride fmt store l (n + 1)
      | x => (x, n)
    else
      match viewRead s id a 1 e with
      | .ok s (v, bad) =>
        let s := if bad then s.writePoison none key 4 v else s.write none key 4 v
        tileMove s id o base addr stride fmt store l (n + 1)
      | .stop s x y => (.stop s x y, n)
      | .bad x => (.bad x, n)
      | .wait s => (.wait s, n)
      | .held s t => (.held s t, n)
def EngRes.state {α : Type} (s : State) (r : EngRes α) : State :=
  match r with
  | .ok s _ | .stop s _ _ | .wait s | .held s _ => s
  | .bad _ => s
def State.tileStep (s : State) (id : Nat) (o : Op) (addr : Nat) (stride : Int) (mask : W64) (fmt : Nat) (store : Bool) : State :=
  let o := { o with started := true }
  let s := s.setOp id o
  match tileMove s id o (s.opBase o) addr stride fmt store ((maskEls mask).drop o.prog) o.prog with
  | (.ok s _, n) => s.opEnd id { o with prog := n, fetched := [] } none
  | (.stop s a v, n) => s.opStop id { s.kept id o with prog := n } a v
  | (.bad x, n) => s.opEnd id { o with prog := n } (some (x.cause, x.detail, x.tval.toNat))
  | (.wait s, n) | (.held s _, n) => match s.op id with
    | some p => s.setOp id { p with prog := n }
    | none => s

/-! ### The array's step -/

/-- The tile of an operation lies in a granule that a slice switch has not exchanged yet: the operation waits for it (20 R411). -/
def State.tileAway (s : State) (o : Op) : Bool := o.tile.isSome && s.notYet (s.opBase o) 1024
/-- The array performs one step of the operation that is first in its queue. `upsets` and `again` are the errors of an outside cause in the
sum as formed and as formed again (07 R203). -/
def execMatrixStep (cell : Nat) (upsets : List Upset) (again : List Upset) (s : State) : Host.Outcome State Fault Refusal :=
  match (s.cell cell).mxq with
  | [] => .next s
  | id :: _ =>
    match s.op id with
    | none => .next s
    | some o =>
      if !o.runs || s.cycle < o.next || s.heldByChain cell id o then .next s
      else if s.opWaits id o || s.tileAway o then .next (s.dueLater (.matrixStep cell))
      else
        let mma (m : Mma) : State :=
          let (s, o) := s.mmaStart o m
          let s := s.setOp id o
          if m.rows.isEmpty || m.cols.isEmpty then
            let o := { o with prog := o.prog + 1, next := s.cycle + 2 }
            if m.steps < o.prog then s.opEnd id o none else (s.setOp id o).dueAt (s.cycle + 2) (.matrixStep cell)
          else s.mmaStep id o m upsets again
        match o.kind with
        | .mma m | .copyMx _ _ _ _ _ _ m => .next (mma m)
        | .zero mask =>
          let base := s.opBase o
          .next (((maskEls mask).foldl (fun s (i, j) => s.write none (slotKey base i j) 4 0) s).opEnd id o none)
        | .mxld a st mask fmt => .next (s.tileStep id o a st mask fmt false)
        | .mxst a st mask fmt => .next (s.tileStep id o a st mask fmt true)
        | .lin .. | .copy .. | .gather .. => .next s

/-! ### Issue -/

/-- Start a matrix operation: lock its tile and queue it. -/
def startMx (s : State) (f : Fields) (c i : Nat) (k : OpKind) : Res :=
  let (s, id) := s.startOp (s.newOp c i k (s.complOf f c i none) (some (tileOf f)) f.cp)
  .ok (s.enqueue c id)
def mmaBody (quant : Bool) (f : Fields) : Body := fun s c i e =>
  if !arrayRoom s c || !s.tagRoom f c then .cancel s
  else
    let m := (s.th c i).mkMma quant e.a e.b e.c.val e.c1.val (if quant then e.d.data else 0) (f.m.toNat % 4)
    match s.mmaCheck c i m (tileOf f) with
    | some x => .trap x
    | none => startMx s f c i (.mma m)
def tileTrap (s : State) (f : Fields) (c : Nat) : Option Trap := if tileExists (s.cell c).pword (tileOf f) then none else some ⟨0x09, 0, s.openTval, false⟩
def mxZeroBody (f : Fields) : Body := fun s c i e =>
  if !arrayRoom s c || !s.tagRoom f c then .cancel s
  else match tileTrap s f c with
    | some x => .trap x
    | none => startMx s f c i (.zero e.c.data)
/-- The range check of a tile load or store, and its alignment. -/
def tileCheck (s : State) (c i : Nat) (r : Reg) (stride : Int) (mask : W64) (fmt : Nat) (perms : List Nat) : Option Trap :=
  let els := maskEls mask
  let ads : List Int := els.map fun (i, j) => (r.addr : Int) + i * stride + ((j * elSize fmt : Nat) : Int)
  match ads with
  | [] => permCheck s.openTval r perms
  | a :: as =>
    let lo : Int := as.foldl min a
    let hi : Int := as.foldl max a + (elSize fmt : Nat)
    firstTrap [s.engCheck c i r perms (lo % 2 ^ 48).toNat (hi - lo).toNat,
      (ads.find? fun (x : Int) => x % ((elSize fmt : Nat) : Int) ≠ 0).map fun (x : Int) => ⟨0x04, 0, BitVec.ofNat 96 (x % 2 ^ 48).toNat, false⟩]
def mxMoveBody (store : Bool) (f : Fields) : Body := fun s c i e =>
  if !arrayRoom s c || !s.tagRoom f c then .cancel s
  else
    let fmt := f.m.toNat % 4
    let st := e.b.data.toInt
    let perms := if store then permDst else permSrc
    match firstTrap [tileCheck s c i e.a st e.c.data fmt perms, tileTrap s f c] with
    | some x => .trap x
    | none => startMx s f c i (if store then .mxst e.a.addr st e.c.data fmt else .mxld e.a.addr st e.c.data fmt)

def execMxMma (f : Fields) (s : State) : Host.Outcome State Fault Refusal := .next (runThread (.mxMma f) (mmaBody false) s)
def execMxMmaq (f : Fields) (s : State) : Host.Outcome State Fault Refusal := .next (runThread (.mxMmaq f) (mmaBody true) s)
def execMxZero (f : Fields) (s : State) : Host.Outcome State Fault Refusal := .next (runThread (.mxZero f) mxZeroBody s)
def execMxLd (f : Fields) (s : State) : Host.Outcome State Fault Refusal := .next (runThread (.mxLd f) (mxMoveBody false) s)
def execMxSt (f : Fields) (s : State) : Host.Outcome State Fault Refusal := .next (runThread (.mxSt f) (mxMoveBody true) s)

/-- The counts since the last `mx.chk`, which clears them (07 R205). -/
def chkBody (inject : Bool) (f : Fields) : Body := fun s c i _ =>
  let x := s.cell c
  let w : W64 := BitVec.ofNat 64 (x.repairs + x.replays * 2 ^ 32 + x.faults * 2 ^ 48)
  .ok ((s.modCell c fun x => { x with repairs := 0, replays := 0, faults := 0, inject := x.inject || inject }).writeD c i f.d w)
def execMxChk (f : Fields) (s : State) : Host.Outcome State Fault Refusal := .next (runThread (.mxChk f) (chkBody false) s)
def execMxChkInject (f : Fields) (s : State) : Host.Outcome State Fault Refusal := .next (runThread (.mxChkInject f) (chkBody true) s)

end Sys2Proof.Machine
end

