-- ==== Sys2Proof/Machine/Copy.lean ====
section
/-!
DEFINITION. The copy engine and the copy tags (07 R184-R191; 18 R380, R381), the end of an engine operation (07 R180), and the engine fault
path (07 R183, 20 R426).
-/
namespace Sys2Proof.Machine

/-! ### Issue (07 R185-R188) -/

def copyRoom (s : State) (f : Fields) (c : Nat) : Bool := s.copies c < 32 && s.tagRoom f c
/-- Start a copy whose first step is `d`, or complete it at once when it has nothing to do. -/
def startCopy (s : State) (f : Fields) (c i dst : Nat) (k : OpKind) (empty : Bool) : Res :=
  let compl := s.complOf f c i (some dst)
  if empty then
    let s := s.claim compl
    let s := match s.doneData compl with
      | some (c', v) => s.note (s.partOf c i) ephDone c' i v
      | none => s
    .ok (s.signal compl none)
  else
    let o := s.newOp c i k compl none f.cp
    let (s, id) := s.startOp o
    .ok (s.dueLater (o.work id))
def linBody (f : Fields) : Body := fun s c i e =>
  if !copyRoom s f c then .cancel s
  else
    let n := e.c.data.toNat
    match firstTrap [s.engCheck c i e.a permSrc e.a.addr n, s.engCheck c i e.b permDst e.b.addr n,
        if 2 ^ 40 ≤ n then some ⟨0x09, 0x30, s.openTval, false⟩ else none] with
    | some x => .trap x
    | none => startCopy s f c i e.b.addr (.lin e.a.addr e.b.addr n) (n = 0)
/-- A copy shape: row length, row count, source stride, destination stride (07 R186). -/
structure Shape where
  len : Nat
  rows : Nat
  sst : Int
  dst : Int
  deriving DecidableEq, Repr
def shapeOf (lo hi : W64) : Shape := ⟨bits lo 0 32, bits lo 32 32, sext 32 (bits hi 0 32), sext 32 (bits hi 32 32)⟩
def Shape.empty (x : Shape) : Bool := x.len = 0 || x.rows = 0
def Shape.limit (x : Shape) (tval : W96) : Option Trap :=
  if 2 ^ 24 < x.len || 65536 < x.rows then some ⟨0x09, 0x30, tval, false⟩ else none
/-- The check of a capability over all rows, from the lowest byte to the highest. -/
def State.rowsCheck (s : State) (c i : Nat) (r : Reg) (perms : List Nat) (x : Shape) (stride : Int) : Option Trap :=
  if x.empty then s.engCheck c i r perms r.addr 0
  else
    let last : Int := ((x.rows - 1 : Nat) : Int) * stride
    let lo : Int := min 0 last
    let hi : Int := max 0 last + (x.len : Int)
    s.engCheck c i r perms (((r.addr : Int) + lo) % 2 ^ 48).toNat (hi - lo).toNat
def tdBody (f : Fields) : Body := fun s c i e =>
  if !copyRoom s f c then .cancel s
  else
    let x := shapeOf e.c.data e.c1.data
    match firstTrap [s.rowsCheck c i e.a permSrc x x.sst, s.rowsCheck c i e.b permDst x x.dst, x.limit s.openTval] with
    | some t => .trap t
    | none => startCopy s f c i e.b.addr (.copy e.a.addr e.b.addr x.len x.rows x.sst x.dst) x.empty
def gatherBody (f : Fields) : Body := fun s c i e =>
  if !copyRoom s f c then .cancel s
  else
    let n := bits e.c1.data 0 32
    match firstTrap [permCheck s.openTval e.a permSrc, permCheck s.openTval e.b permDst, s.engCheck c i e.c permSrc e.c.addr (16 * n),
        if 65536 < n then some ⟨0x09, 0x31, s.openTval, false⟩ else none] with
    | some x => .trap x
    | none => startCopy s f c i e.b.addr (.gather e.a e.b e.c.addr n) (n = 0)
/-- The command block of `cp.mx`: its key, or its fault (07 R188). -/
def State.blockKey (s : State) (c i : Nat) (a : Reg) : Except Trap Nat :=
  let tv : W96 := BitVec.ofNat 96 a.addr
  match capCheckOpen s.openTval a [permRd, permLdcap, permEng] a.addr 128 with
  | some x => .error x
  | none =>
    if a.addr % 128 ≠ 0 then .error ⟨0x04, 0, tv, false⟩
    else
      let place : Trap := ⟨0x09, 0x33, tv, false⟩
      let mine := a.addr / 2 ^ 44 % 16 = 14 || physOf (s.partOf c i) (a.addr / 2 ^ 34 % 2 ^ 10) = some c
      match s.space c i ((s.th c i).mode = .user) a.addr 128 with
      | .ok (some k) => if ownPool c k then .ok k else .error place
      | .ok none => .error place
      | .error x => .error (if x.cause = 6 && mine then x else place)
def cpMxBody (f : Fields) : Body := fun s c i e =>
  if !copyRoom s f c then .cancel s
  else match s.blockKey c i e.a with
    | .error x => .trap x
    | .ok k => tileOr s k 128 (
      match s.poisonAt k 128 with
      | some j => .poison (e.a.addr + j)
      | none =>
        let s := s.access (s.payer c i) k 128 false
        let cell (off : Nat) : Reg := ⟨BitVec.ofNat 128 (readNat s.mem (k + off) 16), s.tagAt (k + off)⟩
        let (src, dst, sh, last) := (cell 0, cell 16, cell 32, cell 112)
        let x := shapeOf (sh.val.setWidth 64) (BitVec.ofNat 64 (bits sh.val 64 64))
        let m := (s.th c i).mkMma (f.m.getLsbD 2) (cell 48) (cell 64) (cell 80).val (cell 96).val (BitVec.ofNat 64 (bits last.val 64 64)) (f.m.toNat % 4)
        match firstTrap [if bits last.val 0 64 ≠ 0 then some ⟨0x09, 0x34, BitVec.ofNat 96 e.a.addr, false⟩ else none,
            x.limit s.openTval, s.rowsCheck c i src permSrc x x.sst, s.rowsCheck c i dst permDst x x.dst, s.mmaCheck c i m (tileOf f)] with
        | some t => .trap t
        | none =>
          let (s, id) := s.startOp (s.newOp c i (.copyMx src.addr dst.addr x.len x.rows x.sst x.dst m) (s.complOf f c i (some dst.addr)) (some (tileOf f)) f.cp)
          .ok (s.dueLater (.segment id)))

def execCpLin (f : Fields) (s : State) : Host.Outcome State Fault Refusal := .next (runThread (.cpLin f) linBody s)
def execCpTd (f : Fields) (s : State) : Host.Outcome State Fault Refusal := .next (runThread (.cpTd f) tdBody s)
def execCpG (f : Fields) (s : State) : Host.Outcome State Fault Refusal := .next (runThread (.cpG f) gatherBody s)
def execCpMx (f : Fields) (s : State) : Host.Outcome State Fault Refusal := .next (runThread (.cpMx f) cpMxBody s)

/-! ### Copy tags (07 R191) -/

def waitTags (all : Bool) (f : Fields) : Body := fun s c i e =>
  match tagResult (s.cell c).tdone e.a.data all with
  | some v => .ok (s.writeD c i f.d v)
  | none => .park s (.tags all e.a.data f.d)
def ffrBody (f : Fields) : Body := fun s c i e =>
  let v := (s.cell c).tfail &&& e.a.data
  .ok ((s.modCell c fun x => { x with tfail := x.tfail &&& ~~~v }).writeD c i f.d v)
def ffrRecBody (f : Fields) : Body := fun s c i e =>
  let v := (s.cell c).tfail &&& e.a.data
  match (List.range 64).find? v.getLsbD with
  | none => .ok (s.writeD c i f.d 0)
  | some n =>
    let r := (s.cell c).trec.at n 0
    .ok ((s.modCell c fun x => { x with tfail := setBits x.tfail n 1 0 }).writeD c i f.d r)

def execCpWany (f : Fields) (s : State) : Host.Outcome State Fault Refusal := .next (runThread (.cpWany f) (waitTags false) s)
def execCpWall (f : Fields) (s : State) : Host.Outcome State Fault Refusal := .next (runThread (.cpWall f) (waitTags true) s)
def execCpFfr (f : Fields) (s : State) : Host.Outcome State Fault Refusal := .next (runThread (.cpFfr f) ffrBody s)
def execCpFfrRec (f : Fields) (s : State) : Host.Outcome State Fault Refusal := .next (runThread (.cpFfrRec f) ffrRecBody s)

/-! ### The pieces of a copy (07 R189) -/

/-- What a copy moves: destination, source, length, and whether the entry that names it was poisoned. -/
def Op.moves (o : Op) : List (Nat × Nat × Nat × Bool) :=
  match o.kind with
  | .lin src dst len => [(dst, src, len, false)]
  | .copy src dst len rows sst dst' | .copyMx src dst len rows sst dst' _ =>
    (List.range rows).map fun (k : Nat) =>
      (((dst : Int) + k * dst') % 2 ^ 48 |>.toNat, ((src : Int) + k * sst) % 2 ^ 48 |>.toNat, len, false)
  | .gather .. => o.pieces
  | _ => []
/-- The next aligned 64-byte destination segment at or after an address. -/
def nextSeg (ps : List (Nat × Nat × Nat × Bool)) (prog : Nat) : Option Nat :=
  (ps.foldl (fun (m : Option Nat) (d, _, n, _) =>
    if n = 0 || d + n ≤ prog then m
    else
      let a := max d prog
      match m with
      | none => some a
      | some b => some (min a b)) none).map fun a => a / 64 * 64
/-- The parts of the pieces that lie in a segment. -/
def frags (ps : List (Nat × Nat × Nat × Bool)) (seg : Nat) : List (Nat × Nat × Nat × Bool) :=
  ps.filterMap fun (d, s, n, b) =>
    let lo := max d seg
    let hi := min (d + n) (seg + 64)
    if lo < hi then some (lo, (s + (lo - d)) % 2 ^ 48, hi - lo, b) else none
/-- The bytes of a part and those that are poisoned, source segment by source segment. -/
def fragRead (s : State) (id : Nat) (o : Op) (va : Nat) : Nat → Nat → EngRes (Nat × List Nat)
  | 0, _ => .ok s (0, [])
  | fuel + 1, n =>
    if n = 0 then .ok s (0, [])
    else
      let k := min n (64 - va % 64)
      (engRead s id o va k).bind fun s (v, bad) =>
        (fragRead s id o ((va + k) % 2 ^ 48) fuel (n - k)).bind fun s (w, b) => .ok s (v + 2 ^ (8 * k) * w, bad ++ b.map (· + k))
def readFrags (s : State) (id : Nat) (o : Op) : List (Nat × Nat × Nat × Bool) → EngRes (List (Nat × Nat × Nat × List Nat))
  | [] => .ok s []
  | (d, a, n, b) :: l => (fragRead s id o a 3 n).bind fun s (v, bad) =>
      (readFrags s id o l).bind fun s r => .ok s ((d, n, v, if b then List.range n else bad) :: r)
def writeFrags (s : State) (id : Nat) (o : Op) : List (Nat × Nat × Nat × List Nat) → EngRes Unit
  | [] => .ok s ()
  | (d, n, v, bad) :: l => (engWrite s id o d n v bad).bind fun s _ => writeFrags s id o l
def destKeys (s : State) (o : Op) : List (Nat × Nat × Nat × Bool) → EngRes (List (Nat × Nat))
  | [] => .ok s []
  | (d, _, n, _) :: l => (engKey s o d n .store).bind fun s k => (destKeys s o l).bind fun s r => .ok s ((k, n) :: r)
/-- Whether a write must wait for a tile lock: any but the one that the same `cp.mx` holds (07 R189). -/
def State.tileHeld (s : State) (o : Op) (key n : Nat) : Bool :=
  match kindOf key with
  | .pool c =>
    let x := s.cell c
    let b := bits x.pword 0 8 * 4096
    s.notYet key n || x.locks.any fun (t, k) => key % 2 ^ 20 < b + 1024 * (t + 1) && b + 1024 * t < key % 2 ^ 20 + n &&
      (if c = o.cell && o.tile = some t then 1 else 0) < k
  | _ => false

/-- The pool bytes, each a key with a length, that the next step of an operation may access. -/
def State.stepPools (s : State) (o : Op) : List (Nat × Nat) :=
  let moved := match nextSeg o.moves o.prog with
    | some seg => (frags o.moves seg).flatMap fun (d, a, n, _) => [(d, n), (a, n)]
    | none => []
  let l := match o.kind with
    | .gather _ _ list n => if o.entry < n && o.failed.isNone then [((list + 16 * o.entry) % 2 ^ 48, 16)] else moved
    | .lin .. | .copy .. => moved
    | .copyMx .. => if o.chain then o.kind.touches else moved
    | k => k.touches
  l.filterMap fun (a, n) => match s.spaceOf o.part o.cell o.user a n with
    | .ok (some k) => some (k, n)
    | _ => none
/-- The operation that a piece of work is a step of, when that step accesses the pool of another cell: it arrives there over the mesh (01 R12). -/
def State.meshOp (s : State) (d : Due) : Option Op :=
  let op : Option Op := match d with
    | .segment n | .entryRead n | .completion n => s.ops.look n
    | .matrixStep c => ((s.cell c).mxq.head?).bind s.op
    | _ => none
  op.filter fun o => !o.held && o.stop.isNone && o.fault.isNone && (s.stepPools o).any fun x => x.1 / 2 ^ 20 ≠ o.cell

/-! ### The steps of a copy -/

/-- All bytes of a copy are written: its command waits for the array, or it has ended. -/
def State.copyDone (s : State) (id : Nat) (o : Op) : State :=
  match o.kind with
  | .copyMx .. =>
    -- the command follows the copy's writes: those to peer memory are performed when the peer has answered
    if s.reqs.any fun x => x.2.engine = some id then (s.setOp id o).dueLater (.segment id)
    else (s.setOp id { o with chain := true, prog := 0, started := false, fetched := [] }).dueNow (.chain id)
  | _ => s.opEnd id { o with fetched := [] } none
/-- The launch message that a copy of one aligned segment sends (18 R381). -/
def State.launch (s : State) (id : Nat) (o : Op) (va key v : Nat) : State :=
  let n := s.nextId
  let r : Req := { cell := o.cell, slot := o.slot, fn := o.fn, va := va, key := key, op := .store 64 (BitVec.ofNat 512 v) false, engine := some id, sent := s.cycle }
  let m : FabMsg := { op := 4, addr := key / 4096 % 2 ^ 15, bytes := 64, src := s.fabricId.toNat, dst := (key - keyLaunch) / 2 ^ 48,
                      tag := n % 4096, svf := o.fn, len := 4, data := BitVec.ofNat 512 v }
  ((({ s with reqs := s.reqs.put n r, nextId := n + 1 } : State).setOp id { o with peer := some n }).send m).dueAt (s.cycle + 2 ^ 20) (.peerTimeout n)
/-- Whether a copy is one aligned segment to a page that names a peer launch queue, with the key of the page. -/
def State.launchKey (s : State) (o : Op) : EngRes (Option Nat) :=
  match o.kind with
  | .lin _ dst len =>
    if len = 64 && dst % 64 = 0 then
      match s.spaceOf o.part o.cell o.user dst 64 with
      | .ok none =>
        match s.translate (some o.fn) o.cell o.asid.toNat dst .store o.user true with
        | (s, .ok k) => .ok s (if keyLaunch ≤ k then some k else none)
        | (s, .fault) => .stop s 1 dst
        | (s, .held t) => .held s t
      | _ => .ok s none
    else .ok s none
  | _ => .ok s none
/-- How a step of an operation ends: it goes on in a state, or stops, or ends early. -/
def EngRes.run {α : Type} (r : EngRes α) (s0 : State) (id : Nat) (o : Op) (f : State → α → State) : State :=
  match r with
  | .ok s v => f s v
  | .stop s a v => s.opStop id o a v
  | .bad x => s0.opEnd id o (some (x.cause, x.detail, x.tval.toNat))
  | .wait s => s
  | .held s t => s.dueAt t (o.work id)
/-- One segment: its keys, its sources at one instant, and its writes; then the bytes are counted at a barrier. -/
def State.copySegment (s : State) (id : Nat) (o : Op) (seg : Nat) : State :=
  let fs := frags o.moves seg
  (destKeys s o fs).run s id o fun s1 ks =>
    if ks.any fun (k, n) => s1.tileHeld o k n then (ks.foldl (fun s (k, n) => if s.notYet k n then s.want k n else s) s1).dueLater (.segment id)
    else match ks.findSome? fun (k, n) => s1.engHeld id o k n with
    | some s2 => s2
    | none =>
      (readFrags s1 id o fs).run s id o fun s2 rs =>
        (writeFrags (s2.coverUnits (ks.filter fun x => !s2.linkDown x.1)) id o rs).run s id o fun s3 _ =>
          let s4 := if ks.any fun x => keyPeer ≤ x.1 then s3 else s3.countBytes o (fs.map fun x => x.2.2.1).sum
          let o := { o with started := true, prog := seg + 64, fetched := [] }
          match nextSeg o.moves (seg + 64) with
          | some _ => (s4.setOp id o).dueLater (.segment id)
          | none => s4.copyDone id o
def execCopySegmentWrite (op : Nat) (s : State) : Host.Outcome State Fault Refusal :=
  match s.op op with
  | none => .next s
  | some o =>
    if !o.runs || o.chain || !isCopy o.kind then .next s
    else if s.opWaits op o then .next (s.dueLater (.segment op))
    else .next ((s.launchKey o).run s op o fun s k =>
      match k with
      | some k =>
        match o.kind with
        | .lin src dst _ => (fragRead s op o src 3 64).run s op o fun s (v, _) => s.launch op { o with started := true, fetched := [] } dst k v
        | _ => s
      | none =>
        match nextSeg o.moves o.prog with
        | some seg => s.copySegment op o seg
        | none => s.copyDone op o)
/-- Read the next list entry of a gather (07 R187). -/
def execCpGEntryRead (op : Nat) (s : State) : Host.Outcome State Fault Refusal :=
  match s.op op with
  | none => .next s
  | some o =>
    match o.kind with
    | .gather src dst list n =>
      if !o.runs || n ≤ o.entry || o.failed.isSome then .next s
      else if s.opWaits op o then .next (s.dueLater (.entryRead op))
      else
        let a := (list + 16 * o.entry) % 2 ^ 48
        .next ((engReadAll s op o a 2 16).run s op o fun s (w, bad) =>
          let o := { o with started := true, fetched := [] }
          let (from_, len) := (w % 2 ^ 48, w / 2 ^ 64 % 2 ^ 32)
          let into := (dst.addr + o.total) % 2 ^ 48
          let space (x : Nat) : Option (Nat × Nat) := if len = 0 then none else match s.spaceOf o.part o.cell o.user x len with
            | .error t => some (t.cause, t.detail)
            | .ok _ => none
          let fails : Option (Nat × Nat) :=
            if w / 2 ^ 48 % 2 ^ 16 ≠ 0 || w / 2 ^ 96 ≠ 0 then some (0x09, 0)
            else if (capCheck src permSrc from_ len).isSome || (capCheck dst permDst into len).isSome then some (0x07, 0)
            else (space from_).orElse fun _ => space into
          match fails with
          | some (cause, detail) => (s.setOp op { o with failed := some (cause, detail, a) }).dueLater (.segment op)
          | none =>
            let o := { o with entry := o.entry + 1, total := o.total + len, pieces := o.pieces ++ [(into, from_, len, bad)] }
            (s.setOp op o).dueLater (o.work op))
    | _ => .next s

/-! ### The chained matrix command of `cp.mx` (07 R188) -/

/-- Put an entry before the first one that satisfies a condition. -/
def insertBefore (p : Nat → Bool) (x : Nat) : List Nat → List Nat
  | [] => [x]
  | y :: l => if p y then x :: y :: l else y :: insertBefore p x l
def execCpmxChainEnqueue (op : Nat) (s : State) : Host.Outcome State Fault Refusal :=
  match s.op op with
  | none => .next s
  | some o =>
    let q := (s.cell o.cell).mxq
    if !o.chain || !o.runs || q.contains op then .next s
    else
      let waits (j : Nat) : Bool := op < j && match s.op j with
        | some p => p.tile = o.tile
        | none => false
      if q.any waits || q.length < 8 then
        .next ((s.modCell o.cell fun x => { x with mxq := insertBefore waits op x.mxq }).dueLater (.matrixStep o.cell))
      else .next s

/-! ### Completion (07 R180, R183, R202) -/

/-- The end of an operation that has ended: its tile is unlocked and its object signalled. -/
def State.opClose (s : State) (id : Nat) (o : Op) : State :=
  let s := match o.tile with
    | some t => s.unlock o.cell t
    | none => s
  let s := match s.doneData o.compl with
    | some (c, v) => if isCopy o.kind then s.note o.part ephDone c o.slot v else s
    | none => s
  let s := (s.modCell o.cell fun x => { x with mxq := x.mxq.filter (· != id) }).signal o.compl o.failed
  let s : State := { s with ops := s.ops.del id }
  if o.tile.isSome then
    (s.ops.filter fun (_, p) => p.cell = o.cell && p.chain).foldl (fun s (j, _) => s.dueNow (.chain j)) (s.dueLater (.matrixStep o.cell))
  else s
def Op.mma (o : Op) : Option Mma :=
  match o.kind with
  | .mma m => some m
  | .copyMx _ _ _ _ _ _ m => if o.chain then some m else none
  | _ => none
/-- A replay holds a completion until it stands next. -/
def State.doneHeld (s : State) (o : Op) : Bool :=
  match s.doneData o.compl with
  | some (c, v) => isCopy o.kind && !s.ephOk o.part ephDone c o.slot v
  | none => false
/-- Its writes are performed and its peer writes answered: fold the side plane, write back the accumulators, and close. -/
def execEngineCompletion (op : Nat) (s : State) : Host.Outcome State Fault Refusal :=
  match s.op op with
  | none => .next s
  | some o =>
    if !o.finished || o.held || o.stop.isSome || o.peer.isSome then .next s
    else if s.reqs.any (fun x => x.2.engine = some op) || s.doneHeld o || (o.mma.isSome && s.tileAway o) then .next (s.dueLater (.completion op))
    else match o.mma with
      | none => .next (s.opClose op o)
      | some m =>
        let close (s : State) (o : Op) : State :=
          let s := s.intBack o m (s.opBase o)
          (if o.poison then s.poisonSlots m (s.opBase o) else s).opClose op o
        if o.failed.isSome then .next (close s o)
        else match s.sideFold op o m with
          | .ok s bad => .next (close s { o with poison := o.poison || bad })
          | .stop s a v => .next (s.opStop op (s.kept op o) a v)
          | .bad x => .next (close s { o with failed := some (x.cause, x.detail, x.tval.toNat) })
          | .wait s | .held s _ => .next s

/-! ### Engine faults (20 R426) -/

/-- The record of a failed translation; while every record awaits a reply, the fault waits. -/
def execEngineFaultRecord (op : Nat) (s : State) : Host.Outcome State Fault Refusal :=
  match s.stopped op with
  | none => .next s
  | some (kind, acc, va, fn, cell, slot, asid) =>
    match s.faultRing fn (faultWord kind acc cell slot asid) va false with
    | (s, none) => .next (s.dueLater (.faultRecord op))
    | (s, some n) =>
      match s.ops.look op, s.cmds.look op with
      | some o, _ => .next (s.setOp op { o with fault := some (fn, n) })
      | none, some r => .next { s with cmds := s.cmds.put op { r with fault := some (fn, n) } }
      | none, none =>
        match s.spills.look op with
        | some x => .next { s with spills := s.spills.put op { x with fault := some (fn, n) } }
        | none => .next s

end Sys2Proof.Machine
end

