-- ==== Sys2Proof/Machine/Device.lean ====
section
/-!
DEFINITION. What prompters, ports and queues of the device share: accesses through the tables of an address space (20 R420-R425), queue
contexts and completion records (18 R364, R369), and the messages of vectors (18 R370).
-/
namespace Sys2Proof.Machine

/-! ### Accesses of the device -/

/-- Translate for a unit of the device that acts for a function, by a walk of its own that no TLB keeps. -/
def State.walkDev (s : State) (f asid va : Nat) (acc : Acc) (user : Bool) : State × Walked Nat :=
  match s.rootOf f asid with
  | none => (s, .fault)
  | some root =>
    match s.walkRoot f root va acc user false [s.rootKey f asid] with
    | (s, .ok (e, log)) => (s, .ok (leafKey e log va))
    | (s, .fault) => (s, .fault)
    | (s, .held t) => (s, .held t)
/-- Translate an access that does not leave its page and names no pool; the function must own the address space (20 R420). -/
def State.devKey (s : State) (f asid va : Nat) (acc : Acc) (user : Bool := false) : State × Walked Nat :=
  if 14 ≤ va / 2 ^ 44 || s.owner asid ≠ some f then (s, .fault) else s.walkDev f asid (va % 2 ^ 48) acc user
/-- What an access of a unit of the device comes to: a value, a failed translation or poison, or a wait at a controller until a cycle. -/
def State.devRead (s : State) (fn asid va n : Nat) : State × Walked Nat :=
  match s.devKey fn asid va .load with
  | (s, .ok k) =>
    match kindOf k with
    | .peer _ => (s, .fault)
    | _ =>
      match s.holdAct fn 0 [(k, n)] with
      | (s, some t) => (s, .held t)
      | (s, none) =>
        match (s.access (some fn) k n false).readHome k n with
        | (s, v, none) => (s, .ok v)
        | (s, _, some _) => (s, .fault)
  | x => x
/-- Whether a read of a 64-byte entry by a unit of the device fails by poison, and not by its translation or its kind of memory (22 R441, R448). -/
def State.devPoison (s : State) (fn asid va : Nat) : Bool :=
  match (s.devKey fn asid va .load).2 with
  | .ok k => k < keyPeer && (s.linkDown k || s.poisoned k 64)
  | _ => false
/-- Write up to 64 bytes of an aligned segment: it fails when translation fails or its home cannot take it. -/
def State.devWrite (s : State) (fn asid va n v : Nat) : State × Walked Unit :=
  match s.devKey fn asid va .store with
  | (s, .ok k) =>
    match kindOf k with
    | .peer _ => (s, .fault)
    | _ =>
      match s.holdAct fn 0 [(k, n)] with
      | (s, some t) => (s, .held t)
      | (s, none) => if s.linkDown k then (s.linkErr k, .fault) else ((s.access (some fn) k n true).writeHome none k n v false false, .ok ())
  | (s, .fault) => (s, .fault)
  | (s, .held t) => (s, .held t)

/-! ### Vectors that carry queue completions (18 R370) -/

/-- Send the vector's message, or set its pending bit while it is masked. -/
def State.sendVec (s : State) (f v : Nat) : State :=
  let x := (s.fnSt f).vecs.at v {}
  let put (y : Vec) (s : State) : State := s.setFn f { s.fnSt f with vecs := (s.fnSt f).vecs.set v y {} }
  if x.masked then put { x with pending := true, armed := false } s
  else put { x with sent := x.sent + 1, armed := false } (s.emitOut (.msix f v))
/-- A record has been written: one message while armed. -/
def State.signalVec (s : State) (f v : Nat) : State := if ((s.fnSt f).vecs.at v {}).armed then s.sendVec f v else s

/-! ### Queue contexts (18 R364) -/

def qRingbase (x : W512) : Nat := bits x 0 48
def qLogsize (x : W512) : Nat := bits x 48 5
def qEn (x : W512) : Bool := x.getLsbD 53
def qMode (x : W512) : Nat := bits x 54 2
def qCplbase (x : W512) : Nat := bits x 64 48
def qCpllog (x : W512) : Nat := bits x 112 5
def qVec (x : W512) : Nat := bits x 117 11
def qAsid (x : W512) : Nat := bits x 128 13
def qVf (x : W512) : Nat := bits x 144 8
def qPart (x : W512) : Nat := bits x 152 8
def qAclbase (x : W512) : Nat := bits x 160 16
def qAclcnt (x : W512) : Nat := bits x 176 8
def qCodebase (x : W512) : Nat := bits x 192 48
def qCodelen (x : W512) : Nat := bits x 256 32
def qHead (x : W512) : Nat := bits x 288 32
def qTail (x : W512) : Nat := bits x 320 32
def qCpltail (x : W512) : Nat := bits x 352 32
def qCplerr (x : W512) : Bool := x.getLsbD 386
/-- Entries in the ring, and records that the host has not consumed. -/
def HwQueue.depth (q : HwQueue) : Nat := (qTail q.ctx + 2 ^ 32 - qHead q.ctx) % 2 ^ 32
def HwQueue.cplDepth (q : HwQueue) : Nat := (qCpltail q.ctx + 2 ^ 32 - q.cplhead.toNat) % 2 ^ 32
def HwQueue.cplFull (q : HwQueue) : Bool := q.cplDepth = 2 ^ qCpllog q.ctx
def HwQueue.setBit (q : HwQueue) (n : Nat) : HwQueue := { q with ctx := setBits q.ctx n 1 1 }
/-- Cookie of a packet. -/
def pkCookie (p : W512) : Nat := bits p 448 64

/-! ### Completion records (18 R369) -/

/-- A record without its phase, which its position gives. -/
def cplWord (cookie q entry code : Nat) : W128 :=
  BitVec.ofNat 128 (code % 256 + entry % 2 ^ 16 * 2 ^ 16 + q % 2 ^ 15 * 2 ^ 32 + cookie % 2 ^ 64 * 2 ^ 64)
/-- Write the held records while the ring has room and the writes succeed. -/
def State.writeCpls (s : State) (q : Nat) : Nat → State
  | 0 => s
  | n + 1 =>
    let x := s.queue q
    match x.heldCpl with
    | [] => s
    | r :: rs =>
      if qCplerr x.ctx then s
      else if x.cplFull then s.setQueue q (x.setBit 385)
      else
        let t := qCpltail x.ctx
        let phase : Bool := t / 2 ^ qCpllog x.ctx % 2 = 0
        let va := qCplbase x.ctx + 16 * (t % 2 ^ qCpllog x.ctx)
        match s.devWrite (qVf x.ctx) (qAsid x.ctx) va 16 (r.toNat + phase.toNat * 2 ^ 15) with
        | (s, .ok ()) =>
          let x := s.queue q
          let s := s.setQueue q { x with ctx := setBits x.ctx 352 32 ((t + 1) % 2 ^ 32), heldCpl := rs }
          (s.signalVec (qVf x.ctx) (qVec x.ctx)).writeCpls q n
        | (s, .fault) => (s.setQueue q ((s.queue q).setBit 386)).raise (qVf x.ctx) 0
        | (s, .held _) => s
def State.flushCpls (s : State) (q : Nat) : State := s.writeCpls q ((s.queue q).heldCpl.length)
/-- Records that a throttled row kept from being written are written when it lets them (21 R436). -/
def State.flushHeld (s : State) : State := s.queues.foldl (fun s (q, x) => if x.heldCpl.isEmpty then s else s.flushCpls q) s
/-- While a queue's completion ring is full, cplovf is set (18 R366). -/
def State.flagFull (s : State) : State :=
  { s with queues := s.queues.map fun (q, x) => (q, if qEn x.ctx && x.cplFull then x.setBit 385 else x) }
/-- Complete an item taken or dropped. -/
def State.completeItem (s : State) (q cookie entry code : Nat) : State :=
  let x := s.queue q
  (s.setQueue q { x with heldCpl := x.heldCpl ++ [cplWord cookie q entry code] }).flushCpls q

/-! ### Heads (18 R366, 19 R387) -/

/-- Forget the marks of tail values that the head has passed. -/
def HwQueue.prune (q : HwQueue) : HwQueue :=
  { q with marks := q.marks.filter fun (t, _) => 0 < (t + 2 ^ 32 - qHead q.ctx) % 2 ^ 32 && (t + 2 ^ 32 - qHead q.ctx) % 2 ^ 32 ≤ q.depth }
/-- Advance head; the next entry, which no decision has examined yet, is read when there is one. -/
def State.advanceHead (s : State) (q : Nat) : State :=
  let x := s.queue q
  let x := { x with ctx := setBits x.ctx 288 32 ((qHead x.ctx + 1) % 2 ^ 32), head := none, waiting := false }.prune
  let s := s.setQueue q x
  if 0 < x.depth then s.dueLater (.headRead q) else s
/-- Set tail to `t`, when the head entry is not held yet it is read. -/
def State.setTail (s : State) (q t : Nat) : State :=
  let x := s.queue q
  let x := { x with ctx := setBits x.ctx 320 32 t, marks := x.marks ++ [(t % 2 ^ 32, s.cycle)] }.prune
  let s := s.setQueue q x
  if x.head.isNone && 0 < x.depth then s.dueLater (.headRead q) else s
/-- Address of an entry by its count. -/
def entryVa (x : W512) (i : Nat) : Nat := qRingbase x + 64 * (i % 2 ^ qLogsize x)
/-- Drop every item still in the ring with completion code 9, and set head to tail (18 R364). The rest waits while a controller holds the read of
an entry. -/
def State.dropItems (s : State) (q : Nat) : Nat → State
  | 0 => s
  | n + 1 =>
    let x := s.queue q
    if x.depth = 0 then s
    else
      let i := qHead x.ctx
      let drop (s : State) (cookie : Nat) : State :=
        let x := s.queue q
        let s := s.setQueue q { x with ctx := setBits x.ctx 288 32 ((i + 1) % 2 ^ 32), head := none, waiting := false }.prune
        (s.completeItem q cookie i 9).dropItems q n
      match x.head with
      | some p => drop s (pkCookie p)
      | none =>
        match s.devRead (qVf x.ctx) (qAsid x.ctx) (entryVa x.ctx i) 64 with
        | (s, .ok v) => drop s (v / 2 ^ 448)
        | (s, .fault) => drop { s with fresh := s.fresh + 1 } (bits (Config.freeValue s.fresh) 0 64)
        | (s, .held t) => (s.setQueue q { s.queue q with dropping := true }).dueAt t (.headRead q)
def State.disableQueue (s : State) (q : Nat) : State :=
  let x := s.queue q
  let s := s.setQueue q { x with ctx := setBits x.ctx 53 1 0 }
  s.dropItems q x.depth

end Sys2Proof.Machine
end

