-- ==== Sys2Proof/Machine/Message.lean ====
section
/-!
DEFINITION. Messages between threads (06 R170-R178, 10 R300): sends and packets, their way to the receiving cell and their landing, arrival
interrupts, and the parked threads that an interrupt or an arrival moves.
-/
namespace Sys2Proof.Machine

/-! ### Sends (06 R171-R173) -/

/-- The physical cell that a target word names, by virtual cell or by link, the slot and the register. -/
def State.target (s : State) (c i : Nat) (link : Bool) (w : Nat) : Option (Nat × Nat × Nat) :=
  let part := s.partOf c i
  let slot := w / 2 ^ 10 % 16
  let reg := w / 2 ^ 14 % 16
  if link then
    let (x, y) := (cellX c, cellY c)
    let go (x' y' : Nat) := if x' < 32 && y' < 32 && inPart part (cellAt x' y') then some (cellAt x' y', slot, reg) else none
    match w % 4 with
    | 0 => go x (y + 1)
    | 1 => go (x + 1) y
    | 2 => if y = 0 then none else go x (y - 1)
    | _ => if x = 0 then none else go (x - 1) y
  else (physOf part (w % 2 ^ 10)).map fun p => (p, slot, reg)
/-- Send a word outside an atomic region; none when the send must be cancelled. -/
def Thread.sendWord (t : Thread) (cell slot reg : Nat) (v : W64) (fin int : Bool) : Option Thread :=
  let mark := if int then some reg else none
  let fresh : Packet := { cell := cell, slot := slot, words := [(reg, v)], int := if fin then mark else none }
  let opened (t : Thread) : Thread :=
    let t := { t with openPkt := some fresh, openClosed := false, pktCount := 0 }
    if fin then t.closePkt else t
  if t.openClosed then none
  else match t.openPkt with
    | none => if fin && t.closedPkt.isSome then none else some (opened t)
    | some q =>
      if q.cell = cell && q.slot = slot && !(q.words.any (·.1 = reg)) then
        let q : Packet := { q with words := q.words ++ [(reg, v)] }
        if fin || 8 ≤ q.words.length then
          if t.closedPkt.isSome then none else some { t with openPkt := some { q with int := mark } }.closePkt
        else some { t with openPkt := some q }
      else if t.closedPkt.isSome then none
      else some (opened t.closePkt)
def sendBody (f : Fields) (link : Bool) (w : W64) : Body := fun s c i e =>
  match s.target c i link w.toNat with
  | none => .trap ⟨0x0A, 0, w.setWidth 96, false⟩
  | some (cell, slot, reg) =>
    let int := f.m.getLsbD 0
    let t := s.th c i
    if t.releasing then .cancel s
    else if t.region.isSome then
      match t.buffer (.send cell slot reg e.a.data f.e int) with
      | .ok t => .ok (s.setTh c i t)
      | .error (a, b) => .abort a b
    else match t.sendWord cell slot reg e.a.data f.e int with
      | none => .cancel s
      | some t' => .ok ((s.setTh c i t').closing c i t.closedPkt.isSome)
def execMsgSend (f : Fields) (s : State) : Host.Outcome State Fault Refusal :=
  .next (runThread (.msgSend f) (fun f s c i e => sendBody f false e.b.data s c i e) s)
def execMsgSendI (f : Fields) (s : State) : Host.Outcome State Fault Refusal :=
  .next (runThread (.msgSendI f) (fun f => sendBody f false (BitVec.ofNat 64 (bits f.imm 0 32))) s)
def execMsgSendn (f : Fields) (s : State) : Host.Outcome State Fault Refusal :=
  .next (runThread (.msgSendn f) (fun f s c i e => sendBody f true e.b.data s c i e) s)

/-! ### Registers, windows and the return from a handler (06 R176-R178) -/

/-- Clear full and pending bits without reading. -/
def msgClrBody (_ : Fields) : Body := fun s c i e =>
  .ok (s.modTh c i fun t => (List.range 16).foldl (fun t n =>
    if e.a.data.getLsbD n then t.wm n { t.rm n with full := false, pend := false } else t) t)
def msgWaitBody (f : Fields) : Body := fun s c i e =>
  let m := (s.th c i).fullMask
  let a := bits e.a.data 0 16
  if a = 0 || m &&& a ≠ 0 then .ok (s.writeD c i f.d (BitVec.ofNat 64 m)) else .park s (.msgWait e.a.data f.d)
/-- Open a window, or shorten the open one. -/
def imaskBody (n : Nat) : Body := fun s c i _ =>
  .ok (s.modTh c i fun t =>
    let k := min n 64
    let k := if t.imask then min t.icnt k else k
    { t with icnt := k, imask := k ≠ 0 })
/-- Return from an arrival handler to `epc` of the current mode. -/
def iretBody (_ : Fields) : Body := fun s c i _ =>
  .jump (s.modTh c i fun t => { t with hnd := false }) (s.th c i).trapRegs.epc false

def execMsgClr (f : Fields) (s : State) : Host.Outcome State Fault Refusal := .next (runThread (.msgClr f) msgClrBody s)
def execMsgWait (f : Fields) (s : State) : Host.Outcome State Fault Refusal := .next (runThread (.msgWait f) msgWaitBody s)
def execMsgImask (f : Fields) (s : State) : Host.Outcome State Fault Refusal :=
  .next (runThread (.msgImask f) (fun _ s c i e => imaskBody e.a.data.toNat s c i e) s)
def execMsgImaskI (f : Fields) (s : State) : Host.Outcome State Fault Refusal :=
  .next (runThread (.msgImaskI f) (fun f => imaskBody (bits f.imm 0 7)) s)
def execMsgIret (f : Fields) (s : State) : Host.Outcome State Fault Refusal := .next (runThread (.msgIret f) iretBody s)

/-- The window has counted down to 0. -/
def execImaskWindowEnd (cell slot : Nat) (s : State) : Host.Outcome State Fault Refusal :=
  .next (s.modTh cell slot fun t => if t.imask && t.icnt = 0 then { t with imask := false } else t)
/-- The open packet has seen its 64th counted instruction. -/
def execPacketCountClose (cell slot : Nat) (s : State) : Host.Outcome State Fault Refusal :=
  let t := s.th cell slot
  if t.pktOpen && 64 ≤ t.pktCount then .next ((s.setTh cell slot t.closePkt).closing cell slot t.closedPkt.isSome) else .next s

/-! ### Landing (06 R172; 10 R300) -/

/-- Fill the registers of a packet. -/
def Packet.fill (p : Packet) (t : Thread) : Thread :=
  p.words.foldl (fun t (n, v) => t.wm n ⟨v, true, (t.rm n).pend || p.int = some n⟩) t
def Packet.fits (p : Packet) (t : Thread) : Bool := p.words.all fun (n, _) => !(t.rm n).full
/-- The registers that a packet for a slot would fill: the thread's, or its image's; none for an empty or dead slot. -/
def State.receiver (s : State) (c i : Nat) (fn : Option Nat) : Option Thread :=
  if s.switchedOut c fn i then
    if s.imageValid (wingKey c i) then some (s.readImage (wingKey c i) {}) else none
  else
    match (s.slot c i).state with
    | .empty | .dead => none
    | .saved => some (s.readImage (imageKey c i) (s.th c i))
    | _ => some (s.th c i)
/-- Whether an earlier packet of the same sender to the same slot is held before packet `id`. -/
def heldBefore (l : List HeldPkt) (h : HeldPkt) : Bool :=
  (l.takeWhile fun x => x.pkt.id != h.pkt.id).any fun x => x.slot = h.slot && x.fromCell = h.fromCell && x.fromSlot = h.fromSlot
/-- What a landing records of its sender (23 R466). -/
def HeldPkt.source (h : HeldPkt) : W64 := BitVec.ofNat 64 (h.fromCell % 1024 + h.fromSlot % 16 * 1024)
/-- Whether a held packet can land, or be discarded, now. Arrivals for an understudy are held (07 R214). -/
def State.canLand (s : State) (c : Nat) (h : HeldPkt) : Bool :=
  !heldBefore (s.cell c).held h && (s.switchedOut c h.fn h.slot || (s.th c h.slot).pair ≠ 2) && match s.receiver c h.slot h.fn with
    | none => true
    | some t => h.pkt.fits t && s.ephOk (s.partOf c h.slot) ephLand c h.slot h.source
/-- What an arrival does to a parked thread: it issues again, or completes its `msg.wait` (01 R26, 06 R178). -/
def State.arrived (s : State) (c i : Nat) (p : Packet) : State :=
  let y := s.slot c i
  match y.state, y.th.wait with
  | .parked, some (.msgReg rs) => if p.words.any fun (n, _) => rs.contains n then s.ready c i else s
  | .parked, some (.msgWait m d) =>
    if p.words.any fun (n, _) => m.getLsbD n then
      ((s.writeD c i d (BitVec.ofNat 64 y.th.fullMask)).modTh c i Thread.complete).ready c i
    else s
  | _, _ => s
/-- Land a held packet, or discard it; a rope command ends with the landing of its result (08 R232, R233). -/
def State.land (s : State) (c : Nat) (h : HeldPkt) : State :=
  let s := s.modCell c fun x => { x with held := x.held.filter fun y => y.pkt.id != h.pkt.id }
  let s : State := { s with cmds := s.cmds.filter fun x => x.2.pkt != h.pkt.id }
  if s.switchedOut c h.fn h.slot then
    if s.imageValid (wingKey c h.slot) then (s.noteTh ephLand c h.slot h.source).imageArrive c h.slot (wingKey c h.slot) h.pkt.fill else s
  else
  match (s.slot c h.slot).state with
  | .empty | .dead => s
  | .saved => (s.noteTh ephLand c h.slot h.source).imageArrive c h.slot (imageKey c h.slot) h.pkt.fill
  | _ => ((s.noteTh ephLand c h.slot h.source).modTh c h.slot h.pkt.fill).arrived c h.slot h.pkt
/-- Where a packet is held. -/
def State.heldAt (s : State) (id : Nat) : Option (Nat × HeldPkt) :=
  s.cells.findSome? fun (c, x) => (x.held.find? fun h => h.pkt.id = id).map fun h => (c, h)
/-- Land a held packet if it can, else it stays held. -/
def State.landOrHold (s : State) (pkt : Nat) : State :=
  match s.heldAt pkt with
  | none => s
  | some (c, h) =>
    if s.canLand c h then s.land c h
    else s.modCell c fun x => { x with held := x.held.map fun y => if y.pkt.id = pkt then { y with arrived := true } else y }
/-- A packet that reaches the receiving cell lands in one cycle, or stays held there. -/
def execPacketLanding (pkt : Nat) (s : State) : Host.Outcome State Fault Refusal := .next (s.landOrHold pkt)
/-- Offer a packet to its receiving cell: held in one of the slot's 4 places, landed at once, or none when the sender must wait. -/
def State.accept (s : State) (h : HeldPkt) : Option State :=
  let c := h.pkt.cell
  let there := (s.cell c).held
  let now := match s.receiver c h.slot h.fn with
    | none => true
    | some u => h.pkt.fits u && s.ephOk (s.partOf c h.slot) ephLand c h.slot h.source && (s.switchedOut c h.fn h.slot || (s.th c h.slot).pair ≠ 2) && !(there.any fun x => x.slot = h.slot && x.fromCell = h.fromCell && x.fromSlot = h.fromSlot)
  if (there.filter (·.slot = h.slot)).length < 4 then
    some ((s.modCell c fun x => { x with held := x.held ++ [h] }).dueLater (.packetLand h.pkt.id))
  else if now then some ((s.modCell c fun x => { x with held := x.held ++ [h] }).land c h)
  else none

/-! ### The way into the network (06 R173; 10 R300) -/

/-- A thread's closed packet enters the network: it takes one of the 4 holding places of its receiver's slot, or none when it lands at once;
it is offered again 8 cycles after a refusal, and waits for the writes before its closing (11 R315). -/
def State.tryEnter (s : State) (c i : Nat) : State :=
  let t := s.th c i
  match t.closedPkt with
  | none => s
  | some p =>
    if s.earlier c i p.after then s.dueLater (.packetEnter c i)
    else
      let id := if p.id = 0 then s.nextId else p.id
      let p := { p with id := id }
      let s := if id = s.nextId then { s with nextId := id + 1 } else s
      let h : HeldPkt := { fromCell := c, fromSlot := i, slot := p.slot, pkt := p, fn := s.threadFn c i }
      match s.accept h with
      | some s' =>
        -- the next of those that wait closed, in the order in which they closed (06 R166, R173)
        let left := ({ s'.th c i with closedPkt := none } : Thread).shiftPkt
        let s' := s'.setTh c i left
        if left.closedPkt.isSome then s'.closing c i false else s'.shiftReleased c i
      | none => (s.setTh c i { t with closedPkt := some p }).dueAt (s.cycle + 8) (.packetReoffer id)
def execPacketEnterNetwork (cell slot : Nat) (s : State) : Host.Outcome State Fault Refusal := .next (s.tryEnter cell slot)
/-- Offer the notice of a fault record to its receiving cell; those for one slot enter in their order (10 R300). -/
def State.offerNotice (s : State) (id : Nat) : State :=
  match s.notices.find? fun h => h.pkt.id = id with
  | none => s
  | some h =>
    if (s.notices.takeWhile fun x => x.pkt.id != id).any fun x => x.pkt.cell = h.pkt.cell && x.slot = h.slot then s.dueAt (s.cycle + 8) (.packetReoffer id)
    else match s.accept h with
      | some s => { s with notices := s.notices.filter fun x => x.pkt.id != id }
      | none => s.dueAt (s.cycle + 8) (.packetReoffer id)
/-- The packet is offered again from where it still waits. -/
def execPacketReoffer (pkt : Nat) (s : State) : Host.Outcome State Fault Refusal :=
  match s.allSlots.find? fun (_, _, y) => (y.th.closedPkt.map (·.id)) = some pkt with
  | some (c, i, _) => .next (s.tryEnter c i)
  | none => .next (s.offerNotice pkt)

/-! ### Interrupts of ready and parked threads (01 R40; 06 R168, R174, R175; 07 R203, R220) -/

/-- Whether an interrupt abandons the instruction on which a thread is parked. -/
def State.abandons (s : State) (w : Wait) : Bool :=
  match w with
  | .msgReg _ | .msgWait .. | .tags .. | .barrier .. | .watch .. | .wfi => true
  | .reply id =>
    match s.reqs.look id with
    | some r => r.held && match r.op with
      | .fe .. => true
      | _ => false
    | none => false
  | _ => false
/-- Whether a slot stands at a boundary: ready, but for an instruction that a tile lock held, or parked on one that is abandoned. -/
def State.atBoundary (s : State) (c i : Nat) : Bool :=
  let y := s.slot c i
  match y.state, y.th.wait with
  | .ready, _ => !y.th.again
  | .parked, some w => s.abandons w
  | _, _ => false
/-- An interrupt at a boundary: the region aborts and the reservation is lost, before it is taken (06 R154, R168). -/
def Thread.interrupted (t : Thread) (cause : Nat) : Thread :=
  { t.abortRegion 0x43 cause with resvLost := t.resvLost || t.resv.isSome, resv := none }
def execArrivalInterrupt (cell slot : Nat) (s : State) : Host.Outcome State Fault Refusal :=
  let t := s.th cell slot
  let n := match s.followInt cell slot with
    | some (k + 1) => some k
    | _ => if t.arrivalReady && !s.lockHolds cell slot then t.lowPend else none
  match s.atBoundary cell slot, n with
  | true, some n =>
    let (s, gone) := s.abandon cell slot
    let s := s.lockInterrupt cell slot (1 + n) gone
    .next ((s.abortNoted cell slot 0x43).modTh cell slot fun t => (t.interrupted 0x21).takeArrival n)
  | _, _ => .next s
def execTimerInterrupt (cell slot : Nat) (s : State) : Host.Outcome State Fault Refusal :=
  let t := s.th cell slot
  let go := s.followInt cell slot = some 0 || (s.timerTakes cell slot && !s.lockHolds cell slot && !t.arrivalReady)
  if s.atBoundary cell slot && go then
    let (s, gone) := s.abandon cell slot
    let s := s.lockInterrupt cell slot 0 gone
    .next (((s.noteTh ephTimer cell slot 0).abortNoted cell slot 0x43).modTh cell slot fun t => (t.interrupted 0x20).takeTimer)
  else .next s
/-- The timer has passed from 1 to 0: its interrupt is pending if `tie` is set (01 R38). -/
def execTimerExpiry (cell slot : Nat) (s : State) : Host.Outcome State Fault Refusal :=
  .next (s.modTh cell slot fun t => if t.tie && t.timer = 0 then { t with tpend := true } else t)
/-- The trap 0x0F of a checksum fault (07 R203): tile in the detail, step in tval, bit 63 of cause. -/
def execChecksumFaultTrap (cell slot : Nat) (s : State) : Host.Outcome State Fault Refusal :=
  let t := s.th cell slot
  match t.ckTrap with
  | none => .next s
  | some (tile, st) =>
    if s.atBoundary cell slot && !t.pktOpen then
      let (s, _) := s.abandon cell slot
      -- a region aborts first, as for an interrupt (06 R168, R175); the trap then saves the abort target
      .next (((s.abortTh cell slot 0x43 0x0F).modTh cell slot fun t => { t with ckTrap := none }).takeTrap cell slot ⟨0x0F, tile, BitVec.ofNat 96 st, true⟩)
    else .next s

/-- What a parked slot does at the end of a cycle for an interrupt or trap: a step that takes it, or the end of its `sys.wfi`. -/
def State.parkedDue (s : State) (c i : Nat) : State :=
  let y := s.slot c i
  let t := y.th
  if y.state = .parked && s.atBoundary c i then
    if t.ckTrap.isSome && !t.pktOpen then s.dueNow (.ckTrap c i)
    else if (t.arrivalReady && !s.lockHolds c i) || (match s.followInt c i with
        | some (_ + 1) => true
        | _ => false) then s.dueNow (.arrivalInt c i)
    else if (s.timerTakes c i && !s.lockHolds c i) || s.followInt c i = some 0 then s.dueNow (.timerInt c i)
    else if t.wait = some .wfi && t.wfiReady then (s.modTh c i Thread.complete).ready c i
    else s
  else s
/-- The held packets of a cell that may land in the next cycle. -/
def State.landDue (s : State) (c : Nat) : State :=
  ((s.cell c).held.filter fun h => h.arrived && s.canLand c h).foldl (fun s h =>
    match s.cmds.find? fun x => x.2.pkt = h.pkt.id with
    | some (n, _) => s.dueNow (.ropeLand n)
    | none => s.dueNow (.packetLand h.pkt.id)) s

end Sys2Proof.Machine
end

