-- ==== Sys2Proof/Machine/Ropetree.lean ====
section
/-!
DEFINITION. Ropes (12 R322-R339): nodes and pool headers, what a command reads and writes of a pool, summaries, shapes, and counts.
-/
namespace Sys2Proof.Machine

/-! ### A command at its home engine -/

/-- How a command ends otherwise than with status 0: a status with its detail and words, or a failed translation. -/
inductive RopeErr where
  | status (code detail : Nat) (words : List W64)
  | stop (acc va : Nat)
  /-- The access waits, and the command starts again at a cycle (20 R411, 21 R436). -/
  | later (t : Nat)
  deriving DecidableEq, Repr

/-- The pool header (08 R225). -/
structure Header where
  schema : W64
  bump : Nat
  cap : Nat
  freeh : Nat
  freen : Nat
  pendh : Nat
  pendn : Nat
  deriving DecidableEq, Repr

/-- A command at work on a pool: the machine, the translation context, the pool, the header and nodes it will write, the nodes allocated
and the stale slots found. -/
structure Rig where
  s : State
  id : Nat
  op : Op
  base : Nat
  key : Nat := 0
  hdr : Option Header := none
  hdrWrite : Bool := false
  nodes : SMap W512 := []
  read : List Nat := []
  seen : List Nat := []
  allocated : Nat := 0
  stale : Nat := 0
  tail : Option Nat := none
  /-- A query, whose node steps are its descents (12 R339); and the hint N. -/
  query : Bool := false
  hintN : Bool := false

abbrev RopeM := ExceptT RopeErr (StateM Rig)
def ropeFail {α : Type} (code detail : Nat) : RopeM α := throw (.status code detail [])

/-- Translate for the command; nodes and handles must lie in HBM (08 R226). -/
def ropeKey (va n : Nat) (acc : Acc) : RopeM Nat := do
  let g ← get
  match engKey g.s g.op va n acc with
  | .ok s k => set { g with s := s }; pure k
  | .stop s a v => set { g with s := s }; throw (.stop a v)
  | .bad _ => ropeFail 8 0
  | .wait s => set { g with s := s }; throw (.later (s.cycle + 1))
  | .held s t => set { g with s := s }; throw (.later t)
def hbmKey (va n : Nat) (acc : Acc) : RopeM Nat := do
  let k ← ropeKey va n acc
  if isHbm k then pure k else ropeFail 8 0
/-- An access of `n` bytes waits, and the command with it, for a granule not yet exchanged (20 R411) or for a throttled row (21 R436). -/
def ropeFree (key n : Nat) : RopeM Unit := do
  let g ← get
  if g.s.notYet key n then
    set { g with s := g.s.want key n }
    throw (.later (g.s.cycle + 8))
  else match g.s.holdFor (some g.id) g.op.fn [(key, n)] with
    | some t => set { g with s := g.s.enlist { id := g.id, fn := g.op.fn, places := [(key, n)] } }; throw (.later t)
    | none => set { g with s := g.s.unhold g.id }
def ropeAccess (key n : Nat) (wr : Bool) : RopeM Unit := do
  ropeFree key n
  modify fun g => { g with s := g.s.access (some g.op.fn) key n wr g.op.cp }
/-- The energy of a node step (23 R453 class 11). -/
def ropeStep : RopeM Unit := modify fun g => { g with s := g.s.charge (some g.op.fn) 60 1 }
/-- A step on a node, unless the command stands on it already or took the step before it had to wait (12 R339). -/
def stepOn (n : Nat) : RopeM Unit := do
  if !(← get).seen.contains n then
    ropeStep
    modify fun g => { g with seen := g.seen ++ [n] }
/-- The home engine of the pool. -/
def Rig.engine (g : Rig) : Nat := (stackOf (hbmOff g.key)).getD 0
/-- Lines of a node cache: 4 MiB (12 R339). -/
def nodeLines : Nat := 65536
/-- Keep a line in the node cache as the one used last. -/
def cacheLine (key : Nat) : RopeM Unit := modify fun g =>
  let x := g.s.rigs.at g.engine {}
  let l := (x.lines.filter (·.2 != key)) ++ [(g.key, key)]
  { g with s := { g.s with rigs := g.s.rigs.put g.engine { x with lines := l.drop (l.length - nodeLines) } } }
/-- The engine discards its lines of the pool (08 R230). -/
def dropLines : RopeM Unit := modify fun g =>
  let x := g.s.rigs.at g.engine {}
  { g with s := { g.s with rigs := g.s.rigs.put g.engine { x with lines := x.lines.filter (·.1 != g.key) } } }
/-- Read a line: from the node cache, or from HBM. -/
def readLine (key : Nat) : RopeM Unit := do
  let g ← get
  if (g.s.rigs.at g.engine {}).lines.any (·.2 = key) then cacheLine key
  else
    ropeAccess key 64 false
    if !g.hintN then cacheLine key
def Rig.nodeVa (g : Rig) (n : Nat) : Nat := (g.base + 64 * n) % 2 ^ 48

/-! ### Nodes (12 R322-R325) -/

/-- The fields of a node. -/
structure Node where
  leaf : Bool
  h : Nat
  pend : Bool
  free : Bool
  count : Nat
  len : Nat
  left : Nat
  right : Nat
  start : Nat
  paddr : Nat
  origin : Nat
  slots : List W64
  deriving DecidableEq, Repr
def nodeOf (w : W512) : Node :=
  let leaf := bits w 7 2 = 1
  { leaf := leaf, h := bits w 0 7, pend := w.getLsbD 9, free := w.getLsbD 10, count := bits w 32 32,
    len := if leaf then bits w 64 16 else bits w 64 64, left := bits w 128 32, right := bits w 160 32,
    start := bits w 176 32, paddr := bits w 128 48, origin := bits w 208 48,
    slots := (List.range 4).map fun k => BitVec.ofNat 64 (bits w (256 + 64 * k) 64) }
def slotBits (l : List W64) : Nat := l.foldr (fun x k => x.toNat + 2 ^ 64 * k) 0 % 2 ^ 256
/-- A leaf's word. A start at or above 2^32, which the right-hand leaf of a split can have (12 R331), is kept modulo 2^32, while its summaries are
streamed from the start itself: the manual is silent there (DESIGN CHOICE, log entry 60). -/
def leafWord (count len start paddr origin : Nat) (slots : List W64) : W512 :=
  BitVec.ofNat 512 (128 + count % 2 ^ 32 * 2 ^ 32 + len % 2 ^ 16 * 2 ^ 64 + paddr % 2 ^ 48 * 2 ^ 128 + start % 2 ^ 32 * 2 ^ 176 +
    origin % 2 ^ 48 * 2 ^ 208 + slotBits slots * 2 ^ 256)
def innerWord (h count len left right origin : Nat) (slots : List W64) : W512 :=
  BitVec.ofNat 512 (h % 128 + count % 2 ^ 32 * 2 ^ 32 + len % 2 ^ 64 * 2 ^ 64 + left % 2 ^ 32 * 2 ^ 128 + right % 2 ^ 32 * 2 ^ 160 +
    origin % 2 ^ 48 * 2 ^ 208 + slotBits slots * 2 ^ 256)
/-- A kind or reserved bits outside the layout (12 R325). -/
def nodeBad (w : W512) : Bool :=
  bits w 8 1 = 1 || bits w 11 21 ≠ 0 || (if bits w 7 1 = 1 then bits w 80 48 ≠ 0 else bits w 192 16 ≠ 0)

/-- The 64 bytes of a node as the command sees them. -/
def rawNode (n : Nat) : RopeM W512 := do
  let g ← get
  match g.nodes.look n with
  | some w => pure w
  | none =>
    let k ← hbmKey (g.nodeVa n) 64 .load
    if (← get).s.poisoned k 64 then ropeFail 4 n
    else
      if !(g.read.contains n) then
        readLine k
        if !g.query && n ≠ 0 then stepOn n
        modify fun g => { g with read := g.read ++ [n] }
      pure (BitVec.ofNat 512 (readNat (← get).s.mem k 64))
def stageNode (n : Nat) (w : W512) : RopeM Unit := modify fun g => { g with nodes := g.nodes.put n w }
def headerOf (w : W512) : Header :=
  ⟨BitVec.ofNat 64 (bits w 0 64), bits w 64 32, bits w 96 32, bits w 128 32, bits w 160 32, bits w 192 32, bits w 224 32⟩
def Header.word (h : Header) : W512 :=
  BitVec.ofNat 512 (h.schema.toNat + h.bump % 2 ^ 32 * 2 ^ 64 + h.cap % 2 ^ 32 * 2 ^ 96 + h.freeh % 2 ^ 32 * 2 ^ 128 + h.freen % 2 ^ 32 * 2 ^ 160 +
    h.pendh % 2 ^ 32 * 2 ^ 192 + h.pendn % 2 ^ 32 * 2 ^ 224)
def header : RopeM Header := do
  match (← get).hdr with
  | some h => pure h
  | none =>
    let h := headerOf (← rawNode 0)
    modify fun g => { g with hdr := some h }
    pure h
def setHeader (h : Header) : RopeM Unit := modify fun g => { g with hdr := some h, hdrWrite := true }
/-- A node id that can name a node (08 R234 code 4). -/
def checkId (n : Nat) : RopeM Unit := do
  let h ← header
  if n = 0 || h.bump ≤ n then ropeFail 4 n
/-- A node that a command reaches, with the checks of 12 R325. -/
def readNode (n : Nat) : RopeM Node := do
  checkId n
  let w ← rawNode n
  let x := nodeOf w
  if nodeBad w || x.pend || x.free || x.count = 0 then ropeFail 4 n
  else if x.leaf then
    if x.len = 0 then ropeFail 4 n else pure x
  else
    checkId x.left
    checkId x.right
    let l := nodeOf (← rawNode x.left)
    let r := nodeOf (← rawNode x.right)
    if x.h = 0 || x.h ≠ 1 + max l.h r.h then ropeFail 4 n else pure x

/-- A query descends to a node, which is a node step (08 R244, 12 R339). -/
def visit (n : Nat) : RopeM Node := do
  let x ← readNode n
  stepOn n
  pure x

/-! ### Counts and the two lists (08 R235, R236; 12 R324) -/

def setCount (w : W512) (c : Nat) : W512 := setBits w 32 32 c
/-- The tail of the pending list: held, or found from the head. -/
def findTail : Nat → Nat → RopeM Nat
  | 0, n => pure n
  | fuel + 1, n => do
    let x := (nodeOf (← rawNode n)).count
    if x = 0 then pure n else findTail fuel x
/-- Append a node whose count has reached 0 to the pending list. -/
def appendPend (n : Nat) : RopeM Unit := do
  let h ← header
  if h.pendh = 0 then setHeader { h with pendh := n, pendn := h.pendn + 1 }
  else
    let t ← match (← get).tail with
      | some t => pure t
      | none => findTail h.pendn h.pendh
    stageNode t (setCount (← rawNode t) n)
    setHeader { h with pendn := h.pendn + 1 }
  stageNode n (setBits (setCount (← rawNode n) 0) 9 1 1)
  modify fun g => { g with tail := some n }
def countUp (n : Nat) : RopeM Unit := do
  let x ← readNode n
  if x.count = 2 ^ 32 - 1 then ropeFail 7 n else stageNode n (setCount (← rawNode n) (x.count + 1))
def countDown (n : Nat) : RopeM Unit := do
  let x ← readNode n
  if x.count = 1 then appendPend n else stageNode n (setCount (← rawNode n) (x.count - 1))
/-- The next node id, from the free list and then from bump (08 R227). -/
def allocNode : RopeM Nat := do
  let h ← header
  modify fun g => { g with allocated := g.allocated + 1 }
  if h.freeh = 0 then
    setHeader { h with bump := h.bump + 1 }
    pure h.bump
  else
    let next := (nodeOf (← rawNode h.freeh)).count
    setHeader { h with freeh := next, freen := h.freen - 1 }
    pure h.freeh
/-- An edit starts only with enough free nodes (08 R227). -/
def needFree (k : Nat) : RopeM Unit := do
  let h ← header
  if (h.freen : Int) + h.cap - h.bump < k then ropeFail 3 0
/-- Reclaim the head of the pending list (12 R337). -/
def reclaimOne : RopeM Unit := do
  let h ← header
  let n := h.pendh
  if n ≠ 0 then
    let w ← rawNode n
    let x := nodeOf w
    setHeader { h with pendh := x.count, pendn := h.pendn - 1 }
    if (← get).tail = some n then modify fun g => { g with tail := none }
    if !x.leaf then
      countDown x.left
      countDown x.right
    let h ← header
    stageNode n (setBits (setBits (setCount (← rawNode n) h.freeh) 9 1 0) 10 1 1)
    setHeader { h with freeh := n, freen := h.freen + 1 }

/-- The keys of what the command has staged: all translations come before the first write (08 R234). -/
def commitKeys : SMap W512 → RopeM (List (Nat × W512))
  | [] => pure []
  | (n, w) :: l => do
    let k ← hbmKey ((← get).nodeVa n) 64 .store
    ropeFree k 64
    pure ((k, w) :: (← commitKeys l))
/-- Write what the command has staged. Each write is a node step of an edit; the count of its root that a walk raises and drops is none of its steps
(12 R339). What is written gets a line in the node cache, also under the hint N, of which the manual says only that nodes read are not kept
(DESIGN CHOICE, log entry 60). -/
def ropeCommit : RopeM Unit := do
  let g ← get
  let all := match g.hdr, g.hdrWrite with
    | some h, true => (0, h.word) :: g.nodes
    | _, _ => g.nodes
  let ks ← commitKeys all
  for (k, w) in ks do
    if !g.query then ropeStep
    cacheLine k
    modify fun g => { g with s := (g.s.access (some g.op.fn) k 64 true g.op.cp).write none k 64 w.toNat }
  modify fun g => { g with nodes := [], hdrWrite := false }

/-! ### Schemas and keys (08 R228-R230) -/

/-- A summary slot: operation, float keys, abs position mode, key offset. -/
structure SlotDef where
  op : Nat
  fp : Bool
  abs : Bool
  koff : Nat
  deriving DecidableEq, Repr
def slotsOf (w : W64) : List SlotDef := (List.range 4).map fun s =>
  ⟨bits w (12 * s + 16) 4, w.getLsbD (12 * s + 20), w.getLsbD (12 * s + 21), bits w (12 * s + 22) 6⟩
def esizeOf (w : W64) : Nat := bits w 0 4
def schemaBad (w : W64) : Bool :=
  let es := esizeOf w
  let l := slotsOf w
  12 < es || bits w 4 12 ≠ 0 || (List.range 4).any fun s =>
    let x := l.getD s ⟨0, false, false, 0⟩
    let y := l.getD (s - 1) ⟨0, false, false, 0⟩
    7 ≤ x.op || (x.abs && x.op ≠ 6) || (x.op = 6 && (s = 0 || y.op ≠ 1 || y.koff ≠ x.koff || y.fp != x.fp)) || (x.op = 5 && !x.fp) ||
    (2 ≤ es && 2 ^ es < 4 * x.koff + 4) || (es < 2 && x.op ≠ 0 && (x.fp || x.koff ≠ 0))
def SlotDef.identity (x : SlotDef) : W64 :=
  if x.op = 2 then if x.fp then 0xFF800000 else BitVec.ofNat 64 (2 ^ 63)
  else if x.op = 3 then if x.fp then 0x7F800000 else BitVec.ofNat 64 (2 ^ 63 - 1)
  else if x.op = 5 then 0xFF800000
  else 0
/-- Bytes of a piece, streamed in aligned 64-byte segments; a piece lies in HBM or second-tier memory, and poison ends the command with
status 8 (08 R226, R238; 22 R441). -/
def pieceBytes (va : Nat) : Nat → Nat → RopeM Nat
  | 0, _ => pure 0
  | fuel + 1, n => do
    if n = 0 then pure 0
    else
      let k := min n (64 - va % 64)
      let key ← ropeKey va k .load
      if !(isHbm key || kindOf key = .tier2) then ropeFail 8 0
      else
        ropeAccess key k false
        let g ← get
        let (s, v, bad) := g.s.readHome key k
        set { g with s := s }
        if bad.isSome then ropeFail 8 0
        else pure (v + 2 ^ (8 * k) * (← pieceBytes ((va + k) % 2 ^ 48) fuel (n - k)))
/-- The keys of a slot of `n` elements: bits for float keys, signed values otherwise. -/
def keysOf (es : Nat) (x : SlotDef) (v n : Nat) : List Int := (List.range n).map fun i =>
  let size := 2 ^ es
  if es < 2 then ((v / 2 ^ (8 * size * i) % 2 ^ (8 * size) : Nat) : Int)
  else
    let k : Nat := v / 2 ^ (8 * (size * i + 4 * x.koff)) % 2 ^ 32
    if x.fp then (k : Int) else sext 32 k

/-! ### Summaries (12 R334, R335; 08 R229, R240) -/

def fnan : Nat := fp32.nan
/-- An exact sum of products of integers and fp32 values, rounded once; an exact zero is +0. -/
def fsum (terms : List (Int × Nat)) : Nat :=
  let vs := terms.map fun (c, b) => (c, fp32.decode b)
  let infs := vs.filterMap fun (c, v) => match v with
    | .inf n => some (n != decide (c < 0))
    | _ => none
  if vs.any fun x => x.2.isNan then fnan
  else if infs.contains true && infs.contains false then fnan
  else if infs.contains true then (fp32.round 0 (.inf true)).1
  else if infs.contains false then (fp32.round 0 (.inf false)).1
  else
    let t : Int := (vs.map fun (c, v) => match v with
      | .fin n m e => c * scaled n m e (-149)
      | _ => 0).sum
    (fp32.round 0 (ofScaled t (-149))).1
/-- The extreme of fp32 values: the canonical NaN when any is NaN. -/
def fext (isMax : Bool) (l : List Nat) : Nat :=
  if l.any fun b => (fp32.decode b).isNan then fnan
  else match l with
    | [] => 0
    | a :: as => as.foldl (fun a b => (fp32.fminmax isMax a b).1) a
/-- 2^d, for d in units of 2^-150, as a multiple of 2^-320 times a power of two: (mantissa, exponent, inexact) (log entry 12). -/
def pow2 (d : Int) : Nat × Int × Bool :=
  let i := d / 2 ^ 150
  let x := (d % 2 ^ 150).toNat
  if x = 0 then (1, i, false) else (expFix 320 (x * ln2q / 2 ^ 150), i - 320, true)
/-- The exact sum of s × 2^d over its terms, rounded once; an infinite s makes it infinite, and infinities of both signs make it NaN. A sum that is
zero, or rounds to it, is +0: 12 R335 says so of sum, count and psum alone (DESIGN CHOICE, log entry 60). -/
def expTotal (terms : List (Nat × Int)) : Nat :=
  let unit_ : Int := -800
  let infs := terms.map fun (b, _) => fp32.decode b
  if infs.any (· = .inf false) || infs.any (· = .inf true) then fsum ((terms.filter fun (b, _) => !(fp32.decode b).isFin).map fun (b, _) => (1, b)) else
  let parts : List (Int × Bool) := terms.map fun (b, d) =>
    match fp32.decode b with
    | .fin n m e =>
      if m = 0 then (0, false)
      else if d < -(600 * 2 ^ 150) then (0, true)
      else
        let (q, ex, ix) := pow2 d
        let v := scaled n (m * q) 0 0
        let sh := ex + e - unit_
        if 0 ≤ sh then (v * 2 ^ sh.toNat, ix) else (v / 2 ^ (-sh).toNat, true)
    | _ => (0, false)
  (fp32.round 0 (ofScaled ((parts.map (·.1)).sum) unit_) (parts.any (·.2))).1
/-- An lse summary from parts (m, s) (12 R334, R335). -/
def lseOf (parts : List (Nat × Nat)) : Nat :=
  if parts.any fun (m, s) => (fp32.decode m).isNan || (fp32.decode s).isNan then fnan + fnan * 2 ^ 32
  else
    let m := fext true (parts.map (·.1))
    -- a NaN in either half makes both halves NaN
    let pair (s : Nat) : Nat := if (fp32.decode s).isNan then fnan + fnan * 2 ^ 32 else m + 2 ^ 32 * s
    match fp32.decode m with
    | .inf true => m
    | .inf false => pair (fsum ((parts.filter (·.1 = m)).map fun (_, s) => (1, s)))
    | .fin n k e =>
      let top := scaled n k (e + 150) 0
      pair (expTotal (parts.filterMap fun (x, s) => match fp32.decode x with
        | .fin n k e => some (s, scaled n k (e + 150) 0 - top)
        | _ => none))
    | .nan _ => fnan + fnan * 2 ^ 32
def w64n (n : Nat) : W64 := BitVec.ofNat 64 n
/-- A slot of a leaf or partial leaf from its keys; `o` is the position of the first element for an abs slot. -/
def SlotDef.leafSum (x : SlotDef) (o : Nat) (ks : List Int) : W64 :=
  let ps (base : Nat) : List (Int × Int) := (List.range ks.length).zip ks |>.map fun (i, k) => (((base + i : Nat) : Int), k)
  let at_ := if x.abs then o else 0
  match x.op with
  | 1 => if x.fp then w64n (fsum (ks.map fun k => (1, k.toNat))) else w64 ks.sum
  | 2 => if x.fp then w64n (fext true (ks.map Int.toNat)) else w64 (ks.foldl max (-(2 ^ 63)))
  | 3 => if x.fp then w64n (fext false (ks.map Int.toNat)) else w64 (ks.foldl min (2 ^ 63 - 1))
  | 4 => w64n (ks.filter fun k => if x.fp then k.toNat % 2 ^ 31 ≠ 0 else k ≠ 0).length
  | 5 => w64n (lseOf (ks.map fun k => (k.toNat, 0x3F800000)))
  | 6 => if x.fp then w64n (fsum ((ps at_).map fun (p, k) => (p, k.toNat))) else w64 (((ps at_).map fun (p, k) => p * k).sum)
  | _ => 0
/-- The summaries of a range: slot values, start in the rope, origin, elements. -/
structure Part4 where
  slots : List W64
  pos : Nat
  origin : Nat
  len : Nat
  deriving DecidableEq, Repr
def lo32 (x : W64) : Nat := x.toNat % 2 ^ 32
/-- Correct the abs summaries of a range whose origin is not its start; the slots that were stale (08 R240). -/
def Part4.correct (p : Part4) (l : List SlotDef) : List W64 × Nat :=
  if p.pos = p.origin then (p.slots, 0)
  else (List.range 4).foldl (fun (r, st) s =>
    let x := l.getD s ⟨0, false, false, 0⟩
    let v := p.slots.getD s 0
    let c := p.slots.getD (s - 1) 0
    let d : Int := (p.pos : Int) - p.origin
    if x.op = 6 && x.abs then (r ++ [if x.fp then w64n (fsum [(1, lo32 v), (d, lo32 c)]) else v + w64 d * c], st + 2 ^ s)
    else (r ++ [v], st)) ([], 0)
/-- Combine the summaries of two adjacent ranges, L of `n` elements (12 R335). -/
def combine (l : List SlotDef) (n : Nat) (a b : List W64) : List W64 := (List.range 4).map fun s =>
  let x := l.getD s ⟨0, false, false, 0⟩
  let u := a.getD s 0
  let v := b.getD s 0
  let c := b.getD (s - 1) 0
  match x.op with
  | 1 => if x.fp then w64n (fsum [(1, lo32 u), (1, lo32 v)]) else u + v
  | 2 => if x.fp then w64n (fext true [lo32 u, lo32 v]) else if u.slt v then v else u
  | 3 => if x.fp then w64n (fext false [lo32 u, lo32 v]) else if v.slt u then v else u
  | 4 => u + v
  | 5 => w64n (lseOf [(lo32 u, u.toNat / 2 ^ 32), (lo32 v, v.toNat / 2 ^ 32)])
  | 6 =>
    if x.abs then if x.fp then w64n (fsum [(1, lo32 u), (1, lo32 v)]) else u + v
    else if x.fp then w64n (fsum [(1, lo32 u), (1, lo32 v), ((n : Int), lo32 c)]) else u + v + w64n n * c
  | _ => 0
/-- The slots of elements `start` to `start + n − 1` of a piece. -/
def pieceSlots (paddr start n o : Nat) : RopeM (List W64) := do
  let h ← header
  let es := esizeOf h.schema
  let v ← pieceBytes ((paddr + 2 ^ es * start) % 2 ^ 48) (2 ^ es * n / 64 + 2) (2 ^ es * n)
  pure ((slotsOf h.schema).map fun x => x.leafSum o (keysOf es x v n))

/-! ### Shapes (12 R329-R332) -/

/-- A tree of existing nodes and of nodes that an edit would create. -/
inductive Tree where
  | old (id : Nat)
  | leaf (paddr start len : Nat)
  | inner (l r : Tree) (h len : Nat)
  deriving DecidableEq, Repr
/-- What a join looks at. -/
structure View where
  leaf : Bool
  h : Nat
  len : Nat
  left : Tree
  right : Tree
  paddr : Nat
  start : Nat
  deriving DecidableEq, Repr
def Tree.view : Tree → RopeM View
  | .old n => do
    let x ← readNode n
    pure ⟨x.leaf, x.h, x.len, .old x.left, .old x.right, x.paddr, x.start⟩
  | .leaf p s n => pure ⟨true, 0, n, .old 0, .old 0, p, s⟩
  | .inner l r h n => pure ⟨false, h, n, l, r, 0, 0⟩
def newNode (l r : Tree) : RopeM Tree := do
  let a ← l.view
  let b ← r.view
  pure (.inner l r (1 + max a.h b.h) (a.len + b.len))
def meet (l r : Tree) : RopeM Tree := do
  let a ← l.view
  let b ← r.view
  if a.leaf && b.leaf && a.paddr = b.paddr && a.start + a.len = b.start && a.len + b.len ≤ 65535 then
    pure (.leaf a.paddr a.start (a.len + b.len))
  else newNode l r
def fixRight (l t : Tree) : RopeM Tree := do
  let x ← l.view
  let y ← t.view
  if y.h ≤ x.h + 1 then newNode l t
  else
    let a ← y.left.view
    let b ← y.right.view
    if a.h ≤ b.h then newNode (← newNode l y.left) y.right
    else newNode (← newNode l a.left) (← newNode a.right y.right)
def fixLeft (t r : Tree) : RopeM Tree := do
  let x ← r.view
  let y ← t.view
  if y.h ≤ x.h + 1 then newNode t r
  else
    let a ← y.right.view
    let b ← y.left.view
    if a.h ≤ b.h then newNode y.left (← newNode y.right r)
    else newNode (← newNode y.left a.left) (← newNode a.right r)
/-- Joins descend at most the height of a node, which is below 128. -/
def joinRight : Nat → Tree → Tree → RopeM Tree
  | 0, a, b => newNode a b
  | fuel + 1, a, b => do
    let x ← a.view
    let c ← x.right.view
    let y ← b.view
    let t ← if c.h ≤ y.h + 1 then meet x.right b else joinRight fuel x.right b
    fixRight x.left t
def joinLeft : Nat → Tree → Tree → RopeM Tree
  | 0, a, b => newNode a b
  | fuel + 1, a, b => do
    let y ← b.view
    let c ← y.left.view
    let x ← a.view
    let t ← if c.h ≤ x.h + 1 then meet a y.left else joinLeft fuel a y.left
    fixLeft t y.right
def join (a b : Tree) : RopeM Tree := do
  if a = .old 0 then pure b
  else if b = .old 0 then pure a
  else
    let x ← a.view
    let y ← b.view
    if y.h + 1 < x.h then joinRight 128 a b
    else if x.h + 1 < y.h then joinLeft 128 a b
    else meet a b
/-- A split at 0 or the length gives the whole rope and the empty one. -/
def split : Nat → Tree → Nat → RopeM (Tree × Tree)
  | 0, t, _ => pure (t, .old 0)
  | fuel + 1, t, p => do
    if p = 0 then pure (.old 0, t)
    else
      let x ← t.view
      if p = x.len then pure (t, .old 0)
      else if x.leaf then pure (.leaf x.paddr x.start p, .leaf x.paddr (x.start + p) (x.len - p))
      else
        let n := (← x.left.view).len
        if p = n then pure (x.left, x.right)
        else if p < n then
          let (a, b) ← split fuel x.left p
          pure (a, ← join b x.right)
        else
          let (a, b) ← split fuel x.right (p - n)
          pure (← join x.left a, b)

/-! ### The nodes of a result (12 R333, R239, R335) -/

/-- The summaries of a child that stands at a position. -/
def oldPart (n pos : Nat) : RopeM Part4 := do
  let x ← readNode n
  pure ⟨x.slots, pos, x.origin, x.len⟩
/-- Create the new nodes of a tree that stands at a position, in post-order, each with count 1; an existing node gains its new parent. -/
def create : Tree → Nat → RopeM (Nat × Part4)
  | .old n, pos => do
    let p ← oldPart n pos
    countUp n
    pure (n, p)
  | .leaf paddr start len, pos => do
    let n ← allocNode
    let v ← pieceSlots paddr start len pos
    stageNode n (leafWord 1 len start paddr pos v)
    pure (n, ⟨v, pos, pos, len⟩)
  | .inner l r h len, pos => do
    let n := (← l.view).len
    let (a, x) ← create l pos
    let (b, y) ← create r (pos + n)
    let id ← allocNode
    let defs := slotsOf (← header).schema
    let v := combine defs x.len (x.correct defs).1 (y.correct defs).1
    stageNode id (innerWord h 1 len a b pos v)
    pure (id, ⟨v, pos, pos, len⟩)
/-- A result root: an existing node gains the caller's reference. -/
def createRoot (t : Tree) : RopeM Nat := do
  match t with
  | .old 0 => pure 0
  | t => pure (← create t 0).1

end Sys2Proof.Machine
end

