-- ==== Sys2Proof/Machine/Rope.lean ====
section
/-!
DEFINITION. The rope instructions (08 R224-R246): issue, execution at the home engine, results, walks and reclamation.
-/
namespace Sys2Proof.Machine

/-! ### Issue (08 R232) -/

def ropePool : List Nat := [permRpool, permRd, permWr, permEng]
/-- The pool check: R23 over the whole extent, then its shape. -/
def poolCheck (tv : W96) (a : Reg) : Option Trap :=
  (capCheckOpen tv a ropePool a.base (a.top - a.base)).orElse fun _ =>
    if a.base % 64 ≠ 0 || a.len % 64 ≠ 0 || a.len < 128 then some ⟨0x04, 0, BitVec.ofNat 96 a.base, false⟩ else none
def handleCheck (tv : W96) (b : Reg) (wr : Bool) : Option Trap :=
  (capCheckOpen tv b ([permRd, permEng] ++ if wr then [permWr] else []) b.addr 16).orElse fun _ =>
    if b.addr % 16 ≠ 0 then some ⟨0x04, 0, BitVec.ofNat 96 b.addr, false⟩ else none
/-- A ring's whole extent lies in one pool. Of a capability of length 0 the last byte is taken to be the one before its base, so that it passes unless
its base begins a pool: the manual does not say how an empty extent is judged (DESIGN CHOICE, log entry 60). -/
def ringCheck (tv : W96) (d : Reg) : Option Trap :=
  (capCheckOpen tv d [permRd, permWr, permEng] d.base (d.top - d.base)).orElse fun _ =>
    let last := d.top - 1
    let sp := d.base / 2 ^ 44 % 16
    let zero (x : Nat) : Bool := if sp = 15 then x / 2 ^ 20 % 2 ^ 14 = 0 else x / 2 ^ 20 % 2 ^ 24 = 0
    if 14 ≤ sp && last / 2 ^ 34 = d.base / 2 ^ 34 && zero d.base && zero last then none
    else some ⟨0x09, 0x71, BitVec.ofNat 96 d.base, false⟩
/-- Result words of a function (08 R231). -/
def ropeWords (fn : Nat) : Nat := if fn = 5 then 5 else if fn = 6 then 3 else if fn = 9 then 1 else 2
/-- Commands of a cell whose result has not landed. -/
def State.ropesOf (s : State) (c : Nat) : Nat := (s.cmds.filter fun x => x.2.cell = c).length
def ropeBody (fn : Nat) (f : Fields) : Body := fun s c i e =>
  let msg := fn = 7 && f.m.getLsbD 0
  let other : Option Trap :=
    if fn = 1 then permCheck s.openTval e.b permSrc
    else if fn = 7 && !msg then ringCheck s.openTval e.d
    else if fn = 10 || (fn = 8 && f.m.getLsbD 0) then handleCheck s.openTval e.b (fn = 10)
    else none
  let regs : Option Trap :=
    if 15 < mregOf f + ropeWords fn - 1 || (msg && 15 < bits e.d.data 14 4 + 3) then some ⟨0x09, 0x70, s.openTval, false⟩ else none
  match firstTrap [poolCheck s.openTval e.a, other, regs] with
  | some x => .trap x
  | none =>
    if 16 ≤ s.ropesOf c then .cancel s
    else
      let t := s.th c i
      let r : RopeCmd := { cell := c, slot := i, fn := s.fnOf c i, part := s.partOf c i, group := (s.slot c i).bind.map (·.group), asid := t.asid,
                           user := t.mode = .user, op := fn, m := f.m, mreg := mregOf f, pool := e.a, b := e.b, d := e.d, c0 := e.c.data, c1 := e.c1.data
                           hintN := f.n, cp := f.cp, held := fn = 7 && s.leaves (s.partOf c i) (s.fnOf c i) }
      let id := s.nextId
      .ok (({ s with cmds := s.cmds.put id r, nextId := id + 1 } : State).dueLater (.ropeExec id))

def execRopeSchema (f : Fields) (s : State) : Host.Outcome State Fault Refusal := .next (runThread (.ropeSchema f) (ropeBody 0) s)
def execRopeLeaf (f : Fields) (s : State) : Host.Outcome State Fault Refusal := .next (runThread (.ropeLeaf f) (ropeBody 1) s)
def execRopeCat (f : Fields) (s : State) : Host.Outcome State Fault Refusal := .next (runThread (.ropeCat f) (ropeBody 2) s)
def execRopeSplit (f : Fields) (s : State) : Host.Outcome State Fault Refusal := .next (runThread (.ropeSplit f) (ropeBody 3) s)
def execRopeSplice (f : Fields) (s : State) : Host.Outcome State Fault Refusal := .next (runThread (.ropeSplice f) (ropeBody 4) s)
def execRopeSum (f : Fields) (s : State) : Host.Outcome State Fault Refusal := .next (runThread (.ropeSum f) (ropeBody 5) s)
def execRopeSeek (f : Fields) (s : State) : Host.Outcome State Fault Refusal := .next (runThread (.ropeSeek f) (ropeBody 6) s)
def execRopeWalk (f : Fields) (s : State) : Host.Outcome State Fault Refusal := .next (runThread (.ropeWalk f) (ropeBody 7) s)
def execRopePin (f : Fields) (s : State) : Host.Outcome State Fault Refusal := .next (runThread (.ropePin f) (ropeBody 8) s)
def execRopePinH (f : Fields) (s : State) : Host.Outcome State Fault Refusal := .next (runThread (.ropePinH f) (ropeBody 8) s)
def execRopeUnpin (f : Fields) (s : State) : Host.Outcome State Fault Refusal := .next (runThread (.ropeUnpin f) (ropeBody 9) s)
def execRopePub (f : Fields) (s : State) : Host.Outcome State Fault Refusal := .next (runThread (.ropePub f) (ropeBody 10) s)

/-! ### Edits (08 R230, R237, R238) -/

def root32 (w : W64) : Nat := w.toNat % 2 ^ 32
def ropeOf (n : Nat) : RopeM (Nat × Nat) := do
  if n = 0 then pure (0, 0)
  else
    let x ← readNode n
    pure (x.h, x.len)
def maxLen : Nat := 2 ^ 48 - 1
/-- `rope.schema`: the header is written afresh, and the engine forgets the pool. -/
def doSchema (r : RopeCmd) : RopeM (List W64) := do
  let w := r.b.data
  if schemaBad w then ropeFail 9 0
  else
    let cap := min (r.pool.len / 64) (2 ^ 32 - 1)
    modify fun g => { g with tail := none }
    dropLines
    setHeader ⟨w, 1, cap, 0, 0, 0, 0⟩
    pure [w64n cap]
def doLeaf (r : RopeCmd) : RopeM (List W64) := do
  let h ← header
  let start := bits r.c0 0 32
  let n := bits r.c0 32 16
  if n = 0 then pure [0]
  else
    let es := 2 ^ esizeOf h.schema
    if (capCheck r.b permSrc (r.b.addr + es * start) (es * n)).isSome then ropeFail 8 0
    else
      needFree 1
      pure [w64n (← createRoot (.leaf r.b.addr start n))]
def doCat (r : RopeCmd) : RopeM (List W64) := do
  let a := root32 r.b.data
  let b := root32 r.c0
  let (h1, n1) ← ropeOf a
  let (h2, n2) ← ropeOf b
  if maxLen < n1 + n2 then ropeFail 2 0
  else
    needFree (if a = 0 || b = 0 then 0 else max h1 h2 - min h1 h2 + 1)
    pure [w64n (← createRoot (← join (.old a) (.old b)))]
def doSplit (r : RopeCmd) : RopeM (List W64) := do
  let a := root32 r.b.data
  let p := r.c0.toNat
  let (h, n) ← ropeOf a
  if n < p then ropeFail 2 0
  else
    needFree (if a = 0 then 0 else 3 * h + 4)
    let (x, y) ← split 128 (.old a) p
    let i ← createRoot x
    let j ← createRoot y
    pure [w64n (i + j * 2 ^ 32)]
def doSplice (r : RopeCmd) : RopeM (List W64) := do
  let a := root32 r.b.data
  let x := r.b.data.toNat / 2 ^ 32
  let p := r.c0.toNat
  let q := r.c1.toNat
  let (h, n) ← ropeOf a
  let (hx, nx) ← ropeOf x
  if q < p || n < q || maxLen < n - (q - p) + nx then ropeFail 2 0
  else
    needFree (if a = 0 then 0 else 8 * max h hx + 16)
    -- nothing replaced with nothing: the target itself (08 R235)
    if p = q && x = 0 then pure [w64n (← createRoot (.old a))] else
    let (l, m) ← split 128 (.old a) p
    let (_, t) ← split 128 m (q - p)
    pure [w64n (← createRoot (← join (← join l (.old x)) t))]

/-! ### Queries (08 R240, R241) -/

def checkRange (root p q : Nat) : RopeM Unit := do
  let (_, n) ← ropeOf root
  if q < p || n < q then ropeFail 2 0
/-- The summaries over a range are those of no element yet, or a list of slots with its length. -/
abbrev Acc4 := Option (List W64 × Nat)
/-- Add the next adjacent range. -/
def addPart (acc : Acc4) (p : Part4) : RopeM Acc4 := do
  let defs := slotsOf (← header).schema
  let (v, st) := p.correct defs
  modify fun g => { g with stale := g.stale ||| st }
  match acc with
  | none => pure (some (v, p.len))
  | some (u, n) => pure (some (combine defs n u v, n + p.len))
/-- The part of a leaf at position `pos` that lies in [p, q). -/
def leafPart (x : Node) (pos p q : Nat) : RopeM Part4 := do
  let a := max p pos
  let b := min q (pos + x.len)
  if a = pos && b = pos + x.len then pure ⟨x.slots, pos, x.origin, x.len⟩
  else pure ⟨← pieceSlots x.paddr (x.start + (a - pos)) (b - a) a, a, a, b - a⟩
/-- Fold the nodes of [p, q), whole nodes by their summaries, in order of position. -/
def sumRange : Nat → Nat → Nat → Nat → Nat → Acc4 → RopeM Acc4
  | 0, _, _, _, _, acc => pure acc
  | fuel + 1, n, pos, p, q, acc => do
    let x ← readNode n
    if q ≤ pos || pos + x.len ≤ p then pure acc
    else if p ≤ pos && pos + x.len ≤ q then addPart acc ⟨x.slots, pos, x.origin, x.len⟩
    else if x.leaf then
      let x ← visit n
      addPart acc (← leafPart x pos p q)
    else
      let x ← visit n
      let m := (← readNode x.left).len
      let acc ← sumRange fuel x.left pos p q acc
      sumRange fuel x.right (pos + m) p q acc
def doSum (r : RopeCmd) : RopeM (List W64) := do
  let defs := slotsOf (← header).schema
  let a := root32 r.b.data
  let p := r.c0.toNat
  let q := r.c1.toNat
  checkRange a p q
  if p = q then pure (defs.map SlotDef.identity)
  else match ← sumRange 128 a 0 p q none with
    | some (v, _) => pure v
    | none => pure (defs.map SlotDef.identity)
/-- Whether a prefix has reached the value sought. -/
def reached (x : SlotDef) (v p : W64) : Bool :=
  if x.fp && x.op ≠ 4 then (fp32.fcmp 2 (lo32 v) (lo32 p)).1 else v.sle p
def seekAdd (x : SlotDef) (p u : W64) : W64 := (combine [x] 0 [p] [u]).getD 0 0
/-- Inside a leaf: keys one at a time, to the element at which the prefix reaches the value, or to the prefix over all. -/
def seekLeaf (x : SlotDef) (v : W64) : Nat → W64 → List Int → Except W64 (Nat × W64)
  | _, p, [] => .error p
  | q, p, k :: ks =>
    let p' := seekAdd x p (x.leafSum 0 [k])
    if reached x v p' then .ok (q, p) else seekLeaf x v (q + 1) p' ks
/-- The leaf's elements are streamed by aligned 64-byte segments, and the stream ends with the element sought (08 R241, R244): `n` bytes are still
to be read at `va`; `got` holds the `m` bytes read of elements not yet looked at, from element `q` on. -/
def seekStream (x : SlotDef) (es : Nat) (v : W64) (va : Nat) : Nat → Nat → Nat → Nat → Nat → W64 → RopeM (Option (Nat × W64))
  | 0, _, _, _, _, _ => pure none
  | fuel + 1, n, got, m, q, p => do
    if n = 0 then pure none
    else
      let k := min n (64 - va % 64)
      let got := got + 2 ^ (8 * m) * (← pieceBytes va 2 k)
      let whole := (m + k) / 2 ^ es
      match seekLeaf x v q p (keysOf es x got whole) with
      | .ok r => pure (some r)
      | .error p => seekStream x es v ((va + k) % 2 ^ 48) fuel (n - k) (got / 2 ^ (8 * 2 ^ es * whole)) (m + k - 2 ^ es * whole) (q + whole) p
def seekFrom (x : SlotDef) (s : Nat) (v : W64) : Nat → Nat → Nat → W64 → RopeM (Option (Nat × W64))
  | 0, _, _, _ => pure none
  | fuel + 1, n, pos, p => do
    let y ← visit n
    if y.leaf then
      let es := esizeOf (← header).schema
      seekStream x es v ((y.paddr + 2 ^ es * y.start) % 2 ^ 48) (2 ^ es * y.len / 64 + 2) (2 ^ es * y.len) 0 0 pos p
    else
      let l ← readNode y.left
      let p' := seekAdd x p (l.slots.getD s 0)
      if reached x v p' then seekFrom x s v fuel y.left pos p else seekFrom x s v fuel y.right (pos + l.len) p'
def doSeek (r : RopeCmd) : RopeM (List W64) := do
  let s := r.m.toNat % 4
  let x := (slotsOf (← header).schema).getD s ⟨0, false, false, 0⟩
  let a := root32 r.b.data
  let v := r.c0
  if !(x.op = 1 || x.op = 2 || x.op = 4) then ropeFail 5 0
  else
    let (n, whole) ← if a = 0 then pure (0, x.identity) else do
      let y ← readNode a
      pure (y.len, y.slots.getD s 0)
    let missing : RopeErr := .status 6 0 [w64n n, whole]
    if !reached x v whole then throw missing
    else if a = 0 then pure [0, x.identity]
    else match ← seekFrom x s v 128 a 0 x.identity with
      | some (q, p) => pure [w64n q, p]
      | none => throw missing

/-! ### Pins and publishing (08 R242, 12 R326) -/

/-- A handle: its key, root and version. The node id that a poisoned handle names is a free value (22 R441, log entry 52). -/
def readHandle (r : RopeCmd) (acc : Acc) : RopeM (Nat × W64) := do
  let k ← hbmKey r.b.addr 16 acc
  ropeAccess k 16 false
  let g ← get
  if g.s.poisoned k 16 then
    set { g with s := { g.s with fresh := g.s.fresh + 1 } }
    ropeFail 4 (bits (Config.freeValue g.s.fresh) 0 32)
  else pure (k, w64n (readNat g.s.mem k 8))
def doPin (r : RopeCmd) : RopeM (List W64) := do
  let w ← if r.m.getLsbD 0 then do pure (← readHandle r .load).2 else pure (w64n (root32 r.b.data))
  if root32 w ≠ 0 then countUp (root32 w)
  pure [w]
def doUnpin (r : RopeCmd) : RopeM (List W64) := do
  let n := root32 r.b.data
  if n ≠ 0 then countDown n
  pure []
/-- The result, and the handle to write: a failed publish has status 1. -/
def doPub (r : RopeCmd) : RopeM (List W64 × Option Nat) := do
  let (k, w) ← readHandle r .rmw
  let new := root32 r.c0
  let ver := w.toNat / 2 ^ 32
  if ver = r.c0.toNat / 2 ^ 32 then
    if root32 w ≠ 0 then countDown (root32 w)
    pure ([w64n (new + (ver + 1) % 2 ^ 32 * 2 ^ 32)], some k)
  else
    if root32 w ≠ 0 then countUp (root32 w)
    pure ([w], none)

/-! ### Walks (08 R243) -/

/-- The leaf that holds a position, with its id and start, and the path to it. A walk goes on along the path it stands on, so only the nodes that
it comes to anew are steps (12 R339). -/
def findLeaf : Nat → Nat → Nat → Nat → List Nat → RopeM (Nat × Node × Nat × List Nat)
  | 0, n, _, _, _ => ropeFail 4 n
  | fuel + 1, n, at_, p, path => do
    let x ← visit n
    if x.leaf then pure (n, x, at_, path ++ [n])
    else
      let m := (← readNode x.left).len
      if p < at_ + m then findLeaf fuel x.left at_ p (path ++ [n]) else findLeaf fuel x.right (at_ + m) p (path ++ [n])
/-- Ring header words of a walk: head, tail, cap. -/
def ringWord (r : RopeCmd) (off : Nat) : RopeM Nat := do
  let k ← ropeKey ((r.d.addr + off) % 2 ^ 48) 8 .load
  ropeAccess k 8 false
  pure (readNat (← get).s.mem k 8)
/-- The start of a walk: its target or ring, its range, and its reference, in this order; so do a leaf's piece range and an edit's range come before
the free nodes. The manual does not say which status a command reports when several apply (DESIGN CHOICE, log entry 60). -/
def walkStart (r : RopeCmd) : RopeM Walk := do
  if r.m.getLsbD 0 then
    if (physOf r.part (bits r.d.data 0 10)).isNone then ropeFail 2 0
  else
    let cap ← ringWord r 16
    if !(1 ≤ cap && cap ≤ 32768 && 2 ^ Nat.log2 cap = cap && r.d.base ≤ r.d.addr && r.d.addr + 64 + 32 * cap ≤ r.d.top) then ropeFail 10 0
  let a := root32 r.b.data
  let _ ← header
  checkRange a r.c0.toNat r.c1.toNat
  if a ≠ 0 then countUp a
  ropeCommit
  pure ⟨a, r.c0.toNat, 0, false, r.c1.toNat, ((slotsOf (← header).schema).getD (r.m.toNat / 2 % 4) ⟨0, false, false, 0⟩).identity, []⟩
/-- The prefix over [start, pos): the prefix so far with the leaf before `pos` added. -/
def walkPrefix (r : RopeCmd) (w : Walk) : RopeM (W64 × Bool) := do
  let s := r.m.toNat / 2 % 4
  let start := r.c0.toNat
  if w.pos = start then pure (w.acc, w.stale)
  else
    let (_, x, at_, _) ← findLeaf 128 w.root 0 (w.pos - 1) []
    let part ← leafPart x at_ start w.pos
    let defs := slotsOf (← header).schema
    let (v, st) := part.correct defs
    modify fun g => { g with stale := g.stale ||| st }
    let stale := w.stale || st.testBit s
    if part.pos = start then pure (v.getD s 0, stale)
    else
      let one := (combine defs (part.pos - start) ((List.range 4).map fun _ => w.acc) v).getD s 0
      pure (one, stale)
/-- The next record (08 R243), and the walk after it. -/
def walkRecord (r : RopeCmd) (w : Walk) : RopeM (Nat × Walk) := do
  let (p, stale) ← walkPrefix r w
  let (id, x, at_, path) ← findLeaf 128 w.root 0 w.pos []
  let stop := min w.fin (at_ + x.len)
  let ps := x.start + (w.pos - at_)
  let es := 2 ^ esizeOf (← header).schema
  let rec_ := (x.paddr + es * ps) % 2 ^ 48 + (stop - w.pos) % 2 ^ 16 * 2 ^ 48 + w.pos % 2 ^ 64 * 2 ^ 64 + p.toNat * 2 ^ 128 + id * 2 ^ 192 +
    ps % 2 ^ 32 * 2 ^ 224
  pure (rec_, { w with pos := stop, records := w.records + 1, stale := stale, acc := p, path := path })
/-- Write a record to the ring and advance head; false while the ring is full. -/
def ringPut (r : RopeCmd) (v : Nat) : RopeM Bool := do
  let head ← ringWord r 0
  let tail ← ringWord r 8
  let cap ← ringWord r 16
  if (head - tail : Int) % 2 ^ 64 = cap then pure false
  else
    let k ← ropeKey ((r.d.addr + 64 + 32 * (head % cap)) % 2 ^ 48) 32 .store
    let kh ← ropeKey r.d.addr 8 .store
    ropeFree k 32
    ropeFree kh 8
    modify fun g =>
      let s := (g.s.access (some g.op.fn) k 32 true g.op.cp).write none k 32 v
      { g with s := (s.access (some g.op.fn) kh 8 true g.op.cp).write none kh 8 ((head + 1) % 2 ^ 64) }
    pure true

/-! ### Execution at the home engine (08 R226, R234) -/

/-- The operation record through which a command translates. -/
def RopeCmd.asOp (r : RopeCmd) : Op :=
  { cell := r.cell, slot := r.slot, fn := r.fn, part := r.part, group := r.group, asid := r.asid, user := r.user, kind := .zero 0, compl := .tag 0 0,
    cp := r.cp }
def State.rig (s : State) (id : Nat) (r : RopeCmd) : Rig :=
  { s := s, id := id, op := r.asOp, base := r.pool.base, query := r.op = 5 || r.op = 6 || r.op = 7, hintN := r.hintN,
    seen := (r.walk.map (·.path)).getD [] ++ r.seen }
/-- The header's key as it translates now; the pool's identity. -/
def State.poolOf (s : State) (r : RopeCmd) : Option Nat :=
  match engKey s r.asOp r.pool.base 64 .load with
  | .ok _ k => if isHbm k then some k else none
  | _ => none
def samePool (s : State) (r q : RopeCmd) : Bool :=
  (r.pool.base = q.pool.base && r.asid = q.asid) || match s.poolOf r with
    | some k => s.poolOf q = some k
    | none => false
/-- A command of the pool that comes first: not yet executed, or a walk that a fault holds. -/
def State.ropeFirst (s : State) (id : Nat) (r : RopeCmd) : Bool :=
  s.cmds.any fun (j, q) => j < id && q.result.isNone && (q.walk.isNone || q.stop.isSome || q.fault.isSome) && samePool s r q
/-- Start a command's work with the pool's tail, in the memory of its header. -/
def withPool (k : RopeM α) : RopeM α := do
  let key ← hbmKey (← get).base 64 .load
  modify fun g => { g with key := key, tail := (g.s.pools.at key {}).tail }
  k
/-- Keep the engine's own state of the pool, and reclaim in the background. -/
def ropeKeep (r : RopeCmd) : RopeM Unit := do
  let g ← get
  let p := g.s.pools.at g.key {}
  let s : State := { g.s with pools := g.s.pools.put g.key { p with tail := g.tail, last := some r } }
  let pend : Bool := match g.hdr with
    | some h => h.pendn ≠ 0
    | none => false
  set { g with s := if pend then s.dueLater (.reclaim g.key) else s }
/-- A command other than a walk: its status and words. -/
def ropeRun (r : RopeCmd) : RopeM (Nat × List W64) := withPool do
  let edit (k : RopeM (List W64)) : RopeM (Nat × List W64) := do
    let v ← k
    ropeCommit
    ropeKeep r
    pure ((← get).allocated * 2 ^ 16, v)
  let plain (k : RopeM (List W64)) : RopeM (Nat × List W64) := do
    let v ← k
    ropeCommit
    ropeKeep r
    pure ((← get).stale * 2 ^ 8, v)
  match r.op with
  | 0 => plain (doSchema r)
  | 1 => edit (doLeaf r)
  | 2 => edit (doCat r)
  | 3 => edit (doSplit r)
  | 4 => edit (doSplice r)
  | 5 => plain (doSum r)
  | 6 => do
    let v ← doSeek r
    pure (0, v)
  | 8 => plain (doPin r)
  | 9 => plain (doUnpin r)
  | _ => do
    let _ ← header
    let (v, k) ← doPub r
    ropeCommit
    match k with
    | some k => modify fun g => { g with s := (g.s.access (some g.op.fn) k 16 true g.op.cp).write none k 16 (v.headD 0).toNat }
    | none => pure ()
    ropeKeep r
    pure (if k.isSome then 0 else 1, v)
/-- The result words of a status (08 R233, R234). -/
def ropeResult (r : RopeCmd) (st : Nat) (words : List W64) : List W64 :=
  (w64n st :: words ++ [0, 0, 0, 0, 0]).take (ropeWords r.op)
/-- End a command with its result. -/
def State.ropeDone (s : State) (id : Nat) (r : RopeCmd) (st : Nat) (words : List W64) : State :=
  ({ s with cmds := s.cmds.put id { r with result := some (ropeResult r st words), ended := s.nextId }, nextId := s.nextId + 1 } : State).dueLater (.ropeLand id)
/-- A result of the same engine for the same slot ended earlier and has not reached the cell. -/
def State.resultWaits (s : State) (r : RopeCmd) : Bool :=
  s.cmds.any fun (_, x) => x.result.isSome && x.pkt = 0 && x.home = r.home && x.cell = r.cell && x.slot = r.slot && x.ended < r.ended
/-- A failed translation stops a command; the record step follows. -/
def State.ropeStop (s : State) (id : Nat) (r : RopeCmd) (stale acc va : Nat) : State :=
  ({ s with cmds := s.cmds.put id { r with stop := some (acc, va), stale := stale } } : State).dueNow (.faultRecord id)
/-- The stale field of a status (08 R234): sums report every slot, walks the one that they chose. -/
def staleBits (r : RopeCmd) (stale : Nat) : Nat :=
  if r.op = 5 then stale % 16 * 2 ^ 8
  else if r.op = 7 then ((if (r.walk.map (·.stale)).getD false then 2 ^ (r.m.toNat / 2 % 4) else 0) ||| (stale % 16 &&& 2 ^ (r.m.toNat / 2 % 4))) * 2 ^ 8
  else 0
/-- A command waits until a cycle, and keeps the steps that it has taken. -/
def State.ropeWait (s : State) (id : Nat) (r : RopeCmd) (g : Rig) (t : Nat) (d : Due) : State :=
  ({ s with cmds := s.cmds.put id { r with seen := g.seen } } : State).dueAt t d
/-- Let a walk go: its reference ends with it. A failed translation stops it before its end, unless it was declared unresolvable, and a node that it
finds damaged is reported. -/
def State.walkEnd (s : State) (id : Nat) (r : RopeCmd) (w : Walk) (st : Nat) (words : List W64) : State :=
  let drop : RopeM Unit := withPool do
    if w.root ≠ 0 then countDown w.root
    ropeCommit
    ropeKeep r
  match drop (s.rig id r) with
  | (.ok _, g) => g.s.ropeDone id r st words
  | (.error (.stop a v), g) => if r.givenUp.any (·.2 / 4096 = v / 4096) then g.s.ropeDone id r st words else g.s.ropeStop id r 0 a v
  | (.error (.later t), g) => g.s.ropeWait id r g t (.walkEmit id)
  | (.error (.status k n _), g) =>
    if st % 256 = 0 then g.s.ropeDone id r (k + staleBits r 0 + (if k = 4 || k = 7 then n else w.records) % 2 ^ 32 * 2 ^ 16) []
    else g.s.ropeDone id r st words
/-- A fault of a command at an address was declared unresolvable; a walk still lets its reference go, unless that address is in its way. -/
def State.ropeGivenUp (s : State) (id : Nat) (r : RopeCmd) (st va : Nat) : State :=
  match r.walk with
  | none => s.ropeDone id r st []
  | some w =>
    let st := (r.givenUp.map (·.1)).getD st
    s.walkEnd id { r with givenUp := some (st, va) } w st []
def RopeCmd.homeOf (s : State) (r : RopeCmd) : Nat := ((s.poolOf r).bind fun k => stackOf (hbmOff k)).getD 0
def execRopeCommandExecute (cmd : Nat) (s : State) : Host.Outcome State Fault Refusal :=
  match s.cmds.look cmd with
  | none => .next s
  | some r =>
    if r.result.isSome || r.walk.isSome || r.stop.isSome || r.held then .next s
    else if s.ropeFirst cmd r || s.earlier r.cell r.slot cmd then .next (s.dueLater (.ropeExec cmd))
    else
      let r := { r with home := r.homeOf s }
      if r.op = 7 then
        match withPool (walkStart r) (s.rig cmd r) with
        | (.ok w, g) => .next (({ g.s with cmds := g.s.cmds.put cmd { r with walk := some w, seen := [] } } : State).dueLater (.walkEmit cmd))
        | (.error (.status st det ws), g) => .next (g.s.ropeDone cmd r (st + det % 2 ^ 32 * 2 ^ 16) ws)
        | (.error (.stop a v), g) => .next (g.s.ropeStop cmd r 0 a v)
        | (.error (.later t), g) => .next (g.s.ropeWait cmd r g t (.ropeExec cmd))
      else
        match ropeRun r (s.rig cmd r) with
        | (.ok (st, ws), g) => .next (g.s.ropeDone cmd r st ws)
        | (.error (.status st det ws), g) => .next (g.s.ropeDone cmd r (st + staleBits r g.stale + det % 2 ^ 32 * 2 ^ 16) ws)
        | (.error (.stop a v), g) => .next (g.s.ropeStop cmd { r with seen := g.seen } g.stale a v)
        | (.error (.later t), g) => .next (g.s.ropeWait cmd r g t (.ropeExec cmd))

/-- The result reaches the thread's slot as one packet of the engine (08 R233); the cell offers it again while the slot has no place. -/
def execRopeResultLanding (cmd : Nat) (s : State) : Host.Outcome State Fault Refusal :=
  match s.cmds.look cmd with
  | none => .next s
  | some r =>
    match r.result with
    | none => .next s
    | some ws =>
      if r.pkt ≠ 0 then .next (s.landOrHold r.pkt)
      else if s.resultWaits r then .next (s.dueLater (.ropeLand cmd))
      else
        let id := s.nextId
        let p : Packet := { cell := r.cell, slot := r.slot, words := (List.range ws.length).map (r.mreg + ·) |>.zip ws, id := id }
        let s1 : State := { s with nextId := id + 1, cmds := s.cmds.put cmd { r with pkt := id } }
        match s1.accept { fromCell := 1025 + r.home, fromSlot := 0, slot := r.slot, pkt := p, fn := some r.fn } with
        | some s2 => .next (s2.landOrHold id)
        | none => .next (s.dueAt (s.cycle + 8) (.ropeLand cmd))

/-- The engine puts a walk's next record into its ring, or sends it; the walk ends after its last record. -/
def execWalkRecordEmit (cmd : Nat) (s : State) : Host.Outcome State Fault Refusal :=
  match s.cmds.look cmd with
  | none => .next s
  | some r =>
    match r.walk with
    | none => .next s
    | some w =>
      if r.result.isSome || r.stop.isSome || (r.held && r.givenUp.isNone) then .next s
      else if let some (st, _) := r.givenUp then .next (s.walkEnd cmd r w st [])
      else if w.fin ≤ w.pos then
        let s' := r.m.toNat / 2 % 4
        .next (s.walkEnd cmd r w ((if w.stale then 2 ^ s' else 0) * 2 ^ 8 + w.records % 2 ^ 32 * 2 ^ 16) [w64n w.fin])
      else
        let emit : RopeM (Option Walk × Option Nat) := withPool do
          let (v, w') ← walkRecord r w
          if r.m.getLsbD 0 then pure (some w', some v)
          else if ← ringPut r v then pure (some w', none) else pure (none, none)
        match emit (s.rig cmd r) with
        | (.ok (none, _), g) =>
          .next (({ g.s with fresh := g.s.fresh + 1 } : State).ropeWait cmd r g (g.s.cycle + 1 + Config.latency g.s.fresh % 256) (.tailPoll cmd))
        | (.ok (some w', none), g) =>
          .next (({ g.s with cmds := g.s.cmds.put cmd { r with walk := some w', seen := [] } } : State).dueLater (.walkEmit cmd))
        | (.ok (some w', some v), g) =>
          let s := g.s
          let id := s.nextId
          let t := r.d.data.toNat
          let reg := t / 2 ^ 14 % 16
          let slot := t / 2 ^ 10 % 16
          let c := (physOf r.part (t % 2 ^ 10)).getD r.cell
          let p : Packet := { cell := c, slot := slot, words := (List.range 4).map fun k => (reg + k, w64n (v / 2 ^ (64 * k))), id := id }
          match ({ s with nextId := id + 1 } : State).accept { fromCell := 1025 + r.home, fromSlot := 0, slot := slot, pkt := p, fn := some r.fn } with
          | some s => .next (({ s with cmds := s.cmds.put cmd { r with walk := some w', seen := [] } } : State).dueLater (.walkEmit cmd))
          | none => .next (s.ropeWait cmd r g (s.cycle + 8) (.walkEmit cmd))
        | (.error (.stop a v), g) => .next (g.s.ropeStop cmd { r with seen := g.seen } g.stale a v)
        | (.error (.later t), g) => .next (g.s.ropeWait cmd r g t (.walkEmit cmd))
        | (.error (.status st det _), g) =>
          .next (g.s.walkEnd cmd r w (st + staleBits r g.stale + (if st = 4 || st = 7 then det else w.records) % 2 ^ 32 * 2 ^ 16) [])
/-- A walk that waits on a full ring reads tail again. -/
def execWalkTailPoll (cmd : Nat) (s : State) : Host.Outcome State Fault Refusal :=
  match s.cmds.look cmd with
  | none => .next s
  | some r =>
    if r.walk.isNone || r.result.isSome || r.stop.isSome || r.held || r.m.getLsbD 0 then .next s
    else
      let look : RopeM Bool := do
        let head ← ringWord r 0
        let tail ← ringWord r 8
        let cap ← ringWord r 16
        pure ((head - tail : Int) % 2 ^ 64 = cap)
      match look (s.rig cmd r) with
      | (.ok true, g) => .next (({ g.s with fresh := g.s.fresh + 1 } : State).dueAt (g.s.cycle + 1 + Config.latency g.s.fresh % 256) (.tailPoll cmd))
      | (.ok false, g) => .next (g.s.dueNow (.walkEmit cmd))
      | (.error (.stop a v), g) => .next (g.s.ropeStop cmd r 0 a v)
      | (.error (.later t), g) => .next (g.s.dueAt t (.tailPoll cmd))
      | (.error (.status ..), g) => .next (g.s.dueNow (.walkEmit cmd))

/-- Reclaim one pending node: an engine reclaims at most 64 in any 1,000 consecutive cycles (08 R236, 12 R337). Where a translation fails or a node
is damaged, reclamation rests without a record until the pool's next command: the manual says nothing of it (DESIGN CHOICE, log entry 60). -/
def execNodeReclaim (pool : Nat) (s : State) : Host.Outcome State Fault Refusal :=
  let e := (stackOf (hbmOff pool)).getD 0
  match (s.pools.at pool {}).last with
  | none => .next s
  | some r =>
    let recent := (s.rigs.at e {}).reclaims.filter fun t => s.cycle < t + 1000
    if 64 ≤ recent.length then .next (s.dueAt (recent.headD s.cycle + 1000) (.reclaim pool))
    else
      let work : RopeM Bool := withPool do
        let h ← header
        if h.pendn = 0 || h.pendh = 0 then pure false
        else
          reclaimOne
          ropeCommit
          ropeKeep r
          pure true
      match work (({ s with nextId := s.nextId + 1 } : State).rig s.nextId { r with walk := none, seen := [], cp := 0, op := 9 }) with
      | (.ok true, g) => .next { g.s with rigs := g.s.rigs.put e { g.s.rigs.at e {} with reclaims := recent ++ [s.cycle] } }
      | (.error (.later t), g) => .next (g.s.dueAt t (.reclaim pool))
      | (_, g) => .next g.s

end Sys2Proof.Machine
end

