-- ==== Sys2Proof/Machine/Queue.lean ====
section
/-!
DEFINITION. Stage queues and work queues as threads use them (07 R206-R211; 10 R292-R298), the prompter's read of a head packet (18 R366),
and the reply to an engine fault record (20 R426).
-/
namespace Sys2Proof.Machine

/-! ### Queue words and item buffers (07 R206, R207) -/

/-- A stage queue by its number in the machine, or a hardware work queue. -/
inductive QRef where
  | stage (k : Nat)
  | hw (q : Nat)
  deriving DecidableEq, Repr
/-- The number of a stage in the machine. Each tenant of a time-sliced partition has stage queues of its own, those of the second tenant from 4096 on
(10 R301, log entry 53). -/
def stageKey (part n : Nat) : Nat := part * 8192 + n
def State.tenantBit (s : State) (p f : Nat) : Nat :=
  if partSlice s.layout.active p && f = partVf1 s.layout.active p then 4096 else 0
def State.stage (s : State) (k : Nat) : Option Stage := s.stages.look k
def State.setStage (s : State) (k : Nat) (q : Stage) : State := { s with stages := s.stages.put k q }
def State.queueRef (s : State) (c i : Nat) (w : W64) : Except Trap QRef :=
  let n := w.toNat
  if w.getLsbD 31 then
    let q := n % 2 ^ 15
    if n ≠ 2 ^ 31 + q then .error ⟨0x09, 0x50, s.openTval, false⟩
    else if qVf (s.queue q).ctx ≠ s.fnOf c i then .error ⟨0x06, 0x10, s.openTval, false⟩
    else .ok (.hw q)
  else
    let k := stageKey (s.partOf c i) (n % 4096 + s.tenantBit (s.partOf c i) (s.fnOf c i))
    if n ≠ n % 4096 || (s.stage k).isNone then .error ⟨0x09, 0x50, s.openTval, false⟩ else .ok (.stage k)
/-- Go on with the queue and the key of the item buffer. -/
def withQueue (s : State) (c i : Nat) (e : Env) (perm : Nat) (acc : Acc) (f : State → QRef → Nat → Res) : Res :=
  match s.queueRef c i e.a.data with
  | .error x => .trap x
  | .ok r =>
    tryKey (s.resolve c i e.b [perm] e.b.addr 64 64 acc) fun s k =>
      if !ownPool c k then .fault s ⟨0x09, 0, s.openTval, false⟩ else tileOr s k 64 (f s r k)
/-- End with a code in D. -/
def code (s : State) (c i : Nat) (f : Fields) (n : Nat) : Res := .ok (s.writeD c i f.d (BitVec.ofNat 64 n))

/-! ### Waking parked pops -/

/-- Complete a parked pop with a code. -/
def State.wakePop (s : State) (c i n : Nat) : State :=
  match (s.th c i).wait with
  | some (.pop _ d _) => (((s.writeD c i d (BitVec.ofNat 64 n)).modTh c i Thread.complete).ready c i).unpop c i
  | _ => s.unpop c i
/-- Complete a parked pop with an item. -/
def State.wakeItem (s : State) (c i v : Nat) : State :=
  match (s.th c i).wait with
  | some (.pop _ _ key) => ((s.access (s.payer c i) key 64 true).write (some (c, i)) key 64 v).wakePop c i 0
  | _ => s.unpop c i
def State.wakeAll (s : State) (l : List (Nat × Nat × Nat)) (n : Nat) : State := l.foldl (fun s (c, i, _) => s.wakePop c i n) s

/-- The head item of a work queue is taken; a closed queue that this empties wakes the pops still parked on it (07 R210). -/
def State.headTaken (s : State) (q : Nat) : State :=
  let s := s.advanceHead q
  let x := s.queue q
  if x.closed && x.depth = 0 then s.wakeAll x.parked 2 else s

/-! ### The rings of a stage queue (10 R292, R293) -/

/-- Code base of a stage's record. -/
def Stage.code (q : Stage) : Nat := bits q.record 64 48
def Stage.occ (q : Stage) : Nat := q.count + q.spCount
/-- Key of the `n`-th item of the SRAM part, and address of the `n`-th of the spill part. -/
def Stage.slotKey (q : Stage) (n : Nat) : Nat := poolKey q.home (q.ring + 64 * ((q.head + n) % q.qcap))
def Stage.spillVa (q : Stage) (n : Nat) : Nat := (q.spill + 64 * ((q.spHead + n) % q.scap)) % 2 ^ 48
/-- Whether the scratchpad granules of a stage's ring, which may hold its items, are with its tenant: a switch exchanges them (10 R301, 20 R412). -/
def State.stageHere (s : State) (k : Nat) (q : Stage) : Bool :=
  match s.slicedAt q.home with
  | none => true
  | some p =>
    let x := s.cell q.home
    (units 4096 q.ring (64 * q.qcap)).all fun g => ((s.part p).tenant != (x.switch && x.granules.contains g)) == (k / 4096 % 2 = 1)
def State.stageFn (s : State) (q : Stage) : Nat := (s.owner q.asid.toNat).getD 0
/-- Schedule the refill of an item. -/
def State.refillDue (s : State) (k : Nat) : State :=
  match s.stage k with
  | some q =>
    if q.spCount ≠ 0 && q.count < q.qcap && !q.refilling then
      (s.setStage k { q with refilling := true }).dueAt (s.cycle + 8) (.refill (k / 8192) (k % 8192))
    else s
  | none => s
/-- Put an item into the SRAM part, which has room. -/
def State.putItem (s : State) (k v : Nat) (bad : Bool) : State :=
  match s.stage k with
  | some q =>
    let s := s.access (some (s.stageFn q)) (q.slotKey q.count) 64 true
    let s := if bad then s.writePoison none (q.slotKey q.count) 64 v else s.write none (q.slotKey q.count) 64 v
    s.setStage k { q with count := q.count + 1 }
  | none => s
/-- Take the oldest item of the SRAM part; items lost to poison are counted and passed over (10 R302, 22 R448). -/
def State.takeItem (s : State) (k : Nat) : Nat → State × Option Nat
  | 0 => (s, none)
  | n + 1 =>
    match s.stage k with
    | some q =>
      if q.count = 0 then (s, none)
      else
        let key := q.slotKey 0
        let s := (s.access (some (s.stageFn q)) key 64 false).setStage k { q with head := (q.head + 1) % q.qcap, count := q.count - 1 }
        if (s.poisonAt key 64).isSome then (s.count (s.stageFn q) 6).takeItem k n else (s, some (readNat s.mem key 64))
    | none => (s, none)
/-- Serve the parked pops in the order in which they parked (10 R293), and wake them all when the queue is closed and empty (07 R210). -/
def State.servePops (s : State) (k : Nat) : Nat → State
  | 0 => s
  | n + 1 =>
    match s.stage k with
    | none => s
    | some q =>
      match q.parked with
      | [] => s
      | (c, i, _) :: _ =>
        match s.takeItem k q.count with
        | (s, some v) => ((s.wakeItem c i v).refillDue k).servePops k n
        | (s, none) => if q.closed && ((s.stage k).map Stage.occ) = some 0 then s.wakeAll q.parked 2 else s
def State.serveStage (s : State) (k : Nat) : State := s.servePops k (((s.stage k).map (·.parked.length)).getD 0)

/-! ### The stage governor (10 R296-R298) -/

def Stage.heavy (q : Stage) : Bool := q.high ≠ 0 && q.high < q.occ
def Stage.light (q : Stage) : Bool := q.occ ≤ q.low
/-- The threads that are members of a stage. -/
def State.members (s : State) (k : Nat) : List (Nat × Nat) :=
  (s.allSlots.filter fun (_, _, y) => y.bind.bind Bind.stage = some k && y.state != .empty && y.state != .dead).map fun (c, i, _) => (c, i)
/-- The members of a stage that a slice switch has taken out. -/
def State.membersAway (s : State) (k : Nat) : Nat :=
  (s.blocks.map fun (_, x) => (x.slots.filter fun (_, y) => y.bind.bind Bind.stage = some k && y.state != .empty && y.state != .dead).length).sum
/-- Whether a stage has taken no reassignment in the last 256 cycles. -/
def Stage.rested (q : Stage) (cycle : Nat) : Bool :=
  match q.lastMove with
  | none => true
  | some t => t + 256 ≤ cycle
/-- Whether pops of stage `a` may be reassigned. -/
def State.yields (s : State) (a : Nat) (q : Stage) : Bool := q.high ≠ 0 && q.light && !q.closed && 2 ≤ (s.members a).length + s.membersAway a
/-- The heavy stage that takes a thread of stage `a`: the largest occupancy above high, then the lowest index. -/
def State.reassign (s : State) (a : Nat) : Option Nat :=
  match s.stage a with
  | none => none
  | some q =>
    if !s.yields a q then none
    else
      (s.stages.foldl (fun (best : Option (Nat × Nat)) (b, r) =>
        if b ≠ a && b / 4096 = a / 4096 && r.code = q.code && r.heavy && r.rested s.cycle then
          match best with
          | some (_, m) => if m < r.occ - r.high then some (b, r.occ - r.high) else best
          | none => some (b, r.occ - r.high)
        else best) none).map (·.1)
/-- Move a thread's membership to stage `b`. -/
def State.moveTo (s : State) (c i b : Nat) : State :=
  let y := s.slot c i
  let s := s.setSlot c i { y with bind := y.bind.map fun x => { x with stage := some b } }
  match s.stage b with
  | some r => s.setStage b { r with lastMove := some s.cycle }
  | none => s
def reassignCode (b : Nat) : Nat := 2 ^ 31 + b % 4096
/-- A stage has become heavy: the pop parked longest in an eligible light stage is woken with its code. -/
def State.becameHeavy (s : State) (b : Nat) : State :=
  match s.stage b with
  | none => s
  | some r =>
    if !r.rested s.cycle then s
    else
      let all := s.stages.flatMap fun (a, q) =>
        if a ≠ b && a / 4096 = b / 4096 && q.code = r.code && s.yields a q then q.parked else []
      let first := all.foldl (fun (m : Option (Nat × Nat × Nat)) x =>
        match m with
        | some y => if x.2.2 < y.2.2 || (x.2.2 = y.2.2 && (x.1 < y.1 || (x.1 = y.1 && x.2.1 < y.2.1))) then some x else m
        | none => some x) none
      match first with
      | some (c, i, _) => (s.moveTo c i b).wakePop c i (reassignCode b)
      | none => s
/-- What follows a push: parked pops are served, the refill goes on, and the stage may have become heavy. -/
def State.pushed (s : State) (k : Nat) (was : Bool) : State :=
  let s := (s.serveStage k).refillDue k
  if !was && ((s.stage k).map Stage.heavy).getD false then s.becameHeavy k else s

/-! ### Spilling (10 R294) -/

/-- Translate an access to the spill part. -/
def State.spillKey (s : State) (q : Stage) (va : Nat) (acc : Acc) (user : Bool) : State × Walked Nat :=
  match s.translate (s.owner q.asid.toNat) q.home q.asid.toNat va acc user with
  | (s, .ok key) =>
    match kindOf key with
    | .peer _ => (s, .fault)
    | _ => match s.holdAct (s.stageFn q) 0 [(key, 64)] with
      | (s, some t) => (s, .held t)
      | (s, none) => (s, .ok key)
  | x => x
/-- Write an item at the end of the spill part. -/
def State.spillWrite (s : State) (k v : Nat) (bad user : Bool) : State × Walked Unit :=
  match s.stage k with
  | none => (s, .fault)
  | some q =>
    match s.spillKey q (q.spillVa q.spCount) .store user with
    | (s, .ok key) =>
      let s := (s.access (some (s.stageFn q)) key 64 true).writeHome none key 64 v false bad
      (s.setStage k { q with spCount := q.spCount + 1 }, .ok ())
    | (s, .fault) => (s, .fault)
    | (s, .held t) => (s, .held t)
/-- The slots of a thread's group. -/
def State.groupOf (s : State) (c i : Nat) : List (Nat × Nat) :=
  match (s.slot c i).bind with
  | none => [(c, i)]
  | some b =>
    (s.allSlots.filter fun (_, _, y) => y.bind.map (fun x => (x.part, x.group)) = some (b.part, b.group) &&
      (y.state = .ready || y.state = .parked)).map fun (d, j, _) => (d, j)
/-- Save the threads of a held push that can be saved now. -/
def State.saveGroup (s : State) (id : Nat) (x : Spill) : State :=
  x.toSave.foldl (fun s (c, i) =>
    let y := s.slot c i
    let x := (s.spills.look id).getD x
    let done (x : Spill) : Spill := { x with toSave := x.toSave.filter (· != (c, i)) }
    if y.state = .ready || y.state = .parked then
      if s.canSave c i then { s.saveSlot c i with spills := s.spills.put id { done x with saved := x.saved ++ [(c, i)] } } else s
    else { s with spills := s.spills.put id (done x) }) s
/-- Restore the threads of a held push. -/
def State.restoreGroup (s : State) (x : Spill) : State :=
  x.saved.foldl (fun s (c, i) =>
    if (s.slot c i).state = .saved && (s.slot c i).bind.map Bind.group = x.group then s.loadSlot c i
    else
      -- a thread that a switch has taken out goes on when its tenant returns
      { s with blocks := s.blocks.map fun (k, b) =>
          (k, if k / 2 = c then { b with slots := b.slots.map fun (j, y) =>
            (j, if j = i && y.state = .saved && y.bind.map Bind.group = x.group then { y with switched := true } else y) } else b) }) s
/-- End a held push with a code. -/
def State.spillEnd (s : State) (id : Nat) (x : Spill) (n : Nat) : State :=
  let s := s.restoreGroup x
  let s := if (s.th x.cell x.slot).wait = some (.spill id) then
      ((s.writeD x.cell x.slot x.d (BitVec.ofNat 64 n)).modTh x.cell x.slot Thread.complete).ready x.cell x.slot
    else match s.home x.cell x.slot x.fn with
      | .image key =>
        let s := match x.d with
          | .k k => s.writeKFor x.cell x.slot x.fn k.toNat (BitVec.ofNat 64 n)
          | _ => s
        s.imageReply x.cell x.slot key (·.wd x.d (BitVec.ofNat 64 n))
      | _ => s
  { s with spills := s.spills.del id }
def State.spillHeld (s : State) (k : Nat) : Bool := s.spills.any fun (_, x) => x.stage = k && !x.refill

/-! ### Push (07 R209, 10 R293) -/

def pushStage (f : Fields) (c i k v : Nat) (s : State) : Res :=
  match s.stage k with
  | none => .trap ⟨0x09, 0x50, s.openTval, false⟩
  | some q =>
    let toRam : Res := code ((s.putItem k v false).pushed k q.heavy) c i f 0
    if q.killed then code s c i f 6
    else if q.closed then code s c i f 4
    else if !s.stageHere k q then .cancel (s.want (poolKey q.home q.ring) (64 * q.qcap))
    else if s.spillHeld k then if q.count < q.qcap then toRam else code s c i f 3
    else if q.count < q.qcap && q.spCount = 0 then toRam
    else if q.scap ≤ q.spCount then code s c i f 3
    else
      let user : Bool := (s.th c i).mode = .user
      match s.spillWrite k v false user with
      | (s, .ok ()) => code (s.pushed k q.heavy) c i f 0
      | (s, .held _) => .cancel s
      | (s, .fault) =>
        let id := s.nextId
        let b := (s.slot c i).bind
        let x : Spill := { stage := k, cell := c, slot := i, fn := s.fnOf c i, part := s.partOf c i, group := b.map Bind.group, asid := q.asid,
                           user := user, refill := false, d := f.d, item := BitVec.ofNat 512 v, poison := false, saved := [],
                           toSave := s.groupOf c i, stop := some (1, q.spillVa q.spCount), fault := none }
        .park (({ s with nextId := id + 1, spills := s.spills.put id x } : State).dueNow (.faultRecord id)) (.spill id)
/-- Append a packet to a hardware work queue (18 R366). -/
def State.appendHw (s : State) (q v : Nat) : State × Walked Unit :=
  let x := s.queue q
  match s.devWrite (qVf x.ctx) (qAsid x.ctx) (entryVa x.ctx (qTail x.ctx)) 64 v with
  | (s, .ok ()) => (s.setTail q ((qTail x.ctx + 1) % 2 ^ 32), .ok ())
  | x => x
def pushHw (f : Fields) (c i q v : Nat) (s : State) : Res :=
  let x := s.queue q
  if x.killed then code s c i f 6
  else if x.closed then code s c i f 4
  else if 2 ^ qLogsize x.ctx ≤ x.depth then code s c i f 3
  else match s.appendHw q v with
    | (s, .ok ()) => code s c i f 0
    | (s, .held _) => .cancel s
    | (s, .fault) => .fault s ⟨0x0B, 1, BitVec.ofNat 96 (entryVa x.ctx (qTail x.ctx)), false⟩
def pushBody (f : Fields) : Body := fun s0 c i e =>
  withQueue s0 c i e permRd .load fun s r k =>
    if s.relWait c i 1 then .cancel s0
    else match s.poisonAt k 64 with
      | some j => .poison (e.b.addr + j)
      | none =>
        let v := readNat s.mem k 64
        let s := s.access (s.payer c i) k 64 false
        match r with
        | .stage n => pushStage f c i n v s
        | .hw q => pushHw f c i q v s

/-! ### Pop (07 R209, 10 R293, R297) -/

def State.putBuffer (s : State) (c i key v : Nat) : State := (s.access (s.payer c i) key 64 true).write (some (c, i)) key 64 v
def popStage (f : Fields) (c i k key : Nat) (s : State) : Res :=
  match s.stage k with
  | none => .trap ⟨0x09, 0x50, s.openTval, false⟩
  | some q =>
    if q.killed then code s c i f 6
    else if q.closed && q.occ = 0 then code s c i f 2
    else if !s.stageHere k q then .cancel (s.want (poolKey q.home q.ring) (64 * q.qcap))
    else
      let mine := ((s.slot c i).bind.bind Bind.stage).bind s.reassign
      match mine with
      | some b => code (s.moveTo c i b) c i f (reassignCode b)
      | none =>
        match s.takeItem k q.count with
        | (s, some v) => code ((s.putBuffer c i key v).refillDue k) c i f 0
        | (s, none) =>
          let s := s.refillDue k
          let occ := ((s.stage k).map Stage.occ).getD 0
          if occ ≠ 0 then .cancel s
          else if q.closed then code s c i f 2
          else if f.m.getLsbD 0 then code s c i f 1
          else
            let q := (s.stage k).getD q
            .park (s.setStage k { q with parked := q.parked ++ [(c, i, s.cycle)] }) (.pop k f.d key)
def popHw (f : Fields) (c i q key : Nat) (s : State) : Res :=
  let x := s.queue q
  if x.killed then code s c i f 6
  else match x.head with
    | some v => code ((s.putBuffer c i key v.toNat).headTaken q) c i f 0
    | none =>
      if x.depth ≠ 0 then .cancel s
      else if x.closed then code s c i f 2
      else if f.m.getLsbD 0 then code s c i f 1
      else .park (s.setQueue q { x with parked := x.parked ++ [(c, i, s.cycle)] }) (.pop (2 ^ 31 + q) f.d key)
def popBody (f : Fields) : Body := fun s c i e =>
  withQueue s c i e permWr .store fun s r k =>
    match r with
    | .stage n => popStage f c i n k s
    | .hw q => popHw f c i q k s

def execQPush (f : Fields) (s : State) : Host.Outcome State Fault Refusal := .next (runThread (.qPush f) pushBody s)
def execQPop (f : Fields) (s : State) : Host.Outcome State Fault Refusal := .next (runThread (.qPop f) popBody s)

/-! ### Close and kill (07 R210, 10 R295, 20 R419) -/

def closeBody (f : Fields) : Body := fun s c i e =>
  match s.queueRef c i e.a.data with
  | .error x => .trap x
  | .ok (.stage k) =>
    match s.stage k with
    | none => .trap ⟨0x09, 0x50, s.openTval, false⟩
    | some q =>
      if q.killed then code s c i f 6
      else if q.closed then code s c i f 4
      else code ((s.setStage k { q with closed := true }).serveStage k) c i f 0
  | .ok (.hw n) =>
    let q := s.queue n
    if q.killed then code s c i f 6
    else if q.closed then code s c i f 4
    else
      let s := s.setQueue n { q with closed := true }
      code (if q.depth = 0 then s.wakeAll q.parked 2 else s) c i f 0
/-- Kill the threads that a switch has taken out and whose bind record satisfies a condition. -/
def State.killOut (s : State) (g : Bind → Bool) : State :=
  s.blocks.foldl (fun s (k, x) => x.slots.foldl (fun s (i, y) =>
    if y.state = .saved && (y.bind.map g).getD false then s.killAway (k / 2) i ((s.slotFn y).getD 0) none else s) s) s
/-- Kill the threads of a list. -/
def State.killAll (s : State) (l : List (Nat × Nat)) : State := l.foldl (fun s (c, i) => s.kill c i) s
def State.killStage (s : State) (k : Nat) (q : Stage) : State :=
  let s := s.setStage k { q with killed := true, closed := true, count := 0, spCount := 0 }
  let s := s.wakeAll q.parked 6
  let s := (s.spills.filter fun (_, x) => x.stage = k).foldl (fun s (id, x) =>
    if x.refill then { s with spills := s.spills.del id } else s.spillEnd id x 6) s
  (s.killAll (s.members k)).killOut fun b => b.stage = some k
def State.killHw (s : State) (n : Nat) : State :=
  let s := s.disableQueue n
  let q := s.queue n
  let s := (s.setQueue n { q with killed := true }).wakeAll q.parked 6
  (s.killAll ((s.allSlots.filter fun (_, _, y) => y.bind.bind Bind.queue = some n && y.state != .empty && y.state != .dead).map fun (c, i, _) => (c, i))).killOut fun b => b.queue = some n
def closeKillBody (f : Fields) : Body := fun s c i e =>
  match s.queueRef c i e.a.data with
  | .error x => .trap x
  | .ok r =>
    let was := match r with
      | .stage k => ((s.stage k).map Stage.killed).getD false
      | .hw n => (s.queue n).killed
    if was then code s c i f 6
    else
      let s := match r with
        | .stage k =>
          match s.stage k with
          | some q => s.killStage k q
          | none => s
        | .hw n => s.killHw n
      if (s.slot c i).state = .ready then code s c i f 0 else .set s
def execQClose (f : Fields) (s : State) : Host.Outcome State Fault Refusal := .next (runThread (.qClose f) closeBody s)
def execQCloseKill (f : Fields) (s : State) : Host.Outcome State Fault Refusal := .next (runThread (.qCloseKill f) closeKillBody s)

/-! ### Gangs (07 R211, 10 R289-R291, 18 R368) -/

/-- Places of a prompter's intakes for each die (19 R385). -/
def gangIntake : Nat := 16
def yieldIntake : Nat := 64
/-- The partition that a member names. -/
def memberPart (own : Nat) (p : W512) : Nat := if bits p 288 8 = 0 then own else bits p 288 8
/-- Whether a list of members is malformed (10 R291, 18 R368). -/
def gangBad (own : Nat) (l : List W512) : Bool :=
  l.length < 2 || 16 < l.length || (l.any fun p => bits p 384 48 ≠ 0) || (l.any fun p => memberPart own p ≠ memberPart own (l.headD 0))
/-- Take one part of a `q.gang` record: it is read, or asked of a peer (18 R380). -/
def State.gangPiece (s : State) (g : Gang) (off n va key : Nat) : State × Gang :=
  match kindOf key with
  | .peer _ => ((s.requestFn (some g.id) g.fn g.cell g.slot va key (.load n false false (.s 0)) false).1, { g with need := g.need ++ [(off, n, key)] })
  | _ =>
    let (s, v, b) := (s.access (some g.fn) key n false).readHome key n
    (s, { g with raw := g.raw + v * 2 ^ (8 * off), bad := g.bad || b.isSome })
/-- The parts of the record from `off` on, `n` bytes in aligned segments, through a translation: offset, length, address and key of each. -/
def State.gangParts (s : State) (g : Gang) (look : State → Nat → Nat → State × Except Stop Nat) (off : Nat) :
    Nat → Nat → State × Except Stop (List (Nat × Nat × Nat × Nat))
  | 0, _ => (s, .ok [])
  | fuel + 1, n =>
    let va := g.rec_.addr + off
    if n = 0 then (s, .ok [])
    else
      let k := min n (64 - va % 64)
      match look s va k with
      | (s, .error x) => (s, .error x)
      | (s, .ok key) =>
        match s.gangParts g look (off + k) fuel (n - k) with
        | (s, .error x) => (s, .error x)
        | (s, .ok l) => (s, .ok ((off, k, va, key) :: l))
/-- Read them, unless a controller holds one (21 R436). -/
def State.gangRead (s : State) (g : Gang) (look : State → Nat → Nat → State × Except Stop Nat) (off fuel n : Nat) : State × Except Stop Gang :=
  match s.gangParts g look off fuel n with
  | (s, .error x) => (s, .error x)
  | (s, .ok l) =>
    match s.holdAct g.fn (16 * g.cell + g.slot + 1) (l.map fun (_, k, _, key) => (key, k)) with
    | (s, some _) => (s, .error .later)
    | (s, none) =>
      let (s, g) := l.foldl (fun (s, g) (off, k, va, key) => s.gangPiece g off k va key) (s, g)
      (s, .ok g)
/-- The members that its header counts. -/
def Gang.listed (g : Gang) : List W512 :=
  let n := g.raw % 256
  if n < 2 || 16 < n then [] else (List.range n).map fun m => BitVec.ofNat 512 (g.raw / 2 ^ (512 * (m + 1)))
/-- Whether the record of a `q.gang` is malformed, or a part of it could not be read (10 R291, log entry 30). -/
def Gang.malformed (g : Gang) : Bool := g.bad || gangBad g.part g.listed
/-- The record after its header: the members, when the header has been read and counts 2 to 16. -/
def State.gangMore (s : State) (g : Gang) (look : State → Nat → Nat → State × Except Stop Nat) : State × Except Stop Gang :=
  let n := g.raw % 256
  if !g.need.isEmpty || g.size ≠ 64 || g.bad || n < 2 || 16 < n then (s, .ok g)
  else s.gangRead { g with size := 64 + 64 * n } look 64 32 (64 * n)
/-- Translate for the prompter as the issuing thread would. -/
def Gang.look (g : Gang) (s : State) (va n : Nat) : State × Except Stop Nat :=
  let user : Bool := g.mode = .user
  match capCheck g.rec_ [permRd] va n, s.spaceOf g.part g.cell user va n with
  | some x, _ => (s, .error (.trap x))
  | none, .error x => (s, .error (.trap x))
  | none, .ok (some k) => (s, .ok k)
  | none, .ok none =>
    match s.translate (some g.fn) g.cell g.asid.toNat va .load user with
    | (s, .ok k) => (s, .ok k)
    | (s, .fault) => (s, .error (.trap ⟨0x0B, 0, BitVec.ofNat 96 va, false⟩))
    | (s, .held _) => (s, .error .later)
/-- A peer has answered for a part of a gang record, or has not: when the header is there the members are read. -/
def State.gangGot (s : State) (id key : Nat) (v : Option W512) : State :=
  match s.dies.findSome? fun (d, x) => (x.gangs.find? fun g => g.id = id).map fun g => (d, g) with
  | none => s
  | some (d, g) =>
    let g := match g.need.find? fun (_, _, k) => k = key, v with
      | some (off, n, _), some v => { g with raw := g.raw + v.toNat % 2 ^ (8 * n) * 2 ^ (8 * off), need := g.need.filter fun x => x.1 != off }
      | some (off, _, _), none => { g with bad := true, need := g.need.filter fun x => x.1 != off }
      | none, _ => g
    let (s, g) := match s.gangMore g g.look with
      | (s, .ok g) => (s, g)
      | (s, .error .later) => (s, g)
      | (s, .error (.trap _)) => (s, { g with bad := true })
    let put (x : Die) : Die := { x with gangs := x.gangs.map fun h => if h.id = id then g else h }
    (s.setDie d (put (s.die d))).dueLater (.gang d)
/-- Only the header of a record has been read, and it counts 2 to 16 members. -/
def Gang.half (g : Gang) : Bool := g.queue.isNone && g.size = 64 && g.need.isEmpty && !g.bad && 2 ≤ g.raw % 256 && g.raw % 256 ≤ 16
/-- Go on with a record whose translation waited. -/
def State.gangAgain (s : State) (d : Nat) (g : Gang) : State :=
  let (s, g) := match s.gangMore g g.look with
    | (s, .ok g) => (s, g)
    | (s, .error .later) => (s, g)
    | (s, .error (.trap _)) => (s, { g with bad := true })
  let put (x : Die) : Die := { x with gangs := x.gangs.map fun h => if h.id = g.id then g else h }
  s.setDie d (put (s.die d))
/-- The record is read as the thread reads it, parts in peer memory when their answers come; the prompter takes it if its intake has room. -/
def gangBody (f : Fields) : Body := fun s0 c i e =>
  match s0.target c i false e.b.data.toNat with
  | none => .trap ⟨0x0A, 0, e.b.data.setWidth 96, false⟩
  | some (tc, ts, tr) =>
    let d := dieOf c
    let full : Bool := gangIntake ≤ ((s0.die d).gangs.filter (·.queue.isNone)).length
    let g : Gang := { id := s0.nextId, cell := c, slot := i, reg := tr, tcell := tc, tslot := ts, fn := s0.fnOf c i, asid := (s0.th c i).asid,
                      part := s0.partOf c i, mode := (s0.th c i).mode, rec_ := e.a, size := 64 }
    let look (s : State) (va n : Nat) : State × Except Stop Nat := s.resolve c i e.a [permRd] va n 1 .load
    match ({ s0 with nextId := s0.nextId + 1 } : State).gangRead g look 0 2 64 with
    | (s, .error x) => x.res s
    | (s, .ok g) =>
      match s.gangMore g look with
      | (s, .error x) => x.res s
      | (s, .ok g) => if full then code s c i f 3 else code ((s.setDie d { s.die d with gangs := (s.die d).gangs ++ [g] }).dueLater (.gang d)) c i f 0
def execQGang (f : Fields) (s : State) : Host.Outcome State Fault Refusal := .next (runThread (.qGang f) gangBody s)

/-! ### Steps of queues (10 R293, R294; 18 R366) -/

/-- Move the oldest spilled item into the SRAM part. -/
def execStageRefill (part stage : Nat) (s : State) : Host.Outcome State Fault Refusal :=
  let k := stageKey part stage
  match s.stage k with
  | none => .next s
  | some q =>
    if q.spCount = 0 || q.qcap ≤ q.count || q.killed then .next (s.setStage k { q with refilling := false })
    else if s.spills.any fun (_, x) => x.stage = k && x.refill then .next s
    else if !s.stageHere k q then .next (s.dueLater (.refill part stage))
    else
      let va := q.spillVa 0
      match s.spillKey q va .load false with
      | (s, .held t) => .next (s.dueAt t (.refill part stage))
      | (s, .fault) =>
        let id := s.nextId
        let x : Spill := { stage := k, cell := q.home, slot := 0, fn := s.stageFn q, part := part, group := none, asid := q.asid, user := false,
                           refill := true, d := .s 0, item := 0, poison := false, saved := [], toSave := [], stop := some (0, va), fault := none }
        .next (({ s with nextId := id + 1, spills := s.spills.put id x } : State).dueNow (.faultRecord id))
      | (s, .ok key) =>
        let (s, v, bad) := (s.access (some (s.stageFn q)) key 64 false).readHome key 64
        let s := s.setStage k { q with spHead := (q.spHead + 1) % q.scap, spCount := q.spCount - 1, refilling := false }
        .next (((s.putItem k v bad.isSome).serveStage k).refillDue k)
/-- The prompter reads the entry that has become the head, and drops one that it cannot read; it goes on dropping the items of a disabled queue. -/
def execHeadPacketRead (q : Nat) (s : State) : Host.Outcome State Fault Refusal :=
  let x := s.queue q
  if x.dropping then .next ((s.setQueue q { x with dropping := false }).dropItems q x.depth)
  else if !qEn x.ctx || x.depth = 0 || x.head.isSome then .next s
  else
    let va := entryVa x.ctx (qHead x.ctx)
    match s.devRead (qVf x.ctx) (qAsid x.ctx) va 64 with
    | (s, .held t) => .next (s.dueAt t (.headRead q))
    | (s, .ok v) =>
      let s := s.setQueue q { s.queue q with head := some (BitVec.ofNat 512 v) }
      match x.parked with
      | (c, i, _) :: _ => .next ((s.wakeItem c i v).headTaken q)
      | [] => .next s
    | (s, .fault) =>
      let i := qHead x.ctx
      let s := if s.devPoison (qVf x.ctx) (qAsid x.ctx) va then s.count (qVf x.ctx) 6 else s
      let cookie := bits (Config.freeValue s.fresh) 0 64
      .next ((({ s with fresh := s.fresh + 1 } : State).headTaken q).completeItem q cookie i 8)

/-! ### The reply to an engine fault record (20 R426, 07 R183) -/

/-- The fault event that an unresolvable engine fault raises (19 R385). -/
def State.lostFault (s : State) (part c i : Nat) (group : Option Nat) (acc va : Nat) : State :=
  let e : CueEvent := .fault c i group (BitVec.ofNat 64 (0x0B + 256 * acc)) (BitVec.ofNat 96 va) ((Config.freeValue s.fresh).setWidth 48)
  ({ s with fresh := s.fresh + 1 } : State).faultEvent part e
/-- An operation goes on, or ends early. -/
def State.replyOp (s : State) (id : Nat) (o : Op) (resolved : Bool) : State :=
  let (acc, va) := o.stop.getD (0, 0)
  let o := { o with stop := none, fault := none }
  if resolved then (s.setOp id o).dueNow (o.work id)
  else (s.opEnd id o (some (0x0B, acc, va))).lostFault o.part o.cell o.slot o.group acc va
def State.replyCmd (s : State) (id : Nat) (r : RopeCmd) (resolved : Bool) : State :=
  let (acc, va) := r.stop.getD (0, 0)
  let r := { r with stop := none, fault := none }
  let s : State := { s with cmds := s.cmds.put id r }
  if resolved then s.dueNow (if r.walk.isSome then .walkEmit id else .ropeExec id)
  else
    let s := s.ropeGivenUp id r (11 + staleBits r r.stale + 0x0B * 2 ^ 16) va
    s.lostFault r.part r.cell r.slot r.group acc va
def State.replySpill (s : State) (id : Nat) (x : Spill) (resolved : Bool) : State :=
  let (acc, va) := x.stop.getD (0, 0)
  match s.stage x.stage with
  | none => { s with spills := s.spills.del id }
  | some q =>
    if resolved then
      if x.refill then ({ s with spills := s.spills.del id } : State).dueNow (.refill (x.stage / 8192) (x.stage % 8192))
      else match s.spillWrite x.stage x.item.toNat x.poison x.user with
        | (s, .ok ()) => (s.spillEnd id x 0).pushed x.stage q.heavy
        | (s, .held _) => { s with spills := s.spills.put id { x with fault := none, redo := true } }
        | (s, .fault) => ({ s with spills := s.spills.put id { x with fault := none, redo := false } } : State).dueNow (.faultRecord id)
    else
      -- a refill drops no item (10 R302): the item stays in the spill part, and its read is tried again
      let s := if x.refill then ({ s with spills := s.spills.del id } : State).dueLater (.refill (x.stage / 8192) (x.stage % 8192)) else s.spillEnd id x 3
      s.lostFault x.part x.cell x.slot x.group acc va
/-- Key of the reply word of record `n`. -/
def State.replyKey (s : State) (fn n : Nat) : Nat :=
  keyHbm + fnEfqbase s.layout.active fn + 32 * (n % 2 ^ fnEfqlog s.layout.active fn) + 24
/-- System software has filled word 3 of record `n` of a function. -/
def execEngineFaultReply (fn n : Nat) (s : State) : Host.Outcome State Fault Refusal :=
  let k := s.replyKey fn n
  if !((s.fnSt fn).faultOpen.contains n) || !s.isFull k then .next s
  else
    let resolved : Bool := readNat s.mem k 8 = 0
    let s := s.setFn fn { s.fnSt fn with faultOpen := (s.fnSt fn).faultOpen.filter (· != n) }
    let s := s.flushKills fn
    match s.ops.find? (fun x => x.2.fault = some (fn, n)), s.cmds.find? (fun x => x.2.fault = some (fn, n)) with
    | some (id, o), _ => .next (s.replyOp id o resolved)
    | none, some (id, r) => .next (s.replyCmd id r resolved)
    | none, none =>
      match s.spills.find? fun x => x.2.fault = some (fn, n) with
      | some (id, x) => .next (s.replySpill id x resolved)
      | none => .next s
/-- The replies that have come, and the held pushes whose threads are still to be saved. -/
def State.engineDue (s : State) : State :=
  let s := s.fns.foldl (fun s (f, x) =>
    x.faultOpen.foldl (fun s n => if s.isFull (s.replyKey f n) then s.dueNow (.faultReply f n) else s) s) s
  let s := s.spills.foldl (fun s (id, x) => if x.redo then s.replySpill id x true else s) s
  s.spills.foldl (fun s (id, x) => if x.toSave.isEmpty then s else s.saveGroup id x) s

end Sys2Proof.Machine
end

