-- ==== Sys2Proof/Machine/Launch.lean ====
section
/-!
DEFINITION. Launches (10 R280-R291; 18 R367, R368): the checks of a packet, where its threads may be placed, what they hold at their first
issue, and the bind records of the prompter (19 R389).
-/
namespace Sys2Proof.Machine

/-! ### Packets (18 R367) -/

def pkEntry (p : W512) : Nat := bits p 0 64
def pkCodebase (p : W512) : Nat := bits p 64 48
def pkCodelen (p : W512) : Nat := bits p 128 32
def pkPart (p : W512) : W32 := BitVec.ofNat 32 (bits p 160 32)
def pkLevel (p : W512) : Nat := bits p 192 8
def pkSlots (p : W512) : Nat := bits p 200 5
def pkCells (p : W512) : Nat := bits p 208 16
def pkHint (p : W512) : Nat × Nat := (bits p 224 5, bits p 232 5)
def pkRadius (p : W512) : Nat := bits p 240 8
def pkPrio (p : W512) : Nat := bits p 248 8
def pkStack (p : W512) : Nat := bits p 256 32
def pkPid (p : W512) : Nat := bits p 288 8
def pkArgs (p : W512) : Nat := bits p 320 48
def pkGang (p : W512) : Nat := bits p 384 48
/-- A reserved field is not zero. -/
def pkReserved (p : W512) : Bool :=
  [(112, 16), (205, 3), (229, 3), (237, 3), (296, 24), (368, 16), (432, 16)].any fun (lo, n) => bits p lo n ≠ 0
def pkCode (p : W512) : Reg := mkCap 5 (pkCodebase p) (pkCodelen p) (pkCodebase p)

/-- Width and height of a level's instance, and the most cells of a group (10 R280). -/
def levelSize (level : Nat) : Nat × Nat × Nat :=
  match level with
  | 0 => (1, 1, 1)
  | 1 => (4, 2, 8)
  | 2 => (8, 8, 64)
  | 3 => (16, 16, 256)
  | _ => (32, 32, 1024)
def partCells (n : Nat) : Nat := 1024 / 2 ^ Nat.log2 n
def wordReg (w : W32) : Nat := bits w 0 8
def wordAcc (w : W32) : Nat := bits w 8 8
/-- Bytes of the sections below the scratchpad. -/
def wordBase (w : W32) : Nat := 4096 * (wordReg w + wordAcc w)

/-! ### Checks (10 R284) -/

/-- What a launch has beside its packet: its partition, its function, the address space and the mode of its threads, and the code window of
its queue. -/
structure Origin where
  part : Nat
  fn : Nat
  asid : BitVec 13
  mode : Mode
  window : Option (Nat × Nat)
  deriving DecidableEq, Repr
def originOf (x : W512) : Origin :=
  ⟨qPart x, qVf x, BitVec.ofNat 13 (qAsid x), if qMode x = 0 then .user else .supervisor, some (qCodebase x, qCodelen x)⟩
/-- Whether one of some places that a launch names is poisoned; 0 is no place. -/
def State.poisonAny (s : State) (o : Origin) (l : List Nat) : Bool := l.any fun va => va ≠ 0 && s.devPoison o.fn o.asid.toNat va
def Origin.partition (o : Origin) (p : W512) : Nat := if pkPid p = 0 then o.part else pkPid p
/-- The partition word for a slot count (01 R43); that of a time-sliced partition stays within the reach of the wings. -/
def wordBad (w : W32) (slots : Nat) (sliced : Bool) : Bool :=
  bits w 16 16 ≠ 0 || 64 < wordAcc w || 256 < wordReg w + wordAcc w || wordReg w < slots || (sliced && 64 < wordReg w + wordAcc w)
def levelBad (s : State) (o : Origin) (p : W512) : Bool :=
  let (w, h, n) := levelSize (pkLevel p)
  4 < pkLevel p || pkCells p = 0 || n < pkCells p || partCells (o.partition p) < w * h ||
  (pkPid p ≠ 0 && fnPart s.layout.active o.fn ≠ pkPid p)
def codeBad (o : Origin) (p : W512) : Bool :=
  let c := pkCode p
  !(c.base ≤ pkEntry p && pkEntry p < c.top) ||
  match o.window with
  | some (b, n) => !(b ≤ c.base && c.base + c.len ≤ b + n)
  | none => false
def stackBad (p : W512) : Bool :=
  pkStack p % 16 ≠ 0 || capMan (pkStack p) * 2 ^ capExp (pkStack p) ≠ pkStack p || 2 ^ 20 - wordBase (pkPart p) < pkSlots p * pkStack p
/-- The argument words of a packet; they may be unreadable, or their read may wait. -/
def State.argBlock (s : State) (o : Origin) (p : W512) : State × Walked (List W64) :=
  if pkArgs p = 0 then (s, .ok [])
  else match s.devRead o.fn o.asid.toNat (pkArgs p) 64 with
    | (s, .ok v) => (s, .ok ((List.range 8).map fun k => BitVec.ofNat 64 (v / 2 ^ (64 * k))))
    | (s, .fault) => (s, .fault)
    | (s, .held t) => (s, .held t)
/-- The code of the first check that a single launch fails, or its arguments; 256, which is no code, while their read waits at a controller. -/
def State.checkLaunch (s : State) (o : Origin) (p : W512) : State × Except Nat (List W64) :=
  if wordBad (pkPart p) (pkSlots p) (partSlice s.layout.active (o.partition p)) then (s, .error 1)
  else if levelBad s o p then (s, .error 2)
  else if pkSlots p = 0 || 16 < pkSlots p then (s, .error 3)
  else if codeBad o p then (s, .error 4)
  else if stackBad p then (s, .error 5)
  else if pkReserved p || pkArgs p % 64 ≠ 0 || pkGang p % 64 ≠ 0 then (s, .error 7)
  else match s.argBlock o p with
    | (s, .ok l) => (s, .ok l)
    | (s, .fault) => (s, .error 8)
    | (s, .held _) => (s, .error 256)

/-! ### Placement (10 R281, R285-R287) -/

def clamp (x lo n : Nat) : Nat := max lo (min x (lo + n - 1))
def dist (a b : Nat) : Nat := (max a b) - (min a b)
/-- The candidates in their order. -/
def nearCells (part : Nat) (hint : Nat × Nat) (radius : Nat) : List Nat :=
  let (x0, y0, w, h) := nodeRect part
  let hx := clamp (x0 + hint.1) x0 w
  let hy := clamp (y0 + hint.2) y0 h
  let all := (List.range h).flatMap fun j => (List.range w).map fun i => cellAt (x0 + i) (y0 + j)
  (List.range (radius + 1)).flatMap fun d => all.filter fun c => dist (cellX c) hx + dist (cellY c) hy = d
/-- The first `n` cells of the instance of a level that holds a cell. -/
def groupCells (level n c : Nat) : List Nat :=
  let (w, h, _) := levelSize level
  let x0 := cellX c / w * w
  let y0 := cellY c / h * h
  (List.range n).map fun r => cellAt (x0 + r % w) (y0 + r / w)
/-- The slots that a launch would bind in a cell (10 R282, R286); `mine` are the slots that earlier members of its own gang have reserved,
with their partition words. -/
def State.qualifies (s : State) (part c : Nat) (p : W512) (mine : List (Nat × Nat × W32)) : Option (List Nat) :=
  let x := s.cell c
  let own := mine.filter fun y => y.1 = c
  let free := (List.range 16).filter fun i => (x.slot i).state = .empty && !(own.any fun y => y.2.1 = i)
  let use := free.take (pkSlots p)
  let m := use.foldl max 0
  let word := match own with
    | y :: _ => some y.2.2
    | [] => if x.slots.all fun y => y.2.state = .empty then none else some x.pword
  if use.length = pkSlots p && !(s.reserved.any fun y => y.1 = c) &&
      (x.slots.all fun y => match y.2.bind with
        | some b => b.part = part
        | none => true) &&
      (match word with
        | none => true
        | some w => w = pkPart p) &&
      m < wordReg (pkPart p) && (pkStack p = 0 || wordBase (pkPart p) + (m + 1) * pkStack p ≤ 2 ^ 20)
  then some use else none
def qualifyAll (f : Nat → Option (List Nat)) : List Nat → Option (List (Nat × List Nat))
  | [] => some []
  | c :: cs =>
    match f c, qualifyAll f cs with
    | some l, some r => some ((c, l) :: r)
    | _, _ => none
/-- The first candidate instance whose cells all qualify: its cells in rank order with their slots. -/
def State.findPlace (s : State) (part : Nat) (p : W512) (mine : List (Nat × Nat × W32)) : Option (List (Nat × List Nat)) :=
  (nearCells part (pkHint p) (pkRadius p)).findSome? fun c =>
    qualifyAll (fun c => s.qualifies part c p mine) (groupCells (pkLevel p) (pkCells p) c)

/-! ### Binding (10 R282, R283) -/

/-- The launch word. -/
def launchWord (part n rank base lidx : Nat) : W64 :=
  let (_, _, pw, _) := nodeRect part
  BitVec.ofNat 64 (vcellOf part base + rank * 2 ^ 10 + n * 2 ^ 20 + lidx * 2 ^ 31 + pw * 2 ^ 35)
/-- The capability of a slot's stack (09 R279). -/
def stackCap (slot size : Nat) : Reg :=
  let base := 0xE00000100000 - (slot + 1) * size
  mkCap 59 base size (base + size)
/-- A thread as its launch leaves it; the packets of the slot's buffers stay. -/
def launchThread (old : Thread) (o : Origin) (p : W512) (args : List W64) (slot : Nat) (word : W64) : Thread :=
  let t : Thread := { old.ended with pc := BitVec.ofNat 48 (pkEntry p), mode := o.mode, asid := o.asid }
  let t := if o.mode = .user then { t with ucap := pkCode p } else { t with scap := pkCode p }
  let t := if pkStack p = 0 then t else t.ws 2 (stackCap slot (pkStack p))
  let t := (List.range 8).foldl (fun t k => t.ws (3 + k) (dataReg (args.getD k 0))) t
  t.ws 11 (dataReg word)
/-- Whether a packet is one that the loader builds from a stage's record (09 R274, R275): the record's bits [287:0], but for the cells and the
hint, which names one of the stage's cells (10 R296, log entry 31). -/
def Stage.launches (q : Stage) (part : Nat) (p : W512) : Bool :=
  let (_, _, pw, _) := nodeRect part
  let v := (pkHint p).2 * pw + (pkHint p).1
  q.first ≤ v && v < q.first + q.cells && bits p 0 208 = bits q.record 0 208 && bits p 240 48 = bits q.record 240 48
/-- Bind a launch to its cells and slots, in one update of the slot table. -/
def State.bindGroup (s : State) (o : Origin) (p : W512) (args : List W64) (queue : Option Nat) (entry : Nat)
    (place : List (Nat × List Nat)) : State :=
  let g := s.nextId
  let part := o.partition p
  let base := (place.headD (0, [])).1
  let stage := (s.stages.find? fun (k, q) => k / 4096 * 4096 = stageKey part (s.tenantBit part o.fn) && q.launches part p).map (·.1)
  let s : State := { s with nextId := g + 1 }
  (place.foldl (fun (s, rank) (c, slots) =>
    let x := s.cell c
    let s := if x.slots.all fun y => y.2.state = .empty then s.setCell c { x with pword := pkPart p } else s
    ((slots.foldl (fun (s, k) i =>
      let y := s.slot c i
      let w := launchWord part (pkCells p) rank base k
      (s.setSlot c i { y with state := .ready, th := launchThread y.th o p args i w, bind := some ⟨part, queue, entry, g, stage, some o.fn⟩,
                              turns := 0, woke := some s.cycle, savedAt := none }, k + 1)) (s, 0)).1, rank + 1)) (s, 0)).1

/-! ### Bind records (19 R389) -/

/-- A bind record: kind, base, level, cells, slots, partition; queue and entry. -/
def bindWord (kind base level cells smask part queue entry : Nat) : W128 :=
  BitVec.ofNat 128 (entry % 2 ^ 32 + queue % 2 ^ 15 * 2 ^ 32 + kind * 2 ^ 64 + base * 2 ^ 72 + level % 8 * 2 ^ 82 + cells % 2 ^ 11 * 2 ^ 85 +
    smask % 2 ^ 16 * 2 ^ 96 + part * 2 ^ 112)
def slotMask (l : List Nat) : Nat := l.foldl (fun m i => m + 2 ^ i) 0
/-- The record of a launch or gang member; the slots are those of its first cell. -/
def launchRecord (kind : Nat) (part : Nat) (p : W512) (queue : Option Nat) (entry : Nat) (place : List (Nat × List Nat)) : W128 :=
  let (c, l) := place.headD (0, [])
  bindWord kind c (pkLevel p) (pkCells p) (slotMask l) part (queue.getD 0) entry
/-- The record of a pre-empt, resume or kill. -/
def slotRecord (kind part c i : Nat) : W128 := bindWord kind c 0 1 (2 ^ i) part 0 0

end Sys2Proof.Machine
end

