-- ==== Sys2Proof/Machine/Security.lean ====
section
/-!
DEFINITION. Signatures, digests and what the security controller does with the images and blocks in flash (22 R450-R452). SHA-512 and the
encoding of RSASSA-PKCS1-v1_5, which the manual names and does not write out, are those of FIPS 180-4 and RFC 8017 (PRESUMED, log entry 8).
-/
namespace Sys2Proof.Machine

/-! ### SHA-512 -/

/-- The integer part of the `e`-th root of a number below 2^(67 e), bit by bit from the top. -/
def iroot (e x : Nat) : Nat := ((List.range 67).reverse).foldl (fun r k => if (r + 2 ^ k) ^ e ≤ x then r + 2 ^ k else r) 0
/-- The first 80 prime numbers. -/
def primes80 : List Nat := (List.range 410).filter fun p => 2 ≤ p && (List.range p).all fun d => d < 2 || p % d ≠ 0
/-- The first 64 fractional bits of the cube roots of the first 80 primes, and of the square roots of the first 8. -/
def shaKeys : List W64 := primes80.map fun p => BitVec.ofNat 64 (iroot 3 (p * 2 ^ 192))
def shaInit : List W64 := (primes80.take 8).map fun p => BitVec.ofNat 64 (iroot 2 (p * 2 ^ 128))
def shaMix (x : W64) (a b c : Nat) (rot : Bool) : W64 := x.rotateRight a ^^^ x.rotateRight b ^^^ (if rot then x.rotateRight c else x >>> c)
/-- The 80 words of a block's schedule, the newest first, from its 16 words in that order. -/
def shaSchedule (w : List W64) : Nat → List W64
  | 0 => w
  | n + 1 => shaSchedule ((shaMix (w.getD 1 0) 19 61 6 false + w.getD 6 0 + shaMix (w.getD 14 0) 1 8 7 false + w.getD 15 0) :: w) n
/-- One round over the eight working words. -/
def shaRound (l : List W64) (k w : W64) : List W64 :=
  let a := l.getD 0 0
  let b := l.getD 1 0
  let c := l.getD 2 0
  let e := l.getD 4 0
  let t1 := l.getD 7 0 + shaMix e 14 18 41 true + ((e &&& l.getD 5 0) ^^^ (~~~e &&& l.getD 6 0)) + k + w
  let t2 := shaMix a 28 34 39 true + ((a &&& b) ^^^ (a &&& c) ^^^ (b &&& c))
  [t1 + t2, a, b, c, l.getD 3 0 + t1, e, l.getD 5 0, l.getD 6 0]
/-- Big-endian numbers. -/
def bytesBE (l : List Byte) : Nat := l.foldl (fun n b => 256 * n + b.toNat) 0
def natBE (n v : Nat) : List Byte := (natToBytes n v).reverse
def shaBlock (h : List W64) (block : List Byte) : List W64 :=
  let w := (List.range 16).reverse.map fun k => (BitVec.ofNat 64 (bytesBE ((block.drop (8 * k)).take 8)) : W64)
  let l := (shaKeys.zip (shaSchedule w 64).reverse).foldl (fun l (k, w) => shaRound l k w) h
  (h.zip l).map fun (x, y) => x + y
/-- A message with its padding: a one bit, zeros, and the length in bits, to whole blocks of 128 bytes. -/
def shaPad (m : List Byte) : List Byte :=
  m ++ [0x80] ++ List.replicate ((240 - (m.length + 1) % 128) % 128) 0 ++ natBE 16 (8 * m.length)
def sha512 (m : List Byte) : W512 :=
  let x := shaPad m
  let h := (List.range (x.length / 128)).foldl (fun h k => shaBlock h ((x.drop (128 * k)).take 128)) shaInit
  BitVec.ofNat 512 (h.foldl (fun n w => n * 2 ^ 64 + w.toNat) 0)

/-! ### Signatures (22 R450) -/

/-- `b` to the power 65,537 modulo `n`. -/
def powKey (b n : Nat) : Nat := (List.range 16).foldl (fun x _ => x * x % n) b * b % n
/-- The encoded message of 512 bytes: 00 01, padding, 00, the name of SHA-512, and the digest. -/
def encoded (m : List Byte) : Nat :=
  bytesBE ([0x00, 0x01] ++ List.replicate 426 0xFF ++ [0x00, 0x30, 0x51, 0x30, 0x0D, 0x06, 0x09, 0x60, 0x86, 0x48, 0x01, 0x65, 0x03, 0x04, 0x02, 0x03, 0x05, 0x00, 0x04, 0x40] ++ natBE 64 (sha512 m).toNat)
/-- Whether bytes that end in a signature of 512 bytes verify under a key, given by its modulus of 4,096 bits. -/
def signedBy (key : Nat) (l : List Byte) : Bool :=
  let m := l.take (l.length - 512)
  let s := bytesBE (l.drop (l.length - 512))
  512 ≤ l.length && Nat.log2 key = 4095 && s < key && powKey s key = encoded m
/-- The digest of a key: of its modulus, most significant byte first. -/
def keyDigest (key : Nat) : W512 := sha512 (natBE 512 key)

/-! ### Images and owner configuration (22 R451) -/

/-- The images that flash holds of firmware `f` (1 security controller, 2 management core, 3 stack controllers): as an update wrote them, or as
the module was made. -/
def State.flashImage (s : State) (f k : Nat) : List Byte := (s.module.images.look (2 * f + k)).getD (Config.factoryImage f k)
/-- The two images, the newer first. -/
def State.bootOrder (s : State) (f : Nat) : List Nat :=
  if Config.secVersion (s.flashImage f 0) < Config.secVersion (s.flashImage f 1) then [1, 0] else [0, 1]
/-- A verification has failed: a sign record. -/
def State.signFails (s : State) : State := s.errOpen 1088 10 true none
/-- Firmware `f` uses the first of some images that verifies and is not too old; it is measured then. -/
def State.bootFirmware (s : State) (f : Nat) : List Nat → State × Bool
  | [] => (s, false)
  | k :: ks =>
    let x := s.flashImage f k
    if !signedBy Config.vendorKey x then s.signFails.bootFirmware f ks
    else if Config.secVersion x < s.module.minVersion.at f 0 then s.bootFirmware f ks
    else ({ s with module := { s.module with running := s.module.running.put f k, measured := s.module.measured.put f (sha512 x) } }, true)
/-- Boot: each firmware picks its image. When neither of one verifies, only the side-band port answers, and only to an update. -/
def State.boot (s : State) : State :=
  let (s, ok) := [1, 2, 3].foldl (fun (s, ok) f =>
    let (s, b) := s.bootFirmware f (s.bootOrder f)
    (s, ok && b)) (s, true)
  { s with module := { s.module with dead := !ok } }
/-- An update brings an image of a firmware: it takes the place of the one that is not running, and is used from the next boot on. -/
def State.updateImage (s : State) (f : Nat) (x : List Byte) : State :=
  if !signedBy Config.vendorKey x then s.signFails
  else
    let k := match s.module.running.look f with
      | some r => 1 - r
      | none => (s.bootOrder f).getD 1 0
    { s with module := { s.module with images := s.module.images.put (2 * f + k) x } }
/-- A configuration block: it enrols an owner key, signed by the vendor key the first time and by the current owner key later, or records minimum
versions, signed by the owner key. -/
def State.configBlock (s : State) (x : List Byte) : State :=
  let m := s.module
  match Config.blockKey x with
  | some key =>
    if signedBy (if m.ownerKey = 0 then Config.vendorKey else m.ownerKey) x then
      { s with module := { m with ownerKey := key, measured := m.measured.put 4 (keyDigest key) } }
    else s.signFails
  | none =>
    if signedBy m.ownerKey x then { s with module := { m with minVersion := (Config.blockMin x).foldl (fun l y => l.put y.1 y.2) m.minVersion } }
    else s.signFails

end Sys2Proof.Machine
end

