-- ==== Sys2Proof/Machine/Prompter.lean ====
section
/-!
DEFINITION. The prompters (19 R384-R400): decision engines and their events, the fixed policy, how bind records take effect, gang placement
(10 R289-R291), loading and swapping cue programs, and forwarded faults (20 R417).
-/
namespace Sys2Proof.Machine

/-! ### Queues of a partition (18 R364, 19 R385, R392) -/

/-- The queues whose context names a partition, ascending; a queue's place in the list is its local number. -/
def State.localQueues (s : State) (p : Nat) : List Nat := (s.queues.filter fun (_, x) => qPart x.ctx = p).map (·.1)
/-- Whether a partition runs the queue's owner: a time-sliced one runs one tenant, and none during a switch (20 R410). -/
def State.runsFn (s : State) (p f : Nat) : Bool :=
  let b := s.layout.active
  (s.part p).switching.isNone && (!partSlice b p || f = (if (s.part p).tenant then partVf1 b p else partVf0 b p))
/-- Whether a layout commit changes a partition (20 R407). -/
def Layout.changed (l : Layout) (p : Nat) : Bool :=
  let a := l.bank0
  let b := l.bank1
  let fns := (tenants a p ++ tenants b p).eraseDups
  (List.range 2).any (fun w => partWord a p w ≠ partWord b p w) || fns.any fun f => (List.range 8).any fun w => fnWord a f w ≠ fnWord b f w
/-- While a commit runs, the prompters bind nothing in a changed partition (20 R408). -/
def State.frozen (s : State) (p : Nat) : Bool := s.layout.phase != .idle && s.layout.changed p
/-- Whether every stack that a function's HBM quota touches is trained (21 R431). -/
def State.quotaReady (s : State) (f : Nat) : Bool := (List.range 16).all fun k => (s.stack k).train = 2 || !touches s.layout.active f (1024 + k)
def State.eligible (s : State) (p q : Nat) : Bool :=
  let x := s.queue q
  qEn x.ctx && !x.waiting && !x.cplFull && !qCplerr x.ctx && x.head.isSome && s.runsFn p (qVf x.ctx)
def headPrio (x : HwQueue) : Nat :=
  match x.head with
  | some p => pkPrio p
  | none => 0

/-! ### Decisions (19 R384-R386, R390) -/

def State.engine (s : State) (p : Nat) (ctl : Bool) : Engine := if ctl then (s.part p).ctl else (s.part p).disp
def State.setEngine (s : State) (p : Nat) (ctl : Bool) (e : Engine) : State :=
  s.setPart p (if ctl then { s.part p with ctl := e } else { s.part p with disp := e })
/-- Start a decision at word 0, with q0 to q7 zero; an empty program is the fixed policy, whose last step is 7 cycles on (19 R397). -/
def State.decide (s : State) (p : Nat) (ctl : Bool) (ev : CueEvent) : State :=
  let x := s.part p
  let e := s.engine p ctl
  let keep := if e.swapped then [] else e.q.filter fun (n, _) => 8 ≤ n
  let prog := x.swapFrom.getD x.active
  let fixed := prog.isEmpty
  let e' : Engine := { e with event := some ev, pc := 0, steps := 0, emits := [], prog := prog, fixed := fixed, q := keep, budget := x.budget,
                              writing := none, swapped := false }
  let s := s.setEngine p ctl e'
  if fixed then s.dueAt (s.cycle + 7) (.fixedPolicy p ctl) else s
/-- The dispatch engine starts a decision at a grid cycle when a queue is eligible. -/
def execDispatchEvent (part : Nat) (s : State) : Host.Outcome State Fault Refusal :=
  let e := s.engine part false
  if s.cycle % 24 ≠ 0 || e.event.isSome || (e.ended ≠ 0 && s.cycle ≤ e.ended) then .next s
  else
    let qs := s.localQueues part
    if qs.any (s.eligible part) && !s.frozen part then .next (s.decide part false .dispatch) else .next s
/-- A tick falls due; one that falls due before the decision of the last has ended is merged into it. -/
def execTickEvent (part : Nat) (s : State) : Host.Outcome State Fault Refusal :=
  let x := s.part part
  if x.tick = 0 || x.ctl.event = some .tick then .next s
  else .next ((s.setPart part { x with tickPend := true }).dueNow (.control part))
/-- Remove the first element that satisfies a condition. -/
def takeFirst {α : Type} (f : α → Bool) : List α → Option (α × List α)
  | [] => none
  | x :: l => if f x then some (x, l) else (takeFirst f l).map fun (y, r) => (y, x :: r)
/-- The control engine takes its next event: faults, then yields, then the tick. -/
def execControlEventTake (part : Nat) (s : State) : Host.Outcome State Fault Refusal :=
  if (s.engine part true).event.isSome then .next s
  else
    let d := leadDie part
    let x := s.die d
    match takeFirst (fun y => y.1 = part) x.faults with
    | some ((_, e), l) => .next ((s.setDie d { x with faults := l }).decide part true e)
    | none =>
      match takeFirst (fun y => y.1 = part) x.yields with
      | some ((_, c, i, g), l) => .next ((s.setDie d { x with yields := l }).decide part true (.yield c i g))
      | none =>
        if (s.part part).tickPend then .next ((s.setPart part { s.part part with tickPend := false }).decide part true .tick) else .next s

/-! ### Errors and the fixed policy (19 R395-R397) -/

/-- After an overrun or program error: staged emits are dropped, the counters and lasterr change, the management core is told, and the fixed
policy decides the event from the next cycle on. -/
def State.cueError (s : State) (p : Nat) (ctl : Bool) (code : Nat) : State :=
  let s := s.setEngine p ctl { s.engine p ctl with emits := [], fixed := true }
  let x := s.part p
  let sat (w : W32) : W32 := if w = BitVec.allOnes 32 then w else w + 1
  let x := { x with lasterr := BitVec.ofNat 8 code,
                    ovcnt := if code = 1 then sat x.ovcnt else x.ovcnt,
                    errcnt := if code = 1 then x.errcnt else sat x.errcnt }
  ((s.setPart p x).emitOut (.coreIrq p code)).dueAt (s.cycle + 8) (.fixedPolicy p ctl)
/-- Whether an engine is inside a decision of its program. -/
def Engine.live (e : Engine) : Bool := e.event.isSome && !e.fixed && e.writing.isNone
/-- A decision would take one step beyond its budget. -/
def execDecisionOverrun (part : Nat) (ctl : Bool) (s : State) : Host.Outcome State Fault Refusal :=
  let e := s.engine part ctl
  if e.live && e.budget ≤ e.steps then .next (s.cueError part ctl 1) else .next s
/-- The queue that the fixed policy takes: of those with the highest head prio, the first after the queue last bound at that prio. -/
def State.fixedQueue (s : State) (p : Nat) : Option Nat :=
  let qs := (s.localQueues p).filter (s.eligible p)
  let top := qs.foldl (fun m q => max m (headPrio (s.queue q))) 0
  let best := qs.filter fun q => headPrio (s.queue q) = top
  match (s.part p).lastPrio.look top with
  | none => best.head?
  | some l => (best.find? (l < ·)).orElse fun _ => best.head?
/-- The fixed policy's last step; its record is written 2 cycles later. -/
def execFixedPolicyDecision (part : Nat) (ctl : Bool) (s : State) : Host.Outcome State Fault Refusal :=
  let e := s.engine part ctl
  if e.event.isNone || !e.fixed || e.writing.isSome then .next s
  else
    let emits := match e.event with
      | some .dispatch => (match s.fixedQueue part with
        | some q => [.bind q]
        | none => [.defer])
      | some (.fault ..) => [.fwd]
      | _ => []
    .next (s.setEngine part ctl { e with emits := emits, writing := some (s.cycle + 2) })

/-! ### Emits take effect (19 R388, R394) -/

def State.slotLives (s : State) (c i : Nat) : Bool := (s.slot c i).state = .ready || (s.slot c i).state = .parked
/-- Note the two halves of a bind record (23 R466), at its cell and slot. -/
def State.noteBind (s : State) (p c i : Nat) (w : W128) : State :=
  (s.note p ephBindLo c i (w.setWidth 64)).note p ephBindHi c i (BitVec.ofNat 64 (bits w 64 64))
/-- Whether a replay lets bind records, each of a cell and slot, take effect now: noting them would not make it diverge (23 R467). -/
def State.bindsOk (s : State) (p : Nat) (l : List (Nat × Nat × W128)) : Bool :=
  (s.part p).ephMode ≠ 2 || !((l.foldl (fun s (c, i, w) => s.noteBind p c i w) s).part p).ephDiv
/-- End an item with its completion. -/
def State.endItem (s : State) (q code : Nat) : State :=
  let x := s.queue q
  let cookie := (x.head.map pkCookie).getD 0
  (s.headTaken q).completeItem q cookie (qHead x.ctx) code
def State.setWaiting (s : State) (q : Nat) (b : Bool) : State := s.setQueue q { s.queue q with waiting := b }
/-- The queue was bound: for the cue program's window and for the fixed policy. -/
def State.boundQueue (s : State) (p q prio : Nat) : State :=
  let x := s.part p
  s.setPart p { x with lastBound := some q, lastPrio := x.lastPrio.put prio q }
/-- Bind the head of a queue, or drop it with the code of the check that it fails, or leave it waiting. -/
def State.bindHead (s : State) (p q : Nat) : State :=
  let x := s.queue q
  match x.head with
  | none => s
  | some pk =>
    if !qEn x.ctx || s.frozen p || !s.runsFn p (qVf x.ctx) || !s.quotaReady (qVf x.ctx) then s
    else
      let o := originOf x.ctx
      let d := leadDie p
      if pkGang pk ≠ 0 then
        if (s.die d).gangs.any fun g => g.queue = some q && g.item = qHead x.ctx then s
        else
          let g : Gang := { id := s.nextId, queue := some q, item := qHead x.ctx, fn := o.fn, asid := o.asid, part := o.part, mode := o.mode }
          (({ s with nextId := s.nextId + 1 } : State).setDie d { s.die d with gangs := (s.die d).gangs ++ [g] }).setWaiting q true |>.dueLater (.gang d)
      else match s.checkLaunch o pk with
        | (s, .error k) =>
          if k = 256 then s
          else (if k = 8 && s.poisonAny o [pkArgs pk] then s.count o.fn 6 else s).endItem q k
        | (s, .ok args) =>
          match s.findPlace (o.partition pk) pk [] with
          | none => s.setWaiting q true
          | some place =>
            let (c, l) := place.headD (0, [])
            let w := launchRecord 0 p pk (some q) (qHead x.ctx) place
            if !s.bindsOk p [(c, l.headD 0, w)] then s
            else ((((s.noteBind p c (l.headD 0) w).bindGroup o pk args (some q) (qHead x.ctx) place).boundQueue p q (pkPrio pk)).endItem q 0)
/-- Save the threads whose pre-emption waits, as they can be saved; one that has gone is forgotten. -/
def State.servePreempts (s : State) (p : Nat) : State :=
  (s.part p).preempts.foldl (fun s (c, i, g) =>
    let drop (s : State) : State := s.setPart p { s.part p with preempts := (s.part p).preempts.filter (· != (c, i, g)) }
    if !s.slotLives c i || (s.slot c i).bind.map Bind.group ≠ g then drop s
    else if s.canSave c i then drop (s.saveSlot c i)
    else s) s
/-- Kill the thread of a fault event, wherever it lives (20 R417, R418). -/
def State.killBind (s : State) (p c i : Nat) (group : Option Nat) (note : Bool) : State :=
  let s := if note then s.noteBind p c i (slotRecord 4 p c i) else s
  match s.bindHome c i group with
  | .gone => s
  | .live => s.kill c i
  | .image key =>
    if key < poolKey 1024 0 then s.kill c i
    else match s.slicedAt c with
      | some q => s.killAway c i (tenantFn s.layout.active q (!s.slotTenant q c i)) none
      | none => s
def State.applyEmit (s : State) (p : Nat) (ev : CueEvent) (e : Emit) : State :=
  match e with
  | .bind q => s.bindHead p q
  | .defer => s
  | .preempt c i =>
    let s := s.noteBind p c i (slotRecord 2 p c i)
    if s.slotLives c i then s.setPart p { s.part p with preempts := (s.part p).preempts ++ [(c, i, (s.slot c i).bind.map Bind.group)] }
    else s
  | .resume c i =>
    let s := s.noteBind p c i (slotRecord 3 p c i)
    if s.restorable c i then s.loadSlot c i else s
  | .kill =>
    match ev with
    | .fault c i g .. => s.killBind p c i g true
    | _ => s
  | .fwd =>
    match ev with
    | .fault c i .. =>
      let d := leadDie p
      (s.setDie d { s.die d with forwarded := (s.die d).forwarded ++ [ev] }).emitOut (.faultFwd c i)
    | _ => s
/-- The bind record that an emit becomes, but for a bind's, with its cell and slot (19 R389, R394). -/
def emitRecord (p : Nat) (ev : CueEvent) : Emit → List (Nat × Nat × W128)
  | .preempt c i => [(c, i, slotRecord 2 p c i)]
  | .resume c i => [(c, i, slotRecord 3 p c i)]
  | .kill => match ev with
    | .fault c i .. => [(c, i, slotRecord 4 p c i)]
    | _ => []
  | _ => []
/-- Emits take effect one after another; in a replay, from the first whose record does not stand next on they wait. -/
def State.applyEmits (s : State) (p : Nat) (ev : CueEvent) : List Emit → State × List Emit
  | [] => (s, [])
  | x :: l => if s.bindsOk p (emitRecord p ev x) then (s.applyEmit p ev x).applyEmits p ev l else (s, x :: l)
/-- The emits of a decision whose program staged none (19 R394). -/
def defaultEmits (ev : CueEvent) (l : List Emit) : List Emit :=
  match l, ev with
  | [], .fault .. => [.fwd]
  | l, _ => l
/-- The bind records of a decision are written, and the decision ends. -/
def State.endDecision (s : State) (p : Nat) (ctl : Bool) : State :=
  let e := s.engine p ctl
  match e.event, e.writing with
  | some ev, some t =>
    if s.cycle < t then s
    else
      let idle : Engine := { e with event := none, emits := [], writing := none, fixed := false, ended := s.cycle }
      match (s.setEngine p ctl idle).applyEmits p ev (defaultEmits ev e.emits) with
      | (s, []) => let s := s.servePreempts p; if ctl then s.dueNow (.control p) else s
      | (s, l) => s.setEngine p ctl { idle with event := some ev, emits := l, writing := some t }
  | _, _ => s
/-- What falls due in a cycle: records of the control engines before those of the dispatch engines (19 R388), and waiting pre-emptions. -/
def State.prompterDue (s : State) : State :=
  let ps := s.parts.map (·.1)
  let s := ps.foldl (fun s p => s.endDecision p true) s
  let s := ps.foldl (fun s p => s.endDecision p false) s
  ps.foldl (fun s p => s.servePreempts p) s

/-! ### Gangs (10 R289-R291, 18 R368) -/

/-- The fields of a gang head that must be zero: all but gangaddr, prio and the cookie. -/
def gangHeadBad (p : W512) : Bool :=
  bits p 0 248 ≠ 0 || bits p 256 32 ≠ 0 || pkPid p ≠ 0 || pkArgs p ≠ 0 || pkReserved p || pkGang p % 64 ≠ 0
/-- Check the members, of which one that could not be read is missing: the codes that they fail with (10 R284), and their arguments. -/
def State.checkMembers (s : State) (o : Origin) : List (Option W512) → State × List Nat × List (List W64)
  | [] => (s, [], [])
  | none :: ps =>
    let (s, ks, l) := s.checkMembers o ps
    (s, 8 :: ks, [] :: l)
  | some p :: ps =>
    let (s, r) := s.checkLaunch o p
    let (s, ks, l) := s.checkMembers o ps
    match r with
    | .error k => (s, k :: ks, [] :: l)
    | .ok a => (s, ks, a :: l)
/-- Read the list of a gang head, and check head, list and members: the members and their arguments, or the lowest code that applies; 257 while
a read waits at a controller. -/
def State.gangList (s : State) (o : Origin) (p : W512) : State × Except Nat (List W512 × List (List W64)) :=
  let head : List Nat := if gangHeadBad p then [7] else []
  if pkGang p % 64 ≠ 0 then (s, .error 7)
  else match s.devRead o.fn o.asid.toNat (pkGang p) 64 with
    | (s, .fault) => (s, .error (head.headD 8))
    | (s, .held _) => (s, .error 257)
    | (s, .ok h) =>
      let (s, l, wait) := (List.range (h % 256)).foldl (fun (s, l, wait) m =>
        match s.devRead o.fn o.asid.toNat (pkGang p + 64 + 64 * m) 64 with
        | (s, .ok v) => (s, l ++ [some (BitVec.ofNat 512 v)], wait)
        | (s, .fault) => (s, l ++ [none], wait)
        | (s, .held _) => (s, l ++ [none], true)) (s, ([] : List (Option W512)), false)
      let ms := l.filterMap id
      let (s, ks, args) := s.checkMembers o l
      let bad : List Nat := if h % 256 < 2 || 16 < h % 256 || (2 ≤ ms.length && ms.length ≤ 16 && gangBad o.part ms) || ms.any (pkGang · ≠ 0) then [6] else []
      if wait || ks.contains 256 then (s, .error 257)
      else match head ++ bad ++ ks with
      | [] => (s, .ok (ms, args))
      | k :: ks => (s, .error (ks.foldl min k))
/-- Place the members in list order, each beside the reservations of those before it: the places found, one for each member unless one found
none. -/
def State.placeMembers (s : State) (o : Origin) (mine : List (Nat × Nat × W32)) : List W512 → List (List (Nat × List Nat))
  | [] => []
  | p :: ps =>
    match s.findPlace (o.partition p) p mine with
    | none => []
    | some place =>
      let mine' := mine ++ place.flatMap fun (c, l) => l.map fun i => (c, i, pkPart p)
      place :: s.placeMembers o mine' ps
def Gang.origin (g : Gang) (s : State) : Origin :=
  match g.queue with
  | some q => originOf (s.queue q).ctx
  | none => ⟨g.part, g.fn, g.asid, if g.mode = .user then .user else .supervisor, none⟩
/-- Whether the head item that a gang is has been taken by a pop, or dropped. -/
def Gang.itemGone (g : Gang) (s : State) : Bool :=
  g.queue.any fun q => (s.queue q).head.isNone || qHead (s.queue q).ctx ≠ g.item
/-- The reserved slots of a plan. -/
def planSlots (plan : List (List (Nat × List Nat))) : List (Nat × Nat) := plan.flatMap fun m => m.flatMap fun (c, l) => l.map fun i => (c, i)
/-- The records of a gang's members, each with its cell and slot: of kind 1 when it binds, of kind 5 when its reservation is released (19 R389). -/
def Gang.records (g : Gang) (kind : Nat) (o : Origin) (ms : List W512) (plan : List (List (Nat × List Nat))) : List (Nat × Nat × W128) :=
  (ms.zip plan).map fun (p, place) =>
    let (c, l) := place.headD (0, [])
    (c, l.headD 0, launchRecord kind (o.partition p) p g.queue g.item place)
def State.noteRelease (s : State) (g : Gang) (o : Origin) (ms : List W512) (plan : List (List (Nat × List Nat))) : State :=
  (g.records 5 o ms plan).foldl (fun s (c, i, w) => s.noteBind (o.partition (ms.headD 0)) c i w) s
/-- Free the reservations of a gang; waiting queues are examined again. -/
def State.release (s : State) (plan : List (List (Nat × List Nat))) : State :=
  let l := planSlots plan
  let s : State := { s with reserved := s.reserved.filter (!l.contains ·), token := none }
  (l.map (·.1)).eraseDups.foldl State.slotFreed s
/-- Keep a gang of a die as `g`, or drop it. -/
def State.putGang (s : State) (d id : Nat) (g : Option Gang) : State :=
  let l := (s.die d).gangs
  s.setDie d { s.die d with gangs := match g with
    | some g => l.map fun h => if h.id = id then g else h
    | none => l.filter fun h => h.id != id }
/-- The places that the prompter reads for a gang head: its list, its members and their argument blocks. -/
def State.gangReads (s : State) (o : Origin) (p : W512) : List Nat :=
  let word (va : Nat) : Nat := match (s.devKey o.fn o.asid.toNat va .load).2 with
    | .ok k => readNat s.mem k 64
    | _ => 0
  let ms := (List.range (word (pkGang p) % 256)).map fun m => pkGang p + 64 + 64 * m
  [pkGang p] ++ ms ++ ms.map fun a => pkArgs (BitVec.ofNat 512 (word a))
/-- The outcome of a gang: for a queue its completion or its wait, for `q.gang` the outcome word. The code 256 stands for reservations that
failed, and 6 for a malformed record. -/
def State.gangEnd (s : State) (d : Nat) (g : Gang) (code : Nat) : State :=
  match g.queue with
  | some q =>
    let s := s.putGang d g.id none
    if code = 0 then
      let prio := headPrio (s.queue q)
      ((s.setWaiting q false).boundQueue (g.origin s).part q prio).endItem q 0
    else if code = 256 then s
    else
      let o := g.origin s
      let bad := code = 8 && s.poisonAny o (s.gangReads o ((s.queue q).head.getD 0))
      ((if bad then s.count o.fn 6 else s).setWaiting q false).endItem q code
  | none => s.putGang d g.id (some { g with outcome := some (if code = 0 then 0 else if code = 6 then 2 else 1), plan := none })
/-- Send the outcome word of a `q.gang`; while the receiver has no place for it the other gangs go on. -/
def State.sendOutcome (s : State) (d : Nat) (g : Gang) (n : Nat) : State :=
  let id := s.nextId
  let p : Packet := { cell := g.tcell, slot := g.tslot, words := [(g.reg, BitVec.ofNat 64 n)], id := id }
  match ({ s with nextId := id + 1 } : State).accept { fromCell := 1041 + d, fromSlot := 0, slot := g.tslot, pkt := p, fn := some g.fn } with
  | some s => s.putGang d g.id none
  | none => s.putGang d g.id (some { g with retry := s.cycle + 8 })
/-- The checked members of a gang with their arguments: as `q.gang` read them, or as its head names them; or the code it ends with, or 257 while a
read waits at a controller. -/
def State.gangMembers (s : State) (g : Gang) (o : Origin) : State × Except Nat (List W512 × List (List W64)) :=
  match g.queue with
  | none =>
    if g.malformed then (s, .error 6)
    else match s.checkMembers o (g.listed.map some) with
      | (s, [], args) => (s, .ok (g.listed, args))
      | (s, ks, _) => (s, .error (if ks.contains 256 then 257 else 256))
  | some q => s.gangList o ((s.queue q).head.getD 0)
/-- Whether a gang can move now: its outcome is due, its record is read, and its function runs. A queue's gang that cannot goes back to its queue. -/
def Gang.moves (g : Gang) (s : State) : Bool :=
  g.plan.isSome || (g.retry ≤ s.cycle && (g.outcome.isSome || g.queue.isSome ||
    (g.need.isEmpty && !g.half && !s.frozen g.part && s.runsFn g.part g.fn && s.quotaReady g.fn)))
/-- One step of a gang: its reservations, taken with the package's token; then the binding of the members that were placed; then its outcome
word. -/
def State.gangStep (s : State) (die : Nat) (g : Gang) : State :=
  let o := g.origin s
  match g.outcome, g.plan with
  | some n, _ => s.sendOutcome die g n
  | none, some plan =>
    let part := o.partition (g.members.headD 0)
    if g.itemGone s then ((s.noteRelease g o g.members plan).release plan).putGang die g.id none
    else if s.frozen o.part || !s.runsFn o.part o.fn || !s.quotaReady o.fn then ((s.noteRelease g o g.members plan).release plan).gangEnd die g 256
    else if !s.bindsOk part (g.records 1 o g.members plan) then s
    else
      let s := (g.members.zip (g.args.zip plan)).foldl (fun s (p, a, place) =>
        let (c, l) := place.headD (0, [])
        (s.noteBind (o.partition p) c (l.headD 0) (launchRecord 1 (o.partition p) p g.queue g.item place)).bindGroup o p a g.queue g.item place) s
      (s.release plan).gangEnd die g 0
  | none, none =>
    if g.itemGone s then s.putGang die g.id none
    else if s.token.isSome then s
    else match s.gangMembers g o with
      | (s, .error k) => if k = 257 then s.putGang die g.id (some { g with retry := s.cycle + 1 }) else s.gangEnd die g k
      | (s, .ok (ms, args)) =>
        if s.frozen o.part || !s.runsFn o.part o.fn || !s.quotaReady o.fn then s.gangEnd die g 256
        else
          let plan := s.placeMembers o [] ms
          if plan.length < ms.length then
            if s.bindsOk (o.partition (ms.headD 0)) (g.records 5 o ms plan) then (s.noteRelease g o ms plan).gangEnd die g 256
            else s.putGang die g.id (some { g with retry := s.cycle + 1 })
          else
            ({ s with reserved := s.reserved ++ planSlots plan, token := some die } : State).putGang die g.id
              (some { g with plan := some plan, members := ms, args := args })
/-- The prompter of a die moves its first gang that can move. -/
def execGangPlacement (die : Nat) (s : State) : Host.Outcome State Fault Refusal :=
  let s := ((s.die die).gangs.filter Gang.half).foldl (fun s g => s.gangAgain die g) s
  let l := (s.die die).gangs
  let s := match (l.find? fun g => g.plan.isSome).orElse fun _ => l.find? fun g => g.moves s with
    | some g => s.gangStep die g
    | none => s
  .next (if (s.die die).gangs.isEmpty then s else s.dueLater (.gang die))

/-! ### Loading and swapping (19 R398-R400) -/

/-- Verify the standby image; an empty one verifies at once. -/
def State.cueLoading (s : State) (p : Nat) : State :=
  let x := s.part p
  if x.stlen = 0 then s.setPart p { x with standby := [], stvalid := true, sbase := x.stbase, loading := false }
  else (s.setPart p { x with loading := true, stvalid := false }).dueLater (.cueLoaded p)
def execCueLoad (part : Nat) (s : State) : Host.Outcome State Fault Refusal := .next (s.cueLoading part)
/-- The words of a program of `n` bytes at an HBM offset. -/
def State.cueWords (s : State) (off n : Nat) : List W32 := (List.range (n / 4)).map fun k => BitVec.ofNat 32 (readNat s.mem (keyHbm + off + 4 * k) 4)
/-- The management core has read the image and verified its signature under the owner key (22 R450, R451). -/
def execCueLoadVerified (part : Nat) (s : State) : Host.Outcome State Fault Refusal :=
  let x := s.part part
  if !x.loading then .next s
  else
    let n := x.stlen.toNat
    let off := x.stbase.toNat % 2 ^ 48
    let x := { x with loading := false }
    if n = 0 || signedBy s.module.ownerKey (natToBytes (n + 512) (readNat s.mem (keyHbm + off) (n + 512))) then
      .next (s.setPart part { x with standby := s.cueWords off n, stvalid := true, sbase := x.stbase })
    else .next (((s.setPart part { x with stvalid := false, lasterr := 7 }).raise 0 0).signFails)
/-- Measure the active cue programs, in partition order (22 R452). -/
def State.measureCue (s : State) : State :=
  let bs := (partList s.layout.active).flatMap fun p => (s.part p).active.flatMap fun w => natToBytes 4 w.toNat
  { s with module := { s.module with measured := s.module.measured.put 6 (sha512 bs) } }
/-- A swap is written: the standby program becomes the active one, and the active one the standby; but a decision whose first step falls in the
cycle runs the old program. -/
def State.cueSwapped (s : State) (p : Nat) : State :=
  let x := s.part p
  if x.stvalid then
    s.setPart p { x with active := x.standby, actbase := x.sbase, standby := x.active, sbase := x.actbase, swapFrom := some (x.swapFrom.getD x.active) }
  else s
/-- Decisions that start from now on run the new program. -/
def State.cueSwapNow (s : State) (p : Nat) : State :=
  let x := s.part p
  (s.setPart p { x with swapFrom := none, lastBound := none, disp := { x.disp with swapped := true }, ctl := { x.ctl with swapped := true } }).measureCue
def State.swapsDue (s : State) : State := (s.parts.filter (·.2.swapFrom.isSome)).foldl (fun s (p, _) => s.cueSwapNow p) s
def execCueSwap (part : Nat) (s : State) : Host.Outcome State Fault Refusal := .next (s.cueSwapped part)

/-! ### Forwarded faults (20 R417) -/

/-- Firmware kills the thread, or delivers its trap to the machine handler. -/
def execForwardedFaultResolution (cell slot : Nat) (kill : Bool) (s : State) : Host.Outcome State Fault Refusal :=
  let mine (e : CueEvent) : Bool := match e with
    | .fault c i .. => c = cell && i = slot
    | _ => false
  match s.dies.find? fun (_, x) => x.forwarded.any mine with
  | none => .next s
  | some (d, x) =>
    match takeFirst mine x.forwarded with
    | some (.fault _ _ g cause tval epc, l) =>
      let s := s.setDie d { x with forwarded := l }
      let deliver (t : Thread) : Thread := { t with mt := ⟨cause, epc, tval⟩, mfrom := t.mode, mode := .machine, pc := Config.fwEntry }
      if kill then .next (s.killBind 0 cell slot g false)
      else match s.bindHome cell slot g with
        | .live => .next (if (s.th cell slot).wait = some .fault then (s.modTh cell slot deliver).ready cell slot else s)
        | .image key =>
          -- a thread that was saved while its fault waited takes the trap in its image, ready
          let (park, rdy) := s.imagePark key
          .next (if rdy || park ≠ 0 then s
            else s.writeImage key (deliver (s.readImage key (s.th cell slot))) 0 0 true ((s.slot cell slot).savedAt = some s.cycle))
        | .gone => .next s
    | _ => .next s

end Sys2Proof.Machine
end

