-- ==== Sys2Proof/Machine/Cue.lean ====
section
/-!
DEFINITION. The cue machine (19 R390-R395): the steps of a decision of the engine whose move it is.
-/
namespace Sys2Proof.Machine

/-! ### Registers and the end of a step (19 R390, R392) -/

def Engine.rq (e : Engine) (n : BitVec 4) : W64 := e.q.at n.toNat 0
def Engine.wq (e : Engine) (n : BitVec 4) (v : W64) : Engine := { e with q := e.q.set n.toNat v 0 }
def State.curE (s : State) : Engine := s.engine s.curEng.1 s.curEng.2
def State.setCurE (s : State) (e : Engine) : State := s.setEngine s.curEng.1 s.curEng.2 e
def State.curErr (s : State) (code : Nat) : State := s.cueError s.curEng.1 s.curEng.2 code
/-- Go on with the next word. -/
def State.cueNext (s : State) (e : Engine) : State := s.setCurE { e with pc := e.pc + 1 }
/-- Write a register and go on. -/
def cueWrite (d : BitVec 4) (v : W64) (s : State) : State := s.cueNext (s.curE.wq d v)
def ofBool64 (b : Bool) : W64 := if b then 1 else 0
def cueAlu (f : W64 → W64 → W64) (d a b : BitVec 4) (s : State) : State := cueWrite d (f (s.curE.rq a) (s.curE.rq b)) s
/-- A branch; a taken one must stay inside the program (19 R395 code 3). -/
def cueBranch (taken : Bool) (o : BitVec 18) (s : State) : State :=
  let e := s.curE
  if !taken then s.cueNext e
  else
    let t : Int := e.pc + o.toInt
    if 0 ≤ t && t < e.prog.length then s.setCurE { e with pc := t.toNat } else s.curErr 3

def execCueAdd (d a b : BitVec 4) (s : State) : Host.Outcome State Fault Refusal := .next (cueAlu (fun x y => x + y) d a b s)
def execCueSub (d a b : BitVec 4) (s : State) : Host.Outcome State Fault Refusal := .next (cueAlu (fun x y => x - y) d a b s)
def execCueAnd (d a b : BitVec 4) (s : State) : Host.Outcome State Fault Refusal := .next (cueAlu (fun x y => x &&& y) d a b s)
def execCueOr (d a b : BitVec 4) (s : State) : Host.Outcome State Fault Refusal := .next (cueAlu (fun x y => x ||| y) d a b s)
def execCueXor (d a b : BitVec 4) (s : State) : Host.Outcome State Fault Refusal := .next (cueAlu (fun x y => x ^^^ y) d a b s)
def execCueShl (d a b : BitVec 4) (s : State) : Host.Outcome State Fault Refusal := .next (cueAlu (fun x y => x <<< bits y 0 6) d a b s)
def execCueShr (d a b : BitVec 4) (s : State) : Host.Outcome State Fault Refusal := .next (cueAlu (fun x y => x >>> bits y 0 6) d a b s)
def execCueSlt (d a b : BitVec 4) (s : State) : Host.Outcome State Fault Refusal := .next (cueAlu (fun x y => ofBool64 (x.slt y)) d a b s)
def execCueSltu (d a b : BitVec 4) (s : State) : Host.Outcome State Fault Refusal := .next (cueAlu (fun x y => ofBool64 (x.ult y)) d a b s)
def execCueSeq (d a b : BitVec 4) (s : State) : Host.Outcome State Fault Refusal := .next (cueAlu (fun x y => ofBool64 (x == y)) d a b s)
def execCueAddi (d a : BitVec 4) (i : BitVec 18) (s : State) : Host.Outcome State Fault Refusal :=
  .next (cueWrite d (s.curE.rq a + i.signExtend 64) s)
def execCueAndi (d a : BitVec 4) (i : BitVec 18) (s : State) : Host.Outcome State Fault Refusal :=
  .next (cueWrite d (s.curE.rq a &&& i.setWidth 64) s)
def execCueLi (d : BitVec 4) (i : BitVec 18) (s : State) : Host.Outcome State Fault Refusal := .next (cueWrite d (i.signExtend 64) s)
def execCueLih (d a : BitVec 4) (i : BitVec 18) (s : State) : Host.Outcome State Fault Refusal :=
  .next (cueWrite d ((s.curE.rq a <<< 18) ||| i.setWidth 64) s)
def execCueBeq (a b : BitVec 4) (o : BitVec 18) (s : State) : Host.Outcome State Fault Refusal :=
  .next (cueBranch (s.curE.rq a == s.curE.rq b) o s)
def execCueBne (a b : BitVec 4) (o : BitVec 18) (s : State) : Host.Outcome State Fault Refusal :=
  .next (cueBranch (s.curE.rq a != s.curE.rq b) o s)
def execCueBlt (a b : BitVec 4) (o : BitVec 18) (s : State) : Host.Outcome State Fault Refusal :=
  .next (cueBranch ((s.curE.rq a).slt (s.curE.rq b)) o s)
def execCueJmp (o : BitVec 18) (s : State) : Host.Outcome State Fault Refusal := .next (cueBranch true o s)

/-! ### Windows (19 R393) -/

def slotWord (part c i : Nat) : Nat := i + vcellOf part c * 16
/-- The slot of an event. -/
def CueEvent.slot : CueEvent → Option (Nat × Nat)
  | .yield c i _ => some (c, i)
  | .fault c i .. => some (c, i)
  | _ => none
def CueEvent.num : CueEvent → Nat
  | .dispatch => 0
  | .tick => 1
  | .yield .. => 2
  | .fault .. => 3
/-- The cue register of an event's thread, wherever the thread stands (19 R393). -/
def State.eventCue (s : State) (c i : Nat) (group : Option Nat) : W64 :=
  match s.bindHome c i group with
  | .live => (s.th c i).cue.setWidth 64
  | .image key => (s.readImage key (s.th c i)).cue.setWidth 64
  | .gone => 0
/-- Cycles since the write that made the head visible: the first tail value beyond it. -/
def HwQueue.age (x : HwQueue) (cycle : Nat) : Nat :=
  if x.depth = 0 then 0
  else
    let ahead (t : Nat) : Nat := (t + 2 ^ 32 - qHead x.ctx) % 2 ^ 32
    match x.marks.find? fun (t, _) => 1 ≤ ahead t && ahead t ≤ x.depth with
    | some (_, c) => min (cycle - c) (2 ^ 32 - 1)
    | none => 2 ^ 32 - 1
/-- The members of a gang head: the count of its list's header, read without effect. -/
def State.gangCount (s : State) (q : Nat) : Nat :=
  let x := s.queue q
  match x.head with
  | some p =>
    if pkGang p = 0 then 0
    else match s.rootOf (qVf x.ctx) (qAsid x.ctx) with
      | some root => match (s.walkFrom (qVf x.ctx) (pkGang p % 2 ^ 48) 3 root).2 with
        | some (_, e, log) => readNat s.mem (leafKey e log (pkGang p)) 1
        | none => 0
      | none => 0
  | none => 0
/-- Empty slots of a partition's cluster. -/
def State.freeSlots (s : State) (p n : Nat) : Nat :=
  let (x0, y0, w, h) := nodeRect p
  let row := w / 4
  if row * (h / 2) ≤ n then 0
  else
    let bx := x0 + n % row * 4
    let by' := y0 + n / row * 2
    ((List.range 8).flatMap fun k => (List.range 16).filter fun i => (s.slot (cellAt (bx + k % 4) (by' + k / 4)) i).state = .empty).length
def State.window (s : State) (p : Nat) (e : Engine) (win idx : Nat) : State × W64 :=
  let qs := s.localQueues p
  let n (v : Nat) : State × W64 := (s, BitVec.ofNat 64 v)
  let q (f : Nat → State × W64) : State × W64 :=
    match qs[idx]? with
    | some k => f k
    | none => n 0
  let ev := e.event.getD .dispatch
  match win with
  | 0 =>
    match idx with
    | 0 => n ev.num
    | 1 => match ev.slot with
      | some (c, i) => n (slotWord p c i)
      | none => n 0
    | 2 => match ev with
      | .yield c i g | .fault c i g .. => (s, s.eventCue c i g)
      | _ => n 0
    | 3 => n qs.length
    | 4 => n s.cycle
    | 5 =>
      match (s.part p).lastBound with
      | some k => if qs.contains k then n (qs.idxOf k) else n (2 ^ 64 - 1)
      | none => n (2 ^ 64 - 1)
    | _ => n 0
  | 1 => q fun k => n (s.queue k).depth
  | 2 => q fun k => n (headPrio (s.queue k))
  | 3 => q fun k => n ((s.queue k).age s.cycle)
  | 4 => q fun k => n (s.gangCount k)
  | 5 => q fun k =>
    let x := s.queue k
    n ((qEn x.ctx).toNat + 2 * x.waiting.toNat + 4 * x.cplFull.toNat)
  | 6 => q fun k => n (qVf (s.queue k).ctx)
  | 7 => if idx < 256 then (s, BitVec.ofInt 64 (s.fnSt idx).credit) else n 0
  | 8 => n (s.freeSlots p idx)
  | _ =>
    match ev with
    | .fault _ _ _ cause tval epc =>
      match idx with
      | 0 => n (bits cause 0 16)
      | 1 => n (bits tval 0 64)
      | 2 => n (bits tval 64 32)
      | 3 => n epc.toNat
      | _ => n 0
    | _ => n 0
def execCueRdw (d a : BitVec 4) (w : BitVec 6) (i : BitVec 12) (s : State) : Host.Outcome State Fault Refusal :=
  let e := s.curE
  if 9 < w.toNat then .next (s.curErr 2)
  else
    match s.window s.curEng.1 e w.toNat (e.rq a + i.setWidth 64).toNat with
    | (s, v) => .next (cueWrite d v s)

/-! ### Emits (19 R394, R395) -/

/-- Stage an emit that the event accepts, up to a count; else error 5. -/
def cueStage (ok : CueEvent → Bool) (most : Nat) (s : State) (x : Emit) : State :=
  let e := s.curE
  if e.event.any ok && e.emits.length < most then s.cueNext { e with emits := e.emits ++ [x] } else s.curErr 5
def isDispatch : CueEvent → Bool
  | .dispatch => true
  | _ => false
def isTickYield : CueEvent → Bool
  | .tick | .yield .. => true
  | _ => false
def isFault : CueEvent → Bool
  | .fault .. => true
  | _ => false
/-- The queue of a local number that is eligible at this step; error 5 comes before error 6. -/
def execCueBind (a : BitVec 4) (s : State) : Host.Outcome State Fault Refusal :=
  let e := s.curE
  let p := s.curEng.1
  if !e.event.any isDispatch || e.emits.length ≠ 0 then .next (s.curErr 5)
  else match (s.localQueues p)[(e.rq a).toNat]? with
    | some q => if s.eligible p q then .next (s.cueNext { e with emits := [.bind q] }) else .next (s.curErr 6)
    | none => .next (s.curErr 6)
def execCueDefer (s : State) : Host.Outcome State Fault Refusal := .next (cueStage isDispatch 1 s .defer)
/-- The slot that a slot word names in a partition. -/
def wordSlot (p : Nat) (w : W64) : Option (Nat × Nat) :=
  if 2 ^ 14 ≤ w.toNat then none else (physOf p (w.toNat / 16)).map fun c => (c, w.toNat % 16)
def cueSlot (a : BitVec 4) (f : Nat → Nat → Emit) (s : State) : State :=
  let e := s.curE
  if !e.event.any isTickYield || 4 ≤ e.emits.length then s.curErr 5
  else match wordSlot s.curEng.1 (e.rq a) with
    | some (c, i) => s.cueNext { e with emits := e.emits ++ [f c i] }
    | none => s.curErr 6
def execCuePreempt (a : BitVec 4) (s : State) : Host.Outcome State Fault Refusal := .next (cueSlot a Emit.preempt s)
def execCueResume (a : BitVec 4) (s : State) : Host.Outcome State Fault Refusal := .next (cueSlot a Emit.resume s)
def execCueKill (s : State) : Host.Outcome State Fault Refusal := .next (cueStage isFault 1 s .kill)
def execCueFwd (s : State) : Host.Outcome State Fault Refusal := .next (cueStage isFault 1 s .fwd)
/-- The last step: the records of the emits are written 2 cycles later (19 R386). -/
def execCueEnd (s : State) : Host.Outcome State Fault Refusal := .next (s.setCurE { s.curE with writing := some (s.cycle + 2) })

end Sys2Proof.Machine
end

