-- ==== Sys2Proof/Machine/Partition.lean ====
section
/-!
DEFINITION. Changing the layout (20 R406-R409): checks, journal and flip; and the slice switch of a time-sliced partition with its exchange of
context (20 R410-R412).
-/
namespace Sys2Proof.Config

/-- What a cell state block, or the record of a stopped operation, holds that was loaded from an area that had been stored into (20 R412; log
entry 51). -/
opaque lostBlock : Nat → Machine.Block
opaque lostOp : Nat → Machine.Op

end Sys2Proof.Config
namespace Sys2Proof.Machine

/-! ### Idle partitions and the checks of a commit (20 R407, R408) -/

/-- Whether a partition is idle. -/
def State.partIdle (s : State) (p : Nat) : Bool :=
  let b := s.layout.active
  let ts := tenants b p
  !(s.allSlots.any fun (c, _, y) => inPart p c && (y.state = .ready || y.state = .parked || y.state = .saved) && y.bind.map Bind.part = some p) &&
  !(s.blocks.any fun (k, x) => inPart p (k / 2) && x.slots.any fun (_, y) => y.state = .saved && y.bind.map Bind.part = some p) &&
  !(s.ops.any fun (_, o) => o.part = p) && !(s.cmds.any fun (_, r) => r.part = p) &&
  !(s.reqs.any fun (_, r) => r.posted && r.op != .flush && ts.contains r.fn) &&
  !(s.queues.any fun (_, x) => ts.contains (qVf x.ctx) && qEn x.ctx) &&
  ts.all fun f => (s.fnSt f).faultOpen.isEmpty
/-- Code 1: an enabled node has an enabled ancestor. -/
def bankNested (b : SMap W64) : Bool :=
  (partList b).any fun n => (List.range 8).any fun k => n / 2 ^ (k + 1) ≠ 0 && partEn b (n / 2 ^ (k + 1))
/-- Code 2: a changed partition that is enabled in the active bank is not idle. -/
def State.commitBusy (s : State) : Bool := (partList s.layout.active).any fun p => s.layout.changed p && !s.partIdle p
/-- Code 3: the tenants of an entry are not as its slice bit says. -/
def tenantsBad (b : SMap W64) (n : Nat) : Bool :=
  if partSlice b n then partVf1 b n = partVf0 b n || !fnEn b (partVf1 b n) else partVf1 b n ≠ 0
/-- Two ranges of numbers overlap: some number lies in both. -/
def overlaps (b1 n1 b2 n2 : Nat) : Bool := max b1 b2 < min (b1 + n1) (b2 + n2)
/-- An HBM offset lies in a function's quota. -/
def inQuota (b : SMap W64) (f off : Nat) : Bool := fnHbmBase b f * 2 ^ 30 ≤ off && off < (fnHbmBase b f + fnHbmLen b f) * 2 ^ 30
/-- Code 4: an enabled function's partition, ranges or addresses do not fit. -/
def fnBad (b : SMap W64) (f : Nat) : Bool :=
  let p := fnPart b f
  !partEn b p || !(tenants b p).contains f ||
  ((fnList b).any fun g => g ≠ f && (overlaps (fnAsidBase b f) (fnAsidCnt b f) (fnAsidBase b g) (fnAsidCnt b g) ||
    overlaps (fnQbase b f) (fnQcnt b f) (fnQbase b g) (fnQcnt b g))) ||
  !inQuota b f (fnAtab b f) || !inQuota b f (fnEfqbase b f) || (partSlice b p && !inQuota b f (fnCtxbase b f))
/-- The code of the first check that the staged bank fails. -/
def State.commitCode (s : State) : Option Nat :=
  let b := s.layout.bank (!s.layout.sel)
  if bankNested b then some 1
  else if s.commitBusy then some 2
  else if (partList b).any (tenantsBad b) then some 3
  else if (fnList b).any (fnBad b) then some 4
  else none

/-! ### Commit, flip and recovery (20 R406, R408, R409) -/

def State.endCommit (s : State) (code : Nat) : State := { s with layout := { s.layout with phase := .idle, err := BitVec.ofNat 8 code } }
/-- The management core checks the staged bank and writes the intent record; `flashOk` says whether the record was written and verified. -/
def execLayoutCommit (flashOk : Bool) (s : State) : Host.Outcome State Fault Refusal :=
  let l := s.layout
  if l.phase ≠ .checking then .next s
  else match s.commitCode with
    | some k => .next (s.endCommit k)
    | none =>
      let s : State := { s with layout := { l with intent := some (l.seq + 1, l.bank (!l.sel), flashOk), phase := .journalling } }
      if flashOk then .next (({ s with layout := { s.layout with phase := .flipping } } : State).dueLater .layoutFlip)
      else .next (s.endCommit 5)
/-- The digest of the active layout bank with its sequence: the bytes as they are stored (22 R452; log entry 8). -/
def layoutDigest (l : Layout) : W512 := sha512 (natToBytes 4 l.seq.toNat ++ (List.range 2560).flatMap fun k => natToBytes 8 (l.active.at k 0).toNat)
/-- Forget what the wings of a cell hold. -/
def State.zeroWing (s : State) (c : Nat) : State :=
  let lo := poolKey (1024 + c) 0
  let inside (u k : Nat) : Bool := lo ≤ k * u && k * u < lo + 2 ^ 18
  { s with
    mem := s.mem.filter fun x => !inside 1 x.1
    tags := s.tags.filter fun g => !inside 16 g
    poison := s.poison.filter fun g => !inside 4 g
    blocks := (s.blocks.del (2 * c)).del (2 * c + 1) }
/-- The cells of a partition. -/
def partCellList (p : Nat) : List Nat := (List.range 1024).filter (inPart p)
/-- The copy tags of a cell as they are at launch of a partition onto it (07 R190). -/
def Cell.launchTags (x : Cell) : Cell := { x with tdone := BitVec.allOnes 64, tfail := 0, tcount := [] }
/-- The flip launches a partition onto its cells when it is enabled and was not, or its entry is another (07 R190; DEDUCED, log entry 54). -/
def launches (old new : SMap W64) (p : Nat) : Bool := partEn new p && (!partEn old p || partWord new p 0 ≠ partWord old p 0)
/-- The flip: one cycle in which sel, seq and err change, with the wings of the time-sliced partitions that the commit enables. -/
def State.flip (s : State) : State :=
  let l := s.layout
  let old := l.active
  let l' : Layout := { l with sel := !l.sel, seq := l.seq + 1, err := 0, phase := .idle }
  let fresh := (partList l'.active).filter fun p => partSlice l'.active p && launches old l'.active p
  let s : State := { s with layout := l', module := { s.module with measured := s.module.measured.put 5 (layoutDigest l') } }
  let s := (fresh.foldl (fun s p =>
    (partCellList p).foldl State.zeroWing (s.setPart p { s.part p with sliceFrom := s.cycle, tenant := false, firstTurn := true })) s).measureCue
  ((partList l'.active).filter (launches old l'.active)).foldl (fun s p =>
    (partCellList p).foldl (fun s c => s.modCell c Cell.launchTags) s) s
def execLayoutFlip (s : State) : Host.Outcome State Fault Refusal := .next (if s.layout.phase = .flipping then s.flip else s)
/-- The management core starts after a watchdog reset. -/
def execJournalRecovery (s : State) : Host.Outcome State Fault Refusal :=
  let l := s.layout
  match l.intent with
  | none => .next { s with layout := { l with phase := .idle } }
  | some (seq, bank, ok) =>
    if ok && seq = l.seq + 1 then
      let l := if l.sel then { l with bank0 := bank } else { l with bank1 := bank }
      .next { s with layout := l }.flip
    else if seq = l.seq then .next { s with layout := { l with phase := .idle } }
    else .next (s.endCommit 6)

/-! ### The slice switch (20 R410) -/

/-- The tenant that is leaving a switching partition, and the one that comes in. -/
def State.outFn (s : State) (p : Nat) : Nat := tenantFn s.layout.active p (s.part p).tenant
def State.inFn (s : State) (p : Nat) : Nat := tenantFn s.layout.active p (!(s.part p).tenant)
/-- The block number of a tenant in a cell. -/
def blockNum (c : Nat) (t : Bool) : Nat := 2 * c + t.toNat
/-- Stop the operations, and the walks, of a function in a partition. -/
def State.stopOps (s : State) (p f : Nat) : State :=
  { s with
    ops := s.ops.map fun (n, o) => (n, if o.part = p && o.fn = f then { o with held := true } else o)
    cmds := s.cmds.map fun (n, r) => (n, if r.part = p && r.fn = f && r.op = 7 then { r with held := true } else r) }
/-- Release the reservations of a function's gangs. -/
def State.releaseGangs (s : State) (p f : Nat) : State :=
  s.dies.foldl (fun s (d, x) =>
    x.gangs.foldl (fun s g =>
      match g.plan with
      | some plan =>
        if (g.origin s).part = p && (g.origin s).fn = f then
          ((s.noteRelease g (g.origin s) g.members plan).release plan).putGang d g.id (some { g with plan := none })
        else s
      | none => s) s) s
/-- Put a slot into the order of halting; a slot below the register section that holds no thread leaves an image that says so. -/
def State.halted (s : State) (c i : Nat) : State :=
  let x := s.cell c
  let s := if (x.slot i).state ≠ .saved && i < wordReg x.pword then s.write none (imageKey c i + 0xE10) 8 0 else s
  s.modCell c fun x => { x with halted := x.halted ++ [i] }
/-- The granule that is exchanged next: those of the slots in the order of halting, then 16 to 63. -/
def Cell.nextGranule (x : Cell) : Option Nat :=
  match x.halted.find? fun i => !x.granules.contains i with
  | some i => some i
  | none =>
    if (List.range 16).all x.granules.contains then ((List.range 48).map (· + 16)).find? fun g => !x.granules.contains g else none
/-- Begin the next granule's exchange, 16 cycles long, when none is running. -/
def State.pumpWing (s : State) (c : Nat) : State :=
  let x := s.cell c
  if x.moving.isSome then s
  else match x.nextGranule with
    | some g => (s.setCell c { x with moving := some g }).dueAt (s.cycle + 16) (.granule c)
    | none => s
/-- Halt a slot (a pair as a whole): its threads are saved. -/
def State.haltSlot (s : State) (c i : Nat) : State :=
  let l := ((s.savedWith c i).filter fun j => !(s.cell c).halted.contains j).mergeSort
  let live (j : Nat) : Bool := (s.slot c j).state = .ready || (s.slot c j).state = .parked
  let s := l.foldl (fun s j => if live j then (s.saveOne c j).setSlot c j { (s.saveOne c j).slot c j with switched := true } else s) s
  let s := l.foldl (fun s j => s.halted c j) s
  let s := s.pumpWing c
  -- after the last slot the copy engine saves and loads the cell state block, and the scratchpad after it (20 R412)
  if (List.range 16).all (s.cell c).halted.contains then s.dueLater (.block c) else s
/-- A slot that halts at once: it holds no thread that takes turns. -/
def State.haltsNow (s : State) (c i : Nat) : Bool :=
  let x := s.cell c
  (x.slot i).state = .empty || (x.slot i).state = .saved || wordReg x.pword ≤ i
/-- Whether a slot's turn to halt has come. -/
def State.haltReady (s : State) (c i : Nat) : Bool :=
  let rested (j : Nat) : Bool := match (s.slot c j).last with
    | none => true
    | some t => t + 8 ≤ s.cycle
  (s.cell c).switch && !(s.cell c).halted.contains i &&
    (s.haltsNow c i || (((s.slot c i).state = .ready || (s.slot c i).state = .parked) && (s.savedWith c i).all rested && s.canSave c i))
/-- Start a switch. -/
def execSliceSwitch (part : Nat) (s : State) : Host.Outcome State Fault Refusal :=
  let x := s.part part
  let b := s.layout.active
  if !partEn b part || !partSlice b part || partSliceLen b part = 0 || x.switching.isSome || s.cycle < x.sliceFrom + partSliceLen b part then .next s
  else
    let f := s.outFn part
    let s := ((s.setPart part { x with switching := some s.cycle }).stopOps part f).releaseGangs part f
    .next ((partCellList part).foldl (fun s c =>
      let s := s.modCell c fun x => { x with switch := true, halted := [], moving := none, granules := [], wanted := [], blockDone := false }
      (List.range 16).foldl (fun s i => if s.haltReady c i then s.haltSlot c i else s) s) s)
def execSlotHalt (cell slot : Nat) (s : State) : Host.Outcome State Fault Refusal :=
  .next (if s.haltReady cell slot then s.haltSlot cell slot else s)
/-- The slots whose turn to halt has come in this cycle. -/
def State.switchDue (s : State) : List Due :=
  s.cells.flatMap fun (c, x) =>
    if x.switch then (List.range 16).filterMap fun i => if s.haltReady c i then some (Due.slotHalt c i) else none else []

/-! ### The exchange of granules (20 R411, R412) -/

/-- Exchange the units numbered from `a` and from `b`, `n` of them, in a sorted set or in memory. -/
def swapNum (a b n k : Nat) : Nat := if a ≤ k && k < a + n then k - a + b else if b ≤ k && k < b + n then k - b + a else k
def swapSet (a b n : Nat) (l : List Nat) : List Nat := (l.map (swapNum a b n)).foldl setAdd []
def swapMem (a b n : Nat) (m : List Host.Cell) : List Host.Cell := m.foldl (fun m x => writeByte m (swapNum a b n x.1) x.2) []
/-- Exchange `n` bytes at two pool keys, with their tags and poison. -/
def State.swapRange (s : State) (a b n : Nat) : State :=
  { s with mem := swapMem a b n s.mem, tags := swapSet (a / 16) (b / 16) (n / 16) s.tags, poison := swapSet (a / 4) (b / 4) (n / 4) s.poison }
/-- Charge a granule saved to the outgoing tenant and a granule loaded to the incoming one (23 R453 class 15). -/
def State.chargeGranule (s : State) (p : Nat) : State := (s.charge (some (s.outFn p)) 10000 1).charge (some (s.inFn p)) 10000 1
/-- The outgoing slot goes to its tenant's block, and the incoming one comes from its own, as its image records. -/
def State.swapSlot (s : State) (p c i : Nat) : State :=
  let t := (s.part p).tenant
  let out := s.blocks.at (blockNum c t) {}
  let inn := s.blocks.at (blockNum c (!t)) {}
  let y := s.slot c i
  let z := inn.slots.at i {}
  let kept : Slot := if y.state = .saved then y else {}
  let s : State := { s with blocks := s.blocks.set (blockNum c t) { out with slots := out.slots.set i kept {} } {} }
  let inn := { inn with slots := inn.slots.del i }
  let s : State := { s with blocks := s.blocks.set (blockNum c (!t)) inn {} }
  if z.state = .saved && s.imageValid (imageKey c i) then
    let s := s.setSlot c i { z with switched := false }
    if z.switched then s.loadOne c i else s
  else s.setSlot c i { last := y.last }
/-! ### The cell state block and the scratchpad (20 R412) -/

/-- The key of granule `g` in the context area of a function, by the virtual cell; the cell state block follows the pool image. -/
def State.areaKey (s : State) (p c f g : Nat) : Nat := keyHbm + fnCtxbase s.layout.active f + 0x110000 * vcellOf p c + 4096 * g
def State.blockArea (s : State) (p c f : Nat) : Nat := s.areaKey p c f 256
/-- The bytes under which a block is saved, whose format is the device's own: free values from `n` on (log entry 51), 64 bytes each. -/
def blockWord (n k : Nat) : Nat := (Config.freeValue (n + k)).toNat
def State.saveBlock (s : State) (key n : Nat) : State :=
  { s with
    mem := (List.range 1024).foldl (fun m k => writeNat m (key + 64 * k) 64 (blockWord n k)) s.mem
    tags := (List.range 4096).foldl (fun l k => setDel l (key / 16 + k)) s.tags
    emptyW := (List.range 8192).foldl (fun l k => setDel l (key / 8 + k)) s.emptyW
    poison := (List.range 16384).foldl (fun l k => setDel l (key / 4 + k)) s.poison
    fresh := n + 1024 }
/-- Whether the area still holds a block as it was saved. -/
def State.blockIntact (s : State) (key n : Nat) : Bool :=
  (List.range 1024).all fun k => readNat s.mem (key + 64 * k) 64 = blockWord n k && !s.poisoned (key + 64 * k) 64
/-- Exchange the cell state block through the context areas: the outgoing one is saved, and the incoming one loaded; what a store into the area has
done to it is not detected, and its contents are then free. The incoming packets are offered to their slots again, and the incoming operations go
on. -/
def State.swapBlock (s : State) (p c : Nat) : State :=
  let t := (s.part p).tenant
  let fo := s.outFn p
  let x := s.cell c
  let out := s.blocks.at (blockNum c t) {}
  let inn := s.blocks.at (blockNum c (!t)) {}
  let lost : Bool := match inn.image with
    | some n => !s.blockIntact (s.blockArea p c (s.inFn p)) n
    | none => false
  let inn := if lost then { Config.lostBlock s.fresh with slots := inn.slots, pword := inn.pword } else inn
  let mine (o : Op) : Bool := o.part = p && o.cell = c && o.fn ≠ fo && o.held
  let seed := if lost then s.fresh + 1 else s.fresh
  let s : State := if lost then { s with ops := s.ops.map fun (id, o) =>
      (id, if mine o then { Config.lostOp (s.fresh + id) with part := p, cell := c, fn := o.fn, held := true } else o) } else s
  let s := s.saveBlock (s.blockArea p c fo) seed
  let away (h : HeldPkt) : Bool := h.fn = some fo
  let out := { out with pword := x.pword, k := if t then x.k1 else x.k0, locks := x.locks, bars := x.bars, tdone := x.tdone, tfail := x.tfail, tcount := x.tcount, trec := x.trec,
                        watch := x.watch, mxq := x.mxq, held := x.held.filter away, links := x.links, image := some seed }
  let x := { x with pword := inn.pword, locks := inn.locks, bars := inn.bars, tdone := inn.tdone, tfail := inn.tfail, tcount := inn.tcount,
                    trec := inn.trec, watch := inn.watch, mxq := inn.mxq, held := x.held.filter (!away ·) ++ inn.held, links := inn.links,
                    blockDone := true }
  -- the incoming bank stands as its tenant left it; at a tenant's first turn it loads zeros, and from a spoilt block what that holds (01 R28)
  let x := if (s.part p).firstTurn || lost then
      { x with k0 := if t then inn.k else x.k0, k1 := if t then x.k1 else inn.k, kpend := x.kpend.filter (·.bank == t) }
    else x
  let blk := (s.blocks.set (blockNum c t) out {}).set (blockNum c (!t)) { slots := inn.slots } {}
  let s : State := { s.setCell c x with blocks := blk }
  let s := inn.held.foldl (fun s h => s.dueLater (.packetLand h.pkt.id)) s
  let s := s.ops.foldl (fun s (id, o) =>
    if mine o then (s.setOp id { o with held := false }).dueNow ({ o with held := false }.work id) else s) s
  s.cmds.foldl (fun s (id, r) =>
    if r.part = p && r.cell = c && r.fn ≠ fo && r.held then
      ({ s with cmds := s.cmds.put id { r with held := false } } : State).dueNow (if r.walk.isSome then .walkEmit id else .ropeExec id)
    else s) s
/-- Move a granule's bytes and tags; poison spreads over the units that it touches. It is no write of any agent's. -/
def State.moveGranule (s : State) (src dst : Nat) : State :=
  let bad := (List.range 1024).filter fun k => s.poison.contains (src / 4 + k)
  let s : State := { s with
    mem := (List.range 512).foldl (fun m k => writeNat m (dst + 8 * k) 8 (readNat s.mem (src + 8 * k) 8)) s.mem
    tags := (List.range 256).foldl (fun l k => if s.tags.contains (src / 16 + k) then setAdd l (dst / 16 + k) else setDel l (dst / 16 + k)) s.tags
    emptyW := (List.range 512).foldl (fun l k => setDel l (dst / 8 + k)) s.emptyW
    poison := (List.range 1024).foldl (fun l k => setDel l (dst / 4 + k)) s.poison }
  { s with poison := bad.foldl (fun l k => (s.unitPlaces (dst + 4 * k) 4 false).foldl setAdd l) s.poison }
def State.zeroGranule (s : State) (dst : Nat) : State :=
  { s with
    mem := (List.range 512).foldl (fun m k => writeNat m (dst + 8 * k) 8 0) s.mem
    tags := (List.range 256).foldl (fun l k => setDel l (dst / 16 + k)) s.tags
    poison := (List.range 1024).foldl (fun l k => setDel l (dst / 4 + k)) s.poison }
/-- The scratchpad granule that is exchanged next: one that an access waits for, else the lowest. -/
def Cell.nextScratch (x : Cell) : Option Nat :=
  match x.wanted.find? fun g => !x.granules.contains g with
  | some g => some g
  | none => ((List.range 192).map (· + 64)).find? fun g => !x.granules.contains g
def Cell.exchanged (x : Cell) : Bool := x.blockDone && (List.range 256).all x.granules.contains
/-- The switch of a partition ends once every cell has exchanged everything. -/
def State.endSwitch (s : State) (p : Nat) : State :=
  if (partCellList p).all fun c => (s.cell c).exchanged then
    let x := s.part p
    let s := s.setPart p { x with tenant := !x.tenant, firstTurn := false, switching := none, sliceFrom := s.cycle }
    let s := (partCellList p).foldl (fun s c =>
      s.modCell c fun x => { x with switch := false, halted := [], granules := [], wanted := [], blockDone := false }) s
    (partCellList p).foldl State.slotFreed s
  else s
/-- A granule has been exchanged with the wings. -/
def execGranuleExchange (cell : Nat) (s : State) : Host.Outcome State Fault Refusal :=
  let x := s.cell cell
  match x.moving, s.slicedAt cell with
  | some g, some p =>
    let s := (s.swapRange (poolKey cell (4096 * g)) (poolKey (1024 + cell) (4096 * g)) 4096).chargeGranule p
    let s := s.modCell cell fun x => { x with moving := none, granules := x.granules ++ [g] }
    let s := if g < 16 then s.swapSlot p cell g else s
    .next (if (s.cell cell).exchanged then s.endSwitch p else s.pumpWing cell)
  | _, _ => .next s

/-- The accesses by which the copy engine saves `n` bytes of an outgoing tenant to its context area, and loads those of the incoming one: made for
those functions, and held as theirs (21 R436). Nothing is loaded at a first turn. -/
def State.areaFree (s : State) (p c g n : Nat) : State × Option Nat :=
  let out := s.areaKey p c (s.outFn p) g
  let inn := s.areaKey p c (s.inFn p) g
  match s.holdAct (s.outFn p) 0 [(out, n)] with
  | (s, some t) => (s, some t)
  | (s, none) =>
    if (s.part p).firstTurn then (s.access (some (s.outFn p)) out n true, none)
    else match s.holdAct (s.inFn p) 0 [(inn, n)] with
      | (s, some t) => (s, some t)
      | (s, none) => ((s.access (some (s.outFn p)) out n true).access (some (s.inFn p)) inn n false, none)
/-- The copy engine exchanges the cell state block, then one scratchpad granule after another, each saved before it is loaded. -/
def execCellStateExchange (cell : Nat) (s : State) : Host.Outcome State Fault Refusal :=
  let x := s.cell cell
  match s.slicedAt cell with
  | none => .next s
  | some p =>
    if !x.switch || !((List.range 16).all x.halted.contains) || x.exchanged then .next s
    else if !x.blockDone then match s.areaFree p cell 256 65536 with
      | (s, some t) => .next (s.dueAt t (.block cell))
      | (s, none) => .next ((s.swapBlock p cell).dueLater (.block cell))
    else match x.nextScratch with
      | some g =>
        match s.areaFree p cell g 4096 with
        | (s, some t) => .next (s.dueAt t (.block cell))
        | (s, none) =>
        let here := poolKey cell (4096 * g)
        let s := (s.access (some (s.outFn p)) here 4096 false).access (some (s.inFn p)) here 4096 true
        let s := s.moveGranule here (s.areaKey p cell (s.outFn p) g)
        let s := if (s.part p).firstTurn then s.zeroGranule here else s.moveGranule (s.areaKey p cell (s.inFn p) g) here
        let s := (s.chargeGranule p).modCell cell fun x => { x with granules := x.granules ++ [g] }
        .next (if (s.cell cell).exchanged then s.endSwitch p else s.dueLater (.block cell))
      | none => .next s

end Sys2Proof.Machine
end

