-- ==== Sys2Proof/Machine/Stack.lean ====
section
/-!
DEFINITION. The controllers of the HBM stacks (21 R427-R438): training, refresh and its ownership, scrub, the error count table.
-/
namespace Sys2Proof.Machine

/-! ### Refresh (21 R427, R433) -/

def tREFI : Nat := 10530
/-- Refresh interval of a stack: halved above 85 °C. -/
def State.refi (s : State) (k : Nat) : Nat := if 85 < (s.module.stktemp.at k 0).toInt then tREFI / 2 else tREFI
def addSat (a : BitVec 16) (n : Nat) : BitVec 16 := BitVec.ofNat 16 (min 65535 (a.toNat + n))
/-- One all-bank refresh of a pseudo-channel: its rows are closed and their counts return to zero (21 R436); it is charged to no function. -/
def State.refreshPc (s : State) (k pc : Nat) : State :=
  let s := s.charge none 30000 1
  let x := s.stack k
  (s.setStack k { x with
    beat := x.beat.put pc s.cycle, rows := x.rows.filter fun r => r.pc != pc, openRow := x.openRow.filter fun o => o.1 / 48 != pc }).wakeHeld
/-- The enabled function whose quota holds an HBM offset (22 R449). -/
def State.quotaOwner (s : State) (off : Nat) : Option Nat :=
  (fnList s.layout.active).find? fun f => inQuota s.layout.active f off
/-- What scrub does with one word (21 R434): an uncorrectable one is written back as poison. -/
def State.scrubWord (s : State) (k : Nat) (x : ScrubFinding) : State :=
  if stackOf x.off ≠ some k then s
  else
    let key := keyHbm + x.off
    let syn := bits (Config.freeValue s.fresh) 0 64
    let s : State := { s with fresh := s.fresh + 1 }
    let s : State := if x.uncorrectable then { s with poison := (s.unitPlaces key 1 false).foldl setAdd s.poison } else s
    s.err ⟨1024 + k, if x.uncorrectable then 2 else 1, x.uncorrectable, s.quotaOwner x.off, x.off, syn⟩
/-- Add a bank's error count to the table; each error is shared (21 R435, 22 R449). -/
def State.addCount (s : State) (k pc : Nat) (b : Nat × Nat) : State :=
  let i := 48 * pc + b.1
  let x := s.stack k
  let now := if x.addedAt = s.cycle then x.added else []
  let s := s.setStack k { x with counts := x.counts.set i (addSat (x.counts.at i 0) b.2) 0, addedAt := s.cycle, added := now.put i (addSat (now.at i 0) b.2) }
  (List.range b.2).foldl (fun s _ => s.errOpen (1024 + k) 1 false none) s
/-- A write to an entry clears it; with an addition in the same cycle it holds that addition alone. -/
def State.clearCount (s : State) (k i : Nat) : State :=
  let x := s.stack k
  s.setStack k { x with counts := if x.addedAt = s.cycle then x.counts.set i (x.added.at i 0) 0 else x.counts.del i }
/-- Rows of a pseudo-channel. -/
def pcRows : Nat := 48 * bankRows
/-- The number of a row in the order in which scrub takes the rows of a stack. -/
def scrubIndex (off : Nat) : Nat :=
  let (pc, bank, row) := rowAt off
  pc * pcRows + bank * bankRows + row
/-- The cycles in which scrub covers a stack once (21 R434). -/
def Stack.scrubPeriod (x : Stack) : Nat := x.scrubh.toNat * 9720000000000
/-- The rows of the stack that scrub has checked behind this refresh: the share of its period that will have passed when the next two are over,
so that the pass ends within its period. -/
def State.scrubTarget (s : State) (k : Nat) : Nat :=
  min (64 * pcRows) ((s.cycle + 2 * s.refi k - (s.stack k).scrubFrom) * (64 * pcRows) / (s.stack k).scrubPeriod)
/-- The rows that scrub checks in this refresh of a pseudo-channel: from a row up to another; none while scrub is at another pseudo-channel. -/
def State.scrubSpan (s : State) (k pc : Nat) : Nat × Nat :=
  let at_ := (s.stack k).scrub
  if at_ / pcRows = pc then (at_, max at_ (min (s.scrubTarget k) ((pc + 1) * pcRows))) else (at_, at_)
/-- The 64-byte segments of a row: the bytes of a stack over its rows. -/
def rowSegs : Nat := ceilDiv (36 * 10 ^ 9) (64 * pcRows * 64)
/-- Scrub goes on in a refresh: what it finds in its rows, and the counts of the banks that it has finished. -/
def State.scrubStep (s : State) (k pc : Nat) (scrub : List ScrubFinding) (counts : List (Nat × Nat)) : State :=
  let (lo, hi) := s.scrubSpan k pc
  let x := s.stack k
  let s := s.setStack k (if hi = 64 * pcRows then { x with scrub := 0, scrubFrom := x.scrubFrom + x.scrubPeriod } else { x with scrub := hi })
  -- each row is activated, and its segments are read and written back (23 R453): the module total counts them
  let s := (s.charge none 1500 (hi - lo)).charge none 880 (2 * rowSegs * (hi - lo))
  let s := (scrub.filter fun f => lo ≤ scrubIndex f.off && scrubIndex f.off < hi).foldl (fun s f => s.scrubWord k f) s
  (counts.filter fun b => b.1 < 48 && lo < pc * pcRows + (b.1 + 1) * bankRows && pc * pcRows + (b.1 + 1) * bankRows ≤ hi).foldl (fun s b => s.addCount k pc b) s
/-- An all-bank refresh falls due: by the owner, which also scrubs, and retunes, if it is the controller; the sequencer's refresh of the last
pseudo-channel after a restart hands ownership back in the following cycle. -/
def execHbmRefresh (stack pc : Nat) (scrub : List ScrubFinding) (counts : List (Nat × Nat)) (s : State) : Host.Outcome State Fault Refusal :=
  let x := s.stack stack
  if 16 ≤ stack || 64 ≤ pc || x.train ≠ 2 || s.cycle < x.beat.at pc 0 + s.refi stack then .next s
  else
    let s := s.refreshPc stack pc
    let x := s.stack stack
    if x.owner then
      .next (if pc = 63 && x.restarting then s.setStack stack { x with returnAt := some (s.cycle + 1) } else s)
    else
      let s := s.scrubStep stack pc scrub counts
      .next (if x.tuning = pc then ({ s with fresh := s.fresh + 1 } : State).dueNow (.retune stack (Config.tunes s.fresh)) else s)
/-- The sequencer finds a pseudo-channel without a heartbeat for 2 tREFI: it owns refresh from now on and refreshes every one. -/
def execSequencerTakeover (stack : Nat) (s : State) : Host.Outcome State Fault Refusal :=
  let x := s.stack stack
  if 16 ≤ stack || x.train ≠ 2 || x.owner || !((List.range 64).any fun pc => x.beat.at pc 0 + 2 * s.refi stack ≤ s.cycle) then .next s
  else
    let s := s.setStack stack { x with owner := true, takeovers := addSat x.takeovers 1, restarting := false, returnAt := none }
    .next ((List.range 64).foldl (fun s pc => s.refreshPc stack pc) s)
/-- The driver restarts the controller while the sequencer owns refresh. -/
def execStackRestart (stack : Nat) (s : State) : Host.Outcome State Fault Refusal :=
  let x := s.stack stack
  .next (if stack < 16 && x.owner then s.setStack stack { x with restarting := true } else s)
/-- The controllers that take ownership in this cycle. -/
def State.returnRefresh (s : State) : State :=
  s.hbms.foldl (fun s (k, x) =>
    match x.returnAt with
    | some t => if t ≤ s.cycle then s.setStack k { x with owner := false, restarting := false, returnAt := none } else s
    | none => s) s
/-- Refreshes and takeovers that fall due. While the controller owns refresh, it may have stopped (log entry 4). -/
def State.refreshDue (s : State) : List Due :=
  s.hbms.flatMap fun (k, x) =>
    if x.train ≠ 2 then []
    else (List.range 64).filterMap fun pc =>
      if x.beat.at pc 0 + s.refi k ≤ s.cycle && (x.owner || !Config.stalls k s.cycle) then some (.refresh k pc s.cycle)
      else if x.beat.at pc 0 + 2 * s.refi k ≤ s.cycle && !x.owner then some (.takeover k)
      else none

/-! ### Training (21 R429-R432) -/

/-- What the check code of a training record covers. -/
def TrainRec.words (r : TrainRec) : List Nat := [r.stack, r.serial, (r.temp % 256).toNat, r.format] ++ (List.range 64).map fun pc => r.lanes.at pc 0
/-- Its check code: SHA-512 over the words, 8 bytes each (log entry 8). -/
def TrainRec.code (r : TrainRec) : W512 := sha512 (r.words.flatMap (natToBytes 8))
def TrainRec.sealed (r : TrainRec) : TrainRec := { r with check := r.code }
/-- A stack that has become ready: each pseudo-channel's refresh starts, and no retune is due. -/
def Stack.begun (x : Stack) (cycle : Nat) (temp : Int) : Stack :=
  { x with train := 2, scrub := 0, scrubFrom := cycle, beat := (List.range 64).foldl (fun m pc => m.put pc cycle) x.beat, tuning := 64, tuned := cycle, tuneTemp := temp }
/-- Train from cold: ready with a record in flash, or failed with a record in the stack's error bank. -/
def State.trainCold (s : State) (k : Nat) (passes : Bool) : State :=
  let x := s.stack k
  let temp := (s.module.stktemp.at k 0).toInt
  if passes then
    let lanes : SMap Nat := (List.range 64).map fun pc => (pc, Config.laneValues s.fresh pc)
    let r : TrainRec := ⟨k, Config.serial, temp, Config.trainFormat, lanes, 0⟩
    ({ s with fresh := s.fresh + 1 } : State).setStack k { x.begun s.cycle temp with restored := false, record := some r.sealed, lanes := lanes }
  else (s.setStack k { x with train := 3, restored := false }).errOpen (1024 + k) 9 true none
/-- Cold boot; `passes` says whether the pattern passes within its three attempts. -/
def execColdBootTraining (stack : Nat) (passes : Bool) (s : State) : Host.Outcome State Fault Refusal :=
  .next (if stack < 16 && ((s.stack stack).train = 0 || (s.stack stack).train = 1) then s.trainCold stack passes else s)
/-- The driver has a failed stack trained again. -/
def execStackRetry (stack : Nat) (passes : Bool) (s : State) : Host.Outcome State Fault Refusal :=
  .next (if stack < 16 && (s.stack stack).train = 3 then s.trainCold stack passes else s)
/-- Whether a training record may be restored to a stack at a temperature (21 R430). -/
def TrainRec.fits (r : TrainRec) (k : Nat) (temp : Int) : Bool :=
  r.check = r.code && r.serial = Config.serial && r.stack = k && r.format = Config.trainFormat &&
    decide (r.temp - 10 ≤ temp) && decide (temp ≤ r.temp + 10)
/-- A warm reset: `intact` says whether flash has kept the record. What cannot be restored trains from cold. -/
def execWarmResetRestore (stack : Nat) (intact : Bool) (temp : Int) (passes : Bool) (s : State) : Host.Outcome State Fault Refusal :=
  let x := s.stack stack
  if 16 ≤ stack || (x.train ≠ 0 && x.train ≠ 1) then .next s
  else
    let s : State := { s with module := { s.module with stktemp := s.module.stktemp.set stack (BitVec.ofInt 8 temp) 0 } }
    let cold : State := ({ s.setStack stack { x with train := 1, restored := false } with fresh := s.fresh + 1 } : State).dueLater (.train stack (Config.trains s.fresh))
    match x.record with
    | none => .next cold
    | some r =>
      if intact && r.fits stack temp && passes then .next (s.setStack stack { x.begun s.cycle temp with restored := true, lanes := r.lanes })
      else .next cold
/-- The sensors show the temperatures of the cycle (23 R458). -/
def State.sense (s : State) : State :=
  let all (n : Nat) (t : Nat → Nat → Byte) : SMap Byte := (List.range n).foldl (fun m d => SMap.set m d (t d s.cycle) 0) []
  { s with module := { s.module with dietemp := all 4 Config.dieTemp, stktemp := all 16 Config.stackTemp } }
/-- Start the retunes that fall due: every 100 ms, and when the temperature has moved 4 °C since the last (21 R432). -/
def State.startRetunes (s : State) : State :=
  s.hbms.foldl (fun s (k, x) =>
    let temp := (s.module.stktemp.at k 0).toInt
    if x.train = 2 && !x.owner && x.tuning = 64 && (x.tuned + 270000000 ≤ s.cycle || 4 ≤ (temp - x.tuneTemp).natAbs) then
      s.setStack k { x with tuning := 0, tuned := s.cycle, tuneTemp := temp }
    else s) s
/-- The retune of the next pseudo-channel, inside the tRFC of its refresh; one that fails keeps the old values and is recorded. -/
def execRetune (stack : Nat) (ok : Bool) (s : State) : Host.Outcome State Fault Refusal :=
  let x := s.stack stack
  let pc := x.tuning
  if 16 ≤ stack || x.train ≠ 2 || x.owner || 64 ≤ pc || x.beat.at pc 0 + 945 ≤ s.cycle then .next s
  else
    let x := { x with tuning := pc + 1 }
    if ok then .next (({ s with fresh := s.fresh + 1 } : State).setStack stack { x with lanes := x.lanes.put pc (Config.laneValues s.fresh pc) })
    else .next ((s.setStack stack x).errOpen (1024 + stack) 9 false none)
/-- A write of any value to an entry of the count table clears it. -/
def execCountTableWrite (stack bank : Nat) (s : State) : Host.Outcome State Fault Refusal :=
  .next (if stack < 16 then s.clearCount stack bank else s)

end Sys2Proof.Machine
end

