-- ==== Sys2Proof/Machine/Energy.lean ====
section
/-!
DEFINITION. Energy windows and cuts (23 R456, R459), the clears of error banks and function counters (22 R446-R448), and the modes of the
ephemeris (23 R465, R467).
-/
namespace Sys2Proof.Machine

/-! ### Budgets (23 R455, R456) -/

/-- A window opens: a debt carries over, a surplus does not. Charges made before are settled in the old window. -/
def Fn.openWindow (f : Fn) (cycle : Nat) : Fn :=
  let f := f.settle
  { f with opened := cycle, opening := false, credit := (f.budget.toNat : Int) + min f.credit 0 }.settle
/-- Set window, budget or both of a function: a window opens, at the end of the cycle, so that its charges are to the old window. -/
def State.budgetWrite (s : State) (f : Nat) (window : Option W32) (budget : Option W64) : State :=
  if window.isNone && budget.isNone then s
  else
    let x := (s.fnSt f).settle
    let x := match window with
      | some w => { x with window := if w.toNat < 65536 then 65536 else w }
      | none => x
    let x := match budget with
      | some b => { x with budget := b }
      | none => x
    (s.setFn f { x with opening := true }).dueNow (.window f)
def execBudgetWrite (f : Nat) (window : Option W32) (budget : Option W64) (s : State) : Host.Outcome State Fault Refusal :=
  .next (if f < 256 then s.budgetWrite f window budget else s)
def execEnergyWindowOpen (f : Nat) (s : State) : Host.Outcome State Fault Refusal :=
  let x := s.fnSt f
  .next (if x.opening || (x.window ≠ 0 && x.opened + x.window.toNat ≤ s.cycle) then s.setFn f (x.openWindow s.cycle) else s)
/-- The cuts that govern the turns of the new cycle. -/
def State.latchCuts (s : State) : State :=
  (s.fns.filter fun (_, x) => x.turnCut ≠ x.cut).foldl (fun s (f, x) => s.setFn f { x with turnCut := x.cut }) s

/-! ### The power cap (23 R458, R459) -/

/-- The module cut from the energy of a window of 100 µs, the cap, the cut before, and the windows in a row above cap with this one. -/
def nextMcut (pj cap mcut above : Nat) : Nat :=
  let p := pj + 180 * 10 ^ 8
  if cap * 10 ^ 8 < p then if 10 ≤ above then 2 else 1
  else if p * 100 ≤ cap * 95 * 10 ^ 8 then 0
  else if mcut = 0 then 0 else 1
def execPowerWindowEnd (s : State) : Host.Outcome State Fault Refusal :=
  let m := s.module
  let watts := m.windowPj / 10 ^ 8 + 180
  let above := if m.cap.toNat * 10 ^ 8 < m.windowPj + 180 * 10 ^ 8 then m.above + 1 else 0
  .next { s with module := { m with power := BitVec.ofNat 16 watts, mcut := nextMcut m.windowPj m.cap.toNat m.mcut above, above := above, windowPj := 0 } }

/-! ### Clears (22 R447, R448; 18 R383) -/

def Master.code : Master → Nat
  | .host => 1
  | .sideband => 2
/-- Whether a master owns the shared control registers; a write by another is denied. -/
def State.owns (s : State) (who : Master) : Bool := s.module.semOwner.toNat = Master.code who
def State.denied (s : State) : State := { s with module := { s.module with semDenied := true } }
def execErrorBankClear (who : Master) (u : Nat) (s : State) : Host.Outcome State Fault Refusal :=
  .next (if s.owns who then s.clearBank u else s.denied)
def execFunctionCounterClear (f i : Nat) (s : State) : Host.Outcome State Fault Refusal :=
  let x := s.fnSt f
  .next (if f < 256 && i < 8 then s.setFn f { x with counters := x.counters.del i } else s)

/-! ### Modes of the ephemeris (23 R465, R467) -/

/-- A write of mode: discarded unless the partition is idle, or for the reserved value. A recording starts afresh; a log that has wrapped
replays nothing. -/
def State.ephModeWrite (s : State) (part : Nat) (mode : BitVec 2) : State :=
  let x := s.part part
  if mode = 3 || !s.partIdle part then s
  else if mode = 1 then s.setPart part { x with ephMode := 1, ephPos := 0, ephWrap := false, ephCount := 0, ephUsed := [] }
  else if mode = 2 then
    s.setPart part { x with ephPos := 0, ephUsed := [], ephWait := s.cycle, ephDiv := x.ephWrap, ephMode := if x.ephWrap || x.ephCount = 0 then 0 else 2 }
  else s.setPart part { x with ephMode := 0 }
def execEphemerisModeWrite (part : Nat) (mode : BitVec 2) (s : State) : Host.Outcome State Fault Refusal := .next (s.ephModeWrite part mode)
/-- A prescribed event has not occurred in 2^24 cycles. -/
def execReplayTimeout (part : Nat) (s : State) : Host.Outcome State Fault Refusal :=
  let x := s.part part
  .next (if x.ephMode = 2 && x.ephWait + 2 ^ 24 ≤ s.cycle then s.ephStop part else s)

end Sys2Proof.Machine
end

