-- ==== Sys2Proof/Machine/Registers.lean ====
section
/-!
DEFINITION. The registers in BAR0 of physical function 0 and of the virtual functions (18 R363), read and written by aligned 64-bit words
under a mask of the bits that a write carries, and the writes of queue contexts and doorbells (18 R364-R366, R370).
-/
namespace Sys2Proof.Machine

/-- Merge a write into a word: the bits that both masks carry. -/
def merge {w : Nat} (old field mask v : BitVec w) : BitVec w := (old &&& ~~~(field &&& mask)) ||| (v &&& (field &&& mask))
/-- The words of a number. -/
def wordOf {w : Nat} (x : BitVec w) (k : Nat) : W64 := BitVec.ofNat 64 (bits x (64 * k) 64)
/-- A field of ones. -/
def ones (w lo n : Nat) : BitVec w := BitVec.ofNat w ((2 ^ n - 1) * 2 ^ lo)

/-! ### Queue contexts (18 R364, 20 R405) -/

/-- The fields that a write changes only while the queue is disabled. -/
def qRwMask : W512 :=
  ones 512 0 53 ||| ones 512 54 2 ||| ones 512 64 48 ||| ones 512 112 29 ||| ones 512 144 40 ||| ones 512 192 48 ||| ones 512 256 32
/-- Whether a context may be enabled. -/
def State.mayEnable (s : State) (q : Nat) (x : W512) : Bool :=
  let b := s.layout.active
  let f := qVf x
  fnEn b f && fnQbase b f ≤ q && q < fnQbase b f + fnQcnt b f && qPart x = fnPart b f && partEn b (qPart x) && qPart x ≠ 0
/-- The effect of written ones on the W1C bits; a cleared cplerr lets the held record be written again (18 R369). -/
def State.qClear (s : State) (q : Nat) (mask v : W512) : State :=
  let x := s.queue q
  let w1c : W512 := v &&& mask &&& ones 512 384 3
  let s := s.setQueue q { x with ctx := x.ctx &&& ~~~w1c }
  if w1c.getLsbD 386 then s.flushCpls q else s
/-- Write the bits of a mask of a context. -/
def State.ctxWrite (s : State) (q : Nat) (mask value : W512) : State :=
  if 32768 ≤ q then s
  else
    let x := s.queue q
    if qEn x.ctx then
      let s := s.qClear q mask value
      if mask.getLsbD 53 && !value.getLsbD 53 then s.disableQueue q else s
    else
      let new := merge x.ctx qRwMask mask value
      let new := if 2 ≤ qMode new then setBits new 54 2 (qMode x.ctx) else new
      if mask.getLsbD 53 && value.getLsbD 53 then
        if s.mayEnable q new then
          let s := (s.setQueue q { x with ctx := setBits new 53 1 1, killed := false, closed := false, waiting := false }).qClear q mask value
          if 0 < (s.queue q).depth && (s.queue q).head.isNone then s.dueLater (.headRead q) else s
        else s
      else (s.setQueue q { x with ctx := new }).qClear q mask value
def execQueueContextWrite (q : Nat) (mask value : W512) (s : State) : Host.Outcome State Fault Refusal := .next (s.ctxWrite q mask value)

/-! ### Doorbells (18 R365, R366, R370) -/

def execDoorbellTail (q : Nat) (value : W32) (s : State) : Host.Outcome State Fault Refusal :=
  if 32768 ≤ q then .next s
  else
    let x := s.queue q
    let step := (value.toNat + 2 ^ 32 - qTail x.ctx) % 2 ^ 32
    .next (if step + x.depth ≤ 2 ^ qLogsize x.ctx then s.setTail q value.toNat else s.setQueue q (x.setBit 384))
/-- Whether a queue of a vector has records that the host has not consumed. -/
def State.vecOwes (s : State) (f v : Nat) : Bool :=
  s.queues.any fun (_, x) => qVf x.ctx = f && qVec x.ctx = v && qCpltail x.ctx ≠ x.cplhead.toNat
/-- CPLHEAD: the vector is armed again, or sends one message at once; room in a full ring lets held records be written. -/
def execDoorbellCplhead (q : Nat) (value : W32) (s : State) : Host.Outcome State Fault Refusal :=
  if 32768 ≤ q then .next s
  else
    let x := s.queue q
    let s := s.setQueue q { x with cplhead := value }
    let f := qVf x.ctx
    let v := qVec x.ctx
    let y := (s.fnSt f).vecs.at v {}
    let s := s.setFn f { s.fnSt f with vecs := (s.fnSt f).vecs.set v { y with armed := true } {} }
    .next ((if s.vecOwes f v then s.sendVec f v else s).flushCpls q)
/-- cplerr is cleared by a write of 1 (18 R369). -/
def execCplerrClear (q : Nat) (s : State) : Host.Outcome State Fault Refusal := .next (s.qClear q (ones 512 386 1) (ones 512 386 1))
/-- STATUS of a doorbell page. -/
def State.qStatus (s : State) (q : Nat) : W64 :=
  let x := (s.queue q).ctx
  BitVec.ofNat 64 (qHead x + bits x 384 2 * 2 ^ 32 + (qEn x).toNat * 2 ^ 34 + (qCplerr x).toNat * 2 ^ 35)

/-! ### MSI-X table and pending bits (18 R370) -/

def State.vecWord (s : State) (f v k : Nat) : W64 :=
  let x := (s.fnSt f).vecs.at v {}
  if k = 0 then x.addr else BitVec.ofNat 64 (x.data.toNat + x.masked.toNat * 2 ^ 32)
/-- Write a table entry; unmasking sends a pending message. -/
def State.vecWrite (s : State) (f v k : Nat) (mask val : W64) : State :=
  let x := (s.fnSt f).vecs.at v {}
  let w := merge (s.vecWord f v k) (if k = 0 then BitVec.allOnes 64 else ones 64 0 33) mask val
  let x := if k = 0 then { x with addr := w } else { x with data := w.setWidth 32, masked := w.getLsbD 32 }
  let go : Bool := x.pending && !x.masked
  let x := if go then { x with pending := false, sent := x.sent + 1 } else x
  let s := s.setFn f { s.fnSt f with vecs := (s.fnSt f).vecs.set v x {} }
  if go then s.emitOut (.msix f v) else s
/-- Word `k` of the pending bits. -/
def State.pbaWord (s : State) (f k : Nat) : W64 :=
  (s.fnSt f).vecs.foldl (fun w (v, x) => if v / 64 = k && x.pending then setBits w (v % 64) 1 1 else w) 0

/-! ### Cue control blocks (19 R398) -/

def State.cueWord (s : State) (p k : Nat) : W64 :=
  let x := s.part p
  match k with
  | 0 => BitVec.ofNat 64 (2 * x.stvalid.toNat)
  | 1 => BitVec.ofNat 64 (x.budget * 2 ^ 32)
  | 2 => BitVec.ofNat 64 (x.lasterr.toNat + 4 * x.active.length * 2 ^ 32)
  | 3 => x.actbase
  | 4 => BitVec.ofNat 64 (x.tick.toNat + x.stlen.toNat * 2 ^ 32)
  | 5 => x.stbase
  | 6 => BitVec.ofNat 64 (x.ovcnt.toNat * 2 ^ 32)
  | _ => BitVec.ofNat 64 x.errcnt.toNat
def State.cueWrite (s : State) (p k : Nat) (mask v : W64) : State :=
  let x := s.part p
  let w := merge (s.cueWord p k) (BitVec.allOnes 64) mask v
  match k with
  | 0 =>
    let s := if mask.getLsbD 2 && v.getLsbD 2 then s.cueSwapped p else s
    if mask.getLsbD 0 && v.getLsbD 0 then s.cueLoading p else s
  | 1 =>
    if bits mask 32 9 = 0 then s
    else
      let n := bits w 32 9
      s.setPart p { x with budget := if n < 8 then 8 else if 256 < n then 256 else n }
  | 4 =>
    let x := if bits mask 0 32 = 0 then x else { x with tick := w.setWidth 32, tickFrom := s.cycle }
    s.setPart p { x with stlen := BitVec.ofNat 16 (bits w 32 16), stvalid := x.stvalid && bits mask 32 16 = 0 }
  | 5 => s.setPart p { x with stbase := w, stvalid := x.stvalid && mask = 0 }
  | _ => s

/-! ### Layout banks and control (20 R403, R404, R406) -/

/-- The bits of a bank's word that are no reserved field. -/
def layoutMask (k : Nat) : W64 :=
  if k < 0x200 then if k % 2 = 0 then ones 64 0 2 ||| ones 64 8 16 else ones 64 32 32
  else match k % 8 with
  | 0 => ones 64 0 1 ||| ones 64 8 21 ||| ones 64 32 14
  | 1 => ones 64 0 10 ||| ones 64 16 11 ||| ones 64 32 6 ||| ones 64 48 15
  | 2 => ones 64 0 20 ||| ones 64 23 19
  | 5 => BitVec.allOnes 64
  | _ => ones 64 0 48
/-- Write a word of a bank: only of the staged one, and only while no commit runs. -/
def State.layoutWrite (s : State) (b : Bool) (k : Nat) (mask v : W64) : State :=
  let l := s.layout
  if b = l.sel || l.phase ≠ .idle then s
  else
    let m := (l.bank b).set k (merge ((l.bank b).at k 0) (layoutMask k) mask v) 0
    { s with layout := if b then { l with bank1 := m } else { l with bank0 := m } }
def Phase.num : Phase → Nat
  | .idle => 0
  | .checking => 1
  | .journalling => 2
  | .flipping => 3
def Layout.control (l : Layout) : W64 := BitVec.ofNat 64 (l.sel.toNat + 4 * l.phase.num + l.err.toNat * 2 ^ 8 + l.seq.toNat * 2 ^ 32)
/-- A write of commit starts a commit; whether flash takes the record is open. -/
def State.commitWrite (s : State) (mask v : W64) : State :=
  if mask.getLsbD 1 && v.getLsbD 1 && s.layout.phase = .idle then
    ({ s with layout := { s.layout with phase := .checking }, fresh := s.fresh + 1 } : State).dueLater (.layoutCommit (Config.flashOk s.fresh))
  else s

/-! ### Stack control and error counts (21 R428, R435) -/

def State.stackWord (s : State) (k : Nat) : W64 :=
  let x := s.stack k
  BitVec.ofNat 64 (x.restored.toNat * 2 ^ 3 + x.train.toNat * 2 ^ 4 + x.owner.toNat * 2 ^ 6 + x.athr.toNat * 2 ^ 16 + x.scrubh.toNat * 2 ^ 40 +
    x.takeovers.toNat * 2 ^ 48)
def clampAthr (n : Nat) : Nat := if n < 256 then 256 else if 32768 < n then 32768 else n
/-- restart and retry act; a retry's outcome is open. -/
def State.stackWrite (s : State) (k : Nat) (mask v : W64) : State :=
  let w := merge (s.stackWord k) (ones 64 16 16 ||| ones 64 40 8) mask v
  let x := s.stack k
  let h := bits w 40 8
  let s := s.setStack k { x with athr := BitVec.ofNat 16 (clampAthr (bits w 16 16)), scrubh := if h = 0 then 1 else BitVec.ofNat 8 h }
  let s := if mask.getLsbD 7 && v.getLsbD 7 && x.owner then s.setStack k { s.stack k with restarting := true } else s
  if mask.getLsbD 8 && v.getLsbD 8 && x.train = 3 then
    ({ s.setStack k { s.stack k with train := 1 } with fresh := s.fresh + 1 } : State).dueLater (.train k (Config.trains s.fresh))
  else s
def State.countWord (s : State) (k j : Nat) : W64 :=
  (List.range 4).foldl (fun w n => setBits w (16 * n) 16 ((s.stack k).counts.at (4 * j + n) 0).toNat) 0
/-- A write to entries clears them (21 R435). -/
def State.countWrite (s : State) (k j : Nat) (mask : W64) : State :=
  (List.range 4).foldl (fun s n => if bits mask (16 * n) 16 = 0 then s else s.clearCount k (4 * j + n)) s

/-! ### Error banks and function counters (22 R445, R448) -/

def State.counterWord (s : State) (f k : Nat) : W64 := (s.fnSt f).counters.at k 0
def State.counterClear (s : State) (f k : Nat) : State := s.setFn f { s.fnSt f with counters := (s.fnSt f).counters.del k }
def State.bankWrite (s : State) (u k : Nat) (mask v : W64) : State :=
  if k = 0 && mask.getLsbD 0 && v.getLsbD 0 then if s.owns .host then s.clearBank u else s.denied else s

/-! ### Energy, module, dirty-log and ephemeris blocks (23 R455, R458, R462, R465) -/

def State.energyWord (s : State) (f k : Nat) : W64 :=
  let x := s.fnSt f
  match k with
  | 0 => BitVec.ofNat 64 (x.pj / 1000)
  | 1 => w64 x.credit
  | 2 => x.budget
  | 3 => BitVec.ofNat 64 (x.window.toNat + x.cut * 2 ^ 32)
  | 4 => BitVec.ofNat 64 (x.rfmcnt.toNat + x.heldcnt.toNat * 2 ^ 32)
  | _ => 0
def State.energyWrite (s : State) (f k : Nat) (mask v : W64) : State :=
  let w := merge (s.energyWord f k) (BitVec.allOnes 64) mask v
  if k = 2 && mask ≠ 0 then s.budgetWrite f none (some w)
  else if k = 3 && bits mask 0 32 ≠ 0 then s.budgetWrite f (some (w.setWidth 32)) none
  else s
def tempWord (m : SMap Byte) (lo n : Nat) : W64 := (List.range n).foldl (fun w d => setBits w (8 * d) 8 (m.at (lo + d) 0).toNat) 0
def State.moduleWord (s : State) (k : Nat) : W64 :=
  let m := s.module
  match k with
  | 0 => BitVec.ofNat 64 (m.cap.toNat + m.power.toNat * 2 ^ 16 + m.mcut * 2 ^ 32)
  | 1 => BitVec.ofNat 64 (m.totalPj / 1000)
  | 2 => tempWord m.stktemp 0 8
  | 3 => tempWord m.stktemp 8 8
  | 4 => tempWord m.dietemp 0 4 ||| BitVec.ofNat 64 (m.tper.toNat * 2 ^ 32)
  | _ => 0
def capStored (n : Nat) : BitVec 16 := if n = 0 || 3200 < n then 3200 else BitVec.ofNat 16 n
def perStored (n : Nat) : BitVec 16 := if n % 2 ^ 16 = 0 then 1 else BitVec.ofNat 16 n
/-- The cap and the sampling period are shared control registers. -/
def State.moduleWrite (s : State) (k : Nat) (mask v : W64) : State :=
  let w := merge (s.moduleWord k) (BitVec.allOnes 64) mask v
  if (k = 0 && bits mask 0 16 ≠ 0) || (k = 4 && bits mask 32 16 ≠ 0) then
    if !s.owns .host then s.denied
    else if k = 0 then { s with module := { s.module with cap := capStored (bits w 0 16) } }
    else { s with module := { s.module with tper := perStored (bits w 32 16) } }
  else s
def State.logWord (s : State) (f k : Nat) : W64 :=
  let x := s.fnSt f
  match k with
  | 0 => BitVec.ofNat 64 (x.ringbase.toNat + x.ringlog.toNat * 2 ^ 48 + x.logEn.toNat * 2 ^ 53 + x.ovf.toNat * 2 ^ 54)
  | 1 => BitVec.ofNat 64 (x.lhead.toNat + x.ltail.toNat * 2 ^ 32)
  | 2 => BitVec.ofNat 64 x.bmbase.toNat
  | 3 => BitVec.ofNat 64 x.ovfcnt.toNat
  | _ => 0
def State.logWrite (s : State) (f k : Nat) (mask v : W64) : State :=
  let x := s.fnSt f
  let w := merge (s.logWord f k) (BitVec.allOnes 64) mask v
  match k with
  | 0 => s.setFn f { x with ringbase := w.setWidth 48, ringlog := BitVec.ofNat 5 (bits w 48 5), logEn := w.getLsbD 53,
                            ovf := x.ovf && !(mask.getLsbD 54 && v.getLsbD 54) }
  | 1 => s.setFn f { x with ltail := BitVec.ofNat 32 (bits w 32 32) }
  | 2 => s.setFn f { x with bmbase := w.setWidth 48 }
  | _ => s
def State.ephWordOf (s : State) (p k : Nat) : W64 :=
  let x := s.part p
  match k with
  | 0 => x.ephBase.setWidth 64
  | 1 => BitVec.ofNat 64 (x.ephDiv.toNat * 2 ^ 46 + x.ephWrap.toNat * 2 ^ 47 + x.ephMode.toNat * 2 ^ 48)
  | 2 => x.ephCap.setWidth 64
  | 3 => x.ephPos
  | _ => 0
def State.ephWrite (s : State) (p k : Nat) (mask v : W64) : State :=
  let w := merge (s.ephWordOf p k) (BitVec.allOnes 64) mask v
  match k with
  | 0 => s.setPart p { s.part p with ephBase := w.setWidth 48 }
  | 1 => if bits mask 48 2 = 0 then s else s.ephModeWrite p (BitVec.ofNat 2 (bits w 48 2))
  | 2 => s.setPart p { s.part p with ephCap := w.setWidth 32 }
  | _ => s

/-! ### The access-control table (18 R379) -/

def aclMask (k : Nat) : W64 :=
  match k with
  | 0 => ones 64 0 12 ||| ones 64 22 14
  | 1 => ones 64 35 29
  | 2 => BitVec.allOnes 64
  | _ => ones 64 0 16
def State.aclWrite (s : State) (j : Nat) (mask v : W64) : State :=
  { s with acl := s.acl.set j (merge (s.acl.at j 0) (aclMask (j % 4)) mask v) 0 }

/-! ### The ownership semaphore (18 R383) -/

def State.semWord (s : State) : W64 :=
  BitVec.ofNat 64 (s.module.semOwner.toNat + s.module.semLost.toNat * 2 ^ 8 + s.module.semDenied.toNat * 2 ^ 9)
/-- A write of the semaphore by a master. -/
def State.semWrite (s : State) (who : Master) (value : W32) : State :=
  let m := s.module
  let m := { m with semLost := m.semLost && !value.getLsbD 8, semDenied := m.semDenied && !value.getLsbD 9 }
  let s : State := { s with module := m }
  let own := m.semOwner.toNat
  match who, bits value 0 2 with
  | .host, 1 => if own = 0 then { s with module := { m with semOwner := 1, semClaim := some s.cycle } } else s
  | .host, 0 => if own = 1 then { s with module := { m with semOwner := 0 } } else s
  | .sideband, 0 => if own = 2 then { s with module := { m with semOwner := 0 } } else s
  | .sideband, 2 =>
    -- the side-band master wins over a claim of the same cycle, and takes nothing from the host then
    if own = 1 && m.semClaim ≠ some s.cycle then ({ s with module := { m with semOwner := 2, semLost := true } } : State).raise 0 0
    else { s with module := { m with semOwner := 2 } }
  | _, _ => s
def execSemaphoreWrite (who : Master) (value : W32) (s : State) : Host.Outcome State Fault Refusal := .next (s.semWrite who value)

/-! ### The map of BAR0 (18 R363) -/

/-- A 64-bit register of BAR0 of physical function 0. -/
inductive RegName where
  | sem
  | vec (v k : Nat)
  | pba (k : Nat)
  | queue (q k : Nat)
  | acl (j : Nat)
  | cue (p k : Nat)
  | bank (b : Bool) (k : Nat)
  | control
  | stack (k : Nat)
  | counts (k j : Nat)
  | error (u k : Nat)
  | counter (f k : Nat)
  | energy (f k : Nat)
  | module (k : Nat)
  | log (f k : Nat)
  | eph (p k : Nat)
  deriving DecidableEq, Repr

/-- The register at an aligned offset, or none where nothing is mapped. -/
def regAt (off : Nat) : Option RegName :=
  let w (base : Nat) : Nat := (off - base) / 8
  let inn (base size : Nat) : Bool := base ≤ off && off < base + size
  if off / 8 = 0x1000 / 8 then some .sem
  else if inn 0x200000 (16 * 2048) then some (.vec (w 0x200000 / 2) (w 0x200000 % 2))
  else if inn 0x210000 256 then some (.pba (w 0x210000))
  else if inn 0x1000000 (64 * 32768) then some (.queue (w 0x1000000 / 8) (w 0x1000000 % 8))
  else if inn 0x2000000 (32 * 4096) then some (.acl (w 0x2000000))
  else if inn 0x3000000 (64 * 256) then some (.cue (w 0x3000000 / 8) (w 0x3000000 % 8))
  else if inn 0x5000000 0x5000 then some (.bank false (w 0x5000000))
  else if inn 0x5008000 0x5000 then some (.bank true (w 0x5008000))
  else if inn 0x6000000 8 then some .control
  else if inn 0x7000000 0x1000 then if (off - 0x7000000) % 0x100 / 8 = 0 then some (.stack ((off - 0x7000000) / 0x100)) else none
  else if inn 0x7001000 (16 * 0x1800) then some (.counts ((off - 0x7001000) / 0x1800) ((off - 0x7001000) % 0x1800 / 8))
  else if inn 0x8000000 (64 * 1089) then some (.error (w 0x8000000 / 8) (w 0x8000000 % 8))
  else if inn 0x9000000 (64 * 256) then some (.counter (w 0x9000000 / 8) (w 0x9000000 % 8))
  else if inn 0xA000000 (64 * 256) then some (.energy (w 0xA000000 / 8) (w 0xA000000 % 8))
  else if inn 0xA004000 64 then some (.module (w 0xA004000))
  else if inn 0xB000000 (64 * 256) then some (.log (w 0xB000000 / 8) (w 0xB000000 % 8))
  else if inn 0xC000000 (64 * 256) then some (.eph (w 0xC000000 / 8) (w 0xC000000 % 8))
  else none
def State.regRead (s : State) : RegName → W64
  | .sem => s.semWord
  | .vec v k => s.vecWord 0 v k
  | .pba k => s.pbaWord 0 k
  | .queue q k => wordOf (s.queue q).ctx k
  | .acl j => s.acl.at j 0
  | .cue p k => s.cueWord p k
  | .bank b k => (s.layout.bank b).at k 0
  | .control => s.layout.control
  | .stack k => s.stackWord k
  | .counts k j => s.countWord k j
  | .error u k => wordOf (s.banks.at u 0) k
  | .counter f k => s.counterWord f k
  | .energy f k => s.energyWord f k
  | .module k => s.moduleWord k
  | .log f k => s.logWord f k
  | .eph p k => s.ephWordOf p k
/-- Write the bits of a mask of a register, as the physical function's driver. -/
def State.regWrite (s : State) (r : RegName) (mask v : W64) : State :=
  match r with
  | .sem => if bits mask 0 16 = 0 then s else s.semWrite .host ((v &&& mask).setWidth 32 ||| if mask.getLsbD 0 then 0 else s.module.semOwner.setWidth 32)
  | .vec n k => s.vecWrite 0 n k mask v
  | .pba _ => s
  | .queue q k =>
    s.ctxWrite q (mask.setWidth 512 <<< (64 * k)) (v.setWidth 512 <<< (64 * k))
  | .acl j => s.aclWrite j mask v
  | .cue p k => s.cueWrite p k mask v
  | .bank b k => s.layoutWrite b k mask v
  | .control => s.commitWrite mask v
  | .stack k => s.stackWrite k mask v
  | .counts k j => s.countWrite k j mask
  | .error u k => s.bankWrite u k mask v
  | .counter f k => if mask = 0 then s else s.counterClear f k
  | .energy f k => s.energyWrite f k mask v
  | .module k => s.moduleWrite k mask v
  | .log f k => s.logWrite f k mask v
  | .eph p k => s.ephWrite p k mask v
/-- One aligned 64-bit register write. -/
def execRegisterWrite (off : Nat) (value : W64) (s : State) : Host.Outcome State Fault Refusal :=
  match (if off % 8 = 0 then regAt off else none) with
  | some r => .next (s.regWrite r (BitVec.allOnes 64) value)
  | none => .next s

end Sys2Proof.Machine
end

