-- ==== Sys2Proof/Machine/Host.lean ====
section
/-!
DEFINITION. The host ports and the side-band port (18 R362, R363, R371, R372, R382, R383): host reads, writes and AtomicOps, the completion of
the device's own AtomicOps (06 R157), resets, control messages, attestation (22 R452), and the links of the second tier (18 R375).
-/
namespace Sys2Proof.Machine

/-! ### Pieces of a request -/

/-- The pieces of `n` bytes from `a` that lie in one aligned unit of `u` bytes. -/
def piecesOf (u a n : Nat) : List (Nat × Nat) :=
  (units u a n).map fun k => (max a (k * u), min (a + n) ((k + 1) * u) - max a (k * u))
/-- Bytes of a request as a number, from the `j`-th. -/
def bytesFrom (data : List Byte) (j n : Nat) : Nat := bytesToNat ((data.drop j).take n)
/-- Report to the host (18 R371): 3 a poisoned TLP, 4 an unsupported request. -/
def State.aer (s : State) (fn kind : Nat) : State := s.emitOut (.aer fn kind)
/-- Unsupported Request: reads and AtomicOps have a completion that says so. -/
def State.unsupported (s : State) (fn : Nat) (reply : Bool) : State :=
  let s := s.aer fn 4
  if reply then s.emitOut (.completion false false []) else s
/-- Charge what a port sends or receives (23 R453 class 13). -/
def State.chargeHost (s : State) (fn n : Nat) : State := s.charge (some fn) 1000 (ceilDiv n 64)

/-! ### Memory behind BAR4 (18 R363; 21 R431) -/

/-- The key of an HBM offset that a trained stack holds. -/
def State.bar4Key (s : State) (off n : Nat) : Option Nat :=
  match stackOf off, stackOf (off + n - 1) with
  | some k, some j => if k = j && (s.stack k).train = 2 then some (keyHbm + off) else none
  | _, _ => none
/-- The key of a piece of a virtual function's window, translated as a device access. -/
def State.windowKey (s : State) (f asid off n : Nat) (acc : Acc) : State × Walked Nat :=
  if 2 ^ 36 < off + n then (s, .fault)
  else match s.devKey f asid off acc with
    | (s, .ok k) => match kindOf k with
      | .peer _ => (s, .fault)
      | _ => (s, .ok k)
    | x => x
/-- The keys of all pieces of a request, unless one maps nothing, or its walk waits. -/
def State.hostKeys (s : State) (loc : HostLoc) (acc : Acc) : List (Nat × Nat) → State × Walked (List (Nat × Nat))
  | [] => (s, .ok [])
  | (a, n) :: l =>
    let (s, k) : State × Walked Nat := match loc with
      | .bar4 _ | .pf1 _ => (s, (s.bar4Key a n).elim .fault .ok)
      | .vfBar4 f asid _ => s.windowKey f asid a n acc
      | _ => (s, .fault)
    match k with
    | .fault => (s, .fault)
    | .held t => (s, .held t)
    | .ok k =>
      match s.hostKeys loc acc l with
      | (s, .ok r) => (s, .ok ((k, n) :: r))
      | x => x
/-- The function on which a request is logged, where 256 stands for physical function 1, and the offset of a request to memory. -/
def hostFn : HostLoc → Nat
  | .pf1 _ => 256
  | .vfBar4 f _ _ | .vfBar0 f _ | .vfDoor f _ => f
  | _ => 0
def hostOff : HostLoc → Nat
  | .bar4 o | .pf1 o | .vfBar4 _ _ o | .bar0 o | .door _ o | .vfDoor _ o | .vfBar0 _ o => o
  | .hostMem a => a

/-! ### Registers by bytes -/

/-- Bit mask and value of the bytes of a write that fall into one aligned word. -/
def byteMask (a n : Nat) : W64 := ones 64 (8 * (a % 8)) (8 * n)
def byteVal (a v : Nat) : W64 := BitVec.ofNat 64 (v * 2 ^ (8 * (a % 8)))
/-- Write the bytes of a request to queue contexts (each context in one step) and to the other registers of BAR0. -/
def State.bar0Write (s : State) (off : Nat) (data : List Byte) : State :=
  if 0x1000000 ≤ off && off < 0x1200000 then
    (piecesOf 64 off data.length).foldl (fun s (a, n) =>
      s.ctxWrite ((a - 0x1000000) / 64) (ones 512 (8 * (a % 64)) (8 * n)) (BitVec.ofNat 512 (bytesFrom data (a - off) n * 2 ^ (8 * (a % 64))))) s
  else
    let ps := piecesOf 8 off data.length
    -- a write that reaches what maps nothing is discarded (18 R363)
    if ps.any fun x => (regAt (x.1 / 8 * 8)).isNone then s.unsupported 0 false
    else ps.foldl (fun s (a, n) =>
      match regAt (a / 8 * 8) with
      | some r => s.regWrite r (byteMask a n) (byteVal a (bytesFrom data (a - off) n))
      | none => s) s
/-- Registers of a virtual function's BAR0. -/
def State.vfRead (s : State) (f off : Nat) : Option W64 :=
  if off < 0x400 then some (s.vecWord f (off / 16) (off / 8 % 2))
  else if off / 8 = 0x800 / 8 then some (s.pbaWord f 0)
  else if 0x1000 ≤ off && off < 0x1040 then some (s.counterWord f ((off - 0x1000) / 8))
  else none
/-- Whether an aligned offset of a virtual function's BAR0 maps a register. -/
def State.vfMaps (s : State) (f a : Nat) : Bool := (s.vfRead f (a / 8 * 8)).isSome
def State.vfWrite (s : State) (f off : Nat) (mask v : W64) : State :=
  if off < 0x400 then s.vecWrite f (off / 16) (off / 8 % 2) mask v
  else if 0x1000 ≤ off && off < 0x1040 then s.counterClear f ((off - 0x1000) / 8)
  else if off / 8 = 0x800 / 8 then s
  else s.aer f 4
/-- The queue whose doorbell page an offset of a virtual function's BAR2 lies in: page i is its i-th queue's (18 R363). -/
def State.vfQueue (s : State) (f a : Nat) : Option Nat :=
  let b := s.layout.active
  let i := a / 4096
  if i < 128 && fnEn b f && i < fnQcnt b f && fnQbase b f + i < 32768 then some (fnQbase b f + i) else none
/-- The word of a register place at an aligned offset. -/
def State.locWord (s : State) (loc : HostLoc) (a : Nat) : Option W64 :=
  match loc with
  | .bar0 _ => (regAt a).map s.regRead
  | .vfBar0 f _ => s.vfRead f a
  | .door q _ => if q < 32768 && a < 4096 then some (if a = 16 then s.qStatus q else 0) else none
  | .vfDoor f _ => (s.vfQueue f a).map fun q => if a % 4096 = 16 then s.qStatus q else 0
  | _ => none
/-- The bytes of a read of registers, or none where a byte maps nothing. -/
def State.regBytes (s : State) (loc : HostLoc) (off n : Nat) : Option (List Byte) :=
  (List.range n).foldl (fun l j =>
    match l, s.locWord loc ((off + j) / 8 * 8) with
    | some l, some w => some (l ++ [BitVec.ofNat 8 (bits w (8 * ((off + j) % 8)) 8)])
    | _, _ => none) (some [])

/-! ### Requests at the controllers (21 R436, R437) -/

/-- Hold what the host or a peer asks until a cycle: `id` is its number once it has been held. -/
def State.outsideAt (s : State) (id : Option Nat) (f : Nat) (ps : List (Nat × Nat)) (i : OuterReq) (t : Nat) : State :=
  let n := id.getD s.nextId
  ({ s with nextId := if id.isNone then n + 1 else s.nextId } : State).holdAt { id := n, fn := f, places := ps, again := some i } t
/-- What the host or a peer asks goes on at the controllers, or is held there; what is sent for one function keeps its order. -/
def State.outside (s : State) (id : Option Nat) (f : Nat) (ps : List (Nat × Nat)) (i : OuterReq) (go : State → State) : State :=
  match s.holdFor id f ps true with
  | some t => s.outsideAt id f ps i t
  | none => go ((id.map s.unhold).getD s)
/-- A host request to memory: unsupported, held, or performed at its places. -/
def State.hostAsks (s : State) (id : Option Nat) (loc : HostLoc) (acc : Acc) (ps : List (Nat × Nat)) (reply : Bool) (i : OuterReq)
    (go : State → List (Nat × Nat) → State) : State :=
  let f := hostFn loc
  match s.holdFor id f [] true with
  | some t => s.outsideAt id f [] i t
  | none => match s.hostKeys loc acc ps with
    | (s, .fault) => ((id.map s.unhold).getD s).unsupported f reply
    | (s, .held t) => s.outsideAt id f [] i t
    | (s, .ok ks) => s.outside id f ks i fun s => go s ks

/-! ### Host writes -/

/-- Write memory behind a BAR; poisoned data is stored as poison. -/
def State.memWrite (s : State) (id : Option Nat) (loc : HostLoc) (data : List Byte) (bad : Bool) : State :=
  let f := hostFn loc
  s.hostAsks id loc .store (piecesOf 64 (hostOff loc) data.length) false (.write loc data bad) fun s ks =>
    let s := s.chargeHost f data.length
    let (s, _) := ks.foldl (fun (s, j) (k, n) => ((s.access (some f) k n true).writeHome none k n (bytesFrom data j n) false bad, j + n)) (s, 0)
    if bad then s.aer f 3 else s
/-- A doorbell write has 4 bytes; other offsets and sizes have no effect. -/
def State.doorWrite (s : State) (q off : Nat) (data : List Byte) : Host.Outcome State Fault Refusal :=
  let v : W32 := BitVec.ofNat 32 (bytesToNat data)
  if data.length ≠ 4 then .next s
  else if off = 0 then execDoorbellTail q v s
  else if off = 8 then execDoorbellCplhead q v s
  else .next s
/-- Registers of a virtual function: a write that reaches what maps nothing is discarded. -/
def State.vfRegs (s : State) (f off : Nat) (data : List Byte) : State :=
  let ps := piecesOf 8 off data.length
  if ps.any fun x => !s.vfMaps f x.1 then s.unsupported f false
  else ps.foldl (fun s (a, n) => s.vfWrite f (a / 8 * 8) (byteMask a n) (byteVal a (bytesFrom data (a - off) n))) s
/-- A write of the host to the device's registers. -/
def State.hostRegs (s : State) (loc : HostLoc) (data : List Byte) (poisoned : Bool) : Host.Outcome State Fault Refusal :=
  if poisoned then .next (s.aer (hostFn loc) 3)
  else match loc with
  | .bar0 off => .next (s.bar0Write off data)
  | .door q off => s.doorWrite q off data
  | .vfDoor f off => match s.vfQueue f off with
    | some q => s.doorWrite q (off % 4096) data
    | none => .next (s.unsupported f false)
  | .vfBar0 f off => .next (s.vfRegs f off data)
  | _ => .next s
/-- The host writes. A poisoned write to registers is dropped and reported. A write comes after those for the same function that a controller
holds (18 R372). -/
def State.hostWrite (s : State) (id : Option Nat) (loc : HostLoc) (data : List Byte) (poisoned : Bool) : Host.Outcome State Fault Refusal :=
  match loc with
  | .hostMem a =>
    .next ((piecesOf 64 a data.length).foldl (fun s (b, n) =>
      if poisoned then s.writePoison none (keyHost + b) n (bytesFrom data (b - a) n)
      else s.write none (keyHost + b) n (bytesFrom data (b - a) n)) s)
  | _ =>
    if s.module.dead then .next (s.unsupported (hostFn loc) false)
    else match loc with
    | .bar4 _ | .pf1 _ | .vfBar4 .. => .next (s.memWrite id loc data poisoned)
    | _ => match s.holdFor id (hostFn loc) [] true with
      | some t => .next (s.outsideAt id (hostFn loc) [] (.write loc data poisoned) t)
      | none => ((id.map s.unhold).getD s).hostRegs loc data poisoned
def execHostWrite (loc : HostLoc) (data : List Byte) (poisoned : Bool) (s : State) : Host.Outcome State Fault Refusal := s.hostWrite none loc data poisoned

/-! ### Host reads and AtomicOps -/

/-- The completion of a read of memory: with EP, and undefined bytes, when a byte of it is poisoned. -/
def State.memRead (s : State) (id : Option Nat) (loc : HostLoc) (len : Nat) : State :=
  let f := hostFn loc
  s.hostAsks id loc .load (piecesOf 64 (hostOff loc) len) true (.read loc len) fun s ks =>
    let s := s.chargeHost f len
    let (s, bytes, bad) := ks.foldl (fun (s, l, b) (k, n) =>
      match (s.access (some f) k n false).readHome k n with
      | (s, v, p) => (s, l ++ natToBytes n v, b || p.isSome)) (s, ([] : List Byte), false)
    if bad then
      let junk := (List.range len).map fun j => BitVec.ofNat 8 (bits (Config.freeValue (s.fresh + j / 64)) (8 * (j % 64)) 8)
      ({ s with fresh := s.fresh + len / 64 + 1 } : State).emitOut (.completion true true junk)
    else s.emitOut (.completion true false bytes)
/-- The host reads; it reads its own memory without the device. -/
def State.hostRead (s : State) (id : Option Nat) (loc : HostLoc) (len : Nat) : State :=
  match loc with
  | .hostMem _ => s
  | _ =>
    if s.module.dead then s.unsupported (hostFn loc) true
    else match loc with
    | .bar4 _ | .pf1 _ | .vfBar4 .. => s.memRead id loc len
    | _ => s.outside id (hostFn loc) [] (.read loc len) fun s =>
      match s.regBytes loc (hostOff loc) len with
      | some l => s.emitOut (.completion true false l)
      | none => s.unsupported (hostFn loc) true
def execHostRead (loc : HostLoc) (len : Nat) (s : State) : Host.Outcome State Fault Refusal := .next (s.hostRead none loc len)
/-- FetchAdd, Swap and CAS of 4 or 8 aligned bytes of memory; anything else is unsupported. -/
def State.hostAtomic (s : State) (id : Option Nat) (loc : HostLoc) (op size : Nat) (x y : W64) : State :=
  let f := hostFn loc
  if s.module.dead || !(op = 0 || op = 8 || op = 9) || !(size = 4 || size = 8) || hostOff loc % size ≠ 0 then s.unsupported f true
  else s.hostAsks id loc .rmw [(hostOff loc, size)] true (.atomic loc op size x y) fun s ks =>
    let (k, n) := ks.headD (0, 0)
    match ((s.chargeHost f n).access (some f) k n true).amoHome none k n op x y with
    | (s, v, none) => s.emitOut (.completion true false (natToBytes n v))
    | (s, _, some _) => ({ s with fresh := s.fresh + 1 } : State).emitOut (.completion true true (natToBytes n (Config.freeValue s.fresh).toNat))
def execHostAtomicop (loc : HostLoc) (op size : Nat) (x y : W64) (s : State) : Host.Outcome State Fault Refusal := .next (s.hostAtomic none loc op size x y)

/-! ### The device's own AtomicOps (06 R157) -/

/-- A trap at the instruction of a request: of the parked thread; of a thread that a posted request left running, at its next boundary, by the
step `later`; of a saved one after its restore, by the same step. -/
def State.trapReply (s : State) (r : Req) (id : Nat) (x : Trap) (later : Due) : State :=
  let c := r.cell
  let i := r.slot
  let gone : State := { s with reqs := s.reqs.del id }
  if r.dead then gone
  else match s.home c i r.fn with
    | .gone => gone
    | .image _ => s.dueLater later
    | .live =>
      if (s.th c i).wait = some (.reply id) then (gone.ready c i).takeTrap c i x
      else if !r.posted then gone
      else if s.atBoundary c i then (gone.abandon c i).1.takeTrap c i x
      else s.dueLater later
/-- The host has completed an AtomicOp of a thread, or refused it. -/
def State.atomicDone (s : State) (req : Nat) (r : Req) (ok : Bool) : State :=
  match kindOf r.key, r.op with
  | .host, .amo op n b c _ =>
    if ok then
      let old := readNat s.mem r.key n
      let bad := s.poisonAt r.key n
      let s := match bad, amoNew op n old b c with
        | none, some v => s.write none r.key n v
        | _, _ => s
      let r := { r with done := some (BitVec.ofNat 512 old), poisoned := bad.isSome, pva := r.va + bad.getD 0 }
      if !r.posted then s.replyTo req r
      else if r.poisoned && !r.dead then (s.ackDone req r).killPoison r.cell r.slot r.pva
      else s.ackDone req r
    else s.trapReply r req ⟨0x0D, 3, BitVec.ofNat 96 r.va, false⟩ (.hostDone req)
  | _, _ => s

/-! ### Resets (18 R383; 22 R451) -/

/-- The machine after a package reset: what flash and memory hold stays, and the numbers by which free values and requests are told apart; and each
firmware boots. -/
def State.packageReset (s : State) : State :=
  State.boot { State.reset with
    mem := s.mem, tags := s.tags, poison := s.poison, emptyW := s.emptyW
    layout := { State.reset.layout with intent := s.layout.intent }
    hbms := s.hbms.filterMap fun (k, x) => x.record.map fun r => (k, { record := some r })
    module := { State.reset.module with
                  ownerKey := s.module.ownerKey, minVersion := s.module.minVersion, images := s.module.images,
                  stktemp := s.module.stktemp, dietemp := s.module.dietemp }
    out := s.out, fresh := s.fresh, nextId := s.nextId }
/-- A reset that the side-band master writes leaves the semaphore's owner as it was (18 R383). -/
def State.sidebandReset (s : State) : State :=
  let t := s.packageReset
  { t with module := { t.module with semOwner := s.module.semOwner } }
/-- What memory holds when the power comes on (log entry 2). -/
def State.powerLost (s : State) : State :=
  { s with mem := State.reset.mem, tags := State.reset.tags, poison := State.reset.poison, emptyW := State.reset.emptyW }
/-- Power-on or package reset: every register takes its reset value and each firmware boots (22 R451). -/
def execPackageReset (powerOn : Bool) (s : State) : Host.Outcome State Fault Refusal :=
  .next (if powerOn then s.powerLost.packageReset else s.packageReset)
/-- The side-band master resets the package. -/
def execSidebandReset (s : State) : Host.Outcome State Fault Refusal := .next s.sidebandReset

/-! ### Side-band messages and attestation (18 R382; 22 R451, R452) -/

def State.reply (s : State) (l : List W64) : State := s.emitOut (.pldmReply l)
/-- A control message. With no verified firmware only an update is answered. -/
def execPldmRequest (msg : PldmMsg) (s : State) : Host.Outcome State Fault Refusal :=
  match msg with
  | .update f x => .next (if 1 ≤ f && f ≤ 3 then s.updateImage f x else s)
  | _ =>
    if s.module.dead then .next s
    else match msg with
    | .discovery => .next (s.reply [])
    | .readBank u => .next (s.reply ((List.range 8).map (wordOf (s.banks.at u 0))))
    | .powerCap w => .next { s with module := { s.module with cap := capStored w } }
    | .packageReset => .next s.sidebandReset
    | .sensor => .next (s.reply ((List.range 5).map s.moduleWord))
    | .clearBank u => .next (if s.owns .sideband then s.clearBank u else s.denied)
    | .telemetry p => .next (if s.owns .sideband then { s with module := { s.module with tper := perStored p } } else s.denied)
    | .semaphore => .next (s.reply [s.semWord])
    | .fabric id routes => .next { s with fabricId := id, routes := routes.foldl (fun m x => m.put x.1 x.2) s.routes }
    | .block x => .next (s.configBlock x)
    | .update .. => .next s
/-- The measurement of an index as it stands; before anything has become active, as the machine came out of its first boot. -/
def State.measurement (s : State) (n : Nat) : W512 :=
  s.module.measured.at n (if n = 5 then layoutDigest State.reset.layout else if n = 6 then sha512 []
    else State.reset.boot.module.measured.at n (keyDigest State.reset.module.ownerKey))
/-- The bytes of a report that the identity key signs. -/
def reportBytes (l : List (Nat × W512)) : List Byte := l.flatMap fun (n, d) => BitVec.ofNat 8 n :: natBE 64 d.toNat
/-- A report carries measurements as they stand in the cycle in which it is signed. -/
def State.report (s : State) (doe : Bool) (ns : List Nat) : State :=
  let l := ns.map fun n => (n, s.measurement n)
  s.emitOut (.spdm doe l (Config.identitySign (reportBytes l)))
/-- An attestation request; with no verified firmware none is answered (22 R451). -/
def execSpdmRequest (msg : SpdmMsg) (s : State) : Host.Outcome State Fault Refusal :=
  .next (if s.module.dead then s
    else if msg.index = 0 then s.emitOut (.spdmChain msg.doe Config.certChain)
    else if msg.index ≤ 6 then s.report msg.doe [msg.index]
    else if msg.index = 255 then s.report msg.doe [1, 2, 3, 4, 5, 6] else s)

/-! ### Links of the second tier (18 R375) -/

def execTier2LinkDown (port : Nat) (s : State) : Host.Outcome State Fault Refusal :=
  .next (if port < 8 then { s with linksDown := setAdd s.linksDown port } else s)
def execTier2LinkUp (port : Nat) (s : State) : Host.Outcome State Fault Refusal := .next { s with linksDown := setDel s.linksDown port }

end Sys2Proof.Machine
end

