-- ==== Sys2Proof/Machine/Fabric.lean ====
section
/-!
DEFINITION. The scale-up fabric (18 R376-R381): flits and the messages in them, requests of peers under the access-control table, and the
responses to the device's own requests with their time limit.
-/
namespace Sys2Proof.Machine

/-! ### Flits received (18 R376, R377) -/

/-- Whether a receiver performs a message: a known operation, no reserved bit, and its own id. -/
def State.known (s : State) (m : FabMsg) : Bool := m.op ≤ 8 && !m.resv && m.dst = s.fabricId.toNat
def State.portErr (s : State) (port : Nat) (uc : Bool) : State := s.errOpen (1070 + port) 8 uc none
/-- What an acknowledgment does: flits up to it leave the retry buffer, and messages that waited are sent. One that stands still while flits are
unacknowledged shows that a flit was not received intact: they are sent again (DEDUCED, log entry 55). -/
def State.heardAck (s : State) (port ack : Nat) : State :=
  let x := s.ports.at port {}
  if x.retry.any fun y => y.1 = ack then
    let x := { x with retry := (x.retry.dropWhile fun y => y.1 != ack).tail, heard := ack }
    ({ s with ports := s.ports.set port x {} } : State).sendWaiting port x.waiting.length
  else if x.heard = ack then x.retry.foldl (fun s y => s.emitOut (.replay port y.2)) s
  else s
/-- A flit arrives: one that fails its CRC, or is out of sequence, is dropped; the sender replays it. -/
def execFlitReceive (port : Nat) (flit : BitVec 2048) (s : State) : Host.Outcome State Fault Refusal :=
  if 18 ≤ port then .next s
  else if !flitCrcOk flit then .next (s.portErr port false)
  else
    let x := s.ports.at port {}
    let cls := bits flit 24 4
    let fits : Bool := flitSeq flit = (x.ack + 1) % 4096
    let ms := if fits then flitMsgs flit 15 0 else []
    let x := { x with
      credits := if fits && cls < 3 then x.credits.set cls (x.credits.at cls 0 + bits flit 28 4) 0 else x.credits
      owed := ms.foldl (fun o m => o.set (msgClass m.op) (o.at (msgClass m.op) 0 + 1) 0) x.owed
      ack := if fits then flitSeq flit else x.ack }
    let s := ({ s with ports := s.ports.set port x {} } : State).heardAck port (flitAck flit)
    .next (ms.foldl (fun s m => if s.known m then s.dueNow (.fabric port m) else s.portErr port true) s)

/-! ### The access-control table (18 R379) -/

def aclWord (s : State) (n k : Nat) : W64 := s.acl.at (4 * n + k) 0
def aclBase (s : State) (n : Nat) : Nat := bits (aclWord s n 1) 48 16 + bits (aclWord s n 2) 0 32 * 2 ^ 16
def aclLen (s : State) (n : Nat) : Nat := bits (aclWord s n 2) 32 32 + bits (aclWord s n 3) 0 16 * 2 ^ 32
def aclAsid (s : State) (n : Nat) : Nat := bits (aclWord s n 1) 35 13
/-- A valid entry whose source matches and that carries a permission: 31 read, 32 write, 33 atomic, 34 launch. -/
def aclMatch (s : State) (n perm : Nat) (m : FabMsg) : Bool :=
  let w := aclWord s n 0
  w.getLsbD 35 && bits w 0 12 = m.src && (w.getLsbD 30 || bits w 22 8 = m.svf) && w.getLsbD perm
/-- The entry that allows a memory request. -/
def State.aclFind (s : State) (perm : Nat) (m : FabMsg) : Option Nat :=
  (List.range 4096).find? fun n => aclMatch s n perm m && aclBase s n ≤ m.addr && m.addr + m.bytes ≤ aclBase s n + aclLen s n

/-! ### Responses to peers (18 R378) -/

def stDone : Nat := 0
def stDenied : Nat := 1
def stFull : Nat := 2
def stPoison : Nat := 3
/-- Answer a request; what is sent is charged to a function (23 R453 class 14). -/
def State.respond (s : State) (f : Option Nat) (m : FabMsg) (status len : Nat) (data : Nat) : State :=
  let r : FabMsg := { op := m.op + 4, sub := status, addr := m.addr, bytes := if m.op = 4 then 64 else m.bytes, src := m.dst, dst := m.src, tag := m.tag, svf := m.svf,
                      len := len, data := BitVec.ofNat 512 data }
  (s.charge f 500 (1 + len)).send r
/-- Whether the shape of a memory request is wrong: its answer is a refusal, recorded at the port. -/
def memShapeBad (m : FabMsg) : Bool := m.bytes = 0 || 64 < m.bytes || m.addr % 64 + m.bytes > 64
def atomShapeBad (m : FabMsg) : Bool := memShapeBad m || !(m.bytes = 4 || m.bytes = 8) || m.addr % m.bytes ≠ 0 || 9 < m.sub
/-- The place of a memory request, with its function, unless no entry allows it, its translation fails, or the walk waits. -/
def State.peerKey (s : State) (perm : Nat) (acc : Acc) (m : FabMsg) : State × Walked (Nat × Nat) :=
  match s.aclFind perm m with
  | none => (s, .fault)
  | some n =>
    match s.owner (aclAsid s n) with
    | none => (s, .fault)
    | some f =>
      match s.devKey f (aclAsid s n) m.addr acc with
      | (s, .ok k) => match kindOf k with
        | .peer _ => (s, .fault)
        | _ => (s, .ok (k, f))
      | (s, .fault) => (s, .fault)
      | (s, .held t) => (s, .held t)
/-- A memory request of a peer: refused, held at a controller, or performed. -/
def State.peerAsks (s : State) (id : Option Nat) (perm : Nat) (acc : Acc) (m : FabMsg) (i : OuterReq) (go : State → Nat → Nat → State) : State :=
  match s.peerKey perm acc m with
  | (s, .fault) => ((id.map s.unhold).getD s).respond none m stDenied 0 0
  | (s, .held t) => s.outsideAt id 0 [] i t
  | (s, .ok (k, f)) => s.outside id f [(k, m.bytes)] i fun s => go s k f
def State.fabricRead (s : State) (id : Option Nat) (port : Nat) (msg : FabMsg) : State :=
  if memShapeBad msg then (s.portErr port true).respond none msg stDenied 0 0
  else s.peerAsks id 31 .load msg (.peerRead port msg) fun s k f =>
    match (s.access (some f) k msg.bytes false).readHome k msg.bytes with
    | (s, v, none) => s.respond (some f) msg stDone (ceilDiv msg.bytes 16) v
    | (s, _, some _) => s.respond (some f) msg stPoison 0 0
def execFabricRead (port : Nat) (msg : FabMsg) (s : State) : Host.Outcome State Fault Refusal := .next (s.fabricRead none port msg)
def State.fabricWrite (s : State) (id : Option Nat) (port : Nat) (msg : FabMsg) : State :=
  if memShapeBad msg then (s.portErr port true).respond none msg stDenied 0 0
  else s.peerAsks id 32 .store msg (.peerWrite port msg) fun s k f =>
    ((s.access (some f) k msg.bytes true).writeHome none k msg.bytes (msg.data.toNat % 2 ^ (8 * msg.bytes)) false false).respond (some f) msg stDone 0 0
def execFabricWrite (port : Nat) (msg : FabMsg) (s : State) : Host.Outcome State Fault Refusal := .next (s.fabricWrite none port msg)
/-- A peer's atomic; one on host memory is a PCIe AtomicOp, which the host performs (06 R157; log entry 40). -/
def State.fabricAtomic (s : State) (id : Option Nat) (port : Nat) (msg : FabMsg) : State :=
  if atomShapeBad msg then (s.portErr port true).respond none msg stDenied 0 0
  else s.peerAsks id 33 .rmw msg (.peerAtomic port msg) fun s k f =>
    let s := s.access (some f) k msg.bytes true
    let b := wordOf msg.data 0
    let c := wordOf msg.data 1
    if kindOf k = .host then
      if !(msg.sub = 0 || msg.sub = 8 || msg.sub = 9) then s.respond (some f) msg stDenied 0 0
      else
        let n := s.nextId
        let r : Req := { cell := 0, slot := 0, fn := f, va := msg.addr, key := k, op := .amo msg.sub msg.bytes b c (.s 0), asked := some msg, sent := s.cycle }
        ({ s with reqs := s.reqs.put n r, nextId := n + 1 } : State).emitOut (.hostAtomic n (k - keyHost) msg.sub msg.bytes b c)
    else match s.amoHome none k msg.bytes msg.sub b c with
      | (s, v, none) => s.respond (some f) msg stDone 1 v
      | (s, _, some _) => s.respond (some f) msg stPoison 0 0
def execFabricAtomic (port : Nat) (msg : FabMsg) (s : State) : Host.Outcome State Fault Refusal := .next (s.fabricAtomic none port msg)
/-- The host has completed the AtomicOp of a peer, or refused it. -/
def State.askedDone (s : State) (req : Nat) (r : Req) (m : FabMsg) (ok : Bool) : State :=
  let s : State := { s with reqs := s.reqs.del req }
  if !ok then s.respond (some r.fn) m stDenied 0 0
  else
    let old := readNat s.mem r.key m.bytes
    match s.poisonAt r.key m.bytes with
    | some _ => s.respond (some r.fn) m stPoison 0 0
    | none =>
      let s := match r.op with
        | .amo op n b c _ => match amoNew op n old b c with
          | some v => s.write none r.key n v
          | none => s
        | _ => s
      s.respond (some r.fn) m stDone 1 old
/-- The status of a launch, with the packet appended when it is accepted (18 R381), unless its write waits. -/
def State.peerLaunch (s : State) (m : FabMsg) : State × Walked Nat :=
  let q := m.addr % 2 ^ 15
  let x := s.queue q
  let ok := (List.range (qAclcnt x.ctx)).any fun j => qAclbase x.ctx + j < 4096 && aclMatch s (qAclbase x.ctx + j) 34 m
  if !ok || x.killed || x.closed then (s, .ok stDenied)
  else if 2 ^ qLogsize x.ctx ≤ x.depth then (s, .ok stFull)
  else match s.appendHw q m.data.toNat with
    | (s, .ok ()) => (s, .ok stDone)
    | (s, .fault) => (s, .ok stDenied)
    | (s, .held t) => (s, .held t)
def State.fabricLaunch (s : State) (id : Option Nat) (port : Nat) (msg : FabMsg) : State :=
  let f := qVf (s.queue (msg.addr % 2 ^ 15)).ctx
  if msg.bytes ≠ 64 then (s.portErr port true).respond none msg stDenied 0 0
  else match s.holdFor id f [] true with
  | some t => s.outsideAt id f [] (.peerLaunch port msg) t
  | none =>
    match s.peerLaunch msg with
    | (s, .held t) => s.outsideAt id f [] (.peerLaunch port msg) t
    | (s, .ok st) => ((id.map s.unhold).getD s).respond (some f) msg st 0 0
    | (s, .fault) => ((id.map s.unhold).getD s).respond (some f) msg stDenied 0 0
def execFabricLaunch (port : Nat) (msg : FabMsg) (s : State) : Host.Outcome State Fault Refusal := .next (s.fabricLaunch none port msg)

/-! ### Responses from peers (18 R380, R381) -/

/-- The detail of a page fault or of an engine's early end for a status. -/
def statusDetail (status : Nat) : Nat := if status = stPoison then 7 else 5
/-- All parts of a request are answered. -/
def Req.answered (r : Req) : Bool := r.peers.all fun x => r.got.contains x.1
def Req.isStore (r : Req) : Bool := match r.op with
  | .store .. | .vstore .. => true
  | _ => false
/-- Every peer has answered: the elements of a vector access that lie elsewhere are read or written, and the request is acknowledged or its
value delivered. -/
def State.peerEnd (s : State) (id : Nat) (r : Req) : State :=
  let s := match r.op with
    | .vload es n _ => s.readElems id r es n
    | .vstore es n v => if r.done.isNone then s.writeElems r es n v else s
    | _ => s
  let r := (s.reqs.look id).getD r
  if r.posted then s.ackDone id r else s.replyTo id r
/-- A piece of an engine operation's request. -/
def State.enginePiece (s : State) (id n : Nat) (r : Req) (status : Nat) (v : W512) : State :=
  let s : State := { s with reqs := s.reqs.del id }
  match s.op n with
  | none => s.gangGot n r.key (if status = stDone then some v else none)
  | some o =>
    let o := if o.peer = some id then { o with peer := none } else o
    if keyLaunch ≤ r.key then
      if status = stDone then s.copyDone n o else s.opEnd n o (some (0x0B, if status = stFull then 8 else statusDetail status, r.va))
    else if status ≠ stDone then s.opEnd n o (some (0x0B, statusDetail status, r.va))
    else if r.posted then
      let s := s.setOp n o
      -- the bytes of a copy's segment count when the peer has written them (07 R189)
      match r.op with
      | .store k _ _ => if isCopy o.kind then s.countBytes o k else s
      | _ => s
    else
      let o := { o with fetched := o.fetched ++ [(r.key, v)] }
      (s.setOp n o).dueNow (o.work n)
/-- A write that is refused or times out counts as acknowledged and is recorded in the cell's bank, with the cause and detail of the refusal as
syndrome and the address (18 R380, 22 R445). It lies in no function's data of this device, so the error is shared (22 R449). -/
def State.lostWrite (s : State) (r : Req) (syn : Nat) : State := s.err ⟨r.cell, 8, true, none, r.va, syn⟩
/-- Part `k` of a thread's request is answered: its bytes, and their place in the value. -/
def State.threadPiece (s : State) (id : Nat) (r : Req) (k n b status : Nat) (v : W512) : State :=
  if r.posted || r.isStore then
    let s := if status = stDone || r.op = .flush then s else s.lostWrite r (0x0B + statusDetail status * 2 ^ 8)
    let r := { r with got := r.got ++ [k] }
    let s : State := { s with reqs := s.reqs.put id r }
    if r.answered then s.peerEnd id r else s
  else if status ≠ stDone then
    let r := { r with fail := some (statusDetail status), va := r.vaAt b }
    ({ s with reqs := s.reqs.put id r } : State).trapReply r id ⟨0x0B, statusDetail status, BitVec.ofNat 96 r.va, false⟩ (.peerTimeout id)
  else
    let r := { r with got := r.got ++ [k], done := some (setBits (r.done.getD 0) (8 * b) (8 * n) v.toNat) }
    let s : State := { s with reqs := s.reqs.put id r }
    if r.answered then s.peerEnd id r else s
/-- The request of the device that a response answers, with the part: the first of its address that is not answered yet, since a peer answers in
order (18 R377). -/
def State.answers (s : State) (m : FabMsg) : Option (Nat × Req × Nat × Nat × Nat) :=
  s.reqs.findSome? fun (id, r) =>
    if id % 4096 ≠ m.tag || r.key < keyPeer then none
    else if keyLaunch ≤ r.key then
      if m.op = 8 && (r.key - keyLaunch) / 2 ^ 48 = m.src then some (id, r, 0, 64, 0) else none
    else (r.peers.find? fun (k, a, _, _) => peerDev a = m.src && peerAddr a = m.addr && !r.got.contains k).map fun (k, _, n, b) => (id, r, k, n, b)
/-- A response of a peer; one that answers nothing is dropped. -/
def execFabricResponse (port : Nat) (msg : FabMsg) (s : State) : Host.Outcome State Fault Refusal :=
  match s.answers msg with
  | none => .next (s.portErr port true)
  | some (id, r, k, n, b) =>
    match r.engine with
    | some o => .next (s.enginePiece id o r msg.sub msg.data)
    | none => .next (s.threadPiece id r k n b msg.sub msg.data)
/-- A request has had no response within 2^20 cycles. -/
def execPeerTimeout (req : Nat) (s : State) : Host.Outcome State Fault Refusal :=
  match s.reqs.look req with
  | none => .next s
  | some r =>
    if r.key < keyPeer || s.cycle < r.sent + 2 ^ 20 then .next s
    else match r.engine with
      | some n =>
        let s : State := { s with reqs := s.reqs.del req }
        match s.op n with
        | some o => .next (s.opEnd n { o with peer := if o.peer = some req then none else o.peer } (some (0x0B, 6, r.va)))
        | none => .next (s.gangGot n r.key none)
      | none =>
        if r.posted || r.isStore then .next ((if r.op = .flush then s else s.lostWrite r (0x0B + 6 * 2 ^ 8)).peerEnd req r)
        else
          let k := r.fail.getD 6
          .next (s.trapReply r req ⟨0x0B, k, BitVec.ofNat 96 r.va, false⟩ (.peerTimeout req))

/-! ### The end of a wait at a controller (21 R436, R437), and the host's answer to an AtomicOp (06 R157) -/

/-- A held request goes on once its wait is over. -/
def execThrottleRelease (req : Nat) (s : State) : Host.Outcome State Fault Refusal :=
  match s.throttled.find? fun h => h.id = req with
  | none => .next s
  | some h =>
    match h.again with
    | some (.write l d p) => s.hostWrite (some req) l d p
    | some (.read l n) => .next (s.hostRead (some req) l n)
    | some (.atomic l op n x y) => .next (s.hostAtomic (some req) l op n x y)
    | some (.peerRead p m) => .next (s.fabricRead (some req) p m)
    | some (.peerWrite p m) => .next (s.fabricWrite (some req) p m)
    | some (.peerAtomic p m) => .next (s.fabricAtomic (some req) p m)
    | some (.peerLaunch p m) => .next (s.fabricLaunch (some req) p m)
    | none =>
      match s.reqs.look req with
      | none => .next s
      | some r =>
        match r.op with
        | .commit _ => .next s
        | .fe .. => .next (s.feArrive req)
        | _ =>
          match s.performOr req r with
          | (s, false) => .next s
          | (s, true) => .next (s.dueNow (if r.posted then .ack req else .reply req))
/-- The host has completed an AtomicOp, or refused it. -/
def execHostAtomicCompletion (req : Nat) (ok : Bool) (s : State) : Host.Outcome State Fault Refusal :=
  match s.reqs.look req with
  | none => .next s
  | some r =>
    match r.asked with
    | some m => .next (s.askedDone req r m ok)
    | none => .next (s.atomicDone req r ok)

end Sys2Proof.Machine
end

