-- ==== Sys2Proof/Machine/Fpu.lean ====
section
/-!
DEFINITION. The scalar floating instructions (04 R106-R109). M[3:0] names the format.
-/
namespace Sys2Proof.Machine

def fpuFmt (f : Fields) : Fmt := fmtOf (f.m.toNat % 16)
/-- Write a result, its higher bits zero, and add its flags. -/
def fpuRes (f : Fields) (s : State) (c i : Nat) (x : Nat × Flags) : Res :=
  .ok ((s.modTh c i (·.flag x.2)).writeD c i f.d (BitVec.ofNat 64 x.1))
def fpu2 (g : Fmt → Nat → Nat → Nat → Nat × Flags) (f : Fields) : Body := fun s c i e =>
  fpuRes f s c i (g (fpuFmt f) (s.th c i).rnd e.a.data.toNat e.b.data.toNat)
/-- `fpu.cvt` (04 R109): formats 3 int32, 4 int64, 5 to 8 floating. -/
def fpuCvt (src dst rnd : Nat) (a : W64) : W64 × Flags :=
  let w (t : Nat) : Nat := if t = 3 then 32 else 64
  if src ≤ 4 then
    let (r, g) := (fmtOf dst).ofInt rnd (sext (w src) a.toNat)
    (BitVec.ofNat 64 r, g)
  else
    let v := (fmtOf src).decode a.toNat
    if dst ≤ 4 then
      let (r, g) := fToInt rnd (-(2 ^ (w dst - 1))) (2 ^ (w dst - 1) - 1) v
      (w64 r, g)
    else
      let (r, g) := (fmtOf dst).round rnd v
      (BitVec.ofNat 64 r, g)

def execFpuAdd (f : Fields) (s : State) : Host.Outcome State Fault Refusal := .next (runThread (.fpuAdd f) (fpu2 Fmt.fadd) s)
def execFpuSub (f : Fields) (s : State) : Host.Outcome State Fault Refusal := .next (runThread (.fpuSub f) (fpu2 Fmt.fsub) s)
def execFpuMul (f : Fields) (s : State) : Host.Outcome State Fault Refusal := .next (runThread (.fpuMul f) (fpu2 Fmt.fmul) s)
def execFpuDiv (f : Fields) (s : State) : Host.Outcome State Fault Refusal := .next (runThread (.fpuDiv f) (fpu2 Fmt.fdiv) s)
def execFpuMin (f : Fields) (s : State) : Host.Outcome State Fault Refusal := .next (runThread (.fpuMin f) (fpu2 fun t _ a b => t.fminmax false a b) s)
def execFpuMax (f : Fields) (s : State) : Host.Outcome State Fault Refusal := .next (runThread (.fpuMax f) (fpu2 fun t _ a b => t.fminmax true a b) s)
def execFpuSqrt (f : Fields) (s : State) : Host.Outcome State Fault Refusal := .next (runThread (.fpuSqrt f) (fun f s c i e => fpuRes f s c i ((fpuFmt f).fsqrt (s.th c i).rnd e.a.data.toNat)) s)
def execFpuCmp (f : Fields) (s : State) : Host.Outcome State Fault Refusal := .next (runThread (.fpuCmp f) (fun f s c i e =>
    let (r, g) := (fpuFmt f).fcmp (f.m.toNat / 16) e.a.data.toNat e.b.data.toNat
    setP f r (s.modTh c i (·.flag g)) c i e) s)
def execFpuCvt (f : Fields) (s : State) : Host.Outcome State Fault Refusal := .next (runThread (.fpuCvt f) (fun f s c i e =>
    let (r, g) := fpuCvt (f.m.toNat / 16) (f.m.toNat % 16) (s.th c i).rnd e.a.data
    .ok ((s.modTh c i (·.flag g)).writeD c i f.d r)) s)
def execFpuFma (f : Fields) (s : State) : Host.Outcome State Fault Refusal := .next (runThread (.fpuFma f) (fun f s c i e =>
    fpuRes f s c i ((fpuFmt f).ffma (s.th c i).rnd e.a.data.toNat e.b.data.toNat e.c.data.toNat)) s)

end Sys2Proof.Machine
end

