-- ==== Sys2Proof/Machine/Pair.lean ====
section
/-!
DEFINITION. The pair link (07 R212-R217): binding two threads of a cell, and the queues of split mode. Lock mode itself is Machine/Lock.lean.
-/
namespace Sys2Proof.Machine

/-! ### Binding (07 R213) -/

/-- Whether a slot waits in a pair function: ready, with its pc where it issued it. -/
def Slot.pairWaits (y : Slot) : Option PairWait :=
  match y.th.pairWait with
  | some w => if y.state = .ready && y.th.pc = w.addr then some w else none
  | none => none
/-- The message registers that a pair function reads, each once. -/
def pairSources (f : Fields) : List Nat :=
  ([f.a, f.b].filterMap fun o => match o with
    | .m n => some n.toNat
    | _ => none).eraseDups
/-- Complete a pair function that waited, or the one that issues, with a code: message registers that it reads are emptied (01 R26). -/
def State.pairDone (s : State) (c i : Nat) (ms : List Nat) (d : Opnd) (n : Nat) : State :=
  let s := s.modTh c i fun t => ms.foldl (fun t k => t.wm k { t.rm k with full := false }) { t with pairWait := none }
  finish s c i (.ok (s.writeD c i d (BitVec.ofNat 64 n)))
/-- Overwrite the understudy with the leader's registers, loop levels and pc. -/
def Thread.follow (u l : Thread) : Thread :=
  let u := (List.range 63).foldl (fun t n => t.ws (n + 1) (l.rs (n + 1))) u
  { u with v := l.v, p := l.p, l0 := l.l0, l1 := l.l1, pc := l.pc }
/-- Bind two slots, whose pair functions are done. -/
def State.bindPair (s : State) (c i j : Nat) (split : Bool) : State :=
  let lo := min i j
  let hi := max i j
  let s := (s.modTh c lo fun t => { t with pair := if split then 3 else 1, partner := hi }).modTh c hi fun t =>
    { t with pair := if split then 3 else 2, partner := lo }
  if split then s else s.modTh c hi (·.follow (s.th c lo))
def pairBody (split : Bool) (f : Fields) : Body := fun s c i e =>
  let t := s.th c i
  let j := bits e.a.data 0 4
  let y := s.slot c j
  let limit := bits e.b.data 0 32
  let refuse : Res := .ok ((s.writeD c i f.d 1).modTh c i fun t => { t with pairWait := none })
  if j = i || y.state = .empty || y.state = .dead || y.state = .saved || t.pair ≠ 0 || y.th.pair ≠ 0 then refuse
  else match y.pairWaits with
    | some w =>
      if w.split != split || w.partner ≠ i || (!split && w.addr ≠ t.pc) then refuse
      else .set (((s.pairDone c j w.ms w.d 0).pairDone c i [] f.d 0).bindPair c i j split)
    | none =>
      let old := match t.pairWait with
        | some w => if w.addr = t.pc && w.split = split then some w.first else none
        | none => none
      let first := old.getD s.cycle
      if first + limit ≤ s.cycle then .ok ((s.writeD c i f.d 2).modTh c i fun t => { t with pairWait := none })
      else
        let s := s.setTh c i { t with pairWait := some ⟨split, f.d, j, t.pc, first, limit, pairSources f⟩ }
        .cancel (if old.isNone then s.dueAt (s.cycle + limit) (.pairTimeout c i) else s)
def execPairLock (f : Fields) (s : State) : Host.Outcome State Fault Refusal := .next (runThread (.pairLock f) (pairBody false) s)
def execPairSplit (f : Fields) (s : State) : Host.Outcome State Fault Refusal := .next (runThread (.pairSplit f) (pairBody true) s)

/-- A waiting pair function has waited its timeout. -/
def execPairTimeout (cell slot : Nat) (s : State) : Host.Outcome State Fault Refusal :=
  match (s.slot cell slot).pairWaits with
  | some w => if w.first + w.limit ≤ s.cycle then .next (s.pairDone cell slot w.ms w.d 2) else .next s
  | none => .next s

/-- Unbind both threads and discard the pair's queues (07 R217). -/
def execPairEnd (f : Fields) (s : State) : Host.Outcome State Fault Refusal :=
  .next (runThread (.pairEnd f) (fun _ s c i _ => .ok (s.unpair c i)) s)

/-! ### The queues of split mode (07 R216) -/

def pqPushBody (_ : Fields) : Body := fun s c i e =>
  let lo := lockSlot (s.th c i) i
  let l := s.link c lo
  if 32 ≤ l.dq.length then .cancel s else .ok (s.setLink c lo { l with dq := l.dq ++ [(i, e.a.data)] })
def bqPushBody (_ : Fields) : Body := fun s c i e =>
  let lo := lockSlot (s.th c i) i
  let l := s.link c lo
  if 32 ≤ l.bq.length then .cancel s else .ok (s.setLink c lo { l with bq := l.bq ++ [(i, e.a.data != 0)] })
def pqPopBody (f : Fields) : Body := fun s c i _ =>
  let t := s.th c i
  let lo := lockSlot t i
  let l := s.link c lo
  match takeFrom t.partner l.dq with
  | none => .cancel s
  | some (v, q) => .ok ((s.setLink c lo { l with dq := q }).writeD c i f.d v)
def execPqPush (f : Fields) (s : State) : Host.Outcome State Fault Refusal := .next (runThread (.pqPush f) pqPushBody s)
def execPqPop (f : Fields) (s : State) : Host.Outcome State Fault Refusal := .next (runThread (.pqPop f) pqPopBody s)
def execBqPush (f : Fields) (s : State) : Host.Outcome State Fault Refusal := .next (runThread (.bqPush f) bqPushBody s)

end Sys2Proof.Machine
end

