-- ==== Sys2Proof/Machine/System.lean ====
section
/-!
DEFINITION. System instructions (07 R218-R223): calls and returns, waits, invalidation, saving and restoring of slots, yields, and the system
registers (01 R33-R38); and the scrub of a dead slot (20 R418).
-/
namespace Sys2Proof.Machine

/-! ### Calls, returns, waits (07 R219, R220) -/

def execSysEcall (f : Fields) (s : State) : Host.Outcome State Fault Refusal :=
  .next (runThread (.sysEcall f) (fun _ s c i _ => .trap ⟨0x10, (s.th c i).mode.num, s.openTval, false⟩) s)
/-- The return goes to `epc` and the mode recorded with it; `hnd` stays. -/
def eretBody (_ : Fields) : Body := fun s c i _ =>
  let t := (s.th c i).eret
  .jump (s.modTh c i fun u => { u with mode := t.mode }) t.pc false
def execSysEret (f : Fields) (s : State) : Host.Outcome State Fault Refusal := .next (runThread (.sysEret f) eretBody s)
def wfiBody (_ : Fields) : Body := fun s c i _ => if (s.th c i).wfiReady then .ok s else .park s .wfi
def execSysWfi (f : Fields) (s : State) : Host.Outcome State Fault Refusal := .next (runThread (.sysWfi f) wfiBody s)
/-- Post a yield event to the prompter of the partition. -/
def yieldBody (f : Fields) : Body := fun s c i _ =>
  let p := s.partOf c i
  let d := leadDie p
  let x := s.die d
  if yieldIntake ≤ x.yields.length then code s c i f 1
  else code ((s.setDie d { x with yields := x.yields ++ [(p, c, i, (s.slot c i).bind.map Bind.group)] }).dueLater (.control p)) c i f 0
def execSysYield (f : Fields) (s : State) : Host.Outcome State Fault Refusal := .next (runThread (.sysYield f) yieldBody s)

/-! ### Invalidation (07 R221, 03 R94) -/

/-- What an invalidation names: a page of an address space, an address space, or a partition. -/
inductive Scope where
  | page (asid va : Nat)
  | asid (n : Nat)
  | part
  deriving DecidableEq, Repr
/-- Whether an address space belongs to a partition. -/
def State.asidOf (s : State) (part asid : Nat) : Bool :=
  match s.owner asid with
  | some f => fnPart s.layout.active f = part || (tenants s.layout.active part).contains f
  | none => false
/-- Whether a held ASID context belongs to what is invalidated: after it no access uses a translation that the context led to. -/
def Scope.ctx (x : Scope) (s : State) (part asid : Nat) : Bool :=
  match x with
  | .page a _ | .asid a => asid = a
  | .part => s.asidOf part asid
def Scope.tlb (x : Scope) (s : State) (part : Nat) (e : TlbEntry) : Bool :=
  match x with
  | .page a v => e.asid = a && e.base = v / 2 ^ e.log
  | .asid a => e.asid = a
  | .part => s.asidOf part e.asid
/-- The sizes (log2) of the page that holds an address: as held, and as the tables have it now. -/
def State.pageLogs (s : State) (a v : Nat) : List Nat :=
  let held := (s.cells.flatMap fun (_, x) => x.tlb) ++ (s.l2tlb.flatMap fun (_, l) => l)
  let now := match s.owner a with
    | none => []
    | some f =>
      match s.rootOf f a with
      | none => []
      | some r => match s.walkFrom f v 3 r with
        | (_, some (_, _, log)) => [log]
        | (_, none) => []
  12 :: now ++ (held.filter fun e => e.asid = a && e.base = v / 2 ^ e.log).map (·.log)
/-- Whether a cached line belongs to what is invalidated by the thread in cell `c`. Lines of own-pool code (03 R94, 07 R221 are silent: DESIGN
CHOICE, log entry 58): an asid scope keeps them; a page scope of a pool address takes 4 KiB whatever ASID it names, with space 14 of the
thread's own cell. -/
def Scope.line (x : Scope) (s : State) (part c space line : Nat) : Bool :=
  match x with
  | .page a v =>
    if 14 ≤ v / 2 ^ 44 % 16 then
      let cell := if v / 2 ^ 44 % 16 = 14 then some c else physOf part (v / 2 ^ 34 % 2 ^ 10)
      cell.map (8192 + ·) = some space && line / 64 = v % 2 ^ 20 / 4096
    else space = a && (s.pageLogs a v).any fun l => line * 64 / 2 ^ l = v / 2 ^ l
  | .asid a => space = a
  | .part => if space < 8192 then s.asidOf part space else inPart part (space - 8192)
/-- Discard what a scope names from the TLBs and caches of a partition. -/
def State.invalidate (s : State) (part c : Nat) (x : Scope) : State :=
  let cells := s.cells.map fun (d, y) => (d, if inPart part d then { y with tlb := y.tlb.filter (!x.tlb s part ·) } else y)
  let inDom (n : Nat) : Bool := (List.range 1024).any fun d => inPart part d && domainOf d = n
  let inClu (n : Nat) : Bool := (List.range 1024).any fun d => inPart part d && clusterOf d = n
  let l2 := s.l2tlb.map fun (n, l) => (n, if inDom n then l.filter (!x.tlb s part ·) else l)
  let ctx := s.l2ctx.map fun (n, l) => (n, if inDom n then l.filter (!x.ctx s part ·.1) else l)
  { s with cells := cells, l2tlb := l2.filter (!·.2.isEmpty), l2ctx := ctx.filter (!·.2.isEmpty)
           icache := s.icache.filter fun (cl, space, line, _, _) => !(inClu cl && x.line s part c space line) }
/-- Whether an access of a partition that was translated before number `n` is still to be performed: a request on its way, or the loads and
stores of an atomic region. What a home holds has reached it, and what went to a peer has left (log entry 50). -/
def State.oldAccess (s : State) (part n : Nat) : Bool :=
  s.reqs.any (fun (id, r) => id < n && r.asked.isNone && inPart part r.cell && r.done.isNone && !r.held && keyHbm ≤ r.key && r.key < keyPeer && match r.op with
    | .flush | .commit _ => false
    | _ => true) ||
  s.allSlots.any fun (c, _, y) => inPart part c && match y.th.region with
    | some g => g.born < n && (!g.loads.isEmpty || g.buf.any fun | .store .. => true | .send .. => false)
    | none => false
/-- The issue is cancelled until the accesses that the old translations served are over (07 R221). -/
def tlbinvBody (f : Fields) : Body := fun s c i e =>
  let a := bits e.b.data 0 13
  let v := bits e.a.data 0 48
  let x : Scope := if f.m.toNat % 4 = 0 then .page a v else if f.m.toNat % 4 = 1 then .asid a else .part
  let t := s.th c i
  let n := match t.inval with
    | some (pc, n) => if pc = t.pc then n else s.nextId
    | none => s.nextId
  let s := s.invalidate (s.partOf c i) c x
  if s.oldAccess (s.partOf c i) n then .cancel (s.modTh c i fun t => { t with inval := some (t.pc, n) })
  else .ok (s.modTh c i fun t => { t with inval := none })
def execSysTlbinv (f : Fields) (s : State) : Host.Outcome State Fault Refusal := .next (runThread (.sysTlbinv f) tlbinvBody s)

/-! ### Saving and restoring (07 R222) -/

/-- The slot that A names, which is not the thread's own. -/
def otherSlot (s : State) (i : Nat) (e : Env) (f : Nat → Res) : Res :=
  let j := bits e.a.data 0 4
  if j = i then .trap ⟨0x09, 0x40, s.openTval, false⟩
  -- the register section of the other slot may not have been exchanged yet (20 R411)
  else if s.incoming s.cur.1 s.cur.2 && s.notYet (imageKey s.cur.1 j) 4096 then .cancel s
  else f j
def ctxsaveBody (f : Fields) : Body := fun s c i e => otherSlot s i e fun j =>
  let y := s.slot c j
  if y.state != .ready && y.state != .parked then code s c i f 1
  else if !s.canSave c j then .cancel s
  else if (s.savedWith c j).contains i then .set ((finish s c i (code s c i f 0)).saveSlot c j)
  else code (s.saveSlot c j) c i f 0
def ctxloadBody (f : Fields) : Body := fun s c i e => otherSlot s i e fun j =>
  if s.restorable c j then code (s.loadSlot c j) c i f 0 else code s c i f 1
def execSysCtxsave (f : Fields) (s : State) : Host.Outcome State Fault Refusal := .next (runThread (.sysCtxsave f) ctxsaveBody s)
def execSysCtxload (f : Fields) (s : State) : Host.Outcome State Fault Refusal := .next (runThread (.sysCtxload f) ctxloadBody s)

/-! ### System registers (01 R33-R38; 07 R223) -/

/-- A system register as a 64-bit word. -/
def State.csr (s : State) (c i n : Nat) : W64 :=
  let t := s.th c i
  match n with
  | 0x000 => BitVec.ofNat 64 i
  | 0x001 => BitVec.ofNat 64 (vcellOf (s.partOf c i) c)
  | 0x002 => BitVec.ofNat 64 (s.partOf c i)
  | 0x003 => t.asid.setWidth 64
  | 0x010 => t.status
  | 0x011 => t.trapRegs.cause
  | 0x012 => t.trapRegs.epc.setWidth 64
  | 0x013 => t.trapRegs.tval.setWidth 64
  | 0x014 => t.ivec.setWidth 64
  | 0x015 => BitVec.ofNat 64 (bits t.trapRegs.tval 64 32)
  | 0x020 => t.timer
  | 0x021 => t.fmode.setWidth 64
  | 0x022 => t.srseed.setWidth 64
  | 0x023 => BitVec.ofNat 64 ((s.fnSt (s.fnOf c i)).pj / 1000)
  | 0x024 => t.cue.setWidth 64
  | 0x025 => BitVec.ofNat 64 s.cycle
  | 0x026 => t.retired
  | _ => 0
/-- A write of the RW fields of a trap register or of what only the thread holds. -/
def Thread.setCsr (t : Thread) (n : Nat) (v : W64) : Thread :=
  let r := t.trapRegs
  let sup : Bool := t.mode != .user
  match n with
  | 0x003 => if sup then { t with asid := v.setWidth 13 } else t
  | 0x010 => { t with mie := v.getLsbD 2, tie := v.getLsbD 3, tpend := t.tpend && v.getLsbD 3 }
  | 0x011 => if sup then t.setTrapRegs { r with cause := v &&& 0x800000000000FFFF } else t
  | 0x012 => t.setTrapRegs { r with epc := v.setWidth 48 }
  | 0x013 => if sup then t.setTrapRegs { r with tval := setBits r.tval 0 64 v.toNat } else t
  | 0x014 => { t with ivec := setBits (v.setWidth 48) 0 2 0 }
  | 0x015 => if sup then t.setTrapRegs { r with tval := setBits r.tval 64 32 v.toNat } else t
  | 0x020 => { t with timer := v }
  | 0x021 => { t with fmode := v.setWidth 8 }
  | 0x022 => { t with srseed := v.setWidth 32 }
  | 0x024 => if sup then { t with cue := v.setWidth 8 } else t
  | _ => t
/-- A write of a system register; the energy counter is the function's (23 R454). -/
def State.setCsr (s : State) (c i n : Nat) (v : W64) : State :=
  if n = 0x023 then
    if (s.th c i).mode = .machine then
      let f := s.fnOf c i
      s.setFn f { s.fnSt f with pj := v.toNat * 1000, mark := v.toNat }
    else s
  else s.modTh c i (·.setCsr n v)
/-- The parcel triple of an instruction. -/
def insWord (i : Instr) : W96 :=
  match rowOf i with
  | some (r, f) => encodeFields r f
  | none => 0
/-- Only `cue` has no access in user mode (01 R33). -/
def csrAccess (s : State) (c i n : Nat) (ins : Instr) (r : Res) : Res :=
  if n = 0x024 && (s.th c i).mode = .user then .trap ⟨0x03, 0, insWord ins, false⟩ else r
def csrNum (f : Fields) : Nat := bits f.imm 0 12
def csrrBody (f : Fields) : Body := fun s c i _ =>
  csrAccess s c i (csrNum f) (.sysCsrr f) (.ok (s.writeD c i f.d (s.csr c i (csrNum f))))
def csrwBody (f : Fields) : Body := fun s c i e =>
  csrAccess s c i (csrNum f) (.sysCsrw f) (.ok ((s.writeD c i f.d (s.csr c i (csrNum f))).setCsr c i (csrNum f) e.a.data))
def execSysCsrr (f : Fields) (s : State) : Host.Outcome State Fault Refusal := .next (runThread (.sysCsrr f) csrrBody s)
def execSysCsrw (f : Fields) (s : State) : Host.Outcome State Fault Refusal := .next (runThread (.sysCsrw f) csrwBody s)

/-! ### The scrub of a dead slot (20 R418) -/

/-- The registers are zero and the slot is empty; its packets stay with its buffers. -/
def execRegisterScrubDone (cell slot : Nat) (s : State) : Host.Outcome State Fault Refusal :=
  let y := s.slot cell slot
  if y.state = .dead then
    .next ((s.setSlot cell slot { y with state := .empty, th := y.th.ended, bind := none }).slotFreed cell)
  else .next s

end Sys2Proof.Machine
end

