-- ==== Sys2Proof/Machine/Watch.lean ====
section
/-!
DEFINITION. The watch functions (06 R159-R161).
-/
namespace Sys2Proof.Machine

/-- The watched word of an address in the thread's own pool; any other address is the operand-range fault 0x20 (06 R159). -/
def watchWord (s : State) (c i : Nat) (e : Env) (f : Nat → Res) : Res :=
  let ea := ((e.a.addr + e.b.data.toNat : Nat)) % 2 ^ 48
  let bad : Trap := ⟨0x09, 0x20, BitVec.ofNat 96 ea, false⟩
  match capCheck e.a [permRd] ea 8 with
  | some x => .trap x
  | none =>
    if ea % 8 ≠ 0 || ea / 2 ^ 44 % 16 < 14 then .trap bad
    else match s.space c i ((s.th c i).mode = .user) ea 8 with
      | .ok (some k) => if ownPool c k then f (k / 8) else .trap bad
      | .ok none => .trap bad
      | .error x => if x.cause = 6 then .trap x else .trap bad
/-- `watch.set`. Two points that 06 R159 leaves open (DESIGN CHOICE, log entry 61): of several free entries it takes the lowest; and where the table is
full and another thread watches the word it writes -2. -/
def watchSetBody (f : Fields) : Body := fun s c i e => watchWord s c i e fun w =>
  let tab := (s.cell c).watch
  match tab.find? fun x => x.2.word = w with
  | some (n, x) => .ok (s.writeD c i f.d (if x.slot = i then BitVec.ofNat 64 n else -2))
  | none =>
    match (List.range 64).find? fun n => (tab.look n).isNone with
    | some n => .ok ((s.modCell c fun y => { y with watch := y.watch.put n ⟨i, w, false⟩ }).writeD c i f.d (BitVec.ofNat 64 n))
    | none => .ok (s.writeD c i f.d (-1))
def watchClrBody (f : Fields) : Body := fun s c i e =>
  if f.m.getLsbD 0 then .ok (s.modCell c (·.unwatch i))
  else watchWord s c i e fun w =>
    .ok (s.modCell c fun y => { y with watch := y.watch.filter fun x => !(x.2.slot = i && x.2.word = w) })
def watchWaitrsBody (f : Fields) : Body := fun s c i _ =>
  let p := BitVec.ofNat 3 f.m.toNat
  if s.watchDone c i then .ok (s.watchReport c i f.d p) else .park s (.watch f.d p)

def execWatchSet (f : Fields) (s : State) : Host.Outcome State Fault Refusal := .next (runThread (.watchSet f) watchSetBody s)
def execWatchClr (f : Fields) (s : State) : Host.Outcome State Fault Refusal := .next (runThread (.watchClr f) watchClrBody s)
def execWatchWaitrs (f : Fields) (s : State) : Host.Outcome State Fault Refusal := .next (runThread (.watchWaitrs f) watchWaitrsBody s)

end Sys2Proof.Machine
end

