-- ==== Sys2Proof/Machine/Dispatch.lean ====
section
/-!
DEFINITION. The dispatch: one arm for each step of the machine.
-/
namespace Sys2Proof.Machine

/-- The meaning of each step. -/
def exec (i : Instr) (s : State) : Host.Outcome State Fault Refusal :=
  match i with
  | .iaAdd f => Sys2Proof.Machine.execIaAdd f s
  | .iaSub f => Sys2Proof.Machine.execIaSub f s
  | .iaMul f => Sys2Proof.Machine.execIaMul f s
  | .iaMulh f => Sys2Proof.Machine.execIaMulh f s
  | .iaMulhu f => Sys2Proof.Machine.execIaMulhu f s
  | .iaDiv f => Sys2Proof.Machine.execIaDiv f s
  | .iaDivu f => Sys2Proof.Machine.execIaDivu f s
  | .iaRem f => Sys2Proof.Machine.execIaRem f s
  | .iaRemu f => Sys2Proof.Machine.execIaRemu f s
  | .iaAnd f => Sys2Proof.Machine.execIaAnd f s
  | .iaOr f => Sys2Proof.Machine.execIaOr f s
  | .iaXor f => Sys2Proof.Machine.execIaXor f s
  | .iaAndn f => Sys2Proof.Machine.execIaAndn f s
  | .iaShl f => Sys2Proof.Machine.execIaShl f s
  | .iaShr f => Sys2Proof.Machine.execIaShr f s
  | .iaSra f => Sys2Proof.Machine.execIaSra f s
  | .iaRot f => Sys2Proof.Machine.execIaRot f s
  | .iaMin f => Sys2Proof.Machine.execIaMin f s
  | .iaMax f => Sys2Proof.Machine.execIaMax f s
  | .iaMinu f => Sys2Proof.Machine.execIaMinu f s
  | .iaMaxu f => Sys2Proof.Machine.execIaMaxu f s
  | .iaClz f => Sys2Proof.Machine.execIaClz f s
  | .iaCtz f => Sys2Proof.Machine.execIaCtz f s
  | .iaPopc f => Sys2Proof.Machine.execIaPopc f s
  | .iaMov f => Sys2Proof.Machine.execIaMov f s
  | .iaMovC f => Sys2Proof.Machine.execIaMovC f s
  | .iaAddI f => Sys2Proof.Machine.execIaAddI f s
  | .iaSubI f => Sys2Proof.Machine.execIaSubI f s
  | .iaMulI f => Sys2Proof.Machine.execIaMulI f s
  | .iaMulhI f => Sys2Proof.Machine.execIaMulhI f s
  | .iaMulhuI f => Sys2Proof.Machine.execIaMulhuI f s
  | .iaDivI f => Sys2Proof.Machine.execIaDivI f s
  | .iaDivuI f => Sys2Proof.Machine.execIaDivuI f s
  | .iaRemI f => Sys2Proof.Machine.execIaRemI f s
  | .iaRemuI f => Sys2Proof.Machine.execIaRemuI f s
  | .iaAndI f => Sys2Proof.Machine.execIaAndI f s
  | .iaOrI f => Sys2Proof.Machine.execIaOrI f s
  | .iaXorI f => Sys2Proof.Machine.execIaXorI f s
  | .iaAndnI f => Sys2Proof.Machine.execIaAndnI f s
  | .iaShlI f => Sys2Proof.Machine.execIaShlI f s
  | .iaShrI f => Sys2Proof.Machine.execIaShrI f s
  | .iaSraI f => Sys2Proof.Machine.execIaSraI f s
  | .iaRotI f => Sys2Proof.Machine.execIaRotI f s
  | .iaMinI f => Sys2Proof.Machine.execIaMinI f s
  | .iaMaxI f => Sys2Proof.Machine.execIaMaxI f s
  | .iaMinuI f => Sys2Proof.Machine.execIaMinuI f s
  | .iaMaxuI f => Sys2Proof.Machine.execIaMaxuI f s
  | .iaBfx f => Sys2Proof.Machine.execIaBfx f s
  | .iaBfi f => Sys2Proof.Machine.execIaBfi f s
  | .iaSel f => Sys2Proof.Machine.execIaSel f s
  | .iaBfxI f => Sys2Proof.Machine.execIaBfxI f s
  | .iaBfiI f => Sys2Proof.Machine.execIaBfiI f s
  | .iaLi f => Sys2Proof.Machine.execIaLi f s
  | .icmpEq f => Sys2Proof.Machine.execIcmpEq f s
  | .icmpNe f => Sys2Proof.Machine.execIcmpNe f s
  | .icmpLt f => Sys2Proof.Machine.execIcmpLt f s
  | .icmpLtu f => Sys2Proof.Machine.execIcmpLtu f s
  | .icmpLe f => Sys2Proof.Machine.execIcmpLe f s
  | .icmpLeu f => Sys2Proof.Machine.execIcmpLeu f s
  | .icmpEqI f => Sys2Proof.Machine.execIcmpEqI f s
  | .icmpNeI f => Sys2Proof.Machine.execIcmpNeI f s
  | .icmpLtI f => Sys2Proof.Machine.execIcmpLtI f s
  | .icmpLtuI f => Sys2Proof.Machine.execIcmpLtuI f s
  | .icmpLeI f => Sys2Proof.Machine.execIcmpLeI f s
  | .icmpLeuI f => Sys2Proof.Machine.execIcmpLeuI f s
  | .capBound f => Sys2Proof.Machine.execCapBound f s
  | .capPerm f => Sys2Proof.Machine.execCapPerm f s
  | .capSetaddr f => Sys2Proof.Machine.execCapSetaddr f s
  | .capIncaddr f => Sys2Proof.Machine.execCapIncaddr f s
  | .capGetbase f => Sys2Proof.Machine.execCapGetbase f s
  | .capGetlen f => Sys2Proof.Machine.execCapGetlen f s
  | .capGetperm f => Sys2Proof.Machine.execCapGetperm f s
  | .capTagtest f => Sys2Proof.Machine.execCapTagtest f s
  | .capClear f => Sys2Proof.Machine.execCapClear f s
  | .capBoundI f => Sys2Proof.Machine.execCapBoundI f s
  | .capPermI f => Sys2Proof.Machine.execCapPermI f s
  | .capIncaddrI f => Sys2Proof.Machine.execCapIncaddrI f s
  | .prdAnd f => Sys2Proof.Machine.execPrdAnd f s
  | .prdOr f => Sys2Proof.Machine.execPrdOr f s
  | .prdXor f => Sys2Proof.Machine.execPrdXor f s
  | .prdNot f => Sys2Proof.Machine.execPrdNot f s
  | .prdSet f => Sys2Proof.Machine.execPrdSet f s
  | .ctlBr f => Sys2Proof.Machine.execCtlBr f s
  | .ctlBrBq f => Sys2Proof.Machine.execCtlBrBq f s
  | .ctlCall f => Sys2Proof.Machine.execCtlCall f s
  | .ctlLoop f => Sys2Proof.Machine.execCtlLoop f s
  | .ctlJr f => Sys2Proof.Machine.execCtlJr f s
  | .ctlRet f => Sys2Proof.Machine.execCtlRet f s
  | .ctlTrap f => Sys2Proof.Machine.execCtlTrap f s
  | .ctlNop f => Sys2Proof.Machine.execCtlNop f s
  | .ctlExit f => Sys2Proof.Machine.execCtlExit f s
  | .ctlAlign f => Sys2Proof.Machine.execCtlAlign f s
  | .fpuAdd f => Sys2Proof.Machine.execFpuAdd f s
  | .fpuSub f => Sys2Proof.Machine.execFpuSub f s
  | .fpuMul f => Sys2Proof.Machine.execFpuMul f s
  | .fpuDiv f => Sys2Proof.Machine.execFpuDiv f s
  | .fpuMin f => Sys2Proof.Machine.execFpuMin f s
  | .fpuMax f => Sys2Proof.Machine.execFpuMax f s
  | .fpuSqrt f => Sys2Proof.Machine.execFpuSqrt f s
  | .fpuCmp f => Sys2Proof.Machine.execFpuCmp f s
  | .fpuCvt f => Sys2Proof.Machine.execFpuCvt f s
  | .fpuFma f => Sys2Proof.Machine.execFpuFma f s
  | .vecAdd f => Sys2Proof.Machine.execVecAdd f s
  | .vecSub f => Sys2Proof.Machine.execVecSub f s
  | .vecMul f => Sys2Proof.Machine.execVecMul f s
  | .vecMin f => Sys2Proof.Machine.execVecMin f s
  | .vecMax f => Sys2Proof.Machine.execVecMax f s
  | .vecAbs f => Sys2Proof.Machine.execVecAbs f s
  | .vecNeg f => Sys2Proof.Machine.execVecNeg f s
  | .vecAnd f => Sys2Proof.Machine.execVecAnd f s
  | .vecOr f => Sys2Proof.Machine.execVecOr f s
  | .vecXor f => Sys2Proof.Machine.execVecXor f s
  | .vecShl f => Sys2Proof.Machine.execVecShl f s
  | .vecShr f => Sys2Proof.Machine.execVecShr f s
  | .vecCmp f => Sys2Proof.Machine.execVecCmp f s
  | .vecBcast f => Sys2Proof.Machine.execVecBcast f s
  | .vecPerm f => Sys2Proof.Machine.execVecPerm f s
  | .vecRed f => Sys2Proof.Machine.execVecRed f s
  | .vecScan f => Sys2Proof.Machine.execVecScan f s
  | .vecExp2 f => Sys2Proof.Machine.execVecExp2 f s
  | .vecLog2 f => Sys2Proof.Machine.execVecLog2 f s
  | .vecRcp f => Sys2Proof.Machine.execVecRcp f s
  | .vecRsqrt f => Sys2Proof.Machine.execVecRsqrt f s
  | .vecTanh f => Sys2Proof.Machine.execVecTanh f s
  | .vecCvt f => Sys2Proof.Machine.execVecCvt f s
  | .vecPack f => Sys2Proof.Machine.execVecPack f s
  | .vecUnpack f => Sys2Proof.Machine.execVecUnpack f s
  | .vecFma f => Sys2Proof.Machine.execVecFma f s
  | .vecSel f => Sys2Proof.Machine.execVecSel f s
  | .vecBcastI f => Sys2Proof.Machine.execVecBcastI f s
  | .vecShlI f => Sys2Proof.Machine.execVecShlI f s
  | .vecShrI f => Sys2Proof.Machine.execVecShrI f s
  | .qzBlk f => Sys2Proof.Machine.execQzBlk f s
  | .qzDq f => Sys2Proof.Machine.execQzDq f s
  | .qzTagget f => Sys2Proof.Machine.execQzTagget f s
  | .qzTagset f => Sys2Proof.Machine.execQzTagset f s
  | .qzSplit f => Sys2Proof.Machine.execQzSplit f s
  | .ldB f => Sys2Proof.Machine.execLdB f s
  | .ldH f => Sys2Proof.Machine.execLdH f s
  | .ldW f => Sys2Proof.Machine.execLdW f s
  | .ldD f => Sys2Proof.Machine.execLdD f s
  | .ldC f => Sys2Proof.Machine.execLdC f s
  | .ldBu f => Sys2Proof.Machine.execLdBu f s
  | .ldHu f => Sys2Proof.Machine.execLdHu f s
  | .ldWu f => Sys2Proof.Machine.execLdWu f s
  | .stB f => Sys2Proof.Machine.execStB f s
  | .stH f => Sys2Proof.Machine.execStH f s
  | .stW f => Sys2Proof.Machine.execStW f s
  | .stD f => Sys2Proof.Machine.execStD f s
  | .stC f => Sys2Proof.Machine.execStC f s
  | .vmVld f => Sys2Proof.Machine.execVmVld f s
  | .vmVst f => Sys2Proof.Machine.execVmVst f s
  | .vmVlds f => Sys2Proof.Machine.execVmVlds f s
  | .vmVsts f => Sys2Proof.Machine.execVmVsts f s
  | .vmVgath f => Sys2Proof.Machine.execVmVgath f s
  | .vmVscat f => Sys2Proof.Machine.execVmVscat f s
  | .feLwf f => Sys2Proof.Machine.execFeLwf f s
  | .feLwfe f => Sys2Proof.Machine.execFeLwfe f s
  | .feSwe f => Sys2Proof.Machine.execFeSwe f s
  | .feSf f => Sys2Proof.Machine.execFeSf f s
  | .feCe f => Sys2Proof.Machine.execFeCe f s
  | .fePeek f => Sys2Proof.Machine.execFePeek f s
  | .lrW f => Sys2Proof.Machine.execLrW f s
  | .lrD f => Sys2Proof.Machine.execLrD f s
  | .scW f => Sys2Proof.Machine.execScW f s
  | .scD f => Sys2Proof.Machine.execScD f s
  | .amoAdd dbl f => Sys2Proof.Machine.execAmoAdd dbl f s
  | .amoAnd dbl f => Sys2Proof.Machine.execAmoAnd dbl f s
  | .amoOr dbl f => Sys2Proof.Machine.execAmoOr dbl f s
  | .amoXor dbl f => Sys2Proof.Machine.execAmoXor dbl f s
  | .amoMin dbl f => Sys2Proof.Machine.execAmoMin dbl f s
  | .amoMax dbl f => Sys2Proof.Machine.execAmoMax dbl f s
  | .amoMinu dbl f => Sys2Proof.Machine.execAmoMinu dbl f s
  | .amoMaxu dbl f => Sys2Proof.Machine.execAmoMaxu dbl f s
  | .amoSwap dbl f => Sys2Proof.Machine.execAmoSwap dbl f s
  | .amoCas dbl f => Sys2Proof.Machine.execAmoCas dbl f s
  | .fence f => Sys2Proof.Machine.execFence f s
  | .watchSet f => Sys2Proof.Machine.execWatchSet f s
  | .watchClr f => Sys2Proof.Machine.execWatchClr f s
  | .watchWaitrs f => Sys2Proof.Machine.execWatchWaitrs f s
  | .aregBegin f => Sys2Proof.Machine.execAregBegin f s
  | .aregCommit f => Sys2Proof.Machine.execAregCommit f s
  | .aregAbort f => Sys2Proof.Machine.execAregAbort f s
  | .aregStat f => Sys2Proof.Machine.execAregStat f s
  | .msgSend f => Sys2Proof.Machine.execMsgSend f s
  | .msgSendI f => Sys2Proof.Machine.execMsgSendI f s
  | .msgSendn f => Sys2Proof.Machine.execMsgSendn f s
  | .msgClr f => Sys2Proof.Machine.execMsgClr f s
  | .msgWait f => Sys2Proof.Machine.execMsgWait f s
  | .msgImask f => Sys2Proof.Machine.execMsgImask f s
  | .msgImaskI f => Sys2Proof.Machine.execMsgImaskI f s
  | .msgIret f => Sys2Proof.Machine.execMsgIret f s
  | .cpLin f => Sys2Proof.Machine.execCpLin f s
  | .cpTd f => Sys2Proof.Machine.execCpTd f s
  | .cpG f => Sys2Proof.Machine.execCpG f s
  | .cpMx f => Sys2Proof.Machine.execCpMx f s
  | .cpWany f => Sys2Proof.Machine.execCpWany f s
  | .cpWall f => Sys2Proof.Machine.execCpWall f s
  | .cpFfr f => Sys2Proof.Machine.execCpFfr f s
  | .cpFfrRec f => Sys2Proof.Machine.execCpFfrRec f s
  | .barArm f => Sys2Proof.Machine.execBarArm f s
  | .barArrive f => Sys2Proof.Machine.execBarArrive f s
  | .barWait f => Sys2Proof.Machine.execBarWait f s
  | .barStat f => Sys2Proof.Machine.execBarStat f s
  | .mxMma f => Sys2Proof.Machine.execMxMma f s
  | .mxMmaq f => Sys2Proof.Machine.execMxMmaq f s
  | .mxZero f => Sys2Proof.Machine.execMxZero f s
  | .mxLd f => Sys2Proof.Machine.execMxLd f s
  | .mxSt f => Sys2Proof.Machine.execMxSt f s
  | .mxChk f => Sys2Proof.Machine.execMxChk f s
  | .mxChkInject f => Sys2Proof.Machine.execMxChkInject f s
  | .ropeSchema f => Sys2Proof.Machine.execRopeSchema f s
  | .ropeLeaf f => Sys2Proof.Machine.execRopeLeaf f s
  | .ropeCat f => Sys2Proof.Machine.execRopeCat f s
  | .ropeSplit f => Sys2Proof.Machine.execRopeSplit f s
  | .ropeSplice f => Sys2Proof.Machine.execRopeSplice f s
  | .ropeSum f => Sys2Proof.Machine.execRopeSum f s
  | .ropeSeek f => Sys2Proof.Machine.execRopeSeek f s
  | .ropeWalk f => Sys2Proof.Machine.execRopeWalk f s
  | .ropePin f => Sys2Proof.Machine.execRopePin f s
  | .ropePinH f => Sys2Proof.Machine.execRopePinH f s
  | .ropeUnpin f => Sys2Proof.Machine.execRopeUnpin f s
  | .ropePub f => Sys2Proof.Machine.execRopePub f s
  | .qPush f => Sys2Proof.Machine.execQPush f s
  | .qPop f => Sys2Proof.Machine.execQPop f s
  | .qClose f => Sys2Proof.Machine.execQClose f s
  | .qCloseKill f => Sys2Proof.Machine.execQCloseKill f s
  | .qGang f => Sys2Proof.Machine.execQGang f s
  | .pairLock f => Sys2Proof.Machine.execPairLock f s
  | .pairSplit f => Sys2Proof.Machine.execPairSplit f s
  | .pairEnd f => Sys2Proof.Machine.execPairEnd f s
  | .pqPush f => Sys2Proof.Machine.execPqPush f s
  | .pqPop f => Sys2Proof.Machine.execPqPop f s
  | .bqPush f => Sys2Proof.Machine.execBqPush f s
  | .sysEcall f => Sys2Proof.Machine.execSysEcall f s
  | .sysEret f => Sys2Proof.Machine.execSysEret f s
  | .sysWfi f => Sys2Proof.Machine.execSysWfi f s
  | .sysTlbinv f => Sys2Proof.Machine.execSysTlbinv f s
  | .sysCtxsave f => Sys2Proof.Machine.execSysCtxsave f s
  | .sysCtxload f => Sys2Proof.Machine.execSysCtxload f s
  | .sysYield f => Sys2Proof.Machine.execSysYield f s
  | .sysCsrr f => Sys2Proof.Machine.execSysCsrr f s
  | .sysCsrw f => Sys2Proof.Machine.execSysCsrw f s
  | .feRequestRetry req => Sys2Proof.Machine.execFeRequestRetry req s
  | .lrLeaseExpiry word => Sys2Proof.Machine.execLrLeaseExpiry word s
  | .memoryReply req => Sys2Proof.Machine.execMemoryReply req s
  | .writeAck req => Sys2Proof.Machine.execWriteAck req s
  | .registerScrubDone cell slot => Sys2Proof.Machine.execRegisterScrubDone cell slot s
  | .timerExpiry cell slot => Sys2Proof.Machine.execTimerExpiry cell slot s
  | .timerInterrupt cell slot => Sys2Proof.Machine.execTimerInterrupt cell slot s
  | .arrivalInterrupt cell slot => Sys2Proof.Machine.execArrivalInterrupt cell slot s
  | .imaskWindowEnd cell slot => Sys2Proof.Machine.execImaskWindowEnd cell slot s
  | .packetCountClose cell slot => Sys2Proof.Machine.execPacketCountClose cell slot s
  | .packetEnterNetwork cell slot => Sys2Proof.Machine.execPacketEnterNetwork cell slot s
  | .packetLanding pkt => Sys2Proof.Machine.execPacketLanding pkt s
  | .packetReoffer pkt => Sys2Proof.Machine.execPacketReoffer pkt s
  | .commitPerform cell slot => Sys2Proof.Machine.execCommitPerform cell slot s
  | .barArrivalCount cell slot => Sys2Proof.Machine.execBarArrivalCount cell slot s
  | .pairTimeout cell slot => Sys2Proof.Machine.execPairTimeout cell slot s
  | .alignTimeout cell slot => Sys2Proof.Machine.execAlignTimeout cell slot s
  | .copySegmentWrite op => Sys2Proof.Machine.execCopySegmentWrite op s
  | .cpGEntryRead op => Sys2Proof.Machine.execCpGEntryRead op s
  | .cpmxChainEnqueue op => Sys2Proof.Machine.execCpmxChainEnqueue op s
  | .matrixStep cell upsets again => Sys2Proof.Machine.execMatrixStep cell upsets again s
  | .engineCompletion op => Sys2Proof.Machine.execEngineCompletion op s
  | .checksumFaultTrap cell slot => Sys2Proof.Machine.execChecksumFaultTrap cell slot s
  | .engineFaultRecord op => Sys2Proof.Machine.execEngineFaultRecord op s
  | .engineFaultReply fn n => Sys2Proof.Machine.execEngineFaultReply fn n s
  | .ropeCommandExecute cmd => Sys2Proof.Machine.execRopeCommandExecute cmd s
  | .ropeResultLanding cmd => Sys2Proof.Machine.execRopeResultLanding cmd s
  | .walkRecordEmit cmd => Sys2Proof.Machine.execWalkRecordEmit cmd s
  | .walkTailPoll cmd => Sys2Proof.Machine.execWalkTailPoll cmd s
  | .nodeReclaim pool => Sys2Proof.Machine.execNodeReclaim pool s
  | .stageRefill part stage => Sys2Proof.Machine.execStageRefill part stage s
  | .headPacketRead q => Sys2Proof.Machine.execHeadPacketRead q s
  | .dispatchEvent part => Sys2Proof.Machine.execDispatchEvent part s
  | .tickEvent part => Sys2Proof.Machine.execTickEvent part s
  | .controlEventTake part => Sys2Proof.Machine.execControlEventTake part s
  | .decisionOverrun part ctl => Sys2Proof.Machine.execDecisionOverrun part ctl s
  | .fixedPolicyDecision part ctl => Sys2Proof.Machine.execFixedPolicyDecision part ctl s
  | .gangPlacement die => Sys2Proof.Machine.execGangPlacement die s
  | .cueAdd d a b => Sys2Proof.Machine.execCueAdd d a b s
  | .cueSub d a b => Sys2Proof.Machine.execCueSub d a b s
  | .cueAnd d a b => Sys2Proof.Machine.execCueAnd d a b s
  | .cueOr d a b => Sys2Proof.Machine.execCueOr d a b s
  | .cueXor d a b => Sys2Proof.Machine.execCueXor d a b s
  | .cueShl d a b => Sys2Proof.Machine.execCueShl d a b s
  | .cueShr d a b => Sys2Proof.Machine.execCueShr d a b s
  | .cueSlt d a b => Sys2Proof.Machine.execCueSlt d a b s
  | .cueSltu d a b => Sys2Proof.Machine.execCueSltu d a b s
  | .cueSeq d a b => Sys2Proof.Machine.execCueSeq d a b s
  | .cueAddi d a k => Sys2Proof.Machine.execCueAddi d a k s
  | .cueAndi d a k => Sys2Proof.Machine.execCueAndi d a k s
  | .cueLi d k => Sys2Proof.Machine.execCueLi d k s
  | .cueLih d a k => Sys2Proof.Machine.execCueLih d a k s
  | .cueBeq a b o => Sys2Proof.Machine.execCueBeq a b o s
  | .cueBne a b o => Sys2Proof.Machine.execCueBne a b o s
  | .cueBlt a b o => Sys2Proof.Machine.execCueBlt a b o s
  | .cueJmp o => Sys2Proof.Machine.execCueJmp o s
  | .cueRdw d a w k => Sys2Proof.Machine.execCueRdw d a w k s
  | .cueBind a => Sys2Proof.Machine.execCueBind a s
  | .cueDefer => Sys2Proof.Machine.execCueDefer s
  | .cuePreempt a => Sys2Proof.Machine.execCuePreempt a s
  | .cueResume a => Sys2Proof.Machine.execCueResume a s
  | .cueKill => Sys2Proof.Machine.execCueKill s
  | .cueFwd => Sys2Proof.Machine.execCueFwd s
  | .cueEnd => Sys2Proof.Machine.execCueEnd s
  | .queueContextWrite q mask value => Sys2Proof.Machine.execQueueContextWrite q mask value s
  | .doorbellTail q value => Sys2Proof.Machine.execDoorbellTail q value s
  | .doorbellCplhead q value => Sys2Proof.Machine.execDoorbellCplhead q value s
  | .cplerrClear q => Sys2Proof.Machine.execCplerrClear q s
  | .hostWrite loc data poisoned => Sys2Proof.Machine.execHostWrite loc data poisoned s
  | .hostRead loc len => Sys2Proof.Machine.execHostRead loc len s
  | .hostAtomicop loc op size x y => Sys2Proof.Machine.execHostAtomicop loc op size x y s
  | .hostAtomicCompletion req ok => Sys2Proof.Machine.execHostAtomicCompletion req ok s
  | .semaphoreWrite who value => Sys2Proof.Machine.execSemaphoreWrite who value s
  | .sidebandReset => Sys2Proof.Machine.execSidebandReset s
  | .pldmRequest msg => Sys2Proof.Machine.execPldmRequest msg s
  | .spdmRequest msg => Sys2Proof.Machine.execSpdmRequest msg s
  | .tier2LinkDown port => Sys2Proof.Machine.execTier2LinkDown port s
  | .flitReceive port flit => Sys2Proof.Machine.execFlitReceive port flit s
  | .fabricRead port msg => Sys2Proof.Machine.execFabricRead port msg s
  | .fabricWrite port msg => Sys2Proof.Machine.execFabricWrite port msg s
  | .fabricAtomic port msg => Sys2Proof.Machine.execFabricAtomic port msg s
  | .fabricLaunch port msg => Sys2Proof.Machine.execFabricLaunch port msg s
  | .fabricResponse port msg => Sys2Proof.Machine.execFabricResponse port msg s
  | .peerTimeout req => Sys2Proof.Machine.execPeerTimeout req s
  | .layoutCommit flashOk => Sys2Proof.Machine.execLayoutCommit flashOk s
  | .layoutFlip => Sys2Proof.Machine.execLayoutFlip s
  | .journalRecovery => Sys2Proof.Machine.execJournalRecovery s
  | .sliceSwitch part => Sys2Proof.Machine.execSliceSwitch part s
  | .slotHalt cell slot => Sys2Proof.Machine.execSlotHalt cell slot s
  | .granuleExchange cell => Sys2Proof.Machine.execGranuleExchange cell s
  | .cellStateExchange cell => Sys2Proof.Machine.execCellStateExchange cell s
  | .hbmRefresh stack pc scrub counts => Sys2Proof.Machine.execHbmRefresh stack pc scrub counts s
  | .sequencerTakeover stack => Sys2Proof.Machine.execSequencerTakeover stack s
  | .retune stack ok => Sys2Proof.Machine.execRetune stack ok s
  | .throttleRelease req => Sys2Proof.Machine.execThrottleRelease req s
  | .stackRestart stack => Sys2Proof.Machine.execStackRestart stack s
  | .stackRetry stack passes => Sys2Proof.Machine.execStackRetry stack passes s
  | .coldBootTraining stack passes => Sys2Proof.Machine.execColdBootTraining stack passes s
  | .warmResetRestore stack intact temp passes => Sys2Proof.Machine.execWarmResetRestore stack intact temp passes s
  | .countTableWrite stack bank => Sys2Proof.Machine.execCountTableWrite stack bank s
  | .errorBankClear who u => Sys2Proof.Machine.execErrorBankClear who u s
  | .functionCounterClear f k => Sys2Proof.Machine.execFunctionCounterClear f k s
  | .cueLoad part => Sys2Proof.Machine.execCueLoad part s
  | .cueLoadVerified part => Sys2Proof.Machine.execCueLoadVerified part s
  | .cueSwap part => Sys2Proof.Machine.execCueSwap part s
  | .budgetWrite f window budget => Sys2Proof.Machine.execBudgetWrite f window budget s
  | .energyWindowOpen f => Sys2Proof.Machine.execEnergyWindowOpen f s
  | .powerWindowEnd => Sys2Proof.Machine.execPowerWindowEnd s
  | .ephemerisModeWrite part mode => Sys2Proof.Machine.execEphemerisModeWrite part mode s
  | .replayTimeout part => Sys2Proof.Machine.execReplayTimeout part s
  | .registerWrite off value => Sys2Proof.Machine.execRegisterWrite off value s
  | .packageReset powerOn => Sys2Proof.Machine.execPackageReset powerOn s
  | .tier2LinkUp port => Sys2Proof.Machine.execTier2LinkUp port s
  | .forwardedFaultResolution cell slot kill => Sys2Proof.Machine.execForwardedFaultResolution cell slot kill s

end Sys2Proof.Machine
end

