-- ==== Sys2Proof/Machine/Clock.lean ====
section
/-!
DEFINITION. The passing of a cycle: common registers seen (01 R29), timers (01 R38), barriers that complete (07 R195), refresh, grid, slice
and window times, and the work whose latency has elapsed.
-/
namespace Sys2Proof.Machine

/-! ### Timers (01 R38) -/

def Slot.tickTimer (y : Slot) : Slot :=
  if (y.state = .ready || y.state = .parked) && y.th.timer != 0 then { y with th := { y.th with timer := y.th.timer - 1 } } else y
/-- The slots whose timer passes from 1 to 0 in this cycle while tie is 1. -/
def State.expiring (s : State) : List Due :=
  (s.allSlots.filter fun (_, _, y) => (y.state = .ready || y.state = .parked) && y.th.timer = 1 && y.th.tie).map fun (c, i, _) => .timerExpiry c i

/-! ### Wakes in the cycle of a save (20 R414) -/

/-- Whether what a thread waited for that was saved in this cycle has come in it. -/
def State.wokeSaved (s : State) (c i key : Nat) (w : Wait) : Bool :=
  match w with
  | .tags all m _ => (tagResult (s.cell c).tdone m all).isSome
  | .barrier n ph => ((s.cell c).bar n).phase != ph
  | .watch .. => s.watchDone c i
  | .pop k _ _ =>
    if k < 2 ^ 31 then (s.stage k).any fun q => q.killed || q.closed || q.occ ≠ 0
    else
      let q := s.queue (k - 2 ^ 31)
      q.killed || q.closed || q.head.isSome
  | w => s.waitOver w (s.readImage key (s.th c i))
/-- A wake in the save cycle sets ready and ras in the image. -/
def State.savedWake (s : State) (c i : Nat) (y : Slot) : State :=
  let key := imageKey c i
  if y.state = .saved && y.savedAt = some s.cycle && !(s.imagePark key).2 && (y.th.wait.map (s.wokeSaved c i key)).getD false then
    s.write none (key + 0xE10) 8 (readNat s.mem (key + 0xE10) 8 ||| 3 * 2 ^ 41)
  else s

/-! ### Periodic work -/

/-- Prompter events: dispatch grid cycles (19 R386), ticks (19 R385), slice switches (20 R410). -/
def State.partDue (s : State) : List Due :=
  (partList s.layout.active).flatMap fun p =>
    let x := s.part p
    (if s.cycle % 24 = 0 && x.disp.event.isNone then [.dispatch p] else []) ++
    (if x.tick ≠ 0 && (s.cycle - x.tickFrom) % x.tick.toNat = 0 then [.tick p] else []) ++
    (if partSlice s.layout.active p && partSliceLen s.layout.active p ≠ 0 && x.switching.isNone &&
        x.sliceFrom + partSliceLen s.layout.active p = s.cycle then [.slice p] else []) ++
    (if x.ephMode = 2 && x.ephWait + 2 ^ 24 ≤ s.cycle then [.replayTimeout p] else [])
/-- Energy windows (23 R456) and power windows (23 R459). -/
def State.windowDue (s : State) : List Due :=
  (s.fns.filterMap fun (f, x) =>
    if x.budget ≠ 0 && x.window ≠ 0 && s.cycle ≠ x.opened && (s.cycle - x.opened) % x.window.toNat = 0 then some (Due.window f) else none) ++
  (if s.cycle % 270000 = 0 then [.power] else [])

/-- In a replay, held full/empty operations whose value now stands next are performed (23 R467). -/
def State.retryReplays (s : State) : State :=
  if s.parts.any fun x => x.2.ephMode = 2 then
    (s.feHeld.filterMap fun id => (s.reqs.look id).map fun r => r.key / 8).eraseDups.foldl (fun s w => s.serveFe w s.feHeld.length) s
  else s

/-! ### The order of one cycle's accesses (11 R307, 16 R353, 06 R153) -/

def placeRank (k c i : Nat) : Nat := (k * 1024 + c) * 16 + i
/-- The order in which a home performs the requests of one cycle: threads and commit engines, copy engines, matrix arrays, rigging engines, host,
peers; within one kind by physical cell, or stack, and then by slot. -/
def State.rank (s : State) : Due → Nat
  | .feRetry r | .reply r | .ack r | .throttle r => match s.reqs.look r with
    | some x => placeRank 0 x.cell x.slot
    | none => 0
  | .commit c i => placeRank 0 c i
  | .segment o | .entryRead o | .chain o | .completion o => match s.ops.look o with
    | some x => placeRank 1 x.cell x.slot
    | none => 0
  | .matrixStep c => placeRank 2 c 0
  | .ropeExec n | .walkEmit n | .tailPoll n => match s.cmds.look n with
    | some x => placeRank 3 x.home 0
    | none => 0
  | .reclaim _ => placeRank 3 64 0
  | .hostDone _ => placeRank 4 0 0
  | .fabric .. => placeRank 5 0 0
  | _ => placeRank 6 0 0
/-- Put a piece of work before the first of a higher rank. -/
def State.rankIn (s : State) (d : Due) : List Due → List Due
  | [] => [d]
  | e :: l => if s.rank d ≤ s.rank e then d :: e :: l else e :: s.rankIn d l
def State.ranked (s : State) (l : List Due) : List Due := l.foldr s.rankIn []

/-- An energy window opens after all charges of its cycle (23 R456). -/
def Due.atEnd : Due → Bool
  | .window _ => true
  | _ => false
def Due.ofPeer : Due → Bool
  | .fabric .. => true
  | _ => false
/-- Work that comes at the end of its cycle: what reaches a pool over the mesh, or its bank units as that does (06 R151), after the cell's own
accesses (01 R12); an engine's step in another cell's pool; and what peers ask for. -/
def State.arriving (s : State) : Due → Bool
  | .feRetry r | .reply r | .ack r => match s.reqs.look r with
    | some x => x.done.isNone && (x.op.parts x.key).any (·.1 < 2 ^ 31)
    | none => false
  | d => d.ofPeer || d.atEnd || (s.meshOp d).isSome
/-- An engine's step that comes at the end of the cycle has the banks of its own pool before the threads (01 R12). -/
def State.meshBanks (s : State) : State :=
  (s.due.filterMap s.meshOp).foldl (fun s o => (s.stepPools o).foldl (fun s (k, n) => s.useBanks o.cell k n) s) s

/-- The end of a cycle and the start of the next. -/
def tick (s : State) : State :=
  let s := s.logDirty
  let s := s.cells.foldl (fun s (c, _) => (s.barriers c).landDue c) s
  let s := s.allSlots.foldl (fun s (c, i, _) => s.parkedDue c i) s
  let s := s.allSlots.foldl (fun s (c, i, y) => s.savedWake c i y) s
  let s := s.engineDue
  let exp := s.expiring
  let s : State := { s with cycle := s.cycle + 1, turn := 0 }
  let s : State := { s with cells := s.cells.map fun (c, x) =>
    (c, { x.commitK s.cycle with slots := x.slots.map fun (i, y) => (i, y.tickTimer) }) }
  let s := s.sense.swapsDue.prompterDue.retryKills.retryReplays.flushHeld.flagFull.returnRefresh.startRetunes.latchCuts
  let now := (s.later.filter (·.1 ≤ s.cycle)).map (·.2)
  { s with
    due := exp ++ s.ranked (s.due ++ now) ++ s.refreshDue ++ s.partDue ++ s.switchDue ++ s.windowDue
    later := s.later.filter (s.cycle < ·.1) : State }.meshBanks

end Sys2Proof.Machine
end

