-- ==== Sys2Proof/Machine/Upset.lean ====
section
/-!
DEFINITION. Errors that the codes of the device's storage detect (22 R439, R440, R449), and what expanders report (18 R375): what may strike in
a cycle is open, and what each does is as the manual says.
-/
namespace Sys2Proof.Machine

/-- An error that a code detects: in a word of memory, with the function whose access found it in a second-tier word; in a register; or in a
line of an instruction cache or of a rigging engine's node cache. -/
inductive Upset where
  | word (key : Nat) (uc : Bool) (fn : Option Nat)
  | register (cell slot : Nat) (r : Opnd) (uc : Bool)
  | code (cell space line : Nat)
  | node (stack key : Nat)
  deriving DecidableEq, Repr

end Sys2Proof.Machine
namespace Sys2Proof.Config

/-- The errors detected in a cycle (22 R439; log entry 56). -/
opaque upsets : Nat → List Machine.Upset

end Sys2Proof.Config
namespace Sys2Proof.Machine

/-- The function whose context holds a granule of a cell's pool or wings (22 R449); during a switch the outgoing tenant's until it has been
exchanged (20 R411). -/
def State.granuleFn (s : State) (c off : Nat) (wing : Bool) : Option Nat :=
  let b := s.layout.active
  let x := s.cell c
  ((partList b).find? fun p => inPart p c).map fun p =>
    let there := x.switch && x.granules.contains (off / 4096)
    if partSlice b p then tenantFn b p (((s.part p).tenant != there) != wing) else partVf0 b p
/-- Mark the unit of a key as poison. -/
def State.spoil (s : State) (key : Nat) : State := { s with poison := (s.unitPlaces key 1 false).foldl setAdd s.poison }
/-- What one error does: it is recorded, and data that no code corrects becomes poison; a cache line is fetched again (22 R439). -/
def State.upset (s : State) (u : Upset) : State :=
  let syn := bits (Config.freeValue s.fresh) 0 64
  let s : State := { s with fresh := s.fresh + 1 }
  match u with
  | .word key uc fn =>
    let kind := if uc then 2 else 1
    let bad (s : State) : State := if uc then s.spoil key else s
    match kindOf key with
    | .pool d => if 2048 ≤ d then s else (bad s).err ⟨d % 1024, kind, uc, s.granuleFn (d % 1024) (key % 2 ^ 20) (1024 ≤ d), key % 2 ^ 20, syn⟩
    | .hbm => match stackOf (hbmOff key) with
      | some k => if (s.stack k).train = 2 then (bad s).err ⟨1024 + k, kind, uc, s.quotaOwner (hbmOff key), hbmOff key, syn⟩ else s
      | none => s
    | .tier2 => (bad s).err ⟨1062 + tier2Port key, 8, uc, fn, key - keyTier2, syn⟩
    | _ => s
  | .register c i r uc =>
    -- a register counts for the tenant whose context holds the slot's granule (22 R449)
    let s := (s.err ⟨c, if uc then 2 else 1, uc, (s.granuleFn c (4096 * i) false).orElse fun _ => s.threadFn c i, bits (Config.freeValue s.fresh) 0 64, syn⟩)
    let v := Config.freeValue (s.fresh + 1)
    let s : State := { s with fresh := s.fresh + 2 }
    -- no poison is kept in a register: what it holds after an error that no code corrects is open (log entry 56)
    if !uc then s
    else match r with
      | .s n => s.modTh c i fun t => t.ws n.toNat ⟨v.setWidth 128, (t.rs n.toNat).tag && v.getLsbD 128⟩
      | .v n => s.modTh c i fun t => t.wv n.toNat { t.rv n.toNat with bits := v }
      | _ => s
  | .code c space line =>
    let hit (x : Nat × Nat × Nat × Bool × List Byte) : Bool := x.1 = clusterOf c && x.2.1 = space && x.2.2.1 = line
    if s.icache.any hit then ({ s with icache := s.icache.filter (!hit ·) } : State).err ⟨c, 3, false, none, line * 64, syn⟩ else s
  | .node k key =>
    let x := s.rigs.at k {}
    if x.lines.any (·.2 = key) then
      ({ s with rigs := s.rigs.put k { x with lines := x.lines.filter (·.2 != key) } } : State).err ⟨1040 + k, 3, false, none, hbmOff key, syn⟩
    else s
/-- The errors of the cycle that has begun. -/
def State.upsets (s : State) : State := (Config.upsets s.cycle).foldl State.upset s

end Sys2Proof.Machine
end

