-- ==== Sys2Proof/Machine/Issue.lean ====
section
/-!
DEFINITION. Whose move the next step is: the steps that outside agents and elapsed time have made due, then the decision engines and the
cells of the current cycle in order (01 R10, 19 R390), each with the instruction it fetches (03 R75, R83 step 1, R94), then what reaches a
pool over the mesh and what the host and peers do to memory (01 R12, 11 R307), and at the end of the cycle the clock.
-/
namespace Sys2Proof.Machine

/-- What the next step does: run an instruction or event, or go straight to a state. -/
inductive Move where
  | run (i : Instr) (s : State)
  | go (s : State)
  deriving DecidableEq, Repr

/-- The step of the opcode table that a piece of due work stands for. (No code is generated for it, as for `decodeCue`.) -/
noncomputable def Due.instr : Due → Instr
  | .feRetry r => .feRequestRetry r
  | .leaseExpiry w => .lrLeaseExpiry w
  | .reply r => .memoryReply r
  | .ack r => .writeAck r
  | .scrubDone c i => .registerScrubDone c i
  | .timerExpiry c i => .timerExpiry c i
  | .timerInt c i => .timerInterrupt c i
  | .arrivalInt c i => .arrivalInterrupt c i
  | .ckTrap c i => .checksumFaultTrap c i
  | .imaskEnd c i => .imaskWindowEnd c i
  | .pktCount c i => .packetCountClose c i
  | .packetEnter c i => .packetEnterNetwork c i
  | .packetLand n => .packetLanding n
  | .packetReoffer n => .packetReoffer n
  | .commit c i => .commitPerform c i
  | .barCount c i => .barArrivalCount c i
  | .pairTimeout c i => .pairTimeout c i
  | .alignTimeout c i => .alignTimeout c i
  | .segment o => .copySegmentWrite o
  | .entryRead o => .cpGEntryRead o
  | .chain o => .cpmxChainEnqueue o
  | .matrixStep c => .matrixStep c [] []
  | .completion o => .engineCompletion o
  | .faultRecord o => .engineFaultRecord o
  | .faultReply f n => .engineFaultReply f n
  | .ropeExec o => .ropeCommandExecute o
  | .ropeLand o => .ropeResultLanding o
  | .walkEmit o => .walkRecordEmit o
  | .tailPoll o => .walkTailPoll o
  | .reclaim p => .nodeReclaim p
  | .refill p k => .stageRefill p k
  | .headRead q => .headPacketRead q
  | .dispatch p => .dispatchEvent p
  | .tick p => .tickEvent p
  | .control p => .controlEventTake p
  | .fixedPolicy p b => .fixedPolicyDecision p b
  | .gang d => .gangPlacement d
  | .slice p => .sliceSwitch p
  | .window f => .energyWindowOpen f
  | .power => .powerWindowEnd
  | .refresh k pc t => .hbmRefresh k pc (Config.scrubFinds k pc t) (Config.bankCounts k pc t)
  | .retune k b => .retune k b
  | .takeover k => .sequencerTakeover k
  | .peerTimeout r => .peerTimeout r
  | .replayTimeout p => .replayTimeout p
  | .throttle r => .throttleRelease r
  | .slotHalt c i => .slotHalt c i
  | .granule c => .granuleExchange c
  | .block c => .cellStateExchange c
  | .cueLoaded p => .cueLoadVerified p
  | .layoutCommit b => .layoutCommit b
  | .train k b => .coldBootTraining k b
  | .hostDone r => .hostAtomicCompletion r false
  | .fabric p m =>
    match m.op with
    | 1 => .fabricRead p m
    | 2 => .fabricWrite p m
    | 3 => .fabricAtomic p m
    | 4 => .fabricLaunch p m
    | _ => .fabricResponse p m
  | .layoutFlip => .layoutFlip

/-! ### Which slot issues (01 R10, 23 R457) -/

/-- A ready slot whose last issue was 8 or more cycles earlier. -/
def Slot.eligible (y : Slot) (cycle : Nat) : Bool :=
  y.state = .ready && y.woke != some cycle && match y.last with
    | none => true
    | some t => t + 8 ≤ cycle
/-- The cut that a slot obeys (23 R457, R459). -/
def State.cutOf (s : State) (y : Slot) : Nat :=
  max s.module.mcut (((s.slotFn y).map fun f => (s.fnSt f).turnCut).getD 0)
/-- The slots of a cell in the circular order after the slot that issued last. -/
def Cell.order (x : Cell) : List Nat := (List.range 16).map fun k => (x.last + 1 + k) % 16
/-- The slot that issues in a cell in this cycle, with the eligible turns of passed-over slots counted. -/
def State.pick (s : State) (c : Nat) : List Nat → State × Option Nat
  | [] => (s, none)
  | i :: is =>
    let y := s.slot c i
    if y.eligible s.cycle then
      let k := s.cutOf y
      if k = 0 then (s, some i)
      else
        let s := s.setSlot c i { y with turns := y.turns + 1 }
        if (y.turns + 1) % 2 ^ k = 0 then (s, some i) else s.pick c is
    else s.pick c is

/-! ### Instruction fetch (03 R83 step 1, R94) -/

/-- The lines that a cluster's cache holds stay as they were read until `sys.tlbinv` discards them; with whether user mode may execute them. -/
def lineHeld (s : State) (cl space line : Nat) : Option (Bool × List Byte) :=
  (s.icache.find? fun (a, b, l, _) => a = cl && b = space && l = line).map (·.2.2.2)
/-- Read a 64-byte line from memory and keep it; at most 4,096 lines a cluster (256 KiB), the oldest leaving first. -/
def State.fillLine (s : State) (cl space line key : Nat) (user : Bool) : State × List Byte :=
  let bs := natToBytes 64 (readNat s.mem key 64)
  let mine := s.icache.filter fun x => x.1 = cl
  let ic := if mine.length < 4096 then s.icache else s.icache.filter fun x => !(x.1 = cl && some x = mine.head?)
  ({ s with icache := ic ++ [(cl, space, line, user, bs)] }, bs)
/-- The byte at a virtual address of a thread's code, or its fault; `none` in the byte is poison. A line that holds poison is not kept. Two
points that 03 R94 and 18 R380 leave open (DESIGN CHOICE, log entry 58): lines of own-pool code stay held across a slice switch; a fetch
through a page of peer memory reads what this device holds under the peer's key and sends no message. -/
def State.fetchByte (s : State) (c i : Nat) (a : Nat) : State × Except Stop (Option Byte) :=
  let t := s.th c i
  let tv : W96 := BitVec.ofNat 96 a
  let user := t.mode = .user
  match capCheck t.codeCap [permExec] a 1 with
  | some x => (s, .error (.trap x))
  | none =>
    match s.space c i user a 1 with
    | .error x => (s, .error (.trap x))
    | .ok pool =>
      let space := match pool with
        | some k => 8192 + k / 2 ^ 20
        | none => t.asid.toNat
      let line := if pool.isSome then a % 2 ^ 20 / 64 else a / 64
      let cl := clusterOf c
      let held := lineHeld s cl space line
      if pool.isNone && ((s.threadFn c i).isNone || s.owner space ≠ s.threadFn c i) then (s, .error (.trap ⟨0x0B, 3, tv, false⟩))
      else match held with
      | some (ok, bs) =>
        -- a line that only supervisor mode has fetched is checked for user mode (20 R423)
        if ok || !user then (s, .ok (some (bs.getD (a % 64) 0)))
        else match s.translate (s.threadFn c i) c t.asid.toNat a .fetch true false (some i) with
          | (s, .fault) => (s, .error (.trap ⟨0x0B, 3, tv, false⟩))
          | (s, .held _) => (s, .error .later)
          | (s, .ok _) =>
            ({ s with icache := s.icache.map fun (b, sp, l, u, x) => (b, sp, l, u || (b = cl && sp = space && l = line), x) }, .ok (some (bs.getD (a % 64) 0)))
      | none =>
        let x : State × Walked Nat := match pool with
          | some k => (s, .ok k)
          | none => s.translate (s.threadFn c i) c t.asid.toNat a .fetch user false (some i)
        match x with
        | (s, .fault) => (s, .error (.trap ⟨0x0B, 3, tv, false⟩))
        | (s, .held _) => (s, .error .later)
        | (s, .ok k) =>
          match s.holdAct ((s.payer c i).getD 0) (16 * c + i + 1) [(k - k % 64, 64)] with
          | (s, some _) => (s, .error .later)
          | (s, none) =>
          let s := s.access (s.payer c i) (k - k % 64) 64 false
          if s.poisoned k 1 then (s, .ok none)
          else if s.poisoned (k - k % 64) 64 then (s, .ok (some (BitVec.ofNat 8 (readNat s.mem k 1))))
          else
            let (s, bs) := s.fillLine cl space line (k - k % 64) (user || pool.isSome)
            (s, .ok (some (bs.getD (a % 64) 0)))

/-- The result of a fetch: the 12 bytes, a fault, or poison at an address. -/
inductive Fetched where
  | bytes (l : List Byte)
  | trap (x : Trap)
  | poison (va : Nat)
  | later
  deriving DecidableEq, Repr

def State.fetchFrom (s : State) (c i a : Nat) : Nat → List Byte → State × Fetched
  | 0, acc => (s, .bytes acc.reverse)
  | n + 1, acc =>
    match s.fetchByte c i a with
    | (s, .error (.trap x)) => (s, .trap x)
    | (s, .error .later) => (s, .later)
    | (s, .ok none) => (s, .poison a)
    | (s, .ok (some b)) => s.fetchFrom c i (a + 1) n (b :: acc)
/-- The 12 bytes at the thread's pc, also at a pc that is no multiple of 4 (03 R75 gives no outcome: DESIGN CHOICE, log entry 58). -/
def State.fetch (s : State) (c i : Nat) : State × Fetched := s.fetchFrom c i (s.th c i).pc.toNat 12 []

/-- Whether the code bytes of a thread lie in an own-pool granule that a switch has not exchanged yet, and are not in its instruction cache: the
issue is then cancelled (20 R411, R412). -/
def State.fetchWaits (s : State) (c i : Nat) : Bool :=
  let a := (s.th c i).pc.toNat
  s.incoming c i && (List.range 12).any fun k =>
    match s.space c i ((s.th c i).mode = .user) (a + k) 1 with
    | .ok (some key) => s.notYet key 1 && (lineHeld s (clusterOf c) (8192 + key / 2 ^ 20) ((a + k) % 2 ^ 20 / 64)).isNone
    | _ => false
/-- The issue is charged and dated (01 R10, 23 R453 class 0). -/
def State.issued (s : State) (c i : Nat) : State :=
  let s := s.setSlot c i { s.slot c i with last := some s.cycle }
  (s.modCell c fun x => { x with last := i }).chargeTh c i 90 1

/-- The code of a word that is no instruction, the lowest that applies (03 R84): `k` is what the word alone shows, and code 5 may come from
the thread's state (04 R112, 06 R177, 07 R212). -/
def illegalCode (w : W96) (t : Thread) (k : Nat) : Nat :=
  let op := bits w 0 8
  let fn := bits w 8 6
  let dyn := (op = 0x20 && fn = 0 && bits w 56 8 = 1 && t.pair ≠ 3) || ((op = 0xE9 || op = 0xEA) && t.pair ≠ 3) || (op = 0xA0 && fn = 5 && !t.hnd)
  if 5 < k && dyn then 5 else k
/-- The interrupt or checksum trap that is takeable at the boundary of a slot that is to issue (06 R174, 01 R40, 07 R203). -/
noncomputable def State.boundaryStep (s : State) (c i : Nat) : Option Instr :=
  let t := s.th c i
  if t.again then none
  else if t.ckTrap.isSome && !t.pktOpen then some (.checksumFaultTrap c i)
  else if (s.followInt c i).isSome then some (if s.followInt c i = some 0 then .timerInterrupt c i else .arrivalInterrupt c i)
  else if t.arrivalReady && !s.lockHolds c i then some (.arrivalInterrupt c i)
  else if s.timerTakes c i && !s.lockHolds c i then some (.timerInterrupt c i)
  else none
/-- The move of the slot that issues: what is takeable at its boundary, which is no turn of its own and leaves the turns as they were (`was`),
else the instruction at its pc. -/
noncomputable def State.slotMove (s was : State) (c i : Nat) : Move :=
  match s.boundaryStep c i with
  | some k => .run k was
  | none =>
    let s := { s.issued c i with cur := (c, i), turn := 512 + c + 1 }
    if s.fetchWaits c i then .go s
    else match s.fetch c i with
    | (s, .trap x) => .go (s.takeTrap c i x)
    | (s, .poison va) => .go (s.killPoison c i va)
    | (s, .later) => .go s
    | (s, .bytes bs) =>
      let w : W96 := BitVec.ofNat 96 (wordLE bs)
      match decodeWord w with
      | .error k => .go (s.takeTrap c i ⟨1, illegalCode w (s.th c i) k, w, false⟩)
      | .ok ins => .run ins s

/-! ### Decision engines (19 R390, R395) -/

/-- The move of a decision engine: its next word, its overrun (19 R395 code 1), or a program error met on the word (codes 2 and 4). -/
noncomputable def State.engineMove (s : State) (p : Nat) (ctl : Bool) : Move :=
  let e := s.engine p ctl
  let s := { s with curEng := (p, ctl), turn := 2 * p + ctl.toNat + 1 }
  if e.budget ≤ e.steps then .run (.decisionOverrun p ctl) s
  else
    match e.prog[e.pc]? with
    | none => .go (s.cueError p ctl 4)
    | some w =>
      match decodeCue w with
      | none => .go (s.cueError p ctl 2)
      | some i => .run i (s.setEngine p ctl { e with steps := e.steps + 1 })

/-! ### The next move -/

/-- The decision engines that are inside a decision, and the cells, by their number in the order of a cycle. -/
def State.engineAt (s : State) (n : Nat) : Option (Nat × Bool) :=
  (s.parts.flatMap fun (p, x) => (if x.disp.live then [(p, false)] else []) ++ (if x.ctl.live then [(p, true)] else [])).find? fun (p, b) =>
    n ≤ 2 * p + b.toNat
/-- Try the cells from number `n` on: the first in which a slot issues. -/
def State.cellAtTurn (s : State) (n : Nat) : List Nat → State × Option (Nat × Nat)
  | [] => (s, none)
  | c :: cs =>
    if n ≤ 512 + c then
      match s.pick c (s.cell c).order with
      | (s, some i) => (s, some (c, i))
      | (s, none) => s.cellAtTurn n cs
    else s.cellAtTurn n cs

/-- Messages of peers. -/
noncomputable def fromPeer : Instr → Bool
  | .flitReceive .. | .fabricRead .. | .fabricWrite .. | .fabricAtomic .. | .fabricLaunch .. | .fabricResponse .. => true
  | _ => false
/-- Steps of the host and of peers. In one cycle they come after the device's own accesses (01 R12, 11 R307), in the order in which they arrived
(18 R372). -/
noncomputable def fromOutside : Instr → Bool
  | .hostWrite .. | .hostRead .. | .hostAtomicop .. => true
  | i => fromPeer i
/-- A write of the host to registers: it reads nothing that the dirty log writes, and a setting in the cycle of an ovf clear comes after the clear
(23 R463). -/
noncomputable def toRegs : Instr → Bool
  | .hostWrite (.bar4 _) .. | .hostWrite (.pf1 _) .. => false
  | .hostWrite .. => true
  | _ => false
/-- A move of the outside, before which the settings of d in the cycle are logged when it may see them (23 R463). -/
def State.logged (s : State) (blind : Bool) (m : Move) : Move := if s.dirty.isEmpty || blind then m else .go s.logDirty
/-- The end of a cycle, when all cells have moved: accesses that arrive at pools, the host's, those of peers, and then the clock. -/
noncomputable def State.endMove (s : State) : Move :=
  match takeFirst (fun d => !d.ofPeer && !d.atEnd) s.due with
  | some (d, rest) => .run d.instr { s with due := rest }
  | none =>
    match takeFirst (!fromPeer ·) s.agenda with
    | some (i, rest) => s.logged (toRegs i) (.run i { s with agenda := rest })
    | none =>
      match takeFirst (!·.atEnd) s.due with
      | some (d, rest) => s.logged false (.run d.instr { s with due := rest })
      | none =>
        match s.agenda with
        | i :: rest => s.logged false (.run i { s with agenda := rest })
        | [] =>
          match s.due with
          | d :: rest => s.logged false (.run d.instr { s with due := rest })
          | [] => .go (tick s).upsets
noncomputable def nextMove (s : State) : Move :=
  match s.aborts with
  | (c, i, d) :: rest => .go (({ s with aborts := rest } : State).noteTh ephCommit c i (BitVec.ofNat 64 d))
  | [] =>
  match takeFirst (!fromOutside ·) s.agenda with
  | some (i, rest) => .run i { s with agenda := rest }
  | none =>
    match takeFirst (!s.arriving ·) s.due with
    | some (d, rest) => .run d.instr { s with due := rest }
    | none =>
      match s.engineAt s.turn with
      | some (p, b) => s.engineMove p b
      | none =>
        match s.cellAtTurn (max s.turn 512) (s.cells.map (·.1)) with
        | (s', some (c, i)) => s'.slotMove s c i
        | (s', none) => ({ s' with turn := 1537 } : State).endMove

end Sys2Proof.Machine
end

