-- ==== Sys2Proof/Machine/Step.lean ====
section
/-!
DEFINITION. One step of the machine, and the state in which the next step runs a given word.
-/
namespace Sys2Proof.Machine

/-- One step: the next move (Machine/Issue.lean), which runs one instruction or event, or passes a cycle. -/
noncomputable def step (s : State) : Host.Outcome State Fault Refusal :=
  match nextMove s with
  | .run i s' => exec i s'
  | .go s' => .next s'

/-- Own-pool address of the word that `withFetchWord` places, and its code capability. -/
def fetchBase : Nat := 0xE00000001000

/-- The machine about to run one word as its next step. A 96-bit word lies in the own pool of cell 0, where a thread of partition 1 stands
bound in slot 0 with its code capability and its pc there, as a launch leaves it (10 R282). A 32-bit word is the program of a decision
that the dispatch engine of partition 1 is about to start (19 R390). -/
def State.withFetchWord (s : State) (nbits w : Nat) : State :=
  let s := { s with agenda := [], due := [], aborts := [] }
  if nbits ≤ 32 then
    let x := s.part 1
    { s.setPart 1 { x with disp := { x.disp with event := some .dispatch, pc := 0, steps := 0, emits := [], fixed := false,
                                                 prog := [BitVec.ofNat 32 w] } } with turn := 2 }
  else
    let th : Thread := { pc := BitVec.ofNat 48 fetchBase, ucap := mkCap 5 fetchBase 12 fetchBase }
    let y : Slot := { state := .ready, th := th, bind := some ⟨1, none, 0, 0, none, none⟩ }
    let s := s.modCell 0 fun x => { x.setSlot 0 y with last := 15, pword := 1 }
    { s with
      mem := writeNat s.mem (poolKey 0 0x1000) 12 (w % 2 ^ 96)
      poison := (List.range 16).foldl (fun l k => setDel l (0x1000 / 4 + k)) s.poison
      icache := s.icache.filter fun x => x.2.1 != 8192
      parts := []
      turn := 512 }

end Sys2Proof.Machine
end

