-- ==== Sys2Proof/Safety.lean ====
section
/-!
DEFINITION. What counts as a safe run, and the terms in which claims speak of the issue of an instruction: when it executes, which thread runs it,
what it has read, and how it ends.
-/
namespace Sys2Proof.Machine

/-- Memory is in canonical form. -/
def State.memOk (s : State) : Prop := Memory.wf s.mem = true

/-- A run of `k` steps from `s` never stops. -/
def runs (s : State) : Nat → Prop
  | 0 => True
  | k + 1 => ∃ t, step s = .next t ∧ runs t k

/-! ### The thread that issues -/

def State.me (s : State) : Thread := s.th s.cur.1 s.cur.2
/-- The value of a source operand of the issuing thread (03 R80, R81). -/
def State.val (s : State) (o : Opnd) : Reg := s.operand s.cur.1 s.cur.2 o
def State.data (s : State) (o : Opnd) : W64 := (s.val o).data
/-- The vector register that a v operand names. -/
def State.vec (s : State) (o : Opnd) : VReg :=
  match o with
  | .v n => s.me.rv n.toNat
  | _ => {}
/-- Change the issuing thread. -/
def State.modMe (s : State) (g : Thread → Thread) : State := s.modTh s.cur.1 s.cur.2 g
/-- Write a d-class destination of the issuing thread. -/
def State.put (s : State) (d : Opnd) (v : W64) : State := s.writeD s.cur.1 s.cur.2 d v

/-- Steps 2 to 5 of 03 R83 pass for the instruction of row `r` and fields `f`: no encoding of a state it is not in, its operand classes, its mode,
its guard; the thread is in no atomic region and no locked pair, no slice switch holds it back, a write is not held back behind writes from
before a restore (11 R321), and every message register it reads is full (01 R26). -/
structure RowExecutes (r : Row) (f : Fields) (s : State) : Prop where
  enc : r.dynError f s.me = false
  cls : r.classError f = none
  mode : r.mode ≤ s.me.mode.num
  guard : s.me.guard f = true
  region : s.me.region = none
  pair : s.me.pair = 0 ∨ s.me.pair = 3
  here : s.incoming s.cur.1 s.cur.2 = false
  resumed : s.resumeHolds s.cur.1 s.cur.2 r = false
  full : ∀ n ∈ r.msgSources f, (s.me.rm n).full = true

/-- A thread instruction executes (03 R83 step 6). -/
def Executes (i : Instr) (s : State) : Prop :=
  match rowOf i with
  | some (r, f) => RowExecutes r f s
  | none => False

/-- The message registers that an executing instruction reads are consumed: empty, with their values kept (01 R26). -/
def consumed (i : Instr) (s : State) : State :=
  match rowOf i with
  | some (r, f) => (r.msgSources f).foldl (fun s n => s.modMe fun t => t.wm n { t.rm n with full := false }) s
  | none => s

/-- The issuing thread's instruction counts, and the thread goes on in sequence: with the lend action of its address (04 R116). -/
def State.next (s : State) : State := (s.counted s.cur.1 s.cur.2).modMe Thread.advance
/-- The instruction counts, and the thread goes on at a branch target; `leaves` for a branch that may leave loop bodies (04 R118). -/
def State.goto (s : State) (target : Addr) (leaves : Bool) : State := (s.counted s.cur.1 s.cur.2).modMe (·.branch target leaves)
/-- The instruction counts, and its thread parks (01 R14) with the lend action recorded (04 R117). -/
def State.parks (s : State) (w : Wait) : State := ((s.counted s.cur.1 s.cur.2).modMe Thread.parkLend).park s.cur.1 s.cur.2 w
/-- The issuing thread takes a trap at its pc (20 R415). -/
def State.traps (s : State) (cause detail : Nat) (tval : W96) : State := s.takeTrap s.cur.1 s.cur.2 ⟨cause, detail, tval, false⟩

end Sys2Proof.Machine
end

