-- ==== Sys2Proof/Certificates/Slice0/Obligations.lean ====
section
/-!
DEFINITION. The statements about the model, for proof: what the rules of the manual say of words, of steps and of single instructions.
-/
open Sys2Proof Sys2Proof.Machine

/-! ### Words (03, 19 R391) -/

/-- The 96-bit words of the manual's examples decode to the instruction, operands and modifiers that the manual gives for them: the worked example of
chapter 03 that loads through a capability with acquire order, the backward branch with off32 -5, cap.bound.p3 s4, s2, s5, the packet-closing send
of chapter 06; and the cue words for li and end. -/
def Obligations.ManualWordsDecode : Prop :=
  decodeWord (BitVec.ofNat 96 (0x081C0270 + 0x43000000 * 2 ^ 32 + 0x40 * 2 ^ 64)) =
    .ok (.ldW { d := .s 7, a := .s 2, b := .s 0, m := 0x43, imm := 0x40 }) ∧
  decodeWord (BitVec.ofNat 96 (0x00004020 + 0xFFFFFFFB * 2 ^ 64)) = .ok (.ctlBr { gp := 1, imm := 0xFFFFFFFB }) ∧
  decodeWord (BitVec.ofNat 96 (0x08100010 + 0x03000014 * 2 ^ 32)) = .ok (.capBound { d := .s 4, a := .s 2, b := .s 5, m := 3 }) ∧
  decodeWord (BitVec.ofNat 96 (0x180000A1 + 0x01000400 * 2 ^ 32 + 0x8C05 * 2 ^ 64)) =
    .ok (.msgSendI { a := .s 6, m := 1, e := true, imm := 0x8C05 }) ∧
  decodeCue 0x48400005 = some (.cueLi 1 5) ∧ decodeCue 0xFC000000 = some .cueEnd

/-- For every well-formed instruction that has a 96-bit word (every constructor with a row of the encoding table), with every operand, guard,
modifier, immediate and hint at every value its encoding admits, the decoder reads from the encoder's word exactly that instruction. -/
def Obligations.ThreadWordsRoundTrip : Prop :=
  ∀ (i : Instr) (w : W96), i.wf = true → encode i = some w → decodeWord w = .ok i

/-- If a 96-bit word decodes to an instruction, that instruction is well-formed and the encoder gives the same word back: every bit of a word that is
an instruction is either read into a field or must have the one value that the form, the unused fields and the reserved bits allow. From the
twelve bytes that hold a word as three 32-bit parcels at ascending addresses, each parcel little-endian, the decoder of bytes reads what the word
decodes to, and leaves the bytes after them; from fewer than twelve bytes it reads no instruction. -/
def Obligations.DecodedWordsEncodeBack : Prop :=
  (∀ (i : Instr) (w : W96), decodeWord w = .ok i → i.wf = true ∧ encode i = some w) ∧
  (∀ (w : W96) (rest : List Byte),
    decodeBytes ((List.range 12).map (fun k => w.extractLsb' (32 * (k / 4) + 8 * (k % 4)) 8) ++ rest) =
      (decodeWord w).map fun i => (i, rest)) ∧
  (∀ bs : List Byte, bs.length < 12 → ∃ k, decodeBytes bs = .error k)

/-- For every cue instruction that is well-formed (a window number of at most 9 in rdw) the decoder reads it back from its 32-bit word; and a 32-bit
word that decodes is the word of what it decodes to. -/
def Obligations.CueWordsRoundTrip : Prop :=
  (∀ (i : Instr) (w : W32), i.wf = true → encodeCue i = some w → decodeCue w = some i) ∧
  (∀ (i : Instr) (w : W32), decodeCue w = some i → encodeCue i = some w)

/-! ### Steps -/

/-- Nothing moves before the decision engines in this cycle: no abort waits to be noted in an ephemeris, all that waits from outside is the host's
and the peers' accesses to memory, and all that is due comes at the end of the cycle: accesses that arrive at pools (01 R12, 11 R307), and the
opening of energy windows (23 R456). -/
def Sys2Proof.Machine.Quiet (s : State) : Prop := s.aborts = [] ∧ (∀ i ∈ s.agenda, fromOutside i = true) ∧ ∀ d ∈ s.due, s.arriving d = true

/-- The next step belongs to the thread in slot (c, i): nothing else moves first, no decision engine is inside a decision, the turn gives its
cell to it (01 R10), it takes no interrupt and no checksum trap first and no slice switch holds its code back; it fetches the bytes `bs`, which
leaves the state `s1`. -/
structure Sys2Proof.Machine.Issues (s : State) (c i : Nat) (bs : List Byte) (s1 : State) : Prop where
  quiet : Quiet s
  engine : s.engineAt s.turn = none
  turn : (s.cellAtTurn (max s.turn 512) (s.cells.map (·.1))).2 = some (c, i)
  calm : let s := (s.cellAtTurn (max s.turn 512) (s.cells.map (·.1))).1
    (s.th c i).again = true ∨ (((s.th c i).ckTrap.isSome && !(s.th c i).pktOpen) = false ∧ s.followInt c i = none ∧
      ((s.th c i).arrivalReady && !s.lockHolds c i) = false ∧ (s.timerTakes c i && !s.lockHolds c i) = false)
  waits : let s := (s.cellAtTurn (max s.turn 512) (s.cells.map (·.1))).1
    ({ s.issued c i with cur := (c, i), turn := 512 + c + 1 } : State).fetchWaits c i = false
  fetched : let s := (s.cellAtTurn (max s.turn 512) (s.cells.map (·.1))).1
    ({ s.issued c i with cur := (c, i), turn := 512 + c + 1 } : State).fetch c i = (s1, .bytes bs)

/-- When the next step belongs to a thread and the twelve bytes it fetches at its pc decode to an instruction, the step is exec of that instruction in
the state in which the issue is charged and dated and the thread is the issuing one; when they decode to none, the step takes the illegal-
instruction trap, cause 0x01, with the code of the word as detail and the parcel triple in tval. The order of outside events, due work and
decision engines within a cycle is the model's own choice where the manual gives none (log entry 3): with no abort waiting to be noted in an
ephemeris, when a step is due from outside, other than an access of the host or a peer to memory, the step is exec of the first of those; else,
when one is due from elapsed time, other than what comes at the end of the cycle, the step is exec of the first of those. When neither is so and a
decision engine is next, inside a decision with steps left, the step is exec of the cue instruction that the word at its pc decodes to, with one
step counted; with no steps left in its budget the step is the overrun. -/
def Obligations.StepRunsTheDecodedInstruction : Prop :=
  (∀ s c i bs s1 ins, Issues s c i bs s1 → decodeWord (BitVec.ofNat 96 (wordLE bs)) = .ok ins → step s = exec ins s1) ∧
  (∀ s c i bs s1 k, Issues s c i bs s1 → decodeWord (BitVec.ofNat 96 (wordLE bs)) = .error k →
    step s = .next (s1.takeTrap c i ⟨1, illegalCode (BitVec.ofNat 96 (wordLE bs)) (s1.th c i) k, BitVec.ofNat 96 (wordLE bs), false⟩)) ∧
  (∀ (s : State) ins before rest, s.aborts = [] → s.agenda = before ++ ins :: rest → (∀ j ∈ before, fromOutside j = true) → fromOutside ins = false →
    step s = exec ins { s with agenda := before ++ rest }) ∧
  (∀ (s : State) d before rest, s.aborts = [] → (∀ i ∈ s.agenda, fromOutside i = true) → s.due = before ++ d :: rest → (∀ j ∈ before, s.arriving j = true) →
    s.arriving d = false → step s = exec d.instr { s with due := before ++ rest }) ∧
  (∀ (s : State) (p : Nat) (b : Bool), Quiet s → s.engineAt s.turn = some (p, b) →
    ((s.engine p b).budget ≤ (s.engine p b).steps →
      step s = exec (.decisionOverrun p b) { s with curEng := (p, b), turn := 2 * p + b.toNat + 1 }) ∧
    (∀ w i, (s.engine p b).steps < (s.engine p b).budget → (s.engine p b).prog[(s.engine p b).pc]? = some w → decodeCue w = some i →
      step s = exec i (({ s with curEng := (p, b), turn := 2 * p + b.toNat + 1 } : State).setEngine p b
        { s.engine p b with steps := (s.engine p b).steps + 1 })))

/-- A user-mode thread whose code capability is tagged, holds exec and covers the twelve bytes at its pc, which lie in its own pool above the register
section, fetches the bytes that the pool holds there, provided that its cluster's instruction cache holds neither of their lines and nothing in
them is poisoned; memory is unchanged by the fetch. The pc may be any address: what a fetch at one that is no multiple of 4 reads is the model's
own choice (log entry 58). -/
def Obligations.FetchReadsOwnPoolCode : Prop :=
  ∀ (s : State) (c i off : Nat), c < 1024 → off + 128 ≤ 2 ^ 20 →
    (s.th c i).mode = .user → (s.th c i).pc.toNat = 0xE00000000000 + off →
    (s.th c i).ucap.tag = true → (s.th c i).ucap.has permExec = true →
    (s.th c i).ucap.base ≤ 0xE00000000000 + off → 0xE00000000000 + off + 12 ≤ (s.th c i).ucap.top →
    bits (s.cell c).pword 0 8 * 4096 ≤ off →
    (∀ x ∈ s.icache, x.1 = clusterOf c → x.2.1 ≠ 8192 + c) →
    (∀ k, off / 64 * 16 ≤ k → k < off / 64 * 16 + 32 → (2 ^ 18 * c + k) ∉ s.poison) →
    ∃ s1, s.fetch c i = (s1, .bytes (natToBytes 12 (readNat s.mem (poolKey c off) 12))) ∧ s1.mem = s.mem

/-- From every state the next step answers a next state: no word, operand, mode, agent or event stops the machine as a whole. That the manual
describes no such stop is the model's reading of it as a whole (log entry 48). -/
def Obligations.StepNeverStops : Prop :=
  ∀ s : State, ∃ t, step s = .next t

/-! ### Reset -/

/-- In the state after reset every slot of every cell is empty; the layout banks hold zero, no partition and no function is enabled, and bank 0 is
active; every error bank and every function counter reads zero; the ownership semaphore has no owner; no stack is trained or in its controller's
ownership; scrub hours are 24 and the activation threshold 2,048; the cap is 3,200 W; the memory list has the canonical form that every step keeps
(EveryStepKeepsMemoryCanonical); memory lists no byte, no word is empty, no granule tagged, nothing is poisoned (that unlisted bytes read zero,
full and untagged at power-on is the model's own choice, log entry 2). -/
def Obligations.ResetLeavesTheMachineEmpty : Prop :=
  (∀ c i, (State.reset.slot c i).state = .empty) ∧
  (∀ n w, partWord (State.reset.layout.bank false) n w = 0 ∧ partWord (State.reset.layout.bank true) n w = 0) ∧
  State.reset.layout.sel = false ∧ (∀ n, partEn State.reset.layout.active n = false) ∧ (∀ f, fnEn State.reset.layout.active f = false) ∧
  (∀ u, State.reset.banks.at u 0 = 0) ∧ (∀ f k, (State.reset.fnSt f).counters.at k 0 = 0) ∧
  State.reset.module.semOwner = 0 ∧ State.reset.module.cap = 3200 ∧
  (∀ k, (State.reset.stack k).train = 0 ∧ (State.reset.stack k).owner = false ∧ (State.reset.stack k).scrubh = 24 ∧ (State.reset.stack k).athr = 2048) ∧
  State.reset.memOk ∧
  (∀ a, readByte State.reset.mem a = 0 ∧ State.reset.isFull a = true ∧ State.reset.tagAt a = false ∧ State.reset.poisoned a 1 = false)

/-- From every state whose memory list is in canonical form (addresses strictly rising, no listed byte equal to what an unlisted address reads as), if
a step answers a next state, its memory list is in canonical form: whatever instruction, reply, engine, exchange or host access the step is. -/
def Obligations.EveryStepKeepsMemoryCanonical : Prop :=
  ∀ s t : State, s.memOk → step s = .next t → t.memOk

/-! ### The checks of an issue (03 R83-R86) -/

/-- imm32, sign-extended (04 R97). -/
def Sys2Proof.Machine.immS (f : Fields) : W64 := (f.imm.setWidth 32).signExtend 64
/-- The target of a branch: pc + 12 × off32, modulo 2^48 (03 R78). -/
def Sys2Proof.Machine.offTarget (s : State) (f : Fields) : Addr := s.me.pc + 12 * (f.imm.setWidth 32).signExtend 48

/-- For every thread instruction whose encoding the thread's state admits, if one of D, A, B, C fails its operand class, exec takes a trap at the pc
with cause 0x02, the first failing field's number (0 for D, 1 for A, 2 for B, 3 for C) as detail and the parcel triple in tval, whatever the guard
and the mode. -/
def Obligations.OperandClassTrap : Prop :=
  ∀ (i : Instr) (r : Row) (f : Fields) (s : State) (k : Nat), rowOf i = some (r, f) → r.dynError f s.me = false →
    r.classError f = some k →
    exec i s = .next (s.traps 2 k (encodeFields r f)) ∧
      ((k = 0 ∧ r.d.dstOk f.m f.d = false) ∨ (k = 1 ∧ r.d.dstOk f.m f.d = true ∧ r.a.srcOk f.m f.a = false) ∨
       (k = 2 ∧ r.d.dstOk f.m f.d = true ∧ r.a.srcOk f.m f.a = true ∧ r.b.srcOk f.m f.b = false) ∨
       (k = 3 ∧ r.d.dstOk f.m f.d = true ∧ r.a.srcOk f.m f.a = true ∧ r.b.srcOk f.m f.b = true ∧ r.c.srcOk f.m f.c = false))

/-- For every thread instruction that passes its encoding and operand-class checks, if the thread's mode is below the minimum mode of its function,
exec takes a trap at the pc with cause 0x03, detail 0 and the parcel triple in tval, whatever the guard. -/
def Obligations.PrivilegeTrap : Prop :=
  ∀ (i : Instr) (r : Row) (f : Fields) (s : State), rowOf i = some (r, f) → r.dynError f s.me = false → r.classError f = none →
    s.me.mode.num < r.mode → exec i s = .next (s.traps 3 0 (encodeFields r f))

/-- For every thread instruction that passes its encoding, operand-class and mode checks, if its guard is false (predicate GP differs from the value
that GI asks for), exec answers the state in which only the count of the instruction and the advance of the pc (with the lend action of its
address) have happened: no source is read, no full bit cleared, nothing written. In an atomic region at its limit of 64 instructions the region
aborts instead. Not asked of a thread that a slice switch holds back. -/
def Obligations.FalseGuardSuppressesTheWholeEffect : Prop :=
  ∀ (i : Instr) (r : Row) (f : Fields) (s : State), rowOf i = some (r, f) → r.dynError f s.me = false → r.classError f = none →
    r.mode ≤ s.me.mode.num → s.incoming s.cur.1 s.cur.2 = false → s.me.rp f.gp.toNat = f.gi →
    (s.me.region = none ∨ s.me.icount < 64) → exec i s = .next s.next

/-! ### Integers, compares, predicates, capabilities (04 R96-R105) -/

/-- For every two-source integer function, when it executes, the next state is that in which the message registers it reads are consumed, D holds the
function's result (sum, difference, products, quotients and remainders with their edge cases at division by zero, logic, shifts and rotates by the
amount modulo 64, minima and maxima) of A and B, or of A and imm32 sign-extended, and the thread has counted the instruction and gone on in
sequence; nothing else changes. Division never traps. The same for mov (D = A), li (imm48 sign-extended) and popc; clz and ctz deliver the number
of leading and trailing zero bits, 64 for zero. -/
def Obligations.IntegerResults : Prop :=
  (∀ (f : Fields) (s : State) (mk mkI : Fields → Instr) (g : W64 → W64 → W64), (mk, mkI, g) ∈ ([
      (.iaAdd, .iaAddI, fun a b => a + b), (.iaSub, .iaSubI, fun a b => a - b), (.iaMul, .iaMulI, fun a b => a * b),
      (.iaMulh, .iaMulhI, fun a b => BitVec.ofInt 64 (a.toInt * b.toInt / 2 ^ 64)),
      (.iaMulhu, .iaMulhuI, fun a b => BitVec.ofNat 64 (a.toNat * b.toNat / 2 ^ 64)),
      (.iaDiv, .iaDivI, fun a b => if b = 0 then -1 else BitVec.ofInt 64 (a.toInt.tdiv b.toInt)),
      (.iaDivu, .iaDivuI, fun a b => if b = 0 then BitVec.allOnes 64 else BitVec.ofNat 64 (a.toNat / b.toNat)),
      (.iaRem, .iaRemI, fun a b => if b = 0 then a else BitVec.ofInt 64 (a.toInt.tmod b.toInt)),
      (.iaRemu, .iaRemuI, fun a b => if b = 0 then a else BitVec.ofNat 64 (a.toNat % b.toNat)),
      (.iaAnd, .iaAndI, fun a b => a &&& b), (.iaOr, .iaOrI, fun a b => a ||| b), (.iaXor, .iaXorI, fun a b => a ^^^ b),
      (.iaAndn, .iaAndnI, fun a b => a &&& ~~~b),
      (.iaShl, .iaShlI, fun a b => a <<< (b.toNat % 64)), (.iaShr, .iaShrI, fun a b => a >>> (b.toNat % 64)),
      (.iaSra, .iaSraI, fun a b => a.sshiftRight (b.toNat % 64)), (.iaRot, .iaRotI, fun a b => a.rotateLeft (b.toNat % 64)),
      (.iaMin, .iaMinI, fun a b => if a.toInt ≤ b.toInt then a else b), (.iaMax, .iaMaxI, fun a b => if a.toInt ≤ b.toInt then b else a),
      (.iaMinu, .iaMinuI, fun a b => if a.toNat ≤ b.toNat then a else b), (.iaMaxu, .iaMaxuI, fun a b => if a.toNat ≤ b.toNat then b else a)] :
      List ((Fields → Instr) × (Fields → Instr) × (W64 → W64 → W64))) →
    (Executes (mk f) s → exec (mk f) s = .next ((consumed (mk f) s).put f.d (g (s.data f.a) (s.data f.b))).next) ∧
    (Executes (mkI f) s → exec (mkI f) s = .next ((consumed (mkI f) s).put f.d (g (s.data f.a) (immS f))).next)) ∧
  (∀ (f : Fields) (s : State),
    (Executes (.iaMov f) s → exec (.iaMov f) s = .next ((consumed (.iaMov f) s).put f.d (s.data f.a)).next) ∧
    (Executes (.iaMovC f) s → ∀ n, f.d = .s n → exec (.iaMovC f) s = .next (s.modMe (·.ws n.toNat (s.val f.a))).next) ∧
    (Executes (.iaLi f) s → exec (.iaLi f) s = .next (s.put f.d (f.imm.signExtend 64)).next) ∧
    (Executes (.iaPopc f) s → exec (.iaPopc f) s =
      .next ((consumed (.iaPopc f) s).put f.d (BitVec.ofNat 64 ((List.range 64).countP (s.data f.a).getLsbD))).next) ∧
    (Executes (.iaClz f) s → ∃ n ≤ 64, exec (.iaClz f) s = .next ((consumed (.iaClz f) s).put f.d (BitVec.ofNat 64 n)).next ∧
      (∀ k < n, (s.data f.a).getLsbD (63 - k) = false) ∧ (n < 64 → (s.data f.a).getLsbD (63 - n) = true)) ∧
    (Executes (.iaCtz f) s → ∃ n ≤ 64, exec (.iaCtz f) s = .next ((consumed (.iaCtz f) s).put f.d (BitVec.ofNat 64 n)).next ∧
      (∀ k < n, (s.data f.a).getLsbD k = false) ∧ (n < 64 → (s.data f.a).getLsbD n = true)))

/-- With pos = [5:0] and len = [12:6] of the field word (B, or imm32, for bfx; C, or imm32, for bfi), the field covers bits pos to min(pos + len, 64)
- 1. bfx writes D with the field shifted down to bit 0, the bits above zero or, with M[0] = 1, copies of the field's top bit; a field of length 0
gives 0. bfi writes D with A's bits outside the field and the low bits of B inside. Both go on in sequence and change nothing else. -/
def Obligations.BitFieldResults : Prop :=
  ∀ (f : Fields) (s : State),
    let fieldOf (w : W64) : Nat × Nat := (w.toNat % 64, min (w.toNat / 64 % 128) (64 - w.toNat % 64))
    let isX (a w v : W64) : Prop := let (pos, len) := fieldOf w; ∀ k < 64, v.getLsbD k =
      if k < len then a.getLsbD (pos + k) else (f.m.getLsbD 0 && decide (0 < len) && a.getLsbD (pos + len - 1))
    let isI (a b w v : W64) : Prop := let (pos, len) := fieldOf w; ∀ k < 64, v.getLsbD k =
      if pos ≤ k ∧ k < pos + len then b.getLsbD (k - pos) else a.getLsbD k
    (Executes (.iaBfx f) s → ∃ v, isX (s.data f.a) (s.data f.b) v ∧ exec (.iaBfx f) s = .next ((consumed (.iaBfx f) s).put f.d v).next) ∧
    (Executes (.iaBfxI f) s → ∃ v, isX (s.data f.a) (immS f) v ∧ exec (.iaBfxI f) s = .next ((consumed (.iaBfxI f) s).put f.d v).next) ∧
    (Executes (.iaBfi f) s →
      ∃ v, isI (s.data f.a) (s.data f.b) (s.data f.c) v ∧ exec (.iaBfi f) s = .next ((consumed (.iaBfi f) s).put f.d v).next) ∧
    (Executes (.iaBfiI f) s →
      ∃ v, isI (s.data f.a) (s.data f.b) (immS f) v ∧ exec (.iaBfiI f) s = .next ((consumed (.iaBfiI f) s).put f.d v).next)

/-- ia.sel writes D = A when predicate C is 1 and D = B when it is 0. Each icmp function, with b = B or imm32 sign-extended, writes predicate D with
the truth of its relation of a to b (equal, not equal, signed less, unsigned less, signed less or equal, unsigned less or equal). Each goes on in
sequence; nothing else changes. -/
def Obligations.SelectAndCompareResults : Prop :=
  (∀ (f : Fields) (s : State) (n : BitVec 3), f.c = .p n → Executes (.iaSel f) s →
    exec (.iaSel f) s = .next ((consumed (.iaSel f) s).put f.d (if s.me.rp n.toNat then s.data f.a else s.data f.b)).next) ∧
  (∀ (f : Fields) (s : State) (n : BitVec 3) (mk mkI : Fields → Instr) (rel : W64 → W64 → Bool), (mk, mkI, rel) ∈ ([
      (.icmpEq, .icmpEqI, fun a b => decide (a = b)), (.icmpNe, .icmpNeI, fun a b => decide (a ≠ b)),
      (.icmpLt, .icmpLtI, fun a b => decide (a.toInt < b.toInt)), (.icmpLtu, .icmpLtuI, fun a b => decide (a.toNat < b.toNat)),
      (.icmpLe, .icmpLeI, fun a b => decide (a.toInt ≤ b.toInt)), (.icmpLeu, .icmpLeuI, fun a b => decide (a.toNat ≤ b.toNat))] :
      List ((Fields → Instr) × (Fields → Instr) × (W64 → W64 → Bool))) → f.d = .p n →
    (Executes (mk f) s → exec (mk f) s = .next ((consumed (mk f) s).modMe (·.wp n.toNat (rel (s.data f.a) (s.data f.b)))).next) ∧
    (Executes (mkI f) s → exec (mkI f) s = .next ((consumed (mkI f) s).modMe (·.wp n.toNat (rel (s.data f.a) (immS f)))).next))

/-- prd.and, or and xor write predicate D with the conjunction, disjunction and exclusive or of predicates A and B; prd.not with the negation of A;
prd.set with whether A[63:0] is not zero. A write of p0 is discarded: p0 reads true in every state. Each goes on in sequence; nothing else
changes. -/
def Obligations.PredicateResults : Prop :=
  (∀ (f : Fields) (s : State) (n j k : BitVec 3), f.d = .p n → f.a = .p j →
    (f.b = .p k → Executes (.prdAnd f) s → exec (.prdAnd f) s = .next (s.modMe (·.wp n.toNat (s.me.rp j.toNat && s.me.rp k.toNat))).next) ∧
    (f.b = .p k → Executes (.prdOr f) s → exec (.prdOr f) s = .next (s.modMe (·.wp n.toNat (s.me.rp j.toNat || s.me.rp k.toNat))).next) ∧
    (f.b = .p k → Executes (.prdXor f) s → exec (.prdXor f) s = .next (s.modMe (·.wp n.toNat (s.me.rp j.toNat != s.me.rp k.toNat))).next) ∧
    (Executes (.prdNot f) s → exec (.prdNot f) s = .next (s.modMe (·.wp n.toNat (!s.me.rp j.toNat))).next)) ∧
  (∀ (f : Fields) (s : State) (n : BitVec 3), f.d = .p n → Executes (.prdSet f) s →
    exec (.prdSet f) s = .next ((consumed (.prdSet f) s).modMe (·.wp n.toNat (decide (s.data f.a ≠ 0)))).next) ∧
  (∀ (t : Thread) (b : Bool), t.rp 0 = true ∧ t.wp 0 b = t) ∧
  (∀ (t : Thread) (n k : Nat) (b : Bool), 0 < n → n < 8 → k < 8 → (t.wp n b).rp k = if k = n then b else t.rp k)

/-- With A tagged, cap.perm writes D = A with its permissions masked (never added to) by B[15:0] or imm32[15:0], setaddr with the address B[47:0],
incaddr with the address plus b modulo 2^48, keeping every other bit and the tag. getbase, getlen and getperm write A's base, its length cut at
2^48, and its permissions as data; tagtest writes A's tag to predicate D; clear writes A's 128 bits with the tag clear: these accept any cell.
Each goes on in sequence. -/
def Obligations.CapabilityResults : Prop :=
  (∀ (f : Fields) (s : State) (n : BitVec 6), f.d = .s n → (s.val f.a).tag = true →
    let a := (s.val f.a).val
    let wr (i : Instr) (v : W128) : Prop := Executes i s → exec i s = .next ((consumed i s).modMe (·.ws n.toNat ⟨v, true⟩)).next
    wr (.capPerm f) ((a.extractLsb' 112 16 &&& (s.data f.b).setWidth 16) ++ a.extractLsb' 0 112) ∧
    wr (.capPermI f) ((a.extractLsb' 112 16 &&& f.imm.setWidth 16) ++ a.extractLsb' 0 112) ∧
    wr (.capSetaddr f) (a.extractLsb' 48 80 ++ (s.data f.b).setWidth 48) ∧
    wr (.capIncaddr f) (a.extractLsb' 48 80 ++ (a.setWidth 48 + (s.data f.b).setWidth 48)) ∧
    wr (.capIncaddrI f) (a.extractLsb' 48 80 ++ (a.setWidth 48 + (immS f).setWidth 48))) ∧
  (∀ (f : Fields) (s : State),
    let a := (s.val f.a).val
    (Executes (.capGetbase f) s → exec (.capGetbase f) s = .next (s.put f.d ((a.extractLsb' 48 48).setWidth 64)).next) ∧
    (Executes (.capGetlen f) s → exec (.capGetlen f) s = .next (s.put f.d (BitVec.ofNat 64
      (min ((a.extractLsb' 96 10).toNat * 2 ^ (a.extractLsb' 106 6).toNat) (2 ^ 48 - (a.extractLsb' 48 48).toNat)))).next) ∧
    (Executes (.capGetperm f) s → exec (.capGetperm f) s = .next (s.put f.d ((a.extractLsb' 112 16).setWidth 64)).next) ∧
    (∀ n, f.d = .p n → Executes (.capTagtest f) s → exec (.capTagtest f) s = .next (s.modMe (·.wp n.toNat (s.val f.a).tag)).next) ∧
    (∀ n, f.d = .s n → Executes (.capClear f) s → exec (.capClear f) s = .next (s.modMe (·.ws n.toNat ⟨a, false⟩)).next))

/-- With A tagged and len = b (64 bits, or imm32 zero-extended), let e be the least exponent with ceil(len / 2^e) at most 1,023 and man that quotient.
If A's address is below A's base, or address + man * 2^e is above min(base + lman * 2^lexp, 2^48), cap.bound takes a bounds fault, cause 0x07,
with len in tval. Otherwise D is A with base its address, lman = man and lexp = e, predicate M[2:0] is whether the length was rounded, and the
thread goes on. With A untagged, bound, perm, setaddr and incaddr take the tag fault, cause 0x05, with A[95:0] in tval, and write nothing. -/
def Obligations.CapBoundNarrowsOrFaults : Prop :=
  (∀ (f : Fields) (s : State) (n : BitVec 6) (i : Instr) (len : Nat), f.d = .s n → (s.val f.a).tag = true →
    (i = .capBound f ∧ len = (s.data f.b).toNat) ∨ (i = .capBoundI f ∧ len = (f.imm.setWidth 32).toNat) → Executes i s →
    ∃ e man : Nat, man = (len + 2 ^ e - 1) / 2 ^ e ∧ man ≤ 1023 ∧ (∀ e' < e, 1023 < (len + 2 ^ e' - 1) / 2 ^ e') ∧
      let a := (s.val f.a).val
      let limit := min ((a.extractLsb' 48 48).toNat + (a.extractLsb' 96 10).toNat * 2 ^ (a.extractLsb' 106 6).toNat) (2 ^ 48)
      if (a.setWidth 48).toNat < (a.extractLsb' 48 48).toNat ∨ limit < (a.setWidth 48).toNat + man * 2 ^ e then
        exec i s = .next (s.traps 7 0 (BitVec.ofNat 96 len))
      else exec i s = .next (((consumed i s).modMe (·.ws n.toNat ⟨a.extractLsb' 112 16 ++ BitVec.ofNat 6 e ++ BitVec.ofNat 10 man ++
        a.extractLsb' 0 48 ++ a.extractLsb' 0 48, true⟩)).modMe (·.wp (f.m.toNat % 8) (decide (man * 2 ^ e ≠ len)))).next) ∧
  (∀ (f : Fields) (s : State) (mk : Fields → Instr),
    mk ∈ ([.capBound, .capPerm, .capSetaddr, .capIncaddr, .capBoundI, .capPermI, .capIncaddrI] : List (Fields → Instr)) →
    (s.val f.a).tag = false → Executes (mk f) s → exec (mk f) s = .next (s.traps 5 0 ((s.val f.a).val.setWidth 96)))

/-! ### Control transfer, loops, traps (04 R110-R119, 20 R415, R416) -/

/-- ctl.br sets the pc to pc + 12 * off32 modulo 2^48; ctl.call does so after writing pc + 12 to D; ctl.jr writes pc + 12 to D and sets the pc to
A[47:0]; ctl.ret sets the pc to A[47:0]. br, and a jr with D = s0, may leave loop bodies; calls and ret do not. When A[1:0] of a jr or ret is not
zero, the alignment trap, cause 0x04, is taken with the target in tval, and nothing is written. Each is one counted instruction, and nothing else
changes. -/
def Obligations.BranchResults : Prop :=
  ∀ (f : Fields) (s : State),
    let link : W64 := (s.me.pc + 12).setWidth 64
    let tgt : Addr := (s.data f.a).setWidth 48
    (Executes (.ctlBr f) s → exec (.ctlBr f) s = .next (s.goto (offTarget s f) true)) ∧
    (Executes (.ctlCall f) s → exec (.ctlCall f) s = .next ((s.put f.d link).goto (offTarget s f) false)) ∧
    (Executes (.ctlJr f) s → exec (.ctlJr f) s = .next (
      if tgt.toNat % 4 = 0 then ((consumed (.ctlJr f) s).put f.d link).goto tgt (decide (f.d = .s 0)) else s.traps 4 0 (tgt.setWidth 96))) ∧
    (Executes (.ctlRet f) s → exec (.ctlRet f) s = .next (
      if tgt.toNat % 4 = 0 then (consumed (.ctlRet f) s).goto tgt false else s.traps 4 0 (tgt.setWidth 96)))

/-- With lbeg = pc + 12, L = pc + 12 * off32 and n = A[31:0]: the level chosen is an active one with that lbeg and lend, else level 0 if inactive,
else level 1 if inactive. When n is not 0 the level gets lbeg, L, n and active and the pc becomes lbeg; when n = 0 the level becomes inactive,
keeping lbeg, lend and lcnt, and the pc becomes L + 12. The lnd bit clears. When no level can be chosen, the operand-range fault, cause 0x09 with
detail 0x10, is taken and nothing changes. -/
def Obligations.LoopSetup : Prop :=
  ∀ (f : Fields) (s : State), Executes (.ctlLoop f) s →
    let lbeg := s.me.pc + 12
    let lend := offTarget s f
    let n : W32 := (s.data f.a).setWidth 32
    let same (l : Level) : Prop := l.active = true ∧ l.lbeg = lbeg ∧ l.lend = lend
    let ends (k : Nat) : Prop := exec (.ctlLoop f) s = .next (
      ((((consumed (.ctlLoop f) s).modMe (fun t => t.setLevel k
          (if n = 0 then { t.level k with active := false } else ⟨lbeg, lend, n, true⟩))).counted s.cur.1 s.cur.2)).modMe
        fun t => { t with pc := if n = 0 then lend + 12 else lbeg, lnd := false })
    (same s.me.l0 → ends 0) ∧ (¬ same s.me.l0 → same s.me.l1 → ends 1) ∧
    (¬ same s.me.l0 → ¬ same s.me.l1 → s.me.l0.active = false → ends 0) ∧
    (¬ same s.me.l0 → ¬ same s.me.l1 → s.me.l0.active = true → s.me.l1.active = false → ends 1) ∧
    (¬ same s.me.l0 → ¬ same s.me.l1 → s.me.l0.active = true → s.me.l1.active = true →
      ∃ v, exec (.ctlLoop f) s = .next (s.traps 9 0x10 v))

/-- An instruction that goes on in sequence at an address that ends no active level sets the pc to pc + 12 and changes no level. At the lend of active
level 1, lcnt1 decreases by 1: if it is not zero the pc becomes lbeg1 and level 0 is unchanged; otherwise level 1 deactivates. Then (or where
level 1 does not end there) active level 0 with its lend at this address is treated in the same way. When no level redirects, the pc is lend + 12.
Said of a thread whose lnd bit does not stand for this address. A taken br, br.bq or jump at an address inside the body [lbeg, lend] of an active
level with its target outside deactivates that level and leaves its lbeg, lend and lcnt; in every other case, and for calls and returns always,
the level is as before. The pc becomes the target. -/
def Obligations.LoopSequencing : Prop :=
  (∀ (t : Thread), ¬ (t.lnd = true ∧ t.lndAddr = t.pc) →
    let at1 : Prop := t.l1.active = true ∧ t.l1.lend = t.pc
    let at0 : Prop := t.l0.active = true ∧ t.l0.lend = t.pc
    (¬ at1 → ¬ at0 → t.advance = { t with pc := t.pc + 12 }) ∧
    (at1 → t.l1.lcnt ≠ 1 → t.advance = { t with l1 := { t.l1 with lcnt := t.l1.lcnt - 1 }, pc := t.l1.lbeg }) ∧
    (at1 → t.l1.lcnt = 1 → ¬ at0 → t.advance = { t with l1 := { t.l1 with lcnt := 0, active := false }, pc := t.pc + 12 }) ∧
    (at1 → t.l1.lcnt = 1 → at0 → t.l0.lcnt ≠ 1 →
      t.advance = { t with l1 := { t.l1 with lcnt := 0, active := false }, l0 := { t.l0 with lcnt := t.l0.lcnt - 1 }, pc := t.l0.lbeg }) ∧
    (¬ at1 → at0 → t.l0.lcnt ≠ 1 → t.advance = { t with l0 := { t.l0 with lcnt := t.l0.lcnt - 1 }, pc := t.l0.lbeg }) ∧
    (¬ at1 → at0 → t.l0.lcnt = 1 → t.advance = { t with l0 := { t.l0 with lcnt := 0, active := false }, pc := t.pc + 12 }) ∧
    (at1 → t.l1.lcnt = 1 → at0 → t.l0.lcnt = 1 →
      t.advance = { t with l1 := { t.l1 with lcnt := 0, active := false }, l0 := { t.l0 with lcnt := 0, active := false }, pc := t.pc + 12 })) ∧
  (∀ (t : Thread) (tgt : Addr) (leaves : Bool),
    let out (l : Level) : Level :=
      if leaves ∧ l.active = true ∧ (l.lbeg.toNat ≤ t.pc.toNat ∧ t.pc.toNat ≤ l.lend.toNat) ∧
          ¬ (l.lbeg.toNat ≤ tgt.toNat ∧ tgt.toNat ≤ l.lend.toNat) then { l with active := false } else l
    (t.branch tgt leaves).pc = tgt ∧ (t.branch tgt leaves).l0 = out t.l0 ∧ (t.branch tgt leaves).l1 = out t.l1)

/-- ctl.trap takes a trap at its pc with cause A[7:0] when that lies in 0x01 to 0x0F and 0x01 otherwise, detail A[15:8] and tval B zero-extended.
ctl.nop only counts and goes on. ctl.exit ends the thread: its slot is empty, without a bind record, and no register of the thread survives
(scalar and shadow cells, vector, predicate and message registers, loop levels, capabilities, mode, status bits, trap registers of every mode,
timer, fmode, asid, region, pair, reservation are those of an empty slot; only the packets in the slot's buffers stay). Every request that is not
held at its home stays with its operation, place, data and function, the posted writes among them, and engine operations and rope commands go on;
memory is unchanged, but that the image of a saved partner of a pair loses its pair words at 0xF00 (07 R217). -/
def Obligations.TrapNopExitResults : Prop :=
  ∀ (f : Fields) (s : State),
    (Executes (.ctlTrap f) s → exec (.ctlTrap f) s = .next (s.traps
      (if 1 ≤ (s.data f.a).toNat % 256 ∧ (s.data f.a).toNat % 256 ≤ 15 then (s.data f.a).toNat % 256 else 1)
      ((s.data f.a).toNat / 256 % 256) ((s.data f.b).setWidth 96))) ∧
    (Executes (.ctlNop f) s → exec (.ctlNop f) s = .next s.next) ∧
    (Executes (.ctlExit f) s → ∃ t, exec (.ctlExit f) s = .next t ∧ t.cur = s.cur ∧ (t.slot s.cur.1 s.cur.2).state = .empty ∧
      (t.slot s.cur.1 s.cur.2).bind = none ∧
      (∃ o b n k, t.me = { openPkt := o, openClosed := b, openAfter := n, closedPkt := k, released := s.me.released } ∧
        (s.me.openPkt = none → o = none) ∧ (s.me.openPkt = none → s.me.closedPkt = none → k = none)) ∧
      (∀ id r, s.reqs.look id = some r → r.held = false → ∃ q, t.reqs.look id = some { r with dead := q }) ∧ t.ops = s.ops ∧ t.cmds = s.cmds ∧
      (s.me.pair = 0 ∨ (s.slot s.cur.1 s.me.partner).state ≠ .saved → t.mem = s.mem) ∧
      (∀ a, ¬ (imageKey s.cur.1 s.me.partner + 0xF00 ≤ a ∧ a < imageKey s.cur.1 s.me.partner + 0xF08) → readByte t.mem a = readByte s.mem a))

/-- Outside a region a trap with cause word w (code, detail, and bit 63) at pc goes: from machine mode, and for cause 0x10 from supervisor mode, to
the machine handler (mt written, recorded mode, mode machine, pc the firmware entry); from user mode with hnd = 0 and ivec not 0, for causes 0x01,
0x02 and 0x04 to 0x0D but 0x0B, to the user handler (ut written, hnd = 1, pc = ivec + 12 * 16); every other trap from user mode to the supervisor
handler of the function that owns its asid (st written, recorded mode, mode 1, pc = svent, its code capability). A supervisor trap of another
cause parks the thread for the fault decision. The reservation is lost and memory is unchanged; said of a thread without an open packet. -/
def Obligations.TrapEntry : Prop :=
  ∀ (s : State) (c i : Nat) (x : Trap),
    let t := s.th c i
    let s' := s.takeTrap c i x
    let regs : TrapRegs := ⟨x.word, t.pc, x.tval⟩
    let own : Nat := ((s.owner t.asid.toNat).orElse fun _ => s.threadFn c i).getD 0
    let usr : Bool := x.cause = 1 ∨ x.cause = 2 ∨ (4 ≤ x.cause ∧ x.cause ≤ 0xD ∧ x.cause ≠ 0xB)
    t.region = none → t.openPkt = none → t.closedPkt = none →
    s'.mem = s.mem ∧ (s'.th c i).resv = none ∧ (∀ n, (s'.th c i).s.at n {} = t.s.at n {}) ∧
    (t.mode = .machine ∨ (t.mode = .supervisor ∧ x.cause = 0x10) →
      (s'.th c i).mt = regs ∧ (s'.th c i).mfrom = t.mode ∧ (s'.th c i).mode = .machine ∧ (s'.th c i).pc = Config.fwEntry) ∧
    (t.mode = .supervisor → x.cause ≠ 0x10 →
      (s'.slot c i).state = .parked ∧ (s'.th c i).wait = some .fault ∧ (s'.th c i).pc = t.pc ∧ (s'.th c i).mode = t.mode) ∧
    (t.mode = .user → t.hnd = false ∧ t.ivec ≠ 0 ∧ usr = true →
      (s'.th c i).ut = regs ∧ (s'.th c i).hnd = true ∧ (s'.th c i).mode = .user ∧ (s'.th c i).pc = t.ivec + 12 * 16) ∧
    (t.mode = .user → ¬ (t.hnd = false ∧ t.ivec ≠ 0 ∧ usr = true) →
      (s'.th c i).st = regs ∧ (s'.th c i).sfrom = .user ∧ (s'.th c i).mode = .supervisor ∧
      (s'.th c i).pc = BitVec.ofNat 48 (fnSvent s.layout.active own) ∧ (s'.th c i).scap = svCap s.layout.active own)

/-- sys.ecall takes the trap of cause 0x10 at its own pc, with the caller's mode (0, 1 or 3) in the detail byte. sys.eret, in supervisor or machine
mode, sets the pc to epc of the current mode and the mode to the one recorded with it; status.hnd and every other register of the thread but
retired and its packet, window and lnd bookkeeping stay. -/
def Obligations.SystemCallsAndReturns : Prop :=
  (∀ (f : Fields) (s : State), Executes (.sysEcall f) s →
    ∃ v, exec (.sysEcall f) s = .next (s.traps 0x10 (match s.me.mode with | .user => 0 | .supervisor => 1 | .machine => 3) v)) ∧
  (∀ (f : Fields) (s : State), Executes (.sysEret f) s →
    (s.me.mode = .supervisor → exec (.sysEret f) s = .next ((s.modMe fun t => { t with mode := t.sfrom }).goto s.me.st.epc false)) ∧
    (s.me.mode = .machine → exec (.sysEret f) s = .next ((s.modMe fun t => { t with mode := t.mfrom }).goto s.me.mt.epc false)) ∧
    s.me.mode ≠ .user)

/-! ### Scalar floating (04 R106-R109, 02 R46-R49) -/

/-- With the format that M names (5 fp16, 6 bf16, 7 fp32, 8 fp64) and the rounding of fmode.rnd, fpu.add, sub, mul, div, min, max, sqrt and fma write
to D the format's result of their operands, zero-extended, and add its flags to fmode; fpu.cmp writes its relation to predicate D; fpu.cvt
converts between int32, int64 and the floating formats. Each goes on in sequence; nothing else changes. (The arithmetic of exact values and the
one rounding are stated separately.) -/
def Obligations.FloatingResults : Prop :=
  ∀ (f : Fields) (s : State),
    let a := (s.data f.a).toNat
    let b := (s.data f.b).toNat
    let c := (s.data f.c).toNat
    let k := f.m.toNat % 16
    let t : Fmt := if k = 5 then ⟨5, 10⟩ else if k = 6 then ⟨8, 7⟩ else if k = 7 then ⟨8, 23⟩ else ⟨11, 52⟩
    let rnd := s.me.fmode.toNat % 4
    let writes (i : Instr) (x : Nat × Flags) : Prop := Executes i s →
      exec i s = .next (((consumed i s).modMe fun u => { u with fmode := u.fmode ||| x.2 }).put f.d (BitVec.ofNat 64 x.1)).next
    writes (.fpuAdd f) (t.fadd rnd a b) ∧ writes (.fpuSub f) (t.fsub rnd a b) ∧ writes (.fpuMul f) (t.fmul rnd a b) ∧
    writes (.fpuDiv f) (t.fdiv rnd a b) ∧ writes (.fpuMin f) (t.fminmax false a b) ∧ writes (.fpuMax f) (t.fminmax true a b) ∧
    writes (.fpuSqrt f) (t.fsqrt rnd a) ∧ writes (.fpuFma f) (t.ffma rnd a b c) ∧
    (Executes (.fpuCvt f) s → exec (.fpuCvt f) s = .next (((consumed (.fpuCvt f) s).modMe fun u =>
      { u with fmode := u.fmode ||| (fpuCvt (f.m.toNat / 16) k rnd (s.data f.a)).2 }).put f.d (fpuCvt (f.m.toNat / 16) k rnd (s.data f.a)).1).next) ∧
    (∀ n, f.d = .p n → Executes (.fpuCmp f) s → exec (.fpuCmp f) s = .next (((consumed (.fpuCmp f) s).modMe fun u =>
      { u with fmode := u.fmode ||| (t.fcmp (f.m.toNat / 16) a b).2 }).modMe (·.wp n.toNat (t.fcmp (f.m.toNat / 16) a b).1)).next)

/-- The magnitude of the bits `y` of a format, without its sign, in units of its least subnormal; the infinity stands for the next power of two (02 R46). -/
def Sys2Proof.Machine.Fmt.mag (t : Fmt) (y : Nat) : Nat :=
  if y / 2 ^ t.mb = 0 then y else (2 ^ t.mb + y % 2 ^ t.mb) * 2 ^ (y / 2 ^ t.mb - 1)
/-- Half the least subnormal of a format is 2 to this power. -/
def Sys2Proof.Machine.Fmt.halfUnit (t : Fmt) : Int := -(t.bias : Int) - t.mb
/-- a × 2^i ≤ b × 2^j. -/
def Sys2Proof.Machine.scaledLe (a : Nat) (i : Int) (b : Nat) (j : Int) : Prop := a * 2 ^ (i - min i j).toNat ≤ b * 2 ^ (j - min i j).toNat
/-- `x` are the bits to which a rounding takes an exact value of sign `neg` (02 R47): `le k` says that k half units are at most its magnitude, `ge k`
that they are at least it. To nearest, the value lies no further than the midpoints to both neighbours, and at none of them where x is odd; toward
zero, x is the largest finite value not above it; away from zero, the smallest not below it. -/
def Sys2Proof.Machine.Fmt.Rounds (t : Fmt) (rnd : Nat) (neg : Bool) (le ge : Nat → Prop) (x : Nat) : Prop :=
  ∃ y, x = (if neg then 2 ^ (t.width - 1) else 0) + y ∧ y ≤ t.infBits ∧
    let half (k : Nat) : Nat := t.mag k + t.mag (k + 1)
    if rnd = 0 then
      (y < t.infBits → ge (half y) ∧ (y % 2 = 1 → ¬ le (half y))) ∧ (0 < y → le (half (y - 1)) ∧ (y % 2 = 1 → ¬ ge (half (y - 1))))
    else if rnd = 1 ∨ rnd = (if neg then 2 else 3) then
      y < t.infBits ∧ le (2 * t.mag y) ∧ (y + 1 < t.infBits → ¬ le (2 * t.mag (y + 1)))
    else (y < t.infBits → ge (2 * t.mag y)) ∧ (0 < y → ¬ ge (2 * t.mag (y - 1)))
/-- The finite value (−1)^n × m × 2^e in units of 2^u, for u ≤ e. -/
def Sys2Proof.Machine.inUnits (n : Bool) (m : Nat) (e u : Int) : Int := (if n then -1 else 1) * ((m * 2 ^ (e - u).toNat : Nat) : Int)

/-- In each of fp16, bf16, fp32 and fp64 and every rounding: a finite non-zero value rounds to the neighbour that the rounding names (to nearest with
ties to even, toward zero, up, down; beyond the largest finite value as IEEE 754 says), with nx exactly when the result is not the value; fadd,
fsub, fmul and ffma of finite operands round the exact sum, difference, product, and product plus addend, once; fdiv and fsqrt deliver the
neighbour of the exact quotient and root, nx when inexact. Rounding the value of a bit pattern that is no NaN gives the pattern back with no flag
(subnormals are kept); sum and product do not depend on the order of their operands; a finite non-zero value divided by zero gives an infinity of
the sign of the quotient with dz; the square root of a value below zero is the canonical NaN with nv and of -0 is -0; fma of zero and infinity is
the canonical NaN with nv whatever C; cmp eq finds -0 equal to +0; with a NaN operand eq, lt and le give 0 and un gives 1, lt and le with nv. -/
def Obligations.FloatingRulesOnValues : Prop :=
  ∀ (t : Fmt) (rnd x y z : Nat), t ∈ ([⟨5, 10⟩, ⟨8, 7⟩, ⟨8, 23⟩, ⟨11, 52⟩] : List Fmt) → rnd < 4 →
    let h := t.halfUnit
    let once (r : Nat × Flags) (neg : Bool) (le ge : Nat → Prop) : Prop := t.Rounds rnd neg le ge r.1 ∧
      (r.2.getLsbD 7 = true ↔ ¬ (r.1 % 2 ^ (t.width - 1) < t.infBits ∧
        le (2 * t.mag (r.1 % 2 ^ (t.width - 1))) ∧ ge (2 * t.mag (r.1 % 2 ^ (t.width - 1)))))
    (∀ n m e, m ≠ 0 → once (t.round rnd (.fin n m e)) n (fun k => scaledLe k h m e) (fun k => scaledLe m e k h)) ∧
    (∀ n m e k l d, t.decode x = .fin n m e → t.decode y = .fin k l d →
      let sum := inUnits n m e (min e d) + inUnits k l d (min e d)
      let dif := inUnits n m e (min e d) - inUnits k l d (min e d)
      (sum ≠ 0 → t.fadd rnd x y = t.round rnd (.fin (decide (sum < 0)) sum.natAbs (min e d))) ∧
      (dif ≠ 0 → t.fsub rnd x y = t.round rnd (.fin (decide (dif < 0)) dif.natAbs (min e d))) ∧
      (m ≠ 0 → l ≠ 0 → t.fmul rnd x y = t.round rnd (.fin (n != k) (m * l) (e + d)) ∧
        once (t.fdiv rnd x y) (n != k) (fun j => scaledLe (j * l) (h + d) m e) (fun j => scaledLe m e (j * l) (h + d))) ∧
      (∀ q p g, t.decode z = .fin q p g →
        let all := inUnits (n != k) (m * l) (e + d) (min (e + d) g) + inUnits q p g (min (e + d) g)
        all ≠ 0 → t.ffma rnd x y z = t.round rnd (.fin (decide (all < 0)) all.natAbs (min (e + d) g)))) ∧
    (∀ m e, t.decode x = .fin false m e → m ≠ 0 →
      once (t.fsqrt rnd x) false (fun j => scaledLe (j * j) (2 * h) m e) (fun j => scaledLe m e (j * j) (2 * h))) ∧
    (x < 2 ^ t.width → (t.decode x).isNan = false → t.round rnd (t.decode x) = (x, 0)) ∧
    t.fadd rnd x y = t.fadd rnd y x ∧ t.fmul rnd x y = t.fmul rnd y x ∧
    (∀ n m e k d, t.decode x = .fin n m e → m ≠ 0 → t.decode y = .fin k 0 d →
      t.fdiv rnd x y = ((if n = k then 0 else 2 ^ (t.width - 1)) + t.infBits, 0x10)) ∧
    (∀ m e, t.decode x = .fin true m e → t.fsqrt rnd x = if m = 0 then (2 ^ (t.width - 1), 0) else (t.nan, 0x08)) ∧
    (∀ n e k, t.decode x = .fin n 0 e → t.decode y = .inf k → t.ffma rnd x y z = (t.nan, 0x08) ∧ t.ffma rnd y x z = (t.nan, 0x08)) ∧
    (∀ n k e d, t.decode x = .fin n 0 e → t.decode y = .fin k 0 d → t.fcmp 0 x y = (true, 0) ∧ t.fcmp 1 x y = (false, 0)) ∧
    ((t.decode x).isNan = true ∨ (t.decode y).isNan = true →
      (t.fcmp 0 x y).1 = false ∧ t.fcmp 1 x y = (false, 0x08) ∧ t.fcmp 2 x y = (false, 0x08) ∧ (t.fcmp 3 x y).1 = true)

/-! ### Vectors and quantisation (05 R120-R142) -/

/-- Lane `k` of width `w`. -/
def Sys2Proof.Machine.laneAt (w k : Nat) (x : W512) : Nat := x.toNat / 2 ^ (w * k) % 2 ^ w
/-- The instruction writes vector register `n` with a tag, a zero scale field and the given lanes, adds flags to fmode, is charged for its energy
(23 R453), and goes on in sequence; nothing else changes. -/
def Sys2Proof.Machine.VecEnds (i : Instr) (s : State) (pj n tag w : Nat) (lane : Nat → Nat) (g : Flags) : Prop :=
  ∃ r : VReg, r.tag = BitVec.ofNat 4 tag ∧ r.scale = 0 ∧ (∀ k < 512 / w, laneAt w k r.bits = lane k) ∧
    exec i s = .next (((((consumed i s).modMe fun t => { t with fmode := t.fmode ||| g }).modMe (·.wv n r)).chargeTh s.cur.1 s.cur.2 pj 1).next)
/-- A lane read as an integer, signed or (u) unsigned; and an exact result wrapped or (sat) clamped (05 R124). -/
def Sys2Proof.Machine.laneOf (u : Bool) (w x : Nat) : Int := if u then (x : Int) else if x < 2 ^ (w - 1) then (x : Int) else (x : Int) - 2 ^ w
def Sys2Proof.Machine.laneFit (sat u : Bool) (w : Nat) (x : Int) : Nat :=
  let lo : Int := if u then 0 else -(2 ^ (w - 1))
  let hi : Int := if u then 2 ^ w - 1 else 2 ^ (w - 1) - 1
  ((if sat then (if x < lo then lo else if hi < x then hi else x) else x) % 2 ^ w).toNat
/-- The sticky OR of the flags of `n` lanes. -/
def Sys2Proof.Machine.orFlags (n : Nat) (g : Nat → Flags) : Flags := (List.range n).foldl (fun a k => a ||| g k) 0

/-- For tags 1 to 8, equal in all sources, lane i of D is: on integer tags the exact result of lane i of the sources, read signed or (u) unsigned,
wrapped modulo 2^w or (sat) clamped to the range of the lane's type, with no flag; on floating tags what the scalar function gives, with the
sticky OR of all lanes' flags; abs and neg on floating lanes clear and invert the sign bit without a flag. D gets the source tag and a zero scale.
A source tag that is not accepted takes the format fault, cause 0x08, with the number of the first failing operand as detail and its tag in tval.
Otherwise each counts, is charged and goes on in sequence; nothing else changes. -/
def Obligations.VectorArithmeticResults : Prop :=
  ∀ (f : Fields) (s : State) (n : BitVec 5), f.d = .v n →
    let a := s.vec f.a
    let b := s.vec f.b
    let c := s.vec f.c
    let T := a.tag.toNat
    let w := laneWidth T
    let m := elements T
    let u := f.m.getLsbD 0
    let sat := f.m.getLsbD 1
    let rnd := s.me.fmode.toNat % 4
    let ok : Prop := 1 ≤ T ∧ T ≤ 8
    let fault (i : Instr) (k tag : Nat) : Prop := exec i s = .next (s.traps 8 k (BitVec.ofNat 96 tag))
    (∀ (mk : Fields → Instr) (gi : Int → Int → Int) (gf : Fmt → Nat → Nat → Nat × Flags), (mk, gi, gf) ∈ ([
        (.vecAdd, fun x y => x + y, fun t x y => t.fadd rnd x y), (.vecSub, fun x y => x - y, fun t x y => t.fsub rnd x y),
        (.vecMul, fun x y => x * y, fun t x y => t.fmul rnd x y), (.vecMin, fun x y => if x ≤ y then x else y, fun t x y => t.fminmax false x y),
        (.vecMax, fun x y => if x ≤ y then y else x, fun t x y => t.fminmax true x y)] :
        List ((Fields → Instr) × (Int → Int → Int) × (Fmt → Nat → Nat → Nat × Flags))) → Executes (mk f) s →
      (¬ ok → fault (mk f) 1 T) ∧ (ok → b.tag ≠ a.tag → fault (mk f) 2 b.tag.toNat) ∧
      (ok → b.tag = a.tag → T ≤ 4 → VecEnds (mk f) s 70 n.toNat T w
        (fun k => laneFit sat u w (gi (laneOf u w (laneAt w k a.bits)) (laneOf u w (laneAt w k b.bits)))) 0) ∧
      (ok → b.tag = a.tag → 5 ≤ T → VecEnds (mk f) s 70 n.toNat T w
        (fun k => (gf (fmtOf T) (laneAt w k a.bits) (laneAt w k b.bits)).1 % 2 ^ w)
        (orFlags m fun k => (gf (fmtOf T) (laneAt w k a.bits) (laneAt w k b.bits)).2))) ∧
    (Executes (.vecFma f) s →
      (¬ ok → fault (.vecFma f) 1 T) ∧ (ok → b.tag ≠ a.tag → fault (.vecFma f) 2 b.tag.toNat) ∧
      (ok → b.tag = a.tag → c.tag ≠ a.tag → fault (.vecFma f) 3 c.tag.toNat) ∧
      (ok → b.tag = a.tag → c.tag = a.tag → T ≤ 4 → VecEnds (.vecFma f) s 70 n.toNat T w (fun k =>
        laneFit sat u w (laneOf u w (laneAt w k a.bits) * laneOf u w (laneAt w k b.bits) + laneOf u w (laneAt w k c.bits))) 0) ∧
      (ok → b.tag = a.tag → c.tag = a.tag → 5 ≤ T → VecEnds (.vecFma f) s 70 n.toNat T w
        (fun k => ((fmtOf T).ffma rnd (laneAt w k a.bits) (laneAt w k b.bits) (laneAt w k c.bits)).1 % 2 ^ w)
        (orFlags m fun k => ((fmtOf T).ffma rnd (laneAt w k a.bits) (laneAt w k b.bits) (laneAt w k c.bits)).2))) ∧
    (∀ (mk : Fields → Instr) (gi : Int → Int) (gf : Nat → Nat), (mk, gi, gf) ∈ ([
        (.vecAbs, fun x => if x < 0 then -x else x, fun x => x % 2 ^ (w - 1)), (.vecNeg, fun x => -x, fun x => (x + 2 ^ (w - 1)) % 2 ^ w)] :
        List ((Fields → Instr) × (Int → Int) × (Nat → Nat))) → Executes (mk f) s →
      (¬ ok → fault (mk f) 1 T) ∧
      (ok → VecEnds (mk f) s 70 n.toNat T w
        (fun k => if T ≤ 4 then laneFit sat u w (gi (laneOf u w (laneAt w k a.bits))) else gf (laneAt w k a.bits)) 0))

/-- and, or and xor act on all 512 bits (tags 0 to 8 and 12, equal or one of them 0). shl and shr shift lane i of A by lane i of B, or by imm32[5:0],
modulo the lane width, shr with copies of the top bit or (u) zeros. cmp writes bit i of a mask with the relation of the lanes and zero above them.
sel takes lane i from A where bit i of the mask C is 1 and from B where it is 0. bcast fills every lane with A's low bits, or with imm32 (sign-
extended for int64, in the upper half for fp64). perm gathers the lanes of A that B names, zero where the number is no lane. pack joins the low
halves of A and B, unpack delivers one half of A. Each goes on in sequence and changes nothing else. A source tag that R123 does not accept takes
the format fault, cause 0x08, with the number of the first failing operand (1 A, 2 B, 3 C) as detail and its tag in tval. -/
def Obligations.VectorMoveResults : Prop :=
  ∀ (f : Fields) (s : State) (n : BitVec 5), f.d = .v n →
    let a := s.vec f.a
    let b := s.vec f.b
    let T := a.tag.toNat
    let w := laneWidth T
    let u := f.m.getLsbD 0
    let shr (x k : Nat) : Nat := if u then x / 2 ^ (k % w) else (laneOf false w x / 2 ^ (k % w) % 2 ^ w).toNat
    let shl (x k : Nat) : Nat := x * 2 ^ (k % w) % 2 ^ w
    let half (x : W512) (h : Nat) : Nat := x.toNat / 2 ^ (256 * h) % 2 ^ 256
    let plain (t : Nat) : Prop := t ≤ 8 ∨ t = 12
    let fault (i : Instr) (k tag : Nat) : Prop := Executes i s → exec i s = .next (s.traps 8 k (BitVec.ofNat 96 tag))
    (∀ mk ∈ ([.vecAnd, .vecOr, .vecXor] : List (Fields → Instr)), (¬ plain T → fault (mk f) 1 T) ∧
      (plain T → ¬ (plain b.tag.toNat ∧ (a.tag = b.tag ∨ a.tag = 0 ∨ b.tag = 0)) → fault (mk f) 2 b.tag.toNat)) ∧
    (∀ mk ∈ ([.vecShl, .vecShr, .vecShlI, .vecShrI] : List (Fields → Instr)), ¬ (1 ≤ T ∧ T ≤ 4) → fault (mk f) 1 T) ∧
    (∀ mk ∈ ([.vecShl, .vecShr] : List (Fields → Instr)), 1 ≤ T → T ≤ 4 → b.tag ≠ a.tag → fault (mk f) 2 b.tag.toNat) ∧
    (f.m.toNat / 16 ≤ 4 → (¬ (1 ≤ T ∧ T ≤ 8) ∨ (f.m.toNat / 16 = 4 ∧ T ≤ 4) → fault (.vecCmp f) 1 T) ∧
      (1 ≤ T → T ≤ 8 → (f.m.toNat / 16 = 4 → 5 ≤ T) → b.tag ≠ a.tag → fault (.vecCmp f) 2 b.tag.toNat)) ∧
    (8 < T → fault (.vecSel f) 1 T ∧ fault (.vecPerm f) 1 T) ∧
    (T ≤ 8 → b.tag ≠ a.tag → fault (.vecSel f) 2 b.tag.toNat) ∧
    (T ≤ 8 → b.tag = a.tag → (s.vec f.c).tag ≠ 12 → fault (.vecSel f) 3 (s.vec f.c).tag.toNat) ∧
    (T ≤ 8 → b.tag.toNat ≠ (if w = 8 then 1 else if w = 16 then 2 else if w = 32 then 3 else 4) → fault (.vecPerm f) 2 b.tag.toNat) ∧
    (¬ plain T → fault (.vecPack f) 1 T ∧ fault (.vecUnpack f) 1 T) ∧
    (plain T → b.tag ≠ a.tag → fault (.vecPack f) 2 b.tag.toNat) ∧
    (∀ (mk : Fields → Instr) (g : W512 → W512 → W512), (mk, g) ∈ ([(.vecAnd, (· &&& ·)), (.vecOr, (· ||| ·)), (.vecXor, (· ^^^ ·))] :
        List ((Fields → Instr) × (W512 → W512 → W512))) →
      (T ≤ 8 ∨ T = 12) → (b.tag.toNat ≤ 8 ∨ b.tag.toNat = 12) → (a.tag = b.tag ∨ a.tag = 0 ∨ b.tag = 0) → Executes (mk f) s →
      VecEnds (mk f) s 70 n.toNat (if a.tag = 0 then b.tag.toNat else T) 512 (fun _ => (g a.bits b.bits).toNat) 0) ∧
    (1 ≤ T → T ≤ 4 →
      (b.tag = a.tag → Executes (.vecShl f) s →
        VecEnds (.vecShl f) s 70 n.toNat T w (fun k => shl (laneAt w k a.bits) (laneAt w k b.bits)) 0) ∧
      (b.tag = a.tag → Executes (.vecShr f) s →
        VecEnds (.vecShr f) s 70 n.toNat T w (fun k => shr (laneAt w k a.bits) (laneAt w k b.bits)) 0) ∧
      (Executes (.vecShlI f) s → VecEnds (.vecShlI f) s 70 n.toNat T w (fun k => shl (laneAt w k a.bits) (f.imm.toNat % 64)) 0) ∧
      (Executes (.vecShrI f) s → VecEnds (.vecShrI f) s 70 n.toNat T w (fun k => shr (laneAt w k a.bits) (f.imm.toNat % 64)) 0)) ∧
    (1 ≤ T → T ≤ 4 → b.tag = a.tag → f.m.toNat / 16 ≤ 3 → Executes (.vecCmp f) s →
      let x (k : Nat) := laneOf u w (laneAt w k a.bits)
      let y (k : Nat) := laneOf u w (laneAt w k b.bits)
      VecEnds (.vecCmp f) s 70 n.toNat 12 1 (fun k => if k < elements T ∧
        (if f.m.toNat / 16 = 0 then x k = y k else if f.m.toNat / 16 = 1 then x k ≠ y k
         else if f.m.toNat / 16 = 2 then x k < y k else x k ≤ y k) then 1 else 0) 0) ∧
    (5 ≤ T → T ≤ 8 → b.tag = a.tag → f.m.toNat / 16 ≤ 4 → Executes (.vecCmp f) s →
      let r (k : Nat) : Bool × Flags := (fmtOf T).fcmp (if f.m.toNat / 16 ≤ 1 then 0 else f.m.toNat / 16 - 1) (laneAt w k a.bits) (laneAt w k b.bits)
      VecEnds (.vecCmp f) s 70 n.toNat 12 1 (fun k => if k < elements T ∧ ((r k).1 != decide (f.m.toNat / 16 = 1)) = true then 1 else 0)
        (orFlags (elements T) fun k => (r k).2)) ∧
    (T ≤ 8 → b.tag = a.tag → (s.vec f.c).tag = 12 → Executes (.vecSel f) s →
      VecEnds (.vecSel f) s 70 n.toNat T w (fun k => if (s.vec f.c).bits.getLsbD k then laneAt w k a.bits else laneAt w k b.bits) 0) ∧
    (∀ tag, tag = f.m.toNat % 16 → 1 ≤ tag → tag ≤ 8 →
      (Executes (.vecBcast f) s →
        VecEnds (.vecBcast f) s 70 n.toNat tag (laneWidth tag) (fun _ => (s.data f.a).toNat % 2 ^ laneWidth tag) 0) ∧
      (Executes (.vecBcastI f) s →
        VecEnds (.vecBcastI f) s 70 n.toNat tag (laneWidth tag) (fun _ => (if tag = 4 then (immS f).toNat
          else if tag = 8 then f.imm.toNat % 2 ^ 32 * 2 ^ 32 else f.imm.toNat % 2 ^ 32) % 2 ^ laneWidth tag) 0)) ∧
    (T ≤ 8 → b.tag.toNat = (if w = 8 then 1 else if w = 16 then 2 else if w = 32 then 3 else 4) → Executes (.vecPerm f) s →
      VecEnds (.vecPerm f) s 70 n.toNat T w (fun k => if laneAt w k b.bits < elements T then laneAt w (laneAt w k b.bits) a.bits else 0) 0) ∧
    ((T ≤ 8 ∨ T = 12) →
      (b.tag = a.tag → Executes (.vecPack f) s →
        VecEnds (.vecPack f) s 70 n.toNat T 256 (fun k => if k = 0 then half a.bits 0 else half b.bits 0) 0) ∧
      (Executes (.vecUnpack f) s → VecEnds (.vecUnpack f) s 70 n.toNat T 256 (fun k => if k = 0 then half a.bits u.toNat else 0) 0))

/-- vec.red on integer lanes delivers the sum modulo 2^64 (add), a lane value that none is below (min) or above (max), the conjunction, disjunction or
exclusive or (and, or, xor) of the extended lanes; on a mask the number of ones, or the fold of all 512 bits; on floating lanes the value of the
tree that folds neighbours pairwise, each node rounded, with all flags. vec.scan delivers, lane after lane, the fold of the lanes so far or (excl)
of those before, from the identity, each step rounded, wrapped or (sat) clamped. exp2, log2, rcp, rsqrt and tanh apply the model's function (whose
correct rounding rests on the series and precision of log entry 12) to every fp16, bf16 or fp32 lane, with the sticky flags. vec.cvt converts
element by element, writing code 0 above the elements it has, with scales 0x7F for tags 9 to 11 (0xFF for a q4 block that takes a NaN, all its
codes 0), and with equal tags copies A with its scale. A source tag, operation, part or pair that the rules do not accept takes the format fault
with detail 1. -/
def Obligations.VectorFoldAndConvertResults : Prop :=
  ∀ (f : Fields) (s : State),
    let a := s.vec f.a
    let T := a.tag.toNat
    let w := laneWidth T
    let m := elements T
    let u := f.m.getLsbD 0
    let op := f.m.toNat / 16
    let rnd := s.me.fmode.toNat % 4
    let lane (k : Nat) : Nat := laneAt w k a.bits
    let x (k : Nat) : Int := laneOf u w (lane k)
    let fault (i : Instr) : Prop := exec i s = .next (s.traps 8 1 (BitVec.ofNat 96 T))
    let red (v : W64) (g : Flags) : Prop := exec (.vecRed f) s =
      .next ((((consumed (.vecRed f) s).modMe fun t => { t with fmode := t.fmode ||| g }).put f.d v).chargeTh s.cur.1 s.cur.2 70 1).next
    let redI (v : W64) : Prop := exec (.vecRed f) s = .next ((((consumed (.vecRed f) s).put f.d v).chargeTh s.cur.1 s.cur.2 70 1).next)
    let fold (g : W64 → W64 → W64) (z : W64) : W64 := (List.range m).foldl (fun v k => g v (BitVec.ofInt 64 (x k))) z
    (Executes (.vecRed f) s → 1 ≤ T → T ≤ 4 →
      (op = 0 → redI (BitVec.ofInt 64 ((List.range m).map x).sum)) ∧
      (op = 1 → ∃ k < m, (∀ j < m, x k ≤ x j) ∧ redI (BitVec.ofInt 64 (x k))) ∧
      (op = 2 → ∃ k < m, (∀ j < m, x j ≤ x k) ∧ redI (BitVec.ofInt 64 (x k))) ∧
      (op = 3 → redI (fold (· &&& ·) (BitVec.allOnes 64))) ∧ (op = 4 → redI (fold (· ||| ·) 0)) ∧ (op = 5 → redI (fold (· ^^^ ·) 0))) ∧
    (Executes (.vecRed f) s → T = 12 →
      let ones := (List.range 512).countP a.bits.getLsbD
      (op = 0 → redI (BitVec.ofNat 64 ones)) ∧ (op = 3 → redI (if ones = 512 then 1 else 0)) ∧ (op = 4 → redI (if ones = 0 then 0 else 1)) ∧
      (op = 5 → redI (BitVec.ofNat 64 (ones % 2)))) ∧
    (Executes (.vecRed f) s → 5 ≤ T → T ≤ 8 → op ≤ 2 →
      let r := (foldTree (foldF (fmtOf T) rnd op) 9 ((List.range m).map fun k => (lane k, (0 : Flags)))).headD (0, 0)
      red (BitVec.ofNat 64 r.1) r.2) ∧
    (Executes (.vecRed f) s → op ≤ 5 → ¬ ((1 ≤ T ∧ T ≤ 4) ∨ (5 ≤ T ∧ T ≤ 8 ∧ op ≤ 2) ∨ (T = 12 ∧ (op = 0 ∨ 3 ≤ op))) → fault (.vecRed f)) ∧
    (∀ n : BitVec 5, f.d = .v n →
      (Executes (.vecScan f) s → op ≤ 2 →
        let excl := f.m.getLsbD 2
        let step (p q : Nat) : Nat × Flags :=
          if T ≤ 4 then
            let i := laneOf u w p
            let j := laneOf u w q
            (laneFit (f.m.getLsbD 1 && op = 0) u w (if op = 0 then i + j else if op = 1 then (if i ≤ j then i else j) else if i ≤ j then j else i), 0)
          else if op = 0 then (fmtOf T).fadd rnd p q else (fmtOf T).fminmax (decide (op = 2)) p q
        let ident : Nat := if op = 0 then 0
          else if T ≤ 4 then (if op = 1 then if u then 2 ^ w - 1 else 2 ^ (w - 1) - 1 else if u then 0 else 2 ^ (w - 1))
          else if op = 1 then (fmtOf T).infBits else 2 ^ (w - 1) + (fmtOf T).infBits
        (1 ≤ T → T ≤ 8 → ∃ y : Nat → Nat, y 0 = (if excl then ident else lane 0) ∧
          (∀ k, k + 1 < m → y (k + 1) = (step (y k) (lane (if excl then k else k + 1))).1) ∧
          VecEnds (.vecScan f) s 70 n.toNat T w y
            (if excl then orFlags m fun k => (step (y k) (lane k)).2 else orFlags (m - 1) fun k => (step (y k) (lane (k + 1))).2)) ∧
        (¬ (1 ≤ T ∧ T ≤ 8) → fault (.vecScan f))) ∧
      (∀ (mk : Fields → Instr) (g : Fmt → Nat → Nat → Nat × Flags), (mk, g) ∈ ([(.vecExp2, Fmt.fexp2), (.vecLog2, Fmt.flog2), (.vecRcp, Fmt.frcp),
          (.vecRsqrt, Fmt.frsqrt), (.vecTanh, Fmt.ftanh)] : List ((Fields → Instr) × (Fmt → Nat → Nat → Nat × Flags))) → Executes (mk f) s →
        (5 ≤ T → T ≤ 7 → VecEnds (mk f) s 110 n.toNat T w (fun k => (g (fmtOf T) rnd (lane k)).1 % 2 ^ w)
          (orFlags m fun k => (g (fmtOf T) rnd (lane k)).2)) ∧
        (¬ (5 ≤ T ∧ T ≤ 7) → fault (mk f))) ∧
      (Executes (.vecCvt f) s →
        let tag := f.m.toNat % 16
        let p := f.m.toNat / 16 % 8
        let nd := elements tag
        let fits : Prop := m ≤ 8 * nd ∧ nd ≤ 8 * m ∧ (if nd < m then p < m / nd else p = 0)
        let val (k : Nat) : FVal := elemVal a (f.m.getLsbD 7) (p * min m nd + k)
        let e (k : Nat) : Nat × Flags := if k < min m nd then cvtElem tag rnd (isInt T) (f.m.getLsbD 7) (val k) else (0, 0)
        let nanBlock (b : Nat) : Bool := (List.range 32).any fun k => decide (32 * b + k < min m nd) && (val (32 * b + k)).isNan
        1 ≤ tag → tag ≤ 11 →
        (¬ (1 ≤ T ∧ T ≤ 11) → fault (.vecCvt f)) ∧
        (1 ≤ T → T ≤ 11 → tag = T →
          (p ≠ 0 → fault (.vecCvt f)) ∧
          (p = 0 → exec (.vecCvt f) s = .next (((s.modMe (·.wv n.toNat a)).chargeTh s.cur.1 s.cur.2 70 1).next))) ∧
        (1 ≤ T → T ≤ 11 → tag ≠ T → ¬ fits → fault (.vecCvt f)) ∧
        (1 ≤ T → T ≤ 11 → tag ≠ T → fits → tag ≤ 8 →
          VecEnds (.vecCvt f) s 70 n.toNat tag (laneWidth tag) (fun k => (e k).1 % 2 ^ laneWidth tag) (orFlags nd fun k => (e k).2)) ∧
        (1 ≤ T → T ≤ 11 → tag ≠ T → fits → 9 ≤ tag → ∃ r : VReg, r.tag = BitVec.ofNat 4 tag ∧
          (∀ k < nd, laneAt (512 / nd) k r.bits = if tag = 11 ∧ nanBlock (k / 32) = true then 0 else (e k).1 % 2 ^ (512 / nd)) ∧
          (tag ≤ 10 → r.scale = 0x7F7F) ∧ (tag = 11 → ∀ b < 4, r.scale.toNat / 2 ^ (16 * b) % 2 ^ 16 = if nanBlock b then 0xFF else 0x7F) ∧
          exec (.vecCvt f) s = .next (((((s.modMe fun t => { t with fmode := t.fmode ||| orFlags nd fun k => (e k).2 }).modMe (·.wv n.toNat r)).chargeTh
            s.cur.1 s.cur.2 70 1).next)))))

/-- qz.blk writes the block of its 32 source elements, quantised to tag 9, 10 or 11, at position j of D, clearing D first when j = 0 (a D of another
tag faults when j > 0). qz.split does so for q4 after the outlier filter with the threshold C, writes the removed elements to the side register
v(2k+1) and whether there were more than four candidates to predicate M[2:0]. qz.dq writes elements of a block register, the side list's values
added, rounded once to nearest even. qz.tagget reads A's tag or scale field into D; qz.tagset writes A's bits with the tag B[3:0], or A with the
scale field B. None touches fmode; each counts, is charged and goes on. -/
def Obligations.QuantisationResults : Prop :=
  ∀ (f : Fields) (s : State),
    let a := s.vec f.a
    let b := s.vec f.b
    let T := a.tag.toNat
    let go (u : State) : State := (u.chargeTh s.cur.1 s.cur.2 70 1).next
    (Executes (.qzTagget f) s → exec (.qzTagget f) s = .next (go (s.put f.d (if f.m.getLsbD 0 then a.scale else a.tag.setWidth 64)))) ∧
    (∀ n : BitVec 5, f.d = .v n →
      (Executes (.qzTagset f) s → f.m.getLsbD 0 = false → (s.data f.b).toNat % 16 < 14 →
        exec (.qzTagset f) s = .next (go ((consumed (.qzTagset f) s).modMe (·.wv n.toNat ⟨a.bits, (s.data f.b).setWidth 4,
          if (s.data f.b).toNat % 16 = 11 then a.scale else if (s.data f.b).toNat % 16 = 9 ∨ (s.data f.b).toNat % 16 = 10 then a.scale &&& 0xFFFF
          else 0⟩)))) ∧
      (Executes (.qzTagset f) s → f.m.getLsbD 0 = true → 9 ≤ T → T ≤ 11 →
        exec (.qzTagset f) s = .next (go ((consumed (.qzTagset f) s).modMe (·.wv n.toNat
          { a with scale := if T = 11 then s.data f.b else s.data f.b &&& 0xFFFF })))) ∧
      (∀ xs tag j, Executes (.qzBlk f) s → blockSource a b = .ok xs → tag = f.m.toNat % 16 → j = f.m.toNat / 16 % 4 →
        (j = 0 ∨ (s.vec f.d).tag.toNat = tag) →
        exec (.qzBlk f) s = .next (go (s.modMe (·.wv n.toNat (putBlock tag j (s.vec f.d) (quantise tag xs [] []))))) ∧
        xs.length = 32 ∧ (T = 5 ∨ T = 6 → ∀ k < 32, xs[k]? = some ((fmtOf T).decode (laneAt 16 k a.bits)))) ∧
      (∀ xs j, Executes (.qzSplit f) s → blockSource a b = .ok xs → j = f.m.toNat / 8 % 4 →
        (j = 0 ∨ ((s.vec f.d).tag = 11 ∧ (s.me.rv (n + 1).toNat).tag = 13)) →
        let cand := if xs.all FVal.isFin then candidates xs (fp32.decode ((s.data f.c).toNat % 2 ^ 32)) else []
        let removed := removedOf xs cand
        ∃ side : VReg, side.tag = 13 ∧ side.scale = 0 ∧
          (∀ k < 16, laneAt 32 k side.bits = if k / 4 = j then
              (match removed[k % 4]? with
                | some e => (fp16.round 0 (xs.getD e (.fin false 0 0))).1 * 2 ^ 16 + (32 * j + e)
                | none => 0xFFFF) % 2 ^ 32
            else if j = 0 then 0xFFFF else laneAt 32 k (s.me.rv (n + 1).toNat).bits) ∧
          exec (.qzSplit f) s = .next (go ((((consumed (.qzSplit f) s).modMe (·.wv n.toNat
            (putBlock 11 j (s.vec f.d) (quantise 11 xs cand removed)))).modMe (·.wv (n + 1).toNat side)).modMe
              (·.wp (f.m.toNat % 8) (decide (4 < cand.length)))))) ∧
      (∀ tag p, Executes (.qzDq f) s → tag = f.m.toNat % 16 → p = f.m.toNat / 16 % 8 → 5 ≤ tag → tag ≤ 7 → 9 ≤ T → T ≤ 11 →
        p * elements tag + elements tag ≤ elements T → f.m.getLsbD 7 = false →
        VecEnds (.qzDq f) s 70 n.toNat tag (laneWidth tag)
          (fun k => ((fmtOf tag).round 0 (blockVal T a.bits a.scale (p * elements tag + k))).1 % 2 ^ laneWidth tag) 0))

/-- qz.blk and qz.split run when A is tagged fp16 or bf16, or both A and B fp32, and position 0 is written or D carries the target tag (and v(2k+1)
the side tag): D gets the target tag, its other blocks and their scale entries stay, or become zero at position 0; split also writes v(2k+1),
tagged side, and predicate M[2:0]. qz.dq runs when A is tagged 9, 10 or 11, the part fits, and with side B is tagged side: its lanes are the exact
sums of block value and side values, rounded once to nearest even. qz.tagget always runs. qz.tagset runs with M[0] = 0 when B[3:0] is below 14 and
with M[0] = 1 when A is tagged 9, 10 or 11. Otherwise the format fault, cause 0x08, with the rule's detail and the tag in tval. (That tval is
v(2k+1)'s tag where that register fails, and B[3:0] for tagset, is the model's choice, log entry 57.) -/
def Obligations.QuantisationCompletes : Prop :=
  ∀ (f : Fields) (s : State),
    let a := s.vec f.a
    let b := s.vec f.b
    let T := a.tag.toNat
    let src : Prop := T = 5 ∨ T = 6 ∨ (T = 7 ∧ b.tag = 7)
    let go (u : State) : State := (u.chargeTh s.cur.1 s.cur.2 70 1).next
    let fault (i : Instr) (k tag : Nat) : Prop := exec i s = .next (s.traps 8 k (BitVec.ofNat 96 tag))
    let kept (tag j : Nat) (d r : VReg) : Prop := r.tag = BitVec.ofNat 4 tag ∧
      let w := if tag = 11 then 128 else 256
      let z := if tag = 11 then 16 else 8
      ∀ k < 512 / w, k ≠ j → laneAt w k r.bits = (if j = 0 then 0 else laneAt w k d.bits) ∧
        r.scale.toNat / 2 ^ (z * k) % 2 ^ z = if j = 0 then 0 else d.scale.toNat / 2 ^ (z * k) % 2 ^ z
    (Executes (.qzTagget f) s → exec (.qzTagget f) s = .next (go (s.put f.d (if f.m.getLsbD 0 then a.scale else a.tag.setWidth 64)))) ∧
    (∀ n : BitVec 5, f.d = .v n →
      let d := s.me.rv n.toNat
      let d1 := s.me.rv (n + 1).toNat
      (Executes (.qzTagset f) s → f.m.getLsbD 0 = false →
        (14 ≤ (s.data f.b).toNat % 16 → fault (.qzTagset f) 2 ((s.data f.b).toNat % 16)) ∧
        ((s.data f.b).toNat % 16 < 14 → ∃ z : W64,
          exec (.qzTagset f) s = .next (go ((consumed (.qzTagset f) s).modMe (·.wv n.toNat ⟨a.bits, (s.data f.b).setWidth 4, z⟩))))) ∧
      (Executes (.qzTagset f) s → f.m.getLsbD 0 = true →
        (¬ (9 ≤ T ∧ T ≤ 11) → fault (.qzTagset f) 1 T) ∧
        (9 ≤ T → T ≤ 11 → ∃ z : W64, exec (.qzTagset f) s = .next (go ((consumed (.qzTagset f) s).modMe (·.wv n.toNat { a with scale := z }))))) ∧
      (Executes (.qzBlk f) s →
        let tag := f.m.toNat % 16
        let j := f.m.toNat / 16 % 4
        (¬ (5 ≤ T ∧ T ≤ 7) → fault (.qzBlk f) 1 T) ∧ (T = 7 → b.tag ≠ 7 → fault (.qzBlk f) 2 b.tag.toNat) ∧
        (src → j ≠ 0 → d.tag.toNat ≠ tag → fault (.qzBlk f) 0 d.tag.toNat) ∧
        (src → j = 0 ∨ d.tag.toNat = tag → ∃ r : VReg, kept tag j d r ∧ exec (.qzBlk f) s = .next (go (s.modMe (·.wv n.toNat r))))) ∧
      (Executes (.qzSplit f) s →
        let j := f.m.toNat / 8 % 4
        (¬ (5 ≤ T ∧ T ≤ 7) → fault (.qzSplit f) 1 T) ∧ (T = 7 → b.tag ≠ 7 → fault (.qzSplit f) 2 b.tag.toNat) ∧
        (src → j ≠ 0 → d.tag ≠ 11 → fault (.qzSplit f) 0 d.tag.toNat) ∧
        (src → j ≠ 0 → d.tag = 11 → d1.tag ≠ 13 → fault (.qzSplit f) 0 d1.tag.toNat) ∧
        (src → j = 0 ∨ (d.tag = 11 ∧ d1.tag = 13) → ∃ (r side : VReg) (more : Bool), kept 11 j d r ∧ side.tag = 13 ∧ side.scale = 0 ∧
          exec (.qzSplit f) s = .next (go ((((consumed (.qzSplit f) s).modMe (·.wv n.toNat r)).modMe (·.wv (n + 1).toNat side)).modMe
            (·.wp (f.m.toNat % 8) more))))) ∧
      (Executes (.qzDq f) s →
        let tag := f.m.toNat % 16
        let p := f.m.toNat / 16 % 8
        let side := f.m.getLsbD 7
        let fits : Prop := p * elements tag + elements tag ≤ elements T
        (¬ (9 ≤ T ∧ T ≤ 11) → fault (.qzDq f) 1 T) ∧ (9 ≤ T → T ≤ 11 → ¬ fits → fault (.qzDq f) 1 T) ∧
        (9 ≤ T → T ≤ 11 → fits → side = true → b.tag ≠ 13 → fault (.qzDq f) 2 b.tag.toNat) ∧
        (9 ≤ T → T ≤ 11 → fits → (side = true → b.tag = 13) → 5 ≤ tag → tag ≤ 7 →
          VecEnds (.qzDq f) s 70 n.toNat tag (laneWidth tag) (fun k =>
            let v := blockVal T a.bits a.scale (p * elements tag + k)
            ((fmtOf tag).round 0 (if side then (sideAt b.bits (p * elements tag + k)).foldl (fun v x => (v.add 0 x).1) v else v)).1
              % 2 ^ laneWidth tag) 0)))

/-! ### Memory instructions (06 R143-R158) -/

/-- The address of a scalar memory instruction of the issuing thread, with and without an index (06 R143). -/
def Sys2Proof.Machine.State.ea (s : State) (f : Fields) : Nat := eaOf f (s.env s.cur.1 s.cur.2 f)
def Sys2Proof.Machine.State.eaAmo (s : State) (f : Fields) : Nat := eaNoIndex f (s.env s.cur.1 s.cur.2 f)
/-- The checks of 06 R145 for an access of the issuing thread: the state after the page walk, and the key of the bytes or the fault. -/
def Sys2Proof.Machine.State.reach (s : State) (r : Reg) (perms : List Nat) (ea n : Nat) (acc : Acc) : State × Except Stop Nat :=
  s.resolve s.cur.1 s.cur.2 r perms ea n n acc
/-- The trap of a failed access: what the page walks did stays, and the thread is as it was at the issue (20 R424). -/
def Sys2Proof.Machine.State.faults (s u : State) (cause detail ea : Nat) : State :=
  (u.setTh s.cur.1 s.cur.2 s.me).takeTrap s.cur.1 s.cur.2 ⟨cause, detail, BitVec.ofNat 96 ea, false⟩
/-- The request that an access of the issuing thread sends to its home with its row-policy hint, behind the thread's earlier writes of those words; the
thread parks on its reply (01 R14). -/
def Sys2Proof.Machine.State.asks (u : State) (cp : BitVec 2) (keys : List Nat) (n ea k : Nat) (op : ReqOp) : State :=
  let v := keys.foldl (fun s k => s.ownFirst u.cur.1 u.cur.2 k n) u
  let (w, id) := v.request u.cur.1 u.cur.2 ea k op false cp
  w.parks (.reply id)
/-- The posted write that an access of the issuing thread sends to its home; the thread goes on (06 R148). -/
def Sys2Proof.Machine.State.posts (u : State) (cp : BitVec 2) (n ea k : Nat) (op : ReqOp) : State :=
  ((u.ownFirst u.cur.1 u.cur.2 k n).request u.cur.1 u.cur.2 ea k op true cp).1.next
/-- The host has still to perform an AtomicOp that the issuing thread posted on a word of an access (18 R372): the access is cancelled. -/
def Sys2Proof.Machine.State.hostHolds (u : State) (keys : List Nat) (n : Nat) : Bool :=
  keys.any fun k => (u.ownHits u.cur.1 u.cur.2 k n).any (·.2.atHost)
/-- A cancelled issue (01 R12): its message registers are as at the issue, and nothing counts. -/
def Sys2Proof.Machine.State.cancels (s u : State) : State := u.modMe fun t => { t with m := s.me.m }
/-- The partition of slot (c, i) records its ephemeris, so that a choice of the slot's thread is written to memory (23 R465, R466). -/
def Sys2Proof.Machine.State.records (s : State) (c i : Nat) : Prop := (s.part (s.partOf c i)).ephMode = 1
/-- One access of the issuing thread to `n` bytes at a key: its energy and row activations, for the owner of its address space (23 R453). -/
def Sys2Proof.Machine.State.touched (u : State) (k n : Nat) (wr : Bool) : State := u.access (u.payer u.cur.1 u.cur.2) k n wr
/-- The scalar memory functions with the size, the permissions, the kind and the address of their access. -/
def scalarAccesses (s : State) (f : Fields) : List (Instr × Nat × List Nat × Acc × Nat) :=
  let wr := [permWr]
  let am := [permAtom, permRd, permWr]
  [(.ldB f, 1, [permRd], .load, s.ea f), (.ldH f, 2, [permRd], .load, s.ea f), (.ldW f, 4, [permRd], .load, s.ea f),
   (.ldD f, 8, [permRd], .load, s.ea f), (.ldC f, 16, [permRd], .load, s.ea f), (.ldBu f, 1, [permRd], .load, s.ea f),
   (.ldHu f, 2, [permRd], .load, s.ea f), (.ldWu f, 4, [permRd], .load, s.ea f),
   (.stB f, 1, wr, .store, s.ea f), (.stH f, 2, wr, .store, s.ea f), (.stW f, 4, wr, .store, s.ea f), (.stD f, 8, wr, .store, s.ea f),
   (.stC f, 16, if (s.val f.c).tag then [permWr, permStcap] else wr, .store, s.ea f),
   (.feLwf f, 8, [permFe, permRd], .rmw, s.ea f), (.feLwfe f, 8, [permFe, permRd, permWr], .rmw, s.ea f),
   (.feSwe f, 8, [permFe, permWr], .rmw, s.ea f), (.feSf f, 8, [permFe, permWr], .rmw, s.ea f),
   (.feCe f, 8, [permFe, permWr], .rmw, s.ea f), (.fePeek f, 8, [permFe, permRd], .rmw, s.ea f),
   (.lrW f, 4, [permRd], .rmw, s.ea f), (.lrD f, 8, [permRd], .rmw, s.ea f), (.scW f, 4, wr, .rmw, s.ea f), (.scD f, 8, wr, .rmw, s.ea f)] ++
  ([(.amoAdd), (.amoAnd), (.amoOr), (.amoXor), (.amoMin), (.amoMax), (.amoMinu), (.amoMaxu), (.amoSwap), (.amoCas)] :
    List (Bool → Fields → Instr)).flatMap fun g => [(g false f, 4, am, .rmw, s.eaAmo f), (g true f, 8, am, .rmw, s.eaAmo f)]

/-- For every load, store, full/empty, lr, sc and amo function (size n, permissions, EA = (A.addr + index + sext(imm32)) mod 2^48; amo has no index):
A untagged traps with cause 0x05, a missing permission with 0x06, a range outside A's bounds with 0x07, EA no multiple of n with 0x04, a failed
address-space check with its fault, and a failed translation with 0x0B and detail 0 (load), 1 (store) or 2 (read-modify-write); tval is EA, and
the thread's registers are as at the issue; while a throttled row, or the thread's own write to a table entry, holds the page walk back, the issue
is cancelled. The address-space check takes a global range below 14 * 2^44, an own-cell (0xE) or scratchpad (0xF) range within one pool whose zero
bits are zero, the virtual cell in the partition, and outside the register section for user mode, to the pool's bytes; its faults are 0x0B detail
4, 0x0A and 0x06. -/
def Obligations.AccessChecksInOrder : Prop :=
  (∀ (f : Fields) (s : State) (i : Instr) (n : Nat) (perms : List Nat) (acc : Acc) (ea : Nat), (i, n, perms, acc, ea) ∈ scalarAccesses s f →
    Executes i s →
    let r := s.val f.a
    let c := consumed i s
    let fault (u : State) (cause detail : Nat) : Prop := exec i s = .next (s.faults u cause detail ea)
    let okCap : Prop := r.tag = true ∧ (∀ p ∈ perms, r.has p = true) ∧ r.base ≤ ea ∧ ea + n ≤ r.top
    let sp := c.space s.cur.1 s.cur.2 (decide (s.me.mode = .user)) ea n
    (r.tag = false → fault c 5 0) ∧
    (r.tag = true → (∃ p ∈ perms, r.has p = false) → fault c 6 0) ∧
    (r.tag = true → (∀ p ∈ perms, r.has p = true) → ¬ (r.base ≤ ea ∧ ea + n ≤ r.top) → fault c 7 0) ∧
    (okCap → ea % n ≠ 0 → fault c 4 0) ∧
    (∀ x, okCap → ea % n = 0 → sp = .error x → exec i s = .next (s.faults c x.cause x.detail ea) ∧ x.tval = BitVec.ofNat 96 ea ∧ x.int = false) ∧
    (∀ u, okCap → ea % n = 0 → sp = .ok none →
      let walk := c.translate (c.threadFn s.cur.1 s.cur.2) s.cur.1 s.me.asid.toNat ea acc (decide (s.me.mode = .user)) false (some s.cur.2)
      (walk = (u, .fault) → fault u 0x0B acc.num) ∧ (∀ t, walk = (u, .held t) → exec i s = .next (s.cancels u)))) ∧
  (∀ (f : Fields) (s : State),
    s.ea f = (((s.val f.a).addr + (s.data f.b).toNat + ((f.imm.setWidth 32 : BitVec 32).toInt) : Int) % 2 ^ 48).toNat ∧
    s.eaAmo f = (((s.val f.a).addr + ((f.imm.setWidth 32 : BitVec 32).toInt) : Int) % 2 ^ 48).toNat) ∧
  (∀ (s : State) (p c : Nat) (user : Bool) (ea n : Nat), ea < 2 ^ 48 → 0 < n →
    let bad : Except Trap (Option Nat) := .error ⟨0x0B, 4, BitVec.ofNat 96 ea, false⟩
    let pool (d : Nat) : Except Trap (Option Nat) :=
      if user = true ∧ ea % 2 ^ 20 < 4096 * ((s.cell d).pword.toNat % 256) then .error ⟨6, 0, BitVec.ofNat 96 ea, false⟩
      else .ok (some (d * 2 ^ 20 + ea % 2 ^ 20))
    s.spaceOf p c user ea n =
      if ea < 14 * 2 ^ 44 then (if ea + n ≤ 14 * 2 ^ 44 then .ok none else bad)
      else if ea % 2 ^ 20 + n > 2 ^ 20 then bad
      else if ea < 15 * 2 ^ 44 then (if ea % 2 ^ 44 < 2 ^ 20 then pool c else bad)
      else if ea / 2 ^ 20 % 2 ^ 14 ≠ 0 then bad
      else match physOf p (ea / 2 ^ 34 % 2 ^ 10) with
        | none => .error ⟨0x0A, 0, BitVec.ofNat 96 ea, false⟩
        | some d => pool d)

/-- For every ld function (size n) whose checks pass at key k (the byte address that EA names), no tile there being locked: an access to the own pool
that loses a bank it needs to the engines (log entry 15) is cancelled, as if not issued. From the thread's own pool, with no poison in the bytes,
D receives the value whose low 8n bits are the n bytes from k, lowest first, extended with copies of its top bit (b, h, w) or zeros (bu, hu, wu,
d), or, for ld.c, the whole cell with the granule's tag when A holds ldcap; the thread counts and goes on, and nothing else changes but energy.
With poison it is killed at the lowest poisoned address. From any other memory the request is sent, behind the thread's earlier writes of those
words, and the thread parks on its reply; while the host has still to perform an AtomicOp of the thread there, the issue is cancelled. -/
def Obligations.LoadResults : Prop :=
  (∀ (f : Fields) (s u : State) (mk : Fields → Instr) (n : Nat) (signed : Bool) (k : Nat), (mk, n, signed) ∈ ([(.ldB, 1, true), (.ldH, 2, true),
      (.ldW, 4, true), (.ldD, 8, true), (.ldBu, 1, false), (.ldHu, 2, false), (.ldWu, 4, false)] : List ((Fields → Instr) × Nat × Bool)) →
    Executes (mk f) s → (consumed (mk f) s).reach (s.val f.a) [permRd] (s.ea f) n .load = (u, .ok k) → u.lockedTile k n = none →
    (u.loses s.cur.1 k n = true → exec (mk f) s = .next (s.cancels u)) ∧
    (u.loses s.cur.1 k n = false → ownPool s.cur.1 k = true → u.poisonAt k n = none → ∃ v : W64, exec (mk f) s = .next ((u.touched k n false).put f.d v).next ∧
      (∀ j < 8 * n, v.getLsbD j = (readByte u.mem (k + j / 8)).getLsbD (j % 8)) ∧
      (∀ j, 8 * n ≤ j → j < 64 → v.getLsbD j = (signed && v.getLsbD (8 * n - 1)))) ∧
    (∀ j, u.loses s.cur.1 k n = false → ownPool s.cur.1 k = true → u.poisonAt k n = some j →
      exec (mk f) s = .next (s.killPoison s.cur.1 s.cur.2 (s.ea f + j))) ∧
    (ownPool s.cur.1 k = false → u.hostHolds [k] n = true → exec (mk f) s = .next (s.cancels (consumed (mk f) s))) ∧
    (ownPool s.cur.1 k = false → u.hostHolds [k] n = false → ∃ sg : Bool, (n = 8 ∨ sg = signed) ∧
      exec (mk f) s = .next (u.asks f.cp [k] n (s.ea f) k (.load n sg ((s.val f.a).has permLdcap) f.d)))) ∧
  (∀ (f : Fields) (s u : State) (k : Nat) (d : BitVec 6), f.d = .s d → Executes (.ldC f) s →
    (consumed (.ldC f) s).reach (s.val f.a) [permRd] (s.ea f) 16 .load = (u, .ok k) → u.lockedTile k 16 = none →
    (u.loses s.cur.1 k 16 = false → ownPool s.cur.1 k = true → u.poisonAt k 16 = none → ∃ v : W128,
      exec (.ldC f) s = .next ((u.touched k 16 false).modMe (·.ws d.toNat ⟨v, u.tagAt k && (s.val f.a).has permLdcap⟩)).next ∧
      ∀ j < 128, v.getLsbD j = (readByte u.mem (k + j / 8)).getLsbD (j % 8)) ∧
    (ownPool s.cur.1 k = false → u.hostHolds [k] 16 = false →
      exec (.ldC f) s = .next (u.asks f.cp [k] 16 (s.ea f) k (.load 16 false ((s.val f.a).has permLdcap) f.d))))

/-- For every st function (size n) whose checks pass at key k, no tile there being locked and no bank lost (then the issue is cancelled), and whose
release condition (if it is a release) holds: to the thread's own pool it writes the low n bytes of C, lowest first, at k; every byte of memory
outside k .. k+n-1 reads as before, the touched granule is tagged exactly when a tagged cell was stored by st.c, no other granule's tag changes,
and the thread counts and goes on. To any other memory, with fewer than 32 writes unacknowledged, the store is posted with those bytes and the
thread goes on; at 32, before a release's earlier writes are acknowledged, or while the host has to perform an AtomicOp of the thread there, the
issue is cancelled and nothing happens. -/
def Obligations.StoreResults : Prop :=
  ∀ (f : Fields) (s u : State) (mk : Fields → Instr) (n k : Nat), (mk, n) ∈ ([(.stB, 1), (.stH, 2), (.stW, 4), (.stD, 8), (.stC, 16)] :
      List ((Fields → Instr) × Nat)) → s.cur.1 < 1024 → Executes (mk f) s →
    (consumed (mk f) s).reach (s.val f.a) (if n = 16 ∧ (s.val f.c).tag = true then [permWr, permStcap] else [permWr]) (s.ea f) n .store = (u, .ok k) →
    u.lockedTile k n = none →
    (u.loses s.cur.1 k n = true → exec (mk f) s = .next (s.cancels u)) ∧ (u.loses s.cur.1 k n = false →
    let tag : Bool := decide (n = 16) && (s.val f.c).tag
    let waits : Prop := 2 ≤ f.m.toNat / 64 ∧ u.relWait s.cur.1 s.cur.2 (f.m.toNat % 64) = true
    (waits → exec (mk f) s = .next (s.cancels (consumed (mk f) s))) ∧
    (¬ waits → ownPool s.cur.1 k = true → ∃ t : State, exec (mk f) s = .next t ∧
      t = ((u.touched k n true).write (some s.cur) k n ((s.val f.c).val.toNat % 2 ^ (8 * n)) tag).next ∧
      (∀ j < n, readByte t.mem (k + j) = ((s.val f.c).val >>> (8 * j)).setWidth 8) ∧
      (∀ a, a < k ∨ k + n ≤ a → readByte t.mem a = readByte u.mem a) ∧
      t.tagAt k = tag ∧ (∀ a, a / 16 ≠ k / 16 → t.tagAt a = u.tagAt a)) ∧
    (¬ waits → ownPool s.cur.1 k = false → u.hostHolds [k] n = true → exec (mk f) s = .next (s.cancels (consumed (mk f) s))) ∧
    (¬ waits → ownPool s.cur.1 k = false → u.hostHolds [k] n = false →
      exec (mk f) s = .next (if (u.ownFirst s.cur.1 s.cur.2 k n).unacked s.cur.1 s.cur.2 < 32 then
        u.posts f.cp n (s.ea f) k (.store n (BitVec.ofNat 512 ((s.val f.c).val.toNat % 2 ^ (8 * n))) tag) else s.cancels (consumed (mk f) s))) ∧
    (s.cancels (consumed (mk f) s)).me = s.me ∧ (s.cancels (consumed (mk f) s)).mem = s.mem)

/-- With no tile locked, no bank lost and no release waiting (a waiting one is cancelled), vm.vld from the own pool writes D with the 64 bytes at EA,
tag raw and a zero scale field; vm.vst writes C's 512 bits there and no other byte of memory. To any other memory, with no AtomicOp left at the
host, the request with the eight words is sent; vld parks, vst is posted while fewer than 32 writes are unacknowledged. vlds and vsts reach
element k at (A.addr + sext(imm32[27:0]) + k * B) mod 2^48 (sizes 2, 4 and 8), vgath and vscat at (A.addr + sext(imm32) + lane k of B) mod 2^48, B
tagged int32 or int64; every element is checked before the one request is sent; loads park on it, and stores do when an element lies in a pool,
else they are posted. Another tag of B traps with cause 0x08, detail 2 and the tag in tval; a failed check is the fault of the first failing
element. -/
def Obligations.VectorMemoryResults : Prop :=
  (∀ (f : Fields) (s u0 u : State) (k0 k : Nat) (l : List (Nat × Nat)), s.cur.1 < 1024 → k = firstKey l →
    let ea := s.ea f
    let waits (u : State) : Prop := 2 ≤ f.m.toNat / 64 ∧ u.relWait s.cur.1 s.cur.2 (f.m.toNat % 64) = true
    let after (u : State) (l : List (Nat × Nat)) (n : Nat) : State := l.foldl (fun x y => x.ownFirst s.cur.1 s.cur.2 y.1 n) u
    let words := (List.range 8).map (ea + 8 * ·)
    (∀ (mk : Fields → Instr) (p : Nat) (acc : Acc), (mk, p, acc) ∈ ([(.vmVld, permRd, .load), (.vmVst, permWr, .store)] : List ((Fields → Instr) × Nat × Acc)) →
      Executes (mk f) s → (consumed (mk f) s).resolve s.cur.1 s.cur.2 (s.val f.a) [p] ea 64 8 acc = (u0, .ok k0) →
      resolveAll u0 s.cur.1 s.cur.2 (s.val f.a) [p] 8 acc words = (u, .ok l) → (∀ x ∈ l, u.lockedTile x.1 8 = none) → u.loses s.cur.1 k 64 = false →
      (∀ d : BitVec 5, acc = .load → f.d = .v d → ownPool s.cur.1 k = true → u.poisonAt k 64 = none → ∃ b : W512,
        exec (mk f) s = .next ((u.touched k 64 false).modMe (·.wv d.toNat ⟨b, 0, 0⟩)).next ∧
        ∀ j < 512, b.getLsbD j = (readByte u.mem (k + j / 8)).getLsbD (j % 8)) ∧
      (acc = .load → ownPool s.cur.1 k = false → u.hostHolds (l.map (·.1)) 8 = false →
        exec (mk f) s = .next (u.asks f.cp (l.map (·.1)) 8 ea (homeKey l) (.vload l 8 f.d))) ∧
      (acc = .store → waits u → exec (mk f) s = .next (s.cancels (consumed (mk f) s))) ∧
      (acc = .store → ¬ waits u → ownPool s.cur.1 k = true → ∃ t : State, exec (mk f) s = .next t ∧
        t = ((u.touched k 64 true).write (some s.cur) k 64 (s.vec f.c).bits.toNat).next ∧
        (∀ j < 64, readByte t.mem (k + j) = ((s.vec f.c).bits >>> (8 * j)).setWidth 8) ∧
        (∀ a, a < k ∨ k + 64 ≤ a → readByte t.mem a = readByte u.mem a)) ∧
      (acc = .store → ¬ waits u → ownPool s.cur.1 k = false → u.hostHolds (l.map (·.1)) 8 = false → (after u l 8).unacked s.cur.1 s.cur.2 < 32 →
        exec (mk f) s = .next (((after u l 8).request s.cur.1 s.cur.2 ea (homeKey l) (.vstore l 8 (s.vec f.c).bits) true f.cp).1.next)))) ∧
  (∀ (f : Fields) (s u : State) (l : List (Nat × Nat)) (n : Nat) (addrs : List Nat),
    let at_ (k : Nat) (x : Int) : Prop := addrs[k]? = some (((s.val f.a).addr + x : Int) % 2 ^ 48).toNat
    let lane (k : Nat) : Int := ((s.vec f.b).bits.extractLsb' (8 * n * k) (8 * n)).toInt
    let checks (i : Instr) (p : Nat) (acc : Acc) := resolveAll (consumed i s) s.cur.1 s.cur.2 (s.val f.a) [p] n acc addrs
    let waits : Prop := 2 ≤ f.m.toNat / 64 ∧ u.relWait s.cur.1 s.cur.2 (f.m.toNat % 64) = true
    let after : State := l.foldl (fun x y => x.ownFirst s.cur.1 s.cur.2 y.1 n) u
    let loads (i : Instr) : Prop := Executes i s → checks i permRd .load = (u, .ok l) → (∀ x ∈ l, u.lockedTile x.1 n = none) →
      u.hostHolds (l.map (·.1)) n = false → exec i s = .next (u.asks f.cp (l.map (·.1)) n (addrs.headD 0) (homeKey l) (.vload l n f.d))
    let stores (i : Instr) : Prop := Executes i s → checks i permWr .store = (u, .ok l) → (∀ x ∈ l, u.lockedTile x.1 n = none) →
      let op : ReqOp := .vstore l n (s.vec f.c).bits
      (waits → exec i s = .next (s.cancels (consumed i s))) ∧
      (¬ waits → u.hostHolds (l.map (·.1)) n = false →
        ((∃ x ∈ l, x.1 < keyHbm) → exec i s = .next (u.asks f.cp (l.map (·.1)) n (addrs.headD 0) (homeKey l) op)) ∧
        ((∀ x ∈ l, keyHbm ≤ x.1) → exec i s = .next (if after.unacked s.cur.1 s.cur.2 < 32 then
          (after.request s.cur.1 s.cur.2 (addrs.headD 0) (homeKey l) op true f.cp).1.next else s.cancels (consumed i s))))
    let fails (i : Instr) (p : Nat) (acc : Acc) : Prop := Executes i s →
      (∀ x, checks i p acc = (u, .error (.trap x)) → exec i s = .next ((u.setTh s.cur.1 s.cur.2 s.me).takeTrap s.cur.1 s.cur.2 x)) ∧
      (checks i p acc = (u, .error .later) → exec i s = .next (s.cancels u))
    (n = 2 ^ (1 + (f.imm.extractLsb' 28 2).toNat) → addrs.length = 64 / n →
      (∀ k < 64 / n, at_ k ((f.imm.setWidth 28 : BitVec 28).toInt + k * (s.data f.b).toInt)) →
      loads (.vmVlds f) ∧ fails (.vmVlds f) permRd .load ∧ stores (.vmVsts f) ∧ fails (.vmVsts f) permWr .store) ∧
    (((s.vec f.b).tag = 3 ∧ n = 4) ∨ ((s.vec f.b).tag = 4 ∧ n = 8) → addrs.length = 64 / n →
      (∀ k < 64 / n, at_ k ((f.imm.setWidth 32 : BitVec 32).toInt + lane k)) →
      loads (.vmVgath f) ∧ fails (.vmVgath f) permRd .load ∧ stores (.vmVscat f) ∧ fails (.vmVscat f) permWr .store) ∧
    (∀ i, i = .vmVgath f ∨ i = .vmVscat f → (s.vec f.b).tag ≠ 3 → (s.vec f.b).tag ≠ 4 → Executes i s →
      exec i s = .next (s.traps 8 2 ((s.vec f.b).tag.setWidth 96))))

/-- With the checks passed at an HBM word k: fe.sf and fe.ce post their request and go on (fewer than 32 writes unacknowledged, none before a
release); lwf, lwfe, swe and peek send theirs and park on its reply. When it reaches the controller and no throttled row holds it: a waiting
condition that holds (full for lwf and lwfe, empty for swe, always for peek) is served at once: the word and its full bit become the request's
result, then lwfe leaves the word empty and swe writes C and leaves it full; one that does not hold, or whose value does not stand next in a
replay (23 R467), is held by the controller in arrival order, or refused and repeated when it holds 4,096. (The served case is said of a partition
that records no ephemeris.) A word in any other memory traps with cause 0x0C, detail 0. -/
def Obligations.FullEmptyResults : Prop :=
  (∀ (f : Fields) (s u : State) (mk : Fields → Instr) (n k : Nat), (mk, n) ∈ ([(.feLwf, 0), (.feLwfe, 1), (.feSwe, 2), (.feSf, 3), (.feCe, 4),
      (.fePeek, 5)] : List ((Fields → Instr) × Nat)) → Executes (mk f) s →
    (consumed (mk f) s).reach (s.val f.a) (fePerms n) (s.ea f) 8 .rmw = (u, .ok k) →
    let v := u.ownFirst s.cur.1 s.cur.2 k 8
    let op : ReqOp := .fe n (s.data f.c) f.d (f.m.setWidth 3)
    let waits : Prop := 1 ≤ n ∧ n ≤ 4 ∧ 0 < u.unacked s.cur.1 s.cur.2
    let r : Req := { cell := s.cur.1, slot := s.cur.2, fn := v.fnOf s.cur.1 s.cur.2, va := s.ea f, key := k, op := op, refused := true, cp := f.cp }
    let w : State := { v with reqs := v.reqs.put v.nextId r, nextId := v.nextId + 1 }
    (isHbm k = false → exec (mk f) s = .next (s.faults u 0x0C 0 (s.ea f))) ∧
    (isHbm k = true → waits → exec (mk f) s = .next (s.cancels (consumed (mk f) s))) ∧
    (isHbm k = true → ¬ waits → n = 3 ∨ n = 4 → v.unacked s.cur.1 s.cur.2 < 32 → exec (mk f) s = .next (u.posts f.cp 8 (s.ea f) k op)) ∧
    (isHbm k = true → ¬ waits → n = 3 ∨ n = 4 → 32 ≤ v.unacked s.cur.1 s.cur.2 → exec (mk f) s = .next (s.cancels (consumed (mk f) s))) ∧
    (isHbm k = true → ¬ waits → n ≠ 3 → n ≠ 4 → exec (mk f) s = .next ((w.dueLater (.feRetry v.nextId)).parks (.reply v.nextId)))) ∧
  (∀ (w : State) (id n : Nat) (r : Req) (c : W64) (d : Opnd) (p : BitVec 3), w.reqs.look id = some r → r.op = .fe n c d p → r.refused = true →
    r.dead = false → r.held = false → isHbm r.key = true → r.key % 8 = 0 → w.holdFor (some id) r.fn [(r.key, 8)] = none →
    let k := r.key
    let held := (w.feHeld.filter fun j => match w.reqs.look j with
      | some q => stackOf (hbmOff q.key) = stackOf (hbmOff k)
      | none => false).length
    let ready : Prop := ((n = 0 ∨ n = 1) ∧ w.isFull k = true) ∨ (n = 2 ∧ w.isFull k = false) ∨ n = 5
    let next : Bool := w.valueOk r (BitVec.ofNat 64 (readNat w.mem k 8))
    ∃ t : State, exec (.feRequestRetry id) w = .next t ∧
      (((n = 0 ∨ n = 1) ∧ w.isFull k = false) ∨ (n = 2 ∧ w.isFull k = true) ∨
        (ready ∧ next = false ∧ r.posted = false ∧ w.poisoned k 8 = false) →
        t.mem = w.mem ∧
        (4096 ≤ held → t.reqs.look id = some r ∧ t.feHeld = w.feHeld) ∧
        (held < 4096 → t.reqs.look id = some { r with held := true, refused := false } ∧ t.feHeld = w.feHeld ++ [id])) ∧
      (ready → next = true → w.feHeld = [] → w.poisoned k 8 = false → (w.part (w.reqPart r)).ephMode ≠ 1 →
        (∃ q, t.reqs.look id = some q ∧ q.done = some (BitVec.ofNat 512 (readNat w.mem k 8)) ∧ q.full = w.isFull k ∧ q.poisoned = false) ∧
        t.isFull k = (if n = 1 then false else if n = 2 then true else w.isFull k) ∧
        readNat t.mem k 8 = (if n = 2 then c.toNat else readNat w.mem k 8) ∧
        (∀ a, a < k ∨ k + 8 ≤ a → readByte t.mem a = readByte w.mem a)))

/-- On the own pool, with the checks passed at k, no tile locked and no bank lost: lr with no other thread's lease on the word returns the n bytes at
k sign-extended, reserves the 8-byte word and takes its lease of 1,024 cycles; under another thread's lease it is cancelled. sc stores the low n
bytes of C and writes 0 when the thread holds a reservation on the word and no other thread's lease on it runs, else stores nothing and writes 1;
the reservation ends. No other byte changes, unless an ephemeris is being recorded; in a replay a value that does not stand next cancels the lr
(sc is said outside a replay). Elsewhere on HBM or another pool both send their request and park; host, second-tier and peer memory trap with
cause 0x0D, detail 0, 1, 2. A fence goes on, unless it is a release and a write it waits for is unacknowledged: then it is cancelled. -/
def Obligations.ReservedPairResults : Prop :=
  (∀ (f : Fields) (s u : State) (mk : Fields → Instr) (lr : Bool) (n k : Nat), s.cur.1 < 1024 → (mk, lr, n) ∈ ([(.lrW, true, 4), (.lrD, true, 8), (.scW, false, 4),
      (.scD, false, 8)] : List ((Fields → Instr) × Bool × Nat)) → Executes (mk f) s →
    (consumed (mk f) s).reach (s.val f.a) [if lr then permRd else permWr] (s.ea f) n .rmw = (u, .ok k) →
    let c := s.cur.1
    let i := s.cur.2
    let other : Prop := ∃ x, kindOf k = .host ∧ x = 0 ∨ kindOf k = .tier2 ∧ x = 1 ∨ (∃ p, kindOf k = .peer p) ∧ x = 2
    let waits : Prop := 2 ≤ f.m.toNat / 64 ∧ u.relWait c i (f.m.toNat % 64) = true
    let old : W64 := (BitVec.ofNat (8 * n) (readNat u.mem k n)).signExtend 64
    let hit : Bool := decide ((u.th c i).resv = some (k / 8)) && !u.leases.any fun l => l.word = k / 8 && !(l.cell = c && l.slot = i) && u.cycle < l.until_
    (∀ x, (kindOf k = .host ∧ x = 0) ∨ (kindOf k = .tier2 ∧ x = 1) ∨ ((∃ p, kindOf k = .peer p) ∧ x = 2) →
      exec (mk f) s = .next (s.faults u 0x0D x (s.ea f))) ∧
    (¬ other → u.lockedTile k n = none → u.loses c k n = false →
      (lr = true → ownPool c k = true → (∃ l ∈ u.leases, l.word = k / 8 ∧ (l.cell, l.slot) ≠ (c, i) ∧ u.cycle < l.until_) →
        exec (mk f) s = .next (s.cancels (consumed (mk f) s))) ∧
      (lr = true → ownPool c k = true → (∀ l ∈ u.leases, l.word = k / 8 → (l.cell, l.slot) ≠ (c, i) → l.until_ ≤ u.cycle) → u.poisonAt k n = none →
        (u.ephOk (u.partOf c i) ephValue c i old = false → exec (mk f) s = .next (s.cancels (consumed (mk f) s))) ∧
        (u.ephOk (u.partOf c i) ephValue c i old = true → ∃ v : State, exec (mk f) s = .next (v.put f.d old).next ∧ (v.th c i).resv = some (k / 8) ∧ (v.th c i).resvLost = false ∧ (¬ u.records c i → v.mem = u.mem) ∧
          (⟨k / 8, c, i, u.cycle + 1024⟩ : Lease) ∈ v.leases ∧ (∀ r, (v.th c i).rs r = (u.th c i).rs r))) ∧
      (lr = true → ownPool c k = false → exec (mk f) s = .next (u.asks f.cp [k] n (s.ea f) k (.lr n f.d))) ∧
      (lr = false → ordOf f < 2 ∨ ¬ waits → ownPool c k = false → exec (mk f) s = .next (u.asks f.cp [k] n (s.ea f) k (.sc n (s.data f.c) f.d))) ∧
      (lr = false → waits → exec (mk f) s = .next (s.cancels (consumed (mk f) s))) ∧
      (lr = false → ¬ waits → ownPool c k = true → s.me.wait = none → (u.part (u.partOf c i)).ephMode ≠ 2 → ∃ v : State,
        exec (mk f) s = .next (v.put f.d (if hit then 0 else 1)).next ∧ (v.th c i).resv = none ∧
        (∀ j < n, readByte v.mem (k + j) = if hit then ((s.data f.c) >>> (8 * j)).setWidth 8 else readByte u.mem (k + j)) ∧
        ((∀ p, (u.part p).ephMode ≠ 1) → ∀ a, a < k ∨ k + n ≤ a → readByte v.mem a = readByte u.mem a)))) ∧
  (∀ (f : Fields) (s : State), Executes (.fence f) s →
    (2 ≤ f.m.toNat / 64 ∧ s.relWait s.cur.1 s.cur.2 (f.m.toNat % 64) = true → exec (.fence f) s = .next (s.cancels s)) ∧
    (f.m.toNat / 64 < 2 ∨ s.relWait s.cur.1 s.cur.2 (f.m.toNat % 64) = false → exec (.fence f) s = .next s.next))

/-- On the own pool, with the checks passed at k, no tile locked, no bank lost, no poison and no release waiting, each amo (size n = 4 or 8) writes D
with the old n bytes, sign-extended, and memory holds from k the n bytes of the new value: old + B, and, or, xor, the signed or unsigned minimum
or maximum of old and B, B (swap), or C where old equals B (cas; else unchanged); every other byte reads as before, unless the partition's
ephemeris is being recorded; in a replay a value that does not stand next cancels the issue. On other memory the request is sent, with no AtomicOp
left at the host: posted for D = s0 while fewer than 32 writes are unacknowledged, else the thread parks; on host memory every operation but add,
swap and cas traps with cause 0x0D, detail 0. -/
def Obligations.AtomicResults : Prop :=
  ∀ (f : Fields) (s u : State) (dbl : Bool) (mk : Bool → Fields → Instr) (op k n w : Nat) (new : (x : BitVec w) → (b c : BitVec w) → BitVec w),
    n = (if dbl then 8 else 4) → w = 8 * n → s.cur.1 < 1024 → (mk, op, new) ∈ ([(.amoAdd, 0, fun x b _ => x + b), (.amoAnd, 1, fun x b _ => x &&& b),
      (.amoOr, 2, fun x b _ => x ||| b), (.amoXor, 3, fun x b _ => x ^^^ b), (.amoMin, 4, fun x b _ => if x.toInt ≤ b.toInt then x else b),
      (.amoMax, 5, fun x b _ => if x.toInt ≤ b.toInt then b else x), (.amoMinu, 6, fun x b _ => if x.toNat ≤ b.toNat then x else b),
      (.amoMaxu, 7, fun x b _ => if x.toNat ≤ b.toNat then b else x), (.amoSwap, 8, fun _ b _ => b), (.amoCas, 9, fun x b c => if x = b then c else x)] :
      List ((Bool → Fields → Instr) × Nat × ((x : BitVec w) → (b c : BitVec w) → BitVec w))) → Executes (mk dbl f) s →
    (consumed (mk dbl f) s).reach (s.val f.a) [permAtom, permRd, permWr] (s.eaAmo f) n .rmw = (u, .ok k) →
    let c := s.cur.1
    let i := s.cur.2
    let waits : Prop := 2 ≤ f.m.toNat / 64 ∧ u.relWait c i (f.m.toNat % 64) = true
    let old : BitVec w := BitVec.ofNat w (readNat u.mem k n)
    let res := new old ((s.data f.b).setWidth w) ((s.data f.c).setWidth w)
    (kindOf k = .host → op ≠ 0 → op ≠ 8 → op ≠ 9 → exec (mk dbl f) s = .next (s.faults u 0x0D 0 (s.eaAmo f))) ∧
    ((kindOf k = .host → op = 0 ∨ op = 8 ∨ op = 9) → u.lockedTile k n = none → u.loses c k n = false →
      (waits → exec (mk dbl f) s = .next (s.cancels (consumed (mk dbl f) s))) ∧
      (¬ waits → ownPool c k = true → u.poisonAt k n = none → u.ephOk (u.partOf c i) ephValue c i (old.signExtend 64) = false →
        exec (mk dbl f) s = .next (s.cancels (consumed (mk dbl f) s))) ∧
      (¬ waits → ownPool c k = true → u.poisonAt k n = none → u.ephOk (u.partOf c i) ephValue c i (old.signExtend 64) = true → ∃ v : State,
        exec (mk dbl f) s = .next (v.put f.d (old.signExtend 64)).next ∧
        (∀ j < n, readByte v.mem (k + j) = (res >>> (8 * j)).setWidth 8) ∧
        (¬ u.records c i → ∀ a, a < k ∨ k + n ≤ a → readByte v.mem a = readByte u.mem a)) ∧
      (¬ waits → ownPool c k = true → (∃ j, u.poisonAt k n = some j) →
        ∃ j < n, exec (mk dbl f) s = .next (s.killPoison c i (s.eaAmo f + j))) ∧
      (¬ waits → ownPool c k = false → u.hostHolds [k] n = true → exec (mk dbl f) s = .next (s.cancels (consumed (mk dbl f) s))) ∧
      (¬ waits → ownPool c k = false → u.hostHolds [k] n = false → f.d ≠ .s 0 →
        exec (mk dbl f) s = .next (u.asks f.cp [k] n (s.eaAmo f) k (.amo op n (s.data f.b) (s.data f.c) f.d))) ∧
      (¬ waits → ownPool c k = false → u.hostHolds [k] n = false → f.d = .s 0 → (u.ownFirst c i k n).unacked c i < 32 →
        exec (mk dbl f) s = .next (u.posts f.cp n (s.eaAmo f) k (.amo op n (s.data f.b) (s.data f.c) f.d))))

/-! ### Watches, barriers, regions, messages, pairs (06 R159-R178, 07 R192-R195, R212-R217) -/

/-- watch.set on an aligned word of the own pool (A holding rd) writes the index of the thread's own entry for it, else -2 when another thread's entry
watches it, else the lowest free index of 64, entered for the thread, else -1. watch.clr frees the thread's entry for the word, or all its
entries. Any other address that A covers takes the operand-range fault, cause 0x09, detail 0x20. watch.waitrs, when the reservation has been lost,
an entry of the thread has fired, or it holds neither, writes D with the mask of its fired entries and its predicate with whether the reservation
was lost, and clears the bits it reports; otherwise the thread parks. That the report of a lost reservation leaves the condition standing until
the next lr is the model's reading (log entry 19), and the lowest free index and -2 before -1 are its choice (log entry 61). -/
def Obligations.WatchResults : Prop :=
  ∀ (f : Fields) (s : State),
    let c := s.cur.1
    let i := s.cur.2
    let ea := ((s.val f.a).addr + (s.data f.b).toNat) % 2 ^ 48
    let tab := (s.cell c).watch
    let capOk : Prop := (s.val f.a).tag = true ∧ (s.val f.a).has permRd = true ∧ (s.val f.a).base ≤ ea ∧ ea + 8 ≤ (s.val f.a).top
    let own (k : Nat) : Prop := ea % 8 = 0 ∧ 14 ≤ ea / 2 ^ 44 ∧ s.space c i (decide (s.me.mode = .user)) ea 8 = .ok (some k) ∧ ownPool c k = true
    let u := consumed (.watchSet f) s
    (∀ k, Executes (.watchSet f) s → capOk → own k →
      (∀ n w, tab.find? (fun x => x.2.word = k / 8) = some (n, w) →
        exec (.watchSet f) s = .next (u.put f.d (if w.slot = i then BitVec.ofNat 64 n else -2)).next) ∧
      ((∀ x ∈ tab, x.2.word ≠ k / 8) →
        (∀ n < 64, tab.look n = none → (∀ j < n, tab.look j ≠ none) →
          exec (.watchSet f) s = .next ((u.modCell c fun y => { y with watch := y.watch.put n ⟨i, k / 8, false⟩ }).put f.d (BitVec.ofNat 64 n)).next) ∧
        ((∀ n < 64, tab.look n ≠ none) → exec (.watchSet f) s = .next (u.put f.d (-1)).next))) ∧
    (∀ mk : Fields → Instr, mk = .watchSet ∨ (mk = .watchClr ∧ f.m.getLsbD 0 = false) → Executes (mk f) s → capOk →
      ea % 8 ≠ 0 ∨ ea / 2 ^ 44 < 14 ∨ (∃ k, s.space c i (decide (s.me.mode = .user)) ea 8 = .ok (some k) ∧ ownPool c k = false) →
      ∃ v, exec (mk f) s = .next (s.traps 9 0x20 v)) ∧
    (∀ k, Executes (.watchClr f) s → f.m.getLsbD 0 = false → capOk → own k → exec (.watchClr f) s = .next
      ((consumed (.watchClr f) s).modCell c fun y => { y with watch := y.watch.filter fun x => !(x.2.slot = i && x.2.word = k / 8) }).next) ∧
    (Executes (.watchClr f) s → f.m.getLsbD 0 = true → exec (.watchClr f) s = .next
      (s.modCell c fun y => { y with watch := y.watch.filter fun x => x.2.slot != i }).next) ∧
    (Executes (.watchWaitrs f) s → (∀ x ∈ tab, x.1 < 64) →
      let done : Prop := s.me.resvLost = true ∨ (∃ x ∈ tab, x.2.slot = i ∧ x.2.fired = true) ∨ (s.me.resv = none ∧ ∀ x ∈ tab, x.2.slot ≠ i)
      (¬ done → exec (.watchWaitrs f) s = .next (s.parks (.watch f.d (f.m.setWidth 3)))) ∧
      (done → ∃ m : W64, (∀ n < 64, m.getLsbD n = true ↔ ∃ w, (n, w) ∈ tab ∧ w.slot = i ∧ w.fired = true) ∧
        exec (.watchWaitrs f) s = .next (((s.modCell c fun x => { x with watch := x.watch.map fun (n, w) =>
          (n, if w.slot = i then { w with fired := false } else w) }).put f.d m).modMe (·.wp (f.m.toNat % 8) s.me.resvLost)).next))

/-- With barrier n named by the descriptor: bar.arm with A at most 65535 and B below 2^39 arms it with A arrivals and B bytes, its counts starting
again (0 arrivals, B bytes to come, fault clear) but for what came in this cycle; larger values take the operand-range fault, cause 0x09, detail
0x32. bar.arrive writes the phase to D and counts one arrival, at once when the thread has no unacknowledged write, else held until they are
acknowledged. bar.wait goes on when the phase differs from A[0] and parks otherwise. bar.stat writes the bytes left [39:0], the arrivals [55:40],
fault [62] and phase [63], or the armed values. ctl.align goes on when every other member of its cohort waits at the same address (one that a
slice switch has taken out does not) or its timeout has passed since its first issue, and waits otherwise, its issue cancelled. -/
def Obligations.BarrierResults : Prop :=
  ∀ (f : Fields) (s : State),
    let c := s.cur.1
    let n := bits f.imm 6 9
    let b := (s.cell c).bar n
    let ok : Prop := (s.data f.a).toNat ≤ 65535 ∧ (s.data f.b).toNat < 2 ^ 39
    (Executes (.barArm f) s → ok → ∃ b' : Barrier,
      exec (.barArm f) s = .next ((consumed (.barArm f) s).modCell c fun x => x.setBar n b').next ∧ b'.phase = b.phase ∧
      b'.armArr = (s.data f.a).toNat ∧ b'.armBytes = (s.data f.b).toNat ∧ b'.bytes = (s.data f.b).toNat - b.nowBytes ∧
      b'.arr = min b.nowArr 65535 ∧ b'.fault = (b.nowFault || decide (65535 < b.nowArr)) ∧ b'.nowArr = b.nowArr ∧ b'.nowBytes = b.nowBytes) ∧
    (Executes (.barArm f) s → ¬ ok → ∃ v, exec (.barArm f) s = .next (s.traps 9 0x32 v)) ∧
    (Executes (.barArrive f) s → s.unacked c s.cur.2 = 0 → ∃ b' : Barrier,
      exec (.barArrive f) s = .next ((s.put f.d (BitVec.ofNat 64 b.phase.toNat)).modCell c fun x => x.setBar n b').next ∧
      b'.arr = min (b.arr + 1) 65535 ∧ b'.fault = (b.fault || decide (65535 < b.arr + 1)) ∧ b'.bytes = b.bytes ∧ b'.phase = b.phase ∧
      b'.armArr = b.armArr ∧ b'.armBytes = b.armBytes) ∧
    (Executes (.barArrive f) s → 0 < s.unacked c s.cur.2 → ∃ u : State, exec (.barArrive f) s = .next (u.put f.d (BitVec.ofNat 64 b.phase.toNat)).next ∧
      u.arrivals = s.arrivals ++ [⟨c, s.cur.2, s.fnOf c s.cur.2, n, s.nextId⟩] ∧ u.cells = s.cells ∧ u.mem = s.mem) ∧
    (Executes (.barWait f) s → exec (.barWait f) s = .next (
      if b.phase ≠ (s.data f.a).getLsbD 0 then (consumed (.barWait f) s).next else (consumed (.barWait f) s).parks (.barrier n b.phase))) ∧
    (Executes (.barStat f) s → ∃ w : W64, exec (.barStat f) s = .next (s.put f.d w).next ∧ w.getLsbD 63 = b.phase ∧ w.getLsbD 62 = b.fault ∧
      (f.m.getLsbD 0 = false → b.arr < 2 ^ 16 → (w.extractLsb' 0 40).toNat = b.bytes % 2 ^ 40 ∧ (w.extractLsb' 40 16).toNat = b.arr) ∧
      (f.m.getLsbD 0 = true → b.armArr < 2 ^ 16 → b.armBytes < 2 ^ 40 →
        (w.extractLsb' 0 40).toNat = b.armBytes ∧ (w.extractLsb' 40 16).toNat = b.armArr)) ∧
    let i := s.cur.2
    (Executes (.ctlAlign f) s →
      let k := (f.imm.extractLsb' 0 4).toNat
      let limit := (f.imm.extractLsb' 4 16).toNat
      let first : Nat := match s.me.align with
        | some w => if w.addr = s.me.pc ∧ w.cohort.toNat = k then w.first else s.cycle
        | none => s.cycle
      let joined : BitVec 16 := s.me.cohorts ||| BitVec.ofNat 16 (2 ^ k)
      let all : Prop := s.cohortAway c i k = false ∧ ∀ x ∈ s.cohort c i k, x.2.2.waitsAt k s.me.pc = true
      (first + limit ≤ s.cycle → ∃ u : State, exec (.ctlAlign f) s = .next u.next ∧ u.me = { s.me with align := none, cohorts := joined } ∧
        u.mem = s.mem) ∧
      (s.cycle < first + limit → all → ∃ u : State, exec (.ctlAlign f) s = .next u.next ∧ u.me = { s.me with align := none, cohorts := joined } ∧
        (∀ x ∈ s.cohort c i k, (u.th x.1 x.2.1).align = none) ∧ u.mem = s.mem) ∧
      (s.cycle < first + limit → ¬ all → ∃ t : State, exec (.ctlAlign f) s = .next t ∧ t.mem = s.mem ∧
        t.me = { s.me with align := some ⟨s.me.pc, BitVec.ofNat 4 k, first, limit⟩, cohorts := joined }))

/-- Steps 2 to 5 of 03 R83 pass, and the limits of 06 R163, for an instruction of a thread in an active region; `u` is the state in which its body
starts, its message sources consumed and the symbolic sources of "any other use" made concrete (06 R165). -/
structure RegionExecutes (i : Instr) (s u : State) : Prop where
  row : ∃ r f, rowOf i = some (r, f) ∧ r.dynError f s.me = false ∧ r.classError f = none ∧ r.mode ≤ s.me.mode.num ∧ s.me.guard f = true ∧
    r.inRegion f = true ∧ (∀ n ∈ r.msgSources f, (s.me.rm n).full = true) ∧ s.start s.cur.1 s.cur.2 r f = some u
  region : s.me.region.isSome = true
  count : s.me.icount < 64
  pair : s.me.pair = 0 ∨ s.me.pair = 3
  here : s.incoming s.cur.1 s.cur.2 = false
  resumed : ∀ r f, rowOf i = some (r, f) → s.resumeHolds s.cur.1 s.cur.2 r = false
/-- A write of a scalar cell inside a region: a tagged result tags the cell, an untagged one clears its tag (06 R165); s0 is neither written nor tagged. -/
def Sys2Proof.Machine.Thread.symbolic (t : Thread) (d : BitVec 6) (v : W64) (y : Option Sym) : Thread :=
  let u := t.ws d.toNat (dataReg v)
  match y with
  | none => u
  | some y => if d = 0 then u else { u with region := u.region.map fun g => { g with sym := g.sym.put d.toNat y } }
/-- Further constraints are recorded. -/
def Sys2Proof.Machine.Thread.records (t : Thread) (l : List Constr) : Thread :=
  { t with ccount := t.ccount + l.length, region := t.region.map fun g => { g with constrs := g.constrs ++ l } }
/-- The symbolic tag of a source operand. -/
def Sys2Proof.Machine.Region.tagOf (g : Region) (o : Opnd) : Option Sym :=
  match o with
  | .s n => g.sym.look n.toNat
  | _ => none

/-- areg.begin saves the scalar registers, predicates and loop levels, records the target pc + 12 * off32, makes the region active with zero counts,
ends the reservation, and goes on. Outside a region areg.commit writes D = 2 and abort only empties a message register that it names (log entry
18); areg.stat writes the cause, detail and counts of R169 (which counts an abort adds to is log entry 17). Inside one: a store to HBM of its
stack domain is buffered with its tag (a ninth entry aborts with 0x41 detail 2), memory unchanged; a send is buffered; a load of the address and
size of a buffered store returns the last such store's value, extended, with its tag when the size is d, else recording "load k unchanged"; one
that overlaps no buffered store parks on its request, behind the thread's earlier writes of its words, and its reply records index, address, size,
extension and value, and tags D; an access of a pool or other memory aborts with 0x42 detail 1; areg.abort restores the checkpoint and goes to the
target with cause 0x40, detail 0x80 + A[6:0]; areg.commit of a region with no loads and stores ends it with D = 0, and of any other parks on the
commit engine. -/
def Obligations.RegionInstructionResults : Prop :=
  (∀ (f : Fields) (s : State),
    (Executes (.aregBegin f) s → exec (.aregBegin f) s = .next (((s.counted s.cur.1 s.cur.2).modMe fun t => { t with
      region := some { target := offTarget s f, ckS := s.me.s, ckShadow := s.me.shadow, ckP := s.me.p, ckL0 := s.me.l0, ckL1 := s.me.l1, born := s.nextId }
      icount := 0, lcount := 0, scount := 0, ccount := 0, resv := none, resvLost := s.me.resvLost || s.me.resv.isSome }).modMe Thread.advance)) ∧
    (Executes (.aregCommit f) s → exec (.aregCommit f) s = .next (s.put f.d 2).next) ∧
    (Executes (.aregAbort f) s → exec (.aregAbort f) s = .next (consumed (.aregAbort f) s).next) ∧
    (Executes (.aregStat f) s → s.me.icount < 128 → s.me.lcount < 16 → s.me.scount < 16 → s.me.ccount < 16 → ∃ w : W64,
      exec (.aregStat f) s = .next (s.put f.d w).next ∧ w.extractLsb' 48 16 = 0 ∧ w.extractLsb' 40 8 = s.me.acause ∧ w.extractLsb' 32 8 = s.me.adetail ∧
      w.getLsbD 31 = false ∧ (w.extractLsb' 24 7).toNat = s.me.icount ∧ (w.extractLsb' 20 4).toNat = s.me.lcount ∧
      (w.extractLsb' 16 4).toNat = s.me.scount ∧ (w.extractLsb' 12 4).toNat = s.me.ccount ∧ w.extractLsb' 0 12 = 0)) ∧
  (∀ (f : Fields) (s u w : State) (g : Region) (n k : Nat),
    let me := u.th s.cur.1 s.cur.2
    let aborts (i : Instr) (cause detail : Nat) : Prop :=
      exec i s = .next ((s.abortNoted s.cur.1 s.cur.2 cause).modMe fun t => ({ t with icount := min 64 (t.icount + 1) }).abortRegion cause detail)
    let inDomain : Prop := isHbm k = true ∧ ∃ d, stackOf (hbmOff k) = some d ∧ (g.domain = none ∨ g.domain = some d)
    (∀ mk : Fields → Instr, (mk, n) ∈ ([(.stB, 1), (.stH, 2), (.stW, 4), (.stD, 8)] : List ((Fields → Instr) × Nat)) → RegionExecutes (mk f) s u →
      u.reach (s.val f.a) [permWr] (s.ea f) n .store = (w, .ok k) → (w.th s.cur.1 s.cur.2).region = some g →
      (isHbm k = false → aborts (mk f) 0x42 1) ∧ (inDomain → 8 ≤ g.buf.length → aborts (mk f) 0x41 2) ∧
      (inDomain → g.buf.length < 8 → exec (mk f) s = .next (w.modMe fun t => { t with scount := t.scount + 1, region := some { g with
        domain := stackOf (hbmOff k), buf := g.buf ++ [.store k n (s.data f.c) ((w.th s.cur.1 s.cur.2).symOf f.c)] } }).next)) ∧
    (∀ (mk : Fields → Instr) (sg : Bool), (mk, n, sg) ∈ ([(.ldB, 1, true), (.ldH, 2, true), (.ldW, 4, true), (.ldD, 8, true), (.ldBu, 1, false),
        (.ldHu, 2, false), (.ldWu, 4, false)] : List ((Fields → Instr) × Nat × Bool)) → RegionExecutes (mk f) s u →
      u.reach (s.val f.a) [permRd] (s.ea f) n .load = (w, .ok k) → (w.th s.cur.1 s.cur.2).region = some g →
      (isHbm k = false → aborts (mk f) 0x42 1) ∧
      (inDomain → (∀ x ∈ g.buf, ∀ k' n' v y, x = .store k' n' v y → k' + n' ≤ k ∨ k + n ≤ k') → 8 ≤ g.loads.length → aborts (mk f) 0x41 1) ∧
      (inDomain → (∀ x ∈ g.buf, ∀ k' n' v y, x = .store k' n' v y → k' + n' ≤ k ∨ k + n ≤ k') → g.loads.length < 8 →
        w.hostHolds [k] n = false → exec (mk f) s = .next (w.asks f.cp [k] n (s.ea f) k (.load n sg false f.d))) ∧
      (∀ b e v y (d : BitVec 6), f.d = .s d → inDomain → g.buf = b ++ .store k n v y :: e →
        (∀ x ∈ g.buf, ∀ k' n' v' y', x = .store k' n' v' y' → (k' = k ∧ n' = n) ∨ k' + n' ≤ k ∨ k + n ≤ k') →
        (∀ x ∈ e, ∀ v' y', x ≠ .store k n v' y') →
        let x : W64 := if sg then (v.setWidth (8 * n)).signExtend 64 else (v.setWidth (8 * n)).setWidth 64
        (y = none → exec (mk f) s = .next (w.modMe (·.symbolic d x none)).next) ∧
        (∀ z, y = some z → n = 8 → exec (mk f) s = .next (w.modMe (·.symbolic d x (some z))).next) ∧
        (∀ z, y = some z → n < 8 → .unchanged z.k ∈ g.constrs → exec (mk f) s = .next (w.modMe (·.symbolic d x none)).next) ∧
        (∀ z, y = some z → n < 8 → .unchanged z.k ∉ g.constrs →
          ((w.th s.cur.1 s.cur.2).ccount < 8 → exec (mk f) s = .next (w.modMe fun t => (t.records [.unchanged z.k]).symbolic d x none).next) ∧
          (8 ≤ (w.th s.cur.1 s.cur.2).ccount → aborts (mk f) 0x41 3)))) ∧
    (∀ d j r, RegionExecutes (.msgSend f) s u → me.region = some g → me.released = [] → (∀ q, me.closedPkt = some q → q.rel = false) → u.target s.cur.1 s.cur.2 false (s.data f.b).toNat = some (d, j, r) →
      (8 ≤ g.buf.length → aborts (.msgSend f) 0x41 2) ∧
      (g.buf.length < 8 → exec (.msgSend f) s = .next (u.modMe fun t => { t with scount := t.scount + 1, region := some { g with
        buf := g.buf ++ [.send d j r (s.data f.a) f.e (f.m.getLsbD 0)] } }).next)) ∧
    (RegionExecutes (.aregAbort f) s u → exec (.aregAbort f) s = .next (((u.counted s.cur.1 s.cur.2).abortNoted s.cur.1 s.cur.2 0x40).modMe
      fun t => t.abortRegion 0x40 (0x80 + (s.data f.a).toNat % 128))) ∧
    (RegionExecutes (.aregCommit f) s u → me.region = some g → (g.loads ≠ [] ∨ ∃ k n v y, .store k n v y ∈ g.buf) → ∃ (t : State) (id : Nat) (q : Req),
      exec (.aregCommit f) s = .next t ∧ (t.slot s.cur.1 s.cur.2).state = .parked ∧ t.me.wait = some (.reply id) ∧
      t.me.region = some { g with committing := true } ∧ t.reqs.look id = some q ∧ q.op = .commit f.d ∧ t.mem = s.mem) ∧
    (RegionExecutes (.aregCommit f) s u → me.region = some g → g.loads = [] → (∀ k n v y, .store k n v y ∉ g.buf) → ∃ t : State,
      exec (.aregCommit f) s = .next t ∧ t.me.region = none ∧ (¬ s.records s.cur.1 s.cur.2 → t.mem = s.mem) ∧ ∀ d : BitVec 6, f.d = .s d → d ≠ 0 → (t.me.rs d.toNat).data = 0)) ∧
  (∀ (s : State) (id n : Nat) (q : Req) (g : Region) (sg cap : Bool) (d : BitVec 6), s.reqs.look id = some q → q.op = .load n sg cap (.s d) → d ≠ 0 →
    q.posted = false → q.held = false → q.refused = false → q.dead = false → q.done = none → isHbm q.key = true →
    s.holdFor (some id) q.fn q.here = none → s.poisonAt q.key n = none → s.home q.cell q.slot q.fn = .live → (s.slot q.cell q.slot).state = .parked →
    (s.th q.cell q.slot).wait = some (.reply id) → (s.th q.cell q.slot).region = some g → ∃ (t : State) (h : Region),
      exec (.memoryReply id) s = .next t ∧ t.mem = s.mem ∧ (t.slot q.cell q.slot).state = .ready ∧ (t.th q.cell q.slot).region = some h ∧
      h.loads = g.loads ++ [⟨q.key, q.va, n, sg, BitVec.ofNat 64 (readNat s.mem q.key n)⟩] ∧ h.constrs = g.constrs ∧ h.buf = g.buf ∧
      h.sym.look d.toNat = some ⟨g.loads.length, 0⟩ ∧ (t.th q.cell q.slot).lcount = (s.th q.cell q.slot).lcount + 1 ∧
      (1 ≤ n → n ≤ 8 → (t.th q.cell q.slot).rs d.toNat = dataReg (if sg then (BitVec.ofNat (8 * n) (readNat s.mem q.key n)).signExtend 64
        else BitVec.ofNat 64 (readNat s.mem q.key n)))) ∧
  (∀ (t : Thread) (g : Region) (cause detail : Nat), t.region = some g → cause < 256 → detail < 256 →
    let u := t.abortRegion cause detail
    u.region = none ∧ u.s = g.ckS ∧ u.p = g.ckP ∧ u.l0 = g.ckL0 ∧ u.l1 = g.ckL1 ∧ u.pc = g.target ∧ u.acause.toNat = cause ∧ u.adetail.toNat = detail ∧
      u.trapRegs.cause.toNat = cause + 256 * detail ∧ u.m = t.m ∧ u.v = t.v)

/-- Inside a region ia.add, ia.sub, ia.mov, ia.sel and the compares carry tags as R165 tables them: one tagged operand keeps its load with the
constant adjusted (add either way, sub from A, mov, sel of it), a compare with one records its relation and outcome; with both tagged the result
is untagged and each load not recorded as unchanged is; a ninth constraint aborts with 0x41 detail 3. For a thread parked on a commit that is
first at its engine, with its earlier writes acknowledged and no load reading poison, with fresh values read from memory now: if some constraint
fails (a recorded value that differs, or a relation of the fresh value that no longer gives its outcome), the first of them, j, aborts the region
with cause 0x40, detail j, the checkpoint's registers and the abort target, and memory is unchanged. Otherwise memory is that in which the
buffered stores have been written in order (tagged ones recomputed from the fresh values), the region has ended, each tagged register holds its
recomputed value, D is 0 when every load was unchanged and 1 otherwise, and the thread is ready after the commit. Said where no full/empty
operation is held and no throttled row holds the commit; the record that a recording of the ephemeris writes is left out. -/
def Obligations.CommitActsAtOnePoint : Prop :=
  (∀ (f : Fields) (s u : State) (g : Region) (d : BitVec 6), (u.th s.cur.1 s.cur.2).region = some g → f.d = .s d →
    let a := s.data f.a
    let b := s.data f.b
    let ya := g.tagOf f.a
    let yb := g.tagOf f.b
    let room := 8 - (u.th s.cur.1 s.cur.2).ccount
    let gives (i : Instr) (v : W64) (y : Option Sym) : Prop := RegionExecutes i s u → exec i s = .next (u.modMe (·.symbolic d v y)).next
    let both (i : Instr) (v : W64) (ks : List Nat) : Prop := RegionExecutes i s u →
      let new := (ks.eraseDups.filter fun k => !g.constrs.contains (.unchanged k)).map Constr.unchanged
      exec i s = .next (if new.length ≤ room then (u.modMe fun t => (t.records new).symbolic d v none).next
        else (s.abortNoted s.cur.1 s.cur.2 0x41).modMe fun t => ({ t with icount := min 64 (t.icount + 1) }).abortRegion 0x41 3)
    let plus (y : Sym) (x : W64) : Option Sym := some ⟨y.k, y.c + x⟩
    (ya = none → yb = none → gives (.iaAdd f) (a + b) none ∧ gives (.iaSub f) (a - b) none) ∧
    (∀ y, ya = some y → yb = none → gives (.iaAdd f) (a + b) (plus y b) ∧ gives (.iaSub f) (a - b) (plus y (-b))) ∧
    (∀ y, ya = none → yb = some y → gives (.iaAdd f) (a + b) (plus y a) ∧ both (.iaSub f) (a - b) [y.k]) ∧
    (∀ y z, ya = some y → yb = some z → both (.iaAdd f) (a + b) [y.k, z.k] ∧ both (.iaSub f) (a - b) [y.k, z.k]) ∧
    gives (.iaAddI f) (a + immS f) (ya.bind fun y => plus y (immS f)) ∧ gives (.iaSubI f) (a - immS f) (ya.bind fun y => plus y (-immS f)) ∧
    gives (.iaMov f) a ya ∧
    (∀ n : BitVec 3, f.c = .p n →
      let v := if s.me.rp n.toNat then a else b
      let kept := if s.me.rp n.toNat then ya else yb
      let other := if s.me.rp n.toNat then yb else ya
      (other = none → gives (.iaSel f) v kept) ∧
      (∀ z, other = some z → kept = none → both (.iaSel f) v [z.k]) ∧ (∀ y z, ya = some y → yb = some z → both (.iaSel f) v [y.k, z.k]))) ∧
  (∀ (f : Fields) (s u : State) (g : Region) (n : BitVec 3) (r : Rel) (mk mkI : Fields → Instr), (r, mk, mkI) ∈ ([(.eq, .icmpEq, .icmpEqI),
      (.ne, .icmpNe, .icmpNeI), (.lt, .icmpLt, .icmpLtI), (.ltu, .icmpLtu, .icmpLtuI), (.le, .icmpLe, .icmpLeI), (.leu, .icmpLeu, .icmpLeuI)] :
      List (Rel × (Fields → Instr) × (Fields → Instr))) → (u.th s.cur.1 s.cur.2).region = some g → f.d = .p n →
    let a := s.data f.a
    let b := s.data f.b
    let ya := g.tagOf f.a
    let yb := g.tagOf f.b
    let writes (i : Instr) (out : Bool) (new : List Constr) : Prop := RegionExecutes i s u →
      exec i s = .next (if new.length ≤ 8 - (u.th s.cur.1 s.cur.2).ccount then (u.modMe fun t => (t.records new).wp n.toNat out).next
        else (s.abortNoted s.cur.1 s.cur.2 0x41).modMe fun t => ({ t with icount := min 64 (t.icount + 1) }).abortRegion 0x41 3)
    (ya = none → yb = none → writes (mk f) (r.holds a b) []) ∧
    (∀ y, ya = some y → yb = none → writes (mk f) (r.holds a b) [.rel r y b true (r.holds a b)]) ∧
    (∀ y, ya = none → yb = some y → writes (mk f) (r.holds a b) [.rel r y a false (r.holds a b)]) ∧
    (∀ y z, ya = some y → yb = some z →
      writes (mk f) (r.holds a b) (([y.k, z.k].eraseDups.filter fun k => !g.constrs.contains (.unchanged k)).map Constr.unchanged)) ∧
    (ya = none → writes (mkI f) (r.holds a (immS f)) []) ∧
    (∀ y, ya = some y → writes (mkI f) (r.holds a (immS f)) [.rel r y (immS f) true (r.holds a (immS f))])) ∧
  (∀ (s : State) (c i id : Nat) (q : Req) (d : Opnd) (g : Region), (s.slot c i).state = .parked → (s.th c i).wait = some (.reply id) →
    s.reqs.look id = some q → q.op = .commit d → (s.th c i).region = some g → s.unacked c i = 0 → s.feHeld = [] →
    s.holdFor (some id) q.fn g.places = none →
    (∀ j ∈ s.commits.takeWhile (· ≠ id), ∀ r, s.reqs.look j = some r → stackOf (hbmOff r.key) ≠ stackOf (hbmOff q.key) ∨ r.dead = true) →
    (s.th c i).pair ≠ 1 → (∀ l ∈ g.loads, s.poisonAt l.key l.size = none) →
    let fresh : List W64 := g.loads.map fun l => BitVec.ofNat 64 (readNat s.mem l.key l.size)
    let value (y : Sym) : W64 := match g.loads[y.k]?, fresh[y.k]? with
      | some l, some v => l.ext v + y.c
      | _, _ => y.c
    let bad (x : Constr) : Prop := match x with
      | .unchanged k => fresh[k]? ≠ (g.loads[k]?).map (·.val)
      | .rel r y other left out => (if left then r.holds (value y) other else r.holds other (value y)) ≠ out
    (∀ j x, g.constrs[j]? = some x → bad x → (∀ k y, k < j → g.constrs[k]? = some y → ¬ bad y) → ∃ t : State,
      exec (.commitPerform c i) s = .next t ∧ (¬ s.records c i → t.mem = s.mem) ∧ (t.slot c i).state = .ready ∧ (t.th c i).region = none ∧ (t.th c i).s = g.ckS ∧
      (t.th c i).pc = g.target ∧ (t.th c i).acause = 0x40 ∧ (t.th c i).adetail = BitVec.ofNat 8 j) ∧
    ((∀ x ∈ g.constrs, ¬ bad x) → ∃ t : State, exec (.commitPerform c i) s = .next t ∧ (t.slot c i).state = .ready ∧ (t.th c i).region = none ∧
      (¬ s.records c i → t.mem = g.buf.foldl (fun m x => match x with
        | .store k n v y => writeNat m k n ((match y with
            | some y => value y
            | none => v).toNat % 2 ^ (8 * n))
        | .send .. => m) s.mem) ∧
      (∀ n : BitVec 6, d = .s n → n ≠ 0 → ((t.th c i).rs n.toNat).data = if fresh = g.loads.map (·.val) then 0 else 1) ∧
      (∀ n y, n < 64 → 0 < n → (n, y) ∈ g.sym → (∀ y', (n, y') ∈ g.sym → y' = y) → d ≠ .s (BitVec.ofNat 6 n) → (t.th c i).rs n = ⟨(value y).setWidth 128, false⟩)))

/-- msg.send names a virtual cell of the partition, msg.sendn a mesh neighbour in it (N, E, S, W; the partition's edge is a cell-range fault, cause
0x0A, with the target word in tval). A send outside a region opens a packet when none is open, adds its word to the open packet of the same
receiver whose register is not named yet, or closes that packet and opens another; E or an eighth word closes it, with the register's interrupt
mark when int is set; a send that finds no buffer, or while a released packet waits, is cancelled. msg.clr clears the full and pending bits of
A[15:0]; msg.wait writes the mask of full registers when one of A[15:0] is full or A[15:0] is 0, else parks; msg.imask sets the window to min(A,
64), or shortens an open one; msg.iret returns to epc with hnd clear. -/
def Obligations.MessageResults : Prop :=
  (∀ (f : Fields) (s : State),
    let c := s.cur.1
    let i := s.cur.2
    let p := s.partOf c i
    let sends (n : Instr) (w : W64) (to_ : Option Nat) : Prop := Executes n s →
      (to_ = none → exec n s = .next (s.traps 0x0A 0 (w.setWidth 96))) ∧
      (to_ ≠ none → s.me.released ≠ [] ∨ (∃ q, s.me.closedPkt = some q ∧ q.rel = true) → exec n s = .next (s.cancels (consumed n s))) ∧
      (∀ d, to_ = some d → s.me.released = [] → (∀ q, s.me.closedPkt = some q → q.rel = false) →
        exec n s = .next (match (consumed n s).me.sendWord d (w.toNat / 2 ^ 10 % 16) (w.toNat / 2 ^ 14 % 16) (s.data f.a) f.e (f.m.getLsbD 0) with
          | none => s.cancels (consumed n s)
          | some t => (((consumed n s).modMe fun _ => t).closing c i s.me.closedPkt.isSome).next))
    let link (k : Nat) : Option Nat :=
      let x := cellX c
      let y := cellY c
      if k = 0 then (if y + 1 < 32 ∧ inPart p (cellAt x (y + 1)) = true then some (cellAt x (y + 1)) else none)
      else if k = 1 then (if x + 1 < 32 ∧ inPart p (cellAt (x + 1) y) = true then some (cellAt (x + 1) y) else none)
      else if k = 2 then (if 0 < y ∧ inPart p (cellAt x (y - 1)) = true then some (cellAt x (y - 1)) else none)
      else if 0 < x ∧ inPart p (cellAt (x - 1) y) = true then some (cellAt (x - 1) y) else none
    sends (.msgSend f) (s.data f.b) (physOf p ((s.data f.b).toNat % 1024)) ∧
    sends (.msgSendI f) ((f.imm.setWidth 32).setWidth 64) (physOf p (f.imm.toNat % 1024)) ∧
    (c < 1024 → sends (.msgSendn f) (s.data f.b) (link ((s.data f.b).toNat % 4))) ∧
    (Executes (.msgClr f) s → ∃ t, exec (.msgClr f) s = .next ((consumed (.msgClr f) s).modMe fun _ => t).next ∧
      (∀ n < 16, t.rm n = if (s.data f.a).getLsbD n then { (consumed (.msgClr f) s).me.rm n with full := false, pend := false }
        else (consumed (.msgClr f) s).me.rm n) ∧ t.s = s.me.s ∧ t.p = s.me.p ∧ t.pc = s.me.pc) ∧
    (Executes (.msgWait f) s →
      let u := consumed (.msgWait f) s
      let m := (s.data f.a).setWidth 16
      let full : Prop := m = 0 ∨ ∃ n < 16, m.getLsbD n = true ∧ (u.me.rm n).full = true
      (full → ∃ v : W64, exec (.msgWait f) s = .next (u.put f.d v).next ∧ ∀ n < 64, v.getLsbD n = (decide (n < 16) && (u.me.rm n).full)) ∧
      (¬ full → exec (.msgWait f) s = .next (u.parks (.msgWait (s.data f.a) f.d)))) ∧
    (∀ (n : Instr) (k : Nat), (n = .msgImask f ∧ k = (s.data f.a).toNat) ∨ (n = .msgImaskI f ∧ k = f.imm.toNat % 128) → Executes n s →
      let icnt := if s.me.imask then min s.me.icnt (min k 64) else min k 64
      exec n s = .next ((((consumed n s).modMe fun t => { t with icnt := icnt, imask := decide (icnt ≠ 0) }).counted c i (!s.me.imask)).modMe
        Thread.advance)) ∧
    (Executes (.msgIret f) s → s.me.hnd = true ∧ exec (.msgIret f) s = .next ((s.modMe fun t => { t with hnd := false }).goto s.me.trapRegs.epc false))) ∧
  (∀ (t : Thread) (cell slot reg : Nat) (v : W64) (fin int : Bool), t.released = [] →
    let mark : Option Nat := if int then some reg else none
    let one : Packet := { cell := cell, slot := slot, words := [(reg, v)] }
    let r := t.sendWord cell slot reg v fin int
    (t.openClosed = true → r = none) ∧
    (t.openClosed = false → t.openPkt = none → fin = false → r = some { t with openPkt := some one, pktCount := 0 }) ∧
    (t.openClosed = false → t.openPkt = none → fin = true → t.closedPkt ≠ none → r = none) ∧
    (t.openClosed = false → t.openPkt = none → fin = true → t.closedPkt = none → r = some { t with closedPkt := some { one with int := mark }, openAfter := 0, pktCount := 0 }) ∧
    (∀ q, t.openClosed = false → t.openPkt = some q → q.cell = cell → q.slot = slot → (∀ x ∈ q.words, x.1 ≠ reg) →
      (fin = false → q.words.length < 7 → r = some { t with openPkt := some { q with words := q.words ++ [(reg, v)] } }) ∧
      (fin = true ∨ 7 ≤ q.words.length → t.closedPkt ≠ none → r = none) ∧
      (fin = true ∨ 7 ≤ q.words.length → t.closedPkt = none → r = some
        { t with openPkt := none, openAfter := 0, pktCount := 0, closedPkt := some { q with words := q.words ++ [(reg, v)], int := mark } })) ∧
    (∀ q, t.openClosed = false → t.openPkt = some q → ¬ (q.cell = cell ∧ q.slot = slot ∧ ∀ x ∈ q.words, x.1 ≠ reg) →
      (t.closedPkt ≠ none → r = none) ∧
      (t.closedPkt = none → fin = false → r = some { t with closedPkt := some q, openPkt := some one, openAfter := 0, pktCount := 0 }) ∧
      (t.closedPkt = none → fin = true → r = some { t with closedPkt := some q, openPkt := some { one with int := mark }, openClosed := true, openAfter := 0, pktCount := 0 })))

/-- The pair function of slot (c, k) completes with a code: message registers that it read are emptied, D is written, and its thread goes on. -/
def Sys2Proof.Machine.State.goesOn (s : State) (c k : Nat) (ms : List Nat) (d : Opnd) (n : W64) : State :=
  (((s.modTh c k fun t => ms.foldl (fun t r => t.wm r { t.rm r with full := false }) { t with pairWait := none }).writeD c k d n).counted c k).modTh
    c k Thread.advance
/-- A thread of a lock binding has the registers, loop levels and pc of another; what is no register of R213's list it keeps. -/
def Sys2Proof.Machine.Thread.Follows (t old other : Thread) : Prop :=
  (∀ n < 64, 0 < n → t.rs n = other.rs n) ∧ t.v = other.v ∧ t.p = other.p ∧ t.l0 = other.l0 ∧ t.l1 = other.l1 ∧ t.pc = other.pc ∧
    { t with s := old.s, shadow := old.shadow, v := old.v, p := old.p, l0 := old.l0, l1 := old.l1, pc := old.pc, region := old.region } = old
/-- Steps 2 to 5 of 03 R83 pass for an instruction of a thread of a locked pair (`who` 1: its leader, 2: its understudy), outside a region. -/
structure LockExecutes (i : Instr) (who : Nat) (s : State) : Prop where
  row : ∃ r f, rowOf i = some (r, f) ∧ r.dynError f s.me = false ∧ r.classError f = none ∧ r.mode ≤ s.me.mode.num ∧ s.me.guard f = true ∧
    s.resumeHolds s.cur.1 s.cur.2 r = false ∧ (who = 1 → ∀ n ∈ r.msgSources f, (s.me.rm n).full = true)
  region : s.me.region = none
  pair : s.me.pair = who
  here : s.incoming s.cur.1 s.cur.2 = false
/-- The slot that holds the link of the issuing thread's pair. -/
def Sys2Proof.Machine.State.pairLink (s : State) : Nat := if s.me.pair = 1 then s.cur.2 else s.me.partner
/-- The access of a function of the issuing thread to eight bytes of its own pool passes its checks at key k: no tile is locked there and no bank lost. -/
def Sys2Proof.Machine.State.ownWord (s : State) (f : Fields) (perm k : Nat) : Prop :=
  capCheck (s.val f.a) [perm] (s.ea f) 8 = none ∧ s.ea f % 8 = 0 ∧ s.ea f / 2 ^ 44 = 14 ∧
    s.space s.cur.1 s.cur.2 (s.me.mode = .user) (s.ea f) 8 = .ok (some k) ∧ ownPool s.cur.1 k = true ∧ s.lockedTile k 8 = none ∧ s.loses s.cur.1 k 8 = false

/-- pair.lock and pair.split of slot j write 1 when j is the thread's own or an empty, dead or saved slot, or either is bound, or waits otherwise;
when the thread of j waits in the same function for this one (at the same pc, for lock), both go on with D = 0, bound in split mode (3), or in
lock mode: the lower slot leads (1), the higher (2) gets its s1-s63, v, p, loop levels and pc. With nobody waiting there the thread waits (its
issue cancelled, once more each turn) until its timeout of B[31:0] cycles writes 2; that a limit of 0 gives 2 at the first issue rests on log
entry 33. pair.end unbinds both. In split mode pq.push, bq.push add to the partner's queue (32 places; full cancels), pq.pop takes the partner's
oldest value, ctl.br.bq its oldest outcome and branches on it; empty cancels. In lock mode: what the leader reads from a message or common
register and what its ld.d returned joins the 64-entry load-value queue under its name; it waits while the queue is full; the understudy takes it
instead, waits while the queue is empty, and diverges on another name. The leader's st.d is held (at most 8; no byte changes; its loads wait for
it) and the understudy's equal st.d writes the bytes once; an unequal one diverges. While a leader's effect must be matched first, no instruction
of it goes on. A divergence unbinds both, discards queue and effects, and traps both with 0x0E in supervisor mode, tval the leader's address, epc
their pcs. -/
def Obligations.PairAndAlignResults : Prop :=
  (∀ (f : Fields) (s : State),
    let c := s.cur.1
    let i := s.cur.2
    let j := (s.data f.a).toNat % 16
    let y := s.slot c j
    let lo := min i s.me.partner
    let l := s.link c lo
    (∀ (mk : Fields → Instr) (split : Bool), (mk, split) ∈ ([(.pairLock, false), (.pairSplit, true)] : List ((Fields → Instr) × Bool)) → Executes (mk f) s →
      let u := consumed (mk f) s
      let never : Prop := j = i ∨ y.state = .empty ∨ y.state = .dead ∨ y.state = .saved ∨ s.me.pair ≠ 0 ∨ y.th.pair ≠ 0
      let first : Nat := match s.me.pairWait with
        | some w => if w.addr = s.me.pc ∧ w.split = split then w.first else s.cycle
        | none => s.cycle
      (never → exec (mk f) s = .next ((u.put f.d 1).modMe fun t => { t with pairWait := none }).next) ∧
      (¬ never → y.pairWaits = none → first + (s.data f.b).toNat % 2 ^ 32 ≤ s.cycle →
        exec (mk f) s = .next ((u.put f.d 2).modMe fun t => { t with pairWait := none }).next) ∧
      (¬ never → y.pairWaits = none → s.cycle < first + (s.data f.b).toNat % 2 ^ 32 → ∃ t : State, exec (mk f) s = .next t ∧ t.mem = s.mem ∧
        t.me = { s.me with pairWait := some ⟨split, f.d, j, s.me.pc, first, (s.data f.b).toNat % 2 ^ 32, pairSources f⟩ }) ∧
      (∀ w, ¬ never → y.pairWaits = some w → w.split ≠ split ∨ w.partner ≠ i ∨ (split = false ∧ w.addr ≠ s.me.pc) →
        exec (mk f) s = .next ((u.put f.d 1).modMe fun t => { t with pairWait := none }).next) ∧
      (∀ w, ¬ never → y.pairWaits = some w → w.split = split → w.partner = i → (split = false → w.addr = s.me.pc) →
        let done := (u.goesOn c j w.ms w.d 0).goesOn c i [] f.d 0
        let bound := (done.modTh c (min i j) fun t => { t with pair := if split then 3 else 1, partner := max i j }).modTh c (max i j) fun t =>
          { t with pair := if split then 3 else 2, partner := min i j }
        (split = true → exec (mk f) s = .next bound) ∧
        (split = false → ∃ t, exec (mk f) s = .next (bound.setTh c (max i j) t) ∧ t.Follows (bound.th c (max i j)) (bound.th c (min i j))))) ∧
    (Executes (.pairEnd f) s → exec (.pairEnd f) s = .next (s.unpair c i).next ∧ ((s.unpair c i).th c i).pair = 0 ∧
      (s.me.pair ≠ 0 → (s.th c s.me.partner).partner = i → ((s.unpair c i).th c s.me.partner).pair = 0)) ∧
    (Executes (.pqPush f) s → exec (.pqPush f) s = .next (
      if 32 ≤ l.dq.length then s.cancels (consumed (.pqPush f) s)
      else ((consumed (.pqPush f) s).setLink c lo { l with dq := l.dq ++ [(i, s.data f.a)] }).next)) ∧
    (Executes (.bqPush f) s → exec (.bqPush f) s = .next (
      if 32 ≤ l.bq.length then s.cancels (consumed (.bqPush f) s)
      else ((consumed (.bqPush f) s).setLink c lo { l with bq := l.bq ++ [(i, decide (s.data f.a ≠ 0))] }).next)) ∧
    (∀ q v r, l.dq = q ++ (s.me.partner, v) :: r → (∀ x ∈ q, x.1 ≠ s.me.partner) → Executes (.pqPop f) s →
      exec (.pqPop f) s = .next ((s.setLink c lo { l with dq := q ++ r }).put f.d v).next) ∧
    ((∀ x ∈ l.dq, x.1 ≠ s.me.partner) → Executes (.pqPop f) s → exec (.pqPop f) s = .next (s.cancels s)) ∧
    (∀ q b r, l.bq = q ++ (s.me.partner, b) :: r → (∀ x ∈ q, x.1 ≠ s.me.partner) → Executes (.ctlBrBq f) s → exec (.ctlBrBq f) s = .next (
      let u := s.setLink c lo { l with bq := q ++ r }
      if b then u.goto (offTarget s f) true else u.next)) ∧
    ((∀ x ∈ l.bq, x.1 ≠ s.me.partner) → Executes (.ctlBrBq f) s → exec (.ctlBrBq f) s = .next (s.cancels s))) ∧
  (∀ (f : Fields) (s : State) (d : BitVec 6) (k : Nat), f.d = .s d → d ≠ 0 →
    let c := s.cur.1
    let i := s.cur.2
    let lo := s.pairLink
    let l := s.link c lo
    let ea := s.ea f
    let name := 2 ^ 48 + f.a.toByte.toNat
    let diverges (n : Instr) (addr : Nat) : Prop := exec n s = .next (s.diverge c lo i addr)
    let eff : HeldEff := ⟨0x71 * 256 + 3, ea, 3, [BitVec.ofNat 512 f.m.toNat, (s.data f.c).setWidth 512]⟩
    let plainRegs : Prop := (∃ x, f.a = .s x) ∧ (∃ x, f.b = .s x) ∧ ∃ x, f.c = .s x
    ((isM f.a || isK f.a) = true → LockExecutes (.iaMov f) 1 s → l.owed = none → l.pend = false →
      (64 < l.lvq.length + 1 → exec (.iaMov f) s = .next s) ∧
      (l.lvq.length + 1 ≤ 64 → ∃ u : State, exec (.iaMov f) s = .next u.next ∧ u.me = (consumed (.iaMov f) s).me.ws d.toNat (dataReg (s.data f.a)) ∧
        u.link c i = { l with lvq := l.lvq ++ [⟨name, (s.data f.a).setWidth 512, false⟩] } ∧ u.mem = s.mem)) ∧
    ((isM f.a || isK f.a) = true → LockExecutes (.iaMov f) 2 s →
      (l.lvq = [] → exec (.iaMov f) s = .next s) ∧
      (∀ v q, l.lvq = v :: q → v.name ≠ name → diverges (.iaMov f) v.name) ∧
      (∀ v q, l.lvq = v :: q → v.name = name → ∃ u : State, exec (.iaMov f) s = .next u.next ∧
        u.me = s.me.ws d.toNat (dataReg (v.val.setWidth 64)) ∧ u.link c lo = { l with lvq := q } ∧ u.mem = s.mem)) ∧
    (plainRegs → s.ownWord f permRd k → s.poisonAt k 8 = none → f.m.toNat / 64 < 2 →
      (LockExecutes (.ldD f) 1 s → l.owed = none → l.pend = false → l.lvq.length + 1 ≤ 64 →
        ((∃ h ∈ l.held, h.writesMem = true) → exec (.ldD f) s = .next s) ∧
        ((∀ h ∈ l.held, h.writesMem = false) → ∃ u : State, exec (.ldD f) s = .next u.next ∧
          u.me = s.me.ws d.toNat (dataReg (BitVec.ofNat 64 (readNat s.mem k 8))) ∧
          u.link c i = { l with owed := some { name := ea, d := f.d, p := none } } ∧ u.mem = s.mem)) ∧
      (LockExecutes (.ldD f) 2 s → (l.lvq = [] → exec (.ldD f) s = .next s) ∧
        (∀ v q, l.lvq = v :: q → v.name < 2 ^ 100 →
          (v.name ≠ ea → diverges (.ldD f) v.name) ∧
          (v.name = ea → ∃ u : State, exec (.ldD f) s = .next u.next ∧ u.me = s.me.ws d.toNat ⟨v.val.setWidth 128, false⟩ ∧
            u.link c lo = { l with lvq := q } ∧ u.mem = s.mem)))) ∧
    (∀ x : Nat, LockExecutes (.ctlNop f) 1 s → l.owed = some { name := x, d := f.d, p := none } → l.pend = false → l.lvq.length < 64 →
      ∃ u : State, exec (.ctlNop f) s = .next u.next ∧ u.me = s.me ∧ u.mem = s.mem ∧
        u.link c i = { l with owed := none, lvq := l.lvq ++ [⟨x, (s.me.rs d.toNat).val.setWidth 512, (s.me.rs d.toNat).tag⟩] }) ∧
    (plainRegs → s.ownWord f permWr k → f.m.toNat / 64 < 2 →
      (LockExecutes (.stD f) 1 s → l.owed = none → l.pend = false → l.lvq.length ≤ 64 →
        (8 ≤ l.held.length → exec (.stD f) s = .next s) ∧
        (l.held.length < 8 → ∃ u : State, exec (.stD f) s = .next u.next ∧ u.me = s.me ∧ u.mem = s.mem ∧ u.link c i = { l with held := l.held ++ [eff] })) ∧
      (LockExecutes (.stD f) 2 s → (l.held = [] → exec (.stD f) s = .next s) ∧
        (∀ h r, l.held = h :: r → h ≠ eff → diverges (.stD f) h.addr) ∧
        (∀ r, l.held = eff :: r → ∃ u : State, exec (.stD f) s = .next u.next ∧ u.link c lo = { l with held := r } ∧
          u.me.s = s.me.s ∧ u.me.v = s.me.v ∧ u.me.p = s.me.p ∧ u.me.pc = s.me.pc ∧
          (∀ b < 8, readByte u.mem (k + b) = ((s.data f.c) >>> (8 * b)).setWidth 8) ∧ ∀ a, a < k ∨ k + 8 ≤ a → readByte u.mem a = readByte s.mem a))) ∧
    (∀ n : Instr, LockExecutes n 1 s → l.owed = none → l.pend = true → exec n s = .next s)) ∧
  (∀ (s : State) (c lo hi addr : Nat), lo < hi → (s.th c lo).pair = 1 → (s.th c lo).partner = hi → (s.th c hi).pair = 2 → (s.th c hi).partner = lo →
    (s.slot c lo).state ≠ .saved → (s.slot c hi).state ≠ .saved →
    (∀ i, i = lo ∨ i = hi → (s.th c i).mode = .user ∧ (s.th c i).region = none) →
    let t := s.diverge c lo hi addr
    t.mem = s.mem ∧ t.link c lo = {} ∧ ∀ i, i = lo ∨ i = hi → (t.th c i).pair = 0 ∧ (t.th c i).mode = .supervisor ∧ (t.th c i).sfrom = .user ∧
      (t.th c i).st = ⟨0x0E, (s.th c i).pc, BitVec.ofNat 96 addr⟩)

/-! ### Engine commands (07 R179-R205) -/

/-- An engine operation has been entered: `v` is `u` with record `o` under the next number, its tag claimed, its tile locked; memory (but for
the record of a recording, 23 R466) and the issuing thread are as before (07 R179, R180, R190; 01 R31). -/
structure Starts (u v : State) (o : Op) : Prop where
  entered : v.ops.look u.nextId = some o
  others : ∀ j, j ≠ u.nextId → v.ops.look j = u.ops.look j
  mem : (u.part o.part).ephMode ≠ 1 → v.mem = u.mem
  thread : v.me = u.me
  tag : ∀ c n, o.compl = .tag c n → (v.cell c).tcount.at n 0 = (u.cell c).tcount.at n 0 + 1 ∧ (v.cell c).tdone.getLsbD n = false
  tile : ∀ t, o.tile = some t → (v.cell o.cell).locks.at t 0 = (u.cell o.cell).locks.at t 0 + 1
/-- The record of a command of the issuing thread: what it captures of its issuer, its work and its completion object; one of a tenant that a slice
switch is taking out is stopped from the start (20 R410). -/
def Sys2Proof.Machine.State.command (u : State) (f : Fields) (k : OpKind) (dst : Option Nat) (tile : Option Nat) : Op :=
  { cell := u.cur.1, slot := u.cur.2, fn := u.fnOf u.cur.1 u.cur.2, part := u.partOf u.cur.1 u.cur.2,
    group := (u.slot u.cur.1 u.cur.2).bind.map (·.group), asid := u.me.asid, user := Decidable.decide (u.me.mode = .user), kind := k,
    compl := u.complOf f u.cur.1 u.cur.2 dst, tile := tile, cp := f.cp,
    held := u.leaves (u.partOf u.cur.1 u.cur.2) (u.fnOf u.cur.1 u.cur.2) }

/-- cp.lin (C bytes from A to B), cp.td (rows and strides of the pair in C), cp.g (C lists the pieces) and cp.mx (a 128-byte block of the own pool):
with 32 copies outstanding in the cell, or a tag that counts 255, the issue is cancelled; else the first failed check in order (source,
destination, size limit: cause 0x09, detail 0x30 or 0x31) traps. A command with nothing to copy completes at once and starts no operation; any
other enters its record, claims its tag and, for cp.mx, locks its tile, and the thread goes on with no byte of memory changed. -/
def Obligations.CopyCommandResults : Prop :=
  ∀ (f : Fields) (s : State),
    let c := s.cur.1
    let i := s.cur.2
    let a := s.val f.a
    let b := s.val f.b
    let odd : Reg := match f.c with
      | .s n => s.me.rs (n.toNat + 1)
      | _ => {}
    let room : Prop := s.copies c < 32 ∧ (cselOf f = true ∨ (s.cell c).tcount.at (ctagOf f) 0 < 255)
    let lim (u : State) (bad : Bool) (detail : Nat) : Option Trap := if bad then some ⟨0x09, detail, u.openTval, false⟩ else none
    let runs (n : Instr) (k : OpKind) (empty : Bool) (checks : State → List (Option Trap)) : Prop := Executes n s →
      let u := consumed n s
      (¬ room → exec n s = .next (s.cancels u)) ∧
      (∀ x, room → firstTrap (checks u) = some x → exec n s = .next (s.takeTrap c i x)) ∧
      (room → firstTrap (checks u) = none → empty = false →
        ∃ v : State, exec n s = .next v.next ∧ Starts u v (u.command f k (some b.addr) none)) ∧
      (room → firstTrap (checks u) = none → empty = true → ∃ v : State, exec n s = .next v.next ∧ v.ops = u.ops ∧ (¬ u.records c i → v.mem = u.mem) ∧
        (cselOf f = false → (s.cell c).tcount.at (ctagOf f) 0 = 0 → (v.cell c).tdone.getLsbD (ctagOf f) = true))
    let n := (s.data f.c).toNat
    let x := shapeOf (s.data f.c) odd.data
    runs (.cpLin f) (.lin a.addr b.addr n) (decide (n = 0)) (fun u =>
      [u.engCheck c i a permSrc a.addr n, u.engCheck c i b permDst b.addr n, lim u (decide (2 ^ 40 ≤ n)) 0x30]) ∧
    runs (.cpTd f) (.copy a.addr b.addr x.len x.rows x.sst x.dst) (decide (x.len = 0 ∨ x.rows = 0)) (fun u =>
      [u.rowsCheck c i a permSrc x x.sst, u.rowsCheck c i b permDst x x.dst, lim u (decide (2 ^ 24 < x.len ∨ 65536 < x.rows)) 0x30]) ∧
    runs (.cpG f) (.gather a b (s.val f.c).addr (odd.data.toNat % 2 ^ 32)) (decide (odd.data.toNat % 2 ^ 32 = 0)) (fun u =>
      [permCheck u.openTval a permSrc, permCheck u.openTval b permDst,
       u.engCheck c i (s.val f.c) permSrc (s.val f.c).addr (16 * (odd.data.toNat % 2 ^ 32)), lim u (decide (65536 < odd.data.toNat % 2 ^ 32)) 0x31]) ∧
    (Executes (.cpMx f) s →
      let u := consumed (.cpMx f) s
      (¬ room → exec (.cpMx f) s = .next (s.cancels u)) ∧
      (∀ x, room → u.blockKey c i a = .error x → exec (.cpMx f) s = .next (s.takeTrap c i x)) ∧
      (∀ k, room → u.blockKey c i a = .ok k → u.lockedTile k 128 = none → u.loses c k 128 = false → u.poisonAt k 128 = none →
        let part (off : Nat) : Reg := ⟨BitVec.ofNat 128 (readNat u.mem (k + off) 16), u.tagAt (k + off)⟩
        let sh := shapeOf ((part 32).val.setWidth 64) ((part 32).val.extractLsb' 64 64)
        let m := u.me.mkMma (f.m.getLsbD 2) (part 48) (part 64) (part 80).val (part 96).val ((part 112).val.extractLsb' 64 64) (f.m.toNat % 4)
        let checks : List (Option Trap) := [if (part 112).val.setWidth 64 ≠ (0 : W64) then some ⟨0x09, 0x34, BitVec.ofNat 96 a.addr, false⟩ else none,
          lim u (decide (2 ^ 24 < sh.len ∨ 65536 < sh.rows)) 0x30, u.rowsCheck c i (part 0) permSrc sh sh.sst, u.rowsCheck c i (part 16) permDst sh sh.dst,
          u.mmaCheck c i m (tileOf f)]
        (∀ x, firstTrap checks = some x → exec (.cpMx f) s = .next (s.takeTrap c i x)) ∧
        (firstTrap checks = none → ∃ v : State, exec (.cpMx f) s = .next v.next ∧ Starts (u.touched k 128 false) v
          (u.command f (.copyMx (part 0).addr (part 16).addr sh.len sh.rows sh.sst sh.dst m) (some (part 16).addr) (some (tileOf f)))))) ∧
    (Executes (.cpWany f) s →
      let m := s.data f.a
      let v := (s.cell c).tdone &&& m
      exec (.cpWany f) s = .next (if v ≠ 0 ∨ m = 0 then ((consumed (.cpWany f) s).put f.d v).next
        else (consumed (.cpWany f) s).parks (.tags false m f.d))) ∧
    (Executes (.cpWall f) s →
      let m := s.data f.a
      exec (.cpWall f) s = .next (if (s.cell c).tdone &&& m = m then ((consumed (.cpWall f) s).put f.d m).next
        else (consumed (.cpWall f) s).parks (.tags true m f.d))) ∧
    (Executes (.cpFfr f) s →
      let v := (s.cell c).tfail &&& s.data f.a
      exec (.cpFfr f) s = .next (((consumed (.cpFfr f) s).modCell c fun x => { x with tfail := x.tfail &&& ~~~v }).put f.d v).next) ∧
    (Executes (.cpFfrRec f) s →
      let v := (s.cell c).tfail &&& s.data f.a
      (v = 0 → exec (.cpFfrRec f) s = .next ((consumed (.cpFfrRec f) s).put f.d 0).next) ∧
      (∀ n < 64, v.getLsbD n = true → (∀ j < n, v.getLsbD j = false) → exec (.cpFfrRec f) s = .next
        (((consumed (.cpFfrRec f) s).modCell c fun x => { x with tfail := setBits x.tfail n 1 0 }).put f.d ((s.cell c).trec.at n 0)).next))

/-- mx.mma, mx.mmaq, mx.zero, mx.ld and mx.st: with 8 operations in the array's queue, or a tag that counts 255, the issue is cancelled; else the
first failed check (of R469 for mma and mmaq; the range, then its alignment, then the tile for ld and st; the tile for zero) traps; else the
operation's record is entered with what it captured, its tile is locked, its number stands last in the queue, and the thread goes on with memory
unchanged. (Detail 0 of the tile fault is the model's reading, log entry 25; that a command whose mask selects nothing still makes its checks is
log entry 26.) mx.chk and mx.chk.inject write the counts of repairs [31:0], replays [47:32] and faults [63:48] to D and clear them; inject arms
one error. -/
def Obligations.MatrixCommandResults : Prop :=
  ∀ (f : Fields) (s : State),
    let c := s.cur.1
    let i := s.cur.2
    let room : Prop := (s.cell c).mxq.length < 8 ∧ (cselOf f = true ∨ (s.cell c).tcount.at (ctagOf f) 0 < 255)
    let runs (n : Instr) (k : OpKind) (check : State → Option Trap) : Prop := Executes n s →
      let u := consumed n s
      (¬ room → exec n s = .next (s.cancels u)) ∧
      (∀ x, room → check u = some x → exec n s = .next (s.takeTrap c i x)) ∧
      (room → check u = none → ∃ v : State, exec n s = .next v.next ∧ Starts u v (u.command f k none (some (tileOf f))) ∧
        (v.cell c).mxq = (u.cell c).mxq ++ [u.nextId])
    let odd : Reg := match f.c with
      | .s n => s.me.rs (n.toNat + 1)
      | _ => {}
    let m (q : Bool) : Mma :=
      { quant := q, a := s.val f.a, b := s.val f.b, geo0 := (s.val f.c).val, geo1 := odd.val, side := if q then s.data f.d else 0,
        fmt := f.m.toNat % 4, seed := s.me.srseed, isat := s.me.fmode.getLsbD 2 }
    let noTile (u : State) : Option Trap :=
      if tileOf f < 4 * ((s.cell c).pword.toNat / 256 % 256) then none else some ⟨0x09, 0, u.openTval, false⟩
    runs (.mxMma f) (.mma (m false)) (fun u => u.mmaCheck c i (m false) (tileOf f)) ∧
    runs (.mxMmaq f) (.mma (m true)) (fun u => u.mmaCheck c i (m true) (tileOf f)) ∧
    runs (.mxZero f) (.zero (s.data f.c)) noTile ∧
    runs (.mxLd f) (.mxld (s.val f.a).addr (s.data f.b).toInt (s.data f.c) (f.m.toNat % 4)) (fun u =>
      firstTrap [tileCheck u c i (s.val f.a) (s.data f.b).toInt (s.data f.c) (f.m.toNat % 4) [permRd, permEng], noTile u]) ∧
    runs (.mxSt f) (.mxst (s.val f.a).addr (s.data f.b).toInt (s.data f.c) (f.m.toNat % 4)) (fun u =>
      firstTrap [tileCheck u c i (s.val f.a) (s.data f.b).toInt (s.data f.c) (f.m.toNat % 4) [permWr, permEng], noTile u]) ∧
    (∀ (n : Instr) (inj : Bool), (n = .mxChk f ∧ inj = false) ∨ (n = .mxChkInject f ∧ inj = true) → Executes n s →
      let x := s.cell c
      x.repairs < 2 ^ 32 → x.replays < 2 ^ 16 → x.faults < 2 ^ 16 → ∃ w : W64,
        exec n s = .next ((s.modCell c fun x => { x with repairs := 0, replays := 0, faults := 0, inject := x.inject || inj }).put f.d w).next ∧
        (w.extractLsb' 0 32).toNat = x.repairs ∧ (w.extractLsb' 32 16).toNat = x.replays ∧ (w.extractLsb' 48 16).toNat = x.faults)

/-! ### Ropes, queues, system instructions (08 R224-R246; 07 R206-R223) -/

/-- Each rope function checks, in order, the pool capability A (tagged with rpool, rd, wr and eng, over its whole extent, 64-byte aligned, at least
128 bytes), then B (the run of rope.leaf, the handle of rope.pin.h and rope.pub) or the ring D of a walk in ring mode, then that its result
registers lie in m0 to m15 (cause 0x09, detail 0x70): the first failure traps. With 16 commands of the cell unfinished the issue is cancelled.
Otherwise the command, with all its captured operands, is entered for the home engine and the thread goes on; memory and the thread's registers
are unchanged. -/
def Obligations.RopeCommandResults : Prop :=
  ∀ (f : Fields) (s : State) (mk : Fields → Instr) (fn : Nat), (mk, fn) ∈ ([(.ropeSchema, 0), (.ropeLeaf, 1), (.ropeCat, 2), (.ropeSplit, 3),
      (.ropeSplice, 4), (.ropeSum, 5), (.ropeSeek, 6), (.ropeWalk, 7), (.ropePin, 8), (.ropePinH, 8), (.ropeUnpin, 9), (.ropePub, 10)] :
      List ((Fields → Instr) × Nat)) → Executes (mk f) s →
    let c := s.cur.1
    let i := s.cur.2
    let u := consumed (mk f) s
    let tv := u.openTval
    let odd : Reg := match f.c with
      | .s n => s.me.rs (n.toNat + 1)
      | _ => {}
    let words := if fn = 5 then 5 else if fn = 6 then 3 else if fn = 9 then 1 else 2
    let toRegs : Prop := fn = 7 ∧ f.m.getLsbD 0 = true
    let other : Option Trap :=
      if fn = 1 then permCheck tv (s.val f.b) [permRd, permEng]
      else if fn = 7 ∧ f.m.getLsbD 0 = false then ringCheck tv (s.val f.d)
      else if fn = 10 then handleCheck tv (s.val f.b) true
      else if fn = 8 ∧ f.m.getLsbD 0 = true then handleCheck tv (s.val f.b) false
      else none
    let regs : Option Trap :=
      if 15 < mregOf f + words - 1 ∨ (toRegs ∧ 15 < (s.data f.d).toNat / 2 ^ 14 % 16 + 3) then some ⟨0x09, 0x70, tv, false⟩ else none
    let first := firstTrap [poolCheck tv (s.val f.a), other, regs]
    (∀ x, first = some x → exec (mk f) s = .next (s.takeTrap c i x)) ∧
    (first = none → 16 ≤ (s.cmds.filter fun x => x.2.cell = c).length → exec (mk f) s = .next (s.cancels u)) ∧
    (first = none → (s.cmds.filter fun x => x.2.cell = c).length < 16 → ∃ v : State, exec (mk f) s = .next v.next ∧
      v.cmds.look s.nextId = some
        { cell := c, slot := i, fn := s.fnOf c i, part := s.partOf c i, group := (s.slot c i).bind.map (·.group), asid := s.me.asid,
          user := Decidable.decide (s.me.mode = .user), op := fn, m := f.m, mreg := mregOf f, pool := s.val f.a, b := s.val f.b, d := s.val f.d,
          c0 := s.data f.c, c1 := odd.data, hintN := f.n, cp := f.cp, held := decide (fn = 7) && s.leaves (s.partOf c i) (s.fnOf c i) } ∧
      v.mem = s.mem ∧ v.me = u.me) ∧
    (poolCheck tv (s.val f.a) = none ↔ (s.val f.a).tag = true ∧ (∀ p ∈ [permRpool, permRd, permWr, permEng], (s.val f.a).has p = true) ∧
      (s.val f.a).base % 64 = 0 ∧ (s.val f.a).len % 64 = 0 ∧ 128 ≤ (s.val f.a).len ∧ (s.val f.a).base + ((s.val f.a).top - (s.val f.a).base) ≤ (s.val f.a).top)

/-- With the queue word naming a queue the thread may use and, for push and pop, the item buffer's checks passed at own-pool key k: a killed queue
answers 6. push answers 4 when closed; appends the item (0) to a stage queue with room, or to a work queue below its size, and answers 3 when
full. pop answers 2 when closed and empty, takes the oldest item into the buffer (0), answers 1 on an empty queue when it does not block, else
parks. close answers 4 when closed already, else closes (0); close.kill kills the queue and its threads. q.gang reads its record as the thread's
loads would, parts in peer memory when they are answered, and answers 3 when the prompter holds 16 gangs, else posts it (0). While a switch has
not exchanged a stage's ring, or a throttled row holds a spill back, the issue is cancelled; a failed spill parks the thread for its fault record.
(That a popped work-queue item makes no completion record, and the page fault 0x0B detail 1 of a failing push to a work queue, are log entry 29;
how a gang record is read, parts of it in peer memory, is log entry 30.) A word that names no queue traps (0x09 detail 0x50; 0x06 detail 0x10 for
another function's queue). -/
def Obligations.QueueResults : Prop :=
  ∀ (f : Fields) (s u : State) (k : Nat),
    let c := s.cur.1
    let i := s.cur.2
    let word := s.data f.a
    let buffer (n : Instr) (p : Nat) (acc : Acc) : Prop := Executes n s ∧ (consumed n s).resolve c i (s.val f.b) [p] (s.val f.b).addr 64 64 acc = (u, .ok k) ∧
      ownPool c k = true ∧ u.lockedTile k 64 = none ∧ u.loses c k 64 = false
    let ends (n : Instr) (v : State) (x : Nat) : Prop := exec n s = .next (v.put f.d (BitVec.ofNat 64 x)).next
    let w := u.touched k 64 false
    let full (q : Stage) : Prop := ¬ (q.count < q.qcap ∧ q.spCount = 0)
    let item := readNat u.mem k 64
    (∀ n : Instr, n ∈ [.qPush f, .qPop f, .qClose f, .qCloseKill f] → Executes n s → ∀ x, (consumed n s).queueRef c i word = .error x →
      exec n s = .next (s.takeTrap c i x) ∧ ((x.cause = 9 ∧ x.detail = 0x50) ∨ (x.cause = 6 ∧ x.detail = 0x10))) ∧
    (∀ key q, (consumed (.qPush f) s).queueRef c i word = .ok (.stage key) → u.stage key = some q → buffer (.qPush f) permRd .load →
      u.relWait c i 1 = false → u.poisonAt k 64 = none →
      (q.killed = true → ends (.qPush f) w 6) ∧ (q.killed = false → q.closed = true → ends (.qPush f) w 4) ∧
      (q.killed = false → q.closed = false → u.stageHere key q = false →
        exec (.qPush f) s = .next (s.cancels (w.want (poolKey q.home q.ring) (64 * q.qcap)))) ∧
      (q.killed = false → q.closed = false → u.stageHere key q = true →
        (u.spillHeld key = false → ¬ full q →
          ends (.qPush f) ((w.putItem key item false).pushed key (decide (q.high ≠ 0 ∧ q.high < q.occ))) 0) ∧
        (u.spillHeld key = false → full q → q.scap ≤ q.spCount → ends (.qPush f) w 3) ∧
        (∀ v, u.spillHeld key = false → full q → q.spCount < q.scap →
          (w.spillWrite key item false (Decidable.decide (u.me.mode = .user)) = (v, .ok ()) →
            ends (.qPush f) (v.pushed key (decide (q.high ≠ 0 ∧ q.high < q.occ))) 0) ∧
          (∀ t, w.spillWrite key item false (Decidable.decide (u.me.mode = .user)) = (v, .held t) → exec (.qPush f) s = .next (s.cancels v)) ∧
          (w.spillWrite key item false (Decidable.decide (u.me.mode = .user)) = (v, .fault) → ∃ x : State,
            exec (.qPush f) s = .next (x.parks (.spill v.nextId)) ∧ x.mem = v.mem ∧
            (x.spills.look v.nextId).map (fun y => (y.stage, y.item, y.stop)) = some (key, BitVec.ofNat 512 item, some (1, q.spillVa q.spCount)))) ∧
        (u.spillHeld key = true → ends (.qPush f)
          (if q.count < q.qcap then (w.putItem key item false).pushed key (decide (q.high ≠ 0 ∧ q.high < q.occ)) else w) (if q.count < q.qcap then 0 else 3))) ∧
      (q.count < q.qcap → q.home < 1024 → q.ring + 64 * q.qcap ≤ 2 ^ 20 → readNat (w.putItem key item false).mem (q.slotKey q.count) 64 = item ∧
        ((w.putItem key item false).stage key).map (·.count) = some (q.count + 1))) ∧
    (∀ h, (consumed (.qPush f) s).queueRef c i word = .ok (.hw h) → buffer (.qPush f) permRd .load → u.relWait c i 1 = false → u.poisonAt k 64 = none →
      let q := w.queue h
      (q.killed = true → ends (.qPush f) w 6) ∧ (q.killed = false → q.closed = true → ends (.qPush f) w 4) ∧
      (q.killed = false → q.closed = false → 2 ^ qLogsize q.ctx ≤ q.depth → ends (.qPush f) w 3) ∧
      (∀ v, q.killed = false → q.closed = false → q.depth < 2 ^ qLogsize q.ctx → (w.appendHw h item = (v, .ok ()) → ends (.qPush f) v 0) ∧
        (∀ t, w.appendHw h item = (v, .held t) → exec (.qPush f) s = .next (s.cancels v)) ∧
        (w.appendHw h item = (v, .fault) → exec (.qPush f) s = .next (s.faults v 0x0B 1 (entryVa q.ctx (qTail q.ctx)))))) ∧
    (∀ key q, (consumed (.qPop f) s).queueRef c i word = .ok (.stage key) → u.stage key = some q → buffer (.qPop f) permWr .store →
      (q.killed = true → ends (.qPop f) u 6) ∧ (q.killed = false → q.closed = true → q.occ = 0 → ends (.qPop f) u 2) ∧
      (q.killed = false → (q.closed = true → q.occ ≠ 0) → u.stageHere key q = false →
        exec (.qPop f) s = .next (s.cancels (u.want (poolKey q.home q.ring) (64 * q.qcap)))) ∧
      (q.killed = false → (q.closed = true → q.occ ≠ 0) → u.stageHere key q = true →
        (∀ b, ((u.slot c i).bind.bind Bind.stage).bind u.reassign = some b → ends (.qPop f) (u.moveTo c i b) (2 ^ 31 + b % 4096)) ∧
        (((u.slot c i).bind.bind Bind.stage).bind u.reassign = none →
          (∀ v x, u.takeItem key q.count = (v, some x) → ends (.qPop f) ((v.putBuffer c i k x).refillDue key) 0) ∧
          (q.occ = 0 → f.m.getLsbD 0 = true → ∃ v : State, ends (.qPop f) v 1 ∧ v.mem = u.mem ∧ v.stage key = u.stage key) ∧
          (q.occ = 0 → f.m.getLsbD 0 = false → ∃ v : State, exec (.qPop f) s = .next (v.parks (.pop key f.d k)) ∧ v.mem = u.mem ∧
            v.stage key = some { q with parked := q.parked ++ [(c, i, u.cycle)] })))) ∧
    (∀ h, (consumed (.qPop f) s).queueRef c i word = .ok (.hw h) → buffer (.qPop f) permWr .store →
      let q := u.queue h
      (q.killed = true → ends (.qPop f) u 6) ∧
      (∀ x, q.killed = false → q.head = some x → ends (.qPop f) ((u.putBuffer c i k x.toNat).headTaken h) 0) ∧
      (q.killed = false → q.head = none → q.depth ≠ 0 → exec (.qPop f) s = .next (s.cancels u)) ∧
      (q.killed = false → q.head = none → q.depth = 0 → q.closed = true → ends (.qPop f) u 2) ∧
      (q.killed = false → q.head = none → q.depth = 0 → q.closed = false → f.m.getLsbD 0 = true → ends (.qPop f) u 1) ∧
      (q.killed = false → q.head = none → q.depth = 0 → q.closed = false → f.m.getLsbD 0 = false →
        exec (.qPop f) s = .next ((u.setQueue h { q with parked := q.parked ++ [(c, i, u.cycle)] }).parks (.pop (2 ^ 31 + h) f.d k)))) ∧
    (Executes (.qClose f) s →
      let x := consumed (.qClose f) s
      (∀ key q, x.queueRef c i word = .ok (.stage key) → x.stage key = some q → ends (.qClose f)
        (if q.killed ∨ q.closed then x else (x.setStage key { q with closed := true }).serveStage key) (if q.killed then 6 else if q.closed then 4 else 0)) ∧
      (∀ h, x.queueRef c i word = .ok (.hw h) →
        let q := x.queue h
        ends (.qClose f) (if q.killed ∨ q.closed then x else if q.depth = 0 then (x.setQueue h { q with closed := true }).wakeAll q.parked 2
          else x.setQueue h { q with closed := true }) (if q.killed then 6 else if q.closed then 4 else 0))) ∧
    (Executes (.qCloseKill f) s →
      let x := consumed (.qCloseKill f) s
      (∀ key q, x.queueRef c i word = .ok (.stage key) → x.stage key = some q → q.killed = true → ends (.qCloseKill f) x 6) ∧
      (∀ key q, x.queueRef c i word = .ok (.stage key) → x.stage key = some q → q.killed = false →
        exec (.qCloseKill f) s = .next (if ((x.killStage key q).slot c i).state = .ready then
          ((x.killStage key q).put f.d 0).next else x.killStage key q)) ∧
      (∀ h, x.queueRef c i word = .ok (.hw h) → (x.queue h).killed = true → ends (.qCloseKill f) x 6) ∧
      (∀ h, x.queueRef c i word = .ok (.hw h) → (x.queue h).killed = false → exec (.qCloseKill f) s = .next (
        if ((x.killHw h).slot c i).state = .ready then ((x.killHw h).put f.d 0).next else x.killHw h))) ∧
    (Executes (.qGang f) s →
      let x := consumed (.qGang f) s
      let tw := (s.data f.b).toNat
      (physOf (s.partOf c i) (tw % 1024) = none → exec (.qGang f) s = .next (s.traps 0x0A 0 ((s.data f.b).setWidth 96))) ∧
      let look (y : State) (va n : Nat) := y.resolve c i (s.val f.a) [permRd] va n 1 .load
      ∀ tc, physOf (s.partOf c i) (tw % 1024) = some tc →
        let g : Gang := { id := s.nextId, cell := c, slot := i, reg := tw / 2 ^ 14 % 16, tcell := tc, tslot := tw / 2 ^ 10 % 16, fn := s.fnOf c i,
                          asid := s.me.asid, part := s.partOf c i, mode := s.me.mode, rec_ := s.val f.a, size := 64 }
        let head := ({ x with nextId := x.nextId + 1 } : State).gangRead g look 0 2 64
        (∀ v t, head = (v, .error (.trap t)) → exec (.qGang f) s = .next ((v.setTh c i s.me).takeTrap c i t)) ∧
        (∀ v, head = (v, .error .later) → exec (.qGang f) s = .next (s.cancels v)) ∧
        (∀ v g1 v1 g2, head = (v, .ok g1) → v.gangMore g1 look = (v1, .ok g2) →
          (16 ≤ ((x.die (dieOf c)).gangs.filter (·.queue.isNone)).length → ends (.qGang f) v1 3) ∧
          (((x.die (dieOf c)).gangs.filter (·.queue.isNone)).length < 16 → ∃ y : State, ends (.qGang f) y 0 ∧ y.mem = v1.mem ∧
            (y.die (dieOf c)).gangs = (v1.die (dieOf c)).gangs ++ [g2] ∧ g2.cell = c ∧ g2.slot = i ∧ g2.tcell = tc ∧
            g2.tslot = tw / 2 ^ 10 % 16 ∧ g2.reg = tw / 2 ^ 14 % 16 ∧ g2.queue = none ∧ g2.plan = none)))

/-- sys.wfi goes on when an arrival (mie set) or the timer interrupt is pending and parks otherwise. sys.tlbinv removes exactly the translations of
its scope (a page of an address space, an address space, the partition) from the TLBs of the partition's cells, and goes on when no access
translated before its first issue is still to be performed; until then its issue is cancelled (which accesses these are is log entries 44 and 50).
sys.ctxsave of another slot answers 1 when it is neither ready nor parked, else writes its image and leaves it saved; sys.ctxload answers 1 for a
slot that is not saved, else, outside a slice switch, restores it from its image; the own slot traps (0x09, detail 0x40). sys.yield answers 1 when
64 yields wait, else posts one. csrr and csrw write D with the register, csrw then writes the fields the mode may write (of cause those that log
entry 34 names); cue (0x024) traps in user mode with cause 0x03. -/
def Obligations.SystemResults : Prop :=
  ∀ (f : Fields) (s : State),
    let c := s.cur.1
    let i := s.cur.2
    let p := s.partOf c i
    let j := (s.data f.a).toNat % 16
    let ends (n : Instr) (v : State) (x : W64) : Prop := exec n s = .next (v.put f.d x).next
    (Executes (.sysWfi f) s → exec (.sysWfi f) s = .next (
      if (s.me.mie = true ∧ (∃ x ∈ s.me.m, x.2.pend = true)) ∨ s.me.tpend = true then s.next else s.parks .wfi)) ∧
    (Executes (.sysTlbinv f) s →
      let a := (s.data f.b).toNat % 2 ^ 13
      let v := (s.data f.a).toNat % 2 ^ 48
      let named (e : TlbEntry) : Bool := if f.m.toNat % 4 = 0 then decide (e.asid = a ∧ e.base = v / 2 ^ e.log)
        else if f.m.toNat % 4 = 1 then decide (e.asid = a) else s.asidOf p e.asid
      let u := consumed (.sysTlbinv f) s
      let n := match s.me.inval with
        | some (pc, n) => if pc = s.me.pc then n else s.nextId
        | none => s.nextId
      let gone (t : State) : Prop := t.mem = s.mem ∧ ∀ d, (t.cell d).tlb = if inPart p d then (s.cell d).tlb.filter (!named ·) else (s.cell d).tlb
      (u.oldAccess p n = false → ∃ t : State, exec (.sysTlbinv f) s = .next t.next ∧ gone t ∧ t.me = { u.me with inval := none }) ∧
      (u.oldAccess p n = true → ∃ t : State, exec (.sysTlbinv f) s = .next t ∧ gone t ∧ t.me = { s.me with inval := some (s.me.pc, n) })) ∧
    (∀ n : Instr, n = .sysCtxsave f ∨ n = .sysCtxload f → Executes n s → j = i → ∃ v, exec n s = .next (s.traps 9 0x40 v)) ∧
    (Executes (.sysCtxsave f) s → j ≠ i →
      let y := s.slot c j
      (y.state ≠ .ready → y.state ≠ .parked → ends (.sysCtxsave f) (consumed (.sysCtxsave f) s) 1) ∧
      (y.state = .ready ∨ y.state = .parked → y.th.pair = 0 → y.th.pktOpen = false → y.th.region = none → c < 1024 → ∃ v : State,
        ends (.sysCtxsave f) v 0 ∧ (v.slot c j).state = .saved ∧
        (∀ n < 64, 0 < n → readNat v.mem (c * 2 ^ 20 + 4096 * j + 16 * n) 16 = (y.th.s.at n {}).val.toNat) ∧
        readNat v.mem (c * 2 ^ 20 + 4096 * j + 0xE18) 8 = y.th.pc.toNat ∧
        (∀ a, a < c * 2 ^ 20 + 4096 * j ∨ c * 2 ^ 20 + 4096 * j + 4096 ≤ a → readByte v.mem a = readByte s.mem a)) ∧
      (y.state = .ready ∨ y.state = .parked → y.th.pair = 0 → y.th.pktOpen = true → exec (.sysCtxsave f) s = .next (s.cancels (consumed (.sysCtxsave f) s)))) ∧
    (Executes (.sysCtxload f) s → j ≠ i →
      let y := s.slot c j
      (y.state ≠ .saved → ends (.sysCtxload f) (consumed (.sysCtxload f) s) 1) ∧
      (y.state = .saved → (s.cell c).switch = false → readNat s.mem (c * 2 ^ 20 + 4096 * j + 0xF00) 1 % 4 = 0 → ∃ v : State, ends (.sysCtxload f) v 0 ∧ v.mem = s.mem ∧
        ((v.slot c j).state = .ready ∨ (v.slot c j).state = .parked) ∧
        (∀ n < 64, 0 < n → (v.th c j).s.at n {} =
          ⟨BitVec.ofNat 128 (readNat s.mem (c * 2 ^ 20 + 4096 * j + 16 * n) 16), s.tagAt (c * 2 ^ 20 + 4096 * j + 16 * n)⟩) ∧
        (v.th c j).pc = BitVec.ofNat 48 (readNat s.mem (c * 2 ^ 20 + 4096 * j + 0xE18) 8))) ∧
    (Executes (.sysYield f) s →
      let d := leadDie p
      (64 ≤ (s.die d).yields.length → ends (.sysYield f) s 1) ∧
      ((s.die d).yields.length < 64 → ∃ v : State, ends (.sysYield f) v 0 ∧ (v.die d).yields = (s.die d).yields ++ [(p, c, i, (s.slot c i).bind.map (·.group))] ∧ v.mem = s.mem ∧ v.me = s.me)) ∧
    (∀ (n : Instr) (wr : Bool) (k : Nat), (n = .sysCsrr f ∧ wr = false) ∨ (n = .sysCsrw f ∧ wr = true) → k = f.imm.toNat % 2 ^ 12 → Executes n s →
      let t := s.me
      let old : W64 := match k with
        | 0x000 => BitVec.ofNat 64 i
        | 0x001 => BitVec.ofNat 64 (vcellOf p c)
        | 0x002 => BitVec.ofNat 64 p
        | 0x003 => t.asid.setWidth 64
        | 0x010 => t.status
        | 0x011 => t.trapRegs.cause
        | 0x012 => t.trapRegs.epc.setWidth 64
        | 0x013 => t.trapRegs.tval.setWidth 64
        | 0x014 => t.ivec.setWidth 64
        | 0x015 => (t.trapRegs.tval.extractLsb' 64 32).setWidth 64
        | 0x020 => t.timer
        | 0x021 => t.fmode.setWidth 64
        | 0x022 => t.srseed.setWidth 64
        | 0x023 => BitVec.ofNat 64 ((s.fnSt (s.fnOf c i)).pj / 1000)
        | 0x024 => t.cue.setWidth 64
        | 0x025 => BitVec.ofNat 64 s.cycle
        | 0x026 => t.retired
        | _ => 0
      let new : W64 := s.data f.a
      let sup : Bool := t.mode != .user
      let set (u : Thread) : Thread := match k with
        | 0x003 => if sup then { u with asid := new.setWidth 13 } else u
        | 0x010 => { u with mie := new.getLsbD 2, tie := new.getLsbD 3, tpend := u.tpend && new.getLsbD 3 }
        | 0x011 => if sup then u.setTrapRegs { u.trapRegs with cause := new &&& 0x800000000000FFFF } else u
        | 0x012 => u.setTrapRegs { u.trapRegs with epc := new.setWidth 48 }
        | 0x013 => if sup then u.setTrapRegs { u.trapRegs with tval := u.trapRegs.tval.extractLsb' 64 32 ++ new } else u
        | 0x014 => { u with ivec := new.setWidth 48 &&& 0xFFFFFFFFFFFC }
        | 0x015 => if sup then u.setTrapRegs { u.trapRegs with tval := new.setWidth 32 ++ u.trapRegs.tval.extractLsb' 0 64 } else u
        | 0x020 => { u with timer := new }
        | 0x021 => { u with fmode := new.setWidth 8 }
        | 0x022 => { u with srseed := new.setWidth 32 }
        | 0x024 => if sup then { u with cue := new.setWidth 8 } else u
        | _ => u
      (k = 0x024 → t.mode = .user → ∃ w, exec n s = .next (s.traps 3 0 w)) ∧
      ((k = 0x024 → t.mode ≠ .user) → wr = false → ends n s old) ∧
      ((k = 0x024 → t.mode ≠ .user) → wr = true → k ≠ 0x023 → exec n s = .next (((consumed n s).put f.d old).modMe set).next) ∧
      (wr = true → k = 0x023 → exec n s = .next (
        let u := (consumed n s).put f.d old
        let g := s.fnOf c i
        (if t.mode = .machine then u.setFn g { s.fnSt g with pj := new.toNat * 1000, mark := new.toNat } else u).next)))

/-- For the deciding engine with registers q0 to q15: add, sub, and, or, xor, shl, shr (by the low 6 bits), slt, sltu, seq, addi, andi, li and lih
write qd and go on with the next word. beq, bne, blt and jmp go to pc + off, which must lie inside the program (else program error 3), or on. rdw
reads windows 0 to 9 (else error 2): 0 the event's kind, slot word and cue register, the count of local queues, the cycle and the queue last
bound; by local number 1 the depth, 2 the priority of the head, 3 its age, 4 the member count of a gang head, 5 enabled, waiting and completion
ring full, 6 the owner; 7 a function's credit; 8 a cluster's empty slots; 9 a fault's cause, tval and epc; an index beyond its range reads 0. bind
stages the eligible queue of a local number, once and alone for a dispatch event; defer is for dispatch; preempt and resume, at most four, name a
slot of the partition for a tick or yield; kill and fwd are for faults: another event or a second emit is error 5, a wrong name error 6. end has
the emits written 2 cycles later. -/
def Obligations.CueInstructionResults : Prop :=
  (∀ (s : State) (d a b : BitVec 4) (i : BitVec 18),
    let e := s.curE
    let q (n : BitVec 4) : W64 := e.q.at n.toNat 0
    let wr (x : Instr) (v : W64) : Prop := exec x s = .next (s.setCurE { e with q := e.q.set d.toNat v 0, pc := e.pc + 1 })
    wr (.cueAdd d a b) (q a + q b) ∧ wr (.cueSub d a b) (q a - q b) ∧ wr (.cueAnd d a b) (q a &&& q b) ∧ wr (.cueOr d a b) (q a ||| q b) ∧
    wr (.cueXor d a b) (q a ^^^ q b) ∧ wr (.cueShl d a b) (q a <<< ((q b).toNat % 64)) ∧ wr (.cueShr d a b) (q a >>> ((q b).toNat % 64)) ∧
    wr (.cueSlt d a b) (if (q a).toInt < (q b).toInt then 1 else 0) ∧ wr (.cueSltu d a b) (if (q a).toNat < (q b).toNat then 1 else 0) ∧
    wr (.cueSeq d a b) (if q a = q b then 1 else 0) ∧ wr (.cueAddi d a i) (q a + BitVec.ofInt 64 i.toInt) ∧
    wr (.cueAndi d a i) (q a &&& BitVec.ofNat 64 i.toNat) ∧ wr (.cueLi d i) (BitVec.ofInt 64 i.toInt) ∧
    wr (.cueLih d a i) (BitVec.ofNat 64 ((q a).toNat * 2 ^ 18 + i.toNat))) ∧
  (∀ (s : State) (a b : BitVec 4) (o : BitVec 18),
    let e := s.curE
    let q (n : BitVec 4) : W64 := e.q.at n.toNat 0
    let br (x : Instr) (taken : Prop) : Prop :=
      (¬ taken → exec x s = .next (s.setCurE { e with pc := e.pc + 1 })) ∧
      (∀ t : Nat, taken → (e.pc : Int) + o.toInt = t → t < e.prog.length → exec x s = .next (s.setCurE { e with pc := t })) ∧
      (taken → ((e.pc : Int) + o.toInt < 0 ∨ (e.prog.length : Int) ≤ e.pc + o.toInt) → exec x s = .next (s.curErr 3))
    br (.cueBeq a b o) (q a = q b) ∧ br (.cueBne a b o) (q a ≠ q b) ∧ br (.cueBlt a b o) ((q a).toInt < (q b).toInt) ∧ br (.cueJmp o) True) ∧
  (∀ (s v : State) (d a : BitVec 4) (w : BitVec 6) (i : BitVec 12) (x : W64),
    let e := s.curE
    (9 < w.toNat → exec (.cueRdw d a w i) s = .next (s.curErr 2)) ∧
    (w.toNat ≤ 9 → s.window s.curEng.1 e w.toNat (((e.q.at a.toNat 0).toNat + i.toNat) % 2 ^ 64) = (v, x) →
      exec (.cueRdw d a w i) s = .next (v.setCurE { v.curE with q := v.curE.q.set d.toNat x 0, pc := v.curE.pc + 1 }))) ∧
  (∀ (s : State) (p idx : Nat) (e : Engine) (ev : CueEvent), e.event = some ev →
    let w (n : Nat) : W64 := (s.window p e n idx).2
    let qs := s.localQueues p
    let (x0, y0, wide, high) := nodeRect p
    (∀ n ≤ 9, (s.window p e n idx).1 = s) ∧
    (idx = 0 → w 0 = match ev with | .dispatch => 0 | .tick => 1 | .yield .. => 2 | .fault .. => 3) ∧
    (ev = .dispatch ∨ ev = .tick → idx = 1 ∨ idx = 2 → w 0 = 0) ∧
    (∀ c i g, (ev = .yield c i g ∨ ∃ x tv pc, ev = .fault c i g x tv pc) →
      (idx = 1 → w 0 = BitVec.ofNat 64 (16 * vcellOf p c + i)) ∧
      (idx = 2 → (s.slot c i).state = .ready ∨ (s.slot c i).state = .parked → (s.slot c i).bind.map (·.group) = g →
        w 0 = (s.th c i).cue.setWidth 64)) ∧
    (idx = 3 → w 0 = BitVec.ofNat 64 qs.length) ∧ (idx = 4 → w 0 = BitVec.ofNat 64 s.cycle) ∧
    (idx = 5 → ((s.part p).lastBound = none → w 0 = BitVec.ofNat 64 (2 ^ 64 - 1)) ∧
      ∀ k j, (s.part p).lastBound = some k → qs[j]? = some k → (∀ m < j, qs[m]? ≠ some k) → w 0 = BitVec.ofNat 64 j) ∧
    (6 ≤ idx → w 0 = 0) ∧
    (∀ k, qs[idx]? = some k →
      let x := s.queue k
      let depth := (qTail x.ctx + 2 ^ 32 - qHead x.ctx) % 2 ^ 32
      w 1 = BitVec.ofNat 64 depth ∧
      (x.head = none → w 2 = 0 ∧ w 4 = 0) ∧ (depth = 0 → w 3 = 0) ∧
      (∀ h, x.head = some h → w 2 = (h.extractLsb' 248 8).setWidth 64 ∧ (h.extractLsb' 384 48 = 0 → w 4 = 0) ∧
        (∀ root n key log, h.extractLsb' 384 48 ≠ 0 → s.rootOf (qVf x.ctx) (qAsid x.ctx) = some root →
          (s.walkFrom (qVf x.ctx) (h.extractLsb' 384 48).toNat 3 root).2 = some (n, key, log) →
          w 4 = (readByte s.mem (leafKey key log (h.extractLsb' 384 48).toNat)).setWidth 64)) ∧
      (∀ t cy r, x.marks = (t, cy) :: r → 1 ≤ (t + 2 ^ 32 - qHead x.ctx) % 2 ^ 32 → (t + 2 ^ 32 - qHead x.ctx) % 2 ^ 32 ≤ depth →
        w 3 = BitVec.ofNat 64 (min (s.cycle - cy) (2 ^ 32 - 1))) ∧
      (w 5).getLsbD 0 = qEn x.ctx ∧ (w 5).getLsbD 1 = x.waiting ∧ (w 5).getLsbD 2 = x.cplFull ∧ w 5 >>> 3 = 0 ∧
      w 6 = BitVec.ofNat 64 (qVf x.ctx)) ∧
    (qs.length ≤ idx → ∀ n, 1 ≤ n → n ≤ 6 → w n = 0) ∧
    w 7 = (if idx < 256 then BitVec.ofInt 64 (s.fnSt idx).credit else 0) ∧
    w 8 = (if idx < wide / 4 * (high / 2) then BitVec.ofNat 64 ((List.range 128).filter fun k => decide
      ((s.slot (cellAt (x0 + idx % (wide / 4) * 4 + k / 16 % 4) (y0 + idx / (wide / 4) * 2 + k / 64)) (k % 16)).state = .empty)).length else 0) ∧
    (∀ c i g x tv pc, ev = .fault c i g x tv pc → w 9 = if idx = 0 then (x.extractLsb' 0 16).setWidth 64
      else if idx = 1 then tv.setWidth 64 else if idx = 2 then (tv.extractLsb' 64 32).setWidth 64 else if idx = 3 then pc.setWidth 64 else 0) ∧
    ((∀ c i g x tv pc, ev ≠ .fault c i g x tv pc) → w 9 = 0)) ∧
  (∀ (s : State) (a : BitVec 4),
    let e := s.curE
    let p := s.curEng.1
    let q : W64 := e.q.at a.toNat 0
    let go (x : Emit) : State := s.setCurE { e with emits := e.emits ++ [x], pc := e.pc + 1 }
    let dispatch : Prop := e.event = some .dispatch
    let tick : Prop := e.event = some .tick ∨ ∃ c i g, e.event = some (.yield c i g)
    let fault : Prop := ∃ c i g w tv pc, e.event = some (.fault c i g w tv pc)
    (dispatch ∧ e.emits = [] →
      (∀ n, (s.localQueues p)[q.toNat]? = some n → s.eligible p n = true → exec (.cueBind a) s = .next (go (.bind n))) ∧
      ((∀ n, (s.localQueues p)[q.toNat]? = some n → s.eligible p n = false) → exec (.cueBind a) s = .next (s.curErr 6)) ∧
      exec .cueDefer s = .next (go .defer)) ∧
    (¬ (dispatch ∧ e.emits = []) → exec (.cueBind a) s = .next (s.curErr 5) ∧ exec .cueDefer s = .next (s.curErr 5)) ∧
    (tick ∧ e.emits.length < 4 →
      (∀ c, q.toNat < 2 ^ 14 → physOf p (q.toNat / 16) = some c →
        exec (.cuePreempt a) s = .next (go (.preempt c (q.toNat % 16))) ∧ exec (.cueResume a) s = .next (go (.resume c (q.toNat % 16)))) ∧
      (2 ^ 14 ≤ q.toNat ∨ physOf p (q.toNat / 16) = none → exec (.cuePreempt a) s = .next (s.curErr 6) ∧ exec (.cueResume a) s = .next (s.curErr 6))) ∧
    (¬ (tick ∧ e.emits.length < 4) → exec (.cuePreempt a) s = .next (s.curErr 5) ∧ exec (.cueResume a) s = .next (s.curErr 5)) ∧
    (fault ∧ e.emits = [] → exec .cueKill s = .next (go .kill) ∧ exec .cueFwd s = .next (go .fwd)) ∧
    (¬ (fault ∧ e.emits = []) → exec .cueKill s = .next (s.curErr 5) ∧ exec .cueFwd s = .next (s.curErr 5)) ∧
    exec .cueEnd s = .next (s.setCurE { e with writing := some (s.cycle + 2) }))

/-- For every integer, compare and predicate function and the inspecting cap functions: when it executes and answers a next state, every byte of
memory, every granule tag, full bit and poisoned unit is as before; every register of every other thread is as before; and of the issuing thread
every scalar, vector, predicate and message register but its destination (a message register's value and pending bit; sources lose their full
bit), fmode, the trap registers of every mode, mode, asid, ivec, timer, cue, the reservation and the handler bit are as before. -/
def Obligations.RegisterInstructionsFrame : Prop :=
  ∀ (f : Fields) (s t : State) (mk : Fields → Instr), mk ∈ [.iaAdd, .iaSub, .iaMul, .iaMulh, .iaMulhu, .iaDiv, .iaDivu, .iaRem, .iaRemu, .iaAnd, .iaOr,
      .iaXor, .iaAndn, .iaShl, .iaShr, .iaSra, .iaRot, .iaMin, .iaMax, .iaMinu, .iaMaxu, .iaClz, .iaCtz, .iaPopc, .iaMov, .iaMovC, .iaAddI, .iaSubI,
      .iaMulI, .iaMulhI, .iaMulhuI, .iaDivI, .iaDivuI, .iaRemI, .iaRemuI, .iaAndI, .iaOrI, .iaXorI, .iaAndnI, .iaShlI, .iaShrI, .iaSraI, .iaRotI,
      .iaMinI, .iaMaxI, .iaMinuI, .iaMaxuI, .iaBfx, .iaBfi, .iaSel, .iaBfxI, .iaBfiI, .iaLi, .icmpEq, .icmpNe, .icmpLt, .icmpLtu, .icmpLe, .icmpLeu,
      .icmpEqI, .icmpNeI, .icmpLtI, .icmpLtuI, .icmpLeI, .icmpLeuI, .prdAnd, .prdOr, .prdXor, .prdNot, .prdSet, .capGetbase, .capGetlen, .capGetperm,
      .capTagtest, .capClear] → Executes (mk f) s → exec (mk f) s = .next t →
    (∀ a, readByte t.mem a = readByte s.mem a) ∧ t.tags = s.tags ∧ t.emptyW = s.emptyW ∧ t.poison = s.poison ∧
    (∀ c i, (c, i) ≠ s.cur → t.th c i = s.th c i ∧ (t.slot c i).state = (s.slot c i).state) ∧ (t.slot s.cur.1 s.cur.2).state = (s.slot s.cur.1 s.cur.2).state ∧
    (∀ n : BitVec 6, f.d ≠ .s n → t.me.rs n.toNat = s.me.rs n.toNat) ∧ (∀ n, t.me.rv n = s.me.rv n) ∧
    (∀ n : BitVec 3, f.d ≠ .p n → t.me.rp n.toNat = s.me.rp n.toNat) ∧
    (∀ n : BitVec 4, f.d ≠ .m n → (t.me.rm n.toNat).val = (s.me.rm n.toNat).val ∧ (t.me.rm n.toNat).pend = (s.me.rm n.toNat).pend) ∧
    t.me.fmode = s.me.fmode ∧ t.me.ut = s.me.ut ∧ t.me.st = s.me.st ∧ t.me.mt = s.me.mt ∧ t.me.mode = s.me.mode ∧ t.me.asid = s.me.asid ∧
    t.me.ivec = s.me.ivec ∧ t.me.timer = s.me.timer ∧ t.me.cue = s.me.cue ∧ t.me.srseed = s.me.srseed ∧ t.me.resv = s.me.resv ∧ t.me.hnd = s.me.hnd ∧
    t.me.region = none ∧ t.me.retired = s.me.retired + 1

/-! ### The steps that are no instruction (95) -/

/-- MEMORY_REPLY performs a thread's request (unless done before), records the value that it returns, and hands the result to its thread, or holds it
in a replay until its value stands next; for a load of n below 16 bytes by a thread parked on it, memory is unchanged, the request is gone, D
holds the n bytes at the key as they are now, extended, and the thread is ready after its load. WRITE_ACK of a posted store writes exactly its n
bytes and, from a pool, HBM or second-tier memory, ends the request. FE_REQUEST_RETRY offers a refused full/empty request again. LR_LEASE_EXPIRY
ends the word's leases that have run out; the first lr held there gets the next lease. A request whose row is throttled, or that comes after a
held one of its words, is held at its controller; THROTTLE_RELEASE performs it and sends its answer once that is over. -/
def Obligations.MemoryEvents : Prop :=
  (∀ (s : State) (id : Nat) (r : Req), s.reqs.look id = some r → r.held = false → r.refused = false → r.posted = false →
    (∀ p, kindOf r.key ≠ .peer p) → (∀ d, r.op ≠ .commit d) → (∀ o n b c d, kindOf r.key = .host → r.op ≠ .amo o n b c d) →
    let u := (s.unhold id).perform id r
    let v := if r.done = none then u.noteValue id else u
    (r.done = none → s.holdFor (some id) r.fn r.here = none → u.mayReturn id = false → exec (.memoryReply id) s = .next (s.dueAt (s.cycle + 1) (.reply id))) ∧
    (∀ t, r.done = none → s.holdFor (some id) r.fn r.here = some t →
      exec (.memoryReply id) s = .next (s.holdAt { id := id, fn := r.fn, places := r.here } t)) ∧
    ((r.done = none → s.holdFor (some id) r.fn r.here = none ∧ u.mayReturn id = true) →
    (∀ r', v.reqs.look id = some r' → r'.held = false → exec (.memoryReply id) s = .next (v.replyTo id r')) ∧
    (∀ r', v.reqs.look id = some r' → r'.held = true → exec (.memoryReply id) s = .next v) ∧
    (∀ n sg cap d, r.op = .load n sg cap d → n < 16 → r.done = none → r.dead = false → s.linkDown r.key = false → s.poisonAt r.key n = none →
      (s.slot r.cell r.slot).state = .parked → (s.th r.cell r.slot).wait = some (.reply id) → s.slotFn (s.slot r.cell r.slot) = some r.fn →
      s.switchedOut r.cell (some r.fn) r.slot = false → (s.th r.cell r.slot).region = none → ∃ t : State, exec (.memoryReply id) s = .next t ∧
      t.mem = s.mem ∧ t.reqs.look id = none ∧ (t.slot r.cell r.slot).state = .ready ∧ (t.th r.cell r.slot).wait = none ∧
      (t.th r.cell r.slot).pc = (s.th r.cell r.slot).complete.pc ∧
      (∀ k : BitVec 6, d = .s k → k ≠ 0 → ((t.th r.cell r.slot).rs k.toNat).data =
        if sg then (BitVec.ofNat (8 * n) (readNat s.mem r.key n)).signExtend 64 else (BitVec.ofNat (8 * n) (readNat s.mem r.key n)).setWidth 64) ∧
      (∀ k : BitVec 6, d ≠ .s k → (t.th r.cell r.slot).rs k.toNat = (s.th r.cell r.slot).rs k.toNat)))) ∧
  (∀ (s : State) (id n : Nat) (r : Req) (v : W512) (tag : Bool), s.reqs.look id = some r → r.posted = true → r.op = .store n v tag → r.done = none →
    (∀ p, kindOf r.key ≠ .peer p) → s.linkDown r.key = false → s.holdFor (some id) r.fn r.here = none → s.feHeld = [] → ∃ t : State,
    exec (.writeAck id) s = .next t ∧ (∀ j < n, readByte t.mem (r.key + j) = BitVec.ofNat 8 (v.toNat / 256 ^ j)) ∧
    (∀ a, a < r.key ∨ r.key + n ≤ a → readByte t.mem a = readByte s.mem a) ∧ (kindOf r.key ≠ .host → t.reqs.look id = none)) ∧
  (∀ (s : State) (id : Nat) (r : Req), s.reqs.look id = some r → r.refused = true → r.held = false → r.dead = false → exec (.feRequestRetry id) s = .next (s.feArrive id)) ∧
  (∀ (s : State) (w : Nat), (∃ l ∈ s.leases, l.word = w ∧ l.until_ ≤ s.cycle) →
    ((∀ id ∈ s.lrHeld, (s.reqs.look id).map (·.key / 8) ≠ some w) →
      exec (.lrLeaseExpiry w) s = .next { s with leases := s.leases.filter fun l => !(l.word = w) }) ∧
    (∀ a b id r n d, s.lrHeld = a ++ id :: b → (∀ j ∈ a, (s.reqs.look j).map (·.key / 8) ≠ some w) → s.reqs.look id = some r → r.key / 8 = w → r.op = .lr n d →
      s.holdFor (some id) r.fn [(r.key, 8)] = none → (s.part (s.reqPart r)).ephMode ≠ 2 →
      ∃ t : State, exec (.lrLeaseExpiry w) s = .next t ∧ (⟨w, r.cell, r.slot, s.cycle + 1024⟩ : Lease) ∈ t.leases ∧ ((s.part (s.reqPart r)).ephMode ≠ 1 → t.mem = s.mem))) ∧
  (∀ (s : State) (id : Nat) (h : HeldAt) (r : Req), s.throttled.find? (fun h => h.id = id) = some h → h.again = none → s.reqs.look id = some r →
    (∀ d, r.op ≠ .commit d) → (∀ n v d p, r.op ≠ .fe n v d p) → r.done = none →
    let u := (s.unhold id).perform id r
    (s.holdFor (some id) r.fn r.here = none →
      exec (.throttleRelease id) s = .next (if u.mayReturn id then (u.noteValue id).dueNow (if r.posted then .ack id else .reply id)
        else s.dueAt (s.cycle + 1) (.reply id)) ∧
      ∀ x ∈ (s.unhold id).throttled, x.id ≠ id) ∧
    (∀ t, s.holdFor (some id) r.fn r.here = some t → exec (.throttleRelease id) s = .next (s.holdAt { id := id, fn := r.fn, places := r.here } t)))

/-- The timer interrupt (pending, in no handler, no packet open) saves the pc in epc of the mode, sets cause 0x20 with bit 63, clears tie and the
pending bit and enters ivec + 12 * 17; the arrival interrupt of the lowest pending register n saves the pc, sets cause 0x21 with detail n and bit
63, sets hnd, clears the pending bit and enters ivec + 12 * n; both stated for a ready thread outside regions and pairs, which has no instruction
to issue again after a tile lock. The timer's expiry makes its interrupt pending when tie is set; the masked window ends at count 0; a packet
closes at its 64th instruction, enters the network when its receiver accepts it, and lands by filling all its registers; arrivals at a barrier
count once the writes before them are acknowledged; align and pair timeouts complete (a pair with D = 2); the trap 0x0F of a checksum fault is
taken, after the abort of an active region; a dead slot's scrub leaves it empty and zero. -/
def Obligations.ThreadEvents : Prop :=
  ∀ (s : State) (c i : Nat),
    let t := s.th c i
    let quiet : Prop := (s.slot c i).state = .ready ∧ t.pair = 0 ∧ t.region = none ∧ t.hnd = false ∧ t.pktOpen = false ∧ t.again = false
    (quiet → (s.part (s.partOf c i)).ephMode ≠ 2 → t.tpend = true → t.arrivalReady = false → ∃ u : State, exec (.timerInterrupt c i) s = .next u ∧ (¬ s.records c i → u.mem = s.mem) ∧
      (u.th c i).trapRegs = { t.trapRegs with epc := t.pc, cause := 0x8000000000000020 } ∧ (u.th c i).tie = false ∧ (u.th c i).tpend = false ∧
      (u.th c i).pc = t.ivec + 12 * 17 ∧ (u.th c i).mode = t.mode ∧ (u.th c i).resv = none ∧ (u.th c i).s = t.s) ∧
    (∀ n < 16, quiet → t.mie = true → t.imask = false → t.lowPend = some n → ∃ u : State, exec (.arrivalInterrupt c i) s = .next u ∧ u.mem = s.mem ∧
      (u.th c i).trapRegs = { t.trapRegs with epc := t.pc, cause := BitVec.ofNat 64 (0x21 + 256 * n + 2 ^ 63) } ∧ (u.th c i).hnd = true ∧
      (u.th c i).rm n = { t.rm n with pend := false } ∧ (u.th c i).pc = t.ivec + 12 * BitVec.ofNat 48 n ∧ (u.th c i).mode = t.mode ∧ (u.th c i).s = t.s) ∧
    (t.tie = true → t.timer = 0 → exec (.timerExpiry c i) s = .next (s.modTh c i fun x => { x with tpend := true })) ∧
    (t.imask = true → t.icnt = 0 → exec (.imaskWindowEnd c i) s = .next (s.modTh c i fun x => { x with imask := false })) ∧
    (∀ p, t.openPkt = some p → t.openClosed = false → 64 ≤ t.pktCount → t.closedPkt = none → t.released = [] → ∃ u : State, exec (.packetCountClose c i) s = .next u ∧
      (u.th c i).openPkt = none ∧ ((u.th c i).closedPkt.map (·.words)) = some p.words ∧ u.mem = s.mem) ∧
    (∀ (p : Packet) (u : State), t.closedPkt = some p → s.earlier c i p.after = false → p.id = 0 → t.openClosed = false →
      let q := { p with id := s.nextId }
      let x : State := { s with nextId := s.nextId + 1 }
      let h : HeldPkt := { fromCell := c, fromSlot := i, slot := p.slot, pkt := q, fn := s.threadFn c i }
      (x.accept h = some u → (u.th c i).openClosed = false →
        exec (.packetEnterNetwork c i) s = .next ((u.setTh c i { u.th c i with closedPkt := none }.shiftPkt).shiftReleased c i)) ∧
      (((s.cell p.cell).held.filter (·.slot = p.slot)).length < 4 → ∃ y, x.accept h = some y ∧ (y.cell p.cell).held = (s.cell p.cell).held ++ [h] ∧
        (y.th c i).openClosed = false) ∧
      (x.accept h = none → exec (.packetEnterNetwork c i) s =
        .next ((x.setTh c i { t with closedPkt := some q }).dueAt (s.cycle + 8) (.packetReoffer s.nextId)))) ∧
    (∀ (p : Packet), t.closedPkt = some p → (∀ d j y, (d, j, y) ∈ s.allSlots → (y.th.closedPkt.map (·.id)) = some p.id → (d, j) = (c, i)) →
      (c, i, s.slot c i) ∈ s.allSlots → exec (.packetReoffer p.id) s = .next (s.tryEnter c i)) ∧
    (∀ (h : HeldPkt), s.heldAt h.pkt.id = some (c, h) → s.canLand c h = true → h.slot = i → (s.slot c i).state = .ready → s.switchedOut c h.fn i = false →
      ∃ u : State, exec (.packetLanding h.pkt.id) s = .next u ∧ (¬ s.records c i → u.mem = s.mem) ∧ (∀ x ∈ (u.cell c).held, x.pkt.id ≠ h.pkt.id) ∧
      (∀ n v, (n, v) ∈ h.pkt.words → (∀ v', (n, v') ∈ h.pkt.words → v' = v) → ((u.th c i).rm n).full = true ∧ ((u.th c i).rm n).val = v) ∧
      (∀ n, h.pkt.int = some n → (∃ v, (n, v) ∈ h.pkt.words) → ((u.th c i).rm n).pend = true) ∧
      (∀ n, (∀ v, (n, v) ∉ h.pkt.words) → (u.th c i).rm n = t.rm n)) ∧
    (∀ fn n k, s.arrivals = [⟨c, i, fn, n, k⟩] → s.slicedAt c = none →
      (s.earlierOf c i fn k = false → exec (.barArrivalCount c i) s =
        .next (({ s with arrivals := [] } : State).modCell c fun x => x.setBar n ((x.bar n).count 1 0))) ∧
      (s.earlierOf c i fn k = true → exec (.barArrivalCount c i) s = .next (s.dueLater (.barCount c i)))) ∧
    (∀ w, (s.slot c i).pairWaits = some w → w.first + w.limit ≤ s.cycle → ∃ u : State, exec (.pairTimeout c i) s = .next u ∧ (u.th c i).pairWait = none ∧
      (∀ k : BitVec 6, w.d = .s k → k ≠ 0 → ((u.th c i).rs k.toNat).data = 2) ∧ (u.th c i).retired = t.retired + 1 ∧ u.mem = s.mem) ∧
    (∀ w, t.align = some w → w.first + w.limit ≤ s.cycle → (s.slot c i).state = .ready → w.addr = t.pc → ∃ u : State,
      exec (.alignTimeout c i) s = .next u ∧ (u.th c i).align = none ∧ (u.th c i).retired = t.retired + 1 ∧ (u.th c i).s = t.s ∧ u.mem = s.mem) ∧
    (∀ tile st, t.ckTrap = some (tile, st) → (s.slot c i).state = .ready → t.again = false → t.pktOpen = false → exec (.checksumFaultTrap c i) s =
      .next (((s.abortTh c i 0x43 0x0F).modTh c i fun x => { x with ckTrap := none }).takeTrap c i ⟨0x0F, tile, BitVec.ofNat 96 st, true⟩)) ∧
    ((s.slot c i).state = .dead → ∃ u : State, exec (.registerScrubDone c i) s = .next u ∧ (u.slot c i).state = .empty ∧ (u.slot c i).bind = none ∧
      (∀ n, (u.th c i).rs n = {}) ∧ (∀ n, (u.th c i).rv n = {}) ∧ u.mem = s.mem)

/-- COPY_SEGMENT_WRITE of an operation at work copies the bytes of its next destination segment as they stand, changes no other byte, and goes on at
the next segment or ends. CP_G_ENTRY_READ takes up the 16-byte entry (a nonzero reserved field ends the copy with 0x09 detail 0, a range outside a
capability with 0x07 detail 0, both at the entry's address). CPMX_CHAIN_ENQUEUE puts the command before later operations of its tile, else last,
when one waits or the queue has room. MATRIX_STEP of mx.zero zeroes exactly the slots of its mask; of an int8 product it adds the integer dot
products, of the operand segments as first read (07 R201), to the accumulators. ENGINE_COMPLETION removes the operation, counts its tag down, sets
the tag's done bit at 0 and its failed bit and record on failure. ENGINE_FAULT_RECORD writes the four words of the next record and leaves word 3
empty, or waits while every record awaits a reply or a throttled row holds it; ENGINE_FAULT_REPLY lets the operation go on (0) or ends it early
with cause 0x0B. Pools are stated where the ranges lie in pools. -/
def Obligations.EngineEvents : Prop :=
  (∀ (s : State) (id : Nat) (o : Op), s.op id = some o → o.runs = true → s.opWaits id o = false →
    (∀ seg d a n kd ks x y, isCopy o.kind = true → o.chain = false → s.launchKey o = .ok s none → nextSeg o.moves o.prog = some seg →
      frags o.moves seg = [(d, a, n, false)] → a % 64 + n ≤ 64 → s.spaceOf o.part o.cell o.user d n = .ok (some kd) →
      s.spaceOf o.part o.cell o.user a n = .ok (some ks) → kindOf kd = .pool x → kindOf ks = .pool y → s.tileHeld o kd n = false →
      s.notYet ks n = false → s.poisonAt ks n = none → ∃ t : State, exec (.copySegmentWrite id) s = .next t ∧
      (∀ j < n, readByte t.mem (kd + j) = readByte s.mem (ks + j)) ∧ (∀ b, b < kd ∨ kd + n ≤ b → readByte t.mem b = readByte s.mem b) ∧
      (nextSeg o.moves (seg + 64) ≠ none → t.op id = some { o with started := true, prog := seg + 64, fetched := [] }) ∧
      (nextSeg o.moves (seg + 64) = none → (∀ p q l r u v m, o.kind ≠ .copyMx p q l r u v m) →
        t.op id = some { o with started := true, prog := seg + 64, fetched := [], finished := true })) ∧
    (∀ src dst list n k x, o.kind = .gather src dst list n → o.entry < n → o.failed = none →
      let a := (list + 16 * o.entry) % 2 ^ 48
      let w := readNat s.mem k 16
      let from_ := w % 2 ^ 48
      let len := w / 2 ^ 64 % 2 ^ 32
      let into := (dst.addr + o.total) % 2 ^ 48
      let outside : Prop := (capCheck src [permRd, permEng] from_ len).isSome = true ∨ (capCheck dst [permWr, permEng] into len).isSome = true
      let reserved : Prop := w / 2 ^ 48 % 2 ^ 16 ≠ 0 ∨ w / 2 ^ 96 ≠ 0
      let good (v : Nat) : Prop := len = 0 ∨ ∃ q, s.spaceOf o.part o.cell o.user v len = .ok q
      a % 64 + 16 ≤ 64 → s.spaceOf o.part o.cell o.user a 16 = .ok (some k) → kindOf k = .pool x → s.notYet k 16 = false → s.poisonAt k 16 = none →
      ∃ t : State, exec (.cpGEntryRead id) s = .next t ∧ t.mem = s.mem ∧
      (reserved → t.op id = some { o with started := true, fetched := [], failed := some (0x09, 0, a) }) ∧
      (¬ reserved → outside → t.op id = some { o with started := true, fetched := [], failed := some (0x07, 0, a) }) ∧
      (¬ reserved → ¬ outside → good from_ → good into → t.op id = some { o with
        started := true, fetched := [], entry := o.entry + 1, total := o.total + len, pieces := o.pieces ++ [(into, from_, len, false)] }))) ∧
  (∀ (s : State) (id : Nat) (o : Op), s.op id = some o → o.runs = true → o.chain = true →
    let q := (s.cell o.cell).mxq
    let later (j : Nat) : Prop := id < j ∧ ∃ p, s.op j = some p ∧ p.tile = o.tile
    id ∉ q →
    (∀ a j b, q = a ++ j :: b → later j → (∀ i ∈ a, ¬ later i) → ∃ t : State, exec (.cpmxChainEnqueue id) s = .next t ∧
      (t.cell o.cell).mxq = a ++ id :: j :: b ∧ t.mem = s.mem) ∧
    ((∀ j ∈ q, ¬ later j) → q.length < 8 → ∃ t : State, exec (.cpmxChainEnqueue id) s = .next t ∧ (t.cell o.cell).mxq = q ++ [id] ∧ t.mem = s.mem) ∧
    ((∀ j ∈ q, ¬ later j) → 8 ≤ q.length → exec (.cpmxChainEnqueue id) s = .next s)) ∧
  (∀ (s : State) (c id : Nat) (rest : List Nat) (o : Op), (s.cell c).mxq = id :: rest → s.op id = some o → o.cell = c → o.runs = true →
    o.next ≤ s.cycle → s.heldByChain c id o = false →
    (∀ up again, s.opWaits id o = true ∨ s.tileAway o = true → exec (.matrixStep c up again) s = .next (s.dueLater (.matrixStep c))) ∧
    (s.opWaits id o = false → s.tileAway o = false →
    (∀ mask up again, o.kind = .zero mask → c < 1024 → s.opBase o + 1024 ≤ 1024 * 2 ^ 20 → ∃ t : State, exec (.matrixStep c up again) s = .next t ∧
      let named (i j : Nat) : Prop := mask.getLsbD i = true ∧ mask.getLsbD (16 + j) = true
      (∀ i < 16, ∀ j < 16, named i j → readNat t.mem (slotKey (s.opBase o) i j) 4 = 0) ∧
      (∀ a, (∀ i < 16, ∀ j < 16, named i j → a < slotKey (s.opBase o) i j ∨ slotKey (s.opBase o) i j + 4 ≤ a) →
        readByte t.mem a = readByte s.mem a) ∧ t.op id = some { o with finished := true }) ∧
    (∀ (m : Mma) (ka kb : Nat → Nat), o.kind = .mma m → m.quant = false → m.atag = 1 → m.btag = 1 → m.fmt = 2 → o.started = true →
      o.inject = false → o.acc.length = 256 → o.prog ≤ m.steps → m.rows ≠ [] → m.cols ≠ [] →
      let n := m.depthAt o.prog
      let seen (va : Nat) := (o.view.find? fun x => x.1 = va - va % 64).map (·.2)
      let plain (va key : Nat) : Prop := va % 64 + n ≤ 64 ∧ match seen va with
        | some (_, b) => ∀ j < n, b.getLsbD (va % 64 + j) = false
        | none => s.spaceOf o.part o.cell o.user (va - va % 64) 64 = .ok (some key) ∧ (∃ x, kindOf key = .pool x) ∧ s.notYet key 64 = false ∧
            s.poisonAt (key + va % 64) n = none
      let el (va key j : Nat) : Int := match seen va with
        | some (v, _) => (v.extractLsb' (8 * (va % 64 + j)) 8).toInt
        | none => (readByte s.mem (key + va % 64 + j)).toInt
      let va (r : Reg) (stride i : Nat) : Nat := (r.addr + (i * stride + 32 * o.prog)) % 2 ^ 48
      (∀ i ∈ m.rows, plain (va m.a m.astride i) (ka i)) →
      (∀ j ∈ m.cols, plain (va m.b m.bstride j) (kb j)) → ∃ (t : State) (o' : Op),
      exec (.matrixStep c [] []) s = .next t ∧ t.op id = some o' ∧ o'.prog = o.prog + 1 ∧ t.mem = s.mem ∧
      (o'.finished = true ↔ m.steps < o.prog + 1) ∧
      (∀ i < 16, ∀ j < 16, o'.acc.getD (16 * i + j) 0 = o.acc.getD (16 * i + j) 0 + if i ∈ m.rows ∧ j ∈ m.cols then
        ((List.range n).map fun k => el (va m.a m.astride i) (ka i) k * el (va m.b m.bstride j) (kb j) k).sum else 0)))) ∧
  (∀ (s : State) (id : Nat) (o : Op), s.op id = some o → o.finished = true → o.held = false → o.stop = none → o.peer = none →
    (∀ x ∈ s.reqs, x.2.engine ≠ some id) → s.doneHeld o = false → o.mma = none → ∃ t : State, exec (.engineCompletion id) s = .next t ∧
    (¬ (s.part o.part).ephMode = 1 → t.mem = s.mem) ∧ (∀ j, j ≠ id → t.op j = s.op j) ∧ id ∉ (t.cell o.cell).mxq ∧
    (∀ c n, o.compl = .tag c n → n < 64 →
      let left := (s.cell c).tcount.at n 0 - 1
      (t.cell c).tcount.at n 0 = left ∧ (t.cell c).tdone.getLsbD n = ((s.cell c).tdone.getLsbD n || decide (left = 0)) ∧
      (t.cell c).tfail.getLsbD n = ((s.cell c).tfail.getLsbD n || o.failed.isSome) ∧
      (∀ cause detail addr, o.failed = some (cause, detail, addr) → cause < 256 → detail < 256 → addr < 2 ^ 48 →
        (t.cell c).trec.at n 0 = BitVec.ofNat 64 (cause + detail * 2 ^ 8 + addr * 2 ^ 16)))) ∧
  (∀ (s : State) (id kind acc va fn cell slot asid : Nat) (o : Op), s.op id = some o → s.stopped id = some (kind, acc, va, fn, cell, slot, asid) →
    s.feHeld = [] →
    let n := (s.fnSt fn).faultN
    let size := 2 ^ fnEfqlog s.layout.active fn
    let key := keyHbm + fnEfqbase s.layout.active fn + 32 * (n % size)
    key % 8 = 0 → key + 32 ≤ 2 ^ 50 →
    ((∃ m ∈ (s.fnSt fn).faultOpen, m % size = n % size) → exec (.engineFaultRecord id) s = .next (s.dueLater (.faultRecord id))) ∧
    (∀ x, (∀ m ∈ (s.fnSt fn).faultOpen, m % size ≠ n % size) → s.holdFor none fn [(key, 32)] = some x →
      exec (.engineFaultRecord id) s = .next ((s.noteHeld fn 0 [(key, 32)]).dueLater (.faultRecord id))) ∧
    ((∀ m ∈ (s.fnSt fn).faultOpen, m % size ≠ n % size) → s.holdFor none fn [(key, 32)] = none → ∃ t : State, exec (.engineFaultRecord id) s = .next t ∧
    readNat t.mem key 8 = (kind + acc * 2 ^ 8 + cell * 2 ^ 16 + slot * 2 ^ 26 + asid * 2 ^ 32) % 2 ^ 64 ∧ readNat t.mem (key + 8) 8 = va % 2 ^ 64 ∧
    readNat t.mem (key + 16) 8 = n % 2 ^ 64 ∧ readNat t.mem (key + 24) 8 = 0 ∧ t.isFull (key + 24) = false ∧
    (∀ a, a < key ∨ key + 32 ≤ a → readByte t.mem a = readByte s.mem a) ∧ t.op id = some { o with fault := some (fn, n) })) ∧
  (∀ (s : State) (fn n id acc va : Nat) (o : Op), n ∈ (s.fnSt fn).faultOpen → s.isFull (s.replyKey fn n) = true →
    s.ops.find? (fun x => x.2.fault = some (fn, n)) = some (id, o) → o.stop = some (acc, va) → ∃ t : State,
    exec (.engineFaultReply fn n) s = .next t ∧ n ∉ (t.fnSt fn).faultOpen ∧ ((s.fnSt fn).killsHeld = [] → t.mem = s.mem) ∧
    t.op id = some (if readNat s.mem (s.replyKey fn n) 8 = 0 then { o with stop := none, fault := none }
      else { o with stop := none, fault := none, finished := true, failed := some (0x0B, acc, va) }))

/-! ### Rope, queue and prompter steps (08 R226-R246, 10, 12, 18 R366, 19) -/

/-- A rope command can execute now: it has neither ended nor started a walk, nothing stops it, and no command of its pool and no write of its thread
comes before it. -/
structure RopeStarts (s : State) (id : Nat) (r : RopeCmd) : Prop where
  cmd : s.cmds.look id = some r
  fresh : r.result = none ∧ r.walk = none ∧ r.stop = none ∧ r.held = false
  first : s.ropeFirst id r = false
  earlier : s.earlier r.cell r.slot id = false
/-- The byte that a command reaches at an address through a translation that its cell holds. -/
def RopeSees (s : State) (r : RopeCmd) (acc : Acc) (va k : Nat) : Prop :=
  (va + 63) / 2 ^ 44 < 14 ∧ s.owner r.asid.toNat = some r.fn ∧ ∃ e, tlbFind (s.cell r.cell).tlb r.asid.toNat va = some e ∧
    (acc = .load ∨ e.leaf.getLsbD 7 = true) ∧ leafOk e.leaf acc r.user = true ∧ s.landing e.leaf e.log va = some k
/-- The same for reads and writes alike. -/
def RopeHas (s : State) (r : RopeCmd) (va k : Nat) : Prop := RopeSees s r .load va k ∧ RopeSees s r .store va k
/-- No request is held at a controller, no row is throttled, and no row's count stands near its stack's limit (21 R436). -/
def RowsQuiet (s : State) : Prop :=
  s.throttled = [] ∧ ∀ k, 16 < (s.stack k).athr.toNat ∧ ∀ x ∈ (s.stack k).rows, x.slow = false ∧ x.count + 16 < (s.stack k).athr.toNat
/-- The 64 bytes of a node, the node, and the header of the pool whose node `n` lies at `key n`. -/
def Sys2Proof.Machine.State.wordIn (s : State) (key : Nat → Nat) (n : Nat) : W512 := BitVec.ofNat 512 (readNat s.mem (key n) 64)
def Sys2Proof.Machine.State.nodeIn (s : State) (key : Nat → Nat) (n : Nat) : Node := nodeOf (s.wordIn key n)
def Sys2Proof.Machine.State.hdrIn (s : State) (key : Nat → Nat) : Header := headerOf (s.wordIn key 0)
/-- The last node of the pending list, found from its head (12 R324). -/
def Sys2Proof.Machine.State.lastPend (s : State) (key : Nat → Nat) : Nat → Nat → Nat
  | 0, n => n
  | f + 1, n => if (s.nodeIn key n).count = 0 then n else s.lastPend key f (s.nodeIn key n).count
/-- The pool of a command, of which `m` nodes lie in HBM, apart from each other and without poison, with a valid schema and lists that stay in it
(12 R324). -/
structure PoolReady (s : State) (r : RopeCmd) (key : Nat → Nat) (m : Nat) : Prop where
  size : m < 2 ^ 32 ∧ r.pool.base + 64 * m ≤ 2 ^ 48 ∧ 0 < m
  has : ∀ n < m, RopeHas s r (r.pool.base + 64 * n) (key n) ∧ isHbm (key n) = true ∧ s.poisoned (key n) 64 = false
  apart : ∀ a < m, ∀ b < m, a ≠ b → key a + 64 ≤ key b ∨ key b + 64 ≤ key a
  quiet : RowsQuiet s ∧ s.feHeld = []
  schema : schemaBad (s.hdrIn key).schema = false
  bump : (s.hdrIn key).bump ≤ m ∧ (s.hdrIn key).bump ≤ (s.hdrIn key).freen + (s.hdrIn key).cap ∧ (s.hdrIn key).pendn + 1 < 2 ^ 32
  heads : ∀ l, l = s.hdrIn key → l.freeh < m ∧ l.pendh < m ∧ (l.freeh ≠ 0 → (s.nodeIn key l.freeh).free = true ∧ l.freen ≠ 0) ∧
    (l.pendh ≠ 0 → (s.nodeIn key l.pendh).pend = true)
  links : ∀ n, 0 < n → n < m → ∀ x, x = s.nodeIn key n → (x.free = true ∨ x.pend = true) → x.count < m ∧
    (x.count ≠ 0 → (x.free = true → (s.nodeIn key x.count).free = true) ∧ (x.pend = true → (s.nodeIn key x.count).pend = true))
  tail : ∀ n, (s.pools.at (key 0) {}).tail = some n → 0 < n ∧ n < m ∧ (s.nodeIn key n).pend = true
/-- A command that can execute on such a pool. -/
def RopeReady (s : State) (id : Nat) (r : RopeCmd) (key : Nat → Nat) (m : Nat) : Prop := RopeStarts s id r ∧ PoolReady s r key m
/-- A node that the checks of 12 R325 accept. -/
def Sys2Proof.Machine.State.live (s : State) (key : Nat → Nat) (n : Nat) : Prop :=
  let x := s.nodeIn key n
  n ≠ 0 ∧ n < (s.hdrIn key).bump ∧ nodeBad (s.wordIn key n) = false ∧ x.pend = false ∧ x.free = false ∧ x.count ≠ 0 ∧ (x.leaf = true → x.len ≠ 0) ∧
  (x.leaf = false → x.left ≠ 0 ∧ x.left < (s.hdrIn key).bump ∧ x.right ≠ 0 ∧ x.right < (s.hdrIn key).bump ∧
    x.h = 1 + max (s.nodeIn key x.left).h (s.nodeIn key x.right).h)
/-- A command executes and ends with these result words. -/
def RopeEnds (s t : State) (id : Nat) (ws : List W64) : Prop :=
  exec (.ropeCommandExecute id) s = .next t ∧ (t.cmds.look id).bind (·.result) = some ws
/-- The pool afterwards: its header, the nodes named, and every other byte of memory as before, but for the extents of `ex`. -/
def PoolNow (s t : State) (key : Nat → Nat) (h : Header) (l : List (Nat × W512)) (ex : List (Nat × Nat) := []) : Prop :=
  t.hdrIn key = h ∧ (∀ x ∈ l, t.wordIn key x.1 = x.2) ∧
  ∀ a, (h = s.hdrIn key ∨ a < key 0 ∨ key 0 + 64 ≤ a) → (∀ x ∈ l, a < key x.1 ∨ key x.1 + 64 ≤ a) → (∀ x ∈ ex, a < x.1 ∨ x.1 + x.2 ≤ a) →
    readByte t.mem a = readByte s.mem a
/-- A node with its count changed. -/
def Sys2Proof.Machine.State.withCount (s : State) (key : Nat → Nat) (n c : Nat) : Nat × W512 := (n, setBits (s.wordIn key n) 32 32 c)
/-- What a reference less does: the count falls, and a node whose count reaches 0 goes to the tail of the pending list (08 R235, R236). -/
def Sys2Proof.Machine.State.dropped (s : State) (key : Nat → Nat) (n : Nat) : Header × List (Nat × W512) :=
  let h := s.hdrIn key
  let c := (s.nodeIn key n).count
  let p := (n, setBits (setBits (s.wordIn key n) 32 32 0) 9 1 1)
  if c ≠ 1 then (h, [s.withCount key n (c - 1)])
  else if h.pendh = 0 then ({ h with pendh := n, pendn := h.pendn + 1 }, [p])
  else ({ h with pendn := h.pendn + 1 }, [s.withCount key ((s.pools.at (key 0) {}).tail.getD (s.lastPend key h.pendn h.pendh)) n, p])
/-- The id that an edit allocates next, and the header after it (08 R227). -/
def Sys2Proof.Machine.State.nextNode (s : State) (key : Nat → Nat) (h : Header) : Nat × Header :=
  if h.freeh = 0 then (h.bump, { h with bump := h.bump + 1 }) else (h.freeh, { h with freeh := (s.nodeIn key h.freeh).count, freen := h.freen - 1 })
/-- The bytes of a piece, which lie from `pk` on in HBM without poison. -/
def PieceSeen (s : State) (r : RopeCmd) (va pk n : Nat) : Prop :=
  va + n ≤ 2 ^ 48 ∧ s.poisonAt pk n = none ∧ ∀ j < n, RopeSees s r .load (va + j) (pk + j) ∧ isHbm (pk + j) = true
/-- The keys of `n` elements from `pk` on for a slot (08 R229). -/
def Sys2Proof.Machine.State.keysAt (s : State) (schema : W64) (x : SlotDef) (pk n : Nat) : List Int := (List.range n).map fun i =>
  let es := esizeOf schema
  if es < 2 then (readNat s.mem (pk + 2 ^ es * i) (2 ^ es) : Int)
  else
    let k := readNat s.mem (pk + 2 ^ es * i + 4 * x.koff) 4
    if x.fp then (k : Int) else (BitVec.ofNat 32 k).toInt
def Sys2Proof.Machine.State.slotsAt (s : State) (schema : W64) (pk n o : Nat) : List W64 := (slotsOf schema).map fun x => x.leafSum o (s.keysAt schema x pk n)
/-- The slot of a schema by number, and whether a node that stands at a position has a stale summary of it (08 R240). -/
def slotOf (schema : W64) (k : Nat) : SlotDef := (slotsOf schema).getD k ⟨0, false, false, 0⟩
def staleAt (schema : W64) (x : Node) (pos k : Nat) : Bool := (slotOf schema k).op = 6 && (slotOf schema k).abs && pos ≠ x.origin
/-- The summaries of a node that stands at a position. -/
def fixedAt (schema : W64) (x : Node) (pos : Nat) : List W64 := (List.range 4).map fun k =>
  let v := x.slots.getD k 0
  let c := x.slots.getD (k - 1) 0
  let d : Int := (pos : Int) - x.origin
  if staleAt schema x pos k then if (slotOf schema k).fp then BitVec.ofNat 64 (fsum [(1, lo32 v), (d, lo32 c)]) else v + BitVec.ofInt 64 d * c else v
def staleMask (schema : W64) (x : Node) (pos : Nat) : Nat := ((List.range 4).map fun k => if staleAt schema x pos k then 2 ^ k else 0).sum
/-- The fields of a node that an edit made (12 R322, R323). -/
def IsLeaf (w : W512) (n start paddr origin : Nat) (slots : List W64) : Prop :=
  let x := nodeOf w
  nodeBad w = false ∧ x.leaf = true ∧ x.h = 0 ∧ x.pend = false ∧ x.free = false ∧ x.count = 1 ∧ x.len = n ∧ x.start = start ∧ x.paddr = paddr ∧
  x.origin = origin ∧ x.slots = slots
def IsBranch (w : W512) (h len left right origin : Nat) (slots : List W64) : Prop :=
  let x := nodeOf w
  nodeBad w = false ∧ x.leaf = false ∧ x.h = h ∧ x.pend = false ∧ x.free = false ∧ x.count = 1 ∧ x.len = len ∧ x.left = left ∧ x.right = right ∧
  x.origin = origin ∧ x.slots = slots
/-- The elements of a tree in order, each by the address of its piece and its index in it. -/
inductive Holds (nd : Nat → Node) : Tree → List (Nat × Nat) → Prop where
  | empty : Holds nd (.old 0) []
  | leaf (p st n : Nat) : Holds nd (.leaf p st n) ((List.range n).map fun i => (p, st + i))
  | inner (l r : Tree) (h : Nat) (x y : List (Nat × Nat)) : Holds nd l x → Holds nd r y → Holds nd (.inner l r h (x.length + y.length)) (x ++ y)
  | oldLeaf (n : Nat) : n ≠ 0 → (nd n).leaf = true → (nd n).h = 0 →
      Holds nd (.old n) ((List.range (nd n).len).map fun i => ((nd n).paddr, (nd n).start + i))
  | oldInner (n : Nat) (x y : List (Nat × Nat)) : n ≠ 0 → (nd n).leaf = false → Holds nd (.old (nd n).left) x → Holds nd (.old (nd n).right) y →
      (nd n).len = x.length + y.length → Holds nd (.old n) (x ++ y)
/-- An int slot's prefix after one more key (08 R241). -/
def seekStep (op : Nat) (p : W64) (k : Int) : W64 :=
  if op = 1 then p + BitVec.ofInt 64 k else if op = 2 then if p.slt (BitVec.ofInt 64 k) then BitVec.ofInt 64 k else p else if k = 0 then p else p + 1
/-- A ring in a pool: its header at `kr` and the record that `head` numbers at `kc`, apart from each other, none of it outside what is exchanged. -/
def RingSeen (s : State) (r : RopeCmd) (kr kc : Nat) : Prop :=
  let cap := readNat s.mem (kr + 16) 8
  (∀ j ∈ [0, 8, 16], s.spaceOf r.part r.cell r.user ((r.d.addr + j) % 2 ^ 48) 8 = .ok (some (kr + j)) ∧ s.notYet (kr + j) 8 = false) ∧
  s.spaceOf r.part r.cell r.user r.d.addr 8 = .ok (some kr) ∧ (∃ x, kindOf kr = .pool x ∧ kindOf (kr + 16) = .pool x) ∧ (∃ x, kindOf kc = .pool x) ∧
  kindOf (kr + 8) = kindOf kr ∧ s.notYet kc 32 = false ∧
  s.spaceOf r.part r.cell r.user ((r.d.addr + 64 + 32 * (readNat s.mem kr 8 % cap)) % 2 ^ 48) 32 = .ok (some kc) ∧ (kc + 32 ≤ kr ∨ kr + 24 ≤ kc)

/-- ROPE_COMMAND_EXECUTE. schema formats the header, or answers 9; a pool outside HBM answers 8. pin and pin.h raise the root's count, unpin lowers
it, to the tail of the pending list at 0; a bad root answers 4, a count of 2^32 - 1 answers 7. pub at the expected version writes root and version
and lowers the old root, else pins the handle's root. leaf creates one leaf from the free list or bump, answers 8 outside the piece's bounds and 3
with no free node. cat of an empty rope raises the other; of heights at most 1 apart it makes a branch, or one leaf of contiguous leaves. split
answers 2 beyond the length, gives the whole at an end, the children at their boundary, and two leaves in a leaf. splice of nothing with nothing
raises the target, over the whole target the rope put in. For any shapes, join and split keep the elements in order. sum answers the identities,
whole nodes corrected where stale, partial leaves, and combines in order; seek finds the first element, or answers 5 or 6. walk raises its root,
or answers 2 or 10. WALK_RECORD_EMIT writes the next record to the ring and advances head, or sends it as a packet, or lowers the root and
answers; WALK_TAIL_POLL goes on when the ring has room, else polls again within 256 cycles. ROPE_RESULT_LANDING fills empty registers with the
result. NODE_RECLAIM moves a pending leaf, or a branch whose children lose a reference, to the free list, at most 64 in 1,000 cycles. Of several
statuses the order is log entry 60. -/
def Obligations.RopeEvents : Prop :=
  (∀ (s : State) (id : Nat) (r : RopeCmd) (k : Nat), RopeStarts s id r → engKey s r.asOp r.pool.base 64 .load = .ok s k →
    (isHbm k = false → ∃ t : State, RopeEnds s t id (8 :: List.replicate (ropeWords r.op - 1) 0) ∧ t.mem = s.mem) ∧
    (isHbm k = true → r.op = 0 → schemaBad r.b.data = true → ∃ t : State, RopeEnds s t id [9, 0] ∧ t.mem = s.mem) ∧
    (isHbm k = true → r.op = 0 → schemaBad r.b.data = false → engKey s r.asOp (r.pool.base % 2 ^ 48) 64 .store = .ok s k → s.holdFor (some id) r.fn [(k, 64)] = none →
      s.feHeld = [] → ∃ t : State,
      let cap := min (r.pool.len / 64) (2 ^ 32 - 1)
      RopeEnds s t id [0, BitVec.ofNat 64 cap] ∧
      readNat t.mem k 8 = r.b.data.toNat ∧ readNat t.mem (k + 8) 4 = 1 ∧ readNat t.mem (k + 12) 4 = cap ∧
      (∀ j < 48, readByte t.mem (k + 16 + j) = 0) ∧ (∀ a, a < k ∨ k + 64 ≤ a → readByte t.mem a = readByte s.mem a))) ∧
  (∀ (s : State) (id m : Nat) (r : RopeCmd) (key : Nat → Nat), RopeReady s id r key m →
    let hd := s.hdrIn key
    let nd := s.nodeIn key
    let a := r.b.data.toNat % 2 ^ 32
    let bad (n : Nat) : Prop := n ≠ 0 ∧ (hd.bump ≤ n ∨ nodeBad (s.wordIn key n) = true ∨ (nd n).pend = true ∨ (nd n).free = true ∨ (nd n).count = 0)
    (r.op = 8 → r.m.getLsbD 0 = false →
      (a = 0 → ∃ t, RopeEnds s t id [0, 0] ∧ t.mem = s.mem) ∧
      (s.live key a → (nd a).count + 1 < 2 ^ 32 → ∃ t, RopeEnds s t id [0, BitVec.ofNat 64 a] ∧ PoolNow s t key hd [s.withCount key a ((nd a).count + 1)]) ∧
      (s.live key a → (nd a).count + 1 = 2 ^ 32 → ∃ t, RopeEnds s t id [BitVec.ofNat 64 (7 + a * 2 ^ 16), 0] ∧ t.mem = s.mem) ∧
      (bad a → ∃ t, RopeEnds s t id [BitVec.ofNat 64 (4 + a * 2 ^ 16), 0] ∧ t.mem = s.mem)) ∧
    (r.op = 9 →
      (a = 0 → ∃ t, RopeEnds s t id [0] ∧ t.mem = s.mem) ∧
      (s.live key a → ∃ t, RopeEnds s t id [0] ∧ PoolNow s t key (s.dropped key a).1 (s.dropped key a).2) ∧
      (bad a → ∃ t, RopeEnds s t id [BitVec.ofNat 64 (4 + a * 2 ^ 16)] ∧ t.mem = s.mem)) ∧
    (∀ hk, isHbm hk = true → s.poisoned hk 16 = false → (∀ n < m, hk + 16 ≤ key n ∨ key n + 64 ≤ hk) →
      let w := readNat s.mem hk 8
      let old := w % 2 ^ 32
      let ver := w / 2 ^ 32
      (r.op = 8 → r.m.getLsbD 0 = true → RopeSees s r .load r.b.addr hk →
        (old = 0 → ∃ t, RopeEnds s t id [0, BitVec.ofNat 64 w] ∧ t.mem = s.mem) ∧
        (s.live key old → (nd old).count + 1 < 2 ^ 32 → ∃ t, RopeEnds s t id [0, BitVec.ofNat 64 w] ∧
          PoolNow s t key hd [s.withCount key old ((nd old).count + 1)])) ∧
      (r.op = 10 → RopeSees s r .rmw r.b.addr hk →
        let new := r.c0.toNat % 2 ^ 32 + (ver + 1) % 2 ^ 32 * 2 ^ 32
        (ver = r.c0.toNat / 2 ^ 32 → (old = 0 ∨ s.live key old) → ∃ t, RopeEnds s t id [0, BitVec.ofNat 64 new] ∧ readNat t.mem hk 16 = new ∧
          (old = 0 → PoolNow s t key hd [] [(hk, 16)]) ∧ (old ≠ 0 → PoolNow s t key (s.dropped key old).1 (s.dropped key old).2 [(hk, 16)])) ∧
        (ver ≠ r.c0.toNat / 2 ^ 32 → old = 0 → ∃ t, RopeEnds s t id [1, BitVec.ofNat 64 w] ∧ t.mem = s.mem) ∧
        (ver ≠ r.c0.toNat / 2 ^ 32 → s.live key old → (nd old).count + 1 < 2 ^ 32 → ∃ t, RopeEnds s t id [1, BitVec.ofNat 64 w] ∧
          PoolNow s t key hd [s.withCount key old ((nd old).count + 1)]))) ∧
    (r.op = 1 → let start := bits r.c0 0 32
      let n := bits r.c0 32 16
      let es := 2 ^ esizeOf hd.schema
      let inside : Prop := r.b.tag = true ∧ r.b.has permRd = true ∧ r.b.has permEng = true ∧ r.b.base ≤ r.b.addr + es * start ∧
        r.b.addr + es * start + es * n ≤ r.b.top
      (n = 0 → ∃ t, RopeEnds s t id [0, 0] ∧ t.mem = s.mem) ∧
      (n ≠ 0 → ¬ inside → ∃ t, RopeEnds s t id [8, 0] ∧ t.mem = s.mem) ∧
      (n ≠ 0 → inside → hd.freen + hd.cap < hd.bump + 1 → ∃ t, RopeEnds s t id [3, 0] ∧ t.mem = s.mem) ∧
      (∀ pk, n ≠ 0 → inside → hd.bump + 1 ≤ hd.freen + hd.cap → PieceSeen s r (r.b.addr + es * start) pk (es * n) →
        let i := s.nextNode key hd
        i.1 < m → ∃ t, RopeEnds s t id [2 ^ 16, BitVec.ofNat 64 i.1] ∧ PoolNow s t key i.2 [(i.1, t.wordIn key i.1)] ∧
          IsLeaf (t.wordIn key i.1) n start r.b.addr 0 (s.slotsAt hd.schema pk n 0))) ∧
    (r.op = 2 → let b := r.c0.toNat % 2 ^ 32
      let x := nd a
      let y := nd b
      (a = 0 → b = 0 → ∃ t, RopeEnds s t id [0, 0] ∧ t.mem = s.mem) ∧
      (∀ c, (a = 0 ∧ c = b ∨ b = 0 ∧ c = a) → s.live key c → (nd c).len < 2 ^ 48 → (nd c).count + 1 < 2 ^ 32 → ∃ t,
        RopeEnds s t id [0, BitVec.ofNat 64 c] ∧ PoolNow s t key hd [s.withCount key c ((nd c).count + 1)]) ∧
      (s.live key a → s.live key b →
        (2 ^ 48 ≤ x.len + y.len → ∃ t, RopeEnds s t id [2, 0] ∧ t.mem = s.mem) ∧
        (x.len + y.len < 2 ^ 48 → hd.freen + hd.cap < hd.bump + (max x.h y.h - min x.h y.h + 1) → ∃ t, RopeEnds s t id [3, 0] ∧ t.mem = s.mem) ∧
        (x.len + y.len < 2 ^ 48 → hd.bump + (max x.h y.h - min x.h y.h + 1) ≤ hd.freen + hd.cap → x.h ≤ y.h + 1 → y.h ≤ x.h + 1 →
          let merge : Prop := x.leaf = true ∧ y.leaf = true ∧ x.paddr = y.paddr ∧ x.start + x.len = y.start ∧ x.len + y.len < 2 ^ 16
          let i := s.nextNode key hd
          i.1 < m →
          (¬ merge → x.h < 127 → y.h < 127 → x.count + 2 < 2 ^ 32 → y.count + 2 < 2 ^ 32 → ∃ t, RopeEnds s t id [2 ^ 16, BitVec.ofNat 64 i.1] ∧
            PoolNow s t key i.2 ((i.1, t.wordIn key i.1) :: if a = b then [s.withCount key a (x.count + 2)] else
              [s.withCount key a (x.count + 1), s.withCount key b (y.count + 1)]) ∧
            IsBranch (t.wordIn key i.1) (1 + max x.h y.h) (x.len + y.len) a b 0
              (combine (slotsOf hd.schema) x.len (fixedAt hd.schema x 0) (fixedAt hd.schema y x.len))) ∧
          (∀ pk, merge → PieceSeen s r (x.paddr + 2 ^ esizeOf hd.schema * x.start) pk (2 ^ esizeOf hd.schema * (x.len + y.len)) → ∃ t,
            RopeEnds s t id [2 ^ 16, BitVec.ofNat 64 i.1] ∧ PoolNow s t key i.2 [(i.1, t.wordIn key i.1)] ∧
            IsLeaf (t.wordIn key i.1) (x.len + y.len) x.start x.paddr 0 (s.slotsAt hd.schema pk (x.len + y.len) 0))))) ∧
    (r.op = 3 → let p := r.c0.toNat
      let x := nd a
      (a = 0 → (p = 0 → ∃ t, RopeEnds s t id [0, 0] ∧ t.mem = s.mem) ∧ (p ≠ 0 → ∃ t, RopeEnds s t id [2, 0] ∧ t.mem = s.mem)) ∧
      (s.live key a → (x.len < p → ∃ t, RopeEnds s t id [2, 0] ∧ t.mem = s.mem) ∧
        (p ≤ x.len → hd.freen + hd.cap < hd.bump + (3 * x.h + 4) → ∃ t, RopeEnds s t id [3, 0] ∧ t.mem = s.mem) ∧
        (p ≤ x.len → hd.bump + (3 * x.h + 4) ≤ hd.freen + hd.cap → x.len ≠ 0 →
          (p = 0 ∨ p = x.len → x.count + 1 < 2 ^ 32 → ∃ t, RopeEnds s t id [0, BitVec.ofNat 64 (if p = 0 then a * 2 ^ 32 else a)] ∧
            PoolNow s t key hd [s.withCount key a (x.count + 1)]) ∧
          (p ≠ 0 → p ≠ x.len → x.leaf = false → p = (nd x.left).len → s.live key x.left → s.live key x.right → (nd x.left).count + 2 < 2 ^ 32 →
            (nd x.right).count + 2 < 2 ^ 32 → ∃ t, RopeEnds s t id [0, BitVec.ofNat 64 (x.left + x.right * 2 ^ 32)] ∧
            PoolNow s t key hd (if x.left = x.right then [s.withCount key x.left ((nd x.left).count + 2)] else
              [s.withCount key x.left ((nd x.left).count + 1), s.withCount key x.right ((nd x.right).count + 1)])) ∧
          (∀ pk, p ≠ 0 → p < x.len → x.leaf = true → x.start + p < 2 ^ 32 →
            PieceSeen s r (x.paddr + 2 ^ esizeOf hd.schema * x.start) pk (2 ^ esizeOf hd.schema * x.len) →
            let i := s.nextNode key hd
            let j := s.nextNode key i.2
            i.1 < m → j.1 < m → j.1 ≠ i.1 → j.1 ≠ 0 → ∃ t, RopeEnds s t id [2 * 2 ^ 16, BitVec.ofNat 64 (i.1 + j.1 * 2 ^ 32)] ∧
              PoolNow s t key j.2 [(i.1, t.wordIn key i.1), (j.1, t.wordIn key j.1)] ∧
              IsLeaf (t.wordIn key i.1) p x.start x.paddr 0 (s.slotsAt hd.schema pk p 0) ∧
              IsLeaf (t.wordIn key j.1) (x.len - p) (x.start + p) x.paddr 0 (s.slotsAt hd.schema (pk + 2 ^ esizeOf hd.schema * p) (x.len - p) 0))))) ∧
    (r.op = 4 → let b := r.b.data.toNat / 2 ^ 32
      let p := r.c0.toNat
      let q := r.c1.toNat
      let len (n : Nat) : Nat := if n = 0 then 0 else (nd n).len
      (a = 0 ∨ s.live key a) → (b = 0 ∨ s.live key b) →
      (q < p ∨ len a < q ∨ 2 ^ 48 ≤ len a - (q - p) + len b → ∃ t, RopeEnds s t id [2, 0] ∧ t.mem = s.mem) ∧
      (p ≤ q → q ≤ len a → len a - (q - p) + len b < 2 ^ 48 →
        let need := if a = 0 then 0 else 8 * max (nd a).h (if b = 0 then 0 else (nd b).h) + 16
        (hd.freen + hd.cap < hd.bump + need → ∃ t, RopeEnds s t id [3, 0] ∧ t.mem = s.mem) ∧
        (hd.bump + need ≤ hd.freen + hd.cap →
          (∀ c, (p = q ∧ b = 0 ∧ c = a ∨ p = 0 ∧ q = len a ∧ b ≠ 0 ∧ c = b) → c ≠ 0 → (a ≠ 0 → (nd a).len ≠ 0) → (nd c).count + 1 < 2 ^ 32 → ∃ t,
            RopeEnds s t id [0, BitVec.ofNat 64 c] ∧ PoolNow s t key hd [s.withCount key c ((nd c).count + 1)]) ∧
          (b = 0 → p = 0 → q = len a → (a = 0 ∨ q ≠ 0) → ∃ t, RopeEnds s t id [0, 0] ∧ t.mem = s.mem) ∧
          (a ≠ 0 → let x := nd a
            (∀ c, b = 0 → x.leaf = false → s.live key x.left → s.live key x.right → x.len = (nd x.left).len + (nd x.right).len →
              (nd x.left).len ≠ 0 → (nd x.right).len ≠ 0 → (p = 0 ∧ q = (nd x.left).len ∧ c = x.right ∨ p = (nd x.left).len ∧ q = x.len ∧ c = x.left) →
              (nd c).count + 1 < 2 ^ 32 → ∃ t, RopeEnds s t id [0, BitVec.ofNat 64 c] ∧ PoolNow s t key hd [s.withCount key c ((nd c).count + 1)]) ∧
            (∀ u v, b ≠ 0 → x.len ≠ 0 →
              (p = 0 ∧ q = 0 ∧ u = b ∧ v = a ∨ p = x.len ∧ q = x.len ∧ u = a ∧ v = b ∨
                x.leaf = false ∧ s.live key x.left ∧ s.live key x.right ∧ x.len = (nd x.left).len + (nd x.right).len ∧ (nd x.left).len ≠ 0 ∧ (nd x.right).len ≠ 0 ∧
                  (p = 0 ∧ q = (nd x.left).len ∧ u = b ∧ v = x.right ∨ p = (nd x.left).len ∧ q = x.len ∧ u = x.left ∧ v = b)) →
              (nd u).h ≤ (nd v).h + 1 → (nd v).h ≤ (nd u).h + 1 → (nd u).h < 127 → (nd v).h < 127 → (nd u).count + 2 < 2 ^ 32 → (nd v).count + 2 < 2 ^ 32 →
              ¬ ((nd u).leaf = true ∧ (nd v).leaf = true ∧ (nd u).paddr = (nd v).paddr ∧ (nd u).start + (nd u).len = (nd v).start ∧ (nd u).len + (nd v).len < 2 ^ 16) →
              let i := s.nextNode key hd
              i.1 < m → ∃ t, RopeEnds s t id [2 ^ 16, BitVec.ofNat 64 i.1] ∧
                PoolNow s t key i.2 ((i.1, t.wordIn key i.1) :: if u = v then [s.withCount key u ((nd u).count + 2)] else
                  [s.withCount key u ((nd u).count + 1), s.withCount key v ((nd v).count + 1)]) ∧
                IsBranch (t.wordIn key i.1) (1 + max (nd u).h (nd v).h) ((nd u).len + (nd v).len) u v 0
                  (combine (slotsOf hd.schema) (nd u).len (fixedAt hd.schema (nd u) 0) (fixedAt hd.schema (nd v) (nd u).len))))))) ∧
    (r.op = 5 → let p := r.c0.toNat
      let q := r.c1.toNat
      let x := nd a
      let ids : List W64 := (slotsOf hd.schema).map (·.identity)
      let sc := hd.schema
      (a = 0 → (p = 0 → q = 0 → ∃ t, RopeEnds s t id (0 :: ids) ∧ t.mem = s.mem) ∧ (p ≠ 0 ∨ q ≠ 0 → ∃ t, RopeEnds s t id [2, 0, 0, 0, 0] ∧ t.mem = s.mem)) ∧
      (s.live key a → (q < p ∨ x.len < q → ∃ t, RopeEnds s t id [2, 0, 0, 0, 0] ∧ t.mem = s.mem) ∧
        (p = q → q ≤ x.len → ∃ t, RopeEnds s t id (0 :: ids) ∧ t.mem = s.mem) ∧
        (p = 0 → q = x.len → q ≠ 0 → ∃ t, RopeEnds s t id (BitVec.ofNat 64 (staleMask sc x 0 * 2 ^ 8) :: fixedAt sc x 0) ∧ t.mem = s.mem) ∧
        (∀ pk, x.leaf = true → p < q → q ≤ x.len → (p ≠ 0 ∨ q ≠ x.len) →
          PieceSeen s r (x.paddr + 2 ^ esizeOf sc * (x.start + p)) pk (2 ^ esizeOf sc * (q - p)) → ∃ t,
          RopeEnds s t id (0 :: s.slotsAt sc pk (q - p) p) ∧ t.mem = s.mem) ∧
        (x.leaf = false → s.live key x.left → s.live key x.right → x.len = (nd x.left).len + (nd x.right).len →
          let l := nd x.left
          let y := nd x.right
          (p = 0 → q = l.len → 0 < q → q < x.len → ∃ t, RopeEnds s t id (BitVec.ofNat 64 (staleMask sc l 0 * 2 ^ 8) :: fixedAt sc l 0) ∧ t.mem = s.mem) ∧
          (p = l.len → q = x.len → 0 < p → p < q → ∃ t, RopeEnds s t id (BitVec.ofNat 64 (staleMask sc y p * 2 ^ 8) :: fixedAt sc y p) ∧ t.mem = s.mem) ∧
          (∀ pk, l.leaf = true → 0 < p → p < l.len → q = x.len → l.len < q →
            PieceSeen s r (l.paddr + 2 ^ esizeOf sc * (l.start + p)) pk (2 ^ esizeOf sc * (l.len - p)) → ∃ t,
            RopeEnds s t id (BitVec.ofNat 64 (staleMask sc y l.len * 2 ^ 8) ::
              combine (slotsOf sc) (l.len - p) (s.slotsAt sc pk (l.len - p) p) (fixedAt sc y l.len)) ∧ t.mem = s.mem)))) ∧
    (r.op = 6 → let k := r.m.toNat % 4
      let d := slotOf hd.schema k
      let x := nd a
      let v := r.c0
      (d.op ≠ 1 → d.op ≠ 2 → d.op ≠ 4 → ∃ t, RopeEnds s t id [5, 0, 0] ∧ t.mem = s.mem) ∧
      (d.op = 1 ∨ d.op = 2 ∨ d.op = 4 → d.fp = false →
        (a = 0 → (v.sle d.identity = true → ∃ t, RopeEnds s t id [0, 0, d.identity] ∧ t.mem = s.mem) ∧
          (v.sle d.identity = false → ∃ t, RopeEnds s t id [6, 0, d.identity] ∧ t.mem = s.mem)) ∧
        (s.live key a → v.sle (x.slots.getD k 0) = false → ∃ t, RopeEnds s t id [6, BitVec.ofNat 64 x.len, x.slots.getD k 0] ∧ t.mem = s.mem) ∧
        (∀ pk, s.live key a → v.sle (x.slots.getD k 0) = true → x.leaf = true →
          PieceSeen s r (x.paddr + 2 ^ esizeOf hd.schema * x.start) pk (2 ^ esizeOf hd.schema * x.len) →
          let pre (j : Nat) : W64 := ((s.keysAt hd.schema d pk x.len).take j).foldl (seekStep d.op) d.identity
          (∀ j < x.len, v.sle (pre (j + 1)) = true → (∀ i < j, v.sle (pre (i + 1)) = false) → ∃ t,
            RopeEnds s t id [0, BitVec.ofNat 64 j, pre j] ∧ t.mem = s.mem) ∧
          ((∀ j < x.len, v.sle (pre (j + 1)) = false) → ∃ t, RopeEnds s t id [6, BitVec.ofNat 64 x.len, x.slots.getD k 0] ∧ t.mem = s.mem)) ∧
        (∀ pk, s.live key a → v.sle (x.slots.getD k 0) = true → x.leaf = false → s.live key x.left → s.live key x.right → d.op = 1 →
          let l := nd x.left
          let left : Bool := v.sle (l.slots.getD k 0)
          let y := if left then l else nd x.right
          let from_ : W64 := if left then 0 else l.slots.getD k 0
          let pre (j : Nat) : W64 := ((s.keysAt hd.schema d pk y.len).take j).foldl (seekStep 1) from_
          y.leaf = true → PieceSeen s r (y.paddr + 2 ^ esizeOf hd.schema * y.start) pk (2 ^ esizeOf hd.schema * y.len) →
          ∀ j < y.len, v.sle (pre (j + 1)) = true → (∀ i < j, v.sle (pre (i + 1)) = false) → ∃ t,
            RopeEnds s t id [0, BitVec.ofNat 64 ((if left then 0 else l.len) + j), pre j] ∧ t.mem = s.mem))) ∧
    (r.op = 7 → (a = 0 ∨ s.live key a ∧ (nd a).count + 1 < 2 ^ 32) →
      let len := if a = 0 then 0 else (nd a).len
      let ok : Prop := r.c0.toNat ≤ r.c1.toNat ∧ r.c1.toNat ≤ len
      let runs : Prop := (ok → ∃ (t : State) (r' : RopeCmd) (w : Walk), exec (.ropeCommandExecute id) s = .next t ∧ t.cmds.look id = some r' ∧
          r'.result = none ∧ r'.walk = some w ∧ w.root = a ∧ w.pos = r.c0.toNat ∧ w.fin = r.c1.toNat ∧ w.records = 0 ∧ w.stale = false ∧
          w.acc = (slotOf hd.schema (r.m.toNat / 2 % 4)).identity ∧ (∃ c, (c, Due.walkEmit id) ∈ t.later) ∧
          PoolNow s t key hd (if a = 0 then [] else [s.withCount key a ((nd a).count + 1)])) ∧
        (¬ ok → ∃ t, RopeEnds s t id [2, 0] ∧ t.mem = s.mem)
      (r.m.getLsbD 0 = true → (physOf r.part (bits r.d.data 0 10) = none → ∃ t, RopeEnds s t id [2, 0] ∧ t.mem = s.mem) ∧
        ((physOf r.part (bits r.d.data 0 10)).isSome = true → runs)) ∧
      (∀ kr x, r.m.getLsbD 0 = false → s.spaceOf r.part r.cell r.user ((r.d.addr + 16) % 2 ^ 48) 8 = .ok (some kr) → kindOf kr = .pool x → s.notYet kr 8 = false →
        let cap := readNat s.mem kr 8
        let good : Prop := (∃ e ≤ 15, cap = 2 ^ e) ∧ r.d.base ≤ r.d.addr ∧ r.d.addr + 64 + 32 * cap ≤ r.d.top
        (good → runs) ∧ (¬ good → ∃ t, RopeEnds s t id [10, 0] ∧ t.mem = s.mem)))) ∧
  (∀ (s : State) (id m : Nat) (r : RopeCmd) (key : Nat → Nat) (a b t : Tree) (x y : List (Nat × Nat)) (g : Rig), PoolReady s r key m →
    Holds (s.nodeIn key) a x → Holds (s.nodeIn key) b y → join a b (s.rig id r) = (.ok t, g) →
    Holds (s.nodeIn key) t (x ++ y) ∧ g.nodes = [] ∧ g.s.mem = s.mem) ∧
  (∀ (s : State) (id m n p : Nat) (r : RopeCmd) (key : Nat → Nat) (u v : Tree) (x : List (Nat × Nat)) (g : Rig), PoolReady s r key m →
    Holds (s.nodeIn key) (.old n) x → p ≤ x.length → split 128 (.old n) p (s.rig id r) = (.ok (u, v), g) →
    Holds (s.nodeIn key) u (x.take p) ∧ Holds (s.nodeIn key) v (x.drop p) ∧ g.nodes = [] ∧ g.s.mem = s.mem) ∧
  (∀ (s : State) (id : Nat) (r : RopeCmd) (ws : List W64), s.cmds.look id = some r → r.result = some ws → r.pkt = 0 → s.resultWaits r = false →
    let u := s.th r.cell r.slot
    (s.slot r.cell r.slot).state = .ready → s.switchedOut r.cell (some r.fn) r.slot = false → u.pair = 0 →
    (s.part (s.partOf r.cell r.slot)).ephMode ≠ 2 → (∀ x ∈ (s.cell r.cell).held, x.slot ≠ r.slot) →
    (∀ y ∈ s.cells, ∀ x ∈ y.2.held, x.pkt.id ≠ s.nextId) → (∀ k < ws.length, (u.rm (r.mreg + k)).full = false) → ∃ t : State,
    exec (.ropeResultLanding id) s = .next t ∧ (∀ k w, ws[k]? = some w → ((t.th r.cell r.slot).rm (r.mreg + k)).full = true ∧
      ((t.th r.cell r.slot).rm (r.mreg + k)).val = w) ∧ (∀ x ∈ t.cmds, x.2.pkt ≠ s.nextId) ∧ (¬ s.records r.cell r.slot → t.mem = s.mem) ∧
    (t.th r.cell r.slot).s = u.s ∧ (t.th r.cell r.slot).pc = u.pc) ∧
  (∀ (s : State) (id : Nat) (r : RopeCmd) (w : Walk), s.cmds.look id = some r → r.walk = some w → r.result = none → r.stop = none → r.held = false →
    (∀ k, r.givenUp = none → w.fin ≤ w.pos → w.root = 0 → r.op = 7 → engKey s r.asOp r.pool.base 64 .load = .ok s k → isHbm k = true → ∃ t : State,
      exec (.walkRecordEmit id) s = .next t ∧ (t.cmds.look id).bind (·.result) = some
      [BitVec.ofNat 64 ((if w.stale then 2 ^ (r.m.toNat / 2 % 4) else 0) * 2 ^ 8 + w.records % 2 ^ 32 * 2 ^ 16), BitVec.ofNat 64 w.fin] ∧
      t.mem = s.mem) ∧
    (∀ (k : Nat → Nat), r.m.getLsbD 0 = false → (∀ j ∈ [0, 8, 16], s.spaceOf r.part r.cell r.user ((r.d.addr + j) % 2 ^ 48) 8 = .ok (some (k j)) ∧
        (∃ x, kindOf (k j) = .pool x) ∧ s.notYet (k j) 8 = false) →
      let ring (j : Nat) : Nat := readNat s.mem (k j) 8
      let full : Prop := (ring 0 + 2 ^ 64 - ring 8) % 2 ^ 64 = ring 16
      ∃ t : State, exec (.walkTailPoll id) s = .next t ∧ t.mem = s.mem ∧ (¬ full → Due.walkEmit id ∈ t.due) ∧
        (full → ∃ c, (c, Due.tailPoll id) ∈ t.later ∧ s.cycle < c ∧ c ≤ s.cycle + 256))) ∧
  (∀ (s : State) (id m : Nat) (r : RopeCmd) (w : Walk) (key : Nat → Nat), s.cmds.look id = some r → r.walk = some w → r.op = 7 → r.result = none → r.stop = none →
    r.held = false → r.givenUp = none → PoolReady s r key m →
    let hd := s.hdrIn key
    let nd := s.nodeIn key
    let done : W64 := BitVec.ofNat 64 ((if w.stale then 2 ^ (r.m.toNat / 2 % 4) else 0) * 2 ^ 8 + w.records % 2 ^ 32 * 2 ^ 16)
    (w.fin ≤ w.pos → (w.root = 0 ∨ s.live key w.root) → ∃ t : State, exec (.walkRecordEmit id) s = .next t ∧
      (t.cmds.look id).bind (·.result) = some [done, BitVec.ofNat 64 w.fin] ∧
      (w.root = 0 → t.mem = s.mem) ∧ (w.root ≠ 0 → PoolNow s t key (s.dropped key w.root).1 (s.dropped key w.root).2)) ∧
    (∀ c at_ pre st, w.pos < w.fin → s.live key w.root →
      let x := nd w.root
      (x.leaf = true ∧ c = w.root ∧ at_ = 0 ∨
        x.leaf = false ∧ s.live key x.left ∧ s.live key x.right ∧ (w.pos < (nd x.left).len ∧ c = x.left ∧ at_ = 0 ∨ (nd x.left).len ≤ w.pos ∧ c = x.right ∧ at_ = (nd x.left).len)) →
      s.live key c → (nd c).leaf = true → at_ ≤ w.pos → w.pos < at_ + (nd c).len →
      (w.pos = r.c0.toNat ∧ pre = w.acc ∧ st = w.stale ∨
        r.c0.toNat = 0 ∧ w.pos ≠ 0 ∧ x.leaf = false ∧ (nd x.left).leaf = true ∧ w.pos = (nd x.left).len ∧
          pre = (fixedAt hd.schema (nd x.left) 0).getD (r.m.toNat / 2 % 4) 0 ∧ st = (w.stale || staleAt hd.schema (nd x.left) 0 (r.m.toNat / 2 % 4))) →
      let stop := min w.fin (at_ + (nd c).len)
      let ps := (nd c).start + (w.pos - at_)
      let v := ((nd c).paddr + 2 ^ esizeOf hd.schema * ps) % 2 ^ 48 + (stop - w.pos) * 2 ^ 48 + w.pos % 2 ^ 64 * 2 ^ 64 + pre.toNat * 2 ^ 128 + c * 2 ^ 192 +
        ps % 2 ^ 32 * 2 ^ 224
      let on (t : State) : Prop := ∃ r' w', t.cmds.look id = some r' ∧ r'.walk = some w' ∧ r'.result = none ∧ w'.root = w.root ∧ w'.fin = w.fin ∧ w'.pos = stop ∧
        w'.records = w.records + 1 ∧ w'.stale = st ∧ w'.acc = pre ∧ ∃ e, (e, Due.walkEmit id) ∈ t.later
      (∀ kr kc, r.m.getLsbD 0 = false → RingSeen s r kr kc →
        (readNat s.mem kr 8 + 2 ^ 64 - readNat s.mem (kr + 8) 8) % 2 ^ 64 ≠ readNat s.mem (kr + 16) 8 → ∃ t, exec (.walkRecordEmit id) s = .next t ∧ on t ∧
        readNat t.mem kc 32 = v ∧ readNat t.mem kr 8 = (readNat s.mem kr 8 + 1) % 2 ^ 64 ∧
        ∀ a, (a < kr ∨ kr + 8 ≤ a) → (a < kc ∨ kc + 32 ≤ a) → readByte t.mem a = readByte s.mem a) ∧
      (∀ kr kc, r.m.getLsbD 0 = false → RingSeen s r kr kc →
        (readNat s.mem kr 8 + 2 ^ 64 - readNat s.mem (kr + 8) 8) % 2 ^ 64 = readNat s.mem (kr + 16) 8 → ∃ t, exec (.walkRecordEmit id) s = .next t ∧ t.mem = s.mem ∧
        (∃ c, (c, Due.tailPoll id) ∈ t.later ∧ s.cycle < c ∧ c ≤ s.cycle + 256)) ∧
      (∀ d, r.m.getLsbD 0 = true → physOf r.part (bits r.d.data 0 10) = some d → ((s.cell d).held.filter fun x => x.slot = bits r.d.data 10 4).length < 4 →
        ∃ (t : State) (h : HeldPkt), exec (.walkRecordEmit id) s = .next t ∧ on t ∧ t.mem = s.mem ∧ (t.cell d).held = (s.cell d).held ++ [h] ∧
          h.slot = bits r.d.data 10 4 ∧
          h.pkt.words = (List.range 4).map fun k => (bits r.d.data 14 4 + k, BitVec.ofNat 64 (v / 2 ^ (64 * k)))))) ∧
  (∀ (s : State) (pool : Nat) (r : RopeCmd) (n kh kn : Nat) (h : Header) (x : Node), (s.pools.at pool {}).last = some r →
    let recent := (s.rigs.at ((stackOf (hbmOff pool)).getD 0) {}).reclaims.filter fun c => decide (s.cycle < c + 1000)
    (∀ c l, recent = c :: l → 64 ≤ recent.length → exec (.nodeReclaim pool) s = .next (s.dueAt (c + 1000) (.reclaim pool))) ∧
    (recent.length < 64 → kh = pool → h = headerOf (BitVec.ofNat 512 (readNat s.mem kh 64)) → h.pendn ≠ 0 → h.pendh = n → n ≠ 0 →
      x = nodeOf (BitVec.ofNat 512 (readNat s.mem kn 64)) → x.leaf = true → isHbm kh = true → isHbm kn = true → kh + 64 ≤ kn ∨ kn + 64 ≤ kh →
      RopeHas s r r.pool.base kh → RopeHas s r ((r.pool.base + 64 * n) % 2 ^ 48) kn → RowsQuiet s → r.pool.base < 2 ^ 48 → s.poisoned kh 64 = false → s.poisoned kn 64 = false → s.feHeld = [] → h.freen + 1 < 2 ^ 32 → ∃ t : State,
      let h' := headerOf (BitVec.ofNat 512 (readNat t.mem kh 64))
      let x' := nodeOf (BitVec.ofNat 512 (readNat t.mem kn 64))
      exec (.nodeReclaim pool) s = .next t ∧ h' = { h with pendh := x.count, pendn := h.pendn - 1, freeh := n, freen := h.freen + 1 } ∧
      x' = { x with count := h.freeh, pend := false, free := true } ∧
      (∀ a, (a < kh ∨ kh + 64 ≤ a) → (a < kn ∨ kn + 64 ≤ a) → readByte t.mem a = readByte s.mem a)) ∧
    (∀ m (key : Nat → Nat), recent.length < 64 → PoolReady s r key m → key 0 = pool →
      let hd := s.hdrIn key
      let n := hd.pendh
      let y := s.nodeIn key n
      hd.pendn ≠ 0 → n ≠ 0 → y.leaf = false → y.left ≠ y.right → s.live key y.left → s.live key y.right → 1 < (s.nodeIn key y.left).count →
      1 < (s.nodeIn key y.right).count → hd.freen + 1 < 2 ^ 32 → ∃ t, exec (.nodeReclaim pool) s = .next t ∧
      PoolNow s t key { hd with pendh := y.count, pendn := hd.pendn - 1, freeh := n, freen := hd.freen + 1 }
        [(n, setBits (setBits (setBits (s.wordIn key n) 32 32 hd.freeh) 9 1 0) 10 1 1), s.withCount key y.left ((s.nodeIn key y.left).count - 1),
         s.withCount key y.right ((s.nodeIn key y.right).count - 1)]))

/-- STAGE_REFILL moves the oldest spilled item behind the SRAM part. HEAD_PACKET_READ takes up the head entry, or drops one it cannot read.
DISPATCH_EVENT at a multiple of 24 cycles with an eligible queue starts a decision at word 0 with q0 to q7 zero, in the cycle of a swap on the old
program; TICK_EVENT sets the tick pending; CONTROL_EVENT_TAKE starts the first fault, else yield, else tick. DECISION_OVERRUN counts, sets lasterr
1, drops the emits, tells the management core and hands the event to the fixed policy, whose FIXED_POLICY_DECISION binds an eligible queue of the
highest head priority, of equal ones the first after the queue last bound at that priority, wrapping round; it defers when none is eligible, and
forwards a fault. GANG_PLACEMENT sends an outcome word, reserves a placeable gang's slots under the token, ends a malformed q.gang with outcome 2,
and one whose reservations fail, or whose partition a layout commit changes, with 1. CUE_LOAD starts verification, and clears stvalid at its start
(log entry 43); CUE_LOAD_VERIFIED makes the image the standby program, where its signature verifies under the owner key, or sets lasterr 7;
CUE_SWAP of a valid standby program exchanges active and standby, and decisions that start after the cycle run the new one with q8 to q15 zeroed.
FORWARDED_FAULT_RESOLUTION kills the thread or enters the firmware's handler in machine mode. -/
def Obligations.QueueAndPrompterEvents : Prop :=
  (∀ (s u : State) (p n k : Nat) (q : Stage), s.stage (stageKey p n) = some q → q.spCount ≠ 0 → q.count < q.qcap → q.killed = false → q.parked = [] →
    (∀ x ∈ s.spills, ¬ (x.2.stage = stageKey p n ∧ x.2.refill = true)) → s.stageHere (stageKey p n) q = true →
    s.spillKey q (q.spillVa 0) .load false = (u, .ok k) → isHbm k = true → u.poisonAt k 64 = none → q.home < 1024 → q.ring + 64 * q.qcap ≤ 2 ^ 20 → ∃ t : State, exec (.stageRefill p n) s = .next t ∧
    readNat t.mem (q.slotKey q.count) 64 = readNat u.mem k 64 ∧
    (∀ a, a < q.slotKey q.count ∨ q.slotKey q.count + 64 ≤ a → readByte t.mem a = readByte u.mem a) ∧
    (t.stage (stageKey p n)).map (fun x => (x.count, x.spCount, x.spHead)) = some (q.count + 1, q.spCount - 1, (q.spHead + 1) % q.scap)) ∧
  (∀ (s u : State) (q : Nat) (o : Walked Nat), let x := s.queue q
    qEn x.ctx = true → x.depth ≠ 0 → x.head = none → x.parked = [] → x.dropping = false →
    s.devRead (qVf x.ctx) (qAsid x.ctx) (entryVa x.ctx (qHead x.ctx)) 64 = (u, o) →
    (∀ v, o = .ok v → ∃ t : State, exec (.headPacketRead q) s = .next t ∧ (t.queue q).head = some (BitVec.ofNat 512 v) ∧ t.mem = u.mem) ∧
    (∀ c, o = .held c → exec (.headPacketRead q) s = .next (u.dueAt c (.headRead q))) ∧
    (o = .fault → ∃ t : State, exec (.headPacketRead q) s = .next t ∧ (t.queue q).head = none ∧ qHead (t.queue q).ctx = (qHead x.ctx + 1) % 2 ^ 32)) ∧
  (∀ (s : State) (p : Nat), let e := s.engine p false
    s.cycle % 24 = 0 → e.event = none → e.ended = 0 ∨ e.ended < s.cycle →
    (∃ q ∈ s.localQueues p, s.eligible p q = true) → s.frozen p = false → ∃ t : State, exec (.dispatchEvent p) s = .next t ∧ t.mem = s.mem ∧
    let x := t.engine p false
    x.event = some .dispatch ∧ x.pc = 0 ∧ x.steps = 0 ∧ x.emits = [] ∧ x.prog = (s.part p).swapFrom.getD (s.part p).active ∧ (∀ j < 8, x.q.at j 0 = 0)) ∧
  (∀ (s : State) (p : Nat), (s.part p).tick ≠ 0 → (s.part p).ctl.event ≠ some .tick → ∃ t : State, exec (.tickEvent p) s = .next t ∧
    (t.part p).tickPend = true ∧ Due.control p ∈ t.due) ∧
  (∀ (s : State) (p : Nat), let d := leadDie p
    (s.engine p true).event = none →
    (∀ a e b, (s.die d).faults = a ++ (p, e) :: b → (∀ x ∈ a, x.1 ≠ p) → ∃ t : State, exec (.controlEventTake p) s = .next t ∧
      (t.engine p true).event = some e ∧ (t.die d).faults = a ++ b) ∧
    ((∀ x ∈ (s.die d).faults, x.1 ≠ p) → ∀ a c i g b, (s.die d).yields = a ++ (p, c, i, g) :: b → (∀ x ∈ a, x.1 ≠ p) → ∃ t : State,
      exec (.controlEventTake p) s = .next t ∧ (t.engine p true).event = some (.yield c i g) ∧ (t.die d).yields = a ++ b) ∧
    ((∀ x ∈ (s.die d).faults, x.1 ≠ p) → (∀ x ∈ (s.die d).yields, x.1 ≠ p) → (s.part p).tickPend = true → ∃ t : State,
      exec (.controlEventTake p) s = .next t ∧ (t.engine p true).event = some .tick ∧ (t.part p).tickPend = false)) ∧
  (∀ (s : State) (p : Nat) (ctl : Bool), let e := s.engine p ctl
    (e.event.isSome = true → e.fixed = false → e.writing = none → e.budget ≤ e.steps → ∃ t : State, exec (.decisionOverrun p ctl) s = .next t ∧
      (t.part p).lasterr = 1 ∧ (t.part p).ovcnt = (if (s.part p).ovcnt = BitVec.allOnes 32 then BitVec.allOnes 32 else (s.part p).ovcnt + 1) ∧
      (t.part p).errcnt = (s.part p).errcnt ∧ (t.engine p ctl).fixed = true ∧ (t.engine p ctl).emits = [] ∧ (t.engine p ctl).event = e.event ∧
      t.out = s.out ++ [.coreIrq p 1] ∧ (s.cycle + 8, Due.fixedPolicy p ctl) ∈ t.later) ∧
    (∀ ev, e.event = some ev → e.fixed = true → e.writing = none → ∃ l, exec (.fixedPolicyDecision p ctl) s =
        .next (s.setEngine p ctl { e with emits := l, writing := some (s.cycle + 2) }) ∧
      (ev = .dispatch → (∀ q ∈ s.localQueues p, s.eligible p q = false) → l = [.defer]) ∧
      (ev = .dispatch → (∃ q ∈ s.localQueues p, s.eligible p q = true) → ∃ q, l = [.bind q] ∧ q ∈ s.localQueues p ∧ s.eligible p q = true ∧
        (∀ r ∈ s.localQueues p, s.eligible p r = true → headPrio (s.queue r) ≤ headPrio (s.queue q)) ∧
        ((s.localQueues p).Pairwise (· < ·) →
          let same (r : Nat) : Prop := r ∈ s.localQueues p ∧ s.eligible p r = true ∧ headPrio (s.queue r) = headPrio (s.queue q)
          ((s.part p).lastPrio.look (headPrio (s.queue q)) = none → ∀ r, same r → q ≤ r) ∧
          (∀ b, (s.part p).lastPrio.look (headPrio (s.queue q)) = some b → (b < q ∧ ∀ r, same r → b < r → q ≤ r) ∨ ∀ r, same r → r ≤ b ∧ q ≤ r))) ∧
      (∀ c i g a b v, ev = .fault c i g a b v → l = [.fwd]) ∧ (ev = .tick → l = []) ∧ (∀ c i g, ev = .yield c i g → l = []))) ∧
  (∀ (s : State) (d : Nat) (g : Gang), let l := (s.die d).gangs
    (∀ h ∈ l, h.half = false ∧ h.plan = none) → l.find? (fun h => h.moves s) = some g →
    (∀ n, g.outcome = some n → ((s.cell g.tcell).held.filter fun x => x.slot = g.tslot).length < 4 → ∃ (t : State) (h : HeldPkt),
      exec (.gangPlacement d) s = .next t ∧ (t.die d).gangs = l.filter (fun x => x.id != g.id) ∧ (t.cell g.tcell).held = (s.cell g.tcell).held ++ [h] ∧
      h.slot = g.tslot ∧ h.pkt.words = [(g.reg, BitVec.ofNat 64 n)] ∧ t.mem = s.mem) ∧
    (g.outcome = none → g.queue = none → s.token = none →
      let o : Origin := ⟨g.part, g.fn, g.asid, if g.mode = .user then .user else .supervisor, none⟩
      (g.malformed = true → ∃ t : State, exec (.gangPlacement d) s = .next t ∧
        (t.die d).gangs = l.map (fun h => if h.id = g.id then { g with outcome := some 2 } else h) ∧ t.mem = s.mem) ∧
      (∀ u args, g.malformed = false → s.checkMembers o (g.listed.map some) = (u, [], args) → u.frozen g.part = false → u.runsFn g.part g.fn = true →
        u.quotaReady g.fn = true → (u.placeMembers o [] g.listed).length = g.listed.length → ∃ t : State, exec (.gangPlacement d) s = .next t ∧
        let plan := u.placeMembers o [] g.listed
        t.reserved = u.reserved ++ planSlots plan ∧ t.token = some d ∧ (t.die d).gangs =
          (u.die d).gangs.map (fun h => if h.id = g.id then { g with plan := some plan, members := g.listed, args := args } else h)) ∧
      (∀ u args, g.malformed = false → s.checkMembers o (g.listed.map some) = (u, [], args) →
        u.frozen g.part = false → u.runsFn g.part g.fn = true → u.quotaReady g.fn = true →
        (u.part (o.partition (g.listed.headD 0))).ephMode ≠ 2 → (u.placeMembers o [] g.listed).length < g.listed.length →
        ∃ t : State, exec (.gangPlacement d) s = .next t ∧ t.reserved = u.reserved ∧
        (t.die d).gangs = (u.die d).gangs.map (fun h => if h.id = g.id then { g with outcome := some 1 } else h)))) ∧
  (∀ (s : State) (d : Nat) (g : Gang) (plan : List (List (Nat × List Nat))), let l := (s.die d).gangs
    (∀ h ∈ l, h.half = false) → l.find? (fun h => h.plan.isSome) = some g → g.plan = some plan → g.outcome = none → g.queue = none → s.frozen g.part = true →
    ∃ t : State, exec (.gangPlacement d) s = .next t ∧ (∃ h ∈ (t.die d).gangs, h.id = g.id ∧ h.outcome = some 1 ∧ h.plan = none) ∧ t.token = none ∧
      ∀ x, x ∈ t.reserved ↔ x ∈ s.reserved ∧ x ∉ planSlots plan) ∧
  (∀ (s : State) (p : Nat), let x := s.part p
    let n := x.stlen.toNat
    let off := x.stbase.toNat % 2 ^ 48
    (n ≠ 0 → ∃ t : State, exec (.cueLoad p) s = .next t ∧ (t.part p).loading = true ∧ (t.part p).stvalid = false ∧ ∃ c, (c, Due.cueLoaded p) ∈ t.later) ∧
    (n = 0 → ∃ t : State, exec (.cueLoad p) s = .next t ∧ (t.part p).stvalid = true ∧ (t.part p).standby = [] ∧ t.mem = s.mem) ∧
    (x.loading = true → ∃ t : State, exec (.cueLoadVerified p) s = .next t ∧ (t.part p).loading = false ∧
      (n = 0 ∨ signedBy s.module.ownerKey (natToBytes (n + 512) (readNat s.mem (keyHbm + off) (n + 512))) = true → (t.part p).stvalid = true ∧
        (t.part p).standby.length = n / 4 ∧
        ∀ k < n / 4, (t.part p).standby[k]? = some (BitVec.ofNat 32 (readNat s.mem (keyHbm + off + 4 * k) 4))) ∧
      (n ≠ 0 → signedBy s.module.ownerKey (natToBytes (n + 512) (readNat s.mem (keyHbm + off) (n + 512))) = false → (t.part p).stvalid = false ∧
        (t.part p).lasterr = 7 ∧ (t.part p).standby = x.standby)) ∧
    (x.stvalid = false → exec (.cueSwap p) s = .next s) ∧
    (x.stvalid = true → exec (.cueSwap p) s = .next (s.setPart p { x with
      active := x.standby, actbase := x.sbase, standby := x.active, sbase := x.actbase, swapFrom := some (x.swapFrom.getD x.active) })) ∧
    (∀ t, t = s.cueSwapNow p → (t.part p).active = x.active ∧ (t.part p).standby = x.standby ∧ (t.part p).swapFrom = none ∧ (t.part p).disp.swapped = true ∧
      (t.part p).ctl.swapped = true ∧ t.mem = s.mem) ∧
    (s.parts = [(p, x)] → x.swapFrom.isSome = true → s.swapsDue = s.cueSwapNow p)) ∧
  (∀ (s : State) (c i d : Nat) (x : Die) (g : Option Nat) (cause : W64) (tval : W96) (epc : Addr) (l : List CueEvent),
    s.dies.find? (fun y => y.2.forwarded.any fun e => match e with
      | .fault c' i' .. => decide (c' = c) && decide (i' = i)
      | _ => false) = some (d, x) → x.forwarded = .fault c i g cause tval epc :: l → s.bindHome c i g = .live →
    (exec (.forwardedFaultResolution c i true) s = .next ((s.setDie d { x with forwarded := l }).kill c i)) ∧
    ((s.slot c i).state = .parked → (s.th c i).wait = some .fault → ∃ t : State, exec (.forwardedFaultResolution c i false) s = .next t ∧
      (t.slot c i).state = .ready ∧ (t.th c i).mt = ⟨cause, epc, tval⟩ ∧ (t.th c i).mode = .machine ∧ (t.th c i).mfrom = (s.th c i).mode ∧
      (t.th c i).pc = Config.fwEntry ∧ (t.th c i).s = (s.th c i).s ∧ (t.die d).forwarded = l ∧ t.mem = s.mem))

/-! ### Host, side band and fabric (18, 22 R451, R452) -/

/-- A response of the device to the sender of a message has been sent, or waits for room in its port's retry buffer: its kind, its status, and its
data (18 R376, R378). -/
def responded (t : State) (m : FabMsg) (status : Nat) (data : Option Nat) : Prop :=
  ∃ (p : Nat) (r : FabMsg), (r ∈ (t.ports.at p {}).waiting ∨ ∃ x, Out.fabric p r x ∈ t.out) ∧ r.op = m.op + 4 ∧ r.sub = status ∧ r.dst = m.src ∧ r.src = m.dst ∧ r.tag = m.tag ∧
    ∀ v, data = some v → r.data = BitVec.ofNat 512 v
/-- The thread in the slot of a request lives there and waits for its reply. -/
def Sys2Proof.Machine.State.awaits (s : State) (id : Nat) (r : Req) : Prop :=
  s.reqs.look id = some r ∧ r.dead = false ∧ s.home r.cell r.slot r.fn = .live ∧ (s.slot r.cell r.slot).state = .parked ∧
    (s.th r.cell r.slot).wait = some (.reply id)

/-- A context write to a disabled queue changes the writable masked bits, clears W1C bits, and enables only a valid context; in an enabled one en can
be cleared. A tail doorbell within the ring sets TAIL, any other sets the overflow bit; CPLHEAD is stored; cplerr is cleared. Host writes put
their bytes, and only these, into host memory or behind BAR4; reads answer them; an AtomicOp FetchAdd adds and answers the old value. A completed
AtomicOp of the device updates host memory; a refused one traps, cause 0x0D detail 3. The semaphore follows R383. PLDM reads banks and clamps the
cap, writes a signed image beside the running one, and enrols an owner key by a signed block; SPDM answers indexes 1 to 6 with what was measured
(log entry 8 says what of images, blocks and digests is the model's own). A package reset empties every slot, zeroes the layout and keeps memory,
which lists nothing at power-on (the model's choice, log entry 2); each firmware then runs its newest good image, and with none for one of them
only an update is answered. A second-tier link goes down and up. -/
def Obligations.HostEvents : Prop :=
  (∀ (s : State) (q : Nat) (mask value : W512), q < 32768 → let x := s.queue q
    (qEn x.ctx = false → mask.getLsbD 53 = false → (mask.getLsbD 386 = true → value.getLsbD 386 = false) → qMode (merge x.ctx qRwMask mask value) < 2 →
      ∃ t : State, exec (.queueContextWrite q mask value) s = .next t ∧ t.mem = s.mem ∧ ∀ b < 512, (t.queue q).ctx.getLsbD b =
        if qRwMask.getLsbD b = true ∧ mask.getLsbD b = true then value.getLsbD b
        else x.ctx.getLsbD b && !(decide (384 ≤ b ∧ b < 387) && mask.getLsbD b && value.getLsbD b)) ∧
    (qEn x.ctx = false → mask.getLsbD 53 = true → value.getLsbD 53 = true → qMode (merge x.ctx qRwMask mask value) < 2 →
      s.mayEnable q (merge x.ctx qRwMask mask value) = false → exec (.queueContextWrite q mask value) s = .next s) ∧
    (qEn x.ctx = false → mask.getLsbD 53 = true → value.getLsbD 53 = true → qMode (merge x.ctx qRwMask mask value) < 2 →
      s.mayEnable q (merge x.ctx qRwMask mask value) = true → ∃ t : State, exec (.queueContextWrite q mask value) s = .next t ∧
      qEn (t.queue q).ctx = true ∧ (t.queue q).killed = false ∧ (t.queue q).closed = false) ∧
    (qEn x.ctx = true → mask.getLsbD 53 = true → value.getLsbD 53 = false → ∃ t : State, exec (.queueContextWrite q mask value) s = .next t ∧
      qEn (t.queue q).ctx = false) ∧
    (∀ v : W32, let step := (v.toNat + 2 ^ 32 - qTail x.ctx) % 2 ^ 32
      (step + x.depth ≤ 2 ^ qLogsize x.ctx → ∃ t : State, exec (.doorbellTail q v) s = .next t ∧ qTail (t.queue q).ctx = v.toNat ∧
        qHead (t.queue q).ctx = qHead x.ctx ∧ t.mem = s.mem) ∧
      (2 ^ qLogsize x.ctx < step + x.depth → ∃ t : State, exec (.doorbellTail q v) s = .next t ∧ (t.queue q).ctx.getLsbD 384 = true ∧
        qTail (t.queue q).ctx = qTail x.ctx ∧ t.mem = s.mem)) ∧
    (∀ v : W32, ∃ t : State, exec (.doorbellCplhead q v) s = .next t ∧ (t.queue q).cplhead = v) ∧
    (x.heldCpl = [] → ∃ t : State, exec (.cplerrClear q) s = .next t ∧ qCplerr (t.queue q).ctx = false ∧ t.mem = s.mem ∧
      ∀ b < 512, b ≠ 386 → (t.queue q).ctx.getLsbD b = x.ctx.getLsbD b)) ∧
  (∀ (s : State) (a : Nat) (data : List Byte), ∃ t : State, exec (.hostWrite (.hostMem a) data false) s = .next t ∧
    (∀ j b, data[j]? = some b → readByte t.mem (keyHost + a + j) = b) ∧
    (∀ k, k < keyHost + a ∨ keyHost + a + data.length ≤ k → readByte t.mem k = readByte s.mem k)) ∧
  (∀ (s : State) (off n k : Nat), s.module.dead = false → off % 64 + n ≤ 64 → 0 < n → stackOf off = some k → stackOf (off + n - 1) = some k →
    (s.stack k).train = 2 → s.holdFor none 0 [(keyHbm + off, n)] true = none →
    (∀ data : List Byte, data.length = n → s.feHeld = [] → ∃ t : State, exec (.hostWrite (.bar4 off) data false) s = .next t ∧
      (∀ j b, data[j]? = some b → readByte t.mem (keyHbm + off + j) = b) ∧
      (∀ a, a < keyHbm + off ∨ keyHbm + off + n ≤ a → readByte t.mem a = readByte s.mem a)) ∧
    (s.poisonAt (keyHbm + off) n = none → ∃ t : State, exec (.hostRead (.bar4 off) n) s = .next t ∧ t.mem = s.mem ∧
      .completion true false (natToBytes n (readNat s.mem (keyHbm + off) n)) ∈ t.out) ∧
    (∀ x y, n = 4 ∨ n = 8 → off % n = 0 → s.poisonAt (keyHbm + off) n = none → s.feHeld = [] → ∃ t : State,
      exec (.hostAtomicop (.bar4 off) 0 n x y) s = .next t ∧
      readNat t.mem (keyHbm + off) n = (readNat s.mem (keyHbm + off) n + x.toNat) % 2 ^ (8 * n) ∧
      (∀ a, a < keyHbm + off ∨ keyHbm + off + n ≤ a → readByte t.mem a = readByte s.mem a) ∧
      .completion true false (natToBytes n (readNat s.mem (keyHbm + off) n)) ∈ t.out)) ∧
  (∀ (s : State) (id n : Nat) (r : Req) (b c : W64) (d : Opnd), s.reqs.look id = some r → kindOf r.key = .host → r.op = .amo 0 n b c d → r.asked = none →
    (r.cell < 1024 → r.slot < 16 → s.poisonAt r.key n = none → ∃ t : State, exec (.hostAtomicCompletion id true) s = .next t ∧
      readNat t.mem r.key n = (readNat s.mem r.key n + b.toNat % 2 ^ (8 * n)) % 2 ^ (8 * n)) ∧
    (s.awaits id r → exec (.hostAtomicCompletion id false) s = .next
      ((({ s with reqs := s.reqs.del id } : State).ready r.cell r.slot).takeTrap r.cell r.slot ⟨0x0D, 3, BitVec.ofNat 96 r.va, false⟩))) ∧
  (∀ (s : State) (who : Master) (v : W32), let own := s.module.semOwner
    let takes : Prop := who = .sideband ∧ v.toNat % 4 = 2 ∧ own = 1 ∧ s.module.semClaim ≠ some s.cycle
    ∃ t : State, exec (.semaphoreWrite who v) s = .next t ∧ t.mem = s.mem ∧
      t.module.semOwner = (match who, v.toNat % 4 with
        | .host, 1 => if own = 0 then 1 else own
        | .host, 0 => if own = 1 then 0 else own
        | .sideband, 0 => if own = 2 then 0 else own
        | .sideband, 2 => 2
        | _, _ => own) ∧
      (t.module.semLost = true ↔ takes ∨ (s.module.semLost = true ∧ v.getLsbD 8 = false)) ∧
      (t.module.semDenied = true ↔ s.module.semDenied = true ∧ v.getLsbD 9 = false)) ∧
  (∀ (s : State) (n : Instr), n = .sidebandReset ∨ n = .packageReset false ∨ n = .packageReset true → ∃ t : State, exec n s = .next t ∧
    (∀ c i, (t.slot c i).state = .empty) ∧ (∀ k w, partWord (t.layout.bank false) k w = 0 ∧ partWord (t.layout.bank true) k w = 0) ∧
    t.layout.sel = false ∧ t.module.semOwner = (if n = .sidebandReset then s.module.semOwner else 0) ∧ t.module.cap = 3200 ∧
    (∀ u, u ≠ 1088 → t.banks.at u 0 = 0) ∧ t.mem = (if n = .packageReset true then [] else s.mem) ∧
    let good (f k : Nat) : Prop := signedBy Config.vendorKey (s.flashImage f k) = true ∧ s.module.minVersion.at f 0 ≤ Config.secVersion (s.flashImage f k)
    (t.module.dead = true ↔ ∃ f ∈ [1, 2, 3], ∀ k < 2, ¬ good f k) ∧
    (∀ f ∈ [1, 2, 3], ∀ k, t.module.running.look f = some k → k < 2 ∧ good f k ∧ t.module.measured.look f = some (sha512 (s.flashImage f k)) ∧
      ∀ j < 2, good f j → Config.secVersion (s.flashImage f j) ≤ Config.secVersion (s.flashImage f k))) ∧
  (∀ s : State, (s.module.dead = false → ∀ w, ∃ t : State, exec (.pldmRequest (.powerCap w)) s = .next t ∧
      t.module.cap.toNat = (if w = 0 ∨ 3200 < w then 3200 else w) ∧ t.mem = s.mem) ∧
    (s.module.dead = false → ∀ u, ∃ t : State, exec (.pldmRequest (.readBank u)) s = .next t ∧ t.mem = s.mem ∧
      t.out = s.out ++ [.pldmReply ((List.range 8).map fun k => (s.banks.at u 0).extractLsb' (64 * k) 64)]) ∧
    (∀ f x, 1 ≤ f → f ≤ 3 →
      (signedBy Config.vendorKey x = true → ∃ (t : State) (k : Nat), exec (.pldmRequest (.update f x)) s = .next t ∧ t.mem = s.mem ∧ t.flashImage f k = x ∧
        s.module.running.look f ≠ some k ∧ t.module.running = s.module.running ∧ t.module.measured = s.module.measured) ∧
      (signedBy Config.vendorKey x = false → ∃ t : State, exec (.pldmRequest (.update f x)) s = .next t ∧ t.mem = s.mem ∧ t.module.images = s.module.images ∧
        (t.banks.at 1088 0).getLsbD 0 = true)) ∧
    (s.module.dead = false → ∀ x key, Config.blockKey x = some key →
      let old := if s.module.ownerKey = 0 then Config.vendorKey else s.module.ownerKey
      ∃ t : State, exec (.pldmRequest (.block x)) s = .next t ∧ t.mem = s.mem ∧ t.module.ownerKey = if signedBy old x = true then key else s.module.ownerKey) ∧
    (s.module.dead = false → ∀ k doe, 1 ≤ k → k ≤ 6 → ∃ t : State, exec (.spdmRequest ⟨doe, k⟩) s = .next t ∧ t.mem = s.mem ∧
      ∃ g x, t.out = s.out ++ [.spdm doe [(k, g)] x] ∧ ∀ w, s.module.measured.look k = some w → g = w) ∧
    (∀ p < 8, ∃ t : State, exec (.tier2LinkDown p) s = .next t ∧ p ∈ t.linksDown ∧ t.mem = s.mem) ∧
    (∀ p, ∃ t : State, exec (.tier2LinkUp p) s = .next t ∧ p ∉ t.linksDown ∧ t.mem = s.mem))

/-- A flit made for a message is intact and carries that message (its shape is log entry 40). FLIT_RECEIVE of an intact flit next in sequence takes it
and performs the messages it knows; a damaged flit, or one out of sequence, performs none. FABRIC_READ, FABRIC_WRITE and FABRIC_ATOMIC (sub 0,
add) that an entry allows read, write or update the bytes at their place, no other byte, and answer status 0 with the data; one that no entry
allows is answered with status 1 and changes nothing. FABRIC_LAUNCH answers 1 without a lnch entry, for a closed queue and, as for a read or
write, for a failed translation (log entry 40), 2 when the queue is full, 0 when the packet is appended. FABRIC_RESPONSE completes a load with the
data, or traps its thread, cause 0x0B, with detail 5 or, for poison, 7; PEER_TIMEOUT after 2^20 cycles traps with detail 6, or ends an engine
operation early with it. -/
def Obligations.FabricEvents : Prop :=
  (∀ (n a k c : Nat) (m : FabMsg), n < 4096 → a < 4096 → k < 16 → c < 16 → 0 < m.op → m.op < 16 → m.len ≤ 4 → m.tag < 4096 → m.src < 4096 →
    m.dst < 4096 → m.svf < 256 → m.sub < 16 → m.bytes < 128 → m.addr < 2 ^ 48 → m.resv = false → m.data.toNat < 2 ^ (128 * m.len) →
    let x := flitOf n a k c m
    flitCrcOk x = true ∧ flitSeq x = n ∧ flitAck x = a ∧ flitMsgs x 15 0 = [m]) ∧
  (∀ (s : State) (p : Nat) (flit : BitVec 2048), p < 18 →
    let next : Prop := flitSeq flit = ((s.ports.at p {}).ack + 1) % 4096
    (flitCrcOk flit = true → next → ∃ t : State, exec (.flitReceive p flit) s = .next t ∧ (t.ports.at p {}).ack = flitSeq flit ∧ t.mem = s.mem ∧
      ∀ m ∈ flitMsgs flit 15 0, s.known m = true → Due.fabric p m ∈ t.due) ∧
    (flitCrcOk flit = false ∨ ¬ next → ∃ t : State, exec (.flitReceive p flit) s = .next t ∧ (t.ports.at p {}).ack = (s.ports.at p {}).ack ∧
      t.due = s.due ∧ t.mem = s.mem)) ∧
  (∀ (s : State) (p : Nat) (m : FabMsg), memShapeBad m = false →
    (∀ u, s.peerKey 31 .load m = (u, .fault) → ∃ t : State, exec (.fabricRead p m) s = .next t ∧ responded t m 1 none ∧ t.mem = u.mem) ∧
    (∀ u, s.peerKey 32 .store m = (u, .fault) → ∃ t : State, exec (.fabricWrite p m) s = .next t ∧ responded t m 1 none ∧ t.mem = u.mem) ∧
    (∀ u, atomShapeBad m = false → s.peerKey 33 .rmw m = (u, .fault) → ∃ t : State, exec (.fabricAtomic p m) s = .next t ∧ responded t m 1 none ∧
      t.mem = u.mem) ∧
    (∀ u k f c, s.peerKey 31 .load m = (u, .ok (k, f)) → u.holdFor none f [(k, m.bytes)] true = some c →
      exec (.fabricRead p m) s = .next (u.outsideAt none f [(k, m.bytes)] (.peerRead p m) c)) ∧
    (∀ u k f, s.peerKey 31 .load m = (u, .ok (k, f)) → u.holdFor none f [(k, m.bytes)] true = none → u.linkDown k = false →
      u.poisonAt k m.bytes = none → ∃ t : State,
      exec (.fabricRead p m) s = .next t ∧ responded t m 0 (some (readNat u.mem k m.bytes)) ∧ t.mem = u.mem) ∧
    (∀ u k f, s.peerKey 32 .store m = (u, .ok (k, f)) → u.holdFor none f [(k, m.bytes)] true = none → u.linkDown k = false → u.feHeld = [] →
      ∃ t : State, exec (.fabricWrite p m) s = .next t ∧ responded t m 0 none ∧ readNat t.mem k m.bytes = m.data.toNat % 2 ^ (8 * m.bytes) ∧
      ∀ a, a < k ∨ k + m.bytes ≤ a → readByte t.mem a = readByte u.mem a) ∧
    (∀ u k f, atomShapeBad m = false → m.sub = 0 → s.peerKey 33 .rmw m = (u, .ok (k, f)) → u.holdFor none f [(k, m.bytes)] true = none →
      (kindOf k = .host → ∃ (t : State) (n : Nat), exec (.fabricAtomic p m) s = .next t ∧ t.mem = u.mem ∧
        Out.hostAtomic n (k - keyHost) 0 m.bytes (wordOf m.data 0) (wordOf m.data 1) ∈ t.out) ∧
      (kindOf k ≠ .host → u.linkDown k = false → u.poisonAt k m.bytes = none → u.feHeld = [] → ∃ t : State, exec (.fabricAtomic p m) s = .next t ∧
        responded t m 0 (some (readNat u.mem k m.bytes)) ∧
        readNat t.mem k m.bytes = (readNat u.mem k m.bytes + m.data.toNat % 2 ^ (8 * m.bytes)) % 2 ^ (8 * m.bytes) ∧
        ∀ a, a < k ∨ k + m.bytes ≤ a → readByte t.mem a = readByte u.mem a))) ∧
  (∀ (s : State) (p : Nat) (m : FabMsg), m.bytes = 64 →
    let q := s.queue (m.addr % 2 ^ 15)
    let allowed : Prop := ∃ j < qAclcnt q.ctx, qAclbase q.ctx + j < 4096 ∧ aclMatch s (qAclbase q.ctx + j) 34 m = true
    s.holdFor none (qVf q.ctx) [] true = none →
    (¬ allowed ∨ q.killed = true ∨ q.closed = true → ∃ t : State, exec (.fabricLaunch p m) s = .next t ∧ responded t m 1 none ∧ t.mem = s.mem) ∧
    (allowed → q.killed = false → q.closed = false → 2 ^ qLogsize q.ctx ≤ q.depth → ∃ t : State,
      exec (.fabricLaunch p m) s = .next t ∧ responded t m 2 none ∧ t.mem = s.mem) ∧
    (∀ u, allowed → q.killed = false → q.closed = false → q.depth < 2 ^ qLogsize q.ctx → s.appendHw (m.addr % 2 ^ 15) m.data.toNat = (u, .ok ()) →
      ∃ t : State, exec (.fabricLaunch p m) s = .next t ∧ responded t m 0 none ∧ t.mem = u.mem ∧ t.queues = u.queues)) ∧
  (∀ (s : State) (p id n : Nat) (r : Req) (m : FabMsg) (sg cap : Bool) (k : BitVec 6), s.answers m = some (id, r, 0, n, 0) → r.engine = none →
    r.posted = false → r.op = .load n sg cap (.s k) → n = 1 ∨ n = 2 ∨ n = 4 ∨ n = 8 → s.awaits id r →
    (m.sub = 0 → r.op.lanes r.key = [(r.key, n, 0)] → r.poisoned = false → r.done = none → (s.th r.cell r.slot).region = none → k ≠ 0 →
      (s.part (s.reqPart r)).ephMode ≠ 2 → ∃ t : State,
      exec (.fabricResponse p m) s = .next t ∧ (t.slot r.cell r.slot).state = .ready ∧ t.reqs.look id = none ∧
      ((s.part (s.reqPart r)).ephMode ≠ 1 → t.mem = s.mem) ∧ ((t.th r.cell r.slot).rs k.toNat).data =
        if sg then (m.data.setWidth (8 * n)).signExtend 64 else (m.data.setWidth (8 * n)).setWidth 64) ∧
    (m.sub ≠ 0 → exec (.fabricResponse p m) s = .next ((({ s with reqs := s.reqs.del id } : State).ready r.cell r.slot).takeTrap r.cell r.slot
      ⟨0x0B, if m.sub = 3 then 7 else 5, BitVec.ofNat 96 r.va, false⟩))) ∧
  (∀ (s : State) (id : Nat) (r : Req), s.reqs.look id = some r → keyPeer ≤ r.key → r.sent + 2 ^ 20 ≤ s.cycle →
    (r.engine = none → r.posted = false → r.isStore = false → r.fail = none → s.awaits id r → exec (.peerTimeout id) s = .next
      ((({ s with reqs := s.reqs.del id } : State).ready r.cell r.slot).takeTrap r.cell r.slot ⟨0x0B, 6, BitVec.ofNat 96 r.va, false⟩)) ∧
    (∀ j o, r.engine = some j → s.op j = some o → o.peer = some id → ∃ t : State, exec (.peerTimeout id) s = .next t ∧ t.reqs.look id = none ∧
      t.op j = some { o with peer := none, finished := true, failed := some (0x0B, 6, r.va) } ∧ t.mem = s.mem))

/-! ### Partitions, stacks, errors, energy, registers (18 R363; 20 R403-R412; 21 R427-R438; 22 R446-R448; 23 R454-R467) -/

/-- LAYOUT_COMMIT in its checking phase ends with the code of the first check that the staged bank fails (1 a nested node, 2 a changed partition that
is not idle, 3 its tenants, 4 a function's partition, ranges or quota), with code 5 when flash fails, else it records the intent and is ready to
flip; LAYOUT_FLIP exchanges the banks, adds 1 to seq and clears err. JOURNAL_RECOVERY completes an intact intent of the next sequence, drops one
of this sequence, and sets err 6 for any other; without an intent it does nothing (log entry 35). SLICE_SWITCH of a partition whose slice is over
marks its cells as switching and stops the outgoing tenant's operations; SLOT_HALT saves the slot's thread; GRANULE_EXCHANGE swaps a granule with
the wings byte by byte; CELL_STATE_EXCHANGE saves the outgoing tenant's cell state block and brings in the incoming one's (the partition word
travels with it, log entry 11; free contents where its area was overwritten, log entry 51), then saves a scratchpad granule to the outgoing
tenant's context area and loads (or, in a first turn, zeroes) it. -/
def Obligations.PartitionEvents : Prop :=
  (∀ (s : State) (ok : Bool), let l := s.layout
    (l.phase ≠ .checking → exec (.layoutCommit ok) s = .next s) ∧
    (l.phase = .checking → ∃ t : State, exec (.layoutCommit ok) s = .next t ∧ t.layout.sel = l.sel ∧ t.layout.bank0 = l.bank0 ∧
      t.layout.bank1 = l.bank1 ∧ t.layout.seq = l.seq ∧ t.mem = s.mem ∧
      (∀ k, s.commitCode = some k → t.layout.phase = .idle ∧ t.layout.err = BitVec.ofNat 8 k ∧ t.layout.intent = l.intent) ∧
      (s.commitCode = none → t.layout.intent = some (l.seq + 1, l.bank (!l.sel), ok) ∧
        (ok = true → t.layout.phase = .flipping ∧ t.layout.err = l.err) ∧ (ok = false → t.layout.phase = .idle ∧ t.layout.err = 5))) ∧
    (l.bank0.rising = true → l.bank1.rising = true → let b := l.bank (!l.sel)
      let one : Prop := ∃ n < 256, 0 < n ∧ partEn b n = true ∧ ∃ k, 0 < n / 2 ^ (k + 1) ∧ partEn b (n / 2 ^ (k + 1)) = true
      let two : Prop := ∃ n < 256, 0 < n ∧ partEn l.active n = true ∧ l.changed n = true ∧ s.partIdle n = false
      let three : Prop := ∃ n < 256, 0 < n ∧ partEn b n = true ∧ (partSlice b n = true ∧ (partVf1 b n = partVf0 b n ∨ fnEn b (partVf1 b n) = false) ∨
        partSlice b n = false ∧ partVf1 b n ≠ 0)
      let four : Prop := ∃ f, fnEn b f = true ∧ let n := fnPart b f
        let quota (o : Nat) : Prop := fnHbmBase b f * 2 ^ 30 ≤ o ∧ o < (fnHbmBase b f + fnHbmLen b f) * 2 ^ 30
        partEn b n = false ∨ (f ≠ partVf0 b n ∧ ¬ (partSlice b n = true ∧ f = partVf1 b n)) ∨
        (∃ g x, g ≠ f ∧ fnEn b g = true ∧ (fnAsidBase b f ≤ x ∧ x < fnAsidBase b f + fnAsidCnt b f ∧ fnAsidBase b g ≤ x ∧ x < fnAsidBase b g + fnAsidCnt b g ∨
          fnQbase b f ≤ x ∧ x < fnQbase b f + fnQcnt b f ∧ fnQbase b g ≤ x ∧ x < fnQbase b g + fnQcnt b g)) ∨
        ¬ quota (fnAtab b f) ∨ ¬ quota (fnEfqbase b f) ∨ partSlice b n = true ∧ ¬ quota (fnCtxbase b f)
      (s.commitCode = some 1 ↔ one) ∧ (s.commitCode = some 2 ↔ ¬ one ∧ two) ∧ (s.commitCode = some 3 ↔ ¬ one ∧ ¬ two ∧ three) ∧
      (s.commitCode = some 4 ↔ ¬ one ∧ ¬ two ∧ ¬ three ∧ four) ∧ (s.commitCode = none ↔ ¬ one ∧ ¬ two ∧ ¬ three ∧ ¬ four)) ∧
    (l.phase = .flipping → ∃ t : State, exec .layoutFlip s = .next t ∧
      t.layout = { l with sel := !l.sel, seq := l.seq + 1, err := 0, phase := .idle }) ∧
    (l.intent = none → ∃ t : State, exec .journalRecovery s = .next t ∧ t.layout = { l with phase := .idle }) ∧
    (∀ seq bank good, l.intent = some (seq, bank, good) →
      (good = true → seq = l.seq + 1 → ∃ t : State, exec .journalRecovery s = .next t ∧ t.layout.sel = !l.sel ∧ t.layout.active = bank ∧
        t.layout.seq = seq ∧ t.layout.err = 0 ∧ t.layout.phase = .idle) ∧
      (¬ (good = true ∧ seq = l.seq + 1) → ∃ t : State, exec .journalRecovery s = .next t ∧
        t.layout = { l with phase := .idle, err := if seq = l.seq then l.err else 6 }))) ∧
  (∀ (s : State) (p : Nat), let b := s.layout.active
    partEn b p = true → partSlice b p = true → partSliceLen b p ≠ 0 → (s.part p).switching = none → (s.part p).sliceFrom + partSliceLen b p ≤ s.cycle →
    ∃ t : State, exec (.sliceSwitch p) s = .next t ∧ (t.part p).switching = some s.cycle ∧
    (∀ c < 1024, inPart p c = true → (t.cell c).switch = true) ∧
    (∀ id o, s.op id = some o → t.op id = some (if o.part = p ∧ o.fn = s.outFn p then { o with held := true } else o))) ∧
  (∀ (s : State) (c i : Nat), s.haltReady c i = true → ∃ t : State, exec (.slotHalt c i) s = .next t ∧ i ∈ (t.cell c).halted ∧
    ((s.slot c i).state = .ready ∨ (s.slot c i).state = .parked → (t.slot c i).state = .saved ∧ (t.slot c i).switched = true)) ∧
  (∀ (s : State) (c g p : Nat), s.memOk → c < 1024 → 16 ≤ g → g < 64 → (s.cell c).moving = some g → s.slicedAt c = some p →
    let here := poolKey c (4096 * g)
    let wing := poolKey (1024 + c) (4096 * g)
    ∃ t : State, exec (.granuleExchange c) s = .next t ∧ (g ∈ (t.cell c).granules ∨ (t.part p).switching = none) ∧
    (∀ j < 4096, readByte t.mem (here + j) = readByte s.mem (wing + j) ∧ readByte t.mem (wing + j) = readByte s.mem (here + j)) ∧
    (∀ a, (a < here ∨ here + 4096 ≤ a) → (a < wing ∨ wing + 4096 ≤ a) → readByte t.mem a = readByte s.mem a)) ∧
  (∀ (s : State) (c p : Nat), c < 1024 → s.slicedAt c = some p → (s.cell c).switch = true → (∀ i < 16, i ∈ (s.cell c).halted) →
    (s.cell c).exchanged = false →
    let kept := s.blocks.at (blockNum c (!(s.part p).tenant)) {}
    let spoilt : Prop := ∃ n, kept.image = some n ∧ s.blockIntact (s.blockArea p c (s.inFn p)) n = false
    let area := s.blockArea p c (s.outFn p)
    (∀ x, (s.cell c).blockDone = false → (s.areaFree p c 256 65536).2 = none → (¬ spoilt ∧ x = kept) ∨ (spoilt ∧ x = Config.lostBlock s.fresh) → ∃ t : State,
      exec (.cellStateExchange c) s = .next t ∧ (∀ a, a < area ∨ area + 65536 ≤ a → readByte t.mem a = readByte s.mem a) ∧
      (t.cell c).blockDone = true ∧ (t.cell c).pword = kept.pword ∧ (t.cell c).locks = x.locks ∧ (t.cell c).bars = x.bars ∧
      (t.cell c).tdone = x.tdone ∧ (t.cell c).tfail = x.tfail ∧ (t.cell c).tcount = x.tcount ∧ (t.cell c).trec = x.trec ∧
      (t.cell c).watch = x.watch ∧ (t.cell c).mxq = x.mxq ∧ (t.cell c).links = x.links ∧
      ((s.part p).firstTurn = true ∨ spoilt → (if (s.part p).tenant then (t.cell c).k0 else (t.cell c).k1) = x.k)) ∧
    (∀ g < 256, (s.cell c).blockDone = true → (s.cell c).nextScratch = some g → (s.areaFree p c g 4096).2 = none →
      let here := poolKey c (4096 * g)
      let out := s.areaKey p c (s.outFn p) g
      let inn := s.areaKey p c (s.inFn p) g
      out + 4096 ≤ inn ∨ inn + 4096 ≤ out → ∃ t : State, exec (.cellStateExchange c) s = .next t ∧
      (∀ j < 4096, readByte t.mem (out + j) = readByte s.mem (here + j) ∧
        readByte t.mem (here + j) = if (s.part p).firstTurn = true then 0 else readByte s.mem (inn + j)) ∧
      (∀ a, (a < here ∨ here + 4096 ≤ a) → (a < out ∨ out + 4096 ≤ a) → readByte t.mem a = readByte s.mem a)))

/-- A refresh of a pseudo-channel dates it, clears its rows' activation counts (rows are log entry 38) and, by the controller, scrubs its next rows in
order and poisons the words found uncorrectable there; a takeover gives the sequencer ownership and refreshes all 64; restart is noted while the
sequencer owns. Training from cold makes a stack ready with its record, or failed; a warm reset restores it when its record is intact, within 10
degrees and passes; a retune takes the next pseudo-channel within tRFC of its refresh, and a failed one keeps its values and is counted in the
stack's bank; a write clears its count entry, but for additions of the same cycle. Banks are cleared by the owner, else the denial is set;
counters are cleared. A budget write stores the budget and a window of at least 65,536 cycles, which opens at the cycle's end; the power window
stores the watts and the cut, from exact energies (log entry 37). Ephemeris modes change only in an idle partition, and mode 2 takes up the ring
as it stands (log entry 36); a late replay stops. A register write sets the writable bits of its word (the access-control table, a staged layout
bank) and does nothing where none is mapped. -/
def Obligations.DeviceEvents : Prop :=
  (∀ (s : State) (k pc : Nat) (scrub : List ScrubFinding) (counts : List (Nat × Nat)), k < 16 → let x := s.stack k
    (pc < 64 → x.scrub < 64 * pcRows → x.train = 2 → x.beat.at pc 0 + s.refi k ≤ s.cycle → ∃ t : State, exec (.hbmRefresh k pc scrub counts) s = .next t ∧ t.mem = s.mem ∧
      (t.stack k).beat.at pc 0 = s.cycle ∧ (∀ r ∈ (t.stack k).rows, r.pc ≠ pc) ∧ (t.stack k).owner = x.owner ∧
      (∀ lo hi, x.owner = false → s.scrubSpan k pc = (lo, hi) → (t.stack k).scrub = hi % (64 * pcRows) ∧
        ∀ f ∈ scrub, f.uncorrectable = true → stackOf f.off = some k → lo ≤ scrubIndex f.off → scrubIndex f.off < hi →
          t.poisoned (keyHbm + f.off) 1 = true)) ∧
    (x.train = 2 → x.owner = false → (∃ j < 64, x.beat.at j 0 + 2 * s.refi k ≤ s.cycle) → ∃ t : State, exec (.sequencerTakeover k) s = .next t ∧
      (t.stack k).owner = true ∧ (t.stack k).takeovers.toNat = min 65535 (x.takeovers.toNat + 1) ∧ (∀ j < 64, (t.stack k).beat.at j 0 = s.cycle) ∧
      t.mem = s.mem) ∧
    (x.owner = true → exec (.stackRestart k) s = .next (s.setStack k { x with restarting := true })) ∧
    (∀ n passes, (n = Instr.coldBootTraining k passes ∧ (x.train = 0 ∨ x.train = 1)) ∨ (n = .stackRetry k passes ∧ x.train = 3) → ∃ t : State,
      exec n s = .next t ∧ t.mem = s.mem ∧ (t.stack k).restored = false ∧
      (passes = true → (t.stack k).train = 2 ∧ (∃ r, (t.stack k).record = some r ∧
        r.temp = (s.module.stktemp.at k 0).toInt ∧ r.stack = k ∧ r.serial = Config.serial ∧ r.format = Config.trainFormat ∧
        r.lanes = (t.stack k).lanes ∧ r.check = r.code) ∧ ∀ j < 64, (t.stack k).beat.at j 0 = s.cycle) ∧
      (passes = false → (t.stack k).train = 3 ∧ (t.stack k).record = x.record)) ∧
    (∀ (intact passes : Bool) (temp : Int), x.train = 0 ∨ x.train = 1 →
      let near : Prop := ∃ r, x.record = some r ∧ r.check = r.code ∧ r.serial = Config.serial ∧ r.stack = k ∧
        r.format = Config.trainFormat ∧ r.temp - 10 ≤ temp ∧ temp ≤ r.temp + 10
      ∃ t : State, exec (.warmResetRestore k intact temp passes) s = .next t ∧ t.mem = s.mem ∧
      (intact = true ∧ near ∧ passes = true → (t.stack k).train = 2 ∧ (t.stack k).restored = true) ∧
      (¬ (intact = true ∧ near ∧ passes = true) → (t.stack k).train = 1 ∧ (t.stack k).restored = false ∧
        ∃ c b, (c, Due.train k b) ∈ t.later)) ∧
    (64 ≤ x.tuning → ∀ b, exec (.retune k b) s = .next s) ∧
    (x.train = 2 → x.owner = false → x.tuning < 64 → s.cycle < x.beat.at x.tuning 0 + 945 →
      exec (.retune k true) s = .next (({ s with fresh := s.fresh + 1 } : State).setStack k
        { x with tuning := x.tuning + 1, lanes := x.lanes.put x.tuning (Config.laneValues s.fresh x.tuning) }) ∧
      ((∀ l, s.errLog.look (1024 + k) = some l → l.cycle ≠ s.cycle) → ∃ t : State, exec (.retune k false) s = .next t ∧ t.mem = s.mem ∧
        t.stack k = { x with tuning := x.tuning + 1 } ∧
        (t.banks.at (1024 + k) 0).extractLsb' 48 16 = BitVec.ofNat 16 (min (((s.banks.at (1024 + k) 0).extractLsb' 48 16).toNat + 1) 65535))) ∧
    (∀ e, ∃ t : State, exec (.countTableWrite k e) s = .next t ∧
      (t.stack k).counts.at e 0 = (if x.addedAt = s.cycle then x.added.at e 0 else 0) ∧
      (∀ j, j ≠ e → (t.stack k).counts.at j 0 = x.counts.at j 0) ∧ t.mem = s.mem)) ∧
  (∀ (s : State) (who : Master) (u : Nat), ∃ t : State, exec (.errorBankClear who u) s = .next t ∧ t.mem = s.mem ∧
    (∀ v, v ≠ u → t.banks.at v 0 = s.banks.at v 0) ∧
    let owns : Prop := s.module.semOwner = (match who with
      | .host => 1
      | .sideband => 2)
    (owns → (∀ l, s.errLog.look u = some l → l.cycle ≠ s.cycle) → t.banks.at u 0 = 0) ∧
    (∀ l, owns → s.errLog.look u = some l → l.cycle = s.cycle → t.banks.at u 0 = l.errs.foldl bankStep 0) ∧ (¬ owns → t.banks = s.banks ∧ t.module.semDenied = true)) ∧
  (∀ (s : State) (f : Nat), f < 256 →
    (∀ i < 8, ∃ t : State, exec (.functionCounterClear f i) s = .next t ∧ (t.fnSt f).counters.at i 0 = 0 ∧
      (∀ j, j ≠ i → (t.fnSt f).counters.at j 0 = (s.fnSt f).counters.at j 0) ∧ t.mem = s.mem) ∧
    (∀ (w : W32) (b : W64), ∃ t : State, exec (.budgetWrite f (some w) (some b)) s = .next t ∧ (t.fnSt f).budget = b ∧
      (t.fnSt f).window.toNat = max 65536 w.toNat ∧ (t.fnSt f).opening = true ∧ Due.window f ∈ t.due ∧ (t.fnSt f).pj = (s.fnSt f).pj ∧ t.mem = s.mem) ∧
    ((s.fnSt f).opening = true ∨ (s.fnSt f).window ≠ 0 ∧ (s.fnSt f).opened + (s.fnSt f).window.toNat ≤ s.cycle → ∃ t : State, exec (.energyWindowOpen f) s = .next t ∧
      (t.fnSt f).opened = s.cycle ∧ (t.fnSt f).opening = false ∧ (t.fnSt f).budget = (s.fnSt f).budget ∧ t.mem = s.mem)) ∧
  (∀ s : State, let m := s.module
    let used := m.windowPj + 180 * 10 ^ 8
    let cap := m.cap.toNat * 10 ^ 8
    ∃ t : State, exec .powerWindowEnd s = .next t ∧ t.mem = s.mem ∧ t.module.windowPj = 0 ∧ t.module.power = BitVec.ofNat 16 (m.windowPj / 10 ^ 8 + 180) ∧
    (cap < used → t.module.above = m.above + 1 ∧ t.module.mcut = if 10 ≤ m.above + 1 then 2 else 1) ∧ (used ≤ cap → t.module.above = 0) ∧
    (used ≤ cap → used * 100 ≤ cap * 95 → t.module.mcut = 0) ∧
    (used ≤ cap → cap * 95 < used * 100 → t.module.mcut = if m.mcut = 0 then 0 else 1)) ∧
  (∀ (s : State) (p : Nat), let x := s.part p
    (s.partIdle p = false → ∀ mode, exec (.ephemerisModeWrite p mode) s = .next s) ∧
    (s.partIdle p = true → ∃ t u v : State, exec (.ephemerisModeWrite p 0) s = .next t ∧ (t.part p).ephMode = 0 ∧
      exec (.ephemerisModeWrite p 1) s = .next u ∧ (u.part p).ephMode = 1 ∧ (u.part p).ephPos = 0 ∧ (u.part p).ephWrap = false ∧
      exec (.ephemerisModeWrite p 2) s = .next v ∧ (v.part p).ephPos = 0 ∧ (x.ephWrap = true → (v.part p).ephMode = 0 ∧ (v.part p).ephDiv = true) ∧
      (x.ephWrap = false → x.ephCount ≠ 0 → (v.part p).ephMode = 2 ∧ (v.part p).ephDiv = false)) ∧
    (x.ephMode = 2 → x.ephWait + 2 ^ 24 ≤ s.cycle → ∃ t : State, exec (.replayTimeout p) s = .next t ∧ (t.part p).ephMode = 0 ∧ (t.part p).ephDiv = true ∧
      t.mem = s.mem)) ∧
  (∀ (s : State) (v : W64), (∀ off, off % 8 ≠ 0 ∨ regAt off = none → exec (.registerWrite off v) s = .next s) ∧
    (∀ j < 16384, ∃ t : State, exec (.registerWrite (0x2000000 + 8 * j) v) s = .next t ∧
      t.acl.at j 0 = (s.acl.at j 0 &&& ~~~aclMask (j % 4)) ||| (v &&& aclMask (j % 4)) ∧ (∀ i, i ≠ j → t.acl.at i 0 = s.acl.at i 0) ∧ t.mem = s.mem) ∧
    (∀ (b : Bool) (k : Nat), k < 2560 → ∃ t : State, exec (.registerWrite ((if b then 0x5008000 else 0x5000000) + 8 * k) v) s = .next t ∧ t.mem = s.mem ∧
      (b = s.layout.sel ∨ s.layout.phase ≠ .idle → t = s) ∧ (b ≠ s.layout.sel → s.layout.phase = .idle →
        (t.layout.bank b).at k 0 = ((s.layout.bank b).at k 0 &&& ~~~layoutMask k) ||| (v &&& layoutMask k) ∧
        (∀ i, i ≠ k → (t.layout.bank b).at i 0 = (s.layout.bank b).at i 0) ∧ t.layout.bank (!b) = s.layout.bank (!b))))
end

