-- ==== Sys2Proof/Laws/Access.lean ====
section
/-!
SUPPORT. What an access at its home does beside its data: energy, row activations and the requests that they wake (21 R436, 23 R453).
-/
namespace Sys2Proof.Machine

/-- Nothing but counts of energy and activations, and the steps that fall due, differs. -/
def Spends (s t : State) : Prop := ∃ m f h d, t = { s with module := m, fns := f, hbms := h, due := d }

theorem Spends.refl (s : State) : Spends s s := ⟨s.module, s.fns, s.hbms, s.due, rfl⟩
theorem Spends.trans {s t u : State} (h : Spends s t) (k : Spends t u) : Spends s u := by
  obtain ⟨_, _, _, _, rfl⟩ := h
  obtain ⟨m, f, h, d, rfl⟩ := k
  exact ⟨m, f, h, d, rfl⟩
theorem Spends.fold {α : Type} (g : State → α → State) (hg : ∀ s x, Spends s (g s x)) (l : List α) : ∀ s, Spends s (l.foldl g s) := by
  induction l with
  | nil => exact Spends.refl
  | cons x l ih => exact fun s => (hg s x).trans (ih _)

theorem setFn_spends (s : State) (f : Nat) (x : Fn) : Spends s (s.setFn f x) := ⟨s.module, _, s.hbms, s.due, rfl⟩
theorem setStack_spends (s : State) (k : Nat) (x : Stack) : Spends s (s.setStack k x) := ⟨s.module, s.fns, _, s.due, rfl⟩
theorem dueNow_spends (s : State) (d : Due) : Spends s (s.dueNow d) := ⟨s.module, s.fns, s.hbms, _, rfl⟩
theorem charge_spends (s : State) (f : Option Nat) (pj n : Nat) : Spends s (s.charge f pj n) := by
  cases f with
  | none => exact ⟨_, s.fns, s.hbms, s.due, rfl⟩
  | some f => exact Spends.trans ⟨_, s.fns, s.hbms, s.due, rfl⟩ (setFn_spends _ f _)
theorem wakeHeld_spends (s : State) : Spends s s.wakeHeld :=
  Spends.fold (fun s (h : HeldAt) => s.dueNow (s.heldWork h.id)) (fun s h => dueNow_spends s (s.heldWork h.id)) s.throttled s
theorem activate_spends (s : State) (f : Option Nat) (key : Nat) (cp : BitVec 2) : Spends s (s.activate f key cp) := by
  have charge {t : State} (h : Spends s t) (g pj n) : Spends s (t.charge g pj n) := h.trans (charge_spends t g pj n)
  have fn {t : State} (h : Spends s t) (f x) : Spends s (t.setFn f x) := h.trans (setFn_spends t f x)
  have stack {t : State} (h : Spends s t) (k x) : Spends s (t.setStack k x) := h.trans (setStack_spends t k x)
  have wake {t : State} (h : Spends s t) : Spends s t.wakeHeld := h.trans (wakeHeld_spends t)
  have h := Spends.refl s
  unfold State.activate
  generalize kindOf key = m
  cases m with
  | hbm =>
    generalize stackOf (hbmOff key) = k
    cases k with
    | none => exact h
    | some k =>
      dsimp only
      split
      · apply stack; exact charge h f 880 1
      · split
        · apply wake; apply stack; apply fn; apply charge; apply stack; apply charge; exact charge h f 880 1
        · apply stack; apply charge; exact charge h f 880 1
  | pool => exact h
  | peer => exact h
  | tier2 => exact charge h f 1600 1
  | host => exact charge h f 1000 1
/-- An access at its home changes neither memory nor what threads, requests and ports hold. -/
theorem access_spends (s : State) (f : Option Nat) (key n : Nat) (wr : Bool) (cp : BitVec 2 := 0) : Spends s (s.access f key n wr cp) := by
  unfold State.access
  generalize kindOf key = m
  cases m with
  | pool => exact charge_spends s f _ _
  | peer => exact charge_spends s f _ _
  | hbm => exact Spends.fold _ (fun s u => activate_spends s f (64 * u) cp) _ s
  | tier2 => exact Spends.fold _ (fun s u => activate_spends s f (64 * u) cp) _ s
  | host => exact Spends.fold _ (fun s u => activate_spends s f (64 * u) cp) _ s

end Sys2Proof.Machine
end

