-- ==== Sys2Proof/Laws/Maps.lean ====
section
/-!
SUPPORT. What the operations on sparse maps and sorted sets do, and that they keep the canonical form.
-/
namespace Sys2Proof

variable {α : Type}

/-! ### Sparse maps -/

theorem SMap.look_put_self (m : SMap α) (k : Nat) (v : α) : SMap.look (SMap.put m k v) k = some v := by
  induction m with
  | nil => simp [SMap.put, SMap.look]
  | cons x m ih =>
    obtain ⟨j, w⟩ := x
    simp only [SMap.put]
    split
    · simp [SMap.look]
    · split
      · simp [SMap.look]
      · rename_i h
        simp [SMap.look, h, ih]

theorem SMap.look_put_ne (m : SMap α) {k j : Nat} (v : α) (h : j ≠ k) : SMap.look (SMap.put m k v) j = SMap.look m j := by
  have h' : ¬ k = j := fun e => h e.symm
  induction m with
  | nil => simp [SMap.put, SMap.look, h']
  | cons x m ih =>
    obtain ⟨i, w⟩ := x
    simp only [SMap.put]
    split
    · simp [SMap.look, h']
    · split
      · rename_i e; subst e; simp [SMap.look, h']
      · simp [SMap.look, ih]

theorem SMap.look_del_self (m : SMap α) (k : Nat) : SMap.look (SMap.del m k) k = none := by
  induction m with
  | nil => simp [SMap.del, SMap.look]
  | cons x m ih =>
    obtain ⟨j, w⟩ := x
    simp only [SMap.del]
    split
    · exact ih
    · rename_i h; simp [SMap.look, h, ih]

theorem SMap.look_del_ne (m : SMap α) {k j : Nat} (h : j ≠ k) : SMap.look (SMap.del m k) j = SMap.look m j := by
  induction m with
  | nil => simp [SMap.del]
  | cons x m ih =>
    obtain ⟨i, w⟩ := x
    have h' : ¬ k = j := fun e => h e.symm
    simp only [SMap.del]
    split
    · rename_i e; subst e; simp [SMap.look, h', ih]
    · simp [SMap.look, ih]

/-- Reading the number that was written gives the value. -/
theorem SMap.at_set_self [DecidableEq α] (m : SMap α) (k : Nat) (v d : α) : SMap.at (SMap.set m k v d) k d = v := by
  unfold SMap.set SMap.at
  split
  · rename_i h; simp [SMap.look_del_self, h]
  · simp [SMap.look_put_self]

/-- Reading any other number gives what it gave before. -/
theorem SMap.at_set_ne [DecidableEq α] (m : SMap α) {k j : Nat} (v d : α) (h : j ≠ k) : SMap.at (SMap.set m k v d) j d = SMap.at m j d := by
  unfold SMap.set SMap.at
  split
  · simp [SMap.look_del_ne m h]
  · simp [SMap.look_put_ne m v h]

theorem SMap.at_set [DecidableEq α] (m : SMap α) (k j : Nat) (v d : α) :
    SMap.at (SMap.set m k v d) j d = if j = k then v else SMap.at m j d := by
  split
  · rename_i h; subst h; exact SMap.at_set_self m j v d
  · rename_i h; exact SMap.at_set_ne m v d h

@[simp] theorem SMap.at_nil (k : Nat) (d : α) : SMap.at ([] : SMap α) k d = d := rfl

/-! ### The canonical form -/

/-- Every number of a map is above `k`. -/
def SMap.above (k : Nat) (m : SMap α) : Prop := ∀ x ∈ m, k < x.1

theorem SMap.rising_cons {j : Nat} {w : α} {m : SMap α} : SMap.rising ((j, w) :: m) = true ↔ SMap.above j m ∧ SMap.rising m = true := by
  induction m generalizing j w with
  | nil => simp [SMap.rising, SMap.above]
  | cons x m ih =>
    obtain ⟨k, v⟩ := x
    simp only [SMap.rising, Bool.and_eq_true, decide_eq_true_eq]
    constructor
    · rintro ⟨h, hr⟩
      refine ⟨?_, hr⟩
      intro y hy
      rcases List.mem_cons.mp hy with e | hy
      · subst e; exact h
      · exact Nat.lt_trans h ((ih.mp hr).1 y hy)
    · rintro ⟨h, hr⟩
      exact ⟨h _ (List.mem_cons_self ..), hr⟩

theorem SMap.mem_del {m : SMap α} {k : Nat} {x : Nat × α} (h : x ∈ SMap.del m k) : x ∈ m ∧ x.1 ≠ k := by
  induction m with
  | nil => simp [SMap.del] at h
  | cons y m ih =>
    obtain ⟨j, w⟩ := y
    simp only [SMap.del] at h
    split at h
    · have := ih h; exact ⟨List.mem_cons_of_mem _ this.1, this.2⟩
    · rename_i hj
      rcases List.mem_cons.mp h with e | h
      · subst e; exact ⟨List.mem_cons_self .., hj⟩
      · have := ih h; exact ⟨List.mem_cons_of_mem _ this.1, this.2⟩

theorem SMap.mem_put {m : SMap α} {k : Nat} {v : α} {x : Nat × α} (h : x ∈ SMap.put m k v) : x = (k, v) ∨ x ∈ m := by
  induction m with
  | nil => simpa [SMap.put] using h
  | cons y m ih =>
    obtain ⟨j, w⟩ := y
    simp only [SMap.put] at h
    split at h
    · simpa using h
    · split at h
      · rcases List.mem_cons.mp h with e | h
        · exact .inl e
        · exact .inr (List.mem_cons_of_mem _ h)
      · rcases List.mem_cons.mp h with e | h
        · exact .inr (by simp [e])
        · rcases ih h with e | h
          · exact .inl e
          · exact .inr (List.mem_cons_of_mem _ h)

theorem SMap.rising_del {m : SMap α} (h : SMap.rising m = true) (k : Nat) : SMap.rising (SMap.del m k) = true := by
  induction m with
  | nil => rfl
  | cons x m ih =>
    obtain ⟨j, w⟩ := x
    have h' := SMap.rising_cons.mp h
    simp only [SMap.del]
    split
    · exact ih h'.2
    · exact SMap.rising_cons.mpr ⟨fun y hy => h'.1 y (SMap.mem_del hy).1, ih h'.2⟩

theorem SMap.rising_put {m : SMap α} (h : SMap.rising m = true) (k : Nat) (v : α) : SMap.rising (SMap.put m k v) = true := by
  induction m with
  | nil => rfl
  | cons x m ih =>
    obtain ⟨j, w⟩ := x
    have h' := SMap.rising_cons.mp h
    simp only [SMap.put]
    split
    · rename_i hk
      refine SMap.rising_cons.mpr ⟨?_, h⟩
      intro y hy
      rcases List.mem_cons.mp hy with e | hy
      · subst e; exact hk
      · exact Nat.lt_trans hk (h'.1 y hy)
    · split
      · rename_i e; subst e; exact SMap.rising_cons.mpr h'
      · rename_i h1 h2
        refine SMap.rising_cons.mpr ⟨?_, ih h'.2⟩
        intro y hy
        rcases SMap.mem_put hy with e | hy
        · subst e; show j < k; omega
        · exact h'.1 y hy

/-- A write keeps the numbers rising. -/
theorem SMap.rising_set [DecidableEq α] {m : SMap α} (h : SMap.rising m = true) (k : Nat) (v d : α) :
    SMap.rising (SMap.set m k v d) = true := by
  unfold SMap.set
  split
  · exact SMap.rising_del h k
  · exact SMap.rising_put h k v

/-! ### Sorted sets -/

theorem mem_setAdd (l : List Nat) (k j : Nat) : j ∈ setAdd l k ↔ j = k ∨ j ∈ l := by
  induction l with
  | nil => simp [setAdd]
  | cons i l ih =>
    simp only [setAdd]
    split
    · simp
    · split
      · rename_i e; subst e; simp
      · simp [ih, or_left_comm]

theorem mem_setDel (l : List Nat) (k j : Nat) : j ∈ setDel l k ↔ j ≠ k ∧ j ∈ l := by
  induction l with
  | nil => simp [setDel]
  | cons i l ih =>
    simp only [setDel]
    split
    · rename_i e; subst e
      rw [ih]
      constructor
      · rintro ⟨h, hl⟩; exact ⟨h, List.mem_cons_of_mem _ hl⟩
      · rintro ⟨h, hl⟩
        rcases List.mem_cons.mp hl with e | hl
        · exact absurd e h
        · exact ⟨h, hl⟩
    · rename_i hik
      rw [List.mem_cons, List.mem_cons, ih]
      constructor
      · rintro (e | h)
        · subst e; exact ⟨hik, .inl rfl⟩
        · exact ⟨h.1, .inr h.2⟩
      · rintro ⟨h, e | hl⟩
        · exact .inl e
        · exact .inr ⟨h, hl⟩

end Sys2Proof
end

