-- ==== Sys2Proof/Laws/State.lean ====
section
/-!
SUPPORT. The update lemmas of the state: for every update and every field that it leaves alone, that the field is unchanged; and what a read
gives after a write of the same place or of another.
-/
namespace Sys2Proof.Machine

/-! ### setCell -/

@[simp] theorem State.setCell_blocks (s : State) (c : Nat) (x : Cell) : (s.setCell c x).blocks = s.blocks := rfl
@[simp] theorem State.setCell_mem (s : State) (c : Nat) (x : Cell) : (s.setCell c x).mem = s.mem := rfl
@[simp] theorem State.setCell_emptyW (s : State) (c : Nat) (x : Cell) : (s.setCell c x).emptyW = s.emptyW := rfl
@[simp] theorem State.setCell_tags (s : State) (c : Nat) (x : Cell) : (s.setCell c x).tags = s.tags := rfl
@[simp] theorem State.setCell_poison (s : State) (c : Nat) (x : Cell) : (s.setCell c x).poison = s.poison := rfl
@[simp] theorem State.setCell_reqs (s : State) (c : Nat) (x : Cell) : (s.setCell c x).reqs = s.reqs := rfl
@[simp] theorem State.setCell_feHeld (s : State) (c : Nat) (x : Cell) : (s.setCell c x).feHeld = s.feHeld := rfl
@[simp] theorem State.setCell_lrHeld (s : State) (c : Nat) (x : Cell) : (s.setCell c x).lrHeld = s.lrHeld := rfl
@[simp] theorem State.setCell_leases (s : State) (c : Nat) (x : Cell) : (s.setCell c x).leases = s.leases := rfl
@[simp] theorem State.setCell_ops (s : State) (c : Nat) (x : Cell) : (s.setCell c x).ops = s.ops := rfl
@[simp] theorem State.setCell_cmds (s : State) (c : Nat) (x : Cell) : (s.setCell c x).cmds = s.cmds := rfl
@[simp] theorem State.setCell_pools (s : State) (c : Nat) (x : Cell) : (s.setCell c x).pools = s.pools := rfl
@[simp] theorem State.setCell_rigs (s : State) (c : Nat) (x : Cell) : (s.setCell c x).rigs = s.rigs := rfl
@[simp] theorem State.setCell_arrivals (s : State) (c : Nat) (x : Cell) : (s.setCell c x).arrivals = s.arrivals := rfl
@[simp] theorem State.setCell_commits (s : State) (c : Nat) (x : Cell) : (s.setCell c x).commits = s.commits := rfl
@[simp] theorem State.setCell_stages (s : State) (c : Nat) (x : Cell) : (s.setCell c x).stages = s.stages := rfl
@[simp] theorem State.setCell_spills (s : State) (c : Nat) (x : Cell) : (s.setCell c x).spills = s.spills := rfl
@[simp] theorem State.setCell_queues (s : State) (c : Nat) (x : Cell) : (s.setCell c x).queues = s.queues := rfl
@[simp] theorem State.setCell_dies (s : State) (c : Nat) (x : Cell) : (s.setCell c x).dies = s.dies := rfl
@[simp] theorem State.setCell_parts (s : State) (c : Nat) (x : Cell) : (s.setCell c x).parts = s.parts := rfl
@[simp] theorem State.setCell_fns (s : State) (c : Nat) (x : Cell) : (s.setCell c x).fns = s.fns := rfl
@[simp] theorem State.setCell_hbms (s : State) (c : Nat) (x : Cell) : (s.setCell c x).hbms = s.hbms := rfl
@[simp] theorem State.setCell_layout (s : State) (c : Nat) (x : Cell) : (s.setCell c x).layout = s.layout := rfl
@[simp] theorem State.setCell_banks (s : State) (c : Nat) (x : Cell) : (s.setCell c x).banks = s.banks := rfl
@[simp] theorem State.setCell_errLog (s : State) (c : Nat) (x : Cell) : (s.setCell c x).errLog = s.errLog := rfl
@[simp] theorem State.setCell_acl (s : State) (c : Nat) (x : Cell) : (s.setCell c x).acl = s.acl := rfl
@[simp] theorem State.setCell_ports (s : State) (c : Nat) (x : Cell) : (s.setCell c x).ports = s.ports := rfl
@[simp] theorem State.setCell_linksDown (s : State) (c : Nat) (x : Cell) : (s.setCell c x).linksDown = s.linksDown := rfl
@[simp] theorem State.setCell_throttled (s : State) (c : Nat) (x : Cell) : (s.setCell c x).throttled = s.throttled := rfl
@[simp] theorem State.setCell_aborts (s : State) (c : Nat) (x : Cell) : (s.setCell c x).aborts = s.aborts := rfl
@[simp] theorem State.setCell_dirty (s : State) (c : Nat) (x : Cell) : (s.setCell c x).dirty = s.dirty := rfl
@[simp] theorem State.setCell_fabricId (s : State) (c : Nat) (x : Cell) : (s.setCell c x).fabricId = s.fabricId := rfl
@[simp] theorem State.setCell_routes (s : State) (c : Nat) (x : Cell) : (s.setCell c x).routes = s.routes := rfl
@[simp] theorem State.setCell_reserved (s : State) (c : Nat) (x : Cell) : (s.setCell c x).reserved = s.reserved := rfl
@[simp] theorem State.setCell_token (s : State) (c : Nat) (x : Cell) : (s.setCell c x).token = s.token := rfl
@[simp] theorem State.setCell_notices (s : State) (c : Nat) (x : Cell) : (s.setCell c x).notices = s.notices := rfl
@[simp] theorem State.setCell_module (s : State) (c : Nat) (x : Cell) : (s.setCell c x).module = s.module := rfl
@[simp] theorem State.setCell_l2tlb (s : State) (c : Nat) (x : Cell) : (s.setCell c x).l2tlb = s.l2tlb := rfl
@[simp] theorem State.setCell_l2ctx (s : State) (c : Nat) (x : Cell) : (s.setCell c x).l2ctx = s.l2ctx := rfl
@[simp] theorem State.setCell_icache (s : State) (c : Nat) (x : Cell) : (s.setCell c x).icache = s.icache := rfl
@[simp] theorem State.setCell_out (s : State) (c : Nat) (x : Cell) : (s.setCell c x).out = s.out := rfl
@[simp] theorem State.setCell_cycle (s : State) (c : Nat) (x : Cell) : (s.setCell c x).cycle = s.cycle := rfl
@[simp] theorem State.setCell_cur (s : State) (c : Nat) (x : Cell) : (s.setCell c x).cur = s.cur := rfl
@[simp] theorem State.setCell_curEng (s : State) (c : Nat) (x : Cell) : (s.setCell c x).curEng = s.curEng := rfl
@[simp] theorem State.setCell_turn (s : State) (c : Nat) (x : Cell) : (s.setCell c x).turn = s.turn := rfl
@[simp] theorem State.setCell_agenda (s : State) (c : Nat) (x : Cell) : (s.setCell c x).agenda = s.agenda := rfl
@[simp] theorem State.setCell_due (s : State) (c : Nat) (x : Cell) : (s.setCell c x).due = s.due := rfl
@[simp] theorem State.setCell_later (s : State) (c : Nat) (x : Cell) : (s.setCell c x).later = s.later := rfl
@[simp] theorem State.setCell_fresh (s : State) (c : Nat) (x : Cell) : (s.setCell c x).fresh = s.fresh := rfl
@[simp] theorem State.setCell_nextId (s : State) (c : Nat) (x : Cell) : (s.setCell c x).nextId = s.nextId := rfl

/-! ### setSlot -/

@[simp] theorem State.setSlot_blocks (s : State) (c i : Nat) (y : Slot) : (s.setSlot c i y).blocks = s.blocks := rfl
@[simp] theorem State.setSlot_mem (s : State) (c i : Nat) (y : Slot) : (s.setSlot c i y).mem = s.mem := rfl
@[simp] theorem State.setSlot_emptyW (s : State) (c i : Nat) (y : Slot) : (s.setSlot c i y).emptyW = s.emptyW := rfl
@[simp] theorem State.setSlot_tags (s : State) (c i : Nat) (y : Slot) : (s.setSlot c i y).tags = s.tags := rfl
@[simp] theorem State.setSlot_poison (s : State) (c i : Nat) (y : Slot) : (s.setSlot c i y).poison = s.poison := rfl
@[simp] theorem State.setSlot_reqs (s : State) (c i : Nat) (y : Slot) : (s.setSlot c i y).reqs = s.reqs := rfl
@[simp] theorem State.setSlot_feHeld (s : State) (c i : Nat) (y : Slot) : (s.setSlot c i y).feHeld = s.feHeld := rfl
@[simp] theorem State.setSlot_lrHeld (s : State) (c i : Nat) (y : Slot) : (s.setSlot c i y).lrHeld = s.lrHeld := rfl
@[simp] theorem State.setSlot_leases (s : State) (c i : Nat) (y : Slot) : (s.setSlot c i y).leases = s.leases := rfl
@[simp] theorem State.setSlot_ops (s : State) (c i : Nat) (y : Slot) : (s.setSlot c i y).ops = s.ops := rfl
@[simp] theorem State.setSlot_cmds (s : State) (c i : Nat) (y : Slot) : (s.setSlot c i y).cmds = s.cmds := rfl
@[simp] theorem State.setSlot_pools (s : State) (c i : Nat) (y : Slot) : (s.setSlot c i y).pools = s.pools := rfl
@[simp] theorem State.setSlot_rigs (s : State) (c i : Nat) (y : Slot) : (s.setSlot c i y).rigs = s.rigs := rfl
@[simp] theorem State.setSlot_arrivals (s : State) (c i : Nat) (y : Slot) : (s.setSlot c i y).arrivals = s.arrivals := rfl
@[simp] theorem State.setSlot_commits (s : State) (c i : Nat) (y : Slot) : (s.setSlot c i y).commits = s.commits := rfl
@[simp] theorem State.setSlot_stages (s : State) (c i : Nat) (y : Slot) : (s.setSlot c i y).stages = s.stages := rfl
@[simp] theorem State.setSlot_spills (s : State) (c i : Nat) (y : Slot) : (s.setSlot c i y).spills = s.spills := rfl
@[simp] theorem State.setSlot_queues (s : State) (c i : Nat) (y : Slot) : (s.setSlot c i y).queues = s.queues := rfl
@[simp] theorem State.setSlot_dies (s : State) (c i : Nat) (y : Slot) : (s.setSlot c i y).dies = s.dies := rfl
@[simp] theorem State.setSlot_parts (s : State) (c i : Nat) (y : Slot) : (s.setSlot c i y).parts = s.parts := rfl
@[simp] theorem State.setSlot_fns (s : State) (c i : Nat) (y : Slot) : (s.setSlot c i y).fns = s.fns := rfl
@[simp] theorem State.setSlot_hbms (s : State) (c i : Nat) (y : Slot) : (s.setSlot c i y).hbms = s.hbms := rfl
@[simp] theorem State.setSlot_layout (s : State) (c i : Nat) (y : Slot) : (s.setSlot c i y).layout = s.layout := rfl
@[simp] theorem State.setSlot_banks (s : State) (c i : Nat) (y : Slot) : (s.setSlot c i y).banks = s.banks := rfl
@[simp] theorem State.setSlot_errLog (s : State) (c i : Nat) (y : Slot) : (s.setSlot c i y).errLog = s.errLog := rfl
@[simp] theorem State.setSlot_acl (s : State) (c i : Nat) (y : Slot) : (s.setSlot c i y).acl = s.acl := rfl
@[simp] theorem State.setSlot_ports (s : State) (c i : Nat) (y : Slot) : (s.setSlot c i y).ports = s.ports := rfl
@[simp] theorem State.setSlot_linksDown (s : State) (c i : Nat) (y : Slot) : (s.setSlot c i y).linksDown = s.linksDown := rfl
@[simp] theorem State.setSlot_throttled (s : State) (c i : Nat) (y : Slot) : (s.setSlot c i y).throttled = s.throttled := rfl
@[simp] theorem State.setSlot_aborts (s : State) (c i : Nat) (y : Slot) : (s.setSlot c i y).aborts = s.aborts := rfl
@[simp] theorem State.setSlot_dirty (s : State) (c i : Nat) (y : Slot) : (s.setSlot c i y).dirty = s.dirty := rfl
@[simp] theorem State.setSlot_fabricId (s : State) (c i : Nat) (y : Slot) : (s.setSlot c i y).fabricId = s.fabricId := rfl
@[simp] theorem State.setSlot_routes (s : State) (c i : Nat) (y : Slot) : (s.setSlot c i y).routes = s.routes := rfl
@[simp] theorem State.setSlot_reserved (s : State) (c i : Nat) (y : Slot) : (s.setSlot c i y).reserved = s.reserved := rfl
@[simp] theorem State.setSlot_token (s : State) (c i : Nat) (y : Slot) : (s.setSlot c i y).token = s.token := rfl
@[simp] theorem State.setSlot_notices (s : State) (c i : Nat) (y : Slot) : (s.setSlot c i y).notices = s.notices := rfl
@[simp] theorem State.setSlot_module (s : State) (c i : Nat) (y : Slot) : (s.setSlot c i y).module = s.module := rfl
@[simp] theorem State.setSlot_l2tlb (s : State) (c i : Nat) (y : Slot) : (s.setSlot c i y).l2tlb = s.l2tlb := rfl
@[simp] theorem State.setSlot_l2ctx (s : State) (c i : Nat) (y : Slot) : (s.setSlot c i y).l2ctx = s.l2ctx := rfl
@[simp] theorem State.setSlot_icache (s : State) (c i : Nat) (y : Slot) : (s.setSlot c i y).icache = s.icache := rfl
@[simp] theorem State.setSlot_out (s : State) (c i : Nat) (y : Slot) : (s.setSlot c i y).out = s.out := rfl
@[simp] theorem State.setSlot_cycle (s : State) (c i : Nat) (y : Slot) : (s.setSlot c i y).cycle = s.cycle := rfl
@[simp] theorem State.setSlot_cur (s : State) (c i : Nat) (y : Slot) : (s.setSlot c i y).cur = s.cur := rfl
@[simp] theorem State.setSlot_curEng (s : State) (c i : Nat) (y : Slot) : (s.setSlot c i y).curEng = s.curEng := rfl
@[simp] theorem State.setSlot_turn (s : State) (c i : Nat) (y : Slot) : (s.setSlot c i y).turn = s.turn := rfl
@[simp] theorem State.setSlot_agenda (s : State) (c i : Nat) (y : Slot) : (s.setSlot c i y).agenda = s.agenda := rfl
@[simp] theorem State.setSlot_due (s : State) (c i : Nat) (y : Slot) : (s.setSlot c i y).due = s.due := rfl
@[simp] theorem State.setSlot_later (s : State) (c i : Nat) (y : Slot) : (s.setSlot c i y).later = s.later := rfl
@[simp] theorem State.setSlot_fresh (s : State) (c i : Nat) (y : Slot) : (s.setSlot c i y).fresh = s.fresh := rfl
@[simp] theorem State.setSlot_nextId (s : State) (c i : Nat) (y : Slot) : (s.setSlot c i y).nextId = s.nextId := rfl

/-! ### setTh -/

@[simp] theorem State.setTh_blocks (s : State) (c i : Nat) (t : Thread) : (s.setTh c i t).blocks = s.blocks := rfl
@[simp] theorem State.setTh_mem (s : State) (c i : Nat) (t : Thread) : (s.setTh c i t).mem = s.mem := rfl
@[simp] theorem State.setTh_emptyW (s : State) (c i : Nat) (t : Thread) : (s.setTh c i t).emptyW = s.emptyW := rfl
@[simp] theorem State.setTh_tags (s : State) (c i : Nat) (t : Thread) : (s.setTh c i t).tags = s.tags := rfl
@[simp] theorem State.setTh_poison (s : State) (c i : Nat) (t : Thread) : (s.setTh c i t).poison = s.poison := rfl
@[simp] theorem State.setTh_reqs (s : State) (c i : Nat) (t : Thread) : (s.setTh c i t).reqs = s.reqs := rfl
@[simp] theorem State.setTh_feHeld (s : State) (c i : Nat) (t : Thread) : (s.setTh c i t).feHeld = s.feHeld := rfl
@[simp] theorem State.setTh_lrHeld (s : State) (c i : Nat) (t : Thread) : (s.setTh c i t).lrHeld = s.lrHeld := rfl
@[simp] theorem State.setTh_leases (s : State) (c i : Nat) (t : Thread) : (s.setTh c i t).leases = s.leases := rfl
@[simp] theorem State.setTh_ops (s : State) (c i : Nat) (t : Thread) : (s.setTh c i t).ops = s.ops := rfl
@[simp] theorem State.setTh_cmds (s : State) (c i : Nat) (t : Thread) : (s.setTh c i t).cmds = s.cmds := rfl
@[simp] theorem State.setTh_pools (s : State) (c i : Nat) (t : Thread) : (s.setTh c i t).pools = s.pools := rfl
@[simp] theorem State.setTh_rigs (s : State) (c i : Nat) (t : Thread) : (s.setTh c i t).rigs = s.rigs := rfl
@[simp] theorem State.setTh_arrivals (s : State) (c i : Nat) (t : Thread) : (s.setTh c i t).arrivals = s.arrivals := rfl
@[simp] theorem State.setTh_commits (s : State) (c i : Nat) (t : Thread) : (s.setTh c i t).commits = s.commits := rfl
@[simp] theorem State.setTh_stages (s : State) (c i : Nat) (t : Thread) : (s.setTh c i t).stages = s.stages := rfl
@[simp] theorem State.setTh_spills (s : State) (c i : Nat) (t : Thread) : (s.setTh c i t).spills = s.spills := rfl
@[simp] theorem State.setTh_queues (s : State) (c i : Nat) (t : Thread) : (s.setTh c i t).queues = s.queues := rfl
@[simp] theorem State.setTh_dies (s : State) (c i : Nat) (t : Thread) : (s.setTh c i t).dies = s.dies := rfl
@[simp] theorem State.setTh_parts (s : State) (c i : Nat) (t : Thread) : (s.setTh c i t).parts = s.parts := rfl
@[simp] theorem State.setTh_fns (s : State) (c i : Nat) (t : Thread) : (s.setTh c i t).fns = s.fns := rfl
@[simp] theorem State.setTh_hbms (s : State) (c i : Nat) (t : Thread) : (s.setTh c i t).hbms = s.hbms := rfl
@[simp] theorem State.setTh_layout (s : State) (c i : Nat) (t : Thread) : (s.setTh c i t).layout = s.layout := rfl
@[simp] theorem State.setTh_banks (s : State) (c i : Nat) (t : Thread) : (s.setTh c i t).banks = s.banks := rfl
@[simp] theorem State.setTh_errLog (s : State) (c i : Nat) (t : Thread) : (s.setTh c i t).errLog = s.errLog := rfl
@[simp] theorem State.setTh_acl (s : State) (c i : Nat) (t : Thread) : (s.setTh c i t).acl = s.acl := rfl
@[simp] theorem State.setTh_ports (s : State) (c i : Nat) (t : Thread) : (s.setTh c i t).ports = s.ports := rfl
@[simp] theorem State.setTh_linksDown (s : State) (c i : Nat) (t : Thread) : (s.setTh c i t).linksDown = s.linksDown := rfl
@[simp] theorem State.setTh_throttled (s : State) (c i : Nat) (t : Thread) : (s.setTh c i t).throttled = s.throttled := rfl
@[simp] theorem State.setTh_aborts (s : State) (c i : Nat) (t : Thread) : (s.setTh c i t).aborts = s.aborts := rfl
@[simp] theorem State.setTh_dirty (s : State) (c i : Nat) (t : Thread) : (s.setTh c i t).dirty = s.dirty := rfl
@[simp] theorem State.setTh_fabricId (s : State) (c i : Nat) (t : Thread) : (s.setTh c i t).fabricId = s.fabricId := rfl
@[simp] theorem State.setTh_routes (s : State) (c i : Nat) (t : Thread) : (s.setTh c i t).routes = s.routes := rfl
@[simp] theorem State.setTh_reserved (s : State) (c i : Nat) (t : Thread) : (s.setTh c i t).reserved = s.reserved := rfl
@[simp] theorem State.setTh_token (s : State) (c i : Nat) (t : Thread) : (s.setTh c i t).token = s.token := rfl
@[simp] theorem State.setTh_notices (s : State) (c i : Nat) (t : Thread) : (s.setTh c i t).notices = s.notices := rfl
@[simp] theorem State.setTh_module (s : State) (c i : Nat) (t : Thread) : (s.setTh c i t).module = s.module := rfl
@[simp] theorem State.setTh_l2tlb (s : State) (c i : Nat) (t : Thread) : (s.setTh c i t).l2tlb = s.l2tlb := rfl
@[simp] theorem State.setTh_l2ctx (s : State) (c i : Nat) (t : Thread) : (s.setTh c i t).l2ctx = s.l2ctx := rfl
@[simp] theorem State.setTh_icache (s : State) (c i : Nat) (t : Thread) : (s.setTh c i t).icache = s.icache := rfl
@[simp] theorem State.setTh_out (s : State) (c i : Nat) (t : Thread) : (s.setTh c i t).out = s.out := rfl
@[simp] theorem State.setTh_cycle (s : State) (c i : Nat) (t : Thread) : (s.setTh c i t).cycle = s.cycle := rfl
@[simp] theorem State.setTh_cur (s : State) (c i : Nat) (t : Thread) : (s.setTh c i t).cur = s.cur := rfl
@[simp] theorem State.setTh_curEng (s : State) (c i : Nat) (t : Thread) : (s.setTh c i t).curEng = s.curEng := rfl
@[simp] theorem State.setTh_turn (s : State) (c i : Nat) (t : Thread) : (s.setTh c i t).turn = s.turn := rfl
@[simp] theorem State.setTh_agenda (s : State) (c i : Nat) (t : Thread) : (s.setTh c i t).agenda = s.agenda := rfl
@[simp] theorem State.setTh_due (s : State) (c i : Nat) (t : Thread) : (s.setTh c i t).due = s.due := rfl
@[simp] theorem State.setTh_later (s : State) (c i : Nat) (t : Thread) : (s.setTh c i t).later = s.later := rfl
@[simp] theorem State.setTh_fresh (s : State) (c i : Nat) (t : Thread) : (s.setTh c i t).fresh = s.fresh := rfl
@[simp] theorem State.setTh_nextId (s : State) (c i : Nat) (t : Thread) : (s.setTh c i t).nextId = s.nextId := rfl

/-! ### modTh -/

@[simp] theorem State.modTh_blocks (s : State) (c i : Nat) (g : Thread → Thread) : (s.modTh c i g).blocks = s.blocks := rfl
@[simp] theorem State.modTh_mem (s : State) (c i : Nat) (g : Thread → Thread) : (s.modTh c i g).mem = s.mem := rfl
@[simp] theorem State.modTh_emptyW (s : State) (c i : Nat) (g : Thread → Thread) : (s.modTh c i g).emptyW = s.emptyW := rfl
@[simp] theorem State.modTh_tags (s : State) (c i : Nat) (g : Thread → Thread) : (s.modTh c i g).tags = s.tags := rfl
@[simp] theorem State.modTh_poison (s : State) (c i : Nat) (g : Thread → Thread) : (s.modTh c i g).poison = s.poison := rfl
@[simp] theorem State.modTh_reqs (s : State) (c i : Nat) (g : Thread → Thread) : (s.modTh c i g).reqs = s.reqs := rfl
@[simp] theorem State.modTh_feHeld (s : State) (c i : Nat) (g : Thread → Thread) : (s.modTh c i g).feHeld = s.feHeld := rfl
@[simp] theorem State.modTh_lrHeld (s : State) (c i : Nat) (g : Thread → Thread) : (s.modTh c i g).lrHeld = s.lrHeld := rfl
@[simp] theorem State.modTh_leases (s : State) (c i : Nat) (g : Thread → Thread) : (s.modTh c i g).leases = s.leases := rfl
@[simp] theorem State.modTh_ops (s : State) (c i : Nat) (g : Thread → Thread) : (s.modTh c i g).ops = s.ops := rfl
@[simp] theorem State.modTh_cmds (s : State) (c i : Nat) (g : Thread → Thread) : (s.modTh c i g).cmds = s.cmds := rfl
@[simp] theorem State.modTh_pools (s : State) (c i : Nat) (g : Thread → Thread) : (s.modTh c i g).pools = s.pools := rfl
@[simp] theorem State.modTh_rigs (s : State) (c i : Nat) (g : Thread → Thread) : (s.modTh c i g).rigs = s.rigs := rfl
@[simp] theorem State.modTh_arrivals (s : State) (c i : Nat) (g : Thread → Thread) : (s.modTh c i g).arrivals = s.arrivals := rfl
@[simp] theorem State.modTh_commits (s : State) (c i : Nat) (g : Thread → Thread) : (s.modTh c i g).commits = s.commits := rfl
@[simp] theorem State.modTh_stages (s : State) (c i : Nat) (g : Thread → Thread) : (s.modTh c i g).stages = s.stages := rfl
@[simp] theorem State.modTh_spills (s : State) (c i : Nat) (g : Thread → Thread) : (s.modTh c i g).spills = s.spills := rfl
@[simp] theorem State.modTh_queues (s : State) (c i : Nat) (g : Thread → Thread) : (s.modTh c i g).queues = s.queues := rfl
@[simp] theorem State.modTh_dies (s : State) (c i : Nat) (g : Thread → Thread) : (s.modTh c i g).dies = s.dies := rfl
@[simp] theorem State.modTh_parts (s : State) (c i : Nat) (g : Thread → Thread) : (s.modTh c i g).parts = s.parts := rfl
@[simp] theorem State.modTh_fns (s : State) (c i : Nat) (g : Thread → Thread) : (s.modTh c i g).fns = s.fns := rfl
@[simp] theorem State.modTh_hbms (s : State) (c i : Nat) (g : Thread → Thread) : (s.modTh c i g).hbms = s.hbms := rfl
@[simp] theorem State.modTh_layout (s : State) (c i : Nat) (g : Thread → Thread) : (s.modTh c i g).layout = s.layout := rfl
@[simp] theorem State.modTh_banks (s : State) (c i : Nat) (g : Thread → Thread) : (s.modTh c i g).banks = s.banks := rfl
@[simp] theorem State.modTh_errLog (s : State) (c i : Nat) (g : Thread → Thread) : (s.modTh c i g).errLog = s.errLog := rfl
@[simp] theorem State.modTh_acl (s : State) (c i : Nat) (g : Thread → Thread) : (s.modTh c i g).acl = s.acl := rfl
@[simp] theorem State.modTh_ports (s : State) (c i : Nat) (g : Thread → Thread) : (s.modTh c i g).ports = s.ports := rfl
@[simp] theorem State.modTh_linksDown (s : State) (c i : Nat) (g : Thread → Thread) : (s.modTh c i g).linksDown = s.linksDown := rfl
@[simp] theorem State.modTh_throttled (s : State) (c i : Nat) (g : Thread → Thread) : (s.modTh c i g).throttled = s.throttled := rfl
@[simp] theorem State.modTh_aborts (s : State) (c i : Nat) (g : Thread → Thread) : (s.modTh c i g).aborts = s.aborts := rfl
@[simp] theorem State.modTh_dirty (s : State) (c i : Nat) (g : Thread → Thread) : (s.modTh c i g).dirty = s.dirty := rfl
@[simp] theorem State.modTh_fabricId (s : State) (c i : Nat) (g : Thread → Thread) : (s.modTh c i g).fabricId = s.fabricId := rfl
@[simp] theorem State.modTh_routes (s : State) (c i : Nat) (g : Thread → Thread) : (s.modTh c i g).routes = s.routes := rfl
@[simp] theorem State.modTh_reserved (s : State) (c i : Nat) (g : Thread → Thread) : (s.modTh c i g).reserved = s.reserved := rfl
@[simp] theorem State.modTh_token (s : State) (c i : Nat) (g : Thread → Thread) : (s.modTh c i g).token = s.token := rfl
@[simp] theorem State.modTh_notices (s : State) (c i : Nat) (g : Thread → Thread) : (s.modTh c i g).notices = s.notices := rfl
@[simp] theorem State.modTh_module (s : State) (c i : Nat) (g : Thread → Thread) : (s.modTh c i g).module = s.module := rfl
@[simp] theorem State.modTh_l2tlb (s : State) (c i : Nat) (g : Thread → Thread) : (s.modTh c i g).l2tlb = s.l2tlb := rfl
@[simp] theorem State.modTh_l2ctx (s : State) (c i : Nat) (g : Thread → Thread) : (s.modTh c i g).l2ctx = s.l2ctx := rfl
@[simp] theorem State.modTh_icache (s : State) (c i : Nat) (g : Thread → Thread) : (s.modTh c i g).icache = s.icache := rfl
@[simp] theorem State.modTh_out (s : State) (c i : Nat) (g : Thread → Thread) : (s.modTh c i g).out = s.out := rfl
@[simp] theorem State.modTh_cycle (s : State) (c i : Nat) (g : Thread → Thread) : (s.modTh c i g).cycle = s.cycle := rfl
@[simp] theorem State.modTh_cur (s : State) (c i : Nat) (g : Thread → Thread) : (s.modTh c i g).cur = s.cur := rfl
@[simp] theorem State.modTh_curEng (s : State) (c i : Nat) (g : Thread → Thread) : (s.modTh c i g).curEng = s.curEng := rfl
@[simp] theorem State.modTh_turn (s : State) (c i : Nat) (g : Thread → Thread) : (s.modTh c i g).turn = s.turn := rfl
@[simp] theorem State.modTh_agenda (s : State) (c i : Nat) (g : Thread → Thread) : (s.modTh c i g).agenda = s.agenda := rfl
@[simp] theorem State.modTh_due (s : State) (c i : Nat) (g : Thread → Thread) : (s.modTh c i g).due = s.due := rfl
@[simp] theorem State.modTh_later (s : State) (c i : Nat) (g : Thread → Thread) : (s.modTh c i g).later = s.later := rfl
@[simp] theorem State.modTh_fresh (s : State) (c i : Nat) (g : Thread → Thread) : (s.modTh c i g).fresh = s.fresh := rfl
@[simp] theorem State.modTh_nextId (s : State) (c i : Nat) (g : Thread → Thread) : (s.modTh c i g).nextId = s.nextId := rfl

/-! ### modCell -/

@[simp] theorem State.modCell_blocks (s : State) (c : Nat) (g : Cell → Cell) : (s.modCell c g).blocks = s.blocks := rfl
@[simp] theorem State.modCell_mem (s : State) (c : Nat) (g : Cell → Cell) : (s.modCell c g).mem = s.mem := rfl
@[simp] theorem State.modCell_emptyW (s : State) (c : Nat) (g : Cell → Cell) : (s.modCell c g).emptyW = s.emptyW := rfl
@[simp] theorem State.modCell_tags (s : State) (c : Nat) (g : Cell → Cell) : (s.modCell c g).tags = s.tags := rfl
@[simp] theorem State.modCell_poison (s : State) (c : Nat) (g : Cell → Cell) : (s.modCell c g).poison = s.poison := rfl
@[simp] theorem State.modCell_reqs (s : State) (c : Nat) (g : Cell → Cell) : (s.modCell c g).reqs = s.reqs := rfl
@[simp] theorem State.modCell_feHeld (s : State) (c : Nat) (g : Cell → Cell) : (s.modCell c g).feHeld = s.feHeld := rfl
@[simp] theorem State.modCell_lrHeld (s : State) (c : Nat) (g : Cell → Cell) : (s.modCell c g).lrHeld = s.lrHeld := rfl
@[simp] theorem State.modCell_leases (s : State) (c : Nat) (g : Cell → Cell) : (s.modCell c g).leases = s.leases := rfl
@[simp] theorem State.modCell_ops (s : State) (c : Nat) (g : Cell → Cell) : (s.modCell c g).ops = s.ops := rfl
@[simp] theorem State.modCell_cmds (s : State) (c : Nat) (g : Cell → Cell) : (s.modCell c g).cmds = s.cmds := rfl
@[simp] theorem State.modCell_pools (s : State) (c : Nat) (g : Cell → Cell) : (s.modCell c g).pools = s.pools := rfl
@[simp] theorem State.modCell_rigs (s : State) (c : Nat) (g : Cell → Cell) : (s.modCell c g).rigs = s.rigs := rfl
@[simp] theorem State.modCell_arrivals (s : State) (c : Nat) (g : Cell → Cell) : (s.modCell c g).arrivals = s.arrivals := rfl
@[simp] theorem State.modCell_commits (s : State) (c : Nat) (g : Cell → Cell) : (s.modCell c g).commits = s.commits := rfl
@[simp] theorem State.modCell_stages (s : State) (c : Nat) (g : Cell → Cell) : (s.modCell c g).stages = s.stages := rfl
@[simp] theorem State.modCell_spills (s : State) (c : Nat) (g : Cell → Cell) : (s.modCell c g).spills = s.spills := rfl
@[simp] theorem State.modCell_queues (s : State) (c : Nat) (g : Cell → Cell) : (s.modCell c g).queues = s.queues := rfl
@[simp] theorem State.modCell_dies (s : State) (c : Nat) (g : Cell → Cell) : (s.modCell c g).dies = s.dies := rfl
@[simp] theorem State.modCell_parts (s : State) (c : Nat) (g : Cell → Cell) : (s.modCell c g).parts = s.parts := rfl
@[simp] theorem State.modCell_fns (s : State) (c : Nat) (g : Cell → Cell) : (s.modCell c g).fns = s.fns := rfl
@[simp] theorem State.modCell_hbms (s : State) (c : Nat) (g : Cell → Cell) : (s.modCell c g).hbms = s.hbms := rfl
@[simp] theorem State.modCell_layout (s : State) (c : Nat) (g : Cell → Cell) : (s.modCell c g).layout = s.layout := rfl
@[simp] theorem State.modCell_banks (s : State) (c : Nat) (g : Cell → Cell) : (s.modCell c g).banks = s.banks := rfl
@[simp] theorem State.modCell_errLog (s : State) (c : Nat) (g : Cell → Cell) : (s.modCell c g).errLog = s.errLog := rfl
@[simp] theorem State.modCell_acl (s : State) (c : Nat) (g : Cell → Cell) : (s.modCell c g).acl = s.acl := rfl
@[simp] theorem State.modCell_ports (s : State) (c : Nat) (g : Cell → Cell) : (s.modCell c g).ports = s.ports := rfl
@[simp] theorem State.modCell_linksDown (s : State) (c : Nat) (g : Cell → Cell) : (s.modCell c g).linksDown = s.linksDown := rfl
@[simp] theorem State.modCell_throttled (s : State) (c : Nat) (g : Cell → Cell) : (s.modCell c g).throttled = s.throttled := rfl
@[simp] theorem State.modCell_aborts (s : State) (c : Nat) (g : Cell → Cell) : (s.modCell c g).aborts = s.aborts := rfl
@[simp] theorem State.modCell_dirty (s : State) (c : Nat) (g : Cell → Cell) : (s.modCell c g).dirty = s.dirty := rfl
@[simp] theorem State.modCell_fabricId (s : State) (c : Nat) (g : Cell → Cell) : (s.modCell c g).fabricId = s.fabricId := rfl
@[simp] theorem State.modCell_routes (s : State) (c : Nat) (g : Cell → Cell) : (s.modCell c g).routes = s.routes := rfl
@[simp] theorem State.modCell_reserved (s : State) (c : Nat) (g : Cell → Cell) : (s.modCell c g).reserved = s.reserved := rfl
@[simp] theorem State.modCell_token (s : State) (c : Nat) (g : Cell → Cell) : (s.modCell c g).token = s.token := rfl
@[simp] theorem State.modCell_notices (s : State) (c : Nat) (g : Cell → Cell) : (s.modCell c g).notices = s.notices := rfl
@[simp] theorem State.modCell_module (s : State) (c : Nat) (g : Cell → Cell) : (s.modCell c g).module = s.module := rfl
@[simp] theorem State.modCell_l2tlb (s : State) (c : Nat) (g : Cell → Cell) : (s.modCell c g).l2tlb = s.l2tlb := rfl
@[simp] theorem State.modCell_l2ctx (s : State) (c : Nat) (g : Cell → Cell) : (s.modCell c g).l2ctx = s.l2ctx := rfl
@[simp] theorem State.modCell_icache (s : State) (c : Nat) (g : Cell → Cell) : (s.modCell c g).icache = s.icache := rfl
@[simp] theorem State.modCell_out (s : State) (c : Nat) (g : Cell → Cell) : (s.modCell c g).out = s.out := rfl
@[simp] theorem State.modCell_cycle (s : State) (c : Nat) (g : Cell → Cell) : (s.modCell c g).cycle = s.cycle := rfl
@[simp] theorem State.modCell_cur (s : State) (c : Nat) (g : Cell → Cell) : (s.modCell c g).cur = s.cur := rfl
@[simp] theorem State.modCell_curEng (s : State) (c : Nat) (g : Cell → Cell) : (s.modCell c g).curEng = s.curEng := rfl
@[simp] theorem State.modCell_turn (s : State) (c : Nat) (g : Cell → Cell) : (s.modCell c g).turn = s.turn := rfl
@[simp] theorem State.modCell_agenda (s : State) (c : Nat) (g : Cell → Cell) : (s.modCell c g).agenda = s.agenda := rfl
@[simp] theorem State.modCell_due (s : State) (c : Nat) (g : Cell → Cell) : (s.modCell c g).due = s.due := rfl
@[simp] theorem State.modCell_later (s : State) (c : Nat) (g : Cell → Cell) : (s.modCell c g).later = s.later := rfl
@[simp] theorem State.modCell_fresh (s : State) (c : Nat) (g : Cell → Cell) : (s.modCell c g).fresh = s.fresh := rfl
@[simp] theorem State.modCell_nextId (s : State) (c : Nat) (g : Cell → Cell) : (s.modCell c g).nextId = s.nextId := rfl

/-! ### writeK -/

@[simp] theorem State.writeK_blocks (s : State) (c i k : Nat) (v : W64) : (s.writeK c i k v).blocks = s.blocks := rfl
@[simp] theorem State.writeK_mem (s : State) (c i k : Nat) (v : W64) : (s.writeK c i k v).mem = s.mem := rfl
@[simp] theorem State.writeK_emptyW (s : State) (c i k : Nat) (v : W64) : (s.writeK c i k v).emptyW = s.emptyW := rfl
@[simp] theorem State.writeK_tags (s : State) (c i k : Nat) (v : W64) : (s.writeK c i k v).tags = s.tags := rfl
@[simp] theorem State.writeK_poison (s : State) (c i k : Nat) (v : W64) : (s.writeK c i k v).poison = s.poison := rfl
@[simp] theorem State.writeK_reqs (s : State) (c i k : Nat) (v : W64) : (s.writeK c i k v).reqs = s.reqs := rfl
@[simp] theorem State.writeK_feHeld (s : State) (c i k : Nat) (v : W64) : (s.writeK c i k v).feHeld = s.feHeld := rfl
@[simp] theorem State.writeK_lrHeld (s : State) (c i k : Nat) (v : W64) : (s.writeK c i k v).lrHeld = s.lrHeld := rfl
@[simp] theorem State.writeK_leases (s : State) (c i k : Nat) (v : W64) : (s.writeK c i k v).leases = s.leases := rfl
@[simp] theorem State.writeK_ops (s : State) (c i k : Nat) (v : W64) : (s.writeK c i k v).ops = s.ops := rfl
@[simp] theorem State.writeK_cmds (s : State) (c i k : Nat) (v : W64) : (s.writeK c i k v).cmds = s.cmds := rfl
@[simp] theorem State.writeK_pools (s : State) (c i k : Nat) (v : W64) : (s.writeK c i k v).pools = s.pools := rfl
@[simp] theorem State.writeK_rigs (s : State) (c i k : Nat) (v : W64) : (s.writeK c i k v).rigs = s.rigs := rfl
@[simp] theorem State.writeK_arrivals (s : State) (c i k : Nat) (v : W64) : (s.writeK c i k v).arrivals = s.arrivals := rfl
@[simp] theorem State.writeK_commits (s : State) (c i k : Nat) (v : W64) : (s.writeK c i k v).commits = s.commits := rfl
@[simp] theorem State.writeK_stages (s : State) (c i k : Nat) (v : W64) : (s.writeK c i k v).stages = s.stages := rfl
@[simp] theorem State.writeK_spills (s : State) (c i k : Nat) (v : W64) : (s.writeK c i k v).spills = s.spills := rfl
@[simp] theorem State.writeK_queues (s : State) (c i k : Nat) (v : W64) : (s.writeK c i k v).queues = s.queues := rfl
@[simp] theorem State.writeK_dies (s : State) (c i k : Nat) (v : W64) : (s.writeK c i k v).dies = s.dies := rfl
@[simp] theorem State.writeK_parts (s : State) (c i k : Nat) (v : W64) : (s.writeK c i k v).parts = s.parts := rfl
@[simp] theorem State.writeK_fns (s : State) (c i k : Nat) (v : W64) : (s.writeK c i k v).fns = s.fns := rfl
@[simp] theorem State.writeK_hbms (s : State) (c i k : Nat) (v : W64) : (s.writeK c i k v).hbms = s.hbms := rfl
@[simp] theorem State.writeK_layout (s : State) (c i k : Nat) (v : W64) : (s.writeK c i k v).layout = s.layout := rfl
@[simp] theorem State.writeK_banks (s : State) (c i k : Nat) (v : W64) : (s.writeK c i k v).banks = s.banks := rfl
@[simp] theorem State.writeK_errLog (s : State) (c i k : Nat) (v : W64) : (s.writeK c i k v).errLog = s.errLog := rfl
@[simp] theorem State.writeK_acl (s : State) (c i k : Nat) (v : W64) : (s.writeK c i k v).acl = s.acl := rfl
@[simp] theorem State.writeK_ports (s : State) (c i k : Nat) (v : W64) : (s.writeK c i k v).ports = s.ports := rfl
@[simp] theorem State.writeK_linksDown (s : State) (c i k : Nat) (v : W64) : (s.writeK c i k v).linksDown = s.linksDown := rfl
@[simp] theorem State.writeK_throttled (s : State) (c i k : Nat) (v : W64) : (s.writeK c i k v).throttled = s.throttled := rfl
@[simp] theorem State.writeK_aborts (s : State) (c i k : Nat) (v : W64) : (s.writeK c i k v).aborts = s.aborts := rfl
@[simp] theorem State.writeK_dirty (s : State) (c i k : Nat) (v : W64) : (s.writeK c i k v).dirty = s.dirty := rfl
@[simp] theorem State.writeK_fabricId (s : State) (c i k : Nat) (v : W64) : (s.writeK c i k v).fabricId = s.fabricId := rfl
@[simp] theorem State.writeK_routes (s : State) (c i k : Nat) (v : W64) : (s.writeK c i k v).routes = s.routes := rfl
@[simp] theorem State.writeK_reserved (s : State) (c i k : Nat) (v : W64) : (s.writeK c i k v).reserved = s.reserved := rfl
@[simp] theorem State.writeK_token (s : State) (c i k : Nat) (v : W64) : (s.writeK c i k v).token = s.token := rfl
@[simp] theorem State.writeK_notices (s : State) (c i k : Nat) (v : W64) : (s.writeK c i k v).notices = s.notices := rfl
@[simp] theorem State.writeK_module (s : State) (c i k : Nat) (v : W64) : (s.writeK c i k v).module = s.module := rfl
@[simp] theorem State.writeK_l2tlb (s : State) (c i k : Nat) (v : W64) : (s.writeK c i k v).l2tlb = s.l2tlb := rfl
@[simp] theorem State.writeK_l2ctx (s : State) (c i k : Nat) (v : W64) : (s.writeK c i k v).l2ctx = s.l2ctx := rfl
@[simp] theorem State.writeK_icache (s : State) (c i k : Nat) (v : W64) : (s.writeK c i k v).icache = s.icache := rfl
@[simp] theorem State.writeK_out (s : State) (c i k : Nat) (v : W64) : (s.writeK c i k v).out = s.out := rfl
@[simp] theorem State.writeK_cycle (s : State) (c i k : Nat) (v : W64) : (s.writeK c i k v).cycle = s.cycle := rfl
@[simp] theorem State.writeK_cur (s : State) (c i k : Nat) (v : W64) : (s.writeK c i k v).cur = s.cur := rfl
@[simp] theorem State.writeK_curEng (s : State) (c i k : Nat) (v : W64) : (s.writeK c i k v).curEng = s.curEng := rfl
@[simp] theorem State.writeK_turn (s : State) (c i k : Nat) (v : W64) : (s.writeK c i k v).turn = s.turn := rfl
@[simp] theorem State.writeK_agenda (s : State) (c i k : Nat) (v : W64) : (s.writeK c i k v).agenda = s.agenda := rfl
@[simp] theorem State.writeK_due (s : State) (c i k : Nat) (v : W64) : (s.writeK c i k v).due = s.due := rfl
@[simp] theorem State.writeK_later (s : State) (c i k : Nat) (v : W64) : (s.writeK c i k v).later = s.later := rfl
@[simp] theorem State.writeK_fresh (s : State) (c i k : Nat) (v : W64) : (s.writeK c i k v).fresh = s.fresh := rfl
@[simp] theorem State.writeK_nextId (s : State) (c i k : Nat) (v : W64) : (s.writeK c i k v).nextId = s.nextId := rfl

/-! ### setLink -/

@[simp] theorem State.setLink_blocks (s : State) (c i : Nat) (l : Link) : (s.setLink c i l).blocks = s.blocks := rfl
@[simp] theorem State.setLink_mem (s : State) (c i : Nat) (l : Link) : (s.setLink c i l).mem = s.mem := rfl
@[simp] theorem State.setLink_emptyW (s : State) (c i : Nat) (l : Link) : (s.setLink c i l).emptyW = s.emptyW := rfl
@[simp] theorem State.setLink_tags (s : State) (c i : Nat) (l : Link) : (s.setLink c i l).tags = s.tags := rfl
@[simp] theorem State.setLink_poison (s : State) (c i : Nat) (l : Link) : (s.setLink c i l).poison = s.poison := rfl
@[simp] theorem State.setLink_reqs (s : State) (c i : Nat) (l : Link) : (s.setLink c i l).reqs = s.reqs := rfl
@[simp] theorem State.setLink_feHeld (s : State) (c i : Nat) (l : Link) : (s.setLink c i l).feHeld = s.feHeld := rfl
@[simp] theorem State.setLink_lrHeld (s : State) (c i : Nat) (l : Link) : (s.setLink c i l).lrHeld = s.lrHeld := rfl
@[simp] theorem State.setLink_leases (s : State) (c i : Nat) (l : Link) : (s.setLink c i l).leases = s.leases := rfl
@[simp] theorem State.setLink_ops (s : State) (c i : Nat) (l : Link) : (s.setLink c i l).ops = s.ops := rfl
@[simp] theorem State.setLink_cmds (s : State) (c i : Nat) (l : Link) : (s.setLink c i l).cmds = s.cmds := rfl
@[simp] theorem State.setLink_pools (s : State) (c i : Nat) (l : Link) : (s.setLink c i l).pools = s.pools := rfl
@[simp] theorem State.setLink_rigs (s : State) (c i : Nat) (l : Link) : (s.setLink c i l).rigs = s.rigs := rfl
@[simp] theorem State.setLink_arrivals (s : State) (c i : Nat) (l : Link) : (s.setLink c i l).arrivals = s.arrivals := rfl
@[simp] theorem State.setLink_commits (s : State) (c i : Nat) (l : Link) : (s.setLink c i l).commits = s.commits := rfl
@[simp] theorem State.setLink_stages (s : State) (c i : Nat) (l : Link) : (s.setLink c i l).stages = s.stages := rfl
@[simp] theorem State.setLink_spills (s : State) (c i : Nat) (l : Link) : (s.setLink c i l).spills = s.spills := rfl
@[simp] theorem State.setLink_queues (s : State) (c i : Nat) (l : Link) : (s.setLink c i l).queues = s.queues := rfl
@[simp] theorem State.setLink_dies (s : State) (c i : Nat) (l : Link) : (s.setLink c i l).dies = s.dies := rfl
@[simp] theorem State.setLink_parts (s : State) (c i : Nat) (l : Link) : (s.setLink c i l).parts = s.parts := rfl
@[simp] theorem State.setLink_fns (s : State) (c i : Nat) (l : Link) : (s.setLink c i l).fns = s.fns := rfl
@[simp] theorem State.setLink_hbms (s : State) (c i : Nat) (l : Link) : (s.setLink c i l).hbms = s.hbms := rfl
@[simp] theorem State.setLink_layout (s : State) (c i : Nat) (l : Link) : (s.setLink c i l).layout = s.layout := rfl
@[simp] theorem State.setLink_banks (s : State) (c i : Nat) (l : Link) : (s.setLink c i l).banks = s.banks := rfl
@[simp] theorem State.setLink_errLog (s : State) (c i : Nat) (l : Link) : (s.setLink c i l).errLog = s.errLog := rfl
@[simp] theorem State.setLink_acl (s : State) (c i : Nat) (l : Link) : (s.setLink c i l).acl = s.acl := rfl
@[simp] theorem State.setLink_ports (s : State) (c i : Nat) (l : Link) : (s.setLink c i l).ports = s.ports := rfl
@[simp] theorem State.setLink_linksDown (s : State) (c i : Nat) (l : Link) : (s.setLink c i l).linksDown = s.linksDown := rfl
@[simp] theorem State.setLink_throttled (s : State) (c i : Nat) (l : Link) : (s.setLink c i l).throttled = s.throttled := rfl
@[simp] theorem State.setLink_aborts (s : State) (c i : Nat) (l : Link) : (s.setLink c i l).aborts = s.aborts := rfl
@[simp] theorem State.setLink_dirty (s : State) (c i : Nat) (l : Link) : (s.setLink c i l).dirty = s.dirty := rfl
@[simp] theorem State.setLink_fabricId (s : State) (c i : Nat) (l : Link) : (s.setLink c i l).fabricId = s.fabricId := rfl
@[simp] theorem State.setLink_routes (s : State) (c i : Nat) (l : Link) : (s.setLink c i l).routes = s.routes := rfl
@[simp] theorem State.setLink_reserved (s : State) (c i : Nat) (l : Link) : (s.setLink c i l).reserved = s.reserved := rfl
@[simp] theorem State.setLink_token (s : State) (c i : Nat) (l : Link) : (s.setLink c i l).token = s.token := rfl
@[simp] theorem State.setLink_notices (s : State) (c i : Nat) (l : Link) : (s.setLink c i l).notices = s.notices := rfl
@[simp] theorem State.setLink_module (s : State) (c i : Nat) (l : Link) : (s.setLink c i l).module = s.module := rfl
@[simp] theorem State.setLink_l2tlb (s : State) (c i : Nat) (l : Link) : (s.setLink c i l).l2tlb = s.l2tlb := rfl
@[simp] theorem State.setLink_l2ctx (s : State) (c i : Nat) (l : Link) : (s.setLink c i l).l2ctx = s.l2ctx := rfl
@[simp] theorem State.setLink_icache (s : State) (c i : Nat) (l : Link) : (s.setLink c i l).icache = s.icache := rfl
@[simp] theorem State.setLink_out (s : State) (c i : Nat) (l : Link) : (s.setLink c i l).out = s.out := rfl
@[simp] theorem State.setLink_cycle (s : State) (c i : Nat) (l : Link) : (s.setLink c i l).cycle = s.cycle := rfl
@[simp] theorem State.setLink_cur (s : State) (c i : Nat) (l : Link) : (s.setLink c i l).cur = s.cur := rfl
@[simp] theorem State.setLink_curEng (s : State) (c i : Nat) (l : Link) : (s.setLink c i l).curEng = s.curEng := rfl
@[simp] theorem State.setLink_turn (s : State) (c i : Nat) (l : Link) : (s.setLink c i l).turn = s.turn := rfl
@[simp] theorem State.setLink_agenda (s : State) (c i : Nat) (l : Link) : (s.setLink c i l).agenda = s.agenda := rfl
@[simp] theorem State.setLink_due (s : State) (c i : Nat) (l : Link) : (s.setLink c i l).due = s.due := rfl
@[simp] theorem State.setLink_later (s : State) (c i : Nat) (l : Link) : (s.setLink c i l).later = s.later := rfl
@[simp] theorem State.setLink_fresh (s : State) (c i : Nat) (l : Link) : (s.setLink c i l).fresh = s.fresh := rfl
@[simp] theorem State.setLink_nextId (s : State) (c i : Nat) (l : Link) : (s.setLink c i l).nextId = s.nextId := rfl

/-! ### setPart -/

@[simp] theorem State.setPart_cells (s : State) (p : Nat) (x : Part) : (s.setPart p x).cells = s.cells := rfl
@[simp] theorem State.setPart_blocks (s : State) (p : Nat) (x : Part) : (s.setPart p x).blocks = s.blocks := rfl
@[simp] theorem State.setPart_mem (s : State) (p : Nat) (x : Part) : (s.setPart p x).mem = s.mem := rfl
@[simp] theorem State.setPart_emptyW (s : State) (p : Nat) (x : Part) : (s.setPart p x).emptyW = s.emptyW := rfl
@[simp] theorem State.setPart_tags (s : State) (p : Nat) (x : Part) : (s.setPart p x).tags = s.tags := rfl
@[simp] theorem State.setPart_poison (s : State) (p : Nat) (x : Part) : (s.setPart p x).poison = s.poison := rfl
@[simp] theorem State.setPart_reqs (s : State) (p : Nat) (x : Part) : (s.setPart p x).reqs = s.reqs := rfl
@[simp] theorem State.setPart_feHeld (s : State) (p : Nat) (x : Part) : (s.setPart p x).feHeld = s.feHeld := rfl
@[simp] theorem State.setPart_lrHeld (s : State) (p : Nat) (x : Part) : (s.setPart p x).lrHeld = s.lrHeld := rfl
@[simp] theorem State.setPart_leases (s : State) (p : Nat) (x : Part) : (s.setPart p x).leases = s.leases := rfl
@[simp] theorem State.setPart_ops (s : State) (p : Nat) (x : Part) : (s.setPart p x).ops = s.ops := rfl
@[simp] theorem State.setPart_cmds (s : State) (p : Nat) (x : Part) : (s.setPart p x).cmds = s.cmds := rfl
@[simp] theorem State.setPart_pools (s : State) (p : Nat) (x : Part) : (s.setPart p x).pools = s.pools := rfl
@[simp] theorem State.setPart_rigs (s : State) (p : Nat) (x : Part) : (s.setPart p x).rigs = s.rigs := rfl
@[simp] theorem State.setPart_arrivals (s : State) (p : Nat) (x : Part) : (s.setPart p x).arrivals = s.arrivals := rfl
@[simp] theorem State.setPart_commits (s : State) (p : Nat) (x : Part) : (s.setPart p x).commits = s.commits := rfl
@[simp] theorem State.setPart_stages (s : State) (p : Nat) (x : Part) : (s.setPart p x).stages = s.stages := rfl
@[simp] theorem State.setPart_spills (s : State) (p : Nat) (x : Part) : (s.setPart p x).spills = s.spills := rfl
@[simp] theorem State.setPart_queues (s : State) (p : Nat) (x : Part) : (s.setPart p x).queues = s.queues := rfl
@[simp] theorem State.setPart_dies (s : State) (p : Nat) (x : Part) : (s.setPart p x).dies = s.dies := rfl
@[simp] theorem State.setPart_fns (s : State) (p : Nat) (x : Part) : (s.setPart p x).fns = s.fns := rfl
@[simp] theorem State.setPart_hbms (s : State) (p : Nat) (x : Part) : (s.setPart p x).hbms = s.hbms := rfl
@[simp] theorem State.setPart_layout (s : State) (p : Nat) (x : Part) : (s.setPart p x).layout = s.layout := rfl
@[simp] theorem State.setPart_banks (s : State) (p : Nat) (x : Part) : (s.setPart p x).banks = s.banks := rfl
@[simp] theorem State.setPart_errLog (s : State) (p : Nat) (x : Part) : (s.setPart p x).errLog = s.errLog := rfl
@[simp] theorem State.setPart_acl (s : State) (p : Nat) (x : Part) : (s.setPart p x).acl = s.acl := rfl
@[simp] theorem State.setPart_ports (s : State) (p : Nat) (x : Part) : (s.setPart p x).ports = s.ports := rfl
@[simp] theorem State.setPart_linksDown (s : State) (p : Nat) (x : Part) : (s.setPart p x).linksDown = s.linksDown := rfl
@[simp] theorem State.setPart_throttled (s : State) (p : Nat) (x : Part) : (s.setPart p x).throttled = s.throttled := rfl
@[simp] theorem State.setPart_aborts (s : State) (p : Nat) (x : Part) : (s.setPart p x).aborts = s.aborts := rfl
@[simp] theorem State.setPart_dirty (s : State) (p : Nat) (x : Part) : (s.setPart p x).dirty = s.dirty := rfl
@[simp] theorem State.setPart_fabricId (s : State) (p : Nat) (x : Part) : (s.setPart p x).fabricId = s.fabricId := rfl
@[simp] theorem State.setPart_routes (s : State) (p : Nat) (x : Part) : (s.setPart p x).routes = s.routes := rfl
@[simp] theorem State.setPart_reserved (s : State) (p : Nat) (x : Part) : (s.setPart p x).reserved = s.reserved := rfl
@[simp] theorem State.setPart_token (s : State) (p : Nat) (x : Part) : (s.setPart p x).token = s.token := rfl
@[simp] theorem State.setPart_notices (s : State) (p : Nat) (x : Part) : (s.setPart p x).notices = s.notices := rfl
@[simp] theorem State.setPart_module (s : State) (p : Nat) (x : Part) : (s.setPart p x).module = s.module := rfl
@[simp] theorem State.setPart_l2tlb (s : State) (p : Nat) (x : Part) : (s.setPart p x).l2tlb = s.l2tlb := rfl
@[simp] theorem State.setPart_l2ctx (s : State) (p : Nat) (x : Part) : (s.setPart p x).l2ctx = s.l2ctx := rfl
@[simp] theorem State.setPart_icache (s : State) (p : Nat) (x : Part) : (s.setPart p x).icache = s.icache := rfl
@[simp] theorem State.setPart_out (s : State) (p : Nat) (x : Part) : (s.setPart p x).out = s.out := rfl
@[simp] theorem State.setPart_cycle (s : State) (p : Nat) (x : Part) : (s.setPart p x).cycle = s.cycle := rfl
@[simp] theorem State.setPart_cur (s : State) (p : Nat) (x : Part) : (s.setPart p x).cur = s.cur := rfl
@[simp] theorem State.setPart_curEng (s : State) (p : Nat) (x : Part) : (s.setPart p x).curEng = s.curEng := rfl
@[simp] theorem State.setPart_turn (s : State) (p : Nat) (x : Part) : (s.setPart p x).turn = s.turn := rfl
@[simp] theorem State.setPart_agenda (s : State) (p : Nat) (x : Part) : (s.setPart p x).agenda = s.agenda := rfl
@[simp] theorem State.setPart_due (s : State) (p : Nat) (x : Part) : (s.setPart p x).due = s.due := rfl
@[simp] theorem State.setPart_later (s : State) (p : Nat) (x : Part) : (s.setPart p x).later = s.later := rfl
@[simp] theorem State.setPart_fresh (s : State) (p : Nat) (x : Part) : (s.setPart p x).fresh = s.fresh := rfl
@[simp] theorem State.setPart_nextId (s : State) (p : Nat) (x : Part) : (s.setPart p x).nextId = s.nextId := rfl

/-! ### setFn -/

@[simp] theorem State.setFn_cells (s : State) (f : Nat) (x : Fn) : (s.setFn f x).cells = s.cells := rfl
@[simp] theorem State.setFn_blocks (s : State) (f : Nat) (x : Fn) : (s.setFn f x).blocks = s.blocks := rfl
@[simp] theorem State.setFn_mem (s : State) (f : Nat) (x : Fn) : (s.setFn f x).mem = s.mem := rfl
@[simp] theorem State.setFn_emptyW (s : State) (f : Nat) (x : Fn) : (s.setFn f x).emptyW = s.emptyW := rfl
@[simp] theorem State.setFn_tags (s : State) (f : Nat) (x : Fn) : (s.setFn f x).tags = s.tags := rfl
@[simp] theorem State.setFn_poison (s : State) (f : Nat) (x : Fn) : (s.setFn f x).poison = s.poison := rfl
@[simp] theorem State.setFn_reqs (s : State) (f : Nat) (x : Fn) : (s.setFn f x).reqs = s.reqs := rfl
@[simp] theorem State.setFn_feHeld (s : State) (f : Nat) (x : Fn) : (s.setFn f x).feHeld = s.feHeld := rfl
@[simp] theorem State.setFn_lrHeld (s : State) (f : Nat) (x : Fn) : (s.setFn f x).lrHeld = s.lrHeld := rfl
@[simp] theorem State.setFn_leases (s : State) (f : Nat) (x : Fn) : (s.setFn f x).leases = s.leases := rfl
@[simp] theorem State.setFn_ops (s : State) (f : Nat) (x : Fn) : (s.setFn f x).ops = s.ops := rfl
@[simp] theorem State.setFn_cmds (s : State) (f : Nat) (x : Fn) : (s.setFn f x).cmds = s.cmds := rfl
@[simp] theorem State.setFn_pools (s : State) (f : Nat) (x : Fn) : (s.setFn f x).pools = s.pools := rfl
@[simp] theorem State.setFn_rigs (s : State) (f : Nat) (x : Fn) : (s.setFn f x).rigs = s.rigs := rfl
@[simp] theorem State.setFn_arrivals (s : State) (f : Nat) (x : Fn) : (s.setFn f x).arrivals = s.arrivals := rfl
@[simp] theorem State.setFn_commits (s : State) (f : Nat) (x : Fn) : (s.setFn f x).commits = s.commits := rfl
@[simp] theorem State.setFn_stages (s : State) (f : Nat) (x : Fn) : (s.setFn f x).stages = s.stages := rfl
@[simp] theorem State.setFn_spills (s : State) (f : Nat) (x : Fn) : (s.setFn f x).spills = s.spills := rfl
@[simp] theorem State.setFn_queues (s : State) (f : Nat) (x : Fn) : (s.setFn f x).queues = s.queues := rfl
@[simp] theorem State.setFn_dies (s : State) (f : Nat) (x : Fn) : (s.setFn f x).dies = s.dies := rfl
@[simp] theorem State.setFn_parts (s : State) (f : Nat) (x : Fn) : (s.setFn f x).parts = s.parts := rfl
@[simp] theorem State.setFn_hbms (s : State) (f : Nat) (x : Fn) : (s.setFn f x).hbms = s.hbms := rfl
@[simp] theorem State.setFn_layout (s : State) (f : Nat) (x : Fn) : (s.setFn f x).layout = s.layout := rfl
@[simp] theorem State.setFn_banks (s : State) (f : Nat) (x : Fn) : (s.setFn f x).banks = s.banks := rfl
@[simp] theorem State.setFn_errLog (s : State) (f : Nat) (x : Fn) : (s.setFn f x).errLog = s.errLog := rfl
@[simp] theorem State.setFn_acl (s : State) (f : Nat) (x : Fn) : (s.setFn f x).acl = s.acl := rfl
@[simp] theorem State.setFn_ports (s : State) (f : Nat) (x : Fn) : (s.setFn f x).ports = s.ports := rfl
@[simp] theorem State.setFn_linksDown (s : State) (f : Nat) (x : Fn) : (s.setFn f x).linksDown = s.linksDown := rfl
@[simp] theorem State.setFn_throttled (s : State) (f : Nat) (x : Fn) : (s.setFn f x).throttled = s.throttled := rfl
@[simp] theorem State.setFn_aborts (s : State) (f : Nat) (x : Fn) : (s.setFn f x).aborts = s.aborts := rfl
@[simp] theorem State.setFn_dirty (s : State) (f : Nat) (x : Fn) : (s.setFn f x).dirty = s.dirty := rfl
@[simp] theorem State.setFn_fabricId (s : State) (f : Nat) (x : Fn) : (s.setFn f x).fabricId = s.fabricId := rfl
@[simp] theorem State.setFn_routes (s : State) (f : Nat) (x : Fn) : (s.setFn f x).routes = s.routes := rfl
@[simp] theorem State.setFn_reserved (s : State) (f : Nat) (x : Fn) : (s.setFn f x).reserved = s.reserved := rfl
@[simp] theorem State.setFn_token (s : State) (f : Nat) (x : Fn) : (s.setFn f x).token = s.token := rfl
@[simp] theorem State.setFn_notices (s : State) (f : Nat) (x : Fn) : (s.setFn f x).notices = s.notices := rfl
@[simp] theorem State.setFn_module (s : State) (f : Nat) (x : Fn) : (s.setFn f x).module = s.module := rfl
@[simp] theorem State.setFn_l2tlb (s : State) (f : Nat) (x : Fn) : (s.setFn f x).l2tlb = s.l2tlb := rfl
@[simp] theorem State.setFn_l2ctx (s : State) (f : Nat) (x : Fn) : (s.setFn f x).l2ctx = s.l2ctx := rfl
@[simp] theorem State.setFn_icache (s : State) (f : Nat) (x : Fn) : (s.setFn f x).icache = s.icache := rfl
@[simp] theorem State.setFn_out (s : State) (f : Nat) (x : Fn) : (s.setFn f x).out = s.out := rfl
@[simp] theorem State.setFn_cycle (s : State) (f : Nat) (x : Fn) : (s.setFn f x).cycle = s.cycle := rfl
@[simp] theorem State.setFn_cur (s : State) (f : Nat) (x : Fn) : (s.setFn f x).cur = s.cur := rfl
@[simp] theorem State.setFn_curEng (s : State) (f : Nat) (x : Fn) : (s.setFn f x).curEng = s.curEng := rfl
@[simp] theorem State.setFn_turn (s : State) (f : Nat) (x : Fn) : (s.setFn f x).turn = s.turn := rfl
@[simp] theorem State.setFn_agenda (s : State) (f : Nat) (x : Fn) : (s.setFn f x).agenda = s.agenda := rfl
@[simp] theorem State.setFn_due (s : State) (f : Nat) (x : Fn) : (s.setFn f x).due = s.due := rfl
@[simp] theorem State.setFn_later (s : State) (f : Nat) (x : Fn) : (s.setFn f x).later = s.later := rfl
@[simp] theorem State.setFn_fresh (s : State) (f : Nat) (x : Fn) : (s.setFn f x).fresh = s.fresh := rfl
@[simp] theorem State.setFn_nextId (s : State) (f : Nat) (x : Fn) : (s.setFn f x).nextId = s.nextId := rfl

/-! ### setDie -/

@[simp] theorem State.setDie_cells (s : State) (d : Nat) (x : Die) : (s.setDie d x).cells = s.cells := rfl
@[simp] theorem State.setDie_blocks (s : State) (d : Nat) (x : Die) : (s.setDie d x).blocks = s.blocks := rfl
@[simp] theorem State.setDie_mem (s : State) (d : Nat) (x : Die) : (s.setDie d x).mem = s.mem := rfl
@[simp] theorem State.setDie_emptyW (s : State) (d : Nat) (x : Die) : (s.setDie d x).emptyW = s.emptyW := rfl
@[simp] theorem State.setDie_tags (s : State) (d : Nat) (x : Die) : (s.setDie d x).tags = s.tags := rfl
@[simp] theorem State.setDie_poison (s : State) (d : Nat) (x : Die) : (s.setDie d x).poison = s.poison := rfl
@[simp] theorem State.setDie_reqs (s : State) (d : Nat) (x : Die) : (s.setDie d x).reqs = s.reqs := rfl
@[simp] theorem State.setDie_feHeld (s : State) (d : Nat) (x : Die) : (s.setDie d x).feHeld = s.feHeld := rfl
@[simp] theorem State.setDie_lrHeld (s : State) (d : Nat) (x : Die) : (s.setDie d x).lrHeld = s.lrHeld := rfl
@[simp] theorem State.setDie_leases (s : State) (d : Nat) (x : Die) : (s.setDie d x).leases = s.leases := rfl
@[simp] theorem State.setDie_ops (s : State) (d : Nat) (x : Die) : (s.setDie d x).ops = s.ops := rfl
@[simp] theorem State.setDie_cmds (s : State) (d : Nat) (x : Die) : (s.setDie d x).cmds = s.cmds := rfl
@[simp] theorem State.setDie_pools (s : State) (d : Nat) (x : Die) : (s.setDie d x).pools = s.pools := rfl
@[simp] theorem State.setDie_rigs (s : State) (d : Nat) (x : Die) : (s.setDie d x).rigs = s.rigs := rfl
@[simp] theorem State.setDie_arrivals (s : State) (d : Nat) (x : Die) : (s.setDie d x).arrivals = s.arrivals := rfl
@[simp] theorem State.setDie_commits (s : State) (d : Nat) (x : Die) : (s.setDie d x).commits = s.commits := rfl
@[simp] theorem State.setDie_stages (s : State) (d : Nat) (x : Die) : (s.setDie d x).stages = s.stages := rfl
@[simp] theorem State.setDie_spills (s : State) (d : Nat) (x : Die) : (s.setDie d x).spills = s.spills := rfl
@[simp] theorem State.setDie_queues (s : State) (d : Nat) (x : Die) : (s.setDie d x).queues = s.queues := rfl
@[simp] theorem State.setDie_parts (s : State) (d : Nat) (x : Die) : (s.setDie d x).parts = s.parts := rfl
@[simp] theorem State.setDie_fns (s : State) (d : Nat) (x : Die) : (s.setDie d x).fns = s.fns := rfl
@[simp] theorem State.setDie_hbms (s : State) (d : Nat) (x : Die) : (s.setDie d x).hbms = s.hbms := rfl
@[simp] theorem State.setDie_layout (s : State) (d : Nat) (x : Die) : (s.setDie d x).layout = s.layout := rfl
@[simp] theorem State.setDie_banks (s : State) (d : Nat) (x : Die) : (s.setDie d x).banks = s.banks := rfl
@[simp] theorem State.setDie_errLog (s : State) (d : Nat) (x : Die) : (s.setDie d x).errLog = s.errLog := rfl
@[simp] theorem State.setDie_acl (s : State) (d : Nat) (x : Die) : (s.setDie d x).acl = s.acl := rfl
@[simp] theorem State.setDie_ports (s : State) (d : Nat) (x : Die) : (s.setDie d x).ports = s.ports := rfl
@[simp] theorem State.setDie_linksDown (s : State) (d : Nat) (x : Die) : (s.setDie d x).linksDown = s.linksDown := rfl
@[simp] theorem State.setDie_throttled (s : State) (d : Nat) (x : Die) : (s.setDie d x).throttled = s.throttled := rfl
@[simp] theorem State.setDie_aborts (s : State) (d : Nat) (x : Die) : (s.setDie d x).aborts = s.aborts := rfl
@[simp] theorem State.setDie_dirty (s : State) (d : Nat) (x : Die) : (s.setDie d x).dirty = s.dirty := rfl
@[simp] theorem State.setDie_fabricId (s : State) (d : Nat) (x : Die) : (s.setDie d x).fabricId = s.fabricId := rfl
@[simp] theorem State.setDie_routes (s : State) (d : Nat) (x : Die) : (s.setDie d x).routes = s.routes := rfl
@[simp] theorem State.setDie_reserved (s : State) (d : Nat) (x : Die) : (s.setDie d x).reserved = s.reserved := rfl
@[simp] theorem State.setDie_token (s : State) (d : Nat) (x : Die) : (s.setDie d x).token = s.token := rfl
@[simp] theorem State.setDie_notices (s : State) (d : Nat) (x : Die) : (s.setDie d x).notices = s.notices := rfl
@[simp] theorem State.setDie_module (s : State) (d : Nat) (x : Die) : (s.setDie d x).module = s.module := rfl
@[simp] theorem State.setDie_l2tlb (s : State) (d : Nat) (x : Die) : (s.setDie d x).l2tlb = s.l2tlb := rfl
@[simp] theorem State.setDie_l2ctx (s : State) (d : Nat) (x : Die) : (s.setDie d x).l2ctx = s.l2ctx := rfl
@[simp] theorem State.setDie_icache (s : State) (d : Nat) (x : Die) : (s.setDie d x).icache = s.icache := rfl
@[simp] theorem State.setDie_out (s : State) (d : Nat) (x : Die) : (s.setDie d x).out = s.out := rfl
@[simp] theorem State.setDie_cycle (s : State) (d : Nat) (x : Die) : (s.setDie d x).cycle = s.cycle := rfl
@[simp] theorem State.setDie_cur (s : State) (d : Nat) (x : Die) : (s.setDie d x).cur = s.cur := rfl
@[simp] theorem State.setDie_curEng (s : State) (d : Nat) (x : Die) : (s.setDie d x).curEng = s.curEng := rfl
@[simp] theorem State.setDie_turn (s : State) (d : Nat) (x : Die) : (s.setDie d x).turn = s.turn := rfl
@[simp] theorem State.setDie_agenda (s : State) (d : Nat) (x : Die) : (s.setDie d x).agenda = s.agenda := rfl
@[simp] theorem State.setDie_due (s : State) (d : Nat) (x : Die) : (s.setDie d x).due = s.due := rfl
@[simp] theorem State.setDie_later (s : State) (d : Nat) (x : Die) : (s.setDie d x).later = s.later := rfl
@[simp] theorem State.setDie_fresh (s : State) (d : Nat) (x : Die) : (s.setDie d x).fresh = s.fresh := rfl
@[simp] theorem State.setDie_nextId (s : State) (d : Nat) (x : Die) : (s.setDie d x).nextId = s.nextId := rfl

/-! ### setStack -/

@[simp] theorem State.setStack_cells (s : State) (k : Nat) (x : Stack) : (s.setStack k x).cells = s.cells := rfl
@[simp] theorem State.setStack_blocks (s : State) (k : Nat) (x : Stack) : (s.setStack k x).blocks = s.blocks := rfl
@[simp] theorem State.setStack_mem (s : State) (k : Nat) (x : Stack) : (s.setStack k x).mem = s.mem := rfl
@[simp] theorem State.setStack_emptyW (s : State) (k : Nat) (x : Stack) : (s.setStack k x).emptyW = s.emptyW := rfl
@[simp] theorem State.setStack_tags (s : State) (k : Nat) (x : Stack) : (s.setStack k x).tags = s.tags := rfl
@[simp] theorem State.setStack_poison (s : State) (k : Nat) (x : Stack) : (s.setStack k x).poison = s.poison := rfl
@[simp] theorem State.setStack_reqs (s : State) (k : Nat) (x : Stack) : (s.setStack k x).reqs = s.reqs := rfl
@[simp] theorem State.setStack_feHeld (s : State) (k : Nat) (x : Stack) : (s.setStack k x).feHeld = s.feHeld := rfl
@[simp] theorem State.setStack_lrHeld (s : State) (k : Nat) (x : Stack) : (s.setStack k x).lrHeld = s.lrHeld := rfl
@[simp] theorem State.setStack_leases (s : State) (k : Nat) (x : Stack) : (s.setStack k x).leases = s.leases := rfl
@[simp] theorem State.setStack_ops (s : State) (k : Nat) (x : Stack) : (s.setStack k x).ops = s.ops := rfl
@[simp] theorem State.setStack_cmds (s : State) (k : Nat) (x : Stack) : (s.setStack k x).cmds = s.cmds := rfl
@[simp] theorem State.setStack_pools (s : State) (k : Nat) (x : Stack) : (s.setStack k x).pools = s.pools := rfl
@[simp] theorem State.setStack_rigs (s : State) (k : Nat) (x : Stack) : (s.setStack k x).rigs = s.rigs := rfl
@[simp] theorem State.setStack_arrivals (s : State) (k : Nat) (x : Stack) : (s.setStack k x).arrivals = s.arrivals := rfl
@[simp] theorem State.setStack_commits (s : State) (k : Nat) (x : Stack) : (s.setStack k x).commits = s.commits := rfl
@[simp] theorem State.setStack_stages (s : State) (k : Nat) (x : Stack) : (s.setStack k x).stages = s.stages := rfl
@[simp] theorem State.setStack_spills (s : State) (k : Nat) (x : Stack) : (s.setStack k x).spills = s.spills := rfl
@[simp] theorem State.setStack_queues (s : State) (k : Nat) (x : Stack) : (s.setStack k x).queues = s.queues := rfl
@[simp] theorem State.setStack_dies (s : State) (k : Nat) (x : Stack) : (s.setStack k x).dies = s.dies := rfl
@[simp] theorem State.setStack_parts (s : State) (k : Nat) (x : Stack) : (s.setStack k x).parts = s.parts := rfl
@[simp] theorem State.setStack_fns (s : State) (k : Nat) (x : Stack) : (s.setStack k x).fns = s.fns := rfl
@[simp] theorem State.setStack_layout (s : State) (k : Nat) (x : Stack) : (s.setStack k x).layout = s.layout := rfl
@[simp] theorem State.setStack_banks (s : State) (k : Nat) (x : Stack) : (s.setStack k x).banks = s.banks := rfl
@[simp] theorem State.setStack_errLog (s : State) (k : Nat) (x : Stack) : (s.setStack k x).errLog = s.errLog := rfl
@[simp] theorem State.setStack_acl (s : State) (k : Nat) (x : Stack) : (s.setStack k x).acl = s.acl := rfl
@[simp] theorem State.setStack_ports (s : State) (k : Nat) (x : Stack) : (s.setStack k x).ports = s.ports := rfl
@[simp] theorem State.setStack_linksDown (s : State) (k : Nat) (x : Stack) : (s.setStack k x).linksDown = s.linksDown := rfl
@[simp] theorem State.setStack_throttled (s : State) (k : Nat) (x : Stack) : (s.setStack k x).throttled = s.throttled := rfl
@[simp] theorem State.setStack_aborts (s : State) (k : Nat) (x : Stack) : (s.setStack k x).aborts = s.aborts := rfl
@[simp] theorem State.setStack_dirty (s : State) (k : Nat) (x : Stack) : (s.setStack k x).dirty = s.dirty := rfl
@[simp] theorem State.setStack_fabricId (s : State) (k : Nat) (x : Stack) : (s.setStack k x).fabricId = s.fabricId := rfl
@[simp] theorem State.setStack_routes (s : State) (k : Nat) (x : Stack) : (s.setStack k x).routes = s.routes := rfl
@[simp] theorem State.setStack_reserved (s : State) (k : Nat) (x : Stack) : (s.setStack k x).reserved = s.reserved := rfl
@[simp] theorem State.setStack_token (s : State) (k : Nat) (x : Stack) : (s.setStack k x).token = s.token := rfl
@[simp] theorem State.setStack_notices (s : State) (k : Nat) (x : Stack) : (s.setStack k x).notices = s.notices := rfl
@[simp] theorem State.setStack_module (s : State) (k : Nat) (x : Stack) : (s.setStack k x).module = s.module := rfl
@[simp] theorem State.setStack_l2tlb (s : State) (k : Nat) (x : Stack) : (s.setStack k x).l2tlb = s.l2tlb := rfl
@[simp] theorem State.setStack_l2ctx (s : State) (k : Nat) (x : Stack) : (s.setStack k x).l2ctx = s.l2ctx := rfl
@[simp] theorem State.setStack_icache (s : State) (k : Nat) (x : Stack) : (s.setStack k x).icache = s.icache := rfl
@[simp] theorem State.setStack_out (s : State) (k : Nat) (x : Stack) : (s.setStack k x).out = s.out := rfl
@[simp] theorem State.setStack_cycle (s : State) (k : Nat) (x : Stack) : (s.setStack k x).cycle = s.cycle := rfl
@[simp] theorem State.setStack_cur (s : State) (k : Nat) (x : Stack) : (s.setStack k x).cur = s.cur := rfl
@[simp] theorem State.setStack_curEng (s : State) (k : Nat) (x : Stack) : (s.setStack k x).curEng = s.curEng := rfl
@[simp] theorem State.setStack_turn (s : State) (k : Nat) (x : Stack) : (s.setStack k x).turn = s.turn := rfl
@[simp] theorem State.setStack_agenda (s : State) (k : Nat) (x : Stack) : (s.setStack k x).agenda = s.agenda := rfl
@[simp] theorem State.setStack_due (s : State) (k : Nat) (x : Stack) : (s.setStack k x).due = s.due := rfl
@[simp] theorem State.setStack_later (s : State) (k : Nat) (x : Stack) : (s.setStack k x).later = s.later := rfl
@[simp] theorem State.setStack_fresh (s : State) (k : Nat) (x : Stack) : (s.setStack k x).fresh = s.fresh := rfl
@[simp] theorem State.setStack_nextId (s : State) (k : Nat) (x : Stack) : (s.setStack k x).nextId = s.nextId := rfl

/-! ### setQueue -/

@[simp] theorem State.setQueue_cells (s : State) (q : Nat) (x : HwQueue) : (s.setQueue q x).cells = s.cells := rfl
@[simp] theorem State.setQueue_blocks (s : State) (q : Nat) (x : HwQueue) : (s.setQueue q x).blocks = s.blocks := rfl
@[simp] theorem State.setQueue_mem (s : State) (q : Nat) (x : HwQueue) : (s.setQueue q x).mem = s.mem := rfl
@[simp] theorem State.setQueue_emptyW (s : State) (q : Nat) (x : HwQueue) : (s.setQueue q x).emptyW = s.emptyW := rfl
@[simp] theorem State.setQueue_tags (s : State) (q : Nat) (x : HwQueue) : (s.setQueue q x).tags = s.tags := rfl
@[simp] theorem State.setQueue_poison (s : State) (q : Nat) (x : HwQueue) : (s.setQueue q x).poison = s.poison := rfl
@[simp] theorem State.setQueue_reqs (s : State) (q : Nat) (x : HwQueue) : (s.setQueue q x).reqs = s.reqs := rfl
@[simp] theorem State.setQueue_feHeld (s : State) (q : Nat) (x : HwQueue) : (s.setQueue q x).feHeld = s.feHeld := rfl
@[simp] theorem State.setQueue_lrHeld (s : State) (q : Nat) (x : HwQueue) : (s.setQueue q x).lrHeld = s.lrHeld := rfl
@[simp] theorem State.setQueue_leases (s : State) (q : Nat) (x : HwQueue) : (s.setQueue q x).leases = s.leases := rfl
@[simp] theorem State.setQueue_ops (s : State) (q : Nat) (x : HwQueue) : (s.setQueue q x).ops = s.ops := rfl
@[simp] theorem State.setQueue_cmds (s : State) (q : Nat) (x : HwQueue) : (s.setQueue q x).cmds = s.cmds := rfl
@[simp] theorem State.setQueue_pools (s : State) (q : Nat) (x : HwQueue) : (s.setQueue q x).pools = s.pools := rfl
@[simp] theorem State.setQueue_rigs (s : State) (q : Nat) (x : HwQueue) : (s.setQueue q x).rigs = s.rigs := rfl
@[simp] theorem State.setQueue_arrivals (s : State) (q : Nat) (x : HwQueue) : (s.setQueue q x).arrivals = s.arrivals := rfl
@[simp] theorem State.setQueue_commits (s : State) (q : Nat) (x : HwQueue) : (s.setQueue q x).commits = s.commits := rfl
@[simp] theorem State.setQueue_stages (s : State) (q : Nat) (x : HwQueue) : (s.setQueue q x).stages = s.stages := rfl
@[simp] theorem State.setQueue_spills (s : State) (q : Nat) (x : HwQueue) : (s.setQueue q x).spills = s.spills := rfl
@[simp] theorem State.setQueue_dies (s : State) (q : Nat) (x : HwQueue) : (s.setQueue q x).dies = s.dies := rfl
@[simp] theorem State.setQueue_parts (s : State) (q : Nat) (x : HwQueue) : (s.setQueue q x).parts = s.parts := rfl
@[simp] theorem State.setQueue_fns (s : State) (q : Nat) (x : HwQueue) : (s.setQueue q x).fns = s.fns := rfl
@[simp] theorem State.setQueue_hbms (s : State) (q : Nat) (x : HwQueue) : (s.setQueue q x).hbms = s.hbms := rfl
@[simp] theorem State.setQueue_layout (s : State) (q : Nat) (x : HwQueue) : (s.setQueue q x).layout = s.layout := rfl
@[simp] theorem State.setQueue_banks (s : State) (q : Nat) (x : HwQueue) : (s.setQueue q x).banks = s.banks := rfl
@[simp] theorem State.setQueue_errLog (s : State) (q : Nat) (x : HwQueue) : (s.setQueue q x).errLog = s.errLog := rfl
@[simp] theorem State.setQueue_acl (s : State) (q : Nat) (x : HwQueue) : (s.setQueue q x).acl = s.acl := rfl
@[simp] theorem State.setQueue_ports (s : State) (q : Nat) (x : HwQueue) : (s.setQueue q x).ports = s.ports := rfl
@[simp] theorem State.setQueue_linksDown (s : State) (q : Nat) (x : HwQueue) : (s.setQueue q x).linksDown = s.linksDown := rfl
@[simp] theorem State.setQueue_throttled (s : State) (q : Nat) (x : HwQueue) : (s.setQueue q x).throttled = s.throttled := rfl
@[simp] theorem State.setQueue_aborts (s : State) (q : Nat) (x : HwQueue) : (s.setQueue q x).aborts = s.aborts := rfl
@[simp] theorem State.setQueue_dirty (s : State) (q : Nat) (x : HwQueue) : (s.setQueue q x).dirty = s.dirty := rfl
@[simp] theorem State.setQueue_fabricId (s : State) (q : Nat) (x : HwQueue) : (s.setQueue q x).fabricId = s.fabricId := rfl
@[simp] theorem State.setQueue_routes (s : State) (q : Nat) (x : HwQueue) : (s.setQueue q x).routes = s.routes := rfl
@[simp] theorem State.setQueue_reserved (s : State) (q : Nat) (x : HwQueue) : (s.setQueue q x).reserved = s.reserved := rfl
@[simp] theorem State.setQueue_token (s : State) (q : Nat) (x : HwQueue) : (s.setQueue q x).token = s.token := rfl
@[simp] theorem State.setQueue_notices (s : State) (q : Nat) (x : HwQueue) : (s.setQueue q x).notices = s.notices := rfl
@[simp] theorem State.setQueue_module (s : State) (q : Nat) (x : HwQueue) : (s.setQueue q x).module = s.module := rfl
@[simp] theorem State.setQueue_l2tlb (s : State) (q : Nat) (x : HwQueue) : (s.setQueue q x).l2tlb = s.l2tlb := rfl
@[simp] theorem State.setQueue_l2ctx (s : State) (q : Nat) (x : HwQueue) : (s.setQueue q x).l2ctx = s.l2ctx := rfl
@[simp] theorem State.setQueue_icache (s : State) (q : Nat) (x : HwQueue) : (s.setQueue q x).icache = s.icache := rfl
@[simp] theorem State.setQueue_out (s : State) (q : Nat) (x : HwQueue) : (s.setQueue q x).out = s.out := rfl
@[simp] theorem State.setQueue_cycle (s : State) (q : Nat) (x : HwQueue) : (s.setQueue q x).cycle = s.cycle := rfl
@[simp] theorem State.setQueue_cur (s : State) (q : Nat) (x : HwQueue) : (s.setQueue q x).cur = s.cur := rfl
@[simp] theorem State.setQueue_curEng (s : State) (q : Nat) (x : HwQueue) : (s.setQueue q x).curEng = s.curEng := rfl
@[simp] theorem State.setQueue_turn (s : State) (q : Nat) (x : HwQueue) : (s.setQueue q x).turn = s.turn := rfl
@[simp] theorem State.setQueue_agenda (s : State) (q : Nat) (x : HwQueue) : (s.setQueue q x).agenda = s.agenda := rfl
@[simp] theorem State.setQueue_due (s : State) (q : Nat) (x : HwQueue) : (s.setQueue q x).due = s.due := rfl
@[simp] theorem State.setQueue_later (s : State) (q : Nat) (x : HwQueue) : (s.setQueue q x).later = s.later := rfl
@[simp] theorem State.setQueue_fresh (s : State) (q : Nat) (x : HwQueue) : (s.setQueue q x).fresh = s.fresh := rfl
@[simp] theorem State.setQueue_nextId (s : State) (q : Nat) (x : HwQueue) : (s.setQueue q x).nextId = s.nextId := rfl

/-! ### emitOut -/

@[simp] theorem State.emitOut_cells (s : State) (o : Out) : (s.emitOut o).cells = s.cells := rfl
@[simp] theorem State.emitOut_blocks (s : State) (o : Out) : (s.emitOut o).blocks = s.blocks := rfl
@[simp] theorem State.emitOut_mem (s : State) (o : Out) : (s.emitOut o).mem = s.mem := rfl
@[simp] theorem State.emitOut_emptyW (s : State) (o : Out) : (s.emitOut o).emptyW = s.emptyW := rfl
@[simp] theorem State.emitOut_tags (s : State) (o : Out) : (s.emitOut o).tags = s.tags := rfl
@[simp] theorem State.emitOut_poison (s : State) (o : Out) : (s.emitOut o).poison = s.poison := rfl
@[simp] theorem State.emitOut_reqs (s : State) (o : Out) : (s.emitOut o).reqs = s.reqs := rfl
@[simp] theorem State.emitOut_feHeld (s : State) (o : Out) : (s.emitOut o).feHeld = s.feHeld := rfl
@[simp] theorem State.emitOut_lrHeld (s : State) (o : Out) : (s.emitOut o).lrHeld = s.lrHeld := rfl
@[simp] theorem State.emitOut_leases (s : State) (o : Out) : (s.emitOut o).leases = s.leases := rfl
@[simp] theorem State.emitOut_ops (s : State) (o : Out) : (s.emitOut o).ops = s.ops := rfl
@[simp] theorem State.emitOut_cmds (s : State) (o : Out) : (s.emitOut o).cmds = s.cmds := rfl
@[simp] theorem State.emitOut_pools (s : State) (o : Out) : (s.emitOut o).pools = s.pools := rfl
@[simp] theorem State.emitOut_rigs (s : State) (o : Out) : (s.emitOut o).rigs = s.rigs := rfl
@[simp] theorem State.emitOut_arrivals (s : State) (o : Out) : (s.emitOut o).arrivals = s.arrivals := rfl
@[simp] theorem State.emitOut_commits (s : State) (o : Out) : (s.emitOut o).commits = s.commits := rfl
@[simp] theorem State.emitOut_stages (s : State) (o : Out) : (s.emitOut o).stages = s.stages := rfl
@[simp] theorem State.emitOut_spills (s : State) (o : Out) : (s.emitOut o).spills = s.spills := rfl
@[simp] theorem State.emitOut_queues (s : State) (o : Out) : (s.emitOut o).queues = s.queues := rfl
@[simp] theorem State.emitOut_dies (s : State) (o : Out) : (s.emitOut o).dies = s.dies := rfl
@[simp] theorem State.emitOut_parts (s : State) (o : Out) : (s.emitOut o).parts = s.parts := rfl
@[simp] theorem State.emitOut_fns (s : State) (o : Out) : (s.emitOut o).fns = s.fns := rfl
@[simp] theorem State.emitOut_hbms (s : State) (o : Out) : (s.emitOut o).hbms = s.hbms := rfl
@[simp] theorem State.emitOut_layout (s : State) (o : Out) : (s.emitOut o).layout = s.layout := rfl
@[simp] theorem State.emitOut_banks (s : State) (o : Out) : (s.emitOut o).banks = s.banks := rfl
@[simp] theorem State.emitOut_errLog (s : State) (o : Out) : (s.emitOut o).errLog = s.errLog := rfl
@[simp] theorem State.emitOut_acl (s : State) (o : Out) : (s.emitOut o).acl = s.acl := rfl
@[simp] theorem State.emitOut_ports (s : State) (o : Out) : (s.emitOut o).ports = s.ports := rfl
@[simp] theorem State.emitOut_linksDown (s : State) (o : Out) : (s.emitOut o).linksDown = s.linksDown := rfl
@[simp] theorem State.emitOut_throttled (s : State) (o : Out) : (s.emitOut o).throttled = s.throttled := rfl
@[simp] theorem State.emitOut_aborts (s : State) (o : Out) : (s.emitOut o).aborts = s.aborts := rfl
@[simp] theorem State.emitOut_dirty (s : State) (o : Out) : (s.emitOut o).dirty = s.dirty := rfl
@[simp] theorem State.emitOut_fabricId (s : State) (o : Out) : (s.emitOut o).fabricId = s.fabricId := rfl
@[simp] theorem State.emitOut_routes (s : State) (o : Out) : (s.emitOut o).routes = s.routes := rfl
@[simp] theorem State.emitOut_reserved (s : State) (o : Out) : (s.emitOut o).reserved = s.reserved := rfl
@[simp] theorem State.emitOut_token (s : State) (o : Out) : (s.emitOut o).token = s.token := rfl
@[simp] theorem State.emitOut_notices (s : State) (o : Out) : (s.emitOut o).notices = s.notices := rfl
@[simp] theorem State.emitOut_module (s : State) (o : Out) : (s.emitOut o).module = s.module := rfl
@[simp] theorem State.emitOut_l2tlb (s : State) (o : Out) : (s.emitOut o).l2tlb = s.l2tlb := rfl
@[simp] theorem State.emitOut_l2ctx (s : State) (o : Out) : (s.emitOut o).l2ctx = s.l2ctx := rfl
@[simp] theorem State.emitOut_icache (s : State) (o : Out) : (s.emitOut o).icache = s.icache := rfl
@[simp] theorem State.emitOut_cycle (s : State) (o : Out) : (s.emitOut o).cycle = s.cycle := rfl
@[simp] theorem State.emitOut_cur (s : State) (o : Out) : (s.emitOut o).cur = s.cur := rfl
@[simp] theorem State.emitOut_curEng (s : State) (o : Out) : (s.emitOut o).curEng = s.curEng := rfl
@[simp] theorem State.emitOut_turn (s : State) (o : Out) : (s.emitOut o).turn = s.turn := rfl
@[simp] theorem State.emitOut_agenda (s : State) (o : Out) : (s.emitOut o).agenda = s.agenda := rfl
@[simp] theorem State.emitOut_due (s : State) (o : Out) : (s.emitOut o).due = s.due := rfl
@[simp] theorem State.emitOut_later (s : State) (o : Out) : (s.emitOut o).later = s.later := rfl
@[simp] theorem State.emitOut_fresh (s : State) (o : Out) : (s.emitOut o).fresh = s.fresh := rfl
@[simp] theorem State.emitOut_nextId (s : State) (o : Out) : (s.emitOut o).nextId = s.nextId := rfl

/-! ### dueNow -/

@[simp] theorem State.dueNow_cells (s : State) (d : Due) : (s.dueNow d).cells = s.cells := rfl
@[simp] theorem State.dueNow_blocks (s : State) (d : Due) : (s.dueNow d).blocks = s.blocks := rfl
@[simp] theorem State.dueNow_mem (s : State) (d : Due) : (s.dueNow d).mem = s.mem := rfl
@[simp] theorem State.dueNow_emptyW (s : State) (d : Due) : (s.dueNow d).emptyW = s.emptyW := rfl
@[simp] theorem State.dueNow_tags (s : State) (d : Due) : (s.dueNow d).tags = s.tags := rfl
@[simp] theorem State.dueNow_poison (s : State) (d : Due) : (s.dueNow d).poison = s.poison := rfl
@[simp] theorem State.dueNow_reqs (s : State) (d : Due) : (s.dueNow d).reqs = s.reqs := rfl
@[simp] theorem State.dueNow_feHeld (s : State) (d : Due) : (s.dueNow d).feHeld = s.feHeld := rfl
@[simp] theorem State.dueNow_lrHeld (s : State) (d : Due) : (s.dueNow d).lrHeld = s.lrHeld := rfl
@[simp] theorem State.dueNow_leases (s : State) (d : Due) : (s.dueNow d).leases = s.leases := rfl
@[simp] theorem State.dueNow_ops (s : State) (d : Due) : (s.dueNow d).ops = s.ops := rfl
@[simp] theorem State.dueNow_cmds (s : State) (d : Due) : (s.dueNow d).cmds = s.cmds := rfl
@[simp] theorem State.dueNow_pools (s : State) (d : Due) : (s.dueNow d).pools = s.pools := rfl
@[simp] theorem State.dueNow_rigs (s : State) (d : Due) : (s.dueNow d).rigs = s.rigs := rfl
@[simp] theorem State.dueNow_arrivals (s : State) (d : Due) : (s.dueNow d).arrivals = s.arrivals := rfl
@[simp] theorem State.dueNow_commits (s : State) (d : Due) : (s.dueNow d).commits = s.commits := rfl
@[simp] theorem State.dueNow_stages (s : State) (d : Due) : (s.dueNow d).stages = s.stages := rfl
@[simp] theorem State.dueNow_spills (s : State) (d : Due) : (s.dueNow d).spills = s.spills := rfl
@[simp] theorem State.dueNow_queues (s : State) (d : Due) : (s.dueNow d).queues = s.queues := rfl
@[simp] theorem State.dueNow_dies (s : State) (d : Due) : (s.dueNow d).dies = s.dies := rfl
@[simp] theorem State.dueNow_parts (s : State) (d : Due) : (s.dueNow d).parts = s.parts := rfl
@[simp] theorem State.dueNow_fns (s : State) (d : Due) : (s.dueNow d).fns = s.fns := rfl
@[simp] theorem State.dueNow_hbms (s : State) (d : Due) : (s.dueNow d).hbms = s.hbms := rfl
@[simp] theorem State.dueNow_layout (s : State) (d : Due) : (s.dueNow d).layout = s.layout := rfl
@[simp] theorem State.dueNow_banks (s : State) (d : Due) : (s.dueNow d).banks = s.banks := rfl
@[simp] theorem State.dueNow_errLog (s : State) (d : Due) : (s.dueNow d).errLog = s.errLog := rfl
@[simp] theorem State.dueNow_acl (s : State) (d : Due) : (s.dueNow d).acl = s.acl := rfl
@[simp] theorem State.dueNow_ports (s : State) (d : Due) : (s.dueNow d).ports = s.ports := rfl
@[simp] theorem State.dueNow_linksDown (s : State) (d : Due) : (s.dueNow d).linksDown = s.linksDown := rfl
@[simp] theorem State.dueNow_throttled (s : State) (d : Due) : (s.dueNow d).throttled = s.throttled := rfl
@[simp] theorem State.dueNow_aborts (s : State) (d : Due) : (s.dueNow d).aborts = s.aborts := rfl
@[simp] theorem State.dueNow_dirty (s : State) (d : Due) : (s.dueNow d).dirty = s.dirty := rfl
@[simp] theorem State.dueNow_fabricId (s : State) (d : Due) : (s.dueNow d).fabricId = s.fabricId := rfl
@[simp] theorem State.dueNow_routes (s : State) (d : Due) : (s.dueNow d).routes = s.routes := rfl
@[simp] theorem State.dueNow_reserved (s : State) (d : Due) : (s.dueNow d).reserved = s.reserved := rfl
@[simp] theorem State.dueNow_token (s : State) (d : Due) : (s.dueNow d).token = s.token := rfl
@[simp] theorem State.dueNow_notices (s : State) (d : Due) : (s.dueNow d).notices = s.notices := rfl
@[simp] theorem State.dueNow_module (s : State) (d : Due) : (s.dueNow d).module = s.module := rfl
@[simp] theorem State.dueNow_l2tlb (s : State) (d : Due) : (s.dueNow d).l2tlb = s.l2tlb := rfl
@[simp] theorem State.dueNow_l2ctx (s : State) (d : Due) : (s.dueNow d).l2ctx = s.l2ctx := rfl
@[simp] theorem State.dueNow_icache (s : State) (d : Due) : (s.dueNow d).icache = s.icache := rfl
@[simp] theorem State.dueNow_out (s : State) (d : Due) : (s.dueNow d).out = s.out := rfl
@[simp] theorem State.dueNow_cycle (s : State) (d : Due) : (s.dueNow d).cycle = s.cycle := rfl
@[simp] theorem State.dueNow_cur (s : State) (d : Due) : (s.dueNow d).cur = s.cur := rfl
@[simp] theorem State.dueNow_curEng (s : State) (d : Due) : (s.dueNow d).curEng = s.curEng := rfl
@[simp] theorem State.dueNow_turn (s : State) (d : Due) : (s.dueNow d).turn = s.turn := rfl
@[simp] theorem State.dueNow_agenda (s : State) (d : Due) : (s.dueNow d).agenda = s.agenda := rfl
@[simp] theorem State.dueNow_later (s : State) (d : Due) : (s.dueNow d).later = s.later := rfl
@[simp] theorem State.dueNow_fresh (s : State) (d : Due) : (s.dueNow d).fresh = s.fresh := rfl
@[simp] theorem State.dueNow_nextId (s : State) (d : Due) : (s.dueNow d).nextId = s.nextId := rfl

/-! ### dueAt -/

@[simp] theorem State.dueAt_cells (s : State) (n : Nat) (d : Due) : (s.dueAt n d).cells = s.cells := rfl
@[simp] theorem State.dueAt_blocks (s : State) (n : Nat) (d : Due) : (s.dueAt n d).blocks = s.blocks := rfl
@[simp] theorem State.dueAt_mem (s : State) (n : Nat) (d : Due) : (s.dueAt n d).mem = s.mem := rfl
@[simp] theorem State.dueAt_emptyW (s : State) (n : Nat) (d : Due) : (s.dueAt n d).emptyW = s.emptyW := rfl
@[simp] theorem State.dueAt_tags (s : State) (n : Nat) (d : Due) : (s.dueAt n d).tags = s.tags := rfl
@[simp] theorem State.dueAt_poison (s : State) (n : Nat) (d : Due) : (s.dueAt n d).poison = s.poison := rfl
@[simp] theorem State.dueAt_reqs (s : State) (n : Nat) (d : Due) : (s.dueAt n d).reqs = s.reqs := rfl
@[simp] theorem State.dueAt_feHeld (s : State) (n : Nat) (d : Due) : (s.dueAt n d).feHeld = s.feHeld := rfl
@[simp] theorem State.dueAt_lrHeld (s : State) (n : Nat) (d : Due) : (s.dueAt n d).lrHeld = s.lrHeld := rfl
@[simp] theorem State.dueAt_leases (s : State) (n : Nat) (d : Due) : (s.dueAt n d).leases = s.leases := rfl
@[simp] theorem State.dueAt_ops (s : State) (n : Nat) (d : Due) : (s.dueAt n d).ops = s.ops := rfl
@[simp] theorem State.dueAt_cmds (s : State) (n : Nat) (d : Due) : (s.dueAt n d).cmds = s.cmds := rfl
@[simp] theorem State.dueAt_pools (s : State) (n : Nat) (d : Due) : (s.dueAt n d).pools = s.pools := rfl
@[simp] theorem State.dueAt_rigs (s : State) (n : Nat) (d : Due) : (s.dueAt n d).rigs = s.rigs := rfl
@[simp] theorem State.dueAt_arrivals (s : State) (n : Nat) (d : Due) : (s.dueAt n d).arrivals = s.arrivals := rfl
@[simp] theorem State.dueAt_commits (s : State) (n : Nat) (d : Due) : (s.dueAt n d).commits = s.commits := rfl
@[simp] theorem State.dueAt_stages (s : State) (n : Nat) (d : Due) : (s.dueAt n d).stages = s.stages := rfl
@[simp] theorem State.dueAt_spills (s : State) (n : Nat) (d : Due) : (s.dueAt n d).spills = s.spills := rfl
@[simp] theorem State.dueAt_queues (s : State) (n : Nat) (d : Due) : (s.dueAt n d).queues = s.queues := rfl
@[simp] theorem State.dueAt_dies (s : State) (n : Nat) (d : Due) : (s.dueAt n d).dies = s.dies := rfl
@[simp] theorem State.dueAt_parts (s : State) (n : Nat) (d : Due) : (s.dueAt n d).parts = s.parts := rfl
@[simp] theorem State.dueAt_fns (s : State) (n : Nat) (d : Due) : (s.dueAt n d).fns = s.fns := rfl
@[simp] theorem State.dueAt_hbms (s : State) (n : Nat) (d : Due) : (s.dueAt n d).hbms = s.hbms := rfl
@[simp] theorem State.dueAt_layout (s : State) (n : Nat) (d : Due) : (s.dueAt n d).layout = s.layout := rfl
@[simp] theorem State.dueAt_banks (s : State) (n : Nat) (d : Due) : (s.dueAt n d).banks = s.banks := rfl
@[simp] theorem State.dueAt_errLog (s : State) (n : Nat) (d : Due) : (s.dueAt n d).errLog = s.errLog := rfl
@[simp] theorem State.dueAt_acl (s : State) (n : Nat) (d : Due) : (s.dueAt n d).acl = s.acl := rfl
@[simp] theorem State.dueAt_ports (s : State) (n : Nat) (d : Due) : (s.dueAt n d).ports = s.ports := rfl
@[simp] theorem State.dueAt_linksDown (s : State) (n : Nat) (d : Due) : (s.dueAt n d).linksDown = s.linksDown := rfl
@[simp] theorem State.dueAt_throttled (s : State) (n : Nat) (d : Due) : (s.dueAt n d).throttled = s.throttled := rfl
@[simp] theorem State.dueAt_aborts (s : State) (n : Nat) (d : Due) : (s.dueAt n d).aborts = s.aborts := rfl
@[simp] theorem State.dueAt_dirty (s : State) (n : Nat) (d : Due) : (s.dueAt n d).dirty = s.dirty := rfl
@[simp] theorem State.dueAt_fabricId (s : State) (n : Nat) (d : Due) : (s.dueAt n d).fabricId = s.fabricId := rfl
@[simp] theorem State.dueAt_routes (s : State) (n : Nat) (d : Due) : (s.dueAt n d).routes = s.routes := rfl
@[simp] theorem State.dueAt_reserved (s : State) (n : Nat) (d : Due) : (s.dueAt n d).reserved = s.reserved := rfl
@[simp] theorem State.dueAt_token (s : State) (n : Nat) (d : Due) : (s.dueAt n d).token = s.token := rfl
@[simp] theorem State.dueAt_notices (s : State) (n : Nat) (d : Due) : (s.dueAt n d).notices = s.notices := rfl
@[simp] theorem State.dueAt_module (s : State) (n : Nat) (d : Due) : (s.dueAt n d).module = s.module := rfl
@[simp] theorem State.dueAt_l2tlb (s : State) (n : Nat) (d : Due) : (s.dueAt n d).l2tlb = s.l2tlb := rfl
@[simp] theorem State.dueAt_l2ctx (s : State) (n : Nat) (d : Due) : (s.dueAt n d).l2ctx = s.l2ctx := rfl
@[simp] theorem State.dueAt_icache (s : State) (n : Nat) (d : Due) : (s.dueAt n d).icache = s.icache := rfl
@[simp] theorem State.dueAt_out (s : State) (n : Nat) (d : Due) : (s.dueAt n d).out = s.out := rfl
@[simp] theorem State.dueAt_cycle (s : State) (n : Nat) (d : Due) : (s.dueAt n d).cycle = s.cycle := rfl
@[simp] theorem State.dueAt_cur (s : State) (n : Nat) (d : Due) : (s.dueAt n d).cur = s.cur := rfl
@[simp] theorem State.dueAt_curEng (s : State) (n : Nat) (d : Due) : (s.dueAt n d).curEng = s.curEng := rfl
@[simp] theorem State.dueAt_turn (s : State) (n : Nat) (d : Due) : (s.dueAt n d).turn = s.turn := rfl
@[simp] theorem State.dueAt_agenda (s : State) (n : Nat) (d : Due) : (s.dueAt n d).agenda = s.agenda := rfl
@[simp] theorem State.dueAt_due (s : State) (n : Nat) (d : Due) : (s.dueAt n d).due = s.due := rfl
@[simp] theorem State.dueAt_fresh (s : State) (n : Nat) (d : Due) : (s.dueAt n d).fresh = s.fresh := rfl
@[simp] theorem State.dueAt_nextId (s : State) (n : Nat) (d : Due) : (s.dueAt n d).nextId = s.nextId := rfl

/-! ### dueLater -/

@[simp] theorem State.dueLater_cells (s : State) (d : Due) : (s.dueLater d).cells = s.cells := rfl
@[simp] theorem State.dueLater_blocks (s : State) (d : Due) : (s.dueLater d).blocks = s.blocks := rfl
@[simp] theorem State.dueLater_mem (s : State) (d : Due) : (s.dueLater d).mem = s.mem := rfl
@[simp] theorem State.dueLater_emptyW (s : State) (d : Due) : (s.dueLater d).emptyW = s.emptyW := rfl
@[simp] theorem State.dueLater_tags (s : State) (d : Due) : (s.dueLater d).tags = s.tags := rfl
@[simp] theorem State.dueLater_poison (s : State) (d : Due) : (s.dueLater d).poison = s.poison := rfl
@[simp] theorem State.dueLater_reqs (s : State) (d : Due) : (s.dueLater d).reqs = s.reqs := rfl
@[simp] theorem State.dueLater_feHeld (s : State) (d : Due) : (s.dueLater d).feHeld = s.feHeld := rfl
@[simp] theorem State.dueLater_lrHeld (s : State) (d : Due) : (s.dueLater d).lrHeld = s.lrHeld := rfl
@[simp] theorem State.dueLater_leases (s : State) (d : Due) : (s.dueLater d).leases = s.leases := rfl
@[simp] theorem State.dueLater_ops (s : State) (d : Due) : (s.dueLater d).ops = s.ops := rfl
@[simp] theorem State.dueLater_cmds (s : State) (d : Due) : (s.dueLater d).cmds = s.cmds := rfl
@[simp] theorem State.dueLater_pools (s : State) (d : Due) : (s.dueLater d).pools = s.pools := rfl
@[simp] theorem State.dueLater_rigs (s : State) (d : Due) : (s.dueLater d).rigs = s.rigs := rfl
@[simp] theorem State.dueLater_arrivals (s : State) (d : Due) : (s.dueLater d).arrivals = s.arrivals := rfl
@[simp] theorem State.dueLater_commits (s : State) (d : Due) : (s.dueLater d).commits = s.commits := rfl
@[simp] theorem State.dueLater_stages (s : State) (d : Due) : (s.dueLater d).stages = s.stages := rfl
@[simp] theorem State.dueLater_spills (s : State) (d : Due) : (s.dueLater d).spills = s.spills := rfl
@[simp] theorem State.dueLater_queues (s : State) (d : Due) : (s.dueLater d).queues = s.queues := rfl
@[simp] theorem State.dueLater_dies (s : State) (d : Due) : (s.dueLater d).dies = s.dies := rfl
@[simp] theorem State.dueLater_parts (s : State) (d : Due) : (s.dueLater d).parts = s.parts := rfl
@[simp] theorem State.dueLater_fns (s : State) (d : Due) : (s.dueLater d).fns = s.fns := rfl
@[simp] theorem State.dueLater_hbms (s : State) (d : Due) : (s.dueLater d).hbms = s.hbms := rfl
@[simp] theorem State.dueLater_layout (s : State) (d : Due) : (s.dueLater d).layout = s.layout := rfl
@[simp] theorem State.dueLater_banks (s : State) (d : Due) : (s.dueLater d).banks = s.banks := rfl
@[simp] theorem State.dueLater_errLog (s : State) (d : Due) : (s.dueLater d).errLog = s.errLog := rfl
@[simp] theorem State.dueLater_acl (s : State) (d : Due) : (s.dueLater d).acl = s.acl := rfl
@[simp] theorem State.dueLater_ports (s : State) (d : Due) : (s.dueLater d).ports = s.ports := rfl
@[simp] theorem State.dueLater_linksDown (s : State) (d : Due) : (s.dueLater d).linksDown = s.linksDown := rfl
@[simp] theorem State.dueLater_throttled (s : State) (d : Due) : (s.dueLater d).throttled = s.throttled := rfl
@[simp] theorem State.dueLater_aborts (s : State) (d : Due) : (s.dueLater d).aborts = s.aborts := rfl
@[simp] theorem State.dueLater_dirty (s : State) (d : Due) : (s.dueLater d).dirty = s.dirty := rfl
@[simp] theorem State.dueLater_fabricId (s : State) (d : Due) : (s.dueLater d).fabricId = s.fabricId := rfl
@[simp] theorem State.dueLater_routes (s : State) (d : Due) : (s.dueLater d).routes = s.routes := rfl
@[simp] theorem State.dueLater_reserved (s : State) (d : Due) : (s.dueLater d).reserved = s.reserved := rfl
@[simp] theorem State.dueLater_token (s : State) (d : Due) : (s.dueLater d).token = s.token := rfl
@[simp] theorem State.dueLater_notices (s : State) (d : Due) : (s.dueLater d).notices = s.notices := rfl
@[simp] theorem State.dueLater_module (s : State) (d : Due) : (s.dueLater d).module = s.module := rfl
@[simp] theorem State.dueLater_l2tlb (s : State) (d : Due) : (s.dueLater d).l2tlb = s.l2tlb := rfl
@[simp] theorem State.dueLater_l2ctx (s : State) (d : Due) : (s.dueLater d).l2ctx = s.l2ctx := rfl
@[simp] theorem State.dueLater_icache (s : State) (d : Due) : (s.dueLater d).icache = s.icache := rfl
@[simp] theorem State.dueLater_out (s : State) (d : Due) : (s.dueLater d).out = s.out := rfl
@[simp] theorem State.dueLater_cycle (s : State) (d : Due) : (s.dueLater d).cycle = s.cycle := rfl
@[simp] theorem State.dueLater_cur (s : State) (d : Due) : (s.dueLater d).cur = s.cur := rfl
@[simp] theorem State.dueLater_curEng (s : State) (d : Due) : (s.dueLater d).curEng = s.curEng := rfl
@[simp] theorem State.dueLater_turn (s : State) (d : Due) : (s.dueLater d).turn = s.turn := rfl
@[simp] theorem State.dueLater_agenda (s : State) (d : Due) : (s.dueLater d).agenda = s.agenda := rfl
@[simp] theorem State.dueLater_due (s : State) (d : Due) : (s.dueLater d).due = s.due := rfl
@[simp] theorem State.dueLater_nextId (s : State) (d : Due) : (s.dueLater d).nextId = s.nextId := rfl

/-! ### Updates of a cell and of a slot -/

@[simp] theorem Cell.setSlot_last (x : Cell) (i : Nat) (y : Slot) : (x.setSlot i y).last = x.last := rfl
@[simp] theorem Cell.setSlot_pword (x : Cell) (i : Nat) (y : Slot) : (x.setSlot i y).pword = x.pword := rfl
@[simp] theorem Cell.setSlot_k0 (x : Cell) (i : Nat) (y : Slot) : (x.setSlot i y).k0 = x.k0 := rfl
@[simp] theorem Cell.setSlot_k1 (x : Cell) (i : Nat) (y : Slot) : (x.setSlot i y).k1 = x.k1 := rfl
@[simp] theorem Cell.setSlot_kpend (x : Cell) (i : Nat) (y : Slot) : (x.setSlot i y).kpend = x.kpend := rfl
@[simp] theorem Cell.setSlot_locks (x : Cell) (i : Nat) (y : Slot) : (x.setSlot i y).locks = x.locks := rfl
@[simp] theorem Cell.setSlot_bars (x : Cell) (i : Nat) (y : Slot) : (x.setSlot i y).bars = x.bars := rfl
@[simp] theorem Cell.setSlot_tdone (x : Cell) (i : Nat) (y : Slot) : (x.setSlot i y).tdone = x.tdone := rfl
@[simp] theorem Cell.setSlot_tfail (x : Cell) (i : Nat) (y : Slot) : (x.setSlot i y).tfail = x.tfail := rfl
@[simp] theorem Cell.setSlot_tcount (x : Cell) (i : Nat) (y : Slot) : (x.setSlot i y).tcount = x.tcount := rfl
@[simp] theorem Cell.setSlot_trec (x : Cell) (i : Nat) (y : Slot) : (x.setSlot i y).trec = x.trec := rfl
@[simp] theorem Cell.setSlot_watch (x : Cell) (i : Nat) (y : Slot) : (x.setSlot i y).watch = x.watch := rfl
@[simp] theorem Cell.setSlot_mxq (x : Cell) (i : Nat) (y : Slot) : (x.setSlot i y).mxq = x.mxq := rfl
@[simp] theorem Cell.setSlot_repairs (x : Cell) (i : Nat) (y : Slot) : (x.setSlot i y).repairs = x.repairs := rfl
@[simp] theorem Cell.setSlot_replays (x : Cell) (i : Nat) (y : Slot) : (x.setSlot i y).replays = x.replays := rfl
@[simp] theorem Cell.setSlot_faults (x : Cell) (i : Nat) (y : Slot) : (x.setSlot i y).faults = x.faults := rfl
@[simp] theorem Cell.setSlot_inject (x : Cell) (i : Nat) (y : Slot) : (x.setSlot i y).inject = x.inject := rfl
@[simp] theorem Cell.setSlot_bankAt (x : Cell) (i : Nat) (y : Slot) : (x.setSlot i y).bankAt = x.bankAt := rfl
@[simp] theorem Cell.setSlot_banks (x : Cell) (i : Nat) (y : Slot) : (x.setSlot i y).banks = x.banks := rfl
@[simp] theorem Cell.setSlot_held (x : Cell) (i : Nat) (y : Slot) : (x.setSlot i y).held = x.held := rfl
@[simp] theorem Cell.setSlot_links (x : Cell) (i : Nat) (y : Slot) : (x.setSlot i y).links = x.links := rfl
@[simp] theorem Cell.setSlot_tlb (x : Cell) (i : Nat) (y : Slot) : (x.setSlot i y).tlb = x.tlb := rfl
@[simp] theorem Cell.setSlot_switch (x : Cell) (i : Nat) (y : Slot) : (x.setSlot i y).switch = x.switch := rfl
@[simp] theorem Cell.setSlot_halted (x : Cell) (i : Nat) (y : Slot) : (x.setSlot i y).halted = x.halted := rfl
@[simp] theorem Cell.setSlot_moving (x : Cell) (i : Nat) (y : Slot) : (x.setSlot i y).moving = x.moving := rfl
@[simp] theorem Cell.setSlot_granules (x : Cell) (i : Nat) (y : Slot) : (x.setSlot i y).granules = x.granules := rfl
@[simp] theorem Cell.setSlot_wanted (x : Cell) (i : Nat) (y : Slot) : (x.setSlot i y).wanted = x.wanted := rfl
@[simp] theorem Cell.setSlot_blockDone (x : Cell) (i : Nat) (y : Slot) : (x.setSlot i y).blockDone = x.blockDone := rfl

/-! ### Registers of a thread -/

@[simp] theorem Thread.ws_v (t : Thread) (n : Nat) (r : Reg) : (t.ws n r).v = t.v := by unfold Thread.ws; split <;> (try split) <;> rfl
@[simp] theorem Thread.ws_p (t : Thread) (n : Nat) (r : Reg) : (t.ws n r).p = t.p := by unfold Thread.ws; split <;> (try split) <;> rfl
@[simp] theorem Thread.ws_m (t : Thread) (n : Nat) (r : Reg) : (t.ws n r).m = t.m := by unfold Thread.ws; split <;> (try split) <;> rfl
@[simp] theorem Thread.ws_l0 (t : Thread) (n : Nat) (r : Reg) : (t.ws n r).l0 = t.l0 := by unfold Thread.ws; split <;> (try split) <;> rfl
@[simp] theorem Thread.ws_l1 (t : Thread) (n : Nat) (r : Reg) : (t.ws n r).l1 = t.l1 := by unfold Thread.ws; split <;> (try split) <;> rfl
@[simp] theorem Thread.ws_pc (t : Thread) (n : Nat) (r : Reg) : (t.ws n r).pc = t.pc := by unfold Thread.ws; split <;> (try split) <;> rfl
@[simp] theorem Thread.ws_ucap (t : Thread) (n : Nat) (r : Reg) : (t.ws n r).ucap = t.ucap := by unfold Thread.ws; split <;> (try split) <;> rfl
@[simp] theorem Thread.ws_scap (t : Thread) (n : Nat) (r : Reg) : (t.ws n r).scap = t.scap := by unfold Thread.ws; split <;> (try split) <;> rfl
@[simp] theorem Thread.ws_mode (t : Thread) (n : Nat) (r : Reg) : (t.ws n r).mode = t.mode := by unfold Thread.ws; split <;> (try split) <;> rfl
@[simp] theorem Thread.ws_mie (t : Thread) (n : Nat) (r : Reg) : (t.ws n r).mie = t.mie := by unfold Thread.ws; split <;> (try split) <;> rfl
@[simp] theorem Thread.ws_tie (t : Thread) (n : Nat) (r : Reg) : (t.ws n r).tie = t.tie := by unfold Thread.ws; split <;> (try split) <;> rfl
@[simp] theorem Thread.ws_hnd (t : Thread) (n : Nat) (r : Reg) : (t.ws n r).hnd = t.hnd := by unfold Thread.ws; split <;> (try split) <;> rfl
@[simp] theorem Thread.ws_imask (t : Thread) (n : Nat) (r : Reg) : (t.ws n r).imask = t.imask := by unfold Thread.ws; split <;> (try split) <;> rfl
@[simp] theorem Thread.ws_icnt (t : Thread) (n : Nat) (r : Reg) : (t.ws n r).icnt = t.icnt := by unfold Thread.ws; split <;> (try split) <;> rfl
@[simp] theorem Thread.ws_ut (t : Thread) (n : Nat) (r : Reg) : (t.ws n r).ut = t.ut := by unfold Thread.ws; split <;> (try split) <;> rfl
@[simp] theorem Thread.ws_st (t : Thread) (n : Nat) (r : Reg) : (t.ws n r).st = t.st := by unfold Thread.ws; split <;> (try split) <;> rfl
@[simp] theorem Thread.ws_mt (t : Thread) (n : Nat) (r : Reg) : (t.ws n r).mt = t.mt := by unfold Thread.ws; split <;> (try split) <;> rfl
@[simp] theorem Thread.ws_sfrom (t : Thread) (n : Nat) (r : Reg) : (t.ws n r).sfrom = t.sfrom := by unfold Thread.ws; split <;> (try split) <;> rfl
@[simp] theorem Thread.ws_mfrom (t : Thread) (n : Nat) (r : Reg) : (t.ws n r).mfrom = t.mfrom := by unfold Thread.ws; split <;> (try split) <;> rfl
@[simp] theorem Thread.ws_ivec (t : Thread) (n : Nat) (r : Reg) : (t.ws n r).ivec = t.ivec := by unfold Thread.ws; split <;> (try split) <;> rfl
@[simp] theorem Thread.ws_timer (t : Thread) (n : Nat) (r : Reg) : (t.ws n r).timer = t.timer := by unfold Thread.ws; split <;> (try split) <;> rfl
@[simp] theorem Thread.ws_tpend (t : Thread) (n : Nat) (r : Reg) : (t.ws n r).tpend = t.tpend := by unfold Thread.ws; split <;> (try split) <;> rfl
@[simp] theorem Thread.ws_fmode (t : Thread) (n : Nat) (r : Reg) : (t.ws n r).fmode = t.fmode := by unfold Thread.ws; split <;> (try split) <;> rfl
@[simp] theorem Thread.ws_srseed (t : Thread) (n : Nat) (r : Reg) : (t.ws n r).srseed = t.srseed := by unfold Thread.ws; split <;> (try split) <;> rfl
@[simp] theorem Thread.ws_asid (t : Thread) (n : Nat) (r : Reg) : (t.ws n r).asid = t.asid := by unfold Thread.ws; split <;> (try split) <;> rfl
@[simp] theorem Thread.ws_cue (t : Thread) (n : Nat) (r : Reg) : (t.ws n r).cue = t.cue := by unfold Thread.ws; split <;> (try split) <;> rfl
@[simp] theorem Thread.ws_retired (t : Thread) (n : Nat) (r : Reg) : (t.ws n r).retired = t.retired := by unfold Thread.ws; split <;> (try split) <;> rfl
@[simp] theorem Thread.ws_resv (t : Thread) (n : Nat) (r : Reg) : (t.ws n r).resv = t.resv := by unfold Thread.ws; split <;> (try split) <;> rfl
@[simp] theorem Thread.ws_resvLost (t : Thread) (n : Nat) (r : Reg) : (t.ws n r).resvLost = t.resvLost := by unfold Thread.ws; split <;> (try split) <;> rfl
@[simp] theorem Thread.ws_acause (t : Thread) (n : Nat) (r : Reg) : (t.ws n r).acause = t.acause := by unfold Thread.ws; split <;> (try split) <;> rfl
@[simp] theorem Thread.ws_adetail (t : Thread) (n : Nat) (r : Reg) : (t.ws n r).adetail = t.adetail := by unfold Thread.ws; split <;> (try split) <;> rfl
@[simp] theorem Thread.ws_icount (t : Thread) (n : Nat) (r : Reg) : (t.ws n r).icount = t.icount := by unfold Thread.ws; split <;> (try split) <;> rfl
@[simp] theorem Thread.ws_lcount (t : Thread) (n : Nat) (r : Reg) : (t.ws n r).lcount = t.lcount := by unfold Thread.ws; split <;> (try split) <;> rfl
@[simp] theorem Thread.ws_scount (t : Thread) (n : Nat) (r : Reg) : (t.ws n r).scount = t.scount := by unfold Thread.ws; split <;> (try split) <;> rfl
@[simp] theorem Thread.ws_ccount (t : Thread) (n : Nat) (r : Reg) : (t.ws n r).ccount = t.ccount := by unfold Thread.ws; split <;> (try split) <;> rfl
@[simp] theorem Thread.ws_openPkt (t : Thread) (n : Nat) (r : Reg) : (t.ws n r).openPkt = t.openPkt := by unfold Thread.ws; split <;> (try split) <;> rfl
@[simp] theorem Thread.ws_openClosed (t : Thread) (n : Nat) (r : Reg) : (t.ws n r).openClosed = t.openClosed := by unfold Thread.ws; split <;> (try split) <;> rfl
@[simp] theorem Thread.ws_openAfter (t : Thread) (n : Nat) (r : Reg) : (t.ws n r).openAfter = t.openAfter := by unfold Thread.ws; split <;> (try split) <;> rfl
@[simp] theorem Thread.ws_closedPkt (t : Thread) (n : Nat) (r : Reg) : (t.ws n r).closedPkt = t.closedPkt := by unfold Thread.ws; split <;> (try split) <;> rfl
@[simp] theorem Thread.ws_pktCount (t : Thread) (n : Nat) (r : Reg) : (t.ws n r).pktCount = t.pktCount := by unfold Thread.ws; split <;> (try split) <;> rfl
@[simp] theorem Thread.ws_released (t : Thread) (n : Nat) (r : Reg) : (t.ws n r).released = t.released := by unfold Thread.ws; split <;> (try split) <;> rfl
@[simp] theorem Thread.ws_lnd (t : Thread) (n : Nat) (r : Reg) : (t.ws n r).lnd = t.lnd := by unfold Thread.ws; split <;> (try split) <;> rfl
@[simp] theorem Thread.ws_lndAddr (t : Thread) (n : Nat) (r : Reg) : (t.ws n r).lndAddr = t.lndAddr := by unfold Thread.ws; split <;> (try split) <;> rfl
@[simp] theorem Thread.ws_parkLnd (t : Thread) (n : Nat) (r : Reg) : (t.ws n r).parkLnd = t.parkLnd := by unfold Thread.ws; split <;> (try split) <;> rfl
@[simp] theorem Thread.ws_parkLev (t : Thread) (n : Nat) (r : Reg) : (t.ws n r).parkLev = t.parkLev := by unfold Thread.ws; split <;> (try split) <;> rfl
@[simp] theorem Thread.ws_again (t : Thread) (n : Nat) (r : Reg) : (t.ws n r).again = t.again := by unfold Thread.ws; split <;> (try split) <;> rfl
@[simp] theorem Thread.ws_wait (t : Thread) (n : Nat) (r : Reg) : (t.ws n r).wait = t.wait := by unfold Thread.ws; split <;> (try split) <;> rfl
@[simp] theorem Thread.ws_resume (t : Thread) (n : Nat) (r : Reg) : (t.ws n r).resume = t.resume := by unfold Thread.ws; split <;> (try split) <;> rfl
@[simp] theorem Thread.ws_inval (t : Thread) (n : Nat) (r : Reg) : (t.ws n r).inval = t.inval := by unfold Thread.ws; split <;> (try split) <;> rfl
@[simp] theorem Thread.ws_pair (t : Thread) (n : Nat) (r : Reg) : (t.ws n r).pair = t.pair := by unfold Thread.ws; split <;> (try split) <;> rfl
@[simp] theorem Thread.ws_partner (t : Thread) (n : Nat) (r : Reg) : (t.ws n r).partner = t.partner := by unfold Thread.ws; split <;> (try split) <;> rfl
@[simp] theorem Thread.ws_align (t : Thread) (n : Nat) (r : Reg) : (t.ws n r).align = t.align := by unfold Thread.ws; split <;> (try split) <;> rfl
@[simp] theorem Thread.ws_cohorts (t : Thread) (n : Nat) (r : Reg) : (t.ws n r).cohorts = t.cohorts := by unfold Thread.ws; split <;> (try split) <;> rfl
@[simp] theorem Thread.ws_pairWait (t : Thread) (n : Nat) (r : Reg) : (t.ws n r).pairWait = t.pairWait := by unfold Thread.ws; split <;> (try split) <;> rfl
@[simp] theorem Thread.ws_ckTrap (t : Thread) (n : Nat) (r : Reg) : (t.ws n r).ckTrap = t.ckTrap := by unfold Thread.ws; split <;> (try split) <;> rfl

@[simp] theorem Thread.wp_s (t : Thread) (n : Nat) (b : Bool) : (t.wp n b).s = t.s := by unfold Thread.wp; split <;> rfl
@[simp] theorem Thread.wp_shadow (t : Thread) (n : Nat) (b : Bool) : (t.wp n b).shadow = t.shadow := by unfold Thread.wp; split <;> rfl
@[simp] theorem Thread.wp_v (t : Thread) (n : Nat) (b : Bool) : (t.wp n b).v = t.v := by unfold Thread.wp; split <;> rfl
@[simp] theorem Thread.wp_m (t : Thread) (n : Nat) (b : Bool) : (t.wp n b).m = t.m := by unfold Thread.wp; split <;> rfl
@[simp] theorem Thread.wp_l0 (t : Thread) (n : Nat) (b : Bool) : (t.wp n b).l0 = t.l0 := by unfold Thread.wp; split <;> rfl
@[simp] theorem Thread.wp_l1 (t : Thread) (n : Nat) (b : Bool) : (t.wp n b).l1 = t.l1 := by unfold Thread.wp; split <;> rfl
@[simp] theorem Thread.wp_pc (t : Thread) (n : Nat) (b : Bool) : (t.wp n b).pc = t.pc := by unfold Thread.wp; split <;> rfl
@[simp] theorem Thread.wp_ucap (t : Thread) (n : Nat) (b : Bool) : (t.wp n b).ucap = t.ucap := by unfold Thread.wp; split <;> rfl
@[simp] theorem Thread.wp_scap (t : Thread) (n : Nat) (b : Bool) : (t.wp n b).scap = t.scap := by unfold Thread.wp; split <;> rfl
@[simp] theorem Thread.wp_mode (t : Thread) (n : Nat) (b : Bool) : (t.wp n b).mode = t.mode := by unfold Thread.wp; split <;> rfl
@[simp] theorem Thread.wp_mie (t : Thread) (n : Nat) (b : Bool) : (t.wp n b).mie = t.mie := by unfold Thread.wp; split <;> rfl
@[simp] theorem Thread.wp_tie (t : Thread) (n : Nat) (b : Bool) : (t.wp n b).tie = t.tie := by unfold Thread.wp; split <;> rfl
@[simp] theorem Thread.wp_hnd (t : Thread) (n : Nat) (b : Bool) : (t.wp n b).hnd = t.hnd := by unfold Thread.wp; split <;> rfl
@[simp] theorem Thread.wp_imask (t : Thread) (n : Nat) (b : Bool) : (t.wp n b).imask = t.imask := by unfold Thread.wp; split <;> rfl
@[simp] theorem Thread.wp_icnt (t : Thread) (n : Nat) (b : Bool) : (t.wp n b).icnt = t.icnt := by unfold Thread.wp; split <;> rfl
@[simp] theorem Thread.wp_ut (t : Thread) (n : Nat) (b : Bool) : (t.wp n b).ut = t.ut := by unfold Thread.wp; split <;> rfl
@[simp] theorem Thread.wp_st (t : Thread) (n : Nat) (b : Bool) : (t.wp n b).st = t.st := by unfold Thread.wp; split <;> rfl
@[simp] theorem Thread.wp_mt (t : Thread) (n : Nat) (b : Bool) : (t.wp n b).mt = t.mt := by unfold Thread.wp; split <;> rfl
@[simp] theorem Thread.wp_sfrom (t : Thread) (n : Nat) (b : Bool) : (t.wp n b).sfrom = t.sfrom := by unfold Thread.wp; split <;> rfl
@[simp] theorem Thread.wp_mfrom (t : Thread) (n : Nat) (b : Bool) : (t.wp n b).mfrom = t.mfrom := by unfold Thread.wp; split <;> rfl
@[simp] theorem Thread.wp_ivec (t : Thread) (n : Nat) (b : Bool) : (t.wp n b).ivec = t.ivec := by unfold Thread.wp; split <;> rfl
@[simp] theorem Thread.wp_timer (t : Thread) (n : Nat) (b : Bool) : (t.wp n b).timer = t.timer := by unfold Thread.wp; split <;> rfl
@[simp] theorem Thread.wp_tpend (t : Thread) (n : Nat) (b : Bool) : (t.wp n b).tpend = t.tpend := by unfold Thread.wp; split <;> rfl
@[simp] theorem Thread.wp_fmode (t : Thread) (n : Nat) (b : Bool) : (t.wp n b).fmode = t.fmode := by unfold Thread.wp; split <;> rfl
@[simp] theorem Thread.wp_srseed (t : Thread) (n : Nat) (b : Bool) : (t.wp n b).srseed = t.srseed := by unfold Thread.wp; split <;> rfl
@[simp] theorem Thread.wp_asid (t : Thread) (n : Nat) (b : Bool) : (t.wp n b).asid = t.asid := by unfold Thread.wp; split <;> rfl
@[simp] theorem Thread.wp_cue (t : Thread) (n : Nat) (b : Bool) : (t.wp n b).cue = t.cue := by unfold Thread.wp; split <;> rfl
@[simp] theorem Thread.wp_retired (t : Thread) (n : Nat) (b : Bool) : (t.wp n b).retired = t.retired := by unfold Thread.wp; split <;> rfl
@[simp] theorem Thread.wp_resv (t : Thread) (n : Nat) (b : Bool) : (t.wp n b).resv = t.resv := by unfold Thread.wp; split <;> rfl
@[simp] theorem Thread.wp_resvLost (t : Thread) (n : Nat) (b : Bool) : (t.wp n b).resvLost = t.resvLost := by unfold Thread.wp; split <;> rfl
@[simp] theorem Thread.wp_region (t : Thread) (n : Nat) (b : Bool) : (t.wp n b).region = t.region := by unfold Thread.wp; split <;> rfl
@[simp] theorem Thread.wp_acause (t : Thread) (n : Nat) (b : Bool) : (t.wp n b).acause = t.acause := by unfold Thread.wp; split <;> rfl
@[simp] theorem Thread.wp_adetail (t : Thread) (n : Nat) (b : Bool) : (t.wp n b).adetail = t.adetail := by unfold Thread.wp; split <;> rfl
@[simp] theorem Thread.wp_icount (t : Thread) (n : Nat) (b : Bool) : (t.wp n b).icount = t.icount := by unfold Thread.wp; split <;> rfl
@[simp] theorem Thread.wp_lcount (t : Thread) (n : Nat) (b : Bool) : (t.wp n b).lcount = t.lcount := by unfold Thread.wp; split <;> rfl
@[simp] theorem Thread.wp_scount (t : Thread) (n : Nat) (b : Bool) : (t.wp n b).scount = t.scount := by unfold Thread.wp; split <;> rfl
@[simp] theorem Thread.wp_ccount (t : Thread) (n : Nat) (b : Bool) : (t.wp n b).ccount = t.ccount := by unfold Thread.wp; split <;> rfl
@[simp] theorem Thread.wp_openPkt (t : Thread) (n : Nat) (b : Bool) : (t.wp n b).openPkt = t.openPkt := by unfold Thread.wp; split <;> rfl
@[simp] theorem Thread.wp_openClosed (t : Thread) (n : Nat) (b : Bool) : (t.wp n b).openClosed = t.openClosed := by unfold Thread.wp; split <;> rfl
@[simp] theorem Thread.wp_openAfter (t : Thread) (n : Nat) (b : Bool) : (t.wp n b).openAfter = t.openAfter := by unfold Thread.wp; split <;> rfl
@[simp] theorem Thread.wp_closedPkt (t : Thread) (n : Nat) (b : Bool) : (t.wp n b).closedPkt = t.closedPkt := by unfold Thread.wp; split <;> rfl
@[simp] theorem Thread.wp_pktCount (t : Thread) (n : Nat) (b : Bool) : (t.wp n b).pktCount = t.pktCount := by unfold Thread.wp; split <;> rfl
@[simp] theorem Thread.wp_released (t : Thread) (n : Nat) (b : Bool) : (t.wp n b).released = t.released := by unfold Thread.wp; split <;> rfl
@[simp] theorem Thread.wp_lnd (t : Thread) (n : Nat) (b : Bool) : (t.wp n b).lnd = t.lnd := by unfold Thread.wp; split <;> rfl
@[simp] theorem Thread.wp_lndAddr (t : Thread) (n : Nat) (b : Bool) : (t.wp n b).lndAddr = t.lndAddr := by unfold Thread.wp; split <;> rfl
@[simp] theorem Thread.wp_parkLnd (t : Thread) (n : Nat) (b : Bool) : (t.wp n b).parkLnd = t.parkLnd := by unfold Thread.wp; split <;> rfl
@[simp] theorem Thread.wp_parkLev (t : Thread) (n : Nat) (b : Bool) : (t.wp n b).parkLev = t.parkLev := by unfold Thread.wp; split <;> rfl
@[simp] theorem Thread.wp_again (t : Thread) (n : Nat) (b : Bool) : (t.wp n b).again = t.again := by unfold Thread.wp; split <;> rfl
@[simp] theorem Thread.wp_wait (t : Thread) (n : Nat) (b : Bool) : (t.wp n b).wait = t.wait := by unfold Thread.wp; split <;> rfl
@[simp] theorem Thread.wp_resume (t : Thread) (n : Nat) (b : Bool) : (t.wp n b).resume = t.resume := by unfold Thread.wp; split <;> rfl
@[simp] theorem Thread.wp_inval (t : Thread) (n : Nat) (b : Bool) : (t.wp n b).inval = t.inval := by unfold Thread.wp; split <;> rfl
@[simp] theorem Thread.wp_pair (t : Thread) (n : Nat) (b : Bool) : (t.wp n b).pair = t.pair := by unfold Thread.wp; split <;> rfl
@[simp] theorem Thread.wp_partner (t : Thread) (n : Nat) (b : Bool) : (t.wp n b).partner = t.partner := by unfold Thread.wp; split <;> rfl
@[simp] theorem Thread.wp_align (t : Thread) (n : Nat) (b : Bool) : (t.wp n b).align = t.align := by unfold Thread.wp; split <;> rfl
@[simp] theorem Thread.wp_cohorts (t : Thread) (n : Nat) (b : Bool) : (t.wp n b).cohorts = t.cohorts := by unfold Thread.wp; split <;> rfl
@[simp] theorem Thread.wp_pairWait (t : Thread) (n : Nat) (b : Bool) : (t.wp n b).pairWait = t.pairWait := by unfold Thread.wp; split <;> rfl
@[simp] theorem Thread.wp_ckTrap (t : Thread) (n : Nat) (b : Bool) : (t.wp n b).ckTrap = t.ckTrap := by unfold Thread.wp; split <;> rfl

@[simp] theorem Thread.wv_s (t : Thread) (n : Nat) (r : VReg) : (t.wv n r).s = t.s := rfl
@[simp] theorem Thread.wv_shadow (t : Thread) (n : Nat) (r : VReg) : (t.wv n r).shadow = t.shadow := rfl
@[simp] theorem Thread.wv_p (t : Thread) (n : Nat) (r : VReg) : (t.wv n r).p = t.p := rfl
@[simp] theorem Thread.wv_m (t : Thread) (n : Nat) (r : VReg) : (t.wv n r).m = t.m := rfl
@[simp] theorem Thread.wv_l0 (t : Thread) (n : Nat) (r : VReg) : (t.wv n r).l0 = t.l0 := rfl
@[simp] theorem Thread.wv_l1 (t : Thread) (n : Nat) (r : VReg) : (t.wv n r).l1 = t.l1 := rfl
@[simp] theorem Thread.wv_pc (t : Thread) (n : Nat) (r : VReg) : (t.wv n r).pc = t.pc := rfl
@[simp] theorem Thread.wv_ucap (t : Thread) (n : Nat) (r : VReg) : (t.wv n r).ucap = t.ucap := rfl
@[simp] theorem Thread.wv_scap (t : Thread) (n : Nat) (r : VReg) : (t.wv n r).scap = t.scap := rfl
@[simp] theorem Thread.wv_mode (t : Thread) (n : Nat) (r : VReg) : (t.wv n r).mode = t.mode := rfl
@[simp] theorem Thread.wv_mie (t : Thread) (n : Nat) (r : VReg) : (t.wv n r).mie = t.mie := rfl
@[simp] theorem Thread.wv_tie (t : Thread) (n : Nat) (r : VReg) : (t.wv n r).tie = t.tie := rfl
@[simp] theorem Thread.wv_hnd (t : Thread) (n : Nat) (r : VReg) : (t.wv n r).hnd = t.hnd := rfl
@[simp] theorem Thread.wv_imask (t : Thread) (n : Nat) (r : VReg) : (t.wv n r).imask = t.imask := rfl
@[simp] theorem Thread.wv_icnt (t : Thread) (n : Nat) (r : VReg) : (t.wv n r).icnt = t.icnt := rfl
@[simp] theorem Thread.wv_ut (t : Thread) (n : Nat) (r : VReg) : (t.wv n r).ut = t.ut := rfl
@[simp] theorem Thread.wv_st (t : Thread) (n : Nat) (r : VReg) : (t.wv n r).st = t.st := rfl
@[simp] theorem Thread.wv_mt (t : Thread) (n : Nat) (r : VReg) : (t.wv n r).mt = t.mt := rfl
@[simp] theorem Thread.wv_sfrom (t : Thread) (n : Nat) (r : VReg) : (t.wv n r).sfrom = t.sfrom := rfl
@[simp] theorem Thread.wv_mfrom (t : Thread) (n : Nat) (r : VReg) : (t.wv n r).mfrom = t.mfrom := rfl
@[simp] theorem Thread.wv_ivec (t : Thread) (n : Nat) (r : VReg) : (t.wv n r).ivec = t.ivec := rfl
@[simp] theorem Thread.wv_timer (t : Thread) (n : Nat) (r : VReg) : (t.wv n r).timer = t.timer := rfl
@[simp] theorem Thread.wv_tpend (t : Thread) (n : Nat) (r : VReg) : (t.wv n r).tpend = t.tpend := rfl
@[simp] theorem Thread.wv_fmode (t : Thread) (n : Nat) (r : VReg) : (t.wv n r).fmode = t.fmode := rfl
@[simp] theorem Thread.wv_srseed (t : Thread) (n : Nat) (r : VReg) : (t.wv n r).srseed = t.srseed := rfl
@[simp] theorem Thread.wv_asid (t : Thread) (n : Nat) (r : VReg) : (t.wv n r).asid = t.asid := rfl
@[simp] theorem Thread.wv_cue (t : Thread) (n : Nat) (r : VReg) : (t.wv n r).cue = t.cue := rfl
@[simp] theorem Thread.wv_retired (t : Thread) (n : Nat) (r : VReg) : (t.wv n r).retired = t.retired := rfl
@[simp] theorem Thread.wv_resv (t : Thread) (n : Nat) (r : VReg) : (t.wv n r).resv = t.resv := rfl
@[simp] theorem Thread.wv_resvLost (t : Thread) (n : Nat) (r : VReg) : (t.wv n r).resvLost = t.resvLost := rfl
@[simp] theorem Thread.wv_region (t : Thread) (n : Nat) (r : VReg) : (t.wv n r).region = t.region := rfl
@[simp] theorem Thread.wv_acause (t : Thread) (n : Nat) (r : VReg) : (t.wv n r).acause = t.acause := rfl
@[simp] theorem Thread.wv_adetail (t : Thread) (n : Nat) (r : VReg) : (t.wv n r).adetail = t.adetail := rfl
@[simp] theorem Thread.wv_icount (t : Thread) (n : Nat) (r : VReg) : (t.wv n r).icount = t.icount := rfl
@[simp] theorem Thread.wv_lcount (t : Thread) (n : Nat) (r : VReg) : (t.wv n r).lcount = t.lcount := rfl
@[simp] theorem Thread.wv_scount (t : Thread) (n : Nat) (r : VReg) : (t.wv n r).scount = t.scount := rfl
@[simp] theorem Thread.wv_ccount (t : Thread) (n : Nat) (r : VReg) : (t.wv n r).ccount = t.ccount := rfl
@[simp] theorem Thread.wv_openPkt (t : Thread) (n : Nat) (r : VReg) : (t.wv n r).openPkt = t.openPkt := rfl
@[simp] theorem Thread.wv_openClosed (t : Thread) (n : Nat) (r : VReg) : (t.wv n r).openClosed = t.openClosed := rfl
@[simp] theorem Thread.wv_openAfter (t : Thread) (n : Nat) (r : VReg) : (t.wv n r).openAfter = t.openAfter := rfl
@[simp] theorem Thread.wv_closedPkt (t : Thread) (n : Nat) (r : VReg) : (t.wv n r).closedPkt = t.closedPkt := rfl
@[simp] theorem Thread.wv_pktCount (t : Thread) (n : Nat) (r : VReg) : (t.wv n r).pktCount = t.pktCount := rfl
@[simp] theorem Thread.wv_released (t : Thread) (n : Nat) (r : VReg) : (t.wv n r).released = t.released := rfl
@[simp] theorem Thread.wv_lnd (t : Thread) (n : Nat) (r : VReg) : (t.wv n r).lnd = t.lnd := rfl
@[simp] theorem Thread.wv_lndAddr (t : Thread) (n : Nat) (r : VReg) : (t.wv n r).lndAddr = t.lndAddr := rfl
@[simp] theorem Thread.wv_parkLnd (t : Thread) (n : Nat) (r : VReg) : (t.wv n r).parkLnd = t.parkLnd := rfl
@[simp] theorem Thread.wv_parkLev (t : Thread) (n : Nat) (r : VReg) : (t.wv n r).parkLev = t.parkLev := rfl
@[simp] theorem Thread.wv_again (t : Thread) (n : Nat) (r : VReg) : (t.wv n r).again = t.again := rfl
@[simp] theorem Thread.wv_wait (t : Thread) (n : Nat) (r : VReg) : (t.wv n r).wait = t.wait := rfl
@[simp] theorem Thread.wv_resume (t : Thread) (n : Nat) (r : VReg) : (t.wv n r).resume = t.resume := rfl
@[simp] theorem Thread.wv_inval (t : Thread) (n : Nat) (r : VReg) : (t.wv n r).inval = t.inval := rfl
@[simp] theorem Thread.wv_pair (t : Thread) (n : Nat) (r : VReg) : (t.wv n r).pair = t.pair := rfl
@[simp] theorem Thread.wv_partner (t : Thread) (n : Nat) (r : VReg) : (t.wv n r).partner = t.partner := rfl
@[simp] theorem Thread.wv_align (t : Thread) (n : Nat) (r : VReg) : (t.wv n r).align = t.align := rfl
@[simp] theorem Thread.wv_cohorts (t : Thread) (n : Nat) (r : VReg) : (t.wv n r).cohorts = t.cohorts := rfl
@[simp] theorem Thread.wv_pairWait (t : Thread) (n : Nat) (r : VReg) : (t.wv n r).pairWait = t.pairWait := rfl
@[simp] theorem Thread.wv_ckTrap (t : Thread) (n : Nat) (r : VReg) : (t.wv n r).ckTrap = t.ckTrap := rfl

@[simp] theorem Thread.wm_s (t : Thread) (n : Nat) (r : MReg) : (t.wm n r).s = t.s := rfl
@[simp] theorem Thread.wm_shadow (t : Thread) (n : Nat) (r : MReg) : (t.wm n r).shadow = t.shadow := rfl
@[simp] theorem Thread.wm_v (t : Thread) (n : Nat) (r : MReg) : (t.wm n r).v = t.v := rfl
@[simp] theorem Thread.wm_p (t : Thread) (n : Nat) (r : MReg) : (t.wm n r).p = t.p := rfl
@[simp] theorem Thread.wm_l0 (t : Thread) (n : Nat) (r : MReg) : (t.wm n r).l0 = t.l0 := rfl
@[simp] theorem Thread.wm_l1 (t : Thread) (n : Nat) (r : MReg) : (t.wm n r).l1 = t.l1 := rfl
@[simp] theorem Thread.wm_pc (t : Thread) (n : Nat) (r : MReg) : (t.wm n r).pc = t.pc := rfl
@[simp] theorem Thread.wm_ucap (t : Thread) (n : Nat) (r : MReg) : (t.wm n r).ucap = t.ucap := rfl
@[simp] theorem Thread.wm_scap (t : Thread) (n : Nat) (r : MReg) : (t.wm n r).scap = t.scap := rfl
@[simp] theorem Thread.wm_mode (t : Thread) (n : Nat) (r : MReg) : (t.wm n r).mode = t.mode := rfl
@[simp] theorem Thread.wm_mie (t : Thread) (n : Nat) (r : MReg) : (t.wm n r).mie = t.mie := rfl
@[simp] theorem Thread.wm_tie (t : Thread) (n : Nat) (r : MReg) : (t.wm n r).tie = t.tie := rfl
@[simp] theorem Thread.wm_hnd (t : Thread) (n : Nat) (r : MReg) : (t.wm n r).hnd = t.hnd := rfl
@[simp] theorem Thread.wm_imask (t : Thread) (n : Nat) (r : MReg) : (t.wm n r).imask = t.imask := rfl
@[simp] theorem Thread.wm_icnt (t : Thread) (n : Nat) (r : MReg) : (t.wm n r).icnt = t.icnt := rfl
@[simp] theorem Thread.wm_ut (t : Thread) (n : Nat) (r : MReg) : (t.wm n r).ut = t.ut := rfl
@[simp] theorem Thread.wm_st (t : Thread) (n : Nat) (r : MReg) : (t.wm n r).st = t.st := rfl
@[simp] theorem Thread.wm_mt (t : Thread) (n : Nat) (r : MReg) : (t.wm n r).mt = t.mt := rfl
@[simp] theorem Thread.wm_sfrom (t : Thread) (n : Nat) (r : MReg) : (t.wm n r).sfrom = t.sfrom := rfl
@[simp] theorem Thread.wm_mfrom (t : Thread) (n : Nat) (r : MReg) : (t.wm n r).mfrom = t.mfrom := rfl
@[simp] theorem Thread.wm_ivec (t : Thread) (n : Nat) (r : MReg) : (t.wm n r).ivec = t.ivec := rfl
@[simp] theorem Thread.wm_timer (t : Thread) (n : Nat) (r : MReg) : (t.wm n r).timer = t.timer := rfl
@[simp] theorem Thread.wm_tpend (t : Thread) (n : Nat) (r : MReg) : (t.wm n r).tpend = t.tpend := rfl
@[simp] theorem Thread.wm_fmode (t : Thread) (n : Nat) (r : MReg) : (t.wm n r).fmode = t.fmode := rfl
@[simp] theorem Thread.wm_srseed (t : Thread) (n : Nat) (r : MReg) : (t.wm n r).srseed = t.srseed := rfl
@[simp] theorem Thread.wm_asid (t : Thread) (n : Nat) (r : MReg) : (t.wm n r).asid = t.asid := rfl
@[simp] theorem Thread.wm_cue (t : Thread) (n : Nat) (r : MReg) : (t.wm n r).cue = t.cue := rfl
@[simp] theorem Thread.wm_retired (t : Thread) (n : Nat) (r : MReg) : (t.wm n r).retired = t.retired := rfl
@[simp] theorem Thread.wm_resv (t : Thread) (n : Nat) (r : MReg) : (t.wm n r).resv = t.resv := rfl
@[simp] theorem Thread.wm_resvLost (t : Thread) (n : Nat) (r : MReg) : (t.wm n r).resvLost = t.resvLost := rfl
@[simp] theorem Thread.wm_region (t : Thread) (n : Nat) (r : MReg) : (t.wm n r).region = t.region := rfl
@[simp] theorem Thread.wm_acause (t : Thread) (n : Nat) (r : MReg) : (t.wm n r).acause = t.acause := rfl
@[simp] theorem Thread.wm_adetail (t : Thread) (n : Nat) (r : MReg) : (t.wm n r).adetail = t.adetail := rfl
@[simp] theorem Thread.wm_icount (t : Thread) (n : Nat) (r : MReg) : (t.wm n r).icount = t.icount := rfl
@[simp] theorem Thread.wm_lcount (t : Thread) (n : Nat) (r : MReg) : (t.wm n r).lcount = t.lcount := rfl
@[simp] theorem Thread.wm_scount (t : Thread) (n : Nat) (r : MReg) : (t.wm n r).scount = t.scount := rfl
@[simp] theorem Thread.wm_ccount (t : Thread) (n : Nat) (r : MReg) : (t.wm n r).ccount = t.ccount := rfl
@[simp] theorem Thread.wm_openPkt (t : Thread) (n : Nat) (r : MReg) : (t.wm n r).openPkt = t.openPkt := rfl
@[simp] theorem Thread.wm_openClosed (t : Thread) (n : Nat) (r : MReg) : (t.wm n r).openClosed = t.openClosed := rfl
@[simp] theorem Thread.wm_openAfter (t : Thread) (n : Nat) (r : MReg) : (t.wm n r).openAfter = t.openAfter := rfl
@[simp] theorem Thread.wm_closedPkt (t : Thread) (n : Nat) (r : MReg) : (t.wm n r).closedPkt = t.closedPkt := rfl
@[simp] theorem Thread.wm_pktCount (t : Thread) (n : Nat) (r : MReg) : (t.wm n r).pktCount = t.pktCount := rfl
@[simp] theorem Thread.wm_released (t : Thread) (n : Nat) (r : MReg) : (t.wm n r).released = t.released := rfl
@[simp] theorem Thread.wm_lnd (t : Thread) (n : Nat) (r : MReg) : (t.wm n r).lnd = t.lnd := rfl
@[simp] theorem Thread.wm_lndAddr (t : Thread) (n : Nat) (r : MReg) : (t.wm n r).lndAddr = t.lndAddr := rfl
@[simp] theorem Thread.wm_parkLnd (t : Thread) (n : Nat) (r : MReg) : (t.wm n r).parkLnd = t.parkLnd := rfl
@[simp] theorem Thread.wm_parkLev (t : Thread) (n : Nat) (r : MReg) : (t.wm n r).parkLev = t.parkLev := rfl
@[simp] theorem Thread.wm_again (t : Thread) (n : Nat) (r : MReg) : (t.wm n r).again = t.again := rfl
@[simp] theorem Thread.wm_wait (t : Thread) (n : Nat) (r : MReg) : (t.wm n r).wait = t.wait := rfl
@[simp] theorem Thread.wm_resume (t : Thread) (n : Nat) (r : MReg) : (t.wm n r).resume = t.resume := rfl
@[simp] theorem Thread.wm_inval (t : Thread) (n : Nat) (r : MReg) : (t.wm n r).inval = t.inval := rfl
@[simp] theorem Thread.wm_pair (t : Thread) (n : Nat) (r : MReg) : (t.wm n r).pair = t.pair := rfl
@[simp] theorem Thread.wm_partner (t : Thread) (n : Nat) (r : MReg) : (t.wm n r).partner = t.partner := rfl
@[simp] theorem Thread.wm_align (t : Thread) (n : Nat) (r : MReg) : (t.wm n r).align = t.align := rfl
@[simp] theorem Thread.wm_cohorts (t : Thread) (n : Nat) (r : MReg) : (t.wm n r).cohorts = t.cohorts := rfl
@[simp] theorem Thread.wm_pairWait (t : Thread) (n : Nat) (r : MReg) : (t.wm n r).pairWait = t.pairWait := rfl
@[simp] theorem Thread.wm_ckTrap (t : Thread) (n : Nat) (r : MReg) : (t.wm n r).ckTrap = t.ckTrap := rfl

/-! ### What a read gives after a write -/

@[simp] theorem State.cell_setCell_self (s : State) (c : Nat) (x : Cell) : (s.setCell c x).cell c = x := SMap.at_set_self ..
theorem State.cell_setCell_ne (s : State) {c d : Nat} (x : Cell) (h : d ≠ c) : (s.setCell c x).cell d = s.cell d := SMap.at_set_ne _ _ _ h
theorem State.cell_setCell (s : State) (c d : Nat) (x : Cell) : (s.setCell c x).cell d = if d = c then x else s.cell d := SMap.at_set ..
@[simp] theorem Cell.slot_setSlot_self (x : Cell) (i : Nat) (y : Slot) : (x.setSlot i y).slot i = y := SMap.at_set_self ..
theorem Cell.slot_setSlot_ne (x : Cell) {i j : Nat} (y : Slot) (h : j ≠ i) : (x.setSlot i y).slot j = x.slot j := SMap.at_set_ne _ _ _ h
@[simp] theorem State.slot_setSlot_self (s : State) (c i : Nat) (y : Slot) : (s.setSlot c i y).slot c i = y := by
  simp [State.slot, State.setSlot]
/-- Any other slot, of this cell or of another. -/
theorem State.slot_setSlot_ne (s : State) {c i d j : Nat} (y : Slot) (h : (d, j) ≠ (c, i)) : (s.setSlot c i y).slot d j = s.slot d j := by
  unfold State.slot State.setSlot
  rw [State.cell_setCell]
  split
  · rename_i e; subst e
    exact Cell.slot_setSlot_ne _ _ fun e => h (by rw [e])
  · rfl
@[simp] theorem State.th_setSlot_self (s : State) (c i : Nat) (y : Slot) : (s.setSlot c i y).th c i = y.th := by
  simp [State.th]
@[simp] theorem State.th_setTh_self (s : State) (c i : Nat) (t : Thread) : (s.setTh c i t).th c i = t := by
  simp [State.th, State.setTh]
@[simp] theorem State.th_modTh_self (s : State) (c i : Nat) (g : Thread → Thread) : (s.modTh c i g).th c i = g (s.th c i) := by
  simp [State.modTh]
theorem State.slot_setTh_self (s : State) (c i : Nat) (t : Thread) : (s.setTh c i t).slot c i = { s.slot c i with th := t } := by
  simp [State.setTh]
theorem State.slot_setTh_ne (s : State) {c i d j : Nat} (t : Thread) (h : (d, j) ≠ (c, i)) : (s.setTh c i t).slot d j = s.slot d j :=
  State.slot_setSlot_ne s _ h
theorem State.slot_modTh_ne (s : State) {c i d j : Nat} (g : Thread → Thread) (h : (d, j) ≠ (c, i)) : (s.modTh c i g).slot d j = s.slot d j :=
  State.slot_setSlot_ne s _ h
/-- A change of a thread leaves everything of every cell but its slots. -/
theorem State.cell_setSlot (s : State) (c i d : Nat) (y : Slot) :
    (s.setSlot c i y).cell d = if d = c then (s.cell c).setSlot i y else s.cell d := State.cell_setCell ..
@[simp] theorem State.part_setPart_self (s : State) (p : Nat) (x : Part) : (s.setPart p x).part p = x := SMap.at_set_self ..
theorem State.part_setPart_ne (s : State) {p q : Nat} (x : Part) (h : q ≠ p) : (s.setPart p x).part q = s.part q := SMap.at_set_ne _ _ _ h
@[simp] theorem State.fnSt_setFn_self (s : State) (f : Nat) (x : Fn) : (s.setFn f x).fnSt f = x := SMap.at_set_self ..
theorem State.fnSt_setFn_ne (s : State) {f g : Nat} (x : Fn) (h : g ≠ f) : (s.setFn f x).fnSt g = s.fnSt g := SMap.at_set_ne _ _ _ h
@[simp] theorem State.die_setDie_self (s : State) (d : Nat) (x : Die) : (s.setDie d x).die d = x := SMap.at_set_self ..
@[simp] theorem State.stack_setStack_self (s : State) (k : Nat) (x : Stack) : (s.setStack k x).stack k = x := SMap.at_set_self ..
theorem State.stack_setStack_ne (s : State) {k j : Nat} (x : Stack) (h : j ≠ k) : (s.setStack k x).stack j = s.stack j := SMap.at_set_ne _ _ _ h
@[simp] theorem State.queue_setQueue_self (s : State) (q : Nat) (x : HwQueue) : (s.setQueue q x).queue q = x := SMap.at_set_self ..
theorem State.queue_setQueue_ne (s : State) {q r : Nat} (x : HwQueue) (h : r ≠ q) : (s.setQueue q x).queue r = s.queue r := SMap.at_set_ne _ _ _ h

/-! ### Registers read after a write (01 R18, R19, R24-R26) -/

/-- s0 reads zero in every state. -/
@[simp] theorem Thread.rs_zero (t : Thread) : t.rs 0 = {} := rfl
/-- A write of s0 is discarded. -/
@[simp] theorem Thread.ws_zero (t : Thread) (r : Reg) : t.ws 0 r = t := rfl
theorem Thread.rs_ws_self (t : Thread) {n : Nat} (r : Reg) (h : n ≠ 0) : (t.ws n r).rs n = r := by
  unfold Thread.rs Thread.ws
  rw [if_neg h, if_neg h]
  by_cases hb : (t.hnd && decide (56 ≤ n)) = true <;> simp [hb, SMap.at_set_self]
theorem Thread.rs_ws_ne (t : Thread) {n k : Nat} (r : Reg) (h : k ≠ n) : (t.ws n r).rs k = t.rs k := by
  unfold Thread.rs Thread.ws
  by_cases hn : n = 0
  · simp [hn]
  · by_cases hk : k = 0
    · simp [hk]
    · by_cases hh : t.hnd = true <;> by_cases h1 : 56 ≤ n <;> by_cases h2 : 56 ≤ k <;>
        simp [hn, hk, hh, h1, h2] <;> first
          | (rw [SMap.at_set_ne]; omega)
          | skip
@[simp] theorem Thread.rv_wv_self (t : Thread) (n : Nat) (r : VReg) : (t.wv n r).rv n = r := SMap.at_set_self ..
theorem Thread.rv_wv_ne (t : Thread) {n k : Nat} (r : VReg) (h : k ≠ n) : (t.wv n r).rv k = t.rv k := SMap.at_set_ne _ _ _ h
@[simp] theorem Thread.rm_wm_self (t : Thread) (n : Nat) (r : MReg) : (t.wm n r).rm n = r := SMap.at_set_self ..
theorem Thread.rm_wm_ne (t : Thread) {n k : Nat} (r : MReg) (h : k ≠ n) : (t.wm n r).rm k = t.rm k := SMap.at_set_ne _ _ _ h
/-- p0 reads true in every state, and a write of it is discarded. -/
@[simp] theorem Thread.rp_zero (t : Thread) : t.rp 0 = true := rfl
@[simp] theorem Thread.wp_zero (t : Thread) (b : Bool) : t.wp 0 b = t := rfl

end Sys2Proof.Machine
end

