-- ==== Sys2Proof/Laws/Issue.lean ====
section
/-!
SUPPORT. What the issue of a thread instruction does, once for all of them: the state its body starts in, and what each end of a body makes of it.
-/
namespace Sys2Proof.Machine

/-! ### Consumed message registers (01 R26) -/

theorem cur_fold_wm (l : List Nat) (s : State) :
    (l.foldl (fun s n => s.modMe fun t => t.wm n { t.rm n with full := false }) s).cur = s.cur := by
  induction l generalizing s with
  | nil => rfl
  | cons n l ih => rw [List.foldl_cons, ih]; simp [State.modMe]

theorem fold_wm (l : List Nat) (s : State) :
    l.foldl (fun s n => s.modMe fun t => t.wm n { t.rm n with full := false }) s =
      l.foldl (fun s' n => s'.modTh s.cur.1 s.cur.2 fun t => t.wm n { t.rm n with full := false }) s := by
  suffices h : ∀ (l : List Nat) (s' : State), s'.cur = s.cur →
      l.foldl (fun s n => s.modMe fun t => t.wm n { t.rm n with full := false }) s' =
        l.foldl (fun s' n => s'.modTh s.cur.1 s.cur.2 fun t => t.wm n { t.rm n with full := false }) s' from h l s rfl
  intro l
  induction l with
  | nil => intro _ _; rfl
  | cons n l ih =>
    intro s' hs
    simp only [List.foldl_cons]
    rw [ih _ (by simpa [State.modMe] using hs), State.modMe, hs]

theorem region_fold_wm (l : List Nat) (s : State) (c i : Nat) :
    ((l.foldl (fun s n => s.modTh c i fun t => t.wm n { t.rm n with full := false }) s).th c i).region = (s.th c i).region := by
  induction l generalizing s with
  | nil => rfl
  | cons n l ih => rw [List.foldl_cons, ih]; simp

@[simp] theorem consumed_cur (i : Instr) (s : State) : (consumed i s).cur = s.cur := by
  unfold consumed
  split
  · exact cur_fold_wm _ _
  · rfl

/-- An instruction that reads no message register consumes nothing. -/
theorem consumed_none {i : Instr} {r : Row} {f : Fields} (s : State) (hr : rowOf i = some (r, f)) (h : r.msgSources f = []) : consumed i s = s := by
  simp [consumed, hr, h]

/-- The body of an instruction that executes starts in the state `consumed` of it. -/
theorem start_eq {i : Instr} {r : Row} {f : Fields} {s : State} (hr : rowOf i = some (r, f)) (hx : s.me.region = none) :
    s.start s.cur.1 s.cur.2 r f = some (consumed i s) := by
  unfold State.start
  simp only
  rw [region_fold_wm, ← State.me, hx]
  simp only [Option.isNone_none, if_true, consumed, hr]
  rw [fold_wm]

/-! ### The issue -/

/-- The issue of an instruction that executes: its body, and the end of it (03 R83 step 6). -/
theorem runThread_exec {i : Instr} {r : Row} {f : Fields} {s : State} (body : Fields → Body) (hr : rowOf i = some (r, f)) (hx : RowExecutes r f s) :
    runThread i body s = finish s s.cur.1 s.cur.2
      (charged r (body f) (consumed i s) s.cur.1 s.cur.2 (s.env s.cur.1 s.cur.2 f)) (opensWindow r s.me) := by
  have h1 : r.dynError f (s.th s.cur.1 s.cur.2) = false := hx.enc
  have h2 : ¬ (s.th s.cur.1 s.cur.2).mode.num < r.mode := Nat.not_lt.mpr hx.mode
  have h3 : (s.th s.cur.1 s.cur.2).guard f = true := hx.guard
  have h4 : (s.th s.cur.1 s.cur.2).region = none := hx.region
  have h5 : r.regionError f (s.th s.cur.1 s.cur.2) = none := by simp [Row.regionError, h4]
  have h6 : (r.msgSources f).any (fun n => !((s.th s.cur.1 s.cur.2).rm n).full) = false := by
    rw [List.any_eq_false]
    intro n hn
    have := hx.full n hn
    simp only [State.me] at this
    simp [this]
  have h7 := start_eq hr hx.region
  have h8 : ¬ (s.th s.cur.1 s.cur.2).pair = 1 ∧ ¬ (s.th s.cur.1 s.cur.2).pair = 2 := by
    rcases hx.pair with h | h <;> simp only [State.me] at h <;> simp [h]
  have h9 : s.resumeHolds s.cur.fst s.cur.snd r = false := hx.resumed
  unfold runThread
  simp only [hr]
  unfold runRow
  simp only [h1, hx.cls, h2, hx.here, h3, h5, h8.1, h8.2, h9, Bool.false_and, Bool.not_true, if_false]
  unfold issuePlain
  simp only [h6, h7, State.me]
  rfl

theorem Executes.row {i : Instr} {r : Row} {f : Fields} {s : State} (h : Executes i s) (hr : rowOf i = some (r, f)) : RowExecutes r f s := by
  simpa [Executes, hr] using h

/-! ### Ends -/

@[simp] theorem counted_cur (s : State) (c i : Nat) (b : Bool) : (s.counted c i b).cur = s.cur := by
  unfold State.counted
  simp only
  split <;> split <;> simp

theorem finish_ok (s0 s : State) (h : s.cur = s0.cur) : finish s0 s0.cur.1 s0.cur.2 (.ok s) = s.next := by
  simp [finish, State.next, State.modMe, h]

theorem finish_jump (s0 s : State) (tgt : Addr) (b : Bool) (h : s.cur = s0.cur) : finish s0 s0.cur.1 s0.cur.2 (.jump s tgt b) = s.goto tgt b := by
  simp [finish, State.goto, State.modMe, h]

theorem finish_park (s0 s : State) (w : Wait) (h : s.cur = s0.cur) : finish s0 s0.cur.1 s0.cur.2 (.park s w) = s.parks w := by
  simp [finish, State.parks, State.modMe, h]

theorem finish_trap (s0 : State) (x : Trap) : finish s0 s0.cur.1 s0.cur.2 (.trap x) = s0.takeTrap s0.cur.1 s0.cur.2 x := rfl

end Sys2Proof.Machine
end

