-- ==== Sys2Proof/Laws/Memory.lean ====
section
/-!
SUPPORT. What the operations on the memory list do: a byte read after a write, a number read after a write, and the canonical form, which
every operation keeps.
-/
namespace Sys2Proof.Machine

/-! ### Bytes -/

theorem readByte_writeByte_self (m : List Host.Cell) (k : Nat) (b : Byte) : readByte (writeByte m k b) k = b :=
  SMap.at_set_self m k b _

theorem readByte_writeByte_ne (m : List Host.Cell) {k j : Nat} (b : Byte) (h : j ≠ k) : readByte (writeByte m k b) j = readByte m j :=
  SMap.at_set_ne m b _ h

/-- Outside the written bytes, a read gives what it gave before. -/
theorem readByte_writeNat_out (m : List Host.Cell) (k n v j : Nat) (h : j < k ∨ k + n ≤ j) : readByte (writeNat m k n v) j = readByte m j := by
  induction n generalizing k v with
  | zero => rfl
  | succ n ih =>
    rw [writeNat, readByte_writeByte_ne _ _ (by omega)]
    exact ih (k + 1) (v / 256) (by omega)

/-- The byte at each written place. -/
theorem readByte_writeNat_in (m : List Host.Cell) (k n v i : Nat) (h : i < n) :
    readByte (writeNat m k n v) (k + i) = BitVec.ofNat 8 (v / 256 ^ i) := by
  induction n generalizing k v i with
  | zero => omega
  | succ n ih =>
    rw [writeNat]
    cases i with
    | zero => simp [readByte_writeByte_self]
    | succ i =>
      rw [readByte_writeByte_ne _ _ (by omega), show k + (i + 1) = k + 1 + i by omega, ih (k + 1) (v / 256) i (by omega),
        Nat.div_div_eq_div_mul, Nat.pow_succ, Nat.mul_comm]

theorem readNat_congr (m m' : List Host.Cell) (k n : Nat) (h : ∀ i, i < n → readByte m (k + i) = readByte m' (k + i)) :
    readNat m k n = readNat m' k n := by
  induction n generalizing k with
  | zero => rfl
  | succ n ih =>
    rw [readNat, readNat, ih (k + 1) fun i hi => by have := h (i + 1) (by omega); rwa [show k + 1 + i = k + (i + 1) by omega]]
    have := h 0 (by omega)
    simp only [Nat.add_zero] at this
    rw [this]

/-- What was written is read, little-endian and modulo its size (02 R45). -/
theorem readNat_writeNat (m : List Host.Cell) (k n v : Nat) : readNat (writeNat m k n v) k n = v % 256 ^ n := by
  induction n generalizing k v with
  | zero => simp [readNat, Nat.mod_one]
  | succ n ih =>
    rw [readNat, writeNat, readByte_writeByte_self]
    have : readNat (writeByte (writeNat m (k + 1) n (v / 256)) k (BitVec.ofNat 8 v)) (k + 1) n = readNat (writeNat m (k + 1) n (v / 256)) (k + 1) n :=
      readNat_congr _ _ _ _ fun i _ => readByte_writeByte_ne _ _ (by omega)
    rw [this, ih]
    rw [BitVec.toNat_ofNat, Nat.pow_succ' (n := n), Nat.mod_mul (x := v) (a := 256)]

/-- A read that touches no written byte. -/
theorem readNat_writeNat_out (m : List Host.Cell) (k n v j l : Nat) (h : j + l ≤ k ∨ k + n ≤ j) :
    readNat (writeNat m k n v) j l = readNat m j l :=
  readNat_congr _ _ _ _ fun i hi => readByte_writeNat_out _ _ _ _ _ (by omega)

/-! ### The canonical form -/

theorem wf_nil : Memory.wf [] = true := rfl

theorem wf_writeByte {m : List Host.Cell} (h : Memory.wf m = true) (k : Nat) (b : Byte) : Memory.wf (writeByte m k b) = true := by
  simp only [Memory.wf, Bool.and_eq_true, List.all_eq_true, bne_iff_ne] at h ⊢
  refine ⟨SMap.rising_set h.1 k b _, ?_⟩
  intro x hx
  unfold writeByte SMap.set at hx
  split at hx
  · exact h.2 x (SMap.mem_del hx).1
  · rename_i hb
    rcases SMap.mem_put hx with e | hx
    · subst e; exact hb
    · exact h.2 x hx

theorem wf_writeNat {m : List Host.Cell} (h : Memory.wf m = true) (k n v : Nat) : Memory.wf (writeNat m k n v) = true := by
  induction n generalizing k v with
  | zero => exact h
  | succ n ih => exact wf_writeByte (ih (k + 1) (v / 256)) k _

/-- Every filter of a canonical list is canonical (a wing zeroed by a layout flip, 20 R411). -/
theorem wf_filter {m : List Host.Cell} (h : Memory.wf m = true) (p : Host.Cell → Bool) : Memory.wf (m.filter p) = true := by
  simp only [Memory.wf, Bool.and_eq_true, List.all_eq_true, bne_iff_ne] at h ⊢
  refine ⟨?_, fun x hx => h.2 x (List.mem_filter.mp hx).1⟩
  have hr := h.1
  clear h
  induction m with
  | nil => rfl
  | cons x m ih =>
    obtain ⟨j, w⟩ := x
    have h' := SMap.rising_cons.mp hr
    simp only [List.filter_cons]
    split
    · exact SMap.rising_cons.mpr ⟨fun y hy => h'.1 y (List.mem_filter.mp hy).1, ih h'.2⟩
    · exact ih h'.2

/-- A list that is written piece by piece. -/
theorem wf_foldl {β : Type} (l : List β) (g : List Host.Cell → β → List Host.Cell) {m : List Host.Cell} (h : Memory.wf m = true)
    (hg : ∀ m x, Memory.wf m = true → Memory.wf (g m x) = true) : Memory.wf (l.foldl g m) = true := by
  induction l generalizing m with
  | nil => exact h
  | cons x l ih => exact ih (hg m x h)

theorem wf_swapMem (a b n : Nat) (m : List Host.Cell) : Memory.wf (swapMem a b n m) = true :=
  wf_foldl m _ wf_nil fun _ _ h => wf_writeByte h _ _

end Sys2Proof.Machine
end

