-- ==== Sys2Proof/Tests/Slice0.lean ====
section
/-!
SUPPORT. Tests: words written out from the manual's encodings, ill-formed terms that the checks refuse, and for every statement with
hypotheses a concrete state and operands that meet them together.
-/
open Sys2Proof Sys2Proof.Machine
namespace Sys2Proof.Tests
set_option Elab.async false

/-! ### Decoding: words written from 03 R76-R81 and R90 and the operand classes of chapters 04 to 08 -/

/-- Each word decodes to the instruction beside it. -/
def decodes (l : List (Nat × Instr)) : Bool := l.all fun x => (decodeWord (BitVec.ofNat 96 x.1)).toOption == some x.2

theorem test_decode_ia_1 : decodes [
    (0x00000000000003A9D1A74000, .iaAdd { gp := 5, gi := true, d := .m 9, a := .k 4, b := .imm 42 }),
    (0x00000000000003A9D1A74100, .iaSub { gp := 5, gi := true, d := .m 9, a := .k 4, b := .imm 42 }),
    (0x00000000000003A9D1A74200, .iaMul { gp := 5, gi := true, d := .m 9, a := .k 4, b := .imm 42 }),
    (0x00000000000003A9D1A74300, .iaMulh { gp := 5, gi := true, d := .m 9, a := .k 4, b := .imm 42 }),
    (0x00000000000003A9D1A74400, .iaMulhu { gp := 5, gi := true, d := .m 9, a := .k 4, b := .imm 42 }),
    (0x00000000000003A9D1A74500, .iaDiv { gp := 5, gi := true, d := .m 9, a := .k 4, b := .imm 42 }),
    (0x00000000000003A9D1A74600, .iaDivu { gp := 5, gi := true, d := .m 9, a := .k 4, b := .imm 42 }),
    (0x00000000000003A9D1A74700, .iaRem { gp := 5, gi := true, d := .m 9, a := .k 4, b := .imm 42 }),
    (0x00000000000003A9D1A74800, .iaRemu { gp := 5, gi := true, d := .m 9, a := .k 4, b := .imm 42 }),
    (0x00000000000003A9D1A74900, .iaAnd { gp := 5, gi := true, d := .m 9, a := .k 4, b := .imm 42 }),
    (0x00000000000003A9D1A74A00, .iaOr { gp := 5, gi := true, d := .m 9, a := .k 4, b := .imm 42 }),
    (0x00000000000003A9D1A74B00, .iaXor { gp := 5, gi := true, d := .m 9, a := .k 4, b := .imm 42 }),
    (0x00000000000003A9D1A74C00, .iaAndn { gp := 5, gi := true, d := .m 9, a := .k 4, b := .imm 42 }),
    (0x00000000000003A9D1A74D00, .iaShl { gp := 5, gi := true, d := .m 9, a := .k 4, b := .imm 42 }),
    (0x00000000000003A9D1A74E00, .iaShr { gp := 5, gi := true, d := .m 9, a := .k 4, b := .imm 42 }),
    (0x00000000000003A9D1A74F00, .iaSra { gp := 5, gi := true, d := .m 9, a := .k 4, b := .imm 42 }),
    (0x00000000000003A9D1A75000, .iaRot { gp := 5, gi := true, d := .m 9, a := .k 4, b := .imm 42 }),
    (0x00000000000003A9D1A75100, .iaMin { gp := 5, gi := true, d := .m 9, a := .k 4, b := .imm 42 }),
    (0x00000000000003A9D1A75200, .iaMax { gp := 5, gi := true, d := .m 9, a := .k 4, b := .imm 42 }),
    (0x00000000000003A9D1A75300, .iaMinu { gp := 5, gi := true, d := .m 9, a := .k 4, b := .imm 42 }),
    (0x00000000000003A9D1A75400, .iaMaxu { gp := 5, gi := true, d := .m 9, a := .k 4, b := .imm 42 }),
    (0x0000000000000001D1A75500, .iaClz { gp := 5, gi := true, d := .m 9, a := .k 4 }),
    (0x0000000000000001D1A75600, .iaCtz { gp := 5, gi := true, d := .m 9, a := .k 4 }),
    (0x0000000000000001D1A75700, .iaPopc { gp := 5, gi := true, d := .m 9, a := .k 4 })] = true := by decide +kernel
theorem test_decode_ia_2 : decodes [
    (0x0000000000000001D1A75800, .iaMov { gp := 5, gi := true, d := .m 9, a := .k 4 }),
    (0x000000000100000018175800, .iaMovC { gp := 5, gi := true, d := .s 5, a := .s 6, m := 0x1 }),
    (0x9ABCDEF100000001D1A74002, .iaAddI { gp := 5, gi := true, d := .m 9, a := .k 4, imm := 0x9ABCDEF1 }),
    (0x9ABCDEF100000001D1A74102, .iaSubI { gp := 5, gi := true, d := .m 9, a := .k 4, imm := 0x9ABCDEF1 }),
    (0x9ABCDEF100000001D1A74202, .iaMulI { gp := 5, gi := true, d := .m 9, a := .k 4, imm := 0x9ABCDEF1 }),
    (0x9ABCDEF100000001D1A74302, .iaMulhI { gp := 5, gi := true, d := .m 9, a := .k 4, imm := 0x9ABCDEF1 }),
    (0x9ABCDEF100000001D1A74402, .iaMulhuI { gp := 5, gi := true, d := .m 9, a := .k 4, imm := 0x9ABCDEF1 }),
    (0x9ABCDEF100000001D1A74502, .iaDivI { gp := 5, gi := true, d := .m 9, a := .k 4, imm := 0x9ABCDEF1 }),
    (0x9ABCDEF100000001D1A74602, .iaDivuI { gp := 5, gi := true, d := .m 9, a := .k 4, imm := 0x9ABCDEF1 }),
    (0x9ABCDEF100000001D1A74702, .iaRemI { gp := 5, gi := true, d := .m 9, a := .k 4, imm := 0x9ABCDEF1 }),
    (0x9ABCDEF100000001D1A74802, .iaRemuI { gp := 5, gi := true, d := .m 9, a := .k 4, imm := 0x9ABCDEF1 }),
    (0x9ABCDEF100000001D1A74902, .iaAndI { gp := 5, gi := true, d := .m 9, a := .k 4, imm := 0x9ABCDEF1 }),
    (0x9ABCDEF100000001D1A74A02, .iaOrI { gp := 5, gi := true, d := .m 9, a := .k 4, imm := 0x9ABCDEF1 }),
    (0x9ABCDEF100000001D1A74B02, .iaXorI { gp := 5, gi := true, d := .m 9, a := .k 4, imm := 0x9ABCDEF1 }),
    (0x9ABCDEF100000001D1A74C02, .iaAndnI { gp := 5, gi := true, d := .m 9, a := .k 4, imm := 0x9ABCDEF1 }),
    (0x0000003100000001D1A74D02, .iaShlI { gp := 5, gi := true, d := .m 9, a := .k 4, imm := 0x31 }),
    (0x0000003100000001D1A74E02, .iaShrI { gp := 5, gi := true, d := .m 9, a := .k 4, imm := 0x31 }),
    (0x0000003100000001D1A74F02, .iaSraI { gp := 5, gi := true, d := .m 9, a := .k 4, imm := 0x31 }),
    (0x0000003100000001D1A75002, .iaRotI { gp := 5, gi := true, d := .m 9, a := .k 4, imm := 0x31 }),
    (0x9ABCDEF100000001D1A75102, .iaMinI { gp := 5, gi := true, d := .m 9, a := .k 4, imm := 0x9ABCDEF1 }),
    (0x9ABCDEF100000001D1A75202, .iaMaxI { gp := 5, gi := true, d := .m 9, a := .k 4, imm := 0x9ABCDEF1 }),
    (0x9ABCDEF100000001D1A75302, .iaMinuI { gp := 5, gi := true, d := .m 9, a := .k 4, imm := 0x9ABCDEF1 }),
    (0x9ABCDEF100000001D1A75402, .iaMaxuI { gp := 5, gi := true, d := .m 9, a := .k 4, imm := 0x9ABCDEF1 }),
    (0x00000000010003A9D1A74001, .iaBfx { gp := 5, gi := true, d := .m 9, a := .k 4, b := .imm 42, m := 0x1 })] = true := by decide +kernel
theorem test_decode_ia_3 : decodes [
    (0x00000000006C03A9D1A74101, .iaBfi { gp := 5, gi := true, d := .m 9, a := .k 4, b := .imm 42, c := .m 12 }),
    (0x00000000008703A9D1A74201, .iaSel { gp := 5, gi := true, d := .m 9, a := .k 4, b := .imm 42, c := .p 7 }),
    (0x00001EF101000001D1A74003, .iaBfxI { gp := 5, gi := true, d := .m 9, a := .k 4, m := 0x1, imm := 0x1EF1 }),
    (0x00001EF1000003A9D1A74103, .iaBfiI { gp := 5, gi := true, d := .m 9, a := .k 4, b := .imm 42, imm := 0x1EF1 }),
    (0x8123456789AB000001A74004, .iaLi { gp := 5, gi := true, d := .m 9, imm := 0x8123456789AB })] = true := by decide +kernel
theorem test_decode_icmp : decodes [
    (0x00000000000003A9D20F4005, .icmpEq { gp := 5, gi := true, d := .p 3, a := .k 4, b := .imm 42 }),
    (0x00000000000003A9D20F4105, .icmpNe { gp := 5, gi := true, d := .p 3, a := .k 4, b := .imm 42 }),
    (0x00000000000003A9D20F4205, .icmpLt { gp := 5, gi := true, d := .p 3, a := .k 4, b := .imm 42 }),
    (0x00000000000003A9D20F4305, .icmpLtu { gp := 5, gi := true, d := .p 3, a := .k 4, b := .imm 42 }),
    (0x00000000000003A9D20F4405, .icmpLe { gp := 5, gi := true, d := .p 3, a := .k 4, b := .imm 42 }),
    (0x00000000000003A9D20F4505, .icmpLeu { gp := 5, gi := true, d := .p 3, a := .k 4, b := .imm 42 }),
    (0x9ABCDEF100000001D20F4006, .icmpEqI { gp := 5, gi := true, d := .p 3, a := .k 4, imm := 0x9ABCDEF1 }),
    (0x9ABCDEF100000001D20F4106, .icmpNeI { gp := 5, gi := true, d := .p 3, a := .k 4, imm := 0x9ABCDEF1 }),
    (0x9ABCDEF100000001D20F4206, .icmpLtI { gp := 5, gi := true, d := .p 3, a := .k 4, imm := 0x9ABCDEF1 }),
    (0x9ABCDEF100000001D20F4306, .icmpLtuI { gp := 5, gi := true, d := .p 3, a := .k 4, imm := 0x9ABCDEF1 }),
    (0x9ABCDEF100000001D20F4406, .icmpLeI { gp := 5, gi := true, d := .p 3, a := .k 4, imm := 0x9ABCDEF1 }),
    (0x9ABCDEF100000001D20F4506, .icmpLeuI { gp := 5, gi := true, d := .p 3, a := .k 4, imm := 0x9ABCDEF1 })] = true := by decide +kernel
theorem test_decode_cap : decodes [
    (0x00000000070003A818174010, .capBound { gp := 5, gi := true, d := .s 5, a := .s 6, b := .imm 42, m := 0x7 }),
    (0x00000000000003A818174110, .capPerm { gp := 5, gi := true, d := .s 5, a := .s 6, b := .imm 42 }),
    (0x00000000000003A818174210, .capSetaddr { gp := 5, gi := true, d := .s 5, a := .s 6, b := .imm 42 }),
    (0x00000000000003A818174310, .capIncaddr { gp := 5, gi := true, d := .s 5, a := .s 6, b := .imm 42 }),
    (0x000000000000000019A74410, .capGetbase { gp := 5, gi := true, d := .m 9, a := .s 6 }),
    (0x000000000000000019A74510, .capGetlen { gp := 5, gi := true, d := .m 9, a := .s 6 }),
    (0x000000000000000019A74610, .capGetperm { gp := 5, gi := true, d := .m 9, a := .s 6 }),
    (0x00000000000000001A0F4710, .capTagtest { gp := 5, gi := true, d := .p 3, a := .s 6 }),
    (0x000000000000000018174810, .capClear { gp := 5, gi := true, d := .s 5, a := .s 6 }),
    (0x9ABCDEF10700000018174011, .capBoundI { gp := 5, gi := true, d := .s 5, a := .s 6, m := 0x7, imm := 0x9ABCDEF1 }),
    (0x0000DEF10000000018174111, .capPermI { gp := 5, gi := true, d := .s 5, a := .s 6, imm := 0xDEF1 }),
    (0x9ABCDEF10000000018174311, .capIncaddrI { gp := 5, gi := true, d := .s 5, a := .s 6, imm := 0x9ABCDEF1 })] = true := by decide +kernel
theorem test_decode_prd : decodes [
    (0x000000000000021A160F4018, .prdAnd { gp := 5, gi := true, d := .p 3, a := .p 5, b := .p 6 }),
    (0x000000000000021A160F4118, .prdOr { gp := 5, gi := true, d := .p 3, a := .p 5, b := .p 6 }),
    (0x000000000000021A160F4218, .prdXor { gp := 5, gi := true, d := .p 3, a := .p 5, b := .p 6 }),
    (0x0000000000000002160F4318, .prdNot { gp := 5, gi := true, d := .p 3, a := .p 5 }),
    (0x0000000000000001D20F4418, .prdSet { gp := 5, gi := true, d := .p 3, a := .k 4 })] = true := by decide +kernel
theorem test_decode_ctl : decodes [
    (0x9ABCDEF10000000000034020, .ctlBr { gp := 5, gi := true, imm := 0x9ABCDEF1 }),
    (0x9ABCDEF10100000000034020, .ctlBrBq { gp := 5, gi := true, m := 0x1, imm := 0x9ABCDEF1 }),
    (0x9ABCDEF10000000001A74120, .ctlCall { gp := 5, gi := true, d := .m 9, imm := 0x9ABCDEF1 }),
    (0x0123456700000001D0034220, .ctlLoop { gp := 5, gi := true, a := .k 4, imm := 0x1234567 }),
    (0x0000000000000001D1A74021, .ctlJr { gp := 5, gi := true, d := .m 9, a := .k 4 }),
    (0x0000000000000001D0034121, .ctlRet { gp := 5, gi := true, a := .k 4 }),
    (0x00000000000003A9D0034221, .ctlTrap { gp := 5, gi := true, a := .k 4, b := .imm 42 }),
    (0x000000000000000000034321, .ctlNop { gp := 5, gi := true }),
    (0x000000000000000000034421, .ctlExit { gp := 5, gi := true }),
    (0x000CDEF10000000000034022, .ctlAlign { gp := 5, gi := true, imm := 0xCDEF1 })] = true := by decide +kernel
theorem test_decode_fpu : decodes [
    (0x00000000070003A9D1A74030, .fpuAdd { gp := 5, gi := true, d := .m 9, a := .k 4, b := .imm 42, m := 0x7 }),
    (0x00000000070003A9D1A74130, .fpuSub { gp := 5, gi := true, d := .m 9, a := .k 4, b := .imm 42, m := 0x7 }),
    (0x00000000070003A9D1A74230, .fpuMul { gp := 5, gi := true, d := .m 9, a := .k 4, b := .imm 42, m := 0x7 }),
    (0x00000000070003A9D1A74330, .fpuDiv { gp := 5, gi := true, d := .m 9, a := .k 4, b := .imm 42, m := 0x7 }),
    (0x00000000070003A9D1A74430, .fpuMin { gp := 5, gi := true, d := .m 9, a := .k 4, b := .imm 42, m := 0x7 }),
    (0x00000000070003A9D1A74530, .fpuMax { gp := 5, gi := true, d := .m 9, a := .k 4, b := .imm 42, m := 0x7 }),
    (0x0000000007000001D1A74630, .fpuSqrt { gp := 5, gi := true, d := .m 9, a := .k 4, m := 0x7 }),
    (0x00000000250003A9D20F4730, .fpuCmp { gp := 5, gi := true, d := .p 3, a := .k 4, b := .imm 42, m := 0x25 }),
    (0x0000000038000001D1A74830, .fpuCvt { gp := 5, gi := true, d := .m 9, a := .k 4, m := 0x38 }),
    (0x00000000076C03A9D1A74031, .fpuFma { gp := 5, gi := true, d := .m 9, a := .k 4, b := .imm 42, c := .m 12, m := 0x7 })] = true := by decide +kernel
theorem test_decode_vec_1 : decodes [
    (0x000000000300017945274040, .vecAdd { gp := 5, gi := true, d := .v 9, a := .v 17, b := .v 30, m := 0x3 }),
    (0x000000000300017945274140, .vecSub { gp := 5, gi := true, d := .v 9, a := .v 17, b := .v 30, m := 0x3 }),
    (0x000000000300017945274240, .vecMul { gp := 5, gi := true, d := .v 9, a := .v 17, b := .v 30, m := 0x3 }),
    (0x000000000300017945274340, .vecMin { gp := 5, gi := true, d := .v 9, a := .v 17, b := .v 30, m := 0x3 }),
    (0x000000000300017945274440, .vecMax { gp := 5, gi := true, d := .v 9, a := .v 17, b := .v 30, m := 0x3 }),
    (0x000000000300000145274540, .vecAbs { gp := 5, gi := true, d := .v 9, a := .v 17, m := 0x3 }),
    (0x000000000300000145274640, .vecNeg { gp := 5, gi := true, d := .v 9, a := .v 17, m := 0x3 }),
    (0x000000000000017945274740, .vecAnd { gp := 5, gi := true, d := .v 9, a := .v 17, b := .v 30 }),
    (0x000000000000017945274840, .vecOr { gp := 5, gi := true, d := .v 9, a := .v 17, b := .v 30 }),
    (0x000000000000017945274940, .vecXor { gp := 5, gi := true, d := .v 9, a := .v 17, b := .v 30 }),
    (0x000000000000017945274A40, .vecShl { gp := 5, gi := true, d := .v 9, a := .v 17, b := .v 30 }),
    (0x000000000100017945274B40, .vecShr { gp := 5, gi := true, d := .v 9, a := .v 17, b := .v 30, m := 0x1 }),
    (0x000000004100017945274C40, .vecCmp { gp := 5, gi := true, d := .v 9, a := .v 17, b := .v 30, m := 0x41 }),
    (0x0000000004000001D1274D40, .vecBcast { gp := 5, gi := true, d := .v 9, a := .k 4, m := 0x4 }),
    (0x000000000000017945274E40, .vecPerm { gp := 5, gi := true, d := .v 9, a := .v 17, b := .v 30 }),
    (0x000000005100000145A74F40, .vecRed { gp := 5, gi := true, d := .m 9, a := .v 17, m := 0x51 }),
    (0x000000002700000145275040, .vecScan { gp := 5, gi := true, d := .v 9, a := .v 17, m := 0x27 }),
    (0x000000000000000145275140, .vecExp2 { gp := 5, gi := true, d := .v 9, a := .v 17 }),
    (0x000000000000000145275240, .vecLog2 { gp := 5, gi := true, d := .v 9, a := .v 17 }),
    (0x000000000000000145275340, .vecRcp { gp := 5, gi := true, d := .v 9, a := .v 17 }),
    (0x000000000000000145275440, .vecRsqrt { gp := 5, gi := true, d := .v 9, a := .v 17 }),
    (0x000000000000000145275540, .vecTanh { gp := 5, gi := true, d := .v 9, a := .v 17 }),
    (0x00000000AB00000145275640, .vecCvt { gp := 5, gi := true, d := .v 9, a := .v 17, m := 0xAB }),
    (0x000000000000017945275740, .vecPack { gp := 5, gi := true, d := .v 9, a := .v 17, b := .v 30 })] = true := by decide +kernel
theorem test_decode_vec_2 : decodes [
    (0x000000000100000145275840, .vecUnpack { gp := 5, gi := true, d := .v 9, a := .v 17, m := 0x1 }),
    (0x000000000341017945274041, .vecFma { gp := 5, gi := true, d := .v 9, a := .v 17, b := .v 30, c := .v 1, m := 0x3 }),
    (0x000000000041017945274141, .vecSel { gp := 5, gi := true, d := .v 9, a := .v 17, b := .v 30, c := .v 1 }),
    (0x9ABCDEF10400000001274042, .vecBcastI { gp := 5, gi := true, d := .v 9, m := 0x4, imm := 0x9ABCDEF1 }),
    (0x000000310000000145274142, .vecShlI { gp := 5, gi := true, d := .v 9, a := .v 17, imm := 0x31 }),
    (0x000000310100000145274242, .vecShrI { gp := 5, gi := true, d := .v 9, a := .v 17, m := 0x1, imm := 0x31 })] = true := by decide +kernel
theorem test_decode_qz : decodes [
    (0x000000003B00017945274060, .qzBlk { gp := 5, gi := true, d := .v 9, a := .v 17, b := .v 30, m := 0x3B }),
    (0x000000009500017945274160, .qzDq { gp := 5, gi := true, d := .v 9, a := .v 17, b := .v 30, m := 0x95 }),
    (0x000000000100000145A74260, .qzTagget { gp := 5, gi := true, d := .m 9, a := .v 17, m := 0x1 }),
    (0x00000000010003A945274360, .qzTagset { gp := 5, gi := true, d := .v 9, a := .v 17, b := .imm 42, m := 0x1 }),
    (0x000000001F6C0179452B4061, .qzSplit { gp := 5, gi := true, d := .v 10, a := .v 17, b := .v 30, c := .m 12, m := 0x1F })] = true := by decide +kernel
theorem test_decode_ldst : decodes [
    (0x9ABCDEF16D0013A819A74070, .ldB { gp := 5, gi := true, d := .m 9, a := .s 6, b := .imm 42, m := 0x6D, imm := 0x9ABCDEF1, cp := 2 }),
    (0x9ABCDEF16D0013A819A74170, .ldH { gp := 5, gi := true, d := .m 9, a := .s 6, b := .imm 42, m := 0x6D, imm := 0x9ABCDEF1, cp := 2 }),
    (0x9ABCDEF16D0013A819A74270, .ldW { gp := 5, gi := true, d := .m 9, a := .s 6, b := .imm 42, m := 0x6D, imm := 0x9ABCDEF1, cp := 2 }),
    (0x9ABCDEF16D0013A819A74370, .ldD { gp := 5, gi := true, d := .m 9, a := .s 6, b := .imm 42, m := 0x6D, imm := 0x9ABCDEF1, cp := 2 }),
    (0x9ABCDEF16D0013A818174470, .ldC { gp := 5, gi := true, d := .s 5, a := .s 6, b := .imm 42, m := 0x6D, imm := 0x9ABCDEF1, cp := 2 }),
    (0x9ABCDEF16D0013A819A74570, .ldBu { gp := 5, gi := true, d := .m 9, a := .s 6, b := .imm 42, m := 0x6D, imm := 0x9ABCDEF1, cp := 2 }),
    (0x9ABCDEF16D0013A819A74670, .ldHu { gp := 5, gi := true, d := .m 9, a := .s 6, b := .imm 42, m := 0x6D, imm := 0x9ABCDEF1, cp := 2 }),
    (0x9ABCDEF16D0013A819A74770, .ldWu { gp := 5, gi := true, d := .m 9, a := .s 6, b := .imm 42, m := 0x6D, imm := 0x9ABCDEF1, cp := 2 }),
    (0x9ABCDEF1AD6C13A818034071, .stB { gp := 5, gi := true, a := .s 6, b := .imm 42, c := .m 12, m := 0xAD, imm := 0x9ABCDEF1, cp := 2 }),
    (0x9ABCDEF1AD6C13A818034171, .stH { gp := 5, gi := true, a := .s 6, b := .imm 42, c := .m 12, m := 0xAD, imm := 0x9ABCDEF1, cp := 2 }),
    (0x9ABCDEF1AD6C13A818034271, .stW { gp := 5, gi := true, a := .s 6, b := .imm 42, c := .m 12, m := 0xAD, imm := 0x9ABCDEF1, cp := 2 }),
    (0x9ABCDEF1AD6C13A818034371, .stD { gp := 5, gi := true, a := .s 6, b := .imm 42, c := .m 12, m := 0xAD, imm := 0x9ABCDEF1, cp := 2 }),
    (0x9ABCDEF1AD0813A818034471, .stC { gp := 5, gi := true, a := .s 6, b := .imm 42, c := .s 8, m := 0xAD, imm := 0x9ABCDEF1, cp := 2 })] = true := by decide +kernel
theorem test_decode_vm : decodes [
    (0x9ABCDEF16D0013A819274080, .vmVld { gp := 5, gi := true, d := .v 9, a := .s 6, b := .imm 42, m := 0x6D, imm := 0x9ABCDEF1, cp := 2 }),
    (0x9ABCDEF1AD4113A818034180, .vmVst { gp := 5, gi := true, a := .s 6, b := .imm 42, c := .v 1, m := 0xAD, imm := 0x9ABCDEF1, cp := 2 }),
    (0x2FFFFFF86D0013A819274280, .vmVlds { gp := 5, gi := true, d := .v 9, a := .s 6, b := .imm 42, m := 0x6D, imm := 0x2FFFFFF8, cp := 2 }),
    (0x2FFFFFF8AD4113A818034380, .vmVsts { gp := 5, gi := true, a := .s 6, b := .imm 42, c := .v 1, m := 0xAD, imm := 0x2FFFFFF8, cp := 2 }),
    (0x9ABCDEF16D00117819274480, .vmVgath { gp := 5, gi := true, d := .v 9, a := .s 6, b := .v 30, m := 0x6D, imm := 0x9ABCDEF1, cp := 2 }),
    (0x9ABCDEF1AD41117818034580, .vmVscat { gp := 5, gi := true, a := .s 6, b := .v 30, c := .v 1, m := 0xAD, imm := 0x9ABCDEF1, cp := 2 })] = true := by decide +kernel
theorem test_decode_fe : decodes [
    (0x9ABCDEF1000013A819A74090, .feLwf { gp := 5, gi := true, d := .m 9, a := .s 6, b := .imm 42, imm := 0x9ABCDEF1, cp := 2 }),
    (0x9ABCDEF1000013A819A74190, .feLwfe { gp := 5, gi := true, d := .m 9, a := .s 6, b := .imm 42, imm := 0x9ABCDEF1, cp := 2 }),
    (0x9ABCDEF1006C13A818034290, .feSwe { gp := 5, gi := true, a := .s 6, b := .imm 42, c := .m 12, imm := 0x9ABCDEF1, cp := 2 }),
    (0x9ABCDEF1006C13A818034390, .feSf { gp := 5, gi := true, a := .s 6, b := .imm 42, c := .m 12, imm := 0x9ABCDEF1, cp := 2 }),
    (0x9ABCDEF1000013A818034490, .feCe { gp := 5, gi := true, a := .s 6, b := .imm 42, imm := 0x9ABCDEF1, cp := 2 }),
    (0x9ABCDEF1070013A819A74590, .fePeek { gp := 5, gi := true, d := .m 9, a := .s 6, b := .imm 42, m := 0x7, imm := 0x9ABCDEF1, cp := 2 })] = true := by decide +kernel
theorem test_decode_lrsc : decodes [
    (0x9ABCDEF16D0013A819A74291, .lrW { gp := 5, gi := true, d := .m 9, a := .s 6, b := .imm 42, m := 0x6D, imm := 0x9ABCDEF1, cp := 2 }),
    (0x9ABCDEF16D0013A819A74391, .lrD { gp := 5, gi := true, d := .m 9, a := .s 6, b := .imm 42, m := 0x6D, imm := 0x9ABCDEF1, cp := 2 }),
    (0x9ABCDEF1AD6C13A819A74292, .scW { gp := 5, gi := true, d := .m 9, a := .s 6, b := .imm 42, c := .m 12, m := 0xAD, imm := 0x9ABCDEF1, cp := 2 }),
    (0x9ABCDEF1AD6C13A819A74392, .scD { gp := 5, gi := true, d := .m 9, a := .s 6, b := .imm 42, c := .m 12, m := 0xAD, imm := 0x9ABCDEF1, cp := 2 })] = true := by decide +kernel
theorem test_decode_amo : decodes [
    (0x9ABCDEF1C10013A819A74093, .amoAdd false { gp := 5, gi := true, d := .m 9, a := .s 6, b := .imm 42, m := 0xC1, imm := 0x9ABCDEF1, cp := 2 }),
    (0x9ABCDEF1C10013A819A75093, .amoAdd true { gp := 5, gi := true, d := .m 9, a := .s 6, b := .imm 42, m := 0xC1, imm := 0x9ABCDEF1, cp := 2 }),
    (0x9ABCDEF1C10013A819A74193, .amoAnd false { gp := 5, gi := true, d := .m 9, a := .s 6, b := .imm 42, m := 0xC1, imm := 0x9ABCDEF1, cp := 2 }),
    (0x9ABCDEF1C10013A819A75193, .amoAnd true { gp := 5, gi := true, d := .m 9, a := .s 6, b := .imm 42, m := 0xC1, imm := 0x9ABCDEF1, cp := 2 }),
    (0x9ABCDEF1C10013A819A74293, .amoOr false { gp := 5, gi := true, d := .m 9, a := .s 6, b := .imm 42, m := 0xC1, imm := 0x9ABCDEF1, cp := 2 }),
    (0x9ABCDEF1C10013A819A75293, .amoOr true { gp := 5, gi := true, d := .m 9, a := .s 6, b := .imm 42, m := 0xC1, imm := 0x9ABCDEF1, cp := 2 }),
    (0x9ABCDEF1C10013A819A74393, .amoXor false { gp := 5, gi := true, d := .m 9, a := .s 6, b := .imm 42, m := 0xC1, imm := 0x9ABCDEF1, cp := 2 }),
    (0x9ABCDEF1C10013A819A75393, .amoXor true { gp := 5, gi := true, d := .m 9, a := .s 6, b := .imm 42, m := 0xC1, imm := 0x9ABCDEF1, cp := 2 }),
    (0x9ABCDEF1C10013A819A74493, .amoMin false { gp := 5, gi := true, d := .m 9, a := .s 6, b := .imm 42, m := 0xC1, imm := 0x9ABCDEF1, cp := 2 }),
    (0x9ABCDEF1C10013A819A75493, .amoMin true { gp := 5, gi := true, d := .m 9, a := .s 6, b := .imm 42, m := 0xC1, imm := 0x9ABCDEF1, cp := 2 }),
    (0x9ABCDEF1C10013A819A74593, .amoMax false { gp := 5, gi := true, d := .m 9, a := .s 6, b := .imm 42, m := 0xC1, imm := 0x9ABCDEF1, cp := 2 }),
    (0x9ABCDEF1C10013A819A75593, .amoMax true { gp := 5, gi := true, d := .m 9, a := .s 6, b := .imm 42, m := 0xC1, imm := 0x9ABCDEF1, cp := 2 }),
    (0x9ABCDEF1C10013A819A74693, .amoMinu false { gp := 5, gi := true, d := .m 9, a := .s 6, b := .imm 42, m := 0xC1, imm := 0x9ABCDEF1, cp := 2 }),
    (0x9ABCDEF1C10013A819A75693, .amoMinu true { gp := 5, gi := true, d := .m 9, a := .s 6, b := .imm 42, m := 0xC1, imm := 0x9ABCDEF1, cp := 2 }),
    (0x9ABCDEF1C10013A819A74793, .amoMaxu false { gp := 5, gi := true, d := .m 9, a := .s 6, b := .imm 42, m := 0xC1, imm := 0x9ABCDEF1, cp := 2 }),
    (0x9ABCDEF1C10013A819A75793, .amoMaxu true { gp := 5, gi := true, d := .m 9, a := .s 6, b := .imm 42, m := 0xC1, imm := 0x9ABCDEF1, cp := 2 }),
    (0x9ABCDEF1C10013A819A74893, .amoSwap false { gp := 5, gi := true, d := .m 9, a := .s 6, b := .imm 42, m := 0xC1, imm := 0x9ABCDEF1, cp := 2 }),
    (0x9ABCDEF1C10013A819A75893, .amoSwap true { gp := 5, gi := true, d := .m 9, a := .s 6, b := .imm 42, m := 0xC1, imm := 0x9ABCDEF1, cp := 2 }),
    (0x9ABCDEF1C16C13A819A74993, .amoCas false { gp := 5, gi := true, d := .m 9, a := .s 6, b := .imm 42, c := .m 12, m := 0xC1, imm := 0x9ABCDEF1, cp := 2 }),
    (0x9ABCDEF1C16C13A819A75993, .amoCas true { gp := 5, gi := true, d := .m 9, a := .s 6, b := .imm 42, c := .m 12, m := 0xC1, imm := 0x9ABCDEF1, cp := 2 })] = true := by decide +kernel
theorem test_decode_fence : decodes [
    (0x000000008300000000034094, .fence { gp := 5, gi := true, m := 0x83 })] = true := by decide +kernel
theorem test_decode_watch : decodes [
    (0x00000000000003A819A74095, .watchSet { gp := 5, gi := true, d := .m 9, a := .s 6, b := .imm 42 }),
    (0x00000000000003A818034195, .watchClr { gp := 5, gi := true, a := .s 6, b := .imm 42 }),
    (0x000000000700000001A74295, .watchWaitrs { gp := 5, gi := true, d := .m 9, m := 0x7 })] = true := by decide +kernel
theorem test_decode_areg : decodes [
    (0x9ABCDEF10000000000034098, .aregBegin { gp := 5, gi := true, imm := 0x9ABCDEF1 }),
    (0x000000000000000001A74099, .aregCommit { gp := 5, gi := true, d := .m 9 }),
    (0x0000000000000001D0034199, .aregAbort { gp := 5, gi := true, a := .k 4 }),
    (0x000000000000000001A74299, .aregStat { gp := 5, gi := true, d := .m 9 })] = true := by decide +kernel
theorem test_decode_msg : decodes [
    (0x00000000010007A9D00340A0, .msgSend { gp := 5, gi := true, a := .k 4, b := .imm 42, m := 0x1, e := true }),
    (0x0000DEF101000401D00340A1, .msgSendI { gp := 5, gi := true, a := .k 4, m := 0x1, imm := 0xDEF1, e := true }),
    (0x00000000010007A9D00341A0, .msgSendn { gp := 5, gi := true, a := .k 4, b := .imm 42, m := 0x1, e := true }),
    (0x0000000000000001D00342A0, .msgClr { gp := 5, gi := true, a := .k 4 }),
    (0x0000000000000001D1A743A0, .msgWait { gp := 5, gi := true, d := .m 9, a := .k 4 }),
    (0x0000000000000001D00344A0, .msgImask { gp := 5, gi := true, a := .k 4 }),
    (0x0000007100000000000344A1, .msgImaskI { gp := 5, gi := true, imm := 0x71 }),
    (0x0000000000000000000345A0, .msgIret { gp := 5, gi := true })] = true := by decide +kernel
theorem test_decode_cp : decodes [
    (0x0000D56B006C301C180340B0, .cpLin { gp := 5, gi := true, a := .s 6, b := .s 7, c := .m 12, imm := 0xD56B, cp := 2, n := true }),
    (0x0000D56B003E301C180341B0, .cpTd { gp := 5, gi := true, a := .s 6, b := .s 7, c := .s 62, imm := 0xD56B, cp := 2, n := true }),
    (0x0000D56B003E301C180342B0, .cpG { gp := 5, gi := true, a := .s 6, b := .s 7, c := .s 62, imm := 0xD56B, cp := 2, n := true }),
    (0x009CD56B06003000180343B0, .cpMx { gp := 5, gi := true, a := .s 6, m := 0x6, imm := 0x9CD56B, cp := 2, n := true }),
    (0x0000000000000001D1A740B1, .cpWany { gp := 5, gi := true, d := .m 9, a := .k 4 }),
    (0x0000000000000001D1A741B1, .cpWall { gp := 5, gi := true, d := .m 9, a := .k 4 }),
    (0x0000000000000001D1A742B1, .cpFfr { gp := 5, gi := true, d := .m 9, a := .k 4 }),
    (0x0000000001000001D1A742B1, .cpFfrRec { gp := 5, gi := true, d := .m 9, a := .k 4, m := 0x1 })] = true := by decide +kernel
theorem test_decode_bar : decodes [
    (0x00006AC0000003A9D00340B8, .barArm { gp := 5, gi := true, a := .k 4, b := .imm 42, imm := 0x6AC0 }),
    (0x00006AC00000000001A741B8, .barArrive { gp := 5, gi := true, d := .m 9, imm := 0x6AC0 }),
    (0x00006AC000000001D00342B8, .barWait { gp := 5, gi := true, a := .k 4, imm := 0x6AC0 }),
    (0x00006AC00100000001A743B8, .barStat { gp := 5, gi := true, d := .m 9, m := 0x1, imm := 0x6AC0 })] = true := by decide +kernel
theorem test_decode_mx : decodes [
    (0x009CD56B023E301C180340C0, .mxMma { gp := 5, gi := true, a := .s 6, b := .s 7, c := .s 62, m := 0x2, imm := 0x9CD56B, cp := 2, n := true }),
    (0x009CD56B023E301C19A741C0, .mxMmaq { gp := 5, gi := true, d := .m 9, a := .s 6, b := .s 7, c := .s 62, m := 0x2, imm := 0x9CD56B, cp := 2, n := true }),
    (0x009CD56B006C0000000342C0, .mxZero { gp := 5, gi := true, c := .m 12, imm := 0x9CD56B }),
    (0x009CD56B026C33A8180343C0, .mxLd { gp := 5, gi := true, a := .s 6, b := .imm 42, c := .m 12, m := 0x2, imm := 0x9CD56B, cp := 2, n := true }),
    (0x009CD56B026C33A8180344C0, .mxSt { gp := 5, gi := true, a := .s 6, b := .imm 42, c := .m 12, m := 0x2, imm := 0x9CD56B, cp := 2, n := true }),
    (0x000000000000000001A745C0, .mxChk { gp := 5, gi := true, d := .m 9 }),
    (0x000000000100000001A745C0, .mxChkInject { gp := 5, gi := true, d := .m 9, m := 0x1 })] = true := by decide +kernel
theorem test_decode_rope : decodes [
    (0x0B000000000033A8180340D0, .ropeSchema { gp := 5, gi := true, a := .s 6, b := .imm 42, imm := 0xB000000, cp := 2, n := true }),
    (0x0B000000006C301C180341D0, .ropeLeaf { gp := 5, gi := true, a := .s 6, b := .s 7, c := .m 12, imm := 0xB000000, cp := 2, n := true }),
    (0x0B000000006C33A8180342D0, .ropeCat { gp := 5, gi := true, a := .s 6, b := .imm 42, c := .m 12, imm := 0xB000000, cp := 2, n := true }),
    (0x0B000000006C33A8180343D0, .ropeSplit { gp := 5, gi := true, a := .s 6, b := .imm 42, c := .m 12, imm := 0xB000000, cp := 2, n := true }),
    (0x0B000000003E33A8180344D0, .ropeSplice { gp := 5, gi := true, a := .s 6, b := .imm 42, c := .s 62, imm := 0xB000000, cp := 2, n := true }),
    (0x0B000000003E33A8180345D0, .ropeSum { gp := 5, gi := true, a := .s 6, b := .imm 42, c := .s 62, imm := 0xB000000, cp := 2, n := true }),
    (0x0B000000036C33A8180346D0, .ropeSeek { gp := 5, gi := true, a := .s 6, b := .imm 42, c := .m 12, m := 0x3, imm := 0xB000000, cp := 2, n := true }),
    (0x0B000000063E33A8181747D0, .ropeWalk { gp := 5, gi := true, d := .s 5, a := .s 6, b := .imm 42, c := .s 62, m := 0x6, imm := 0xB000000, cp := 2, n := true }),
    (0x0B000000000033A8180348D0, .ropePin { gp := 5, gi := true, a := .s 6, b := .imm 42, imm := 0xB000000, cp := 2, n := true }),
    (0x0B0000000100301C180348D0, .ropePinH { gp := 5, gi := true, a := .s 6, b := .s 7, m := 0x1, imm := 0xB000000, cp := 2, n := true }),
    (0x0B000000000033A8180349D0, .ropeUnpin { gp := 5, gi := true, a := .s 6, b := .imm 42, imm := 0xB000000, cp := 2, n := true }),
    (0x0B000000006C301C18034AD0, .ropePub { gp := 5, gi := true, a := .s 6, b := .s 7, c := .m 12, imm := 0xB000000, cp := 2, n := true })] = true := by decide +kernel
theorem test_decode_q : decodes [
    (0x000000000000001DD1A740E0, .qPush { gp := 5, gi := true, d := .m 9, a := .k 4, b := .s 7 }),
    (0x000000000100001DD1A741E0, .qPop { gp := 5, gi := true, d := .m 9, a := .k 4, b := .s 7, m := 0x1 }),
    (0x0000000000000001D1A742E0, .qClose { gp := 5, gi := true, d := .m 9, a := .k 4 }),
    (0x0000000001000001D1A742E0, .qCloseKill { gp := 5, gi := true, d := .m 9, a := .k 4, m := 0x1 }),
    (0x00000000000003A819A743E0, .qGang { gp := 5, gi := true, d := .m 9, a := .s 6, b := .imm 42 })] = true := by decide +kernel
theorem test_decode_pair : decodes [
    (0x00000000000003A9D1A740E8, .pairLock { gp := 5, gi := true, d := .m 9, a := .k 4, b := .imm 42 }),
    (0x00000000000003A9D1A741E8, .pairSplit { gp := 5, gi := true, d := .m 9, a := .k 4, b := .imm 42 }),
    (0x0000000000000000000342E8, .pairEnd { gp := 5, gi := true }),
    (0x0000000000000001D00340E9, .pqPush { gp := 5, gi := true, a := .k 4 }),
    (0x000000000000000001A741E9, .pqPop { gp := 5, gi := true, d := .m 9 }),
    (0x0000000000000002140340EA, .bqPush { gp := 5, gi := true, a := .p 5 })] = true := by decide +kernel
theorem test_decode_sys : decodes [
    (0x0000000000000000000340F0, .sysEcall { gp := 5, gi := true }),
    (0x0000000000000000000341F0, .sysEret { gp := 5, gi := true }),
    (0x0000000000000000000342F0, .sysWfi { gp := 5, gi := true }),
    (0x00000000010003A9D00343F0, .sysTlbinv { gp := 5, gi := true, a := .k 4, b := .imm 42, m := 0x1 }),
    (0x0000000000000001D1A744F0, .sysCtxsave { gp := 5, gi := true, d := .m 9, a := .k 4 }),
    (0x0000000000000001D1A745F0, .sysCtxload { gp := 5, gi := true, d := .m 9, a := .k 4 }),
    (0x000000000000000001A746F0, .sysYield { gp := 5, gi := true, d := .m 9 }),
    (0x000000130000000001A740F1, .sysCsrr { gp := 5, gi := true, d := .m 9, imm := 0x13 }),
    (0x0000001300000001D1A741F1, .sysCsrw { gp := 5, gi := true, d := .m 9, a := .k 4, imm := 0x13 })] = true := by decide +kernel
theorem test_decode_cue : ([
    (0x065B4000, .cueAdd 9 6 13),
    (0x0A5B4000, .cueSub 9 6 13),
    (0x0E5B4000, .cueAnd 9 6 13),
    (0x125B4000, .cueOr 9 6 13),
    (0x165B4000, .cueXor 9 6 13),
    (0x1A5B4000, .cueShl 9 6 13),
    (0x1E5B4000, .cueShr 9 6 13),
    (0x225B4000, .cueSlt 9 6 13),
    (0x265B4000, .cueSltu 9 6 13),
    (0x2A5B4000, .cueSeq 9 6 13),
    (0x425AA5F1, .cueAddi 9 6 0x2A5F1),
    (0x465AA5F1, .cueAndi 9 6 0x2A5F1),
    (0x4A42A5F1, .cueLi 9 0x2A5F1),
    (0x4E5AA5F1, .cueLih 9 6 0x2A5F1),
    (0x625AA5F1, .cueBeq 9 6 0x2A5F1),
    (0x665AA5F1, .cueBne 9 6 0x2A5F1),
    (0x6A5AA5F1, .cueBlt 9 6 0x2A5F1),
    (0x6C02A5F1, .cueJmp 0x2A5F1),
    (0x82589A5F, .cueRdw 9 6 9 0xA5F),
    (0xC2400000, .cueBind 9),
    (0xC4000000, .cueDefer),
    (0xCA400000, .cuePreempt 9),
    (0xCE400000, .cueResume 9),
    (0xD0000000, .cueKill),
    (0xD4000000, .cueFwd),
    (0xFC000000, .cueEnd)] : List (W32 × Instr)).all (fun x => decodeCue x.1 == some x.2) = true := by decide +kernel

/-! ### Words that the manual itself encodes (03, 06, 08, 13 to 17), each from its three parcels -/

def parcels (a b c : Nat) : Nat := a + 2 ^ 32 * b + 2 ^ 64 * c

theorem test_manual_examples : decodes [
    (parcels 0x18168000 0x000003F4 0, .iaAdd { gp := 2, gi := true, d := .s 5, a := .s 6, b := .imm 0x3D }),
    (parcels 0x081C0270 0x43000000 0x40, .ldW { d := .s 7, a := .s 2, m := 0x43, imm := 0x40 }),
    (parcels 0x00004020 0 0xFFFFFFFB, .ctlBr { gp := 1, imm := 0xFFFFFFFB }),
    (parcels 0x20141093 0x81000024 0, .amoAdd true { d := .s 5, a := .s 8, b := .s 9, m := 0x81 }),
    (parcels 0x500003D0 0x000C002C 0x04000000, .ropeSplit { a := .s 20, b := .s 11, c := .s 12, imm := 0x04000000 }),
    (parcels 0x00000098 0 0xB, .aregBegin { imm := 0xB }),
    (parcels 0x16040305 0x0000030C 0, .icmpLtu { d := .p 1, a := .s 5, b := .imm 3 }),
    (parcels 0x04024199 0x3 0, .aregAbort { gp := 1, gi := true, a := .imm 1 }),
    (parcels 0x50001093 0x304 8, .amoAdd true { a := .s 20, b := .imm 1, imm := 8 }),
    (parcels 0x080C0470 0 0xFFFFFFF0, .ldC { d := .s 3, a := .s 2, imm := 0xFFFFFFF0 }),
    (parcels 0x20240003 0 0x800, .iaBfxI { d := .s 9, a := .s 8, imm := 0x800 })] = true := by decide +kernel
theorem test_manual_examples_2 : decodes [
    (parcels 0x60280370 0x24 0, .ldD { d := .s 10, a := .s 24, b := .s 9 }),
    (parcels 0x050C0C40 0x20000109 0, .vecCmp { d := .v 3, a := .v 1, b := .v 2, m := 0x20 }),
    (parcels 0x580000C0 0x001A0074 0x00020001, .mxMma { a := .s 22, b := .s 29, c := .s 26, imm := 0x00020001 }),
    (parcels 0x780004C0 0x0019004C 1, .mxSt { a := .s 30, b := .s 19, c := .s 25, imm := 1 }),
    (parcels 0x500008D0 0x01000054 0, .ropePinH { a := .s 20, b := .s 21, m := 1 }),
    (parcels 0x44400103 0x28 0x800, .iaBfiI { d := .s 16, a := .s 17, b := .s 10, imm := 0x800 }),
    (parcels 0x380000A0 0x434 0, .msgSend { a := .s 14, b := .s 13, e := true }),
    (parcels 0x000004A1 0 0x40, .msgImaskI { imm := 0x40 }),
    (parcels 0x100001F1 3 0x10, .sysCsrw { a := .imm 4, imm := 0x10 }),
    (parcels 0xE40001F1 0 0x12, .sysCsrw { a := .s 57, imm := 0x12 }),
    (parcels 0x1C0001A0 0x01000418 0, .msgSendn { a := .s 7, b := .s 6, m := 1, e := true }),
    (parcels 0x180000A1 0x01000400 0x8C05, .msgSendI { a := .s 6, m := 1, e := true, imm := 0x8C05 })] = true := by decide +kernel

/-- The altered first word of chapter 03: bit 47 gives code 2, the specifier 0x90 code 3, and E code 6; OP 0x07 is code 0 and FN 0x3F of OP 0 code 1. -/
theorem test_refused_words : ([0x000083F418168000, 0x0000024018168000, 0x000007F418168000, 0x07, 0x3F00] : List Nat).map (fun w =>
    match decodeWord (BitVec.ofNat 96 w) with
    | .error k => k
    | .ok _ => 99) = [2, 3, 6, 0, 1] := by decide +kernel

/-! ### Ill-formed terms, one for each check of well-formedness -/

theorem test_wf_refuses : ([
    -- 03 R84: a reserved immediate, an unused operand, a modifier value, a hint, a system register number
    .iaShlI { d := .s 5, a := .s 6, imm := 0x40 }, .iaClz { d := .s 5, a := .s 6, b := .s 7 }, .fpuAdd { d := .s 5, a := .s 6, b := .s 7, m := 3 },
    .iaAdd { d := .s 5, a := .s 6, e := true }, .sysCsrr { d := .s 5, imm := 0x030 }, .ldB { d := .s 5, a := .s 2, cp := 3 },
    .mxZero { c := .s 5, imm := 0x01000000 }, .ldW { d := .s 5, a := .s 2, m := 0x40 }, .ldW { d := .s 5, a := .s 2, m := 0x81 },
    .ctlLoop { a := .s 5, imm := 0 }, .vmVlds { d := .v 1, a := .s 2, b := .s 3, imm := 0x30000000 },
    -- fields that the form does not have
    .iaAdd { c := .s 1 }, .iaLi { d := .s 5, m := 1 }, .iaAddI { imm := 0x100000000 },
    -- 19 R393: window 10; numbers of units
    .cueRdw 1 2 10 0, .registerScrubDone 1024 0, .timerExpiry 0 16, .forwardedFaultResolution 0 16 false, .matrixStep 1024 [] [], .gangPlacement 4,
    .headPacketRead 32768, .sequencerTakeover 16, .hbmRefresh 0 64 [] [], .countTableWrite 0 3072, .engineFaultReply 256 0,
    .errorBankClear .host 1089, .tier2LinkDown 8, .dispatchEvent 256, .decisionOverrun 256 false] : List Instr).all (fun i => !i.wf) = true := by
  decide +kernel
theorem test_wf_accepts : ([
    .iaShlI { d := .s 5, a := .s 6, imm := 0x3F }, .fpuAdd { d := .s 5, a := .s 6, b := .s 7, m := 8 }, .sysCsrr { d := .s 5, imm := 0x026 },
    .ldB { d := .s 5, a := .s 2, cp := 2 }, .ldW { d := .s 5, a := .s 2, m := 0x41 }, .ctlLoop { a := .s 5, imm := 1 },
    .cueRdw 1 2 9 0, .timerExpiry 1023 15, .countTableWrite 15 3071, .errorBankClear .host 1088, .decisionOverrun 255 true] : List Instr).all Instr.wf
    = true := by decide +kernel

/-! ### Witnesses: for every statement with hypotheses, states and operands that meet them together -/

/-- One cell with one ready thread in slot 0, eight granules of registers, a thread of address space 0. -/
def one (t : Thread) : State :=
  { State.reset with cells := [(0, { slots := [(0, { state := .ready, th := t })], pword := 8 })], cur := (0, 0), cycle := 100 }

/-- `Executes`, computed. -/
def executesB (i : Instr) (s : State) : Bool :=
  match rowOf i with
  | some (r, f) => !r.dynError f s.me && (r.classError f).isNone && decide (r.mode ≤ s.me.mode.num) && s.me.guard f && s.me.region.isNone &&
      (decide (s.me.pair = 0) || decide (s.me.pair = 3)) && !s.incoming s.cur.1 s.cur.2 && !s.resumeHolds s.cur.1 s.cur.2 r &&
      (r.msgSources f).all fun n => (s.me.rm n).full
  | none => false

theorem executes_of {i : Instr} {s : State} (h : executesB i s = true) : Executes i s := by
  unfold executesB at h
  unfold Executes
  cases hr : rowOf i with
  | none =>
    rw [hr] at h
    cases h
  | some x =>
    obtain ⟨r, f⟩ := x
    rw [hr] at h
    simp only [Bool.and_eq_true, Bool.not_eq_true', decide_eq_true_eq, Bool.or_eq_true, List.all_eq_true, Option.isNone_iff_eq_none] at h
    obtain ⟨⟨⟨⟨⟨⟨⟨⟨h1, h2⟩, h3⟩, h4⟩, h5⟩, h6⟩, h7⟩, h9⟩, h8⟩ := h
    exact ⟨h1, h2, h3, h4, h5, h6, h7, h9, h8⟩

/-- All instructions of a list execute in a state. -/
theorem executes_all {s : State} {l : List Instr} (h : l.all (executesB · s) = true) : ∀ i ∈ l, Executes i s := fun i hi =>
  executes_of (List.all_eq_true.mp h i hi)

/-! #### Words and steps -/

theorem witness_ThreadWordsRoundTrip : Instr.wf (.iaAdd { d := .s 5, a := .s 6, b := .imm 0x3D }) = true ∧
    encode (.iaAdd { d := .s 5, a := .s 6, b := .imm 0x3D }) = some (BitVec.ofNat 96 (parcels 0x18140000 0x3F4 0)) := by decide +kernel
theorem witness_DecodedWordsEncodeBack : (decodeWord (BitVec.ofNat 96 (parcels 0x18140000 0x3F4 0))).toOption =
    some (.iaAdd { d := .s 5, a := .s 6, b := .imm 0x3D }) ∧ ([0, 1] : List Byte).length < 12 := by decide +kernel
theorem witness_CueWordsRoundTrip : Instr.wf (.cueRdw 1 2 9 5) = true ∧ encodeCue (.cueRdw 1 2 9 5) = some 0x80489005 ∧
    decodeCue 0x80489005 = some (.cueRdw 1 2 9 5) := by decide +kernel

/-- A thread that is about to issue nop, and one that is about to issue a word of no instruction. -/
def atNop : State := State.reset.withFetchWord 96 0x0321
def atBad : State := State.reset.withFetchWord 96 0x07
/-- The state in which the issue of slot (0, 0) is charged and dated, before the fetch. -/
def issuing (s : State) : State := { s.issued 0 0 with cur := (0, 0), turn := 513 }
/-- `Issues`, all but the fetch. -/
def issuesB (s : State) : Bool :=
  let u := (s.cellAtTurn (max s.turn 512) (s.cells.map (·.1))).1
  s.aborts.isEmpty && s.agenda.isEmpty && s.due.isEmpty && s.engineAt s.turn == none && (s.cellAtTurn (max s.turn 512) (s.cells.map (·.1))).2 == some (0, 0) &&
  !((u.th 0 0).ckTrap.isSome && !(u.th 0 0).pktOpen) && u.followInt 0 0 == none && !((u.th 0 0).arrivalReady && !u.lockHolds 0 0) &&
  !(u.timerTakes 0 0 && !u.lockHolds 0 0) && !(issuing u).fetchWaits 0 0
theorem quiet_of {s : State} (h0 : s.aborts = []) (h1 : s.agenda = []) (h2 : s.due = []) : Quiet s := by
  simp [Quiet, h0, h1, h2]
def fetchedBytes (x : State × Fetched) : List Byte :=
  match x.2 with
  | .bytes l => l
  | _ => []
theorem issues_of {s : State} {bs : List Byte} (h : issuesB s = true)
    (hf : ((issuing (s.cellAtTurn (max s.turn 512) (s.cells.map (·.1))).1).fetch 0 0).2 = .bytes bs) :
    Issues s 0 0 bs ((issuing (s.cellAtTurn (max s.turn 512) (s.cells.map (·.1))).1).fetch 0 0).1 := by
  simp only [issuesB, Bool.and_eq_true, beq_iff_eq, Bool.not_eq_true', List.isEmpty_iff] at h
  obtain ⟨⟨⟨⟨⟨⟨⟨⟨⟨h0, h1⟩, h2⟩, h3⟩, h4⟩, h5⟩, h6⟩, h7⟩, h8⟩, h9⟩ := h
  exact ⟨quiet_of h0 h1 h2, h3, h4, .inr ⟨h5, h6, h7, h8⟩, h9, Prod.ext rfl hf⟩
theorem witness_StepRunsTheDecodedInstruction :
    (∃ bs s1, Issues atNop 0 0 bs s1 ∧ (decodeWord (BitVec.ofNat 96 (wordLE bs))).toOption = some (.ctlNop {})) ∧
    (∃ bs s1, Issues atBad 0 0 bs s1 ∧ (decodeWord (BitVec.ofNat 96 (wordLE bs))).toOption = none) ∧
    (let l : List Instr := [.hostRead (.bar4 0) 8]
     ({ State.reset with agenda := l ++ .powerWindowEnd :: [] } : State).agenda = l ++ .powerWindowEnd :: [] ∧
     (∀ j ∈ l, fromOutside j = true) ∧ fromOutside .powerWindowEnd = false) ∧
    State.reset.aborts = [] ∧ ({ State.reset with due := [] ++ .power :: [] } : State).due = [] ++ .power :: [] ∧ State.reset.arriving .power = false :=
  ⟨⟨natToBytes 12 0x0321, _, issues_of (by decide +kernel) (by decide +kernel), by decide +kernel⟩,
   ⟨natToBytes 12 0x07, _, issues_of (by decide +kernel) (by decide +kernel), by decide +kernel⟩,
   ⟨rfl, by decide +kernel, rfl⟩, rfl, rfl, rfl⟩
theorem witness_StepRunsTheDecodedInstruction_engine :
    let s := State.reset.withFetchWord 32 0xFC000000
    s.agenda = [] ∧ s.due = [] ∧ s.engineAt s.turn = some (1, false) ∧ (s.engine 1 false).steps < (s.engine 1 false).budget ∧
    (s.engine 1 false).prog[(s.engine 1 false).pc]? = some 0xFC000000 ∧ decodeCue 0xFC000000 = some .cueEnd ∧
    (let u := s.setEngine 1 false { s.engine 1 false with steps := (s.engine 1 false).budget }
     u.agenda = [] ∧ u.due = [] ∧ u.engineAt u.turn = some (1, false) ∧ (u.engine 1 false).budget ≤ (u.engine 1 false).steps) := by
  decide +kernel
theorem witness_FetchReadsOwnPoolCode : let s := atNop
    (s.th 0 0).mode = .user ∧ (s.th 0 0).pc.toNat = 0xE00000000000 + 0x1000 ∧ (s.th 0 0).ucap.tag = true ∧
    (s.th 0 0).ucap.has permExec = true ∧ (s.th 0 0).ucap.base ≤ 0xE00000000000 + 0x1000 ∧ 0xE00000000000 + 0x1000 + 12 ≤ (s.th 0 0).ucap.top ∧
    bits (s.cell 0).pword 0 8 * 4096 ≤ 0x1000 ∧ s.icache = [] ∧ s.poison = [] := by decide +kernel
theorem witness_EveryStepKeepsMemoryCanonical : State.reset.memOk ∧ ∃ t, step State.reset = .next t := ⟨rfl, _, rfl⟩

/-! #### Checks of an issue, integers, compares, predicates, capabilities -/

theorem witness_OperandClassTrap : ([(.iaAdd { d := .p 1 }, 0), (.iaAdd { a := .v 1 }, 1), (.iaAdd { b := .p 1 }, 2), (.iaBfi { c := .v 1 }, 3)] :
    List (Instr × Nat)).all (fun (i, k) => match rowOf i with
      | some (r, f) => !r.dynError f (one {}).me && r.classError f == some k
      | none => false) = true := by decide +kernel
theorem witness_PrivilegeTrap : ([.sysEret {}, .sysTlbinv {}, .qCloseKill { m := 1 }, .mxChkInject { m := 1 }] : List Instr).all (fun i =>
    match rowOf i with
    | some (r, f) => !r.dynError f (one {}).me && r.classError f == none && (one {}).me.mode.num < r.mode
    | none => false) = true := by decide +kernel
theorem witness_FalseGuard : let f : Fields := { gi := true, d := .s 5, a := .m 6 }
    (match rowOf (.iaAdd f) with
      | some (r, g) => !r.dynError g (one {}).me && r.classError g == none && r.mode ≤ (one {}).me.mode.num
      | none => false) = true ∧ (one {}).incoming 0 0 = false ∧ (one {}).me.rp f.gp.toNat = f.gi ∧ (one {}).me.region = none := by decide +kernel

/-- Operands: s6, s7, s8 hold data, m6 a full message register, p1 is true. -/
def scal : State := one { s := [(6, dataReg 0x80000000F0000000), (7, dataReg 0x10005), (8, dataReg 0x247)], m := [(6, ⟨0x1234, true, false⟩)], p := 3,
                          pc := 0xE00000001000 }
def r3 : Fields := { d := .s 5, a := .s 6, b := .m 6, c := .s 8, imm := 0x10, m := 1 }
theorem witness_IntegerResults : (∀ i ∈ ([.iaAdd r3, .iaSub r3, .iaMul r3, .iaMulh r3, .iaMulhu r3, .iaDiv r3, .iaDivu r3, .iaRem r3, .iaRemu r3,
    .iaAnd r3, .iaOr r3, .iaXor r3, .iaAndn r3, .iaShl r3, .iaShr r3, .iaSra r3, .iaRot r3, .iaMin r3, .iaMax r3, .iaMinu r3, .iaMaxu r3, .iaAddI r3,
    .iaSubI r3, .iaMulI r3, .iaMulhI r3, .iaMulhuI r3, .iaDivI r3, .iaDivuI r3, .iaRemI r3, .iaRemuI r3, .iaAndI r3, .iaOrI r3, .iaXorI r3,
    .iaAndnI r3, .iaShlI r3, .iaShrI r3, .iaSraI r3, .iaRotI r3, .iaMinI r3, .iaMaxI r3, .iaMinuI r3, .iaMaxuI r3, .iaMov r3, .iaMovC r3, .iaLi r3,
    .iaPopc r3, .iaClz r3, .iaCtz r3] : List Instr), Executes i scal) ∧ r3.d = .s 5 := ⟨executes_all (by decide +kernel), rfl⟩
theorem witness_BitFieldResults : ∀ i ∈ ([.iaBfx r3, .iaBfxI r3, .iaBfi r3, .iaBfiI r3] : List Instr), Executes i scal :=
  executes_all (by decide +kernel)
def rp : Fields := { d := .p 5, a := .s 6, b := .s 7 }
def rpp : Fields := { d := .p 5, a := .p 1, b := .p 2 }
theorem witness_SelectAndCompareResults : (∀ i ∈ ([.iaSel { r3 with c := .p 1 }, .icmpEq rp, .icmpNe rp, .icmpLt rp, .icmpLtu rp, .icmpLe rp,
    .icmpLeu rp, .icmpEqI rp, .icmpNeI rp, .icmpLtI rp, .icmpLtuI rp, .icmpLeI rp, .icmpLeuI rp] : List Instr), Executes i scal) ∧ rp.d = .p 5 ∧
    ({ r3 with c := .p 1 } : Fields).c = .p 1 := ⟨executes_all (by decide +kernel), rfl, rfl⟩
theorem witness_PredicateResults : (∀ i ∈ ([.prdAnd rpp, .prdOr rpp, .prdXor rpp, .prdNot rpp, .prdSet rp] : List Instr), Executes i scal) ∧
    rpp.d = .p 5 ∧ rpp.a = .p 1 ∧ rpp.b = .p 2 ∧ rp.d = .p 5 := ⟨executes_all (by decide +kernel), rfl, rfl, rfl, rfl⟩
/-- s6 holds a capability of 4,096 bytes of the own pool. -/
def caps : State := one { s := [(6, mkCap 0x1FF 0xE00000000000 0x1000 0xE00000000010), (7, dataReg 0x105)], pc := 0xE00000001000 }
def rc : Fields := { d := .s 5, a := .s 6, b := .s 7, imm := 0xFFF }
theorem witness_CapabilityResults : (∀ i ∈ ([.capPerm rc, .capPermI rc, .capSetaddr rc, .capIncaddr rc, .capIncaddrI rc, .capGetbase rc, .capGetlen rc,
    .capGetperm rc, .capTagtest { rc with d := .p 1 }, .capClear rc] : List Instr), Executes i caps) ∧ (caps.val rc.a).tag = true ∧ rc.d = .s 5 :=
  ⟨executes_all (by decide +kernel), by decide +kernel, rfl⟩
/-- A length that fits the bounds with rounding (4,081 takes 4,084 bytes), one that does not, and an untagged cell. -/
theorem witness_CapBoundNarrowsOrFaults : (∀ i ∈ ([.capBound rc, .capBoundI rc, .capBoundI { rc with imm := 0xFF1 }] : List Instr), Executes i caps) ∧
    (caps.val rc.a).tag = true ∧ (caps.data rc.b).toNat = 0x105 ∧
    (∀ i ∈ ([.capBound r3, .capPerm r3, .capSetaddr r3, .capIncaddr r3, .capBoundI r3, .capPermI r3, .capIncaddrI r3] : List Instr),
      Executes i scal) ∧ (scal.val r3.a).tag = false :=
  ⟨executes_all (by decide +kernel), by decide +kernel, by decide +kernel, executes_all (by decide +kernel), by decide +kernel⟩

/-! #### Control, traps, scalar floating -/

theorem witness_BranchResults : ∀ i ∈ ([.ctlBr { imm := 5 }, .ctlCall r3, .ctlJr r3, .ctlJr { r3 with a := .s 7 }, .ctlRet r3, .ctlRet { a := .s 7 }] :
    List Instr), Executes i scal := executes_all (by decide +kernel)
/-- Level 0 is the loop at this address, level 1 is, only level 0 is free, only level 1 is, none is. -/
theorem witness_LoopSetup : let f : Fields := { a := .s 7, imm := 4 }
    let here : Level := ⟨0xE0000000100C, 0xE00000001030, 3, true⟩
    let else_ : Level := ⟨0xE00000000000, 0xE00000001030, 3, true⟩
    let st (a b : Level) : State := scal.modMe fun t => { t with l0 := a, l1 := b }
    ∀ s ∈ [st here {}, st else_ here, st {} {}, st else_ {}, st else_ else_], Executes (.ctlLoop f) s := by
  intro f here else_ st s hs
  exact executes_of ((List.all_eq_true (p := fun s => executesB (.ctlLoop f) s)).mp (by decide +kernel) s hs)
theorem witness_LoopSequencing : let t : Thread := { pc := 0xE00000001000 }
    let l (n : W32) : Level := ⟨0xE00000000F00, 0xE00000001000, n, true⟩
    ¬ (t.lnd = true ∧ t.lndAddr = t.pc) ∧ (∀ x ∈ [l 1, l 2], x.active = true ∧ x.lend = t.pc) ∧ (l 1).lcnt = 1 ∧ (l 2).lcnt ≠ 1 := by decide +kernel
theorem witness_TrapNopExitResults : ∀ i ∈ ([.ctlTrap r3, .ctlNop {}, .ctlExit {}] : List Instr), Executes i scal := executes_all (by decide +kernel)
/-- A thread of each mode without a region or a packet; one of user mode with a handler. -/
theorem witness_TrapEntry : ∀ t ∈ ([{}, { ivec := 0x1000 }, { mode := .supervisor }, { mode := .machine }] : List Thread),
    ((one t).th 0 0).region = none ∧ ((one t).th 0 0).openPkt = none ∧ ((one t).th 0 0).closedPkt = none := by decide +kernel
theorem witness_SystemCallsAndReturns : Executes (.sysEcall {}) scal ∧ Executes (.sysEret {}) (one { mode := .supervisor }) ∧
    Executes (.sysEret {}) (one { mode := .machine }) :=
  ⟨executes_of (by decide +kernel), executes_of (by decide +kernel), executes_of (by decide +kernel)⟩
def rf : Fields := { d := .s 5, a := .s 6, b := .s 7, c := .s 8, m := 7 }
theorem witness_FloatingResults : (∀ i ∈ ([.fpuAdd rf, .fpuSub rf, .fpuMul rf, .fpuDiv rf, .fpuMin rf, .fpuMax rf, .fpuSqrt rf, .fpuFma rf,
    .fpuCvt { rf with m := 0x38 }, .fpuCmp { rf with d := .p 1, m := 0x25 }] : List Instr), Executes i scal) :=
  executes_all (by decide +kernel)
theorem witness_FloatingRulesOnValues : (⟨5, 10⟩ : Fmt) ∈ ([⟨5, 10⟩, ⟨8, 7⟩, ⟨8, 23⟩, ⟨11, 52⟩] : List Fmt) ∧
    ((⟨5, 10⟩ : Fmt).decode 0x3C00).isNan = false ∧ ((⟨5, 10⟩ : Fmt).decode 0x7E00).isNan = true ∧
    (⟨5, 10⟩ : Fmt).decode 0x3C00 = .fin false 1024 (-10) ∧ (⟨5, 10⟩ : Fmt).decode 0x8000 = .fin true 0 (-24) ∧
    (⟨5, 10⟩ : Fmt).decode 0xFC00 = .inf true := by decide +kernel

/-! #### Vectors and quantisation -/

def w512 : W512 := 0x3F8000013C493CDBBF8000003FC03C0140003C000000380080003C00000030013C013C033C053C073C093C113C133C153800B8003C00BC004000C0004200C200
/-- v1 holds tag `t`, v2 tag `x`, v3 tag `t`, v4 a mask, v6 a block of tag `b`, v7 a side register. -/
def vecs (t x b : BitVec 4) : State :=
  one { s := [(6, dataReg 0x3F8000014049), (7, dataReg 11), (8, dataReg 0x40000000)], p := 3
        v := [(1, ⟨w512, t, 0x4049⟩), (2, ⟨w512, x, 0⟩), (3, ⟨w512, t, 0⟩), (4, ⟨w512, 12, 0⟩), (6, ⟨w512, b, 5⟩), (7, ⟨w512, 13, 0⟩)] }
def vf : Fields := { d := .v 8, a := .v 1, b := .v 2, c := .v 3 }
/-- Equal tags of integers (3) and of floating lanes (7), a wrong tag (9), and tags that differ, in the second source and in the third. -/
theorem witness_VectorArithmeticResults : vf.d = .v 8 ∧ ∀ s ∈ [vecs 3 3 0, vecs 7 7 0, vecs 9 9 0, vecs 3 4 0], ∀ i ∈ ([.vecAdd vf, .vecSub vf,
    .vecMul vf, .vecMin vf, .vecMax vf, .vecFma vf, .vecFma { vf with c := .v 4 }, .vecAbs vf, .vecNeg vf] : List Instr), Executes i s := by
  refine ⟨rfl, fun s hs => ?_⟩
  simp only [List.mem_cons, List.not_mem_nil, or_false] at hs
  rcases hs with rfl | rfl | rfl | rfl <;> exact executes_all (by decide +kernel)
theorem witness_VectorMoveResults : (∀ i ∈ ([.vecAnd vf, .vecOr vf, .vecXor vf, .vecShl vf, .vecShr vf, .vecShlI vf, .vecShrI vf,
    .vecCmp { vf with m := 0x30 }, .vecSel { vf with c := .v 4 }, .vecPerm vf, .vecPack vf, .vecUnpack vf, .vecBcast { vf with a := .s 6, m := 4 },
    .vecBcastI { d := .v 8, m := 8, imm := 0xBFF30000 }] : List Instr), Executes i (vecs 3 3 0)) ∧
    (∀ i ∈ ([.vecCmp { vf with m := 0x40 }, .vecAnd { vf with b := .v 4 }] : List Instr), Executes i (vecs 7 7 0)) ∧
    ((vecs 3 3 0).vec (.v 1)).tag = 3 ∧ ((vecs 3 3 0).vec (.v 4)).tag = 12 ∧ ((vecs 7 7 0).vec (.v 1)).tag = 7 :=
  ⟨executes_all (by decide +kernel), executes_all (by decide +kernel), by decide +kernel⟩
theorem witness_VectorFoldAndConvertResults : (∀ m ∈ ([0x00, 0x10, 0x20] : List Byte), ∀ s ∈ [vecs 3 3 0, vecs 7 7 0],
      Executes (.vecRed { d := .s 5, a := .v 1, m := m }) s) ∧ Executes (.vecRed { d := .s 5, a := .v 4 }) (vecs 3 3 0) ∧
    Executes (.vecScan { d := .v 8, a := .v 1, m := 4 }) (vecs 3 3 0) ∧
    (∀ i ∈ ([.vecExp2 vf, .vecLog2 vf, .vecRcp vf, .vecRsqrt vf, .vecTanh vf] : List Instr), Executes i (vecs 7 7 0)) ∧
    (∀ i ∈ ([.vecExp2 vf, .vecLog2 vf, .vecRcp vf, .vecRsqrt vf, .vecTanh vf] : List Instr), Executes i (vecs 8 8 0)) ∧
    (∀ i ∈ ([.vecCvt { d := .v 8, a := .v 1, m := 7 }, .vecCvt { d := .v 8, a := .v 1, m := 0x15 }, .vecCvt { d := .v 8, a := .v 1, m := 0x18 }] :
      List Instr), Executes i (vecs 7 7 0)) ∧ elements 7 = 16 ∧ elements 5 = 32 ∧ elements 8 = 8 := by
  refine ⟨fun m hm s hs => ?_, executes_of (by decide +kernel), executes_of (by decide +kernel), executes_all (by decide +kernel),
    executes_all (by decide +kernel), executes_all (by decide +kernel), by decide +kernel⟩
  simp only [List.mem_cons, List.not_mem_nil, or_false] at hm hs
  rcases hm with rfl | rfl | rfl <;> rcases hs with rfl | rfl <;> exact executes_of (by decide +kernel)
/-- A block into position 0 and into a later one of a register that has the tag, with fp16 and with fp32 sources, and every tag read back. -/
theorem witness_QuantisationResults : (∀ i ∈ ([.qzTagget { d := .s 5, a := .v 1 }, .qzTagset { d := .v 8, a := .v 1, b := .s 7 },
      .qzBlk { d := .v 6, a := .v 1, b := .v 2, m := 0x0B }, .qzBlk { d := .v 6, a := .v 1, b := .v 2, m := 0x2B },
      .qzSplit { d := .v 6, a := .v 1, b := .v 2, c := .s 8, m := 0 }, .qzSplit { d := .v 6, a := .v 1, b := .v 2, c := .s 8, m := 9 }] : List Instr),
      Executes i (vecs 5 5 11)) ∧ (∃ xs, blockSource ((vecs 5 5 11).vec (.v 1)) ((vecs 5 5 11).vec (.v 2)) = .ok xs) ∧
    (∃ xs, blockSource ((vecs 7 7 9).vec (.v 1)) ((vecs 7 7 9).vec (.v 2)) = .ok xs) ∧ ((vecs 5 5 11).vec (.v 6)).tag = 11 ∧
    (vecs 5 5 11).me.rv 7 = ⟨w512, 13, 0⟩ ∧ (∀ s ∈ [vecs 9 9 0, vecs 10 10 0, vecs 11 11 0], Executes (.qzDq { d := .v 8, a := .v 1, m := 0x06 }) s ∧
      Executes (.qzTagset { d := .v 8, a := .v 1, b := .s 7, m := 1 }) s) := by
  refine ⟨executes_all (by decide +kernel), ⟨_, rfl⟩, ⟨_, rfl⟩, by decide +kernel, by decide +kernel, fun s hs => ?_⟩
  simp only [List.mem_cons, List.not_mem_nil, or_false] at hs
  rcases hs with rfl | rfl | rfl <;> exact ⟨executes_of (by decide +kernel), executes_of (by decide +kernel)⟩

/-! #### Memory -/

/-- A leaf of kind `k` with every permission, its a and d bits set. -/
def leaf (k pa : Nat) : W64 := BitVec.ofNat 64 (0xFF + pa + k * 2 ^ 61 + (if k = 3 then 7 * 2 ^ 48 else 0))
/-- Function 0 owns address space 0 and an HBM quota of 1 GiB in a trained stack. The thread's TLB maps the pages from 0x400000 to HBM, second-tier, host and peer memory. s6 names 4,096 bytes of the own pool, s9 the pages,
s11 has no permission, s12 an HBM page that nothing maps; s8 holds data and s13 a tagged cell; own-pool bytes and HBM bytes are listed. -/
def memS : State :=
  let t : Thread := { pc := 0xE00000001000
                      s := [(6, mkCap 0x1FF 0xE00000010000 0x1000 0xE00000010000), (8, dataReg 0x8182838485868788),
                            (9, mkCap 0x1FF 0x400000 0x8000 0x400000), (11, mkCap 0 0x400000 0x8000 0x400000),
                            (12, mkCap 0x1FF 0x500000 0x1000 0x500000), (13, mkCap 0x1FF 0x500000 0x1000 0x500000)] }
  let s := one t
  { s.modCell 0 fun x => { x with tlb := [⟨0, 0x400, 12, leaf 0 0x5000⟩, ⟨0, 0x401, 12, leaf 1 0x6000⟩, ⟨0, 0x402, 12, leaf 2 0x7000⟩,
                                          ⟨0, 0x403, 12, leaf 3 0x8000⟩] } with
    layout := { s.layout with bank0 := [(0x200, 1 + 2 ^ 32), (0x201, 2 ^ 16)] }
    hbms := [(0, { train := 2 })]
    mem := [(0x10000, 0x80), (0x10001, 0x91), (0x10008, 0xF7), (0x1000F, 0x99), (0x10010, 0x77), (keyHbm + 0x5008, 0x42)]
    tags := [0x1001] }
def mOwn : Fields := { d := .s 5, a := .s 6, c := .s 8, imm := 8 }
def mHbm : Fields := { d := .s 5, a := .s 9, c := .s 8, imm := 8 }
/-- The loads, stores, full/empty, reserved and atomic functions of one set of fields. -/
def accessors (f : Fields) : List Instr :=
  [.ldB f, .ldH f, .ldW f, .ldD f, .ldBu f, .ldHu f, .ldWu f, .stB f, .stH f, .stW f, .stD f, .stC f, .feLwf f, .feLwfe f, .feSwe f, .feSf f,
   .feCe f, .fePeek f, .lrW f, .lrD f, .scW f, .scD f, .amoAdd true f, .amoAnd true f, .amoOr true f, .amoXor false f, .amoMin false f,
   .amoMax true f, .amoMinu true f, .amoMaxu true f, .amoSwap true f, .amoCas true f, .ldC f]
/-- The key of an access whose checks pass. -/
def okKey {ε : Type} (r : State × Except ε Nat) : Option Nat := match r.2 with
  | .ok k => some k
  | .error _ => none
theorem reach_of {ε : Type} {r : State × Except ε Nat} {k : Nat} (h : okKey r = some k) : ∃ u, r = (u, .ok k) := by
  obtain ⟨u, x⟩ := r
  cases x with
  | ok a => exact ⟨u, by simpa [okKey] using h⟩
  | error e => cases h
/-- The fault of an access. -/
def badKey (r : Except Trap (Option Nat)) : Option (Nat × Nat) := match r with
  | .ok _ => none
  | .error x => some (x.cause, x.detail)
def mAt (a : BitVec 6) (i : BitVec 48) : Fields := { d := .s 5, a := .s a, c := .s 8, imm := i }
/-- As memS, with an ASID context whose read waits behind a request of the host. -/
def memH : State := { memS with mem := [(keyHbm, 1), (keyHbm + 10, 1)]
                                throttled := [{ id := 70, fn := 0, places := [(keyHbm, 8)], again := some (.read (.bar4 0) 8) }] }
/-- An untagged cell, a missing permission, a range outside the bounds, a misaligned address, ranges that no pool holds and a virtual cell outside
the partition, and a page without a translation. -/
theorem witness_AccessChecksInOrder : (∀ f ∈ [mAt 8 0, mAt 11 0, mAt 6 0xFF8, mAt 6 3, mAt 12 0, mOwn, mHbm], ∀ i ∈ accessors f, Executes i memS) ∧
    ((memS.val (.s 8)).tag = false ∧ (memS.val (.s 11)).has permRd = false ∧ memS.ea (mAt 6 0x1000) + 8 > (memS.val (.s 6)).top ∧
      memS.ea (mAt 6 3) % 8 ≠ 0) ∧
    badKey (memS.space 0 0 true 0xE000000FFFFF 8) = some (0x0B, 4) ∧ badKey (memS.spaceOf 1024 0 true 0xF00400010000 8) = some (0x0A, 0) ∧
    badKey (memS.space 0 0 true 0xE00000007FF8 8) = some (6, 0) ∧ badKey (memS.space 0 0 true 0xDFFFFFFFFFFF 2) = some (0x0B, 4) ∧
    (memS.translate (some 0) 0 0 0x500000 .load true).2 = .fault ∧
    (memH.translate (memH.threadFn 0 0) 0 0 0x500000 .load true).2 = .held 101 ∧ memS.ea (mAt 12 0) = 0x500000 := by
  refine ⟨fun f hf => ?_, by decide +kernel⟩
  simp only [List.mem_cons, List.not_mem_nil, or_false] at hf
  rcases hf with rfl | rfl | rfl | rfl | rfl | rfl | rfl <;> exact executes_all (by decide +kernel)
/-- As memS: with a poisoned unit, with a bank lost to the engines, and recorded. -/
def memP : State := { memS with poison := [0x10008 / 4] }
def memB : State := memS.modCell 0 fun x => { x with bankAt := 100, banks := BitVec.allOnes 32 }
theorem witness_LoadResults : (∀ s ∈ [memS, memP, memB], ∀ i ∈ ([.ldB mOwn, .ldD mOwn, .ldB mHbm, .ldC (mAt 6 0x10), .ldC (mAt 9 0x10)] : List Instr),
      Executes i s) ∧
    (∃ u, (consumed (.ldD mOwn) memS).reach (memS.val mOwn.a) [permRd] (memS.ea mOwn) 8 .load = (u, .ok 0x10008)) ∧
    (∃ u, (consumed (.ldD mHbm) memS).reach (memS.val mHbm.a) [permRd] (memS.ea mHbm) 8 .load = (u, .ok (keyHbm + 0x5008))) ∧
    (∃ u, (consumed (.ldC (mAt 6 0x10)) memS).reach (memS.val (.s 6)) [permRd] (memS.ea (mAt 6 0x10)) 16 .load = (u, .ok 0x10010)) ∧
    memS.lockedTile 0x10008 8 = none ∧ memS.lockedTile (keyHbm + 0x5008) 8 = none ∧ ownPool 0 0x10008 = true ∧ ownPool 0 (keyHbm + 0x5008) = false ∧
    memS.poisonAt 0x10008 8 = none ∧ memP.poisonAt 0x10008 8 = some 0 ∧ memS.loses 0 0x10008 8 = false ∧ memB.loses 0 0x10008 8 = true := by
  refine ⟨fun s hs => ?_, reach_of (by decide +kernel), reach_of (by decide +kernel), reach_of (by decide +kernel), by decide +kernel⟩
  simp only [List.mem_cons, List.not_mem_nil, or_false] at hs
  rcases hs with rfl | rfl | rfl <;> exact executes_all (by decide +kernel)
/-- A posted write of the thread that is not acknowledged, so that a release waits. -/
def memQ : State := { memS with reqs := [(3, { cell := 0, slot := 0, fn := 0, va := 0x400018, key := keyHbm + 0x5018, op := .store 8 5 false, posted := true })]
                                nextId := 9 }
theorem witness_StoreResults : (∀ s ∈ [memS, memQ, memB], ∀ i ∈ ([.stB mOwn, .stD mOwn, .stD mHbm, .stC (mAt 6 0x10), .stD { mOwn with m := 0xBF }] :
      List Instr), Executes i s) ∧
    (∃ u, (consumed (.stD mOwn) memS).reach (memS.val mOwn.a) [permWr] (memS.ea mOwn) 8 .store = (u, .ok 0x10008)) ∧
    (∃ u, (consumed (.stD mHbm) memS).reach (memS.val mHbm.a) [permWr] (memS.ea mHbm) 8 .store = (u, .ok (keyHbm + 0x5008))) ∧
    (∃ u, (consumed (.stC { mAt 6 0x10 with c := .s 13 }) memS).reach (memS.val (.s 6)) [permWr, permStcap] (memS.ea (mAt 6 0x10)) 16 .store =
      (u, .ok 0x10010)) ∧ (memS.val (.s 13)).tag = true ∧
    memS.lockedTile 0x10008 8 = none ∧ memS.loses 0 0x10008 8 = false ∧ memB.loses 0 0x10008 8 = true ∧ memQ.relWait 0 0 0x3F = true ∧
    memS.relWait 0 0 0x3F = false ∧ memS.unacked 0 0 < 32 := by
  refine ⟨fun s hs => ?_, reach_of (by decide +kernel), reach_of (by decide +kernel), reach_of (by decide +kernel), by decide +kernel⟩
  simp only [List.mem_cons, List.not_mem_nil, or_false] at hs
  rcases hs with rfl | rfl | rfl <;> exact executes_all (by decide +kernel)
/-- The keys of the elements of a vector access whose checks pass. -/
def okKeys {ε : Type} (r : State × Except ε (List (Nat × Nat))) : Option (List (Nat × Nat)) := match r.2 with
  | .ok l => some l
  | .error _ => none
theorem keys_of {ε : Type} {r : State × Except ε (List (Nat × Nat))} {l : List (Nat × Nat)} (h : okKeys r = some l) : ∃ u, r = (u, .ok l) := by
  obtain ⟨u, x⟩ := r
  cases x with
  | ok a => exact ⟨u, by simpa [okKeys] using h⟩
  | error e => cases h
/-- s14 holds -16; v1 a vector; v2 offsets of 16 bytes, of tag `b`. -/
def vmem (b : BitVec 4) : State := memS.modMe fun t => { t with s := t.s.set 14 (dataReg (-16)) {}, v := [(1, ⟨w512, 3, 0⟩), (2, ⟨0x10, b, 0⟩)] }
def vm (a : BitVec 6) (i : BitVec 48) : Fields := { d := .v 8, a := .s a, b := .s 0, c := .v 1, imm := i }
def vms (a : BitVec 6) (i : BitVec 48) : Fields := { vm a i with b := .s 14 }
def vmg (a : BitVec 6) (i : BitVec 48) : Fields := { vm a i with b := .v 2 }
def vkeys (s : State) (f : Fields) (p : Nat) (a : Acc) : State × Except Stop (List (Nat × Nat)) :=
  resolveAll s 0 0 (s.val f.a) [p] 8 a ((List.range 8).map (s.ea f + 8 * ·))
theorem witness_VectorMemoryResults : (∀ i ∈ ([.vmVld (vm 6 0), .vmVst (vm 6 0), .vmVld (vm 9 0), .vmVst (vm 9 0), .vmVlds (vms 6 0x20000200),
      .vmVsts (vms 9 0x10000200), .vmVgath (vmg 6 0), .vmVscat (vmg 9 0)] : List Instr), Executes i (vmem 3)) ∧
    (∀ i ∈ ([.vmVgath (vmg 6 0), .vmVscat (vmg 6 0)] : List Instr), Executes i (vmem 5)) ∧ ((vmem 5).vec (.v 2)).tag = 5 ∧
    (∃ u, (consumed (.vmVld (vm 6 0)) (vmem 3)).resolve 0 0 ((vmem 3).val (.s 6)) [permRd] ((vmem 3).ea (vm 6 0)) 64 8 .load = (u, .ok 0x10000)) ∧
    (∃ u, vkeys (vmem 3) (vm 6 0) permRd .load = (u, .ok ((List.range 8).map fun k => (0x10000 + 8 * k, 0xE00000010000 + 8 * k)))) ∧
    (∃ u, resolveAll (consumed (.vmVlds (vms 6 0x20000200)) (vmem 3)) 0 0 ((vmem 3).val (.s 6)) [permRd] 8 .load
      ((List.range 8).map fun k => 0xE00000010200 - 16 * k) = (u, .ok ((List.range 8).map fun k => (0x10200 - 16 * k, 0xE00000010200 - 16 * k)))) ∧
    (vmem 3).poisonAt 0x10000 64 = none ∧ (vmem 3).loses 0 0x10000 64 = false ∧ firstKey [(0x10000, 0xE00000010000)] = 0x10000 :=
  ⟨executes_all (by decide +kernel), executes_all (by decide +kernel), by decide +kernel, reach_of (by decide +kernel), keys_of (by decide +kernel),
    keys_of (by decide +kernel), by decide +kernel⟩
/-- The word full, empty, and with 4,096 operations held there. -/
def memE : State := { memS with emptyW := [(keyHbm + 0x5008) / 8] }
theorem witness_FullEmptyResults : (∀ s ∈ [memS, memE, memQ], ∀ i ∈ ([.feLwf mHbm, .feLwfe mHbm, .feSwe mHbm, .feSf mHbm, .feCe mHbm, .fePeek mHbm,
      .fePeek (mAt 9 0x1008)] : List Instr), Executes i s) ∧
    (∃ u, (consumed (.feSwe mHbm) memS).reach (memS.val mHbm.a) (fePerms 2) (memS.ea mHbm) 8 .rmw = (u, .ok (keyHbm + 0x5008))) ∧
    (∃ u, (consumed (.fePeek (mAt 9 0x1008)) memS).reach (memS.val mHbm.a) (fePerms 5) (memS.ea (mAt 9 0x1008)) 8 .rmw = (u, .ok (keyTier2 + 0x6008))) ∧
    memS.isFull (keyHbm + 0x5008) = true ∧ memE.isFull (keyHbm + 0x5008) = false ∧ memQ.unacked 0 0 = 1 ∧ memS.feHeld = [] := by
  refine ⟨fun s hs => ?_, reach_of (by decide +kernel), reach_of (by decide +kernel), by decide +kernel⟩
  simp only [List.mem_cons, List.not_mem_nil, or_false] at hs
  rcases hs with rfl | rfl | rfl <;> exact executes_all (by decide +kernel)
/-- The thread's own reservation of the word at 0x10008; another thread's lease on it. -/
def memR : State := memS.modMe fun t => { t with resv := some (0x10008 / 8) }
def memL : State := { memS with leases := [⟨0x10008 / 8, 0, 3, 500⟩] }
theorem witness_ReservedPairResults : (∀ s ∈ [memS, memR, memL, memQ], ∀ i ∈ ([.lrW mOwn, .lrD mOwn, .scW mOwn, .scD mOwn, .lrD mHbm, .scD mHbm,
      .lrD (mAt 9 0x2008), .scW { mOwn with m := 0xBF }, .fence { m := 0xBF }] : List Instr), Executes i s) ∧
    (∃ u, (consumed (.lrD mOwn) memS).reach (memS.val mOwn.a) [permRd] (memS.ea mOwn) 8 .rmw = (u, .ok 0x10008)) ∧
    (∃ u, (consumed (.scD mHbm) memS).reach (memS.val mHbm.a) [permWr] (memS.ea mHbm) 8 .rmw = (u, .ok (keyHbm + 0x5008))) ∧
    (∃ u, (consumed (.lrD (mAt 9 0x2008)) memS).reach (memS.val mHbm.a) [permRd] (memS.ea (mAt 9 0x2008)) 8 .rmw = (u, .ok (keyHost + 0x7008))) ∧
    memR.me.resv = some (0x10008 / 8) ∧ memS.me.resv = none ∧ (⟨0x10008 / 8, 0, 3, 500⟩ : Lease) ∈ memL.leases ∧ memL.cycle < 500 ∧
    memQ.relWait 0 0 0x3F = true ∧ memS.me.wait = none := by
  refine ⟨fun s hs => ?_, reach_of (by decide +kernel), reach_of (by decide +kernel), reach_of (by decide +kernel), by decide +kernel,
    by decide +kernel, List.mem_singleton.mpr rfl, by decide +kernel⟩
  simp only [List.mem_cons, List.not_mem_nil, or_false] at hs
  rcases hs with rfl | rfl | rfl | rfl <;> exact executes_all (by decide +kernel)
def mAmo (a : BitVec 6) (d : BitVec 6) (i : BitVec 48) (m : Byte) : Fields := { d := .s d, a := .s a, b := .s 8, c := .imm 3, imm := i, m := m }
theorem witness_AtomicResults : (∀ s ∈ [memS, memP, memQ], ∀ f ∈ [mAmo 6 5 8 0, mAmo 6 5 8 0xBF, mAmo 9 5 8 0, mAmo 9 0 8 0, mAmo 9 5 0x2008 0],
      ∀ i ∈ ([.amoAdd true f, .amoAnd false f, .amoMin true f, .amoCas true f] : List Instr), Executes i s) ∧
    (∃ u, (consumed (.amoAdd true (mAmo 6 5 8 0)) memS).reach (memS.val (.s 6)) [permAtom, permRd, permWr] (memS.eaAmo (mAmo 6 5 8 0)) 8 .rmw =
      (u, .ok 0x10008)) ∧
    (∃ u, (consumed (.amoAdd true (mAmo 9 0 8 0)) memS).reach (memS.val (.s 9)) [permAtom, permRd, permWr] (memS.eaAmo (mAmo 9 0 8 0)) 8 .rmw =
      (u, .ok (keyHbm + 0x5008))) ∧
    (∃ u, (consumed (.amoMin true (mAmo 9 5 0x2008 0)) memS).reach (memS.val (.s 9)) [permAtom, permRd, permWr] (memS.eaAmo (mAmo 9 5 0x2008 0)) 8 .rmw =
      (u, .ok (keyHost + 0x7008))) ∧ kindOf (keyHost + 0x7008) = .host := by
  refine ⟨fun s hs f hf => ?_, reach_of (by decide +kernel), reach_of (by decide +kernel), reach_of (by decide +kernel), by decide +kernel⟩
  simp only [List.mem_cons, List.not_mem_nil, or_false] at hs hf
  rcases hs with rfl | rfl | rfl <;> rcases hf with rfl | rfl | rfl | rfl | rfl <;> exact executes_all (by decide +kernel)

/-! #### Watches, barriers, regions, messages, pairs -/

/-- s14, s15, s16 hold the offsets 8, 16 and 24; another word, an address outside the pool and a misaligned one at s17 and s18. -/
def wat (tab : SMap Watch) (t : Thread → Thread := id) : State :=
  (memS.modMe fun x => t { x with s := x.s ++ [(14, dataReg 8), (15, dataReg 16), (16, dataReg 24), (17, dataReg 3), (18, dataReg 0)] }).modCell 0
    fun x => { x with watch := tab }
def tab2 : SMap Watch := [(0, ⟨0, 0x10008 / 8, true⟩), (1, ⟨1, 0x10010 / 8, false⟩)]
def tabFull : SMap Watch := (List.range 64).map fun n => (n, ⟨1, n, false⟩)
def wAt (a b : BitVec 6) (m : Byte := 0) : Fields := { d := .s 5, a := .s a, b := .s b, m := m }
theorem witness_WatchResults : (∀ s ∈ [wat [], wat tab2, wat tabFull, wat [] fun t => { t with resvLost := true }, wat [] fun t => { t with resv := some 5 }],
      ∀ i ∈ ([.watchSet (wAt 6 14), .watchSet (wAt 6 15), .watchSet (wAt 6 16), .watchSet (wAt 6 17), .watchSet (wAt 9 14), .watchClr (wAt 6 14),
        .watchClr (wAt 6 17), .watchClr (wAt 6 14 1), .watchWaitrs (wAt 6 14 2)] : List Instr), Executes i s) ∧
    (match (wat tab2).space 0 0 true 0xE00000010008 8 with
      | .ok (some k) => k == 0x10008 && ownPool 0 k
      | _ => false) = true ∧ (tab2.find? fun x => x.2.word = 0x10008 / 8) = some (0, ⟨0, 0x10008 / 8, true⟩) ∧
    (tab2.find? fun x => x.2.word = 0x10018 / 8) = none ∧ tab2.look 2 = none ∧ (List.range 64).all (fun n => (tabFull.look n).isSome) = true ∧
    (memS.val (.s 6)).tag = true ∧ (memS.val (.s 6)).has permRd = true ∧ (memS.val (.s 9)).has permRd = true ∧ (wat tab2).me.resv = none := by
  refine ⟨fun s hs => ?_, by decide +kernel⟩
  simp only [List.mem_cons, List.not_mem_nil, or_false] at hs
  rcases hs with rfl | rfl | rfl | rfl | rfl <;> exact executes_all (by decide +kernel)
/-- Barrier 3 with 2 arrivals and 100 bytes, some of them of this cycle. -/
def barr : Barrier := { phase := true, arr := 65535, bytes := 100, armArr := 3, armBytes := 200, nowArr := 65536, nowBytes := 7 }
def barS : State := (memQ.modMe fun t => { t with s := t.s ++ [(14, dataReg 65535), (15, dataReg (2 ^ 39)), (16, dataReg 65536)] }).modCell 0
  fun x => x.setBar 3 barr
def barF (a b : BitVec 6) (m : Byte := 0) : Fields := { d := .s 5, a := .s a, b := .s b, imm := 3 * 2 ^ 6, m := m }
theorem witness_BarrierResults : (∀ i ∈ ([.barArm (barF 14 14), .barArm (barF 14 15), .barArm (barF 16 14), .barArrive (barF 0 0), .barWait (barF 14 0),
      .barWait (barF 0 0), .barStat (barF 0 0), .barStat (barF 0 0 1)] : List Instr), Executes i barS) ∧
    Executes (.barArrive (barF 0 0)) ({ barS with reqs := [] } : State) ∧ bits (barF 0 0).imm 6 9 = 3 ∧ (barS.cell 0).bar 3 = barr ∧
    (barS.data (.s 14)).toNat = 65535 ∧ (barS.data (.s 15)).toNat = 2 ^ 39 ∧ barS.unacked 0 0 = 1 ∧ ({ barS with reqs := [] } : State).unacked 0 0 = 0 :=
  ⟨executes_all (by decide +kernel), executes_of (by decide +kernel), by decide +kernel⟩
/-- A thread in a region, with `n` buffered stores to distant words. -/
def regS (n : Nat) : State := memS.modMe fun t => { t with m := [(6, ⟨0x1234, true, false⟩)], region := some {
    target := 0xE00000002000
    ckS := t.s
    buf := (List.range n).map fun k => .store (keyHbm + 0x5800 + 8 * k) 8 5 none } }
/-- `RegionExecutes`, computed, with what else is said of the state in which the body starts. -/
def regionB (i : Instr) (s : State) (P : State → Bool) : Bool := match rowOf i with
  | some (r, f) => !r.dynError f s.me && (r.classError f).isNone && decide (r.mode ≤ s.me.mode.num) && s.me.guard f && r.inRegion f &&
      ((r.msgSources f).all fun n => (s.me.rm n).full) && s.me.region.isSome && decide (s.me.icount < 64) &&
      (decide (s.me.pair = 0) || decide (s.me.pair = 3)) && !s.incoming s.cur.1 s.cur.2 && !s.resumeHolds s.cur.1 s.cur.2 r &&
      match s.start s.cur.1 s.cur.2 r f with
      | some u => P u
      | none => false
  | none => false
theorem region_with {i : Instr} {s : State} {P : State → Bool} (h : regionB i s P = true) : ∃ u, RegionExecutes i s u ∧ P u = true := by
  unfold regionB at h
  split at h <;> rename_i hr
  · simp only [Bool.and_eq_true, Bool.not_eq_true', decide_eq_true_eq, Bool.or_eq_true, List.all_eq_true, Option.isNone_iff_eq_none] at h
    split at h <;> rename_i hu
    · obtain ⟨⟨⟨⟨⟨⟨⟨⟨⟨⟨⟨h1, h2⟩, h3⟩, h4⟩, h5⟩, h6⟩, h8⟩, h9⟩, h10⟩, h11⟩, h12⟩, hp⟩ := h
      refine ⟨_, ⟨⟨_, _, hr, h1, h2, h3, h4, h5, h6, hu⟩, h8, h9, h10, h11, fun r' f' h' => ?_⟩, hp⟩
      rw [hr] at h'
      cases h'
      exact h12
    · exact absurd h.2 (by simp)
  · cases h
def sendF : Fields := { a := .s 8, b := .s 0, e := true, m := 1 }
def regionCases : List (Instr × State) :=
  [(.stD mHbm, regS 7), (.stD mHbm, regS 8), (.stD mOwn, regS 0), (.ldD mHbm, regS 8), (.ldBu mOwn, regS 0), (.msgSend sendF, regS 7), (.msgSend sendF, regS 8),
   (.aregAbort { a := .s 8 }, regS 1), (.aregCommit { d := .s 5 }, regS 1), (.aregCommit { d := .s 5 }, regS 0)]
theorem witness_RegionInstructionResults : (∀ i ∈ ([.aregBegin { imm := 5 }, .aregCommit { d := .s 5 }, .aregAbort { a := .s 8 }, .aregStat { d := .s 5 }] :
      List Instr), Executes i memS) ∧
    (∀ x ∈ regionCases, ∃ u, RegionExecutes x.1 x.2 u ∧ true = true) ∧
    (∃ w, (regS 0).reach ((regS 0).val mHbm.a) [permWr] ((regS 0).ea mHbm) 8 .store = (w, .ok (keyHbm + 0x5008))) ∧
    isHbm (keyHbm + 0x5008) = true ∧ stackOf (hbmOff (keyHbm + 0x5008)) = some 0 ∧ (regS 0).target 0 0 false 0 = some (0, 0, 0) :=
  have h : regionCases.all (fun x => regionB x.1 x.2 fun _ => true) = true := by decide +kernel
  ⟨executes_all (by decide +kernel), fun x hx => region_with (List.all_eq_true.mp h x hx), reach_of (by decide +kernel), by decide +kernel⟩
/-- A thread parked on the commit of a region that has read a word as `v`, holds its relation `v = 0x42`, and stores its value plus 1. -/
def comS (v : W64) : State :=
  let s := memS.modMe fun t => { t with wait := some (.reply 3), region := some {
    target := 0xE00000002000
    ckS := t.s
    loads := [⟨keyHbm + 0x5008, 0x400008, 8, false, v⟩]
    constrs := [.rel .eq ⟨0, 0⟩ v true true], buf := [.store (keyHbm + 0x5010) 8 0 (some ⟨0, 1⟩)], sym := [(20, ⟨0, 5⟩)], committing := true } }
  { s.setSlot 0 0 { s.slot 0 0 with state := .parked } with
    reqs := [(3, { cell := 0, slot := 0, fn := 0, va := 0, key := keyHbm, op := .commit (.s 5) })], nextId := 9 }
theorem witness_CommitActsAtOnePoint : ∀ s ∈ [comS 0x42, comS 0x41], (s.slot 0 0).state = .parked ∧ (s.th 0 0).wait = some (.reply 3) ∧
    ((s.reqs.look 3).map (·.op)) = some (.commit (.s 5)) ∧ (s.th 0 0).region.isSome = true ∧ s.unacked 0 0 = 0 ∧ s.feHeld = [] ∧
    s.holdFor (some 3) 0 (((s.th 0 0).region.map Region.places).getD []) = none ∧ (s.th 0 0).pair ≠ 1 ∧
    s.poisonAt (keyHbm + 0x5008) 8 = none ∧ readNat s.mem (keyHbm + 0x5008) 8 = 0x42 := by decide +kernel
/-- A thread in its handler with full registers, a packet open to cell 0 slot 0 register 0, and one closed. -/
def msgS (p q : Option Packet) (closed : Bool := false) : State := (one {
  s := [(8, dataReg 0x41), (9, dataReg 2), (10, dataReg 0x4000), (11, dataReg 0)]
  m := [(6, ⟨0x1234, true, true⟩)]
  openPkt := p
  closedPkt := q
  openClosed := closed
  hnd := true, imask := true, icnt := 5, pc := 0xE00000001000 })
def pktOf (l : List Nat) : Packet := { words := l.map fun n => (n, 5) }
theorem witness_MessageResults : (∀ s ∈ [msgS none none, msgS (some (pktOf [0])) none, msgS (some (pktOf [1, 2, 3, 4, 5, 6, 7])) none,
      msgS (some (pktOf [1, 2])) (some (pktOf [3])), msgS none (some (pktOf [3])), msgS (some (pktOf [1])) (some (pktOf [3])) true],
    ∀ i ∈ ([.msgSend { a := .s 8, b := .s 11 }, .msgSend { a := .s 8, b := .s 11, e := true, m := 1 }, .msgSendI { a := .s 8, imm := 0x4000 },
      .msgSendn { a := .s 8, b := .s 9 }, .msgSendn { a := .s 8, b := .s 11 }, .msgClr { a := .s 8 }, .msgWait { d := .s 5, a := .s 8 },
      .msgWait { d := .s 5, a := .s 11 }, .msgWait { d := .s 5, a := .s 9 }, .msgImask { a := .s 9 }, .msgImaskI { imm := 100 }, .msgIret {}] : List Instr),
    Executes i s) ∧ (msgS none none).me.released = [] ∧ (pktOf [3]).rel = false := by
  refine ⟨fun s hs => ?_, rfl, rfl⟩
  simp only [List.mem_cons, List.not_mem_nil, or_false] at hs
  rcases hs with rfl | rfl | rfl | rfl | rfl | rfl <;> exact executes_all (by decide +kernel)
/-- Two threads of a cell, in slots 0 and 1; s9 names slot 1, s8 a timeout; queues of the pair hold values of either slot. -/
def two (t u : Thread) (l : Link := {}) : State :=
  let s := one { t with s := [(8, dataReg 0x41), (9, dataReg 1)], pc := 0xE00000001000 }
  (s.setSlot 0 1 { state := .ready, th := { u with s := [(9, dataReg 0)], pc := 0xE00000001000 } }).modCell 0 fun x => { x with links := [(0, l)] }
def pairF : Fields := { d := .s 5, a := .s 9, b := .s 8 }
def waitFor (split : Bool) (pc : Addr) : Thread := { pairWait := some ⟨split, .s 5, 0, pc, 90, 200, []⟩ }
theorem witness_PairAndAlignResults : (∀ s ∈ [two {} {}, two {} (waitFor false 0xE00000001000), two {} (waitFor true 0), two {} (waitFor false 0x1000),
        two { pairWait := some ⟨false, .s 5, 1, 0xE00000001000, 1, 20, []⟩ } {}, two {} { pair := 3 }, one { s := [(9, dataReg 1)] }],
      ∀ i ∈ ([.pairLock pairF, .pairSplit pairF, .ctlAlign { imm := 0x55 }, .ctlAlign { imm := 5 }] : List Instr), Executes i s) ∧
    (∀ s ∈ [two { pair := 3, partner := 1 } { pair := 3, partner := 0 }, two { pair := 3, partner := 1 } { pair := 3, partner := 0 }
          { dq := [(0, 5), (1, 7)], bq := [(0, false), (1, true)] },
        two { pair := 3, partner := 1 } { pair := 3, partner := 0 } { dq := List.replicate 32 (0, 1), bq := List.replicate 32 (0, true) }],
      ∀ i ∈ ([.pairEnd {}, .pqPush { a := .s 8 }, .bqPush { a := .p 1 }, .pqPop { d := .s 5 }, .ctlBrBq { imm := 5, m := 1 }] : List Instr), Executes i s) ∧
    ((two {} (waitFor false 0xE00000001000)).slot 0 1).pairWaits = some ⟨false, .s 5, 0, 0xE00000001000, 90, 200, []⟩ ∧
    ((two {} {}).slot 0 1).pairWaits = none := by
  refine ⟨fun s hs => ?_, fun s hs => ?_, by decide +kernel⟩ <;> simp only [List.mem_cons, List.not_mem_nil, or_false] at hs
  · rcases hs with rfl | rfl | rfl | rfl | rfl | rfl | rfl <;> exact executes_all (by decide +kernel)
  · rcases hs with rfl | rfl | rfl <;> exact executes_all (by decide +kernel)

/-! #### Engine commands, ropes, queues, system instructions, cue words -/

/-- memS with four tiles; s20 a length, s22 and s23 a shape, s26 and s27 a list of two pieces, s28 a command block, s30 and s31 the geometry of an
int8 product of 16 rows by 16 columns, s32 to s34 queue words, s35 the other slot; s36 and s37 an empty shape. -/
def engT (t : Thread) : Thread :=
  { t with s := t.s ++ [(20, dataReg 64), (22, dataReg 0x200000040), (23, dataReg 0x4000000040), (26, mkCap 0x1FF 0xE00000010000 0x1000 0xE00000010000),
                        (27, dataReg 2), (28, mkCap 0x1FF 0xE00000010000 0x1000 0xE00000010080), (30, ⟨0x000020000020, false⟩),
                        (31, ⟨0x11FFFFFFFF, false⟩), (32, dataReg 3), (33, dataReg 0x80000007), (34, dataReg 99), (35, dataReg 1), (38, dataReg 0x3FFFFFFFF),
                        (39, dataReg 0xE00000010040)] }
def eng (g : Cell → Cell := id) : State := (memS.modMe engT).modCell 0 fun x => g { x with pword := 0x108 }
def engF (c : BitVec 6) (m : Byte := 0) : Fields := { a := .s 6, b := .s 9, c := .s c, d := .s 5, imm := 3, m := m }
def ops32 : SMap Op := (List.range 32).map fun n => (n + 10, { cell := 0, slot := 0, fn := 0, part := 1, group := none, asid := 0, user := true, kind := .lin 0 0 0,
                                                               compl := .tag 0 3 })
/-- The block of a cp.mx at 0xE00000010080: two tagged capabilities, the shape, two tagged capabilities, the geometry, and a zero cell. -/
def engBlock : State :=
  let put (s : State) (k : Nat) (r : Reg) : State := s.write none k 16 r.val.toNat r.tag
  let cap : Reg := mkCap 0x1FF 0xE00000010000 0x1000 0xE00000010000
  [(0x10080, cap), (0x10090, cap), (0x100A0, ⟨0x40000000400000000200000040, false⟩), (0x100B0, cap), (0x100C0, cap), (0x100D0, ⟨0x20000020, false⟩),
    (0x100E0, ⟨0x11FFFFFFFF, false⟩)].foldl (fun s x => put s x.1 x.2) eng
theorem witness_CopyCommandResults : (∀ s ∈ [eng, eng fun x => { x with tcount := [(3, 255)] }, ({ eng with ops := ops32 } : State)],
      ∀ i ∈ ([.cpLin (engF 20), .cpLin (engF 0), .cpTd (engF 22), .cpTd (engF 36), .cpG (engF 26), .cpLin { engF 20 with b := .s 8 },
        .cpMx { a := .s 28, imm := 3, m := 2 }, .cpMx { a := .s 6, imm := 3, m := 2 }, .cpWany (engF 20), .cpWall (engF 20), .cpFfr (engF 20),
        .cpFfrRec { engF 20 with m := 1 }] : List Instr), Executes i s) ∧
    eng.copies 0 < 32 ∧ (eng.cell 0).tcount.at 3 0 < 255 ∧ ({ eng with ops := ops32 } : State).copies 0 = 32 ∧
    firstTrap [eng.engCheck 0 0 (eng.val (.s 6)) permSrc 0xE00000010000 64, eng.engCheck 0 0 (eng.val (.s 9)) permDst 0x400000 64] = none ∧
    firstTrap [eng.engCheck 0 0 (eng.val (.s 8)) permSrc 0 64] ≠ none ∧
    (match engBlock.blockKey 0 0 (engBlock.val (.s 28)) with
      | .ok k => k == 0x10080
      | .error _ => false) = true ∧
    (match engBlock.blockKey 0 0 (engBlock.val (.s 9)) with
      | .ok _ => false
      | .error x => x.cause == 9) = true ∧ engBlock.poisonAt 0x10080 128 = none ∧ engBlock.tagAt 0x10080 = true := by
  refine ⟨fun s hs => ?_, by decide +kernel⟩
  simp only [List.mem_cons, List.not_mem_nil, or_false] at hs
  rcases hs with rfl | rfl | rfl <;> exact executes_all (by decide +kernel)
def mxF (tile : Nat := 1) (m : Byte := 2) : Fields := { a := .s 6, b := .s 6, c := .s 30, d := .s 5, imm := BitVec.ofNat 48 (3 + tile * 2 ^ 16), m := m }
theorem witness_MatrixCommandResults : (∀ s ∈ [eng, eng fun x => { x with mxq := List.range 8 }],
      ∀ i ∈ ([.mxMma (mxF), .mxMma (mxF 9), .mxMma (mxF 1 0), .mxMmaq (mxF), .mxZero { mxF with c := .s 38 }, .mxZero (mxF 9),
        .mxLd { mxF with b := .s 20, c := .s 38 }, .mxSt { mxF with b := .s 20, c := .s 38 }, .mxChk { mxF with m := 0 }] : List Instr), Executes i s) ∧
    Executes (.mxChkInject { d := .s 5, m := 1 }) (eng.modMe fun t => { t with mode := .supervisor }) ∧
    (eng.cell 0).mxq.length < 8 ∧ (eng.cell 0).repairs < 2 ^ 32 ∧
    eng.mmaCheck 0 0 { quant := false, a := eng.val (.s 6), b := eng.val (.s 6), geo0 := 0x000020000020, geo1 := 0x11FFFFFFFF, side := 0, fmt := 2,
                       seed := 0, isat := false } 1 = none ∧
    tileCheck eng 0 0 (eng.val (.s 6)) 64 0x3FFFFFFFF 2 [permRd, permEng] = none := by
  refine ⟨fun s hs => ?_, executes_of (by decide +kernel), by decide +kernel⟩
  simp only [List.mem_cons, List.not_mem_nil, or_false] at hs
  rcases hs with rfl | rfl <;> exact executes_all (by decide +kernel)
/-- s9 names a pool in HBM, s6 a ring in the own pool. -/
def ropF (m : Byte := 0) (imm : BitVec 48 := 0) : Fields := { d := .s 6, a := .s 9, b := .s 9, c := .s 22, m := m, imm := imm }
def cmds16 : SMap RopeCmd := (List.range 16).map fun n => (n + 10, { cell := 0, slot := 1, fn := 0, part := 1, group := none, asid := 0, user := true, op := 0, m := 0,
                                                                     mreg := 0, pool := {}, b := {}, d := {}, c0 := 0, c1 := 0 })
theorem witness_RopeCommandResults : (∀ s ∈ [eng, ({ eng with cmds := cmds16 } : State)], ∀ f ∈ [ropF, { ropF with a := .s 8 }, ropF 0 0xF000000],
      ∀ i ∈ ([.ropeSchema f, .ropeLeaf f, .ropeCat f, .ropeSplit f, .ropeSplice f, .ropeSum f, .ropeSeek f, .ropeWalk f, .ropePin f, .ropePinH { f with m := 1 },
        .ropeUnpin f, .ropePub f] : List Instr), Executes i s) ∧
    poolCheck eng.openTval (eng.val (.s 9)) = none ∧ handleCheck eng.openTval (eng.val (.s 9)) true = none ∧
    ringCheck eng.openTval (eng.val (.s 6)) = none ∧ poolCheck eng.openTval (eng.val (.s 8)) ≠ none := by
  refine ⟨fun s hs f hf => ?_, by decide +kernel⟩
  simp only [List.mem_cons, List.not_mem_nil, or_false] at hs hf
  rcases hs with rfl | rfl <;> rcases hf with rfl | rfl | rfl <;> exact executes_all (by decide +kernel)
/-- A state with a stage queue of the thread's partition and a context of work queue 7. -/
def stg : Stage := { home := 0, qcap := 4, ring := 0x20000, scap := 4, spill := 0x402000, asid := 0, low := 0, high := 0 }
def queS (q : Stage) (h : HwQueue := {}) : State := { eng with stages := [(stageKey 1 3, q)], queues := [(7, h)] }
def qF (a : BitVec 6) (m : Byte := 0) : Fields := { d := .s 5, a := .s a, b := .s 6, m := m }
theorem witness_QueueResults : (∀ s ∈ [queS stg, queS { stg with killed := true } { killed := true }, queS { stg with closed := true } { closed := true },
        queS { stg with count := 4 } { ctx := BitVec.ofNat 512 (2 ^ 320) }, queS { stg with count := 4, spCount := 4 } { head := some 5 }],
      ∀ i ∈ ([.qPush (qF 32), .qPush (qF 33), .qPush (qF 34), .qPop (qF 32), .qPop (qF 32 1), .qPop (qF 33), .qPop (qF 33 1), .qClose (qF 32), .qClose (qF 33),
        .qGang { d := .s 5, a := .s 6, b := .s 0 }] : List Instr), Executes i s) ∧
    (∀ i ∈ ([.qCloseKill (qF 32 1), .qCloseKill (qF 33 1)] : List Instr), Executes i ((queS stg).modMe fun t => { t with mode := .supervisor })) ∧
    (∃ u, (consumed (.qPush (qF 32)) (queS stg)).resolve 0 0 ((queS stg).val (.s 6)) [permRd] ((queS stg).val (.s 6)).addr 64 64 .load = (u, .ok 0x10000)) ∧
    (match (queS stg).queueRef 0 0 3 with
      | .ok (.stage k) => k == stageKey 1 3
      | _ => false) = true ∧
    (match (queS stg).queueRef 0 0 0x80000007 with
      | .ok (.hw k) => k == 7
      | _ => false) = true ∧
    (match (queS stg).queueRef 0 0 99 with
      | .ok _ => false
      | .error x => x.cause == 9) = true ∧
    (queS stg).spillHeld (stageKey 1 3) = false ∧ physOf 1 0 = some 0 := by
  refine ⟨fun s hs => ?_, executes_all (by decide +kernel), reach_of (by decide +kernel), by decide +kernel⟩
  simp only [List.mem_cons, List.not_mem_nil, or_false] at hs
  rcases hs with rfl | rfl | rfl | rfl | rfl <;> exact executes_all (by decide +kernel)
/-- A thread of a mode with another thread in slot 1. -/
def sysS (m : Mode) (y : SlotState) (t : Thread := {}) : State :=
  ((eng.modMe fun t => { t with mode := m }).setSlot 0 1 { state := y, th := t })
theorem witness_SystemResults : (∀ s ∈ [sysS .supervisor .ready, sysS .supervisor .parked { openPkt := some {} }, sysS .supervisor .saved, sysS .machine .empty],
      ∀ i ∈ ([.sysWfi {}, .sysTlbinv { a := .s 39, b := .s 0 }, .sysTlbinv { a := .s 39, b := .s 0, m := 1 }, .sysTlbinv { a := .s 39, b := .s 0, m := 2 },
        .sysCtxsave { d := .s 5, a := .s 35 }, .sysCtxsave { d := .s 5, a := .s 0 }, .sysCtxload { d := .s 5, a := .s 35 }, .sysYield { d := .s 5 },
        .sysCsrr { d := .s 5, imm := 0x24 }, .sysCsrw { d := .s 5, a := .s 8, imm := 0x23 }, .sysCsrw { d := .s 5, a := .s 8, imm := 0x11 }] : List Instr),
      Executes i s) ∧ Executes (.sysCsrr { d := .s 5, imm := 0x24 }) (sysS .user .ready) ∧
    readNat (sysS .supervisor .saved).mem (4096 + 0xF00) 1 % 4 = 0 := by
  refine ⟨fun s hs => ?_, executes_of (by decide +kernel), by decide +kernel⟩
  simp only [List.mem_cons, List.not_mem_nil, or_false] at hs
  rcases hs with rfl | rfl | rfl | rfl <;> exact executes_all (by decide +kernel)
/-- An engine deciding an event, with registers and staged emits. -/
def cueS (e : CueEvent) (l : List Emit) : State :=
  State.reset.setEngine 1 false { event := some e, emits := l, pc := 1, prog := [0, 0, 0], q := [(1, 5), (2, 7), (3, 1), (4, 2 ^ 14)] }
theorem witness_CueInstructionResults : ((cueS .dispatch []).curE.pc : Int) + (1 : BitVec 18).toInt = (2 : Nat) ∧ 2 < (cueS .dispatch []).curE.prog.length ∧
    ((cueS .dispatch []).curE.pc : Int) + (-2 : BitVec 18).toInt < 0 ∧
    (cueS .dispatch []).curE.event = some .dispatch ∧ (cueS .dispatch []).curE.emits = [] ∧
    (cueS (.yield 0 0 none) []).curE.event = some (.yield 0 0 none) ∧ (cueS (.fault 0 0 none 0 0 0) []).curE.event = some (.fault 0 0 none 0 0 0) ∧
    physOf 1 (5 / 16) = some 0 ∧ (cueS .dispatch []).localQueues 1 = [] := by decide +kernel
theorem witness_RegisterInstructionsFrame : Executes (.iaAdd r3) scal ∧ (∃ t, exec (.iaAdd r3) scal = .next t) ∧
    Executes (.capClear rc) caps := ⟨executes_of (by decide +kernel), ⟨_, rfl⟩, executes_of (by decide +kernel)⟩

/-! #### Clauses over regions, locked pairs, cohorts, replays and format faults -/

/-- A region with two loads, and what else it holds. -/
def regT (buf : List RBuf) (sym : SMap Sym) (cs : List Constr) (n : Nat) (loads : Nat := 2) : State := memS.modMe fun t => { t with
  s := t.s ++ [(14, dataReg 7), (15, dataReg 9)]
  p := 2
  ccount := n
  region := some { target := 0xE00000002000, ckS := t.s, loads := List.replicate loads ⟨keyHbm + 0x5040, 0x400040, 8, false, 3⟩, buf := buf, sym := sym, constrs := cs } }
def aSym : Sym := ⟨0, 1⟩
theorem witness_RegionInstructionResults_loads : (∀ x ∈ [(regT [.store (keyHbm + 0x5008) 8 5 none] [] [] 0, true), (regT [.store (keyHbm + 0x5008) 8 5 (some aSym)] [] [] 0, true),
      (regT [.store (keyHbm + 0x5008) 4 5 (some aSym)] [] [] 0, false), (regT [.store (keyHbm + 0x5008) 4 5 (some aSym)] [] [.unchanged 0] 1, false),
      (regT [.store (keyHbm + 0x5008) 4 5 (some aSym)] [] [] 8, false), (regT [] [] [] 0 8, true)],
    ∃ u, RegionExecutes (if x.2 then .ldD mHbm else .ldW mHbm) x.1 u ∧
      (okKey (u.reach (x.1.val mHbm.a) [permRd] (x.1.ea mHbm) (if x.2 then 8 else 4) .load) == some (keyHbm + 0x5008)) = true) := by
  intro x hx
  simp only [List.mem_cons, List.not_mem_nil, or_false] at hx
  rcases hx with rfl | rfl | rfl | rfl | rfl | rfl <;> exact region_with (by decide +kernel)
/-- A load in a region whose reply comes. -/
theorem witness_RegionInstructionResults_reply :
    let q : Req := { cell := 0, slot := 0, fn := 0, va := 0x400008, key := keyHbm + 0x5008, op := .load 8 false false (.s 5) }
    let r := (regT [] [] [] 0).modMe fun t => { t with wait := some (.reply 3) }
    let s : State := { r.setSlot 0 0 { r.slot 0 0 with state := .parked } with reqs := [(3, q)], nextId := 9 }
    s.reqs.look 3 = some q ∧ q.posted = false ∧ q.held = false ∧ q.refused = false ∧ q.dead = false ∧ q.done = none ∧ isHbm q.key = true ∧
      s.holdFor (some 3) q.fn q.here = none ∧ s.poisonAt q.key 8 = none ∧ s.home 0 0 0 = .live ∧ (s.slot 0 0).state = .parked ∧
      (s.th 0 0).wait = some (.reply 3) ∧ (s.th 0 0).region.isSome = true := by decide +kernel
/-- Neither, either and both operands tagged; a load that is recorded as unchanged; and no room for a constraint. -/
def symF : Fields := { d := .s 5, a := .s 14, b := .s 15, c := .p 1, imm := 3 }
theorem witness_CommitActsAtOnePoint_tags : ∀ sym ∈ [[], [(14, aSym)], [(15, aSym)], [(14, aSym), (15, ⟨1, 2⟩)]], ∀ x ∈ [([], 0), ([Constr.unchanged 0], 1), ([], 8)],
    ∀ i ∈ ([.iaAdd symF, .iaSub symF, .iaAddI symF, .iaSubI symF, .iaMov symF, .iaSel symF, .icmpEq { symF with d := .p 2 }, .icmpLtu { symF with d := .p 2 },
      .icmpLeI { symF with d := .p 2 }] : List Instr), ∃ u, RegionExecutes i (regT [] sym x.1 x.2) u ∧ (u.th 0 0).region.isSome = true := by
  intro sym hs x hx i hi
  have h : [[], [(14, aSym)], [(15, aSym)], [(14, aSym), (15, ⟨1, 2⟩)]].all (fun sym => [([], 0), ([Constr.unchanged 0], 1), ([], 8)].all fun x =>
      ([.iaAdd symF, .iaSub symF, .iaAddI symF, .iaSubI symF, .iaMov symF, .iaSel symF, .icmpEq { symF with d := .p 2 }, .icmpLtu { symF with d := .p 2 },
        .icmpLeI { symF with d := .p 2 }] : List Instr).all fun i => regionB i (regT [] sym x.1 x.2) fun u => (u.th 0 0).region.isSome) = true := by decide +kernel
  exact region_with (List.all_eq_true.mp (List.all_eq_true.mp (List.all_eq_true.mp h sym hs) x hx) i hi)

/-- `LockExecutes`, computed. -/
def lockB (i : Instr) (who : Nat) (s : State) : Bool := match rowOf i with
  | some (r, f) => !r.dynError f s.me && (r.classError f).isNone && decide (r.mode ≤ s.me.mode.num) && s.me.guard f &&
      !s.resumeHolds s.cur.1 s.cur.2 r && (decide (who ≠ 1) || (r.msgSources f).all fun n => (s.me.rm n).full) && s.me.region.isNone &&
      decide (s.me.pair = BitVec.ofNat 2 who) && decide (who < 4) && !s.incoming s.cur.1 s.cur.2
  | none => false
theorem lock_of {i : Instr} {who : Nat} {s : State} (h : lockB i who s = true) : LockExecutes i who s := by
  unfold lockB at h
  split at h <;> rename_i hr
  · simp only [Bool.and_eq_true, Bool.not_eq_true', decide_eq_true_eq, Bool.or_eq_true, List.all_eq_true, Option.isNone_iff_eq_none] at h
    obtain ⟨⟨⟨⟨⟨⟨⟨⟨⟨h1, h2⟩, h3⟩, h4⟩, h5⟩, h6⟩, h7⟩, h8⟩, -⟩, h9⟩ := h
    exact ⟨⟨_, _, hr, h1, h2, h3, h4, h5, fun w => h6.resolve_left (by simp [w])⟩, h7, h8, h9⟩
  · cases h
/-- A locked pair in the slots 0 and 1 of which one issues. -/
def lockS (who : Nat) (l : Link) : State :=
  let s := memS.modMe fun t => { t with pair := 1, partner := 1, m := [(6, ⟨0x1234, true, false⟩)] }
  { (s.setSlot 0 1 { state := .ready, th := { s.me with pair := 2, partner := 0 } }).modCell 0 fun x => { x with links := [(0, l)] } with cur := (0, who - 1) }
def lockF : Fields := { mOwn with b := .s 0 }
def lockLd (n : Nat) : Link := { lvq := [⟨n, 7, false⟩] }
def lockHeld (n : Nat) : Link := { held := List.replicate n ⟨0x7103, 0xE00000010008, 3, [0, (memS.data (.s 8)).setWidth 512]⟩ }
theorem witness_PairAndAlignResults_lock : (∀ l ∈ [{}, lockHeld 1, lockHeld 8, { lvq := List.replicate 64 ⟨5, 7, false⟩ }, { owed := some { name := 9, d := .s 5, p := none } }, { pend := true }],
      ∀ i ∈ ([.iaMov { d := .s 5, a := .m 6 }, .iaMov { d := .s 5, a := .k 3 }, .ldD lockF, .stD lockF, .ctlNop {}] : List Instr), LockExecutes i 1 (lockS 1 l)) ∧
    (∀ l ∈ [{}, lockLd (2 ^ 48 + (Opnd.m 6).toByte.toNat), lockLd 0xE00000010008, lockLd 9, lockHeld 1, { held := [⟨0x7103, 0, 3, []⟩] }],
      ∀ i ∈ ([.iaMov { d := .s 5, a := .m 6 }, .iaMov { d := .s 5, a := .k 3 }, .ldD lockF, .stD lockF] : List Instr), LockExecutes i 2 (lockS 2 l)) ∧
    (∀ who ∈ [1, 2], let s := lockS who {};
      s.pairLink = 0 ∧ s.ea lockF = 0xE00000010008 ∧ (∀ p ∈ [permRd, permWr], s.ownWord lockF p 0x10008) ∧ s.poisonAt 0x10008 8 = none) ∧
    lockF.m.toNat / 64 < 2 ∧ (∃ x, lockF.a = .s x) ∧ (∃ x, lockF.b = .s x) ∧ (∃ x, lockF.c = .s x) := by
  refine ⟨fun l hl => ?_, fun l hl => ?_, fun who hw => ?_, by decide, ⟨_, rfl⟩, ⟨_, rfl⟩, _, rfl⟩
  · have h : [({} : Link), lockHeld 1, lockHeld 8, { lvq := List.replicate 64 ⟨5, 7, false⟩ }, { owed := some { name := 9, d := .s 5, p := none } }, { pend := true }].all (fun l =>
        ([.iaMov { d := .s 5, a := .m 6 }, .iaMov { d := .s 5, a := .k 3 }, .ldD lockF, .stD lockF, .ctlNop {}] : List Instr).all fun i => lockB i 1 (lockS 1 l)) = true := by
      decide +kernel
    exact fun i hi => lock_of (List.all_eq_true.mp (List.all_eq_true.mp h l hl) i hi)
  · have h : [({} : Link), lockLd (2 ^ 48 + (Opnd.m 6).toByte.toNat), lockLd 0xE00000010008, lockLd 9, lockHeld 1, { held := [⟨0x7103, 0, 3, []⟩] }].all (fun l =>
        ([.iaMov { d := .s 5, a := .m 6 }, .iaMov { d := .s 5, a := .k 3 }, .ldD lockF, .stD lockF] : List Instr).all fun i => lockB i 2 (lockS 2 l)) = true := by
      decide +kernel
    exact fun i hi => lock_of (List.all_eq_true.mp (List.all_eq_true.mp h l hl) i hi)
  · have w : ∀ {s : State} {p k : Nat}, (capCheck (s.val lockF.a) [p] (s.ea lockF) 8).isNone = true →
        (match s.space s.cur.1 s.cur.2 (s.me.mode = .user) (s.ea lockF) 8 with
          | .ok (some j) => j == k
          | _ => false) = true → (s.ea lockF % 8 = 0 ∧ s.ea lockF / 2 ^ 44 = 14 ∧ ownPool s.cur.1 k = true ∧ s.lockedTile k 8 = none ∧ s.loses s.cur.1 k 8 = false) →
        s.ownWord lockF p k := by
      intro s p k a b ⟨c, d, e, f, g⟩
      refine ⟨Option.isNone_iff_eq_none.mp a, c, d, ?_, e, f, g⟩
      split at b
      · rename_i h
        rw [h, beq_iff_eq.mp b]
      · cases b
    simp only [List.mem_cons, List.not_mem_nil, or_false] at hw
    rcases hw with rfl | rfl <;> refine ⟨by decide +kernel, by decide +kernel, fun p hp => ?_, by decide +kernel⟩ <;>
      simp only [List.mem_cons, List.not_mem_nil, or_false] at hp <;> rcases hp with rfl | rfl <;> exact w (by decide +kernel) (by decide +kernel) (by decide +kernel)
theorem witness_PairAndAlignResults_diverge : let s := lockS 1 {};
    (s.th 0 0).pair = 1 ∧ (s.th 0 0).partner = 1 ∧ (s.th 0 1).pair = 2 ∧ (s.th 0 1).partner = 0 ∧ (s.slot 0 0).state = .ready ∧ (s.slot 0 1).state = .ready ∧
      ∀ i < 2, (s.th 0 i).mode = .user ∧ (s.th 0 i).region = none := by decide +kernel
/-- Two threads of a gang in a cell, the other waiting at an align of cohort 5 or not; the timeout of 5 or of 496 cycles since the first issue. -/
def alignS (w : Option AlignWait) (first : Nat) : State :=
  let b : Bind := { part := 1, queue := none, entry := 0, group := 0 }
  let t : Thread := { pc := 0xE00000001000, cohorts := 32, align := some ⟨0xE00000001000, 5, first, 5⟩ }
  ((one t).setSlot 0 0 { state := .ready, th := t, bind := some b }).setSlot 0 1 { state := .ready, th := { t with align := w }, bind := some b }
theorem witness_BarrierResults_align : (∀ w ∈ [none, some ⟨0xE00000001000, 5, 90, 500⟩], ∀ first ∈ [90, 99], ∀ i ∈ ([.ctlAlign { imm := 0x55 }, .ctlAlign { imm := 0x1F05 }] : List Instr),
      Executes i (alignS w first)) ∧
    (∀ w ∈ [none, some ⟨0xE00000001000, 5, 90, 500⟩], (alignS w 90).cohortAway 0 0 5 = false ∧
      ((alignS w 90).cohort 0 0 5).map (fun x => (x.1, x.2.1, x.2.2.waitsAt 5 0xE00000001000)) = [(0, 1, w.isSome)]) := by
  refine ⟨fun w hw first hf => ?_, by decide +kernel⟩
  simp only [List.mem_cons, List.not_mem_nil, or_false] at hw hf
  rcases hw with rfl | rfl <;> rcases hf with rfl | rfl <;> exact executes_all (by decide +kernel)
/-- A replay in which no value stands next. -/
def replayS : State := { memS with parts := [(1, { ephMode := 2 })] }
theorem witness_ReservedPairResults_replay : (∀ i ∈ ([.lrD mOwn, .amoAdd true (mAmo 6 5 8 0), .feSf mHbm] : List Instr), Executes i replayS) ∧
    replayS.partOf 0 0 = 1 ∧ (replayS.ephOk 1 ephValue 0 0 5 = false) ∧
    replayS.valueOk { cell := 0, slot := 0, fn := 0, va := 0x400008, key := keyHbm + 0x5008, op := .fe 0 7 (.s 5) 0 } 0x42 = false :=
  ⟨executes_all (by decide +kernel), by decide +kernel⟩
/-- The format faults: a tag that no function takes, sources that differ, floating lanes where integers are asked, and a third source that is no mask. -/
theorem witness_VectorMoveResults_faults : ∀ s ∈ [vecs 9 9 0, vecs 3 4 0, vecs 7 7 0, vecs 3 3 0], ∀ i ∈ ([.vecAnd vf, .vecOr vf, .vecXor vf, .vecShl vf, .vecShr vf, .vecShlI vf, .vecShrI vf,
    .vecCmp { vf with m := 0x30 }, .vecCmp { vf with m := 0x40 }, .vecSel vf, .vecPerm vf, .vecPack vf, .vecUnpack vf] : List Instr), Executes i s := by
  intro s hs
  simp only [List.mem_cons, List.not_mem_nil, or_false] at hs
  rcases hs with rfl | rfl | rfl | rfl <;> exact executes_all (by decide +kernel)
/-- Every operation of red and scan, with their flags, on integers, floating lanes, a mask and a block; conversions to blocks, of equal tags, and of a mask. -/
theorem witness_VectorFoldAndConvertResults_forms : (∀ s ∈ [vecs 3 3 0, vecs 7 7 0, vecs 9 9 0], ∀ i ∈ ([.vecRed { d := .s 5, a := .v 1, m := 0x30 }, .vecRed { d := .s 5, a := .v 1, m := 0x50 },
      .vecRed { d := .s 5, a := .v 4, m := 0x30 }, .vecRed { d := .s 5, a := .v 4, m := 0x50 }, .vecScan { d := .v 8, a := .v 1, m := 0x16 }, .vecScan { d := .v 8, a := .v 1, m := 0x21 },
      .vecScan { d := .v 8, a := .v 4 }, .vecCvt { d := .v 8, a := .v 4, m := 7 }, .vecCvt { d := .v 8, a := .v 1, m := 0x0B }, .vecCvt { d := .v 8, a := .v 1, m := 0x09 },
      .vecCvt { d := .v 8, a := .v 1, m := 0x0A }, .vecCvt { d := .v 8, a := .v 1, m := 0x17 }, .vecExp2 vf] : List Instr), Executes i s) ∧
    elements 9 = 64 ∧ elements 10 = 64 ∧ elements 11 = 128 := by
  refine ⟨fun s hs => ?_, by decide, by decide, by decide⟩
  simp only [List.mem_cons, List.not_mem_nil, or_false] at hs
  rcases hs with rfl | rfl | rfl <;> exact executes_all (by decide +kernel)
/-- Finite operands in every format: 1, −1.5 and the least subnormal. -/
theorem witness_FloatingRulesOnValues_finite : ∀ t ∈ ([⟨5, 10⟩, ⟨8, 7⟩, ⟨8, 23⟩, ⟨11, 52⟩] : List Fmt),
    t.decode (t.bias * 2 ^ t.mb) = .fin false (2 ^ t.mb) (-t.mb) ∧ t.decode (2 ^ (t.width - 1) + t.bias * 2 ^ t.mb + 2 ^ (t.mb - 1)) = .fin true (2 ^ t.mb + 2 ^ (t.mb - 1)) (-t.mb) ∧
    t.decode 1 = .fin false 1 (1 - t.bias - t.mb) ∧ inUnits false (2 ^ t.mb) (-t.mb) (-t.mb) + inUnits true (2 ^ t.mb + 2 ^ (t.mb - 1)) (-t.mb) (-t.mb) ≠ 0 := by decide +kernel
/-- A thread that ends with a posted write in flight, and one with a packet in its buffer. -/
theorem witness_TrapNopExitResults_writes : Executes (.ctlExit {}) memQ ∧ (memQ.reqs.look 3).map (fun r => (r.posted, r.held)) = some (true, false) :=
  ⟨executes_of (by decide +kernel), by decide +kernel⟩

/-! #### Every form of quantisation, and accesses that wait -/

/-- As `vecs`, with v8 and v9 as `d` and `x`. -/
def qzS (t x : BitVec 4) (d e : BitVec 4 := 0) (k : W64 := 11) : State := (vecs t x 0).modMe fun th =>
  { th with v := (th.v.set 8 ⟨w512, d, 5⟩ {}).set 9 ⟨w512, e, 0⟩ {}, s := th.s.set 7 (dataReg k) {} }
def qzF (m : Byte) (b : Opnd := .v 2) : Fields := { d := .v 8, a := .v 1, b := b, c := .s 8, m := m }
/-- fp16, bf16 and fp32 sources, a source of another tag, an fp32 pair that is none; position 0, and later positions with and without the target
tag; a part that fits and one that does not, with a side register and without one; tags that `qz.tagset` takes and refuses. -/
theorem witness_QuantisationCompletes : (∀ s ∈ [qzS 5 0, qzS 6 0, qzS 7 7, qzS 3 0, qzS 7 5, qzS 5 0 11 13, qzS 5 0 11 0, qzS 9 13, qzS 9 0, qzS 10 0, qzS 9 0 0 0 14],
      ∀ i ∈ ([.qzTagget { d := .s 5, a := .v 1 }, .qzTagget { d := .s 5, a := .v 1, m := 1 }, .qzTagset (qzF 0 (.s 7)), .qzTagset (qzF 1 (.s 7)), .qzBlk (qzF 0x0B), .qzBlk (qzF 0x1B), .qzSplit (qzF 1),
        .qzSplit (qzF 9), .qzDq (qzF 5), .qzDq (qzF 0x75), .qzDq (qzF 0x85)] : List Instr), Executes i s) ∧
    (qzF 0).d = .v 8 ∧ ((qzS 5 0).vec (.v 1)).tag = 5 ∧ ((qzS 7 7).vec (.v 2)).tag = 7 ∧ ((qzS 7 5).vec (.v 2)).tag ≠ 7 ∧
    (qzS 5 0 11 13).me.rv 8 = ⟨w512, 11, 5⟩ ∧ (qzS 5 0 11 13).me.rv 9 = ⟨w512, 13, 0⟩ ∧ ((qzS 5 0 11 0).me.rv 9).tag ≠ 13 ∧ ((qzS 5 0).me.rv 8).tag ≠ 11 ∧
    ((qzS 5 0).data (.s 7)).toNat % 16 < 14 ∧ ((qzS 9 0 0 0 14).data (.s 7)).toNat % 16 = 14 ∧ 0 * elements 5 + elements 5 ≤ elements 9 ∧
    ¬ 7 * elements 5 + elements 5 ≤ elements 9 ∧ ((qzS 9 13).vec (.v 2)).tag = 13 ∧ ((qzS 9 0).vec (.v 2)).tag ≠ 13 := by
  refine ⟨fun s hs => ?_, by decide +kernel⟩
  simp only [List.mem_cons, List.not_mem_nil, or_false] at hs
  rcases hs with rfl | rfl | rfl | rfl | rfl | rfl | rfl | rfl | rfl | rfl | rfl <;> exact executes_all (by decide +kernel)
/-- The thread has posted an AtomicOp to the host, which has not performed it. -/
def memA : State := { vmem 3 with reqs := [(3, { cell := 0, slot := 0, fn := 0, va := 0x402008, key := keyHost + 0x7008, op := .amo 0 8 1 0 (.s 0), posted := true })]
                                  nextId := 9 }
/-- An access waits for the host: of a load, a store, an atomic operation and a vector. -/
theorem witness_AccessesWaitForTheHost : (∀ i ∈ ([.ldD (mAt 9 0x2008), .stD (mAt 9 0x2008), .amoAdd true (mAmo 9 5 0x2008 0), .vmVld (vm 9 0x2000)] : List Instr),
      Executes i memA) ∧
    (∃ u, (consumed (.ldD (mAt 9 0x2008)) memA).reach (memA.val (.s 9)) [permRd] (memA.ea (mAt 9 0x2008)) 8 .load = (u, .ok (keyHost + 0x7008))) ∧
    memA.hostHolds [keyHost + 0x7008] 8 = true ∧ memA.hostHolds [keyHost + 0x7010] 8 = false ∧ memA.lockedTile (keyHost + 0x7008) 8 = none ∧
    memA.loses 0 (keyHost + 0x7008) 8 = false ∧ ownPool 0 (keyHost + 0x7008) = false :=
  ⟨executes_all (by decide +kernel), reach_of (by decide +kernel), by decide +kernel⟩
/-- The first element of a vector access fails, or its page walk waits; and a scatter to HBM alone. -/
theorem witness_VectorMemoryResults_fails :
    (match (vkeys (vmem 3) (vm 12 0) permRd .load).2 with
      | .error (.trap x) => x.cause == 0x0B
      | _ => false) = true ∧
    (match (vkeys { vmem 3 with mem := memH.mem, throttled := memH.throttled } (vm 12 0) permRd .load).2 with
      | .error .later => true
      | _ => false) = true ∧
    (∃ u, resolveAll (consumed (.vmVscat (vmg 9 0)) (vmem 3)) 0 0 ((vmem 3).val (.s 9)) [permWr] 4 .store
      ((List.range 16).map fun k => 0x400000 + 4 * k) = (u, .ok ((List.range 16).map fun k => (keyHbm + 0x5000 + 4 * k, 0x400000 + 4 * k)))) ∧
    (∀ k < 16, keyHbm ≤ keyHbm + 0x5000 + 4 * k) := ⟨by decide +kernel, by decide +kernel, keys_of (by decide +kernel), fun _ _ => by omega⟩
/-- A full/empty operation that a controller has not taken up: function `n`, the word empty or full, `l` held there. -/
def feS (n : Nat) (e : List Nat) (l : List Nat) : State :=
  let r : Req := { cell := 0, slot := 0, fn := 0, va := 0x400008, key := keyHbm + 0x5008, op := .fe n 7 (.s 5) 0 }
  { memS with emptyW := e, feHeld := l, reqs := [(3, { r with refused := true }), (4, { r with held := true })], nextId := 9 }
theorem witness_FullEmptyResults_controller : (∀ s ∈ [feS 0 [] [], feS 0 [(keyHbm + 0x5008) / 8] [4], feS 2 [] [4], feS 2 [(keyHbm + 0x5008) / 8] [],
      feS 5 [] []], ((s.reqs.look 3).map fun r => (r.refused, r.dead, r.key)) = some (true, false, keyHbm + 0x5008) ∧
      s.holdFor (some 3) 0 [(keyHbm + 0x5008, 8)] = none ∧ s.poisoned (keyHbm + 0x5008) 8 = false) ∧
    isHbm (keyHbm + 0x5008) = true ∧ (keyHbm + 0x5008) % 8 = 0 ∧ (feS 0 [] []).isFull (keyHbm + 0x5008) = true ∧
    (feS 0 [(keyHbm + 0x5008) / 8] []).isFull (keyHbm + 0x5008) = false ∧
    ((List.replicate 4096 4).filter fun j => match (feS 0 [] []).reqs.look j with
      | some q => stackOf (hbmOff q.key) = stackOf (hbmOff (keyHbm + 0x5008))
      | none => false).length = 4096 := by
  refine ⟨fun s hs => ?_, by decide +kernel, by decide +kernel, by decide +kernel, by decide +kernel, ?_⟩
  · simp only [List.mem_cons, List.not_mem_nil, or_false] at hs
    rcases hs with rfl | rfl | rfl | rfl | rfl <;> decide +kernel
  · rw [List.filter_replicate]
    decide +kernel

/-! #### Events -/

/-- The thread of memS parked on request 3. -/
def evS (op : ReqOp) (posted : Bool := false) (g : State → State := id) : State :=
  let s := memS.modMe fun t => { t with wait := some (.reply 3) };
  g { s.setSlot 0 0 { s.slot 0 0 with state := .parked } with
    reqs := [(3, { cell := 0, slot := 0, fn := 0, va := 0x400008, key := keyHbm + 0x5008, op := op, posted := posted })], nextId := 9 }
/-- A request of the host that is held for the word of request 3. -/
def heldW (id : Nat) (again : Bool) : HeldAt :=
  { id := id, fn := 0, places := [(keyHbm + 0x5008, 8)], again := if again then some (.read (.bar4 0x5008) 8) else none }
def theWord : Nat := (keyHbm + 0x5008) / 8
/-- Whether a request to the pool of cell 1 is held by it once it has been taken up, under leases. -/
def performedP (op : ReqOp) (l : List Lease) : Option Bool :=
  let r : Req := { cell := 0, slot := 0, fn := 0, va := 0xF00400000008, key := 2 ^ 20 + 8, op := op }
  let s := evS op false fun s => { s with reqs := [(3, r)], leases := l }
  (((s.unhold 3).perform 3 r).reqs.look 3).map (·.held)
theorem witness_MemoryEvents : (let s := evS (.load 8 false false (.s 5));
      (s.reqs.look 3).isSome ∧ kindOf (keyHbm + 0x5008) = .hbm ∧ s.holdFor (some 3) 0 [(keyHbm + 0x5008, 8)] = none ∧ s.linkDown (keyHbm + 0x5008) = false ∧
      s.poisonAt (keyHbm + 0x5008) 8 = none ∧ (s.slot 0 0).state = .parked ∧ (s.th 0 0).wait = some (.reply 3) ∧ s.slotFn (s.slot 0 0) = some 0 ∧
      s.switchedOut 0 (some 0) 0 = false ∧ (s.th 0 0).region = none ∧ ((s.reqs.look 3).map fun r => r.here) = some [(keyHbm + 0x5008, 8)]) ∧
    (let r : Req := { cell := 0, slot := 0, fn := 0, va := 0xF00400000008, key := 2 ^ 20 + 8, op := .amo 0 8 1 0 (.s 5) }
      let s := evS r.op false fun s => { s.setPart 1 { s.part 1 with ephMode := 2 } with reqs := [(3, r)] };
      s.holdFor (some 3) 0 r.here = none ∧ ((s.unhold 3).perform 3 r).mayReturn 3 = false) ∧
    (performedP (.load 8 false false (.s 5)) [] = some false) ∧
    (performedP (.lr 8 (.s 5)) [⟨(2 ^ 20 + 8) / 8, 1, 3, 500⟩] = some true) ∧
    (evS (.load 8 false false (.s 5)) false fun s => { s with throttled := [heldW 70 true] }).holdFor (some 3) 0 [(keyHbm + 0x5008, 8)] = some 101 ∧
    (let s := evS (.store 8 5 false) true;
      ((s.reqs.look 3).map fun r => (r.posted, r.done.isNone)) = some (true, true) ∧ s.feHeld = [] ∧ s.holdFor (some 3) 0 [(keyHbm + 0x5008, 8)] = none) ∧
    ((feS 0 [] []).reqs.look 3).map (fun r => (r.refused, r.held, r.dead)) = some (true, false, false) ∧
    (let s := evS (.lr 8 (.s 5)) false fun s => { s with leases := [⟨theWord, 0, 3, 50⟩], lrHeld := [3] };
      (∃ l ∈ s.leases, l.word = theWord ∧ l.until_ ≤ s.cycle) ∧ s.lrHeld = [] ++ 3 :: [] ∧ ((s.reqs.look 3).map fun r => r.key / 8) = some theWord ∧
      s.holdFor (some 3) 0 [(keyHbm + 0x5008, 8)] = none ∧ ((s.reqs.look 3).map fun r => (s.part (s.reqPart r)).ephMode) = some 0) ∧
    (let s := evS (.load 8 false false (.s 5)) false fun s => { s with throttled := [heldW 3 false] };
      (s.throttled.find? fun h => h.id = 3) = some (heldW 3 false) ∧ (heldW 3 false).again = none ∧ s.holdFor (some 3) 0 [(keyHbm + 0x5008, 8)] = none) ∧
    (evS (.load 8 false false (.s 5)) false fun s => { s with throttled := [heldW 70 true, heldW 3 false] }).holdFor (some 3) 0 [(keyHbm + 0x5008, 8)] =
      some 101 := by and_intros <;> decide +kernel
/-- A thread in slot (0, 0), ready, parked or dead, with nothing pending. -/
def thS (t : Thread) (y : SlotState := .ready) : State :=
  let s := one { t with pc := 0xE00000001000, ivec := 0xE00000002000, s := [(5, dataReg 7)] };
  s.setSlot 0 0 { s.slot 0 0 with state := y }
def landing : HeldPkt := { fromCell := 0, fromSlot := 3, slot := 0, pkt := { words := [(2, 5), (4, 6)], int := some 4, id := 7 } }
theorem witness_ThreadEvents : (let t := (thS { tpend := true, tie := true }).th 0 0;
      t.pair = 0 ∧ t.region = none ∧ t.hnd = false ∧ t.pktOpen = false ∧ t.again = false ∧ t.tpend = true ∧ t.arrivalReady = false ∧ ((thS {}).slot 0 0).state = .ready ∧
      ((thS {}).part ((thS {}).partOf 0 0)).ephMode ≠ 2) ∧
    (let t := (thS { mie := true, m := [(3, ⟨9, true, true⟩)] }).th 0 0;
      t.mie = true ∧ t.imask = false ∧ t.lowPend = some 3) ∧
    ((thS { tie := true, timer := 0 }).th 0 0).timer = 0 ∧ ((thS { imask := true, icnt := 0 }).th 0 0).icnt = 0 ∧
    (let t := (thS { openPkt := some (pktOf [1]), pktCount := 64 }).th 0 0;
      t.openPkt = some (pktOf [1]) ∧ t.openClosed = false ∧ 64 ≤ t.pktCount ∧ t.closedPkt = none ∧ t.released = []) ∧
    (let s := thS { closedPkt := some (pktOf [1]), m := [(1, ⟨4, true, false⟩)] };
      let h : HeldPkt := { fromCell := 0, fromSlot := 0, slot := 0, pkt := { pktOf [1] with id := s.nextId }, fn := s.threadFn 0 0 };
      (s.th 0 0).closedPkt = some (pktOf [1]) ∧ s.earlier 0 0 (pktOf [1]).after = false ∧ (pktOf [1]).id = 0 ∧ (s.th 0 0).openClosed = false ∧
      ((({ s with nextId := s.nextId + 1 } : State).accept h).map fun u => (u.th 0 0).openClosed) = some false ∧
      ((s.cell 0).held.filter (·.slot = 0)).length < 4 ∧
      (((({ s with nextId := s.nextId + 1 } : State).modCell 0 fun x => { x with held := List.replicate 4 landing }).accept h).isNone) = true) ∧
    (let s := thS { closedPkt := some { pktOf [1] with id := 7 } };
      (s.th 0 0).closedPkt = some { pktOf [1] with id := 7 } ∧ s.allSlots = [(0, 0, s.slot 0 0)]) ∧
    (let s := (thS {}).modCell 0 fun x => { x with held := [landing] };
      s.heldAt 7 = some (0, landing) ∧ s.canLand 0 landing = true ∧ s.switchedOut 0 none 0 = false ∧ landing.pkt.words = [(2, 5), (4, 6)]) ∧
    (let s : State := { thS {} with arrivals := [⟨0, 0, 0, 3, 5⟩] };
      let u : State := { s with reqs := [(4, { cell := 0, slot := 0, fn := 0, va := 0, key := 0x8000, op := .store 8 0 false, posted := true })] };
      s.arrivals = [⟨0, 0, 0, 3, 5⟩] ∧ s.slicedAt 0 = none ∧ s.earlierOf 0 0 0 5 = false ∧ u.earlierOf 0 0 0 5 = true) ∧
    ((thS { pairWait := some ⟨false, .s 5, 1, 0xE00000001000, 1, 20, []⟩ }).slot 0 0).pairWaits = some ⟨false, .s 5, 1, 0xE00000001000, 1, 20, []⟩ ∧
    (let t := (thS { align := some ⟨0xE00000001000, 5, 1, 20⟩ }).th 0 0;
      t.align = some ⟨0xE00000001000, 5, 1, 20⟩ ∧ t.pc = 0xE00000001000) ∧
    (let t := (thS { ckTrap := some (1, 4) }).th 0 0;
      t.ckTrap = some (1, 4) ∧ t.again = false ∧ t.pktOpen = false) ∧ ((thS {} .dead).slot 0 0).state = .dead := by and_intros <;> decide +kernel

/-! #### Engine, rope and queue events -/

/-- An operation of the thread of `eng`, alone in its cell. -/
def anOp (kind : OpKind) : Op := { cell := 0, slot := 0, fn := 0, part := 1, group := none, asid := 0, user := false, kind := kind, compl := .tag 0 3 }
def opS (o : Op) (g : Cell → Cell := id) : State := { eng g with ops := [(3, o)], nextId := 9, layout := { memS.layout with bank0 := memS.layout.bank0 ++ [(0x202, 0)] } }
def aCopy : Op := anOp (.lin 0xE00000010000 0xE00000011000 100)
def aGather : Op := anOp (.gather (mkCap 0x1FF 0xE00000010000 0x1000 0xE00000010000) (mkCap 0x1FF 0xE00000011000 0x1000 0xE00000011000) 0xE00000010100 2)
/-- A list entry of 32 bytes at 0xE00000010020, one with a reserved field, and one outside the capability. -/
def entryS (w : Nat) : State := (opS aGather).write none 0x10100 16 w
def int8Mma : Mma := { quant := false, a := mkCap 0x1FF 0xE00000010000 0x1000 0xE00000010000, b := mkCap 0x1FF 0xE00000010000 0x1000 0xE00000010000,
                       geo0 := 0x000020000020, geo1 := 0x11FFFFFFFF, side := 0, fmt := 2, seed := 0, isat := false }
def aMma : Op := { anOp (.mma int8Mma) with started := true, acc := List.replicate 256 0, tile := some 1 }
/-- A function with a fault ring of two records at 0x9000, of which record 5 awaits its reply. -/
def ringS (o : Op) (reply : Nat) : State :=
  let s := opS o
  let s : State := { s with layout := { s.layout with bank0 := [(0x200, 1 + 2 ^ 32), (0x201, 2 ^ 16), (0x202, 2 ^ 16), (0x203, 0x9000)] } }
  (s.setFn 0 { s.fnSt 0 with faultN := 6, faultOpen := [5] }).write none (keyHbm + 0x9038) 8 reply
theorem witness_EngineEvents : (let s := opS aCopy;
      s.op 3 = some aCopy ∧ aCopy.runs = true ∧ s.opWaits 3 aCopy = false ∧ isCopy aCopy.kind = true ∧ aCopy.chain = false ∧
      (match s.launchKey aCopy with
        | .ok t none => t == s
        | _ => false) = true ∧ nextSeg aCopy.moves aCopy.prog = some 0xE00000011000 ∧
      frags aCopy.moves 0xE00000011000 = [(0xE00000011000, 0xE00000010000, 64, false)] ∧
      (match s.spaceOf 1 0 false 0xE00000011000 64, s.spaceOf 1 0 false 0xE00000010000 64 with
        | .ok (some a), .ok (some b) => a == 0x11000 && b == 0x10000
        | _, _ => false) = true ∧ kindOf 0x11000 = .pool 0 ∧ s.tileHeld aCopy 0x11000 64 = false ∧ s.notYet 0x11000 64 = false ∧ s.poisonAt 0x10000 64 = none ∧
      nextSeg aCopy.moves (0xE00000011000 + 64) ≠ none ∧ nextSeg (anOp (.lin 0 0xE00000011000 40)).moves (0xE00000011000 + 64) = none) ∧
    (∀ w ∈ [0xE00000010020 + 32 * 2 ^ 64, 0xE00000010020 + 2 ^ 48, 0xE00000013000 + 32 * 2 ^ 64],
      (entryS w).op 3 = some aGather ∧ readNat (entryS w).mem 0x10100 16 = w ∧ (entryS w).notYet 0x10100 64 = false ∧ (entryS w).poisonAt 0x10100 16 = none ∧
      (entryS w).opWaits 3 aGather = false) ∧
    (capCheck (mkCap 0x1FF 0xE00000010000 0x1000 0xE00000010000) [permRd, permEng] 0xE00000013000 32).isSome = true ∧
    (capCheck (mkCap 0x1FF 0xE00000010000 0x1000 0xE00000010000) [permRd, permEng] 0xE00000010020 32).isSome = false ∧
    (∀ q ∈ [[], List.range' 10 8, [20, 4]], let o : Op := { anOp (.copyMx 0 0 0 0 0 0 int8Mma) with chain := true, tile := some 1 };
      let s : State := { opS o fun x => { x with mxq := q } with ops := [(3, o), (4, aMma)] };
      s.op 3 = some o ∧ o.runs = true ∧ 3 ∉ q ∧ (s.op 4).map (·.tile) = some o.tile) ∧
    (∀ o ∈ [{ anOp (.zero 0x3FFFFFFFF) with tile := some 1 }, aMma], let s := opS o fun x => { x with mxq := [3] };
      (s.cell 0).mxq = [3] ∧ s.op 3 = some o ∧ o.runs = true ∧ o.next ≤ s.cycle ∧ s.heldByChain 0 3 o = false ∧ s.opWaits 3 o = false ∧ s.tileAway o = false ∧
      o.prog ≤ int8Mma.steps ∧
      s.opBase o + 1024 ≤ 1024 * 2 ^ 20) ∧
    (let o : Op := { anOp (.zero 0x3FFFFFFFF) with tile := some 1 };
      let s := opS o fun x => { x with mxq := [3] };
      let u : State := { s with cells := s.cells.map fun x => (x.1, { x.2 with switch := true }) };
      u.op 3 = some o ∧ (u.cell 0).mxq = [3] ∧ u.heldByChain 0 3 o = false ∧ u.tileAway o = true) ∧
    (int8Mma.atag = 1 ∧ int8Mma.btag = 1 ∧ aMma.acc.length = 256 ∧ int8Mma.rows = List.range 16 ∧ int8Mma.cols = List.range 16 ∧
      (∀ i < 16, (0xE00000010000 + i * 32) % 64 + int8Mma.depthAt 0 ≤ 64)) ∧
    (∀ o ∈ [{ aCopy with finished := true }, { aCopy with finished := true, failed := some (0x0B, 1, 7) }], let s := opS o fun x => { x with tcount := [(3, 1)] };
      s.op 3 = some o ∧ o.finished = true ∧ o.held = false ∧ o.stop = none ∧ o.peer = none ∧ s.reqs = [] ∧ s.doneHeld o = false ∧ o.mma = none) ∧
    (let o : Op := { aCopy with stop := some (1, 0x11000) };
      let s := ringS o 0;
      s.op 3 = some o ∧ (match s.stopped 3 with
        | some (k, acc, va, fn, c, i, a) => k == 1 && acc == 1 && va == 0x11000 && fn == 0 && c == 0 && i == 0 && a == 0
        | none => false) = true ∧ s.feHeld = [] ∧ s.holdFor none 0 [(keyHbm + 0x9000, 32)] = none ∧
      ({ s with throttled := [{ id := 70, fn := 0, places := [(keyHbm + 0x9000, 8)], again := some (.read (.bar4 0x9000) 8) }] } : State).holdFor none 0
        [(keyHbm + 0x9000, 32)] = some 101 ∧ fnEfqlog s.layout.active 0 = 1 ∧ (s.fnSt 0).faultN = 6 ∧
      (s.fnSt 0).faultOpen = [5] ∧ fnEfqbase s.layout.active 0 = 0x9000) ∧
    (∀ v ∈ [0, 1], let o : Op := { aCopy with stop := some (1, 0x11000), fault := some (0, 5) };
      let s := ringS o v;
      5 ∈ (s.fnSt 0).faultOpen ∧ s.isFull (s.replyKey 0 5) = true ∧ s.ops.find? (fun x => x.2.fault = some (0, 5)) = some (3, o) ∧
      (s.fnSt 0).killsHeld = [] ∧ readNat s.mem (s.replyKey 0 5) 8 = v) := by and_intros <;> decide +kernel
/-- A rope command of the thread of `eng` on the pool at 0x400000 (HBM) or 0x401000 (second-tier memory). -/
def aCmd (op : Nat) (base : Nat := 0x400000) (b : Reg := {}) : RopeCmd :=
  { cell := 0, slot := 0, fn := 0, part := 1, group := none, asid := 0, user := false, op := op, m := 0, mreg := 2, pool := mkCap 0x1FF base 0x1000 base, b := b,
    d := mkCap 0x1FF 0xE00000010000 0x1000 0xE00000010000, c0 := 0, c1 := 0 }
def cmdS (r : RopeCmd) : State := { eng with cmds := [(3, r)], nextId := 9, reqs := [] }
def keyIs (r : EngRes Nat) (s : State) (k : Nat) : Bool := match r with
  | .ok t j => t == s && j == k
  | _ => false
def aWalk (pos : Nat) : Walk := ⟨0, pos, 2, false, 6, 0, []⟩
/-- A ring at 0xE00000010000 with its head, tail and capacity. -/
def walkS (head tail cap : Nat) : State :=
  [(0, head), (8, tail), (16, cap)].foldl (fun s x => s.write none (0x10000 + x.1) 8 x.2) (cmdS { aCmd 7 with walk := some (aWalk 2) })
def aLeaf : W512 := setBits (leafWord 0 3 0 0x5800 0 [0, 0, 0, 0]) 9 1 1
/-- A pool with one pending leaf, of number 5, and `l` cycles in which its engine has reclaimed. -/
def poolS (l : List Nat) : State :=
  let h : Header := ⟨0, 6, 64, 0, 0, 5, 1⟩
  ((({ eng with pools := [(keyHbm + 0x5000, { last := some (aCmd 0) })], rigs := [(0, { reclaims := l })], nextId := 9 } : State).write none (keyHbm + 0x5000) 64
    h.word.toNat).write none (keyHbm + 0x5140) 64 aLeaf.toNat)
/-- `RopeSees`, computed. -/
def seesB (s : State) (r : RopeCmd) (acc : Acc) (va k : Nat) : Bool :=
  decide ((va + 63) / 2 ^ 44 < 14) && s.owner r.asid.toNat == some r.fn && (match tlbFind (s.cell r.cell).tlb r.asid.toNat va with
    | some e => (acc == .load || e.leaf.getLsbD 7) && leafOk e.leaf acc r.user && s.landing e.leaf e.log va == some k
    | none => false)
theorem sees_of {s : State} {r : RopeCmd} {acc : Acc} {va k : Nat} (h : seesB s r acc va k = true) : RopeSees s r acc va k := by
  unfold seesB at h
  split at h <;> rename_i e
  · simp only [Bool.and_eq_true, Bool.or_eq_true, decide_eq_true_eq, beq_iff_eq] at h
    exact ⟨h.1.1, h.1.2, _, e, h.2.1.1, h.2.1.2, h.2.2⟩
  · simp at h
theorem quiet_rows {s : State} (h0 : s.throttled = []) (h : s.hbms = [(0, { train := 2 })]) : RowsQuiet s := by
  refine ⟨h0, fun k => ?_⟩
  unfold State.stack
  rw [h]
  rcases Nat.eq_zero_or_pos k with rfl | hk
  · decide +kernel
  · have : SMap.at (α := Stack) [(0, { train := 2 })] k {} = {} := by simp [SMap.at, SMap.look, Nat.ne_of_lt hk]
    rw [this]
    decide +kernel
/-- The keys of a pool of 16 nodes at 0x400000. -/
def nodeKey (n : Nat) : Nat := keyHbm + 0x5000 + 64 * n
/-- The schema of the manual's example: int32 elements, a sum, and an abs psum. -/
def aSchema : W64 := 0x260010002
/-- Headers: one free and one pending node; no list; no room. -/
def hdA : Header := ⟨aSchema, 11, 64, 5, 1, 4, 1⟩
def hdB : Header := ⟨aSchema, 11, 64, 0, 0, 0, 0⟩
def hdC : Header := ⟨aSchema, 11, 11, 0, 0, 0, 0⟩
def hdD : Header := ⟨aSchema, 11, 64, 0, 0, 7, 1⟩
/-- Leaves 1, 2, 6 and 8 and branches 3, 9 and 10; 4 is pending, 5 free, and 7 a pending branch; 6 has a full count, 8 goes on where 1 ends, 9 has
the greatest length, and the summaries of 10 are stale. -/
def aNodes : List (Nat × W512) :=
  [(1, leafWord 2 8 0 0x400800 0 [36, 168, 0, 0]), (2, leafWord 2 8 0 0x400900 0 [8, 28, 0, 0]), (3, innerWord 1 1 16 1 2 0 [44, 260, 0, 0]),
   (4, setBits (leafWord 0 3 0 0x400800 0 [0, 0, 0, 0]) 9 1 1), (5, setBits (leafWord 0 3 0 0x400800 0 [0, 0, 0, 0]) 10 1 1),
   (6, leafWord (2 ^ 32 - 1) 3 0 0x400A00 0 [0, 0, 0, 0]), (7, setBits (innerWord 1 0 16 1 2 0 [0, 0, 0, 0]) 9 1 1),
   (8, leafWord 2 2 8 0x400800 0 [0, 0, 0, 0]), (9, innerWord 1 2 (2 ^ 48 - 1) 1 2 0 [0, 0, 0, 0]), (10, innerWord 1 2 16 1 2 5 [44, 260, 0, 0])]
/-- The bytes of a number at a key that are not 0. -/
def bytesAt (k n w : Nat) : List Host.Cell := (List.range n).filterMap fun j => if w / 256 ^ j % 256 = 0 then none else some (k + j, BitVec.ofNat 8 (w / 256 ^ j))
/-- The word of each node. -/
def nodeWord (h : Header) (n : Nat) : W512 := if n = 0 then h.word else (SMap.look aNodes n).getD 0
/-- The rings, of 4 records at 0xE00000010800, empty, and at 0xE00000010900, full; and what is no ring at 0xE00000010000. -/
def ringMem : List Host.Cell := [(0x10010, 0x77), (0x10810, 4), (0x10900, 5), (0x10908, 1), (0x10910, 4)]
/-- The nodes behind the header, and handles of root 0 at 0x400F00, 3 at 0x400F10 and 0 of version 7 at 0x400F20. -/
def restMem : List Host.Cell :=
  aNodes.flatMap (fun x => bytesAt (nodeKey x.1) 64 x.2.toNat) ++ bytesAt (keyHbm + 0x5F10) 8 3 ++ bytesAt (keyHbm + 0x5F20) 8 (7 * 2 ^ 32)
/-- The pool in its memory, with the rings and the handles, and the command. -/
def pv (h : Header) (r : RopeCmd) : State := { cmdS r with mem := ringMem ++ (bytesAt (nodeKey 0) 64 h.word.toNat ++ restMem) }
def aHeads : List Header := [hdA, hdB, hdC, hdD]
theorem look_skip {l m : List Host.Cell} {a : Nat} (h : ∀ x ∈ l, x.1 < a) : SMap.look (l ++ m) a = SMap.look m a := by
  induction l with
  | nil => rfl
  | cons x l ih =>
    have : x.1 ≠ a := Nat.ne_of_lt (h x (List.mem_cons_self ..))
    simpa [SMap.look, this] using ih fun y hy => h y (List.mem_cons_of_mem _ hy)
theorem readNat_skip {l m : List Host.Cell} {a : Nat} (n : Nat) (h : ∀ x ∈ l, x.1 < a) : readNat (l ++ m) a n = readNat m a n := by
  induction n generalizing a with
  | zero => rfl
  | succ n ih => simp only [readNat, readByte, SMap.at, look_skip h, ih fun x hx => Nat.lt_succ_of_lt (h x hx)]
theorem bytesAt_lt {k n w : Nat} : ∀ x ∈ bytesAt k n w, x.1 < k + n := by
  simp only [bytesAt, List.mem_filterMap, List.mem_range]
  rintro x ⟨j, hj, h⟩
  split at h
  · cases h
  · obtain rfl := Option.some.inj h
    exact Nat.add_lt_add_left hj k
theorem rest_words : ∀ n < 15, BitVec.ofNat 512 (readNat restMem (nodeKey (n + 1)) 64) = (SMap.look aNodes (n + 1)).getD 0 := by decide +kernel
theorem head_words : ∀ h ∈ aHeads, (pv h (aCmd 0)).wordIn nodeKey 0 = h.word := by decide +kernel
theorem pv_mem (h : Header) (r : RopeCmd) : (pv h r).mem = (ringMem ++ bytesAt (nodeKey 0) 64 h.word.toNat) ++ restMem := by
  simp only [pv, List.append_assoc]
theorem front_lt (h : Header) (n : Nat) : ∀ x ∈ ringMem ++ bytesAt (nodeKey 0) 64 h.word.toNat, x.1 < nodeKey (n + 1) := by
  intro x hx
  have : nodeKey 0 + 64 ≤ nodeKey (n + 1) := by unfold nodeKey; omega
  rcases List.mem_append.mp hx with hx | hx
  · exact Nat.lt_of_lt_of_le ((by decide +kernel : ∀ x ∈ ringMem, x.1 < nodeKey 0 + 64) x hx) this
  · exact Nat.lt_of_lt_of_le (bytesAt_lt x hx) this
theorem pv_words : ∀ h ∈ aHeads, ∀ n < 16, (pv h (aCmd 0)).wordIn nodeKey n = nodeWord h n := by
  intro h hh n hn
  cases n with
  | zero => exact head_words h hh
  | succ n =>
    rw [State.wordIn, pv_mem, readNat_skip _ (front_lt h n), nodeWord, if_neg (Nat.succ_ne_zero n)]
    exact rest_words n (by omega)
/-- What `PoolReady` asks of the header and of the nodes' links, computed from their words. -/
def hdOk (w : Nat → W512) : Bool :=
  let hd := headerOf (w 0)
  !schemaBad hd.schema && hd.bump ≤ 16 && hd.bump ≤ hd.freen + hd.cap && hd.pendn + 1 < 2 ^ 32 && hd.freeh < 16 && hd.pendh < 16 &&
  (hd.freeh = 0 || (nodeOf (w hd.freeh)).free && hd.freen != 0) && (hd.pendh = 0 || (nodeOf (w hd.pendh)).pend)
def linkOk (w : Nat → W512) (n : Nat) : Bool :=
  let x := nodeOf (w n)
  n = 0 || !(x.free || x.pend) || x.count < 16 && (x.count = 0 || (!x.free || (nodeOf (w x.count)).free) && (!x.pend || (nodeOf (w x.count)).pend))
theorem pool_of {s : State} {r : RopeCmd} {w : Nat → W512} (hw : ∀ n < 16, s.wordIn nodeKey n = w n) (h : (hdOk w && (List.range 16).all (linkOk w)) = true)
    (h1 : r.pool.base = 0x400000) (hs : (List.range 16).all (fun n => seesB s r .load (0x400000 + 64 * n) (nodeKey n) &&
      seesB s r .store (0x400000 + 64 * n) (nodeKey n) && isHbm (nodeKey n) && !s.poisoned (nodeKey n) 64) = true) (hq : RowsQuiet s ∧ s.feHeld = [])
    (hp : (s.pools.at (nodeKey 0) {}).tail = none) : PoolReady s r nodeKey 16 := by
  have hn : ∀ n < 16, s.nodeIn nodeKey n = nodeOf (w n) := fun n h => by rw [State.nodeIn, hw n h]
  simp only [Bool.and_eq_true, List.all_eq_true, List.mem_range, Bool.not_eq_true'] at h hs
  obtain ⟨h6, h7⟩ := h
  have hh : s.hdrIn nodeKey = headerOf (w 0) := by rw [State.hdrIn, hw 0 (by decide)]
  simp only [hdOk, Bool.and_eq_true, Bool.or_eq_true, decide_eq_true_eq, Bool.not_eq_true', bne_iff_ne] at h6
  obtain ⟨⟨⟨⟨⟨⟨⟨a, b⟩, c⟩, d⟩, e⟩, f⟩, g⟩, i⟩ := h6
  refine ⟨⟨by decide, by omega, by decide⟩, fun n hn => ?_, fun x _ y _ _ => by unfold nodeKey; omega, hq, by rwa [hh], by rw [hh]; exact ⟨b, c, d⟩, ?_, ?_, ?_⟩
  · have := hs n hn
    rw [h1]
    exact ⟨⟨sees_of this.1.1.1, sees_of this.1.1.2⟩, this.1.2, this.2⟩
  · rintro l rfl
    rw [hh, hn _ e, hn _ f]
    exact ⟨e, f, fun k => g.resolve_left k, fun k => i.resolve_left k⟩
  · rintro n h0 hm x rfl k
    have := h7 n hm
    simp only [linkOk, Bool.and_eq_true, Bool.or_eq_true, decide_eq_true_eq, Bool.not_eq_true'] at this
    rw [hn n hm] at k ⊢
    rcases this with (h | h) | h
    · omega
    · rcases k with k | k <;> simp_all
    · rw [hn _ h.1]
      refine ⟨h.1, fun q => ⟨fun k => ?_, fun k => ?_⟩⟩ <;> rcases h.2 with h | h
      · exact absurd h q
      · exact h.1.resolve_left (by simp [k])
      · exact absurd h q
      · exact h.2.resolve_left (by simp [k])
  · intro n hn
    rw [hp] at hn
    cases hn
/-- Whether a pool is ready does not depend on what its command asks for. -/
theorem ready_forCmd {s : State} {r : RopeCmd} {m : Nat} (h : PoolReady s r nodeKey m) (cmds : SMap RopeCmd) (op : Nat) (b d : Reg) (c0 c1 : W64) (mm : Byte)
    (w : Option Walk) : PoolReady { s with cmds := cmds } { r with op := op, b := b, d := d, c0 := c0, c1 := c1, m := mm, walk := w } nodeKey m :=
  ⟨h.size, h.has, h.apart, h.quiet, h.schema, h.bump, h.heads, h.links, h.tail⟩
/-- The commands' translations, whatever memory holds. -/
def seesAll (s : State) (r : RopeCmd) : Bool := (List.range 16).all fun n => seesB s r .load (0x400000 + 64 * n) (nodeKey n) &&
  seesB s r .store (0x400000 + 64 * n) (nodeKey n) && isHbm (nodeKey n) && !s.poisoned (nodeKey n) 64
theorem seesAll_mem (s : State) (r : RopeCmd) (m : List Host.Cell) : seesAll { s with mem := m } r = seesAll s r := rfl
theorem sees_all : seesAll (cmdS (aCmd 0)) (aCmd 0) = true := by decide +kernel
theorem pool_ready : ∀ h ∈ aHeads, PoolReady (pv h (aCmd 0)) (aCmd 0) nodeKey 16 := fun h hh =>
  pool_of (pv_words h hh) (List.all_eq_true (p := fun h => hdOk (nodeWord h) && (List.range 16).all (linkOk (nodeWord h))) |>.mp (by decide +kernel) h hh) (by decide)
    ((seesAll_mem _ _ _).trans sees_all) ⟨quiet_rows rfl rfl, rfl⟩ rfl
/-- Nodes that can be read, by number, computed from their words. -/
def liveB (w : Nat → W512) (n : Nat) : Bool :=
  let x := nodeOf (w n)
  let hd := headerOf (w 0)
  n != 0 && n < hd.bump && !nodeBad (w n) && !x.pend && !x.free && x.count != 0 && (!x.leaf || x.len != 0) &&
  (x.leaf || x.left != 0 && x.left < 16 && x.left < hd.bump && x.right != 0 && x.right < 16 && x.right < hd.bump &&
    x.h == 1 + max (nodeOf (w x.left)).h (nodeOf (w x.right)).h)
theorem live_of {s : State} {w : Nat → W512} {n : Nat} (hw : ∀ n < 16, s.wordIn nodeKey n = w n) (hm : n < 16) (h : liveB w n = true) : s.live nodeKey n := by
  have hn : ∀ n < 16, s.nodeIn nodeKey n = nodeOf (w n) := fun n h => by rw [State.nodeIn, hw n h]
  simp only [liveB, Bool.and_eq_true, bne_iff_ne, decide_eq_true_eq, Bool.not_eq_true', Bool.or_eq_true, beq_iff_eq] at h
  obtain ⟨⟨⟨⟨⟨⟨⟨a, b⟩, c⟩, d⟩, e⟩, f⟩, g⟩, h⟩ := h
  unfold State.live
  rw [hn n hm, hw n hm, State.hdrIn, hw 0 (by decide)]
  refine ⟨a, b, c, d, e, f, fun k => g.resolve_left (by simp [k]), fun k => ?_⟩
  obtain ⟨⟨⟨⟨⟨⟨x, x'⟩, y⟩, z⟩, v'⟩, v⟩, u⟩ := h.resolve_left (by simp [k])
  rw [hn _ x', hn _ v']
  exact ⟨x, y, z, v, u⟩
/-- A command of its fields; with a root and data words; and with a capability to the 256 bytes at an address. -/
def cmdOf (op : Nat) (b d : Reg) (c0 c1 : W64) (m : Byte) (w : Option Walk) : RopeCmd := { aCmd 0 with op := op, b := b, d := d, c0 := c0, c1 := c1, m := m, walk := w }
def ringA : Reg := mkCap 0x1FF 0xE00000010000 0x1000 0xE00000010800
def ringB : Reg := mkCap 0x1FF 0xE00000010000 0x1000 0xE00000010900
def ropeC (op a : Nat) (c0 : Nat := 0) (c1 : Nat := 0) (m : Byte := 0) (d : Reg := ringA) : RopeCmd :=
  cmdOf op (dataReg (BitVec.ofNat 64 a)) d (BitVec.ofNat 64 c0) (BitVec.ofNat 64 c1) m none
def rcap (op at_ : Nat) (c0 : Nat := 0) (m : Byte := 0) : RopeCmd := cmdOf op (mkCap 0x1FF at_ 0x100 at_) ringA (BitVec.ofNat 64 c0) 0 m none
/-- Every such command can execute in every such pool. -/
theorem rope_ready {h : Header} (hh : h ∈ aHeads) (op : Nat) (b d : Reg) (c0 c1 : W64) (m : Byte) :
    RopeReady (pv h (cmdOf op b d c0 c1 m none)) 3 (cmdOf op b d c0 c1 m none) nodeKey 16 :=
  ⟨⟨rfl, ⟨rfl, rfl, rfl, rfl⟩, rfl, rfl⟩, ready_forCmd (pool_ready h hh) _ op b d c0 c1 m none⟩
theorem rope_word {h : Header} (hh : h ∈ aHeads) (r : RopeCmd) {n : Nat} (hn : n < 16) : (pv h r).wordIn nodeKey n = nodeWord h n := pv_words h hh n hn
theorem rope_live {h : Header} (hh : h ∈ aHeads) (r : RopeCmd) : ∀ n ∈ [1, 2, 3, 6, 8, 9, 10], (pv h r).live nodeKey n := fun n hn =>
  live_of (pv_words h hh) (by simp only [List.mem_cons, List.not_mem_nil, or_false] at hn; omega)
    (List.all_eq_true.mp (List.all_eq_true (p := fun h => [1, 2, 3, 6, 8, 9, 10].all (liveB (nodeWord h))) |>.mp (by decide +kernel) h hh) n hn)
/-- `PieceSeen`, computed, of the page at 0x400000. -/
def pieceB (s : State) (r : RopeCmd) (va n : Nat) : Bool :=
  decide (va + n ≤ 2 ^ 48) && (s.poisonAt (va + keyHbm - 0x3FB000) n).isNone &&
    (List.range n).all fun j => seesB s r .load (va + j) (va + keyHbm - 0x3FB000 + j) && isHbm (va + keyHbm - 0x3FB000 + j)
theorem piece_of {s : State} {r : RopeCmd} {va n : Nat} (h : pieceB s r va n = true) : PieceSeen s r va (va + keyHbm - 0x3FB000) n := by
  simp only [pieceB, Bool.and_eq_true, decide_eq_true_eq, Option.isNone_iff_eq_none, List.all_eq_true, List.mem_range] at h
  exact ⟨h.1.1, h.1.2, fun j hj => ⟨sees_of (h.2 j hj).1, (h.2 j hj).2⟩⟩
theorem witness_RopeEvents :
    (∀ r ∈ [aCmd 0, aCmd 0 0x400000 (dataReg 16), aCmd 3 0x401000], let s := cmdS r;
      s.cmds.look 3 = some r ∧ r.result = none ∧ r.walk = none ∧ r.stop = none ∧ r.held = false ∧ s.ropeFirst 3 r = false ∧ s.earlier 0 0 3 = false) ∧
    (keyIs (engKey (cmdS (aCmd 0)) (aCmd 0).asOp 0x400000 64 .load) (cmdS (aCmd 0)) (keyHbm + 0x5000) = true ∧
      keyIs (engKey (cmdS (aCmd 0)) (aCmd 0).asOp (0x400000 % 2 ^ 48) 64 .store) (cmdS (aCmd 0)) (keyHbm + 0x5000) = true ∧
      keyIs (engKey (cmdS (aCmd 3 0x401000)) (aCmd 3 0x401000).asOp 0x401000 64 .load) (cmdS (aCmd 3 0x401000)) (keyTier2 + 0x6000) = true) ∧
    isHbm (keyHbm + 0x5000) = true ∧ isHbm (keyTier2 + 0x6000) = false ∧ schemaBad (aCmd 0).b.data = false ∧
    schemaBad (aCmd 0 0x400000 (dataReg 16)).b.data = true ∧ (cmdS (aCmd 0)).feHeld = [] ∧ (cmdS (aCmd 0)).holdFor (some 3) 0 [(keyHbm + 0x5000, 64)] = none ∧
    (let r : RopeCmd := { aCmd 0 with result := some [0, 5] };
      let s := cmdS r;
      s.cmds.look 3 = some r ∧ r.pkt = 0 ∧ s.resultWaits r = false ∧ (s.slot 0 0).state = .ready ∧ s.switchedOut 0 (some 0) 0 = false ∧ (s.th 0 0).pair = 0 ∧
      (s.part (s.partOf 0 0)).ephMode ≠ 2 ∧ (s.cells.all fun y => y.2.held.isEmpty) = true ∧ (∀ k < 2, ((s.th 0 0).rm (2 + k)).full = false)) ∧
    (let r : RopeCmd := { aCmd 7 with walk := some (aWalk 6) };
      (cmdS r).cmds.look 3 = some r ∧ (aWalk 6).fin ≤ (aWalk 6).pos ∧ (aWalk 6).root = 0 ∧ r.givenUp = none ∧
      keyIs (engKey (cmdS r) r.asOp r.pool.base 64 .load) (cmdS r) (keyHbm + 0x5000) = true) ∧
    (∀ s ∈ [walkS 5 3 4, walkS 5 1 4], ∀ j ∈ [0, 8, 16], (aCmd 7).m.getLsbD 0 = false ∧ s.notYet (0x10000 + j) 8 = false ∧ kindOf (0x10000 + j) = .pool 0 ∧
      (match s.spaceOf 1 0 false (((aCmd 7).d.addr + j) % 2 ^ 48) 8 with
        | .ok (some k) => k == 0x10000 + j
        | _ => false) = true) ∧
    (readNat (walkS 5 1 4).mem 0x10000 8, readNat (walkS 5 1 4).mem 0x10008 8, readNat (walkS 5 1 4).mem 0x10010 8) = (5, 1, 4) ∧
    (let s := poolS (List.replicate 64 90);
      (s.pools.at (keyHbm + 0x5000) {}).last = some (aCmd 0) ∧ stackOf (hbmOff (keyHbm + 0x5000)) = some 0 ∧
      (s.rigs.at 0 {}).reclaims.filter (fun c => decide (s.cycle < c + 1000)) = 90 :: List.replicate 63 90) ∧
    (let s := poolS [];
      let h := headerOf (BitVec.ofNat 512 (readNat s.mem (keyHbm + 0x5000) 64));
      let x := nodeOf (BitVec.ofNat 512 (readNat s.mem (keyHbm + 0x5140) 64));
      h.pendn = 1 ∧ h.pendh = 5 ∧ h.freen = 0 ∧ x.leaf = true ∧ s.poisoned (keyHbm + 0x5000) 64 = false ∧ s.poisoned (keyHbm + 0x5140) 64 = false ∧
      s.feHeld = [] ∧ (0x400000 + 64 * 5) % 2 ^ 48 = 0x400140) := by
  and_intros <;> decide +kernel
theorem witness_RopeEvents_reclaim : (∀ x ∈ [(0x400000, keyHbm + 0x5000), (0x400140, keyHbm + 0x5140)], RopeHas (poolS []) (aCmd 0) x.1 x.2) ∧ RowsQuiet (poolS []) := by
  refine ⟨fun x hx => ?_, quiet_rows (by decide +kernel) (by decide +kernel)⟩
  simp only [List.mem_cons, List.not_mem_nil, or_false] at hx
  rcases hx with rfl | rfl <;> exact ⟨sees_of (by decide +kernel), sees_of (by decide +kernel)⟩
/-- Every command of `cmdOf` reads its pieces in the page at 0x400000. -/
theorem rope_piece (h : Header) (op : Nat) (b d : Reg) (c0 c1 : W64) (m : Byte) (w : Option Walk) {va n : Nat} (hp : pieceB (cmdS (aCmd 0)) (aCmd 0) va n = true) :
    PieceSeen (pv h (cmdOf op b d c0 c1 m w)) (cmdOf op b d c0 c1 m w) va (va + keyHbm - 0x3FB000) n := piece_of hp
def nd (n : Nat) : Node := nodeOf (nodeWord hdA n)
def aNext (h : Header) : Nat × Header := (pv h (aCmd 0)).nextNode nodeKey h
/-- pin and unpin: a root of count 1, one whose count is full, one that waits; and the handle of pin.h and pub. -/
theorem witness_RopeEvents_pin : (nd 3).count = 1 ∧ (nd 6).count + 1 = 2 ^ 32 ∧ (nd 4).pend = true ∧
    (ropeC 8 3).m.getLsbD 0 = false ∧ (rcap 8 0x400F00 0 1).m.getLsbD 0 = true ∧ hdA.pendh = 4 ∧ hdB.pendh = 0 := by decide +kernel
theorem witness_RopeEvents_handle : (isHbm (keyHbm + 0x5F00) = true ∧ ∀ n < 16, keyHbm + 0x5F20 + 16 ≤ nodeKey n ∨ nodeKey n + 64 ≤ keyHbm + 0x5F00) ∧
    (∀ x ∈ [(0x00, 0), (0x10, 3), (0x20, 7 * 2 ^ 32)], readNat (pv hdA (aCmd 0)).mem (keyHbm + 0x5F00 + x.1) 8 = x.2 ∧
      (pv hdA (aCmd 0)).poisoned (keyHbm + 0x5F00 + x.1) 16 = false) ∧
    (∀ j ∈ [0x00, 0x10, 0x20], ∀ acc ∈ [Acc.load, .rmw], seesB (cmdS (aCmd 0)) (aCmd 0) acc (0x400F00 + j) (keyHbm + 0x5F00 + j) = true) ∧
    (∀ j ∈ [0x00, 0x10, 0x20], ∀ op ∈ [8, 10], (rcap op (0x400F00 + j) 0 1).b.addr = 0x400F00 + j) ∧
    (∀ x ∈ [(0x20, 7 * 2 ^ 32), (0x10, 2), (0x00, 2 + 2 ^ 32), (0x10, 2 + 2 ^ 32)], (rcap 10 (0x400F00 + x.1) x.2).c0.toNat = x.2) := by
  and_intros <;> decide +kernel
/-- leaf: a piece that its capability holds, one that it does not, and no room. -/
theorem witness_RopeEvents_leaf : (let r := rcap 1 0x400800 (8 * 2 ^ 32);
      r.b.tag = true ∧ r.b.has permRd = true ∧ r.b.has permEng = true ∧ r.b.base ≤ r.b.addr ∧ r.b.addr + 4 * 8 ≤ r.b.top) ∧
    ¬ (rcap 1 0x400800).b.addr + 4 * 100 + 4 * 8 ≤ (rcap 1 0x400800).b.top ∧ esizeOf aSchema = 2 ∧
    hdC.freen + hdC.cap < hdC.bump + 1 ∧ (∀ h ∈ [hdA, hdB], h.bump + 1 ≤ h.freen + h.cap) ∧
    (aNext hdA).1 = 5 ∧ (aNext hdB).1 = 11 := by
  and_intros <;> decide +kernel
/-- cat: heights and lengths of the two ropes; contiguous leaves; too long; no room. -/
theorem witness_RopeEvents_cat : 2 ^ 48 ≤ (nd 9).len + (nd 9).len ∧ (∀ x ∈ [(1, 2), (1, 1), (1, 8), (1, 3), (3, 3)], (nd x.1).len + (nd x.2).len < 2 ^ 48 ∧
      hdC.freen + hdC.cap < hdC.bump + (max (nd x.1).h (nd x.2).h - min (nd x.1).h (nd x.2).h + 1) ∧
      (∀ h ∈ [hdA, hdB], h.bump + (max (nd x.1).h (nd x.2).h - min (nd x.1).h (nd x.2).h + 1) ≤ h.freen + h.cap) ∧
      (nd x.1).h ≤ (nd x.2).h + 1 ∧ (nd x.2).h ≤ (nd x.1).h + 1 ∧ (nd x.1).h < 127 ∧ (nd x.1).count + 2 < 2 ^ 32) ∧
    (nd 1).leaf = true ∧ (nd 8).leaf = true ∧ (nd 1).paddr = (nd 8).paddr ∧ (nd 1).start + (nd 1).len = (nd 8).start ∧ (nd 2).paddr ≠ (nd 1).paddr := by
  and_intros <;> decide +kernel
/-- split and splice: a branch at its ends and its boundary, a leaf inside; room and none. -/
theorem witness_RopeEvents_split : (nd 3).len = 16 ∧ (nd 3).leaf = false ∧ (nd 3).left = 1 ∧ (nd 3).right = 2 ∧ (nd 1).len = 8 ∧ (nd 2).len = 8 ∧
    (nd 1).leaf = true ∧ (nd 1).start = 0 ∧ (nd 1).paddr = 0x400800 ∧ (∀ n ∈ [1, 3], hdC.freen + hdC.cap < hdC.bump + (3 * (nd n).h + 4) ∧
      hdA.bump + (3 * (nd n).h + 4) ≤ hdA.freen + hdA.cap ∧ (nd n).count + 2 < 2 ^ 32) ∧
    ((pv hdB (aCmd 0)).nextNode nodeKey (aNext hdB).2).1 = 12 ∧ ((pv hdA (aCmd 0)).nextNode nodeKey (aNext hdA).2).1 = 11 := by
  and_intros <;> decide +kernel
/-- The ranges of a splice of 3 in itself and its children, and of 1: outside, none with none, all with another, and each end. -/
def spliceFits (a b p q : Nat) : Bool :=
  let len (n : Nat) : Nat := if n = 0 then 0 else (nd n).len
  decide (p ≤ q ∧ q ≤ len a ∧ len a - (q - p) + len b < 2 ^ 48) &&
    decide (hdA.bump + (if a = 0 then 0 else 8 * max (nd a).h (if b = 0 then 0 else (nd b).h) + 16) ≤ hdA.freen + hdA.cap)
theorem witness_RopeEvents_splice : (∀ x ∈ [(3, 0, 4, 4), (3, 1, 0, 16), (0, 0, 0, 0), (3, 0, 0, 16), (3, 0, 0, 8), (3, 0, 8, 16), (3, 1, 0, 0), (3, 1, 16, 16),
      (3, 1, 0, 8), (3, 1, 8, 16)], spliceFits x.1 x.2.1 x.2.2.1 x.2.2.2 = true) ∧
    (∀ x ∈ [(3, 0, 5, 4), (3, 0, 0, 17), (9, 9, 0, 0)], spliceFits x.1 x.2.1 x.2.2.1 x.2.2.2 = false) ∧
    hdC.freen + hdC.cap < hdC.bump + 24 ∧ (ropeC 4 (3 + 2 ^ 32) 0 16).b.data.toNat = 3 + 1 * 2 ^ 32 ∧
    (∀ x ∈ [(1, 3), (3, 1), (1, 2)], (nd x.1).h ≤ (nd x.2).h + 1 ∧ (nd x.2).h ≤ (nd x.1).h + 1 ∧ (nd x.2).count + 2 < 2 ^ 32 ∧ (nd x.1).count + 2 < 2 ^ 32 ∧
      ¬ ((nd x.1).leaf = true ∧ (nd x.2).leaf = true ∧ (nd x.1).paddr = (nd x.2).paddr)) := by and_intros <;> decide +kernel
/-- sum: pieces of leaves, and nodes whose summaries are stale and are not. -/
theorem witness_RopeEvents_sum : (nd 3).len = (nd (nd 3).left).len + (nd (nd 3).right).len ∧
    (nd 10).len = 16 ∧ staleMask aSchema (nd 10) 0 ≠ 0 ∧ staleMask aSchema (nd 3) 0 = 0 := by
  and_intros <;> decide +kernel
/-- seek: the slot's kind, a value within the whole and within a leaf's first element, one that no element reaches, and one beyond the whole. -/
theorem witness_RopeEvents_seek : (slotOf aSchema 0).op = 1 ∧ (slotOf aSchema 0).fp = false ∧ (∀ n ∈ [1, 2, 4], (slotOf aSchema 2).op ≠ n) ∧
    BitVec.sle 0 (slotOf aSchema 0).identity = true ∧ BitVec.sle 5 (slotOf aSchema 0).identity = false ∧ BitVec.sle 99 ((nd 3).slots.getD 0 0) = false ∧
    BitVec.sle 5 ((nd 1).slots.getD 0 0) = true ∧ BitVec.sle 0 ((nd 3).slots.getD 0 0) = true ∧
    (let pre (j : Nat) : W64 := (((pv hdA (aCmd 0)).keysAt aSchema (slotOf aSchema 0) (keyHbm + 0x5800) 8).take j).foldl (seekStep 1) 0;
      BitVec.sle 0 (pre 1) = true ∧ ∀ j < 8, BitVec.sle 5 (pre (j + 1)) = false) := by
  and_intros <;> decide +kernel
/-- The pieces that leaf, a merging cat, split, sum and seek read. -/
theorem witness_RopeEvents_pieces (h : Header) : PieceSeen (pv h (rcap 1 0x400800 (8 * 2 ^ 32))) (rcap 1 0x400800 (8 * 2 ^ 32)) 0x400800 (keyHbm + 0x5800) 32 ∧
    PieceSeen (pv h (ropeC 2 1 8)) (ropeC 2 1 8) 0x400800 (keyHbm + 0x5800) 40 ∧ PieceSeen (pv h (ropeC 3 1 3)) (ropeC 3 1 3) 0x400800 (keyHbm + 0x5800) 32 ∧
    PieceSeen (pv h (ropeC 5 1 2 5)) (ropeC 5 1 2 5) 0x400808 (keyHbm + 0x5808) 12 ∧
    PieceSeen (pv h (ropeC 5 3 2 16)) (ropeC 5 3 2 16) 0x400808 (keyHbm + 0x5808) 24 ∧ PieceSeen (pv h (ropeC 6 1 0)) (ropeC 6 1 0) 0x400800 (keyHbm + 0x5800) 32 := by
  have a : pieceB (cmdS (aCmd 0)) (aCmd 0) 0x400800 40 = true := by decide +kernel
  have b : pieceB (cmdS (aCmd 0)) (aCmd 0) 0x400800 32 = true := by decide +kernel
  have c : ∀ n ∈ [12, 24], pieceB (cmdS (aCmd 0)) (aCmd 0) 0x400808 n = true := by decide +kernel
  exact ⟨rope_piece h _ _ _ _ _ _ _ b, rope_piece h _ _ _ _ _ _ _ a, rope_piece h _ _ _ _ _ _ _ b, rope_piece h _ _ _ _ _ _ _ (c 12 (by simp)),
    rope_piece h _ _ _ _ _ _ _ (c 24 (by simp)), rope_piece h _ _ _ _ _ _ _ b⟩
/-- Walks: their targets, their rings, and their ends. -/
def walkC (pos : Nat) (m : Byte := 0) (d : Reg := ringA) (c0 : Nat := 0) (root : Nat := 3) (fin : Nat := 16) : RopeCmd :=
  cmdOf 7 (dataReg (BitVec.ofNat 64 root)) d (BitVec.ofNat 64 c0) 16 m (some ⟨root, pos, fin, false, 0, 0, []⟩)
theorem walk_ready {h : Header} (hh : h ∈ aHeads) (op : Nat) (b d : Reg) (c0 c1 : W64) (m : Byte) (w : Walk) :
    PoolReady (pv h (cmdOf op b d c0 c1 m (some w))) (cmdOf op b d c0 c1 m (some w)) nodeKey 16 := ready_forCmd (pool_ready h hh) _ op b d c0 c1 m (some w)
def okSome (r : Except Trap (Option Nat)) (k : Nat) : Bool := match r with
  | .ok (some j) => j == k
  | _ => false
theorem ok_of {r : Except Trap (Option Nat)} {k : Nat} (h : okSome r k = true) : r = .ok (some k) := by
  unfold okSome at h
  split at h
  · rw [beq_iff_eq.mp h]
  · cases h
/-- `RingSeen`, computed, of a ring in pool 0 and its next record. -/
def seenB (s : State) (r : RopeCmd) (kr kc : Nat) : Bool :=
  [0, 8, 16].all (fun j => okSome (s.spaceOf r.part r.cell r.user ((r.d.addr + j) % 2 ^ 48) 8) (kr + j) && !s.notYet (kr + j) 8) &&
  okSome (s.spaceOf r.part r.cell r.user r.d.addr 8) kr && [kr, kr + 8, kr + 16, kc].all (fun k => kindOf k == .pool 0) && !s.notYet kc 32 &&
  okSome (s.spaceOf r.part r.cell r.user ((r.d.addr + 64 + 32 * (readNat s.mem kr 8 % readNat s.mem (kr + 16) 8)) % 2 ^ 48) 32) kc &&
  decide (kc + 32 ≤ kr ∨ kr + 24 ≤ kc)
theorem seen_of {s : State} {r : RopeCmd} {kr kc : Nat} (h : seenB s r kr kc = true) : RingSeen s r kr kc := by
  simp only [seenB, Bool.and_eq_true, List.all_eq_true, Bool.not_eq_true', beq_iff_eq, decide_eq_true_eq] at h
  obtain ⟨⟨⟨⟨⟨a, b⟩, c⟩, d⟩, e⟩, f⟩ := h
  refine ⟨fun j hj => ⟨ok_of (a j hj).1, (a j hj).2⟩, ok_of b, ⟨0, c _ ?_, c _ ?_⟩, ⟨0, c _ ?_⟩, ?_, d, ok_of e, f⟩
  · simp
  · simp
  · simp
  · rw [c kr, c (kr + 8)] <;> simp
theorem witness_RopeEvents_walk : (∀ x ∈ [(ringA, 0x10800, 0x10840, 0), (ringB, 0x10900, 0x10960, 4)], RingSeen (pv hdA (walkC 0 0 x.1)) (walkC 0 0 x.1) x.2.1 x.2.2.1) ∧
    (∀ x ∈ [(0x10800, 0), (0x10900, 4)], readNat (pv hdA (aCmd 0)).mem (x.1 + 16) 8 = 4 ∧
      (readNat (pv hdA (aCmd 0)).mem x.1 8 + 2 ^ 64 - readNat (pv hdA (aCmd 0)).mem (x.1 + 8) 8) % 2 ^ 64 = x.2) ∧
    (ringA.base ≤ ringA.addr ∧ ringA.addr + 64 + 32 * 4 ≤ ringA.top) ∧
    okSome ((pv hdA (aCmd 0)).spaceOf 1 0 false ((0xE00000010000 + 16) % 2 ^ 48) 8) 0x10010 = true ∧
    readNat (pv hdA (aCmd 0)).mem 0x10010 8 = 0x77 ∧ kindOf 0x10010 = .pool 0 ∧ (pv hdA (aCmd 0)).notYet 0x10010 8 = false ∧
    physOf 1 0 = some 0 ∧ physOf 2 1023 = none ∧ ((pv hdA (walkC 0 1)).cell 0).held = [] ∧ (walkC 0 1).m.getLsbD 0 = true := by
  and_intros
  · intro x hx
    simp only [List.mem_cons, List.not_mem_nil, or_false] at hx
    rcases hx with rfl | rfl <;> exact seen_of (by decide +kernel)
  all_goals decide +kernel
/-- A walk from 0 stands in the left leaf, then at the start of the right one; and a walk that has reached its end. -/
theorem witness_RopeEvents_emit : (∀ pos ∈ [0, 8], (walkC pos).walk.isSome ∧ (walkC pos).result = none ∧ (walkC pos).stop = none ∧ (walkC pos).held = false ∧
      (walkC pos).givenUp = none ∧ (pv hdA (walkC pos)).cmds.look 3 = some (walkC pos)) ∧
    (0 < (nd 1).len ∧ (nd (nd 3).left).len ≤ 8 ∧ 8 < 8 + (nd 2).len ∧ (nd 2).leaf = true) ∧ (walkC 16).walk.map (fun w => decide (w.fin ≤ w.pos)) = some true := by
  and_intros <;> decide +kernel
/-- The elements of a node and of two new leaves, which a split and a join keep. -/
theorem holds_leaf (h : Header) (r : RopeCmd) (hh : h ∈ aHeads) {n : Nat} (hn : n < 16) (h0 : n ≠ 0) (hl : (nodeOf (nodeWord h n)).leaf = true)
    (hz : (nodeOf (nodeWord h n)).h = 0) : Holds ((pv h r).nodeIn nodeKey) (.old n) ((List.range (nodeOf (nodeWord h n)).len).map fun i =>
      ((nodeOf (nodeWord h n)).paddr, (nodeOf (nodeWord h n)).start + i)) := by
  have e : (pv h r).nodeIn nodeKey n = nodeOf (nodeWord h n) := congrArg nodeOf (rope_word hh r hn)
  have := Holds.oldLeaf (nd := (pv h r).nodeIn nodeKey) n h0 (by rw [e]; exact hl) (by rw [e]; exact hz)
  rwa [e] at this
def treeOk {α : Type} (x : Except RopeErr α × Rig) : Bool := match x.1 with
  | .ok _ => true
  | _ => false
theorem witness_RopeEvents_trees : (∀ n ∈ [1, 2], (nd n).leaf = true ∧ (nd n).h = 0) ∧
    treeOk (join (.leaf 0x400800 0 3) (.leaf 0x400900 0 3) ((pv hdA (aCmd 2)).rig 3 (aCmd 2))) = true ∧
    treeOk (split 128 (.old 1) 0 ((pv hdA (aCmd 3)).rig 3 (aCmd 3))) = true := by and_intros <;> decide +kernel
/-- A pool whose pending list holds a branch. -/
def branchS : State := { pv hdD (aCmd 0) with pools := [(keyHbm + 0x5000, { last := some (aCmd 0) })] }
theorem ready_forPools {s : State} {r : RopeCmd} {m : Nat} (h : PoolReady s r nodeKey m) (l : SMap PoolSt) (ht : (SMap.at l (nodeKey 0) {}).tail = none) :
    PoolReady { s with pools := l } r nodeKey m :=
  ⟨h.size, h.has, h.apart, h.quiet, h.schema, h.bump, h.heads, h.links, fun n e => by rw [ht] at e; cases e⟩
theorem branch_ready : PoolReady branchS (aCmd 0) nodeKey 16 := ready_forPools (pool_ready hdD (by decide)) _ (by decide +kernel)
theorem witness_RopeEvents_branch : (branchS.pools.at (keyHbm + 0x5000) {}).last = some (aCmd 0) ∧ nodeKey 0 = keyHbm + 0x5000 ∧ hdD.pendn ≠ 0 ∧
    hdD.freen + 1 < 2 ^ 32 ∧ hdD.pendh = 7 ∧ (nd 7).leaf = false ∧ (nd 7).left = 1 ∧ (nd 7).right = 2 ∧ 1 < (nd 1).count ∧ 1 < (nd 2).count := by
  and_intros <;> decide +kernel

/-! #### Queues, prompters, host, fabric, partitions and devices -/

/-- A hardware work queue of function 0: an enabled ring of 16 entries at 0x1000 in address space 0, with one entry. -/
def aCtx : W512 := BitVec.ofNat 512 (0x1000 + 4 * 2 ^ 48 + 2 ^ 53 + 4 * 2 ^ 112 + 2 ^ 152 + 2 ^ 320)
/-- As memS, with an ASID context and tables at 0x10000 and 0x11000 that map the 1 GiB pages 0 and 1 to host and second-tier memory; the queue
0; an access-control entry for device 5 with every permission, and requests `l` that throttled rows hold. -/
def devW (l : List HeldAt) : State :=
  let s : State := { memS with mem := [(keyHbm, 1), (keyHbm + 10, 1), (keyHbm + 0x10000, 0x01), (keyHbm + 0x10001, 0x10), (keyHbm + 0x10002, 0x01)]
                               acl := [(0, 5 + 2 ^ 30 + 31 * 2 ^ 31), (3, 0x100)], queues := [(0, { ctx := aCtx })], throttled := l }
  (s.write none (keyHbm + 0x11000) 8 (leaf 2 0).toNat).write none (keyHbm + 0x11008) 8 (leaf 1 0).toNat
def devS : State := devW []
/-- The host waits behind a throttled row: for the ASID context, or elsewhere. -/
def hostWaits (places : List (Nat × Nat)) : List HeldAt := [{ id := 70, fn := 0, places := places, again := some (.read (.bar4 0) 8) }]
/-- Places of `devW`: an address, its key, and the key of its leaf. -/
def devPlaces : List (Nat × Nat × Nat) :=
  [(0x1000, keyHost + 0x1000, keyHbm + 0x11000), (0x1040, keyHost + 0x1040, keyHbm + 0x11000), (0x40001000, keyTier2 + 0x1000, keyHbm + 0x11008)]
theorem devW_key (l : List HeldAt) (hl : l = [] ∨ l = hostWaits []) (x : Nat × Nat × Nat) (hx : x ∈ devPlaces) (acc : Acc)
    (h : acc = .load ∨ acc = .store ∨ acc = .rmw) : ∃ u, Spends (devW l) u ∧ (devW l).devKey 0 0 x.1 acc false = (u, .ok x.2.1) := by
  refine ⟨_, Spends.fold (fun s k => s.access (some 0) k 8 false) (fun t k => access_spends t _ _ _ _) [(devW []).rootKey 0 0, keyHbm + 0x10000, x.2.2] _, ?_⟩
  simp only [devPlaces, List.mem_cons, List.not_mem_nil, or_false] at hx
  rcases hl with rfl | rfl <;> rcases hx with rfl | rfl | rfl <;> rcases h with rfl | rfl | rfl <;> rfl
theorem devS_read : ∃ v u, devS.devRead 0 0 0x1000 64 = (u, .ok v) := by
  obtain ⟨u, ⟨m, f, h, d, rfl⟩, e⟩ := devW_key [] (.inl rfl) (0x1000, keyHost + 0x1000, keyHbm + 0x11000) (by decide) .load (.inl rfl)
  obtain ⟨a, b, c, g, k⟩ := access_spends { devW [] with module := m, fns := f, hbms := h, due := d } (some 0) (keyHost + 0x1000) 64 false
  unfold State.devRead devS
  rw [e]
  generalize hs : ({ devW [] with module := m, fns := f, hbms := h, due := d } : State) = s at k ⊢
  have hh : s.holdAct 0 0 [(keyHost + 0x1000, 64)] = (s, none) := by subst hs; rfl
  have hk : kindOf (keyHost + 0x1000) = .host := by decide +kernel
  simp only [hk, hh]
  rw [k]
  subst hs
  exact ⟨_, _, rfl⟩
theorem devS_append (v : Nat) : ∃ u, devS.appendHw 0 v = (u, .ok ()) := by
  obtain ⟨u, ⟨m, f, h, d, rfl⟩, e⟩ := devW_key [] (.inl rfl) (0x1040, keyHost + 0x1040, keyHbm + 0x11000) (by decide) .store (.inr (.inl rfl))
  have w : ∃ u, devS.devWrite 0 0 0x1040 64 v = (u, .ok ()) := by
    unfold State.devWrite devS
    rw [e]
    exact ⟨_, rfl⟩
  obtain ⟨u, w⟩ := w
  have q : (qVf (devS.queue 0).ctx, qAsid (devS.queue 0).ctx, entryVa (devS.queue 0).ctx (qTail (devS.queue 0).ctx)) = (0, 0, 0x1040) := by decide +kernel
  simp only [Prod.mk.injEq] at q
  unfold State.appendHw
  dsimp only
  rw [q.1, q.2.1, q.2.2, w]
  exact ⟨_, rfl⟩
def aStage : Stage := { home := 0, qcap := 4, ring := 0x20000, scap := 4, spill := 0x400000, asid := 0, low := 1, high := 2, head := 3, count := 1, spCount := 2 }
/-- A launch packet of one slot in the cell at (2, 0), with code at 0x400000 and 8 granules of registers. -/
def aPacket : W512 := BitVec.ofNat 512 (0x400000 + 0x400000 * 2 ^ 64 + 0x1000 * 2 ^ 128 + 8 * 2 ^ 160 + 2 ^ 200 + 2 ^ 208 + 2 * 2 ^ 224)
def aGang : Gang := { id := 9, cell := 0, slot := 0, reg := 2, part := 1, size := 192, raw := 2 + aPacket.toNat * 2 ^ 512 + aPacket.toNat * 2 ^ 1024 }
def gangS (g : Gang) : State := { opS aCopy with ops := [], dies := [(0, { gangs := [g] })] }
def aFault (c : Nat) : CueEvent := .fault c 0 none 0x0A 0 0
def partS (x : Part) : State := { opS aCopy with parts := [(1, x)], cycle := 120, queues := [(0, { ctx := aCtx, head := some aPacket })] }
theorem witness_QueueAndPrompterEvents :
    (let s : State := { opS aCopy with stages := [(stageKey 1 0, aStage)] };
      s.stage (stageKey 1 0) = some aStage ∧ aStage.spCount ≠ 0 ∧ aStage.count < aStage.qcap ∧ aStage.killed = false ∧ aStage.parked = [] ∧ s.spills = [] ∧
      s.stageHere (stageKey 1 0) aStage = true ∧ (match s.spillKey aStage (aStage.spillVa 0) .load false with
        | (t, .ok k) => t == s && k == keyHbm + 0x5000
        | _ => false) = true ∧ isHbm (keyHbm + 0x5000) = true ∧ s.poisonAt (keyHbm + 0x5000) 64 = none ∧ aStage.home < 1024 ∧
      aStage.ring + 64 * aStage.qcap ≤ 2 ^ 20) ∧
    (∀ s ∈ [devS, devW (hostWaits [(keyHbm, 8)]), { devS with layout := {} }], let x : HwQueue := { ctx := aCtx };
      s.queue 0 = x ∧ qEn x.ctx = true ∧ x.depth ≠ 0 ∧ x.head = none ∧ x.parked = [] ∧ x.dropping = false ∧
      qVf x.ctx = 0 ∧ qAsid x.ctx = 0 ∧ entryVa x.ctx (qHead x.ctx) = 0x1000) ∧
    ((devW (hostWaits [(keyHbm, 8)])).devRead 0 0 0x1000 64).2 = .held 101 ∧ (({ devS with layout := {} } : State).devRead 0 0 0x1000 64).2 = .fault ∧
    (let s := partS {};
      s.cycle % 24 = 0 ∧ (s.engine 1 false).event = none ∧ (s.engine 1 false).ended = 0 ∧ s.localQueues 1 = [0] ∧ s.eligible 1 0 = true ∧
      s.frozen 1 = false) ∧
    (let s := partS { tick := 5 };
      (s.part 1).tick ≠ 0 ∧ (s.part 1).ctl.event ≠ some .tick) ∧
    (let s : State := { partS { tickPend := true } with dies := [(leadDie 1, { faults := [(2, aFault 3), (1, aFault 0)], yields := [(1, 0, 0, none)] })] };
      let u : State := { s with dies := [(leadDie 1, { yields := [(2, 0, 0, none), (1, 0, 0, none)] })] };
      let v : State := { s with dies := [] };
      (s.engine 1 true).event = none ∧ (s.die (leadDie 1)).faults = [(2, aFault 3)] ++ (1, aFault 0) :: [] ∧
      (u.die (leadDie 1)).yields = [(2, 0, 0, none)] ++ (1, 0, 0, none) :: [] ∧ (u.die (leadDie 1)).faults = [] ∧
      (v.die (leadDie 1)).yields = [] ∧ (v.die (leadDie 1)).faults = [] ∧ (v.part 1).tickPend = true) ∧
    (let s := partS { disp := { event := some .dispatch, steps := 256, budget := 256 } };
      (s.engine 1 false).event.isSome = true ∧ (s.engine 1 false).fixed = false ∧ (s.engine 1 false).writing = none ∧
      (s.engine 1 false).budget ≤ (s.engine 1 false).steps) ∧
    (∀ ev ∈ [CueEvent.dispatch, aFault 0, .tick, .yield 0 0 none], let s := partS { ctl := { event := some ev, fixed := true } };
      (s.engine 1 true).event = some ev ∧ (s.engine 1 true).fixed = true ∧ (s.engine 1 true).writing = none ∧ s.eligible 1 0 = true) ∧
    ({ partS {} with queues := [] } : State).localQueues 1 = [] ∧
    (∀ g ∈ [{ aGang with outcome := some 0 }, { aGang with bad := true, size := 64, raw := 0 }, aGang], let s := gangS g;
      (s.die 0).gangs = [g] ∧ g.half = false ∧ g.plan = none ∧ [g].find? (fun h => h.moves s) = some g ∧
      ((s.cell g.tcell).held.filter fun x => x.slot = g.tslot).length < 4 ∧ g.queue = none ∧ s.token = none ∧ (g.malformed = true ↔ g.bad = true)) ∧
    (let o : Origin := ⟨1, 0, 0, .user, none⟩;
      let s := gangS aGang;
      aGang.listed = [aPacket, aPacket] ∧ (match s.checkMembers o (aGang.listed.map some) with
        | (u, ks, _) => u == s && ks == []) = true ∧ s.frozen 1 = false ∧ s.runsFn 1 0 = true ∧ s.quotaReady 0 = true ∧
      (s.placeMembers o [] aGang.listed).length = 2) ∧
    (∀ x ∈ [{ stlen := 8 }, { loading := true }, { loading := true, stlen := 8 }, { stvalid := true, swapFrom := some [] }], ((partS x).part 1) = x ∧ (partS x).parts = [(1, x)]) ∧
    (signedBy 0 (natToBytes 520 0) = false ∧ (partS {}).module.ownerKey = 0) ∧
    (∀ b ∈ [[], [(0, 0)], [(0, 1)]], let s : State := { partS { lastPrio := b } with queues := [(0, { ctx := aCtx, head := some aPacket }), (1, { ctx := aCtx, head := some aPacket })] };
      s.localQueues 1 = [0, 1] ∧ s.eligible 1 0 = true ∧ s.eligible 1 1 = true ∧ headPrio (s.queue 0) = 0 ∧ headPrio (s.queue 1) = 0) ∧
    (let o : Origin := ⟨1, 0, 0, .user, none⟩;
      let s : State := { gangS aGang with reserved := (List.range 16).map fun i => (2, i) };
      (match s.checkMembers o (aGang.listed.map some) with
        | (u, ks, _) => u == s && ks == []) = true ∧ s.frozen 1 = false ∧ s.runsFn 1 0 = true ∧ s.quotaReady 0 = true ∧
      (s.part (o.partition aPacket)).ephMode = 0 ∧ (s.placeMembers o [] aGang.listed).length < 2 ∧ s.token = none ∧ [aGang].find? (fun h => h.moves s) = some aGang) ∧
    (let g : Gang := { aGang with plan := some [[(2, [0])]] };
      let s : State := { gangS g with layout := { (gangS g).layout with phase := .checking, bank1 := [] }, reserved := [(2, 0), (3, 0)] };
      s.frozen 1 = true ∧ [g].find? (fun h => h.plan.isSome) = some g ∧ g.queue = none ∧ g.half = false) ∧
    (let s : State := { thS {} with dies := [(0, { forwarded := [aFault 0] })] };
      let u : State := ({ s with cells := [(0, { slots := [(0, { state := .parked, th := { wait := some .fault } })] })] } : State);
      (s.die 0).forwarded = [aFault 0] ∧ s.bindHome 0 0 none = .live ∧ (u.slot 0 0).state = .parked ∧ (u.th 0 0).wait = some .fault ∧
      (∀ t ∈ [s, u], t.dies.find? (fun y => y.2.forwarded.any fun e => match e with
        | .fault c' i' .. => decide (c' = 0) && decide (i' = 0)
        | _ => false) = some (0, { forwarded := [aFault 0] }))) := by and_intros <;> decide +kernel
/-- What the windows read: events, a queue with a head, its mark of arrival and the queue bound last; a head that is a gang, whose record the tables map. -/
def gangPacket : W512 := aPacket ||| BitVec.ofNat 512 (0x1000 * 2 ^ 384)
def winS : State := { partS { lastBound := some 0 } with queues := [(0, { ctx := aCtx, head := some aPacket, marks := [(1, 50)] })] }
def winG : State := { devS with queues := [(0, { ctx := aCtx, head := some gangPacket })] }
theorem witness_CueInstructionResults_windows : (∀ s ∈ [winS, winG], s.localQueues 1 = [0] ∧ (qTail (s.queue 0).ctx + 2 ^ 32 - qHead (s.queue 0).ctx) % 2 ^ 32 = 1) ∧
    (winS.part 1).lastBound = some 0 ∧ (winG.part 1).lastBound = none ∧ aPacket.extractLsb' 384 48 = 0 ∧ gangPacket.extractLsb' 384 48 = 0x1000 ∧
    (1 + 2 ^ 32 - qHead aCtx) % 2 ^ 32 = 1 ∧ (winG.rootOf 0 0).isSome = true ∧ (winG.walkFrom 0 0x1000 3 ((winG.rootOf 0 0).getD 0)).2.isSome = true ∧
    ({ winS with queues := [] } : State).localQueues 1 = [] ∧ (winS.slot 0 0).state = .ready ∧ (winS.slot 0 0).bind.map (·.group) = none := by
  and_intros <;> decide +kernel
/-- A message of device 5. -/
def aMsg (op addr : Nat) (n : Nat := 8) : FabMsg := { op := op, addr := addr, bytes := n, src := 5, tag := 9, len := 4, data := 0x1122334455667788 }
def aclS : State := { State.reset with acl := [(0, 5 + 2 ^ 30 + 31 * 2 ^ 31), (3, 0x100)] }
theorem aclFind_of {s t : State} (h : s.acl = t.acl) (p : Nat) (m : FabMsg) : s.aclFind p m = t.aclFind p m := by
  unfold State.aclFind aclMatch aclBase aclLen aclWord
  rw [h]
theorem aclFind_op (s : State) (p op a : Nat) : s.aclFind p (aMsg op a) = s.aclFind p (aMsg 0 a) := by
  unfold State.aclFind aclMatch aMsg
  rfl
theorem devW_peer (l : List HeldAt) (hl : l = [] ∨ l = hostWaits []) (x : Nat × Nat × Nat) (hx : x ∈ devPlaces) (y : Nat × Acc)
    (hy : y ∈ [(31, Acc.load), (32, .store), (33, .rmw)]) (op : Nat) :
    ∃ u, Spends (devW l) u ∧ (devW l).peerKey y.1 y.2 (aMsg op x.1) = (u, .ok (x.2.1, 0)) := by
  have hy' : y.2 = .load ∨ y.2 = .store ∨ y.2 = .rmw := by
    simp only [List.mem_cons, List.not_mem_nil, or_false] at hy
    rcases hy with rfl | rfl | rfl <;> decide
  obtain ⟨u, hu, e⟩ := devW_key l hl x hx y.2 hy'
  have ha : (devW l).aclFind y.1 (aMsg op x.1) = some 0 := by
    have h : (devW l).acl = aclS.acl := by rcases hl with rfl | rfl <;> decide +kernel
    rw [aclFind_of h, aclFind_op]
    simp only [devPlaces, List.mem_cons, List.not_mem_nil, or_false] at hx hy
    rcases hx with rfl | rfl | rfl <;> rcases hy with rfl | rfl | rfl <;> decide +kernel
  apply Exists.intro u
  apply And.intro hu
  unfold State.peerKey
  rw [ha]
  have o : (devW l).owner (aclAsid (devW l) 0) = some 0 := by rcases hl with rfl | rfl <;> decide +kernel
  dsimp only
  rw [o]
  have a : aclAsid (devW l) 0 = 0 := by rcases hl with rfl | rfl <;> decide +kernel
  have k : (aMsg op x.1).addr = x.1 := rfl
  dsimp only
  rw [a, k, e]
  simp only [devPlaces, List.mem_cons, List.not_mem_nil, or_false] at hx
  rcases hx with rfl | rfl | rfl <;> rfl
/-- What a response or the end of a wait finds: a thread parked on request 3, a load of peer memory at device 7. -/
def aReq : Req := { cell := 0, slot := 0, fn := 0, va := 0x403000, key := keyPeer + 7 * 2 ^ 48 + 0x8000, op := .load 4 true false (.s 5), sent := 0 }
def peerS (r : Req) : State := { (thS { wait := some (.reply 3) }).modCell 0 fun x => { x with slots := x.slots.map fun y => (y.1, { y.2 with state := .parked }) } with
  reqs := [(3, r)], nextId := 9, cycle := 2 ^ 20, ports := [(2, { ack := 4095 })], layout := memS.layout }
/-- The check value that CRC-64/ECMA-182 is published with, over the digits 1 to 9. -/
theorem test_crc : crc64 [0x31, 0x32, 0x33, 0x34, 0x35, 0x36, 0x37, 0x38, 0x39] = 0x6C40DF5F0B497347 := by decide +kernel
theorem crc_zero (n : Nat) : (List.replicate n (0 : Byte)).foldl crcByte 0 = 0 := by
  induction n with
  | zero => rfl
  | succ n ih =>
    have h : crcByte 0 0 = 0 := by decide
    rw [List.replicate_succ, List.foldl_cons, h, ih]
/-- A flit of which only the check code is not zero. -/
def badFlit : BitVec 2048 := BitVec.ofNat 2048 (2 ^ 1984)
/-- An empty flit of sequence number 0, as sent and with a wrong check code. -/
theorem flit_crc : flitCrcOk 0 = true ∧ flitCrcOk badFlit = false := by
  have a : natToBytes 248 (BitVec.toNat (0 : BitVec 2048)) = List.replicate 248 0 := by decide +kernel
  have b : natToBytes 248 badFlit.toNat = List.replicate 248 0 := by decide +kernel
  unfold flitCrcOk crc64
  rw [a, b, crc_zero]
  decide +kernel
theorem witness_FabricEvents :
    (let m := aMsg 1 0x1000;
      0 < m.op ∧ m.op < 16 ∧ m.len ≤ 4 ∧ m.tag < 4096 ∧ m.src < 4096 ∧ m.dst < 4096 ∧ m.svf < 256 ∧ m.sub < 16 ∧ m.bytes < 128 ∧ m.addr < 2 ^ 48 ∧ m.resv = false ∧
      m.data.toNat < 2 ^ (128 * m.len)) ∧
    (let s := peerS aReq;
      flitCrcOk 0 = true ∧ flitSeq 0 = ((s.ports.at 2 {}).ack + 1) % 4096 ∧ flitCrcOk badFlit = false ∧ flitSeq 5 ≠ ((s.ports.at 2 {}).ack + 1) % 4096 ∧
      s.known (aMsg 1 0x1000) = true) ∧
    (∀ op < 4, memShapeBad (aMsg op 0x1000) = false ∧ atomShapeBad (aMsg op 0x1000) = false ∧ (aMsg op 0x1000).sub = 0) ∧
    (∀ y ∈ [(31, Acc.load), (32, .store), (33, .rmw)], ∀ op, ∃ u, (peerS aReq).peerKey y.1 y.2 (aMsg op 0x1000) = (u, .fault)) ∧
    (∀ op, ∃ u k f, (devW (hostWaits [])).peerKey 31 .load (aMsg op 0x1000) = (u, .ok (k, f)) ∧ u.holdFor none f [(k, 8)] true = some 101) ∧
    (∀ x ∈ devPlaces, ∀ y ∈ [(31, Acc.load), (32, .store), (33, .rmw)], ∀ op, ∃ u k f, (devW []).peerKey y.1 y.2 (aMsg op x.1) = (u, .ok (k, f)) ∧
      u.holdFor none f [(k, 8)] true = none ∧ u.linkDown k = false ∧ u.poisonAt k 8 = none ∧ u.feHeld = [] ∧ (kindOf k = .host ↔ x.1 < 2 ^ 30)) ∧
    (let q := devS.queue 0;
      let s : State := { devS with queues := [(0, { q with ctx := q.ctx ||| BitVec.ofNat 512 (2 ^ 176) })] };
      (∀ t ∈ [devS, s], t.holdFor none 0 [] true = none ∧ qVf (t.queue 0).ctx = 0) ∧ (aMsg 4 0 64).addr % 2 ^ 15 = 0 ∧ qAclcnt q.ctx = 0 ∧
      qAclcnt (s.queue 0).ctx = 1 ∧ qAclbase (s.queue 0).ctx = 0 ∧ aclMatch s 0 34 (aMsg 4 0 64) = true ∧ q.killed = false ∧ q.closed = false ∧
      q.depth < 2 ^ qLogsize q.ctx ∧ ({ q with ctx := q.ctx ||| BitVec.ofNat 512 (16 * 2 ^ 320) } : HwQueue).depth = 17) ∧
    (∀ v, ∃ u, devS.appendHw 0 v = (u, .ok ())) ∧
    (let s := peerS aReq;
      let m : FabMsg := { op := 5, addr := 0x8000, src := 7, tag := 3 };
      s.answers m = some (3, aReq, 0, 4, 0) ∧ s.answers { m with sub := 3 } = some (3, aReq, 0, 4, 0) ∧ aReq.engine = none ∧ aReq.posted = false ∧
      s.awaits 3 aReq ∧ aReq.op.lanes aReq.key = [(aReq.key, 4, 0)] ∧ aReq.poisoned = false ∧ aReq.done = none ∧ (s.th 0 0).region = none ∧
      aReq.fail = none ∧ aReq.isStore = false ∧ keyPeer ≤ aReq.key ∧ aReq.sent + 2 ^ 20 ≤ s.cycle ∧ (s.part (s.reqPart aReq)).ephMode = 0) ∧
    (let s : State := { peerS { aReq with engine := some 4 } with ops := [(4, { aCopy with peer := some 3 })] };
      s.reqs.look 3 = some { aReq with engine := some 4 } ∧ s.op 4 = some { aCopy with peer := some 3 }) := by
  refine ⟨by decide +kernel, ⟨flit_crc.1, by decide +kernel, flit_crc.2, by decide +kernel⟩, by decide +kernel, fun y hy op => ?_, fun op => ?_, fun x hx y hy op => ?_, by decide +kernel, devS_append,
    by unfold State.awaits; and_intros <;> decide +kernel, by decide +kernel⟩
  · have h : (peerS aReq).aclFind y.1 (aMsg op 0x1000) = none := by
      rw [aclFind_op]
      simp only [List.mem_cons, List.not_mem_nil, or_false] at hy
      rcases hy with rfl | rfl | rfl <;> decide +kernel
    unfold State.peerKey
    rw [h]
    exact ⟨_, rfl⟩
  · obtain ⟨u, ⟨m, f, h, d, rfl⟩, e⟩ := devW_peer (hostWaits []) (.inr rfl) (0x1000, keyHost + 0x1000, keyHbm + 0x11000) (by decide) (31, .load) (by decide) op
    exact ⟨_, _, _, e, rfl⟩
  · obtain ⟨u, ⟨m, f, h, d, rfl⟩, e⟩ := devW_peer [] (.inl rfl) x hx y hy op
    refine ⟨_, _, _, e, ?_⟩
    simp only [devPlaces, List.mem_cons, List.not_mem_nil, or_false] at hx
    rcases hx with rfl | rfl | rfl <;> refine ⟨rfl, rfl, rfl, rfl, by decide +kernel⟩
/-- Function 0 may enable the queues 0 to 7, in partition 1. -/
def quotaS : State := { memS with layout := { memS.layout with bank0 := [(2, 1), (0x200, 1 + 2 ^ 8 + 2 ^ 32), (0x201, 2 ^ 16), (0x202, 8)] }
                                  module := { memS.module with measured := [(5, 77)] } }
def offCtx : W512 := BitVec.ofNat 512 (4 * 2 ^ 48)
/-- Masks: all bits, and all but `en`. -/
def allBits : W512 := BitVec.allOnes 512
def otherBits : W512 := BitVec.ofNat 512 (2 ^ 512 - 1 - 2 ^ 53)
def ctxS (x : W512) : State := { quotaS with queues := [(0, { ctx := x })] }
theorem witness_HostEvents :
    (qEn ((ctxS offCtx).queue 0).ctx = false ∧ otherBits.getLsbD 53 = false ∧ (0 : W512).getLsbD 53 = false ∧ (5 : W512).getLsbD 386 = false ∧
      qMode (merge offCtx qRwMask otherBits 5) < 2 ∧ allBits.getLsbD 53 = true ∧ aCtx.getLsbD 53 = true ∧ qMode (merge offCtx qRwMask allBits aCtx) < 2 ∧
      (ctxS offCtx).mayEnable 0 (merge offCtx qRwMask allBits aCtx) = true ∧
      ({ ctxS offCtx with layout := {} } : State).mayEnable 0 (merge offCtx qRwMask allBits aCtx) = false ∧ qEn ((ctxS aCtx).queue 0).ctx = true ∧
      ((ctxS aCtx).queue 0).depth = 1 ∧ ((ctxS aCtx).queue 0).heldCpl = [] ∧ (16 + 2 ^ 32 - qTail aCtx) % 2 ^ 32 + 1 = 2 ^ qLogsize aCtx ∧
      (17 + 2 ^ 32 - qTail aCtx) % 2 ^ 32 + 1 = 2 ^ qLogsize aCtx + 1) ∧
    (∀ x ∈ [(0x5008, 8), (0x500C, 4), (0x5000, 64), (36 * 10 ^ 9 - 1, 1)], x.1 % 64 + x.2 ≤ 64 ∧ 0 < x.2 ∧ stackOf x.1 = some 0 ∧ stackOf (x.1 + x.2 - 1) = some 0 ∧
      (quotaS.stack 0).train = 2 ∧ quotaS.module.dead = false ∧ quotaS.holdFor none 0 [(keyHbm + x.1, x.2)] true = none ∧ quotaS.feHeld = [] ∧
      quotaS.poisonAt (keyHbm + x.1) x.2 = none) ∧
    (let r : Req := { aReq with key := keyHost + 0x7000, op := .amo 0 8 5 0 (.s 5) };
      let s := peerS r;
      s.reqs.look 3 = some r ∧ kindOf r.key = .host ∧ r.asked = none ∧ r.cell < 1024 ∧ r.slot < 16 ∧ s.poisonAt r.key 8 = none ∧ s.awaits 3 r) ∧
    (quotaS.module.measured.look 5 = some 77 ∧ quotaS.module.dead = false ∧ signedBy Config.vendorKey [] = false) ∧
    (let s : State := { memS with module := { memS.module with semOwner := 1, semClaim := some 99 } };
      s.module.semOwner = 1 ∧ s.module.semClaim ≠ some s.cycle) := by
  refine ⟨by and_intros <;> decide +kernel, by decide +kernel, by unfold State.awaits; and_intros <;> decide +kernel, by decide +kernel⟩
/-- Partition 1 is time-sliced between the functions 0 and 1, in slices of 100 cycles; `g` changes cell 0. -/
def sliceS (g : Cell → Cell) : State :=
  { thS {} with layout := { bank0 := [(2, 0x10003), (3, 100 * 2 ^ 32), (0x200, 1 + 2 ^ 8 + 2 ^ 32), (0x201, 2 ^ 16), (0x204, 0x10000000),
                                      (0x208, 1 + 2 ^ 8 + 2 ^ 16 + 2 ^ 32), (0x209, 1 + 2 ^ 16), (0x20C, 0x40000000)] }
                cells := (thS {}).cells.map fun x => (x.1, g x.2) }
def swS (g : Cell → Cell := id) : State := { sliceS (fun x => g { x with switch := true, halted := List.range 16 }) with parts := [(1, { switching := some 90 })] }
theorem spoilt_of {s : State} {key k n : Nat} (hk : k < 1024) (h : s.poisoned (key + 64 * k) 64 = true) : s.blockIntact key n = false := by
  unfold State.blockIntact
  rw [List.all_eq_false]
  exact ⟨k, List.mem_range.mpr hk, by simp [h]⟩
theorem witness_PartitionEvents :
    (let f := fun (l : Layout) => ({ memS with layout := l } : State);
      (f {}).commitCode = none ∧ (∀ x ∈ [(([(2, 1), (4, 1)] : SMap W64), 1), ([(2, 0x10001)], 3), ([(0x200, (0x100000001 : W64))], 4)], SMap.rising x.1 = true ∧
        (f { phase := .checking, bank1 := x.1 }).commitCode = some x.2) ∧
      ({ sliceS id with layout := { (sliceS id).layout with phase := .checking }, ops := [(3, aCopy)] } : State).commitCode = some 2 ∧ (f { phase := .flipping }).layout.phase = .flipping ∧
      (f {}).layout.intent = none ∧ (∀ x ∈ [((1 : Nat), true), (0, true), (2, false)], (f { intent := some (.ofNat 32 x.1, [(2, 1)], x.2) }).layout.intent = some (.ofNat 32 x.1, [(2, 1)], x.2)) ∧
      ((f {}).layout.seq = 0)) ∧
    (let s : State := { sliceS id with ops := [(3, aCopy), (4, { aCopy with fn := 1 })] };
      partEn s.layout.active 1 = true ∧ partSlice s.layout.active 1 = true ∧ partSliceLen s.layout.active 1 = 100 ∧ (s.part 1).switching = none ∧
      (s.part 1).sliceFrom + 100 ≤ s.cycle ∧ s.op 3 = some aCopy ∧ aCopy.part = 1 ∧ aCopy.fn = s.outFn 1) ∧
    (let s := sliceS fun x => { x with switch := true };
      s.haltReady 0 0 = true ∧ (s.slot 0 0).state = .ready ∧ s.haltReady 0 1 = true ∧ (s.slot 0 1).state = .empty) ∧
    (let s := swS fun x => { x with moving := some 20 };
      Memory.wf s.mem = true ∧ (s.cell 0).moving = some 20 ∧ s.slicedAt 0 = some 1) ∧
    (let s := swS;
      (∀ g ∈ [256, 64], ∀ n ∈ [65536, 4096], (s.areaFree 1 0 g n).2 = none) ∧ s.slicedAt 0 = some 1 ∧ (s.cell 0).switch = true ∧ (∀ i < 16, i ∈ (s.cell 0).halted) ∧ (s.cell 0).exchanged = false ∧ (s.cell 0).blockDone = false ∧
      (s.blocks.at (blockNum 0 (!(s.part 1).tenant)) {}).image = none ∧ s.inFn 1 = 1 ∧ s.outFn 1 = 0) ∧
    (let x : Block := { image := some 7 };
      let s : State := { swS with blocks := [(1, x)], poison := [(keyHbm + 0x40000000 + 0x100000) / 4] };
      s.blocks.at (blockNum 0 (!(s.part 1).tenant)) {} = x ∧ s.blockIntact (s.blockArea 1 0 (s.inFn 1)) 7 = false) ∧
    (let s := swS fun x => { x with blockDone := true, granules := List.range 64 };
      (s.cell 0).exchanged = false ∧ (s.cell 0).blockDone = true ∧ (s.cell 0).nextScratch = some 64 ∧ s.areaKey 1 0 (s.outFn 1) 64 + 4096 ≤ s.areaKey 1 0 (s.inFn 1) 64 ∧
      ({ s with parts := [(1, { switching := some 90, firstTurn := true })] } : State).slicedAt 0 = some 1) := by
  refine ⟨by and_intros <;> decide +kernel, by and_intros <;> decide +kernel, by decide +kernel, by decide +kernel, by decide +kernel, ⟨by decide +kernel, ?_⟩,
    by decide +kernel⟩
  exact spoilt_of (k := 0) (by decide) (by decide +kernel)
def hbmS (x : Stack) : State := { memS with hbms := [(0, x)], cycle := 20000 }
theorem scrubIndex_lt (off : Nat) : scrubIndex off < 64 * pcRows := by
  unfold scrubIndex rowAt
  generalize Config.rowOf off = r
  obtain ⟨pc, bank, row⟩ := r
  dsimp only
  have h : row % bankRows < bankRows := Nat.mod_lt _ (by unfold bankRows; omega)
  have hp : pc % 64 < 64 := Nat.mod_lt _ (by decide)
  have hb : bank % 48 < 48 := Nat.mod_lt _ (by decide)
  unfold pcRows
  generalize row % bankRows = r at *
  generalize pc % 64 = p at *
  generalize bank % 48 = b at *
  generalize bankRows = n at *
  have h1 : (b + 1) * n ≤ 48 * n := Nat.mul_le_mul_right n hb
  have h2 : (p + 1) * (48 * n) ≤ 64 * (48 * n) := Nat.mul_le_mul_right _ hp
  rw [Nat.add_mul] at h1 h2
  omega
/-- Scrub stands at the row of an offset with its period over, and takes it in the next refresh of its pseudo-channel. -/
def scrubS (off : Nat) : State := { hbmS { train := 2, scrub := scrubIndex off } with cycle := 24 * 9720000000000 }
theorem scrub_takes (off : Nat) : let p := scrubIndex off / pcRows
    p < 64 ∧ ((scrubS off).scrubSpan 0 p).1 ≤ scrubIndex off ∧ scrubIndex off < ((scrubS off).scrubSpan 0 p).2 := by
  have h := scrubIndex_lt off
  have n : 0 < pcRows := by
    unfold pcRows bankRows
    omega
  have a : ((scrubS off).stack 0).scrub = scrubIndex off := rfl
  have t : scrubIndex off < (scrubS off).scrubTarget 0 := by
    unfold State.scrubTarget
    refine Nat.lt_min.mpr ⟨h, Nat.lt_of_lt_of_le h ?_⟩
    have p : ((scrubS off).stack 0).scrubPeriod = 24 * 9720000000000 := rfl
    rw [p, Nat.le_div_iff_mul_le (by decide), Nat.mul_comm]
    exact Nat.mul_le_mul_right _ (Nat.le_add_right (24 * 9720000000000) (2 * (scrubS off).refi 0))
  unfold State.scrubSpan
  rw [a]
  dsimp only
  rw [if_pos rfl]
  refine ⟨Nat.div_lt_of_lt_mul (by rwa [Nat.mul_comm]), Nat.le_refl _, Nat.lt_of_lt_of_le (Nat.lt_min.mpr ⟨t, ?_⟩) (Nat.le_max_right _ _)⟩
  exact Nat.lt_mul_of_div_lt (Nat.lt_succ_self _) n
theorem words_check (r : TrainRec) (x : W512) : ({ r with check := x } : TrainRec).words = r.words := rfl
theorem code_check (r : TrainRec) (x : W512) : ({ r with check := x } : TrainRec).code = r.code := by rw [TrainRec.code, words_check, TrainRec.code]
theorem sealed_check (r : TrainRec) : r.sealed.check = r.sealed.code := (code_check r r.code).symm
def aRecord : TrainRec := TrainRec.sealed ⟨0, Config.serial, 40, Config.trainFormat, [], 0⟩
theorem witness_DeviceEvents :
    (let s := hbmS { train := 2, beat := [(3, 9470)] };
      (s.stack 0).train = 2 ∧ (s.stack 0).beat.at 3 0 + s.refi 0 ≤ s.cycle ∧ (s.stack 0).owner = false) ∧
    (let s := hbmS { train := 2, beat := [(3, 0)] };
      (s.stack 0).beat.at 3 0 + 2 * s.refi 0 ≤ ({ s with cycle := 21060 } : State).cycle) ∧
    (∀ off, let p := scrubIndex off / pcRows;
      p < 64 ∧ ((scrubS off).scrubSpan 0 p).1 ≤ scrubIndex off ∧ scrubIndex off < ((scrubS off).scrubSpan 0 p).2) ∧
    stackOf 0x5000 = some 0 ∧ (hbmS { owner := true }).stack 0 = { owner := true } ∧
    (∀ k ∈ [(0 : BitVec 2), 1, 3], ((hbmS { train := k, record := some aRecord }).stack 0).train = k) ∧
    (((hbmS { record := some aRecord }).stack 0).record = some aRecord ∧ aRecord.check = aRecord.code ∧ aRecord.serial = Config.serial ∧
      aRecord.stack = 0 ∧ aRecord.format = Config.trainFormat ∧ aRecord.temp - 10 ≤ 50 ∧ 50 ≤ aRecord.temp + 10 ∧ ¬ 51 ≤ aRecord.temp + 10) ∧
    (let s := hbmS { train := 2, tuning := 3, beat := [(3, 19500)] };
      (s.stack 0).train = 2 ∧ (s.stack 0).owner = false ∧ (s.stack 0).tuning = 3 ∧ s.cycle < (s.stack 0).beat.at 3 0 + 945 ∧ s.errLog.look 1024 = none ∧
      64 ≤ ((hbmS {}).stack 0).tuning) ∧
    (let s : State := { hbmS {} with errLog := [(5, ⟨20000, 0, []⟩), (6, ⟨19999, 0, []⟩)] };
      (∀ l, s.errLog.look 5 = some l → l.cycle = s.cycle) ∧ s.errLog.look 6 = some ⟨19999, 0, []⟩ ∧ s.module.semOwner = 0 ∧
      ({ s with module := { s.module with semOwner := 2 } } : State).module.semOwner = 2) ∧
    (let s := (hbmS {}).setFn 0 { (hbmS {}).fnSt 0 with window := 10000, opened := 10000 };
      (s.fnSt 0).window ≠ 0 ∧ (s.fnSt 0).opened + (s.fnSt 0).window.toNat ≤ s.cycle ∧ ((s.setFn 0 { s.fnSt 0 with opening := true }).fnSt 0).opening = true) ∧
    (∀ x ∈ [(3200 * 10 ^ 8, 0), (3020 * 10 ^ 8, 0), (2800 * 10 ^ 8, 9)], let s : State := { hbmS {} with module := { windowPj := x.1, above := x.2 } };
      (s.module.cap.toNat * 10 ^ 8 < s.module.windowPj + 180 * 10 ^ 8 ↔ x.1 = 3200 * 10 ^ 8) ∧
      ((s.module.windowPj + 180 * 10 ^ 8) * 100 ≤ s.module.cap.toNat * 10 ^ 8 * 95 ↔ x.2 = 9)) ∧
    (let s := hbmS {};
      s.partIdle 1 = true ∧ (thS {}).partIdle 1 = true ∧
      ({ s with cells := [(0, { slots := [(0, { state := .ready, bind := some { part := 1, queue := none, entry := 0, group := 0 } })] })] } : State).partIdle 1 = false ∧
      (∀ x ∈ [{ ephWrap := true }, { ephCount := 3 }, { ephMode := 2 }], ((({ s with parts := [(1, x)], cycle := 2 ^ 24 } : State).part 1) = x ∧ x.ephWait + 2 ^ 24 ≤ 2 ^ 24))) ∧
    ((8 : Nat) % 8 = 0 ∧ regAt 0x1FFFFF8 = none ∧ (hbmS {}).layout.sel = false ∧ (hbmS {}).layout.phase = .idle) := by
  refine ⟨by decide +kernel, by decide +kernel, scrub_takes, by decide +kernel, by decide +kernel, by decide +kernel,
    ⟨rfl, sealed_check _, rfl, rfl, rfl, by decide +kernel⟩, by decide +kernel, ⟨fun l h => ?_, by decide +kernel⟩, by decide +kernel,
    by decide +kernel, by and_intros <;> decide +kernel, by decide +kernel⟩
  cases (show some _ = some l from h)
  rfl

end Sys2Proof.Tests
end

section
/-!
PROOF. O8: the state after package reset.
-/
namespace Sys2Proof.Machine

/-- The active bank of the reset layout lists no word. -/
theorem active_reset : State.reset.layout.active = [] := rfl

/-- A power-on memory holds no poison. -/
theorem poisoned_reset (a n : Nat) : State.reset.poisoned a n = false :=
  List.any_eq_false.mpr fun _ _ => by simp [State.reset]

/-- Settles O8: every map of the reset state is empty, so each place reads as its default, which the manual gives. -/
theorem resetLeavesTheMachineEmpty : Obligations.ResetLeavesTheMachineEmpty := by
  unfold Obligations.ResetLeavesTheMachineEmpty
  exact ⟨fun _ _ => rfl, fun _ _ => ⟨rfl, rfl⟩, rfl,
    fun _ => by simp [active_reset, partEn, partWord], fun _ => by simp [active_reset, fnEn, fnWord], fun _ => rfl, fun _ _ => rfl, rfl, rfl,
    fun _ => ⟨rfl, rfl, rfl, rfl⟩, rfl, fun a => ⟨rfl, rfl, rfl, poisoned_reset a 1⟩⟩

end Sys2Proof.Machine
end

section
/-!
PROOF. What an instruction's end leaves alone: the count and the advance of its thread (03 R83 step 6, 04 R116), and the slots of other threads.
-/
namespace Sys2Proof.Machine

/-! ### Slots under a change of a cell -/

/-- A change of a cell that keeps its slots leaves every slot. -/
theorem State.slot_modCell (s : State) (c : Nat) {g : Cell → Cell} (h : ∀ x, (g x).slots = x.slots) (d j : Nat) :
    (s.modCell c g).slot d j = s.slot d j := by
  simp only [State.slot, State.modCell, State.cell_setCell]
  split
  · next e => rw [e, Cell.slot, Cell.slot, h]
  · rfl

@[simp] theorem State.slot_writeK (s : State) (c i k : Nat) (v : W64) (d j : Nat) : (s.writeK c i k v).slot d j = s.slot d j := by
  unfold State.writeK State.writeKAt
  refine s.slot_modCell c ?_ d j
  exact fun _ => rfl

theorem State.slot_modTh_self (s : State) (c i : Nat) (g : Thread → Thread) : (s.modTh c i g).slot c i = { s.slot c i with th := g (s.th c i) } :=
  s.slot_setTh_self c i _

/-! ### The count and the advance of a thread -/

/-- The thread has counted its instruction and gone on: only the counts, the pc, the loop levels and the lnd record differ. -/
def Thread.Paces (t u : Thread) : Prop := ∃ pc l0 l1 lnd parkLnd parkLev icnt icount pktCount,
  u = { t with retired := t.retired + 1, again := false, pc := pc, l0 := l0, l1 := l1, lnd := lnd, parkLnd := parkLnd, parkLev := parkLev,
               icnt := icnt, icount := icount, pktCount := pktCount }

theorem Thread.counted_eq (t : Thread) (opens : Bool) : ∃ icnt icount pktCount,
    t.counted opens = { t with retired := t.retired + 1, again := false, icnt := icnt, icount := icount, pktCount := pktCount } := by
  unfold Thread.counted
  dsimp only
  split <;> split <;> split <;> exact ⟨_, _, _, rfl⟩

/-- The lend action changes loop levels only. -/
theorem Thread.lendAct_eq (t : Thread) (pc : Addr) : ∃ l0 l1, t.lendAct pc = { t with l0 := l0, l1 := l1 } := by
  unfold Thread.lendAct
  dsimp only
  split
  · split
    · exact ⟨_, _, rfl⟩
    · split <;> exact ⟨_, _, rfl⟩
  · split <;> exact ⟨_, _, rfl⟩

theorem Thread.advance_eq (t : Thread) : ∃ pc l0 l1 lnd parkLnd parkLev,
    t.advance = { t with pc := pc, l0 := l0, l1 := l1, lnd := lnd, parkLnd := parkLnd, parkLev := parkLev } := by
  unfold Thread.advance
  split
  · exact ⟨_, _, _, _, _, _, rfl⟩
  · split
    · obtain ⟨l0, l1, h⟩ := t.lendAct_eq t.pc
      rw [h]
      exact ⟨_, _, _, _, _, _, rfl⟩
    · exact ⟨_, _, _, _, _, _, rfl⟩

theorem Thread.counted_advance_paces (t : Thread) (opens : Bool) : t.Paces (t.counted opens).advance := by
  obtain ⟨icnt, icount, pktCount, hc⟩ := t.counted_eq opens
  obtain ⟨pc, l0, l1, lnd, parkLnd, parkLev, ha⟩ := (t.counted opens).advance_eq
  rw [ha, hc]
  exact ⟨pc, l0, l1, lnd, parkLnd, parkLev, icnt, icount, pktCount, rfl⟩

/-! ### The end of an instruction that goes on in sequence -/

/-- What a state with the thread's counts has, and a step that falls due leaves, holds after the count. -/
theorem State.counted_ind {P : State → Prop} {s : State} {c i : Nat} {opens : Bool} (count : P (s.modTh c i (·.counted opens)))
    (due : ∀ u d, P u → P (u.dueNow d)) : P (s.counted c i opens) := by
  unfold State.counted
  dsimp only
  split <;> split
  · exact due _ _ (due _ _ count)
  · exact due _ _ count
  · exact due _ _ count
  · exact count

theorem State.counted_slot (s : State) (c i : Nat) (opens : Bool) (d j : Nat) :
    (s.counted c i opens).slot d j = (s.modTh c i (·.counted opens)).slot d j :=
  State.counted_ind (P := fun u => u.slot d j = (s.modTh c i (·.counted opens)).slot d j) rfl fun _ _ h => h

@[simp] theorem State.counted_mem (s : State) (c i : Nat) (opens : Bool) : (s.counted c i opens).mem = s.mem :=
  State.counted_ind (P := fun u => u.mem = s.mem) rfl fun _ _ h => h
@[simp] theorem State.counted_tags (s : State) (c i : Nat) (opens : Bool) : (s.counted c i opens).tags = s.tags :=
  State.counted_ind (P := fun u => u.tags = s.tags) rfl fun _ _ h => h
@[simp] theorem State.counted_emptyW (s : State) (c i : Nat) (opens : Bool) : (s.counted c i opens).emptyW = s.emptyW :=
  State.counted_ind (P := fun u => u.emptyW = s.emptyW) rfl fun _ _ h => h
@[simp] theorem State.counted_poison (s : State) (c i : Nat) (opens : Bool) : (s.counted c i opens).poison = s.poison :=
  State.counted_ind (P := fun u => u.poison = s.poison) rfl fun _ _ h => h

/-- The thread has counted its instruction and gone on, in whatever state the body has left. -/
theorem finish_ok_th (s0 s : State) (c i : Nat) (opens : Bool) : (finish s0 c i (.ok s) opens).th c i = ((s.th c i).counted opens).advance := by
  have h : (s.counted c i opens).th c i = (s.th c i).counted opens := by rw [State.th, State.counted_slot, State.slot_modTh_self]
  rw [finish, State.th_modTh_self, h]

theorem finish_ok_mem (s0 s : State) (c i : Nat) (opens : Bool) : (finish s0 c i (.ok s) opens).mem = s.mem := by
  rw [finish, State.modTh_mem, State.counted_mem]

end Sys2Proof.Machine
end

section
/-!
PROOF. O51: a register-only instruction writes its destination and nothing else (01 R18, R25, R26; 04 R98, R99).
-/
namespace Sys2Proof.Machine

/-! ### Predicates after a write of another (01 R25) -/

/-- Bits outside a field are kept. -/
theorem getLsbD_setBits_out {w : Nat} (x : BitVec w) {lo len k : Nat} (v : Nat) (h : k < lo ∨ lo + len ≤ k) :
    (setBits x lo len v).getLsbD k = x.getLsbD k := by
  have out : decide (lo ≤ k) = false ∨ ¬ k - lo < len := by
    rcases h with h | h
    · left; simpa using h
    · right; omega
  by_cases hk : k < w
  · simp only [setBits, BitVec.getLsbD_or, BitVec.getLsbD_and, BitVec.getLsbD_not, BitVec.getLsbD_ofNat, Nat.testBit_shiftLeft,
      Nat.testBit_two_pow_sub_one, Nat.testBit_mod_two_pow]
    rcases out with h | h <;>
      simp only [hk, h, decide_true, decide_false, Bool.false_and, Bool.and_false, Bool.not_false, Bool.and_true, Bool.or_false]
  · rw [BitVec.getLsbD_of_ge _ _ (Nat.le_of_not_lt hk), BitVec.getLsbD_of_ge _ _ (Nat.le_of_not_lt hk)]

theorem Thread.rp_wp_ne (t : Thread) {n k : Nat} (b : Bool) (h : k ≠ n) : (t.wp n b).rp k = t.rp k := by
  unfold Thread.wp
  split
  · rfl
  · rw [Thread.rp, Thread.rp, getLsbD_setBits_out t.p _ (by omega)]

/-- A write of a scalar cell makes no region. -/
theorem Thread.ws_region_none {t : Thread} (h : t.region = none) (n : Nat) (r : Reg) : (t.ws n r).region = none := by
  unfold Thread.ws
  split
  · exact h
  · dsimp only
    split <;> exact congrArg (Option.map _) h

/-! ### The frame of a thread -/

/-- Threads `t` and `u` agree on every register but destination `d` (message registers on value and pending bit) and on everything that no
instruction's end changes; `u` has retired `k` instructions more. -/
structure ThreadFrame (d : Opnd) (k : W64) (t u : Thread) : Prop where
  rs : ∀ n : BitVec 6, d ≠ .s n → u.rs n.toNat = t.rs n.toNat
  rv : ∀ n, u.rv n = t.rv n
  rp : ∀ n : BitVec 3, d ≠ .p n → u.rp n.toNat = t.rp n.toNat
  rm : ∀ n : BitVec 4, d ≠ .m n → (u.rm n.toNat).val = (t.rm n.toNat).val ∧ (u.rm n.toNat).pend = (t.rm n.toNat).pend
  fmode : u.fmode = t.fmode
  ut : u.ut = t.ut
  st : u.st = t.st
  mt : u.mt = t.mt
  mode : u.mode = t.mode
  asid : u.asid = t.asid
  ivec : u.ivec = t.ivec
  timer : u.timer = t.timer
  cue : u.cue = t.cue
  srseed : u.srseed = t.srseed
  resv : u.resv = t.resv
  hnd : u.hnd = t.hnd
  region : t.region = none → u.region = none
  retired : u.retired = t.retired + k

namespace ThreadFrame
variable {d : Opnd} {t u v : Thread}

theorem refl (d : Opnd) (t : Thread) : ThreadFrame d 0 t t :=
  ⟨fun _ _ => rfl, fun _ => rfl, fun _ _ => rfl, fun _ _ => ⟨rfl, rfl⟩, rfl, rfl, rfl, rfl, rfl, rfl, rfl, rfl, rfl, rfl, rfl, rfl, id,
    (BitVec.add_zero _).symm⟩

theorem trans {k : W64} (h : ThreadFrame d 0 t u) (g : ThreadFrame d k u v) : ThreadFrame d k t v where
  rs n hn := (g.rs n hn).trans (h.rs n hn)
  rv n := (g.rv n).trans (h.rv n)
  rp n hn := (g.rp n hn).trans (h.rp n hn)
  rm n hn := ⟨(g.rm n hn).1.trans (h.rm n hn).1, (g.rm n hn).2.trans (h.rm n hn).2⟩
  fmode := g.fmode.trans h.fmode
  ut := g.ut.trans h.ut
  st := g.st.trans h.st
  mt := g.mt.trans h.mt
  mode := g.mode.trans h.mode
  asid := g.asid.trans h.asid
  ivec := g.ivec.trans h.ivec
  timer := g.timer.trans h.timer
  cue := g.cue.trans h.cue
  srseed := g.srseed.trans h.srseed
  resv := g.resv.trans h.resv
  hnd := g.hnd.trans h.hnd
  region e := g.region (h.region e)
  retired := by rw [g.retired, h.retired]; simp

/-- A scalar destination: every other register reads as before (01 R18). -/
theorem ws (n : BitVec 6) (r : Reg) (t : Thread) : ThreadFrame (.s n) 0 t (t.ws n.toNat r) := by
  have rs (k : BitVec 6) (h : Opnd.s n ≠ .s k) : (t.ws n.toNat r).rs k.toNat = t.rs k.toNat :=
    t.rs_ws_ne r fun e => h (by rw [BitVec.eq_of_toNat_eq e])
  constructor <;> intros <;> simp_all [Thread.rv, Thread.rp, Thread.rm, Thread.ws_region_none]

/-- A message destination (01 R26). -/
theorem wm (n : BitVec 4) (r : MReg) (t : Thread) : ThreadFrame (.m n) 0 t (t.wm n.toNat r) := by
  have rm (k : BitVec 4) (h : Opnd.m n ≠ .m k) : (t.wm n.toNat r).rm k.toNat = t.rm k.toNat :=
    t.rm_wm_ne r fun e => h (by rw [BitVec.eq_of_toNat_eq e])
  exact { refl (.m n) t with rm := fun k h => by rw [rm k h]; exact ⟨rfl, rfl⟩ }

/-- A message register that is read loses its full bit only, whatever the destination. -/
theorem empties (d : Opnd) (n : Nat) (t : Thread) : ThreadFrame d 0 t (t.wm n { t.rm n with full := false }) := by
  have rm (k : Nat) : ((t.wm n { t.rm n with full := false }).rm k).val = (t.rm k).val ∧
      ((t.wm n { t.rm n with full := false }).rm k).pend = (t.rm k).pend := by
    by_cases h : k = n
    · simp [h]
    · simp [t.rm_wm_ne _ h]
  exact { refl d t with rm := fun k _ => rm k.toNat }

/-- A predicate destination (01 R25). -/
theorem wp (n : BitVec 3) (b : Bool) (t : Thread) : ThreadFrame (.p n) 0 t (t.wp n.toNat b) := by
  have rp (k : BitVec 3) (h : Opnd.p n ≠ .p k) : (t.wp n.toNat b).rp k.toNat = t.rp k.toNat :=
    t.rp_wp_ne b fun e => h (by rw [BitVec.eq_of_toNat_eq e])
  constructor <;> intros <;> simp_all [Thread.rv, Thread.rs, Thread.rm]

/-- The count of the instruction and the advance of its thread. -/
theorem paces (d : Opnd) {t u : Thread} (h : t.Paces u) : ThreadFrame d 1 t u := by
  obtain ⟨_, _, _, _, _, _, _, _, _, rfl⟩ := h
  exact ⟨fun _ _ => rfl, fun _ => rfl, fun _ _ => rfl, fun _ _ => ⟨rfl, rfl⟩, rfl, rfl, rfl, rfl, rfl, rfl, rfl, rfl, rfl, rfl, rfl, rfl, id, rfl⟩

end ThreadFrame

/-! ### The frame of a state -/

/-- State `t` is `s` but for the thread in slot (c, i), which has the frame of destination `d`, and for what is neither memory nor a slot. -/
structure DestOnly (d : Opnd) (k : W64) (c i : Nat) (s t : State) : Prop where
  mem : t.mem = s.mem
  tags : t.tags = s.tags
  emptyW : t.emptyW = s.emptyW
  poison : t.poison = s.poison
  cur : t.cur = s.cur
  others : ∀ e j, (e, j) ≠ (c, i) → t.slot e j = s.slot e j
  state : (t.slot c i).state = (s.slot c i).state
  thread : ThreadFrame d k (s.th c i) (t.th c i)

namespace DestOnly
variable {d : Opnd} {c i : Nat} {s t u : State}

theorem refl (d : Opnd) (c i : Nat) (s : State) : DestOnly d 0 c i s s := ⟨rfl, rfl, rfl, rfl, rfl, fun _ _ _ => rfl, rfl, .refl d _⟩

theorem trans {k : W64} (h : DestOnly d 0 c i s t) (g : DestOnly d k c i t u) : DestOnly d k c i s u where
  mem := g.mem.trans h.mem
  tags := g.tags.trans h.tags
  emptyW := g.emptyW.trans h.emptyW
  poison := g.poison.trans h.poison
  cur := g.cur.trans h.cur
  others e j n := (g.others e j n).trans (h.others e j n)
  state := g.state.trans h.state
  thread := h.thread.trans g.thread

theorem setTh {k : W64} {x : Thread} (h : ThreadFrame d k (s.th c i) x) : DestOnly d k c i s (s.setTh c i x) where
  mem := rfl
  tags := rfl
  emptyW := rfl
  poison := rfl
  cur := rfl
  others _ _ n := s.slot_setTh_ne x n
  state := by rw [State.slot_setTh_self]
  thread := by rwa [State.th_setTh_self]

theorem modTh {k : W64} {g : Thread → Thread} (h : ThreadFrame d k (s.th c i) (g (s.th c i))) : DestOnly d k c i s (s.modTh c i g) := setTh h

theorem dueNow {k : W64} (x : Due) (h : DestOnly d k c i s t) : DestOnly d k c i s (t.dueNow x) :=
  ⟨h.mem, h.tags, h.emptyW, h.poison, h.cur, h.others, h.state, h.thread⟩

/-- A common register lies in no slot (01 R29). -/
theorem writeK (d : Opnd) (c i n : Nat) (v : W64) (s : State) : DestOnly d 0 c i s (s.writeK c i n v) where
  mem := rfl
  tags := rfl
  emptyW := rfl
  poison := rfl
  cur := rfl
  others e j _ := s.slot_writeK c i n v e j
  state := by rw [State.slot_writeK]
  thread := by
    unfold State.th
    rw [State.slot_writeK]
    exact .refl d _

/-- A write of a d-class destination. -/
theorem writeD (d : Opnd) (c i : Nat) (v : W64) (s : State) : DestOnly d 0 c i s (s.writeD c i d v) := by
  cases d with
  | s n => exact modTh (g := (·.ws n.toNat (dataReg v))) (.ws n _ _)
  | m n => exact modTh (g := fun t => t.wm n.toNat { t.rm n.toNat with val := v, full := true }) (.wm n _ _)
  | k n => exact writeK _ c i _ v s
  | v n => exact refl _ c i s
  | p n => exact refl _ c i s
  | imm x => exact refl _ c i s

/-- The message registers that an instruction reads are emptied (01 R26). -/
theorem consumed (d : Opnd) (x : Instr) (s : State) : DestOnly d 0 s.cur.1 s.cur.2 s (consumed x s) := by
  unfold Machine.consumed
  split
  · next r f _ =>
    rw [fold_wm]
    suffices h : ∀ (l : List Nat) (t : State), DestOnly d 0 s.cur.1 s.cur.2 s t → DestOnly d 0 s.cur.1 s.cur.2 s
        (l.foldl (fun t n => t.modTh s.cur.1 s.cur.2 fun y => y.wm n { y.rm n with full := false }) t) from h _ s (refl d _ _ s)
    intro l
    induction l with
    | nil => exact fun _ h => h
    | cons n l ih => exact fun t h => ih _ (h.trans (modTh (g := fun y => y.wm n { y.rm n with full := false }) (.empties d n _)))
  · exact refl d _ _ s

/-- The end of an instruction that goes on in sequence. -/
theorem finish (d : Opnd) (s0 s : State) (c i : Nat) (opens : Bool) : DestOnly d 1 c i s (finish s0 c i (.ok s) opens) where
  mem := finish_ok_mem s0 s c i opens
  tags := by rw [Machine.finish, State.modTh_tags, State.counted_tags]
  emptyW := by rw [Machine.finish, State.modTh_emptyW, State.counted_emptyW]
  poison := by rw [Machine.finish, State.modTh_poison, State.counted_poison]
  cur := by rw [Machine.finish, State.modTh_cur, counted_cur]
  others e j n := by
    rw [Machine.finish, State.slot_modTh_ne _ _ n, State.counted_slot, State.slot_modTh_ne _ _ n]
  state := by rw [Machine.finish, State.slot_modTh_self, State.counted_slot, State.slot_modTh_self]
  thread := by
    rw [finish_ok_th]
    exact .paces d (Thread.counted_advance_paces _ opens)

end DestOnly

/-! ### Bodies that write their destination and end -/

/-- Outside atomic regions a body goes on in sequence, with nothing written but its destination. -/
def WritesDest (body : Fields → Body) : Prop :=
  ∀ (f : Fields) (s : State) (c i : Nat) (e : Env), (s.th c i).region = none → ∃ u, body f s c i e = .ok u ∧ DestOnly f.d 0 c i s u

/-- A thread without a region holds no symbolic tag (06 R165). -/
theorem Thread.symOf_none {t : Thread} (h : t.region = none) (o : Opnd) : t.symOf o = none := by
  unfold Thread.symOf
  rw [h]
  cases o <;> rfl

theorem iaSym_ok {f : Fields} {v : W64} {y : Option Sym} {s : State} {c i : Nat} {e : Env} (h : (s.th c i).region = none) :
    ∃ u, iaSym f v y s c i e = .ok u ∧ DestOnly f.d 0 c i s u :=
  ⟨_, if_pos (by rw [h]; rfl), .writeD f.d c i v s⟩

theorem setP_ok {f : Fields} {b : Bool} {s : State} {c i : Nat} {e : Env} : ∃ u, setP f b s c i e = .ok u ∧ DestOnly f.d 0 c i s u := by
  unfold setP
  split
  · next n hd => exact ⟨_, rfl, hd ▸ .modTh (g := (·.wp n.toNat b)) (.wp n _ _)⟩
  · exact ⟨_, rfl, .refl _ c i s⟩

theorem writeC_ok {f : Fields} {r : Reg} {s : State} {c i : Nat} {e : Env} : ∃ u, writeC f r s c i e = .ok u ∧ DestOnly f.d 0 c i s u := by
  unfold writeC
  split
  · next n hd => exact ⟨_, rfl, hd ▸ .modTh (g := (·.ws n.toNat r)) (.ws n _ _)⟩
  · exact ⟨_, rfl, .refl _ c i s⟩

theorem icmpBody_ok {r : Rel} {f : Fields} {y : W64} {s : State} {c i : Nat} {e : Env} (h : (s.th c i).region = none) :
    ∃ u, icmpBody r f y none s c i e = .ok u ∧ DestOnly f.d 0 c i s u := by
  unfold icmpBody
  dsimp only
  rw [Thread.symOf_none h]
  dsimp only
  split
  · next n ht hd =>
    cases ht
    exact ⟨_, rfl, hd ▸ .setTh (.wp n _ _)⟩
  · next ht _ =>
    cases ht
    exact ⟨_, rfl, .setTh (.refl _ _)⟩
  · contradiction

theorem icmpR_ok {r : Rel} {f : Fields} {s : State} {c i : Nat} {e : Env} (h : (s.th c i).region = none) :
    ∃ u, icmpR r f s c i e = .ok u ∧ DestOnly f.d 0 c i s u := by
  unfold icmpR
  rw [Thread.symOf_none h]
  exact icmpBody_ok h

/-! ### The functions of the statement -/

/-- A scalar function whose body writes its destination and ends; its opcode is none of those with energy of their own (23 R453) or with a masked
window (06 R176). -/
def RegisterFn (mk : Fields → Instr) : Prop :=
  ∃ body : Fields → Body, WritesDest body ∧ (∀ f s, exec (mk f) s = .next (runThread (mk f) body s)) ∧
    ∀ f, ∃ r, rowOf (mk f) = some (r, f) ∧ energyOf r = 0 ∧ ∀ t, opensWindow r t = false

/-- What such a function does to a state in which it executes. -/
theorem RegisterFn.frame {mk : Fields → Instr} (h : RegisterFn mk) {f : Fields} {s t : State} (hx : Executes (mk f) s)
    (ht : exec (mk f) s = .next t) : DestOnly f.d 1 s.cur.1 s.cur.2 s t := by
  obtain ⟨body, hb, he, hr⟩ := h
  obtain ⟨r, hr, h0, hw⟩ := hr f
  have row := hx.row hr
  have start := DestOnly.consumed f.d (mk f) s
  obtain ⟨u, hu, write⟩ := hb f (consumed (mk f) s) s.cur.1 s.cur.2 (s.env s.cur.1 s.cur.2 f) (start.thread.region row.region)
  have run : runThread (mk f) body s = finish s s.cur.1 s.cur.2 (.ok u) false := by
    rw [runThread_exec body hr row, hw, charged, hu]
    simp only [h0, if_true]
  rw [he, run] at ht
  cases ht
  exact (start.trans write).trans (.finish f.d s u _ _ false)

/-- Arithmetic, logic and the inspecting `cap` functions: one value of the operands. -/
theorem registerFn_value : ∀ mk ∈ ([.iaMul, .iaMulh, .iaMulhu, .iaDiv, .iaDivu, .iaRem, .iaRemu, .iaAnd, .iaOr, .iaXor, .iaAndn, .iaShl, .iaShr, .iaSra, .iaRot,
    .iaMin, .iaMax, .iaMinu, .iaMaxu, .iaClz, .iaCtz, .iaPopc, .iaMulI, .iaMulhI, .iaMulhuI, .iaDivI, .iaDivuI, .iaRemI, .iaRemuI,
    .iaAndI, .iaOrI, .iaXorI, .iaAndnI, .iaShlI, .iaShrI, .iaSraI, .iaRotI, .iaMinI, .iaMaxI, .iaMinuI, .iaMaxuI, .iaBfx, .iaBfi,
    .iaBfxI, .iaBfiI, .iaLi, .capGetbase, .capGetlen, .capGetperm] : List (Fields → Instr)), RegisterFn mk := by
  simp only [List.forall_mem_cons, List.not_mem_nil, false_imp_iff, implies_true, and_true]
  and_intros <;> exact ⟨_, fun f s c i _ _ => ⟨_, rfl, .writeD f.d c i _ s⟩, fun _ _ => rfl, fun _ => ⟨_, rfl, rfl, fun _ => rfl⟩⟩

/-- The functions that keep a symbolic tag inside a region (06 R165). -/
theorem registerFn_sym : ∀ mk ∈ ([.iaAdd, .iaSub, .iaMov, .iaAddI, .iaSubI, .iaSel] : List (Fields → Instr)), RegisterFn mk := by
  simp only [List.forall_mem_cons, List.not_mem_nil, false_imp_iff, implies_true, and_true]
  and_intros <;> exact ⟨_, fun _ _ _ _ _ h => iaSym_ok h, fun _ _ => rfl, fun _ => ⟨_, rfl, rfl, fun _ => rfl⟩⟩

/-- A predicate of the operands. -/
theorem registerFn_pred : ∀ mk ∈ ([.prdAnd, .prdOr, .prdXor, .prdNot, .prdSet, .capTagtest] : List (Fields → Instr)), RegisterFn mk := by
  simp only [List.forall_mem_cons, List.not_mem_nil, false_imp_iff, implies_true, and_true]
  and_intros <;> exact ⟨_, fun _ _ _ _ _ _ => setP_ok, fun _ _ => rfl, fun _ => ⟨_, rfl, rfl, fun _ => rfl⟩⟩

/-- Compares of two registers (04 R101). -/
theorem registerFn_cmpR : ∀ mk ∈ ([.icmpEq, .icmpNe, .icmpLt, .icmpLtu, .icmpLe, .icmpLeu] : List (Fields → Instr)), RegisterFn mk := by
  simp only [List.forall_mem_cons, List.not_mem_nil, false_imp_iff, implies_true, and_true]
  and_intros <;> exact ⟨_, fun _ _ _ _ _ h => icmpR_ok h, fun _ _ => rfl, fun _ => ⟨_, rfl, rfl, fun _ => rfl⟩⟩

/-- Compares with imm32 (04 R101). -/
theorem registerFn_cmpI : ∀ mk ∈ ([.icmpEqI, .icmpNeI, .icmpLtI, .icmpLtuI, .icmpLeI, .icmpLeuI] : List (Fields → Instr)), RegisterFn mk := by
  simp only [List.forall_mem_cons, List.not_mem_nil, false_imp_iff, implies_true, and_true]
  and_intros <;> exact ⟨_, fun _ _ _ _ _ h => icmpBody_ok h, fun _ _ => rfl, fun _ => ⟨_, rfl, rfl, fun _ => rfl⟩⟩

theorem registerFn_iaMovC : RegisterFn .iaMovC :=
  ⟨fun f s c i e => writeC f e.a s c i e, fun _ _ _ _ _ _ => writeC_ok, fun _ _ => rfl, fun _ => ⟨_, rfl, rfl, fun _ => rfl⟩⟩
theorem registerFn_capClear : RegisterFn .capClear :=
  ⟨fun f s c i e => writeC f { e.a with tag := false } s c i e, fun _ _ _ _ _ _ => writeC_ok, fun _ _ => rfl, fun _ => ⟨_, rfl, rfl, fun _ => rfl⟩⟩

theorem registerFn_all : ∀ mk ∈ ([.iaAdd, .iaSub, .iaMul, .iaMulh, .iaMulhu, .iaDiv, .iaDivu, .iaRem, .iaRemu, .iaAnd, .iaOr,
      .iaXor, .iaAndn, .iaShl, .iaShr, .iaSra, .iaRot, .iaMin, .iaMax, .iaMinu, .iaMaxu, .iaClz, .iaCtz, .iaPopc, .iaMov, .iaMovC, .iaAddI, .iaSubI,
      .iaMulI, .iaMulhI, .iaMulhuI, .iaDivI, .iaDivuI, .iaRemI, .iaRemuI, .iaAndI, .iaOrI, .iaXorI, .iaAndnI, .iaShlI, .iaShrI, .iaSraI, .iaRotI,
      .iaMinI, .iaMaxI, .iaMinuI, .iaMaxuI, .iaBfx, .iaBfi, .iaSel, .iaBfxI, .iaBfiI, .iaLi, .icmpEq, .icmpNe, .icmpLt, .icmpLtu, .icmpLe, .icmpLeu,
      .icmpEqI, .icmpNeI, .icmpLtI, .icmpLtuI, .icmpLeI, .icmpLeuI, .prdAnd, .prdOr, .prdXor, .prdNot, .prdSet, .capGetbase, .capGetlen, .capGetperm,
      .capTagtest, .capClear] : List (Fields → Instr)), RegisterFn mk := by
  have v := registerFn_value
  have y := registerFn_sym
  have p := registerFn_pred
  have r := registerFn_cmpR
  have i := registerFn_cmpI
  simp only [List.forall_mem_cons, List.not_mem_nil, false_imp_iff, implies_true, and_true] at v y p r i ⊢
  simp only [v, y, p, r, i, registerFn_iaMovC, registerFn_capClear, and_true]

/-- Settles O51: such a function consumes its message sources, writes its destination and goes on, and each of the three leaves all else. -/
theorem registerInstructionsFrame : Obligations.RegisterInstructionsFrame := by
  unfold Obligations.RegisterInstructionsFrame
  intro f s t mk hmk hx ht
  have fn := registerFn_all mk hmk
  have h := fn.frame hx ht
  have hcur : t.me = t.th s.cur.1 s.cur.2 := by rw [State.me, h.cur]
  have th := h.thread
  rw [← hcur] at th
  refine ⟨fun a => by rw [h.mem], h.tags, h.emptyW, h.poison, fun c i n => ?_, h.state, th.rs, th.rv, th.rp, th.rm, th.fmode, th.ut, th.st, th.mt, th.mode,
    th.asid, th.ivec, th.timer, th.cue, th.srseed, th.resv, th.hnd, th.region ?_, th.retired⟩
  · have e := h.others c i n
    exact ⟨congrArg Slot.th e, congrArg Slot.state e⟩
  · obtain ⟨_, _, _, hr⟩ := fn
    obtain ⟨r, hr, _⟩ := hr f
    exact (hx.row hr).region

end Sys2Proof.Machine
end

section
/-!
PROOF. What noting a choice (23 R466) leaves of a ready slot: everything but its reservation.
-/
namespace Sys2Proof.Machine

/-- If slot (c, i) is ready, it keeps all but its reservation, and its cell the packets held for it. -/
structure Keeps (c i : Nat) (s t : State) : Prop where
  of_ready : (s.slot c i).state = .ready → (t.cell c).held = (s.cell c).held ∧
    ∃ r l, t.slot c i = { s.slot c i with th := { s.th c i with resv := r, resvLost := l } }

namespace Keeps
variable {c i : Nat} {s t u : State}

theorem of_eq (hc : (t.cell c).held = (s.cell c).held) (hs : t.slot c i = s.slot c i) : Keeps c i s t :=
  ⟨fun _ => ⟨hc, (s.th c i).resv, (s.th c i).resvLost, hs⟩⟩

theorem of_cells (h : t.cells = s.cells) : Keeps c i s t := by
  have cell : t.cell c = s.cell c := by rw [State.cell, State.cell, h]
  exact of_eq (by rw [cell]) (by rw [State.slot, State.slot, cell])

theorem refl : Keeps c i s s := of_cells rfl

theorem trans (h : Keeps c i s t) (g : Keeps c i t u) : Keeps c i s u := by
  constructor
  intro ready
  obtain ⟨hh, r, l, hs⟩ := h.of_ready ready
  obtain ⟨gh, r', l', gs⟩ := g.of_ready (by rw [hs]; exact ready)
  refine ⟨gh.trans hh, r', l', ?_⟩
  rw [gs, State.th, hs]

theorem fold {α : Type} {g : State → α → State} (hg : ∀ s x, Keeps c i s (g s x)) (l : List α) : ∀ s, Keeps c i s (l.foldl g s) := by
  induction l with
  | nil => exact fun _ => refl
  | cons x l ih => exact fun s => (hg s x).trans (ih _)

theorem setPart (h : Keeps c i s t) (p : Nat) (x : Part) : Keeps c i s (t.setPart p x) := h.trans (of_cells rfl)

/-- Energy and activations are in no slot. -/
theorem of_spends (h : Spends s t) : Keeps c i s t := by
  obtain ⟨_, _, _, _, rfl⟩ := h
  exact of_cells rfl

theorem modCell (d : Nat) {g : Cell → Cell} (hs : ∀ x, (g x).slots = x.slots) (hh : ∀ x, (g x).held = x.held) : Keeps c i s (s.modCell d g) := by
  refine of_eq ?_ (s.slot_modCell d hs c i)
  rw [State.modCell, State.cell_setCell]
  split
  · next e => rw [hh, e]
  · rfl

theorem setSlot_ne {d j : Nat} (y : Slot) (h : (c, i) ≠ (d, j)) : Keeps c i s (s.setSlot d j y) := by
  refine of_eq ?_ (s.slot_setSlot_ne y h)
  rw [State.cell_setSlot]
  split
  · next e => rw [e]; rfl
  · rfl

theorem modTh_ne {d j : Nat} (g : Thread → Thread) (h : (c, i) ≠ (d, j)) : Keeps c i s (s.modTh d j g) := setSlot_ne _ h

theorem writeD_ne {d j : Nat} (o : Opnd) (v : W64) (h : (c, i) ≠ (d, j)) : Keeps c i s (s.writeD d j o v) := by
  cases o with
  | s n =>
    unfold State.writeD
    exact modTh_ne _ h
  | m n =>
    unfold State.writeD
    exact modTh_ne _ h
  | k n =>
    unfold State.writeD State.writeK State.writeKAt
    refine modCell d ?_ ?_
    · exact fun _ => rfl
    · exact fun _ => rfl
  | v n => exact refl
  | p n => exact refl
  | imm x => exact refl

theorem ready_ne {d j : Nat} (h : (c, i) ≠ (d, j)) : Keeps c i s (s.ready d j) := by
  unfold State.ready
  dsimp only
  split
  · exact setSlot_ne _ h
  · exact refl

/-- A watcher that wakes was parked, so it is another thread. -/
theorem watchWake (d j : Nat) : Keeps c i s (s.watchWake d j) := by
  constructor
  intro ready
  have h : Keeps c i s (s.watchWake d j) := by
    unfold State.watchWake
    split
    · next parked _ =>
      have ne : (c, i) ≠ (d, j) := by
        rintro ⟨⟩
        rw [parked] at ready
        contradiction
      split
      · refine (((modCell d ?_ ?_).trans (writeD_ne _ _ ne)).trans ((modTh_ne _ ne).trans (modTh_ne _ ne))).trans (ready_ne ne)
        · exact fun _ => rfl
        · exact fun _ => rfl
      · exact refl
    · exact refl
  exact h.of_ready ready

/-- A reservation is lost (06 R154). -/
theorem loses (d j : Nat) : Keeps c i s (s.modTh d j fun t => { t with resv := none, resvLost := true }) := by
  by_cases h : (c, i) = (d, j)
  · cases h
    constructor
    intro _
    refine ⟨?_, none, true, s.slot_modTh_self c i _⟩
    rw [State.modTh, State.setTh, State.cell_setSlot, if_pos rfl]
    rfl
  · exact modTh_ne _ h

theorem touchWord (b : Option (Nat × Nat)) (w : Nat) : Keeps c i s (s.touchWord b w) := by
  unfold State.touchWord
  have lost : Keeps c i s (s.allSlots.foldl (fun s (d, j, y) => if y.th.resv = some w then
      (s.modTh d j fun t => { t with resv := none, resvLost := true }).watchWake d j else s) s) := by
    refine fold (fun s x => ?_) _ s
    dsimp only
    split
    · exact (loses _ _).trans (watchWake _ _)
    · exact refl
  refine lost.trans ?_
  dsimp only
  split
  · refine Keeps.trans (modCell _ ?_ ?_) (fold (fun s x => watchWake _ _) _ _)
    · exact fun _ => rfl
    · exact fun _ => rfl
  · exact refl

theorem rawWrite (b : Option (Nat × Nat)) (key n v : Nat) (tag : Bool) : Keeps c i s (s.rawWrite b key n v tag) := by
  unfold State.rawWrite
  dsimp only
  refine Keeps.trans ?_ (fold (fun _ w => touchWord b w) _ _)
  exact of_cells rfl

theorem feAgain (key n : Nat) : Keeps c i s (s.feAgain key n) := by
  refine fold ?_ _ s
  exact fun _ _ => of_cells rfl

theorem enlist (h : HeldAt) : Keeps c i s (s.enlist h) := by
  unfold State.enlist
  split <;> exact of_cells rfl

theorem holdAt (h : HeldAt) (n : Nat) : Keeps c i s (s.holdAt h n) := by
  refine (enlist h).trans ?_
  unfold State.holdAt
  dsimp only
  split <;> exact of_cells rfl

theorem ownWrite (f key n : Nat) (op : ReqOp) {now : State → State} (hn : ∀ s, Keeps c i s (now s)) : Keeps c i s (s.ownWrite f key n op now) := by
  unfold State.ownWrite
  split
  · exact (of_spends (access_spends ..)).trans (hn _)
  · refine Keeps.trans ?_ (holdAt _ _)
    exact of_cells rfl

theorem ephPut (p kind d j : Nat) (data : W64) : Keeps c i s (s.ephPut p kind d j data) := by
  unfold State.ephPut
  dsimp only
  refine setPart ?_ p _
  split
  · exact refl
  · exact ownWrite _ _ _ _ fun _ => (rawWrite ..).trans (feAgain ..)

theorem raise (f v : Nat) : Keeps c i s (s.raise f v) := by
  unfold State.raise
  dsimp only
  split <;> exact of_cells rfl

theorem ephStop (p : Nat) : Keeps c i s (s.ephStop p) := by
  unfold State.ephStop
  exact (refl.setPart p _).trans (raise 0 0)

theorem ephTake (p n : Nat) : Keeps c i s (s.ephTake p n) := by
  unfold State.ephTake
  exact (of_spends (access_spends ..)).setPart p _

theorem note (p kind d j : Nat) (data : W64) : Keeps c i s (s.note p kind d j data) := by
  unfold State.note
  split
  · exact refl
  · split
    · exact ephPut ..
    · split
      · split
        · exact ephTake ..
        · exact ephStop _
      · exact ephStop _
    · exact refl

end Keeps

/-- Only a recording writes memory when a choice is noted. -/
theorem note_mem {s : State} {p : Nat} (h : (s.part p).ephMode ≠ 1) (kind c i : Nat) (data : W64) : (s.note p kind c i data).mem = s.mem := by
  have stop : (s.ephStop p).mem = s.mem := by
    unfold State.ephStop State.raise
    dsimp only
    split <;> rfl
  have take (n : Nat) : (s.ephTake p n).mem = s.mem := by
    unfold State.ephTake
    obtain ⟨_, _, _, _, h⟩ := access_spends s (some (s.running p)) ((s.part p).ephKey n) 16 false 0
    dsimp only
    rw [h]
    rfl
  unfold State.note
  split
  · rfl
  · split
    · next e => exact absurd (BitVec.eq_of_toNat_eq e) h
    · split
      · split
        · exact take _
        · exact stop
      · exact stop
    · rfl

end Sys2Proof.Machine
end

section
/-!
PROOF. O53: the steps of a slot that are no instruction (95 Thread steps).
-/
namespace Sys2Proof.Machine
variable {s : State} {c i : Nat}

/-! ### A thread at a boundary, in no region and no pair (01 R38, R40; 06 R174, R175) -/

/-- A ready thread outside regions, pairs, handlers and packets, with no instruction to issue again. -/
structure AtRest (s : State) (c i : Nat) : Prop where
  ready : (s.slot c i).state = .ready
  pair : (s.th c i).pair = 0
  region : (s.th c i).region = none
  hnd : (s.th c i).hnd = false
  pkt : (s.th c i).pktOpen = false
  again : (s.th c i).again = false

theorem atBoundary_ready (ready : (s.slot c i).state = .ready) (again : (s.th c i).again = false) : s.atBoundary c i = true := by
  unfold State.atBoundary
  have again' : (s.slot c i).th.again = false := again
  simp only [ready, again', Bool.not_false]

/-- A ready thread leaves no instruction. -/
theorem abandon_ready (ready : (s.slot c i).state = .ready) : s.abandon c i = (s, false) := by
  unfold State.abandon
  simp only [ready]

theorem followInt_unpaired (pair : (s.th c i).pair = 0) : s.followInt c i = none := by
  unfold State.followInt
  dsimp only
  split
  · simp [pair]
  · rfl

theorem lockHolds_unpaired (pair : (s.th c i).pair = 0) : s.lockHolds c i = false := by
  unfold State.lockHolds
  simp [pair]

theorem lockInterrupt_unpaired (pair : (s.th c i).pair = 0) (kind : Nat) (gone : Bool) : s.lockInterrupt c i kind gone = s := by
  unfold State.lockInterrupt
  simp [pair]

theorem abortNoted_none (region : (s.th c i).region = none) (cause : Nat) : s.abortNoted c i cause = s := by
  unfold State.abortNoted
  simp [region]

/-- With no region to abort an interrupt only takes the reservation. -/
theorem Thread.interrupted_none {t : Thread} (region : t.region = none) (cause : Nat) :
    ∃ l, t.interrupted cause = { t with resv := none, resvLost := l } := by
  have stays : t.abortRegion 0x43 cause = t := by
    unfold Thread.abortRegion
    simp only [region]
  exact ⟨t.resvLost || t.resv.isSome, by rw [Thread.interrupted, stays]⟩

/-! ### Interrupts -/

theorem Thread.takeTimer_trapRegs (t : Thread) : t.takeTimer.trapRegs = { t.trapRegs with epc := t.pc, cause := 0x8000000000000020 } := by
  unfold Thread.takeTimer Thread.setTrapRegs Thread.trapRegs
  cases t.mode <;> simp

/-- The timer interrupt changes trap registers, its two bits and the pc only. -/
theorem Thread.takeTimer_eq (t : Thread) : ∃ ut st mt,
    t.takeTimer = { t with ut := ut, st := st, mt := mt, tie := false, tpend := false, pc := t.ivec + 12 * 17 } := by
  unfold Thread.takeTimer Thread.setTrapRegs
  cases t.mode <;> exact ⟨_, _, _, rfl⟩

theorem Thread.takeArrival_trapRegs (t : Thread) (n : Nat) :
    (t.takeArrival n).trapRegs = { t.trapRegs with epc := t.pc, cause := BitVec.ofNat 64 (0x21 + 256 * n + 2 ^ 63) } := by
  unfold Thread.takeArrival Thread.setTrapRegs Thread.trapRegs
  cases t.mode <;> simp

/-- The arrival interrupt of register n changes trap registers, the handler bit, the pc and the pending bit of n only. -/
theorem Thread.takeArrival_eq (t : Thread) (n : Nat) : ∃ ut st mt, t.takeArrival n =
    { t with ut := ut, st := st, mt := mt, hnd := true, pc := t.ivec + 12 * BitVec.ofNat 48 n, m := (t.wm n { t.rm n with pend := false }).m } := by
  unfold Thread.takeArrival Thread.setTrapRegs
  cases t.mode <;> exact ⟨_, _, _, rfl⟩

theorem timerInterrupt_quiet (q : AtRest s c i) (mode : (s.part (s.partOf c i)).ephMode ≠ 2) (tpend : (s.th c i).tpend = true) (arrival : (s.th c i).arrivalReady = false) :
    ∃ u l, exec (.timerInterrupt c i) s = .next u ∧ (¬ s.records c i → u.mem = s.mem) ∧
      u.th c i = ({ s.th c i with resv := none, resvLost := l } : Thread).takeTimer := by
  have takes : s.timerTakes c i = true := by
    unfold State.timerTakes Thread.timerReady
    dsimp only
    rw [if_neg mode, tpend, q.hnd, q.pkt]
    rfl
  obtain ⟨-, r, l, kept⟩ := (Keeps.note (s := s) (c := c) (i := i) (s.partOf c i) ephTimer c i 0).of_ready q.ready
  have kept : (s.noteTh ephTimer c i 0).th c i = { s.th c i with resv := r, resvLost := l } := congrArg Slot.th kept
  have region : ((s.noteTh ephTimer c i 0).th c i).region = none := by rw [kept]; exact q.region
  have go : exec (.timerInterrupt c i) s =
      .next ((s.noteTh ephTimer c i 0).modTh c i fun t => (t.interrupted 0x20).takeTimer) := by
    show execTimerInterrupt c i s = _
    unfold execTimerInterrupt
    simp only [atBoundary_ready q.ready q.again, followInt_unpaired q.pair, takes, lockHolds_unpaired q.pair, arrival, abandon_ready q.ready,
      lockInterrupt_unpaired q.pair, abortNoted_none region]
    rfl
  obtain ⟨l', taken⟩ := Thread.interrupted_none region 0x20
  refine ⟨_, l', go, fun h => note_mem h _ c i 0, ?_⟩
  rw [State.th_modTh_self, taken, kept]

theorem arrivalInterrupt_quiet {n : Nat} (q : AtRest s c i) (mie : (s.th c i).mie = true) (imask : (s.th c i).imask = false) (low : (s.th c i).lowPend = some n) :
    ∃ u l, exec (.arrivalInterrupt c i) s = .next u ∧ u.mem = s.mem ∧
      u.th c i = ({ s.th c i with resv := none, resvLost := l } : Thread).takeArrival n := by
  have arrival : (s.th c i).arrivalReady = true := by
    unfold Thread.arrivalReady
    simp [mie, imask, q.hnd, q.pkt, low]
  have go : exec (.arrivalInterrupt c i) s = .next (s.modTh c i fun t => (t.interrupted 0x21).takeArrival n) := by
    show execArrivalInterrupt c i s = _
    unfold execArrivalInterrupt
    simp only [atBoundary_ready q.ready q.again, followInt_unpaired q.pair, arrival, lockHolds_unpaired q.pair, abandon_ready q.ready,
      lockInterrupt_unpaired q.pair, abortNoted_none q.region, low]
    rfl
  obtain ⟨l, taken⟩ := Thread.interrupted_none q.region 0x21
  exact ⟨_, l, go, rfl, by rw [State.th_modTh_self, taken]⟩

/-! ### The timer and the masked window (01 R38, 06 R176) -/

theorem timerExpiry_due (tie : (s.th c i).tie = true) (timer : (s.th c i).timer = 0) :
    exec (.timerExpiry c i) s = .next (s.modTh c i fun x => { x with tpend := true }) := by
  show execTimerExpiry c i s = _
  simp only [execTimerExpiry, State.modTh, tie, timer, decide_true, Bool.and_self, if_true]

theorem imaskWindowEnd_due (imask : (s.th c i).imask = true) (icnt : (s.th c i).icnt = 0) :
    exec (.imaskWindowEnd c i) s = .next (s.modTh c i fun x => { x with imask := false }) := by
  show execImaskWindowEnd c i s = _
  simp only [execImaskWindowEnd, State.modTh, imask, icnt, decide_true, Bool.and_self, if_true]

/-! ### A packet on its way out (06 R172, R173) -/

/-- An open packet closes into the free closed buffer. -/
theorem Thread.closePkt_free {t : Thread} {p : Packet} (opened : t.openPkt = some p) (notClosed : t.openClosed = false) (free : t.closedPkt = none)
    (rel : t.released = []) :
    t.closePkt = { t with openPkt := none, closedPkt := some p, openClosed := false, openAfter := 0, pktCount := 0 } := by
  simp [Thread.closePkt, Thread.pktOpen, Thread.shiftPkt, opened, notClosed, free, rel]

/-- A packet that has closed is dated, and is the thread's next. -/
theorem State.closing_some (was : Bool) (h : (s.th c i).closedPkt.isSome = true) :
    ((s.closing c i was).th c i) = (s.th c i).stampPkts s.nextId ∧ (s.closing c i was).mem = s.mem := by
  have offered (t : State) : (t.offer c i).th c i = t.th c i ∧ (t.offer c i).mem = t.mem := by
    unfold State.offer
    split <;> exact ⟨rfl, rfl⟩
  unfold State.closing
  rw [if_pos h]
  dsimp only
  split
  · exact ⟨State.th_modTh_self .., rfl⟩
  · exact ⟨(offered _).1.trans (State.th_modTh_self ..), (offered _).2⟩

theorem packetCountClose_due {p : Packet} (opened : (s.th c i).openPkt = some p) (notClosed : (s.th c i).openClosed = false)
    (count : 64 ≤ (s.th c i).pktCount) (free : (s.th c i).closedPkt = none) (rel : (s.th c i).released = []) :
    ∃ u : State, exec (.packetCountClose c i) s = .next u ∧ (u.th c i).openPkt = none ∧ (u.th c i).closedPkt.map (·.words) = some p.words ∧
      u.mem = s.mem := by
  have isOpen : (s.th c i).pktOpen = true := by simp [Thread.pktOpen, opened, notClosed]
  have closes := Thread.closePkt_free opened notClosed free rel
  have go : exec (.packetCountClose c i) s = .next ((s.setTh c i (s.th c i).closePkt).closing c i (s.th c i).closedPkt.isSome) := by
    show execPacketCountClose c i s = _
    simp only [execPacketCountClose, isOpen, count, decide_true, Bool.and_self, if_true]
  have closed := State.closing_some (s := s.setTh c i (s.th c i).closePkt) (c := c) (i := i) (s.th c i).closedPkt.isSome
    (by rw [State.th_setTh_self, closes]; rfl)
  refine ⟨_, go, ?_, ?_, closed.2⟩
  · rw [closed.1, State.th_setTh_self, closes]
    rfl
  · rw [closed.1, State.th_setTh_self, closes]
    show some (p.stamp _).words = some p.words
    unfold Packet.stamp
    split <;> rfl

/-- The state that has given a packet its number, and the packet as it is then offered for the first time. -/
def State.numbered (s : State) : State := { s with nextId := s.nextId + 1 }
def State.firstOffer (s : State) (c i : Nat) (p : Packet) : HeldPkt :=
  { fromCell := c, fromSlot := i, slot := p.slot, pkt := { p with id := s.nextId }, fn := s.threadFn c i }

section
variable {p : Packet} (closed : (s.th c i).closedPkt = some p) (earlier : s.earlier c i p.after = false) (new : p.id = 0)
include closed earlier new

/-- The network takes the packet, and the thread's released ones follow. -/
theorem tryEnter_accepted {u : State} (accepted : s.numbered.accept (s.firstOffer c i p) = some u) (next : (u.th c i).openClosed = false) :
    s.tryEnter c i = (u.setTh c i { u.th c i with closedPkt := none }.shiftPkt).shiftReleased c i := by
  have left : ({ u.th c i with closedPkt := none } : Thread).shiftPkt = { u.th c i with closedPkt := none } := by simp [Thread.shiftPkt, next]
  have fn : s.numbered.threadFn c i = s.threadFn c i := rfl
  unfold State.numbered State.firstOffer at *
  unfold State.tryEnter
  simp only [closed, earlier, new, if_true, fn, accepted, left]
  rfl

/-- The receiver cannot take the packet, which is offered again 8 cycles on. -/
theorem tryEnter_refused (refused : s.numbered.accept (s.firstOffer c i p) = none) :
    s.tryEnter c i =
      (s.numbered.setTh c i { s.th c i with closedPkt := some { p with id := s.nextId } }).dueAt (s.cycle + 8) (.packetReoffer s.nextId) := by
  have fn : s.numbered.threadFn c i = s.threadFn c i := rfl
  unfold State.numbered State.firstOffer at *
  unfold State.tryEnter
  simp only [closed, earlier, new, if_true, fn, refused]
  rfl

end

/-- A slot with a free holding place takes the packet into it, and no thread changes. -/
theorem accept_place {h : HeldPkt} (free : ((s.cell h.pkt.cell).held.filter (·.slot = h.slot)).length < 4) : ∃ y, s.accept h = some y ∧
    (y.cell h.pkt.cell).held = (s.cell h.pkt.cell).held ++ [h] ∧ ∀ d j, y.th d j = s.th d j := by
  refine ⟨_, if_pos free, ?_, fun d j => ?_⟩
  · exact congrArg Cell.held (s.cell_setCell_self h.pkt.cell _)
  · exact congrArg Slot.th (s.slot_modCell h.pkt.cell (g := fun x => { x with held := x.held ++ [h] }) (fun _ => rfl) d j)

/-- The packet is offered again from the one slot that holds it. -/
theorem packetReoffer_closed {p : Packet} (closed : (s.th c i).closedPkt = some p)
    (only : ∀ d j y, (d, j, y) ∈ s.allSlots → y.th.closedPkt.map (·.id) = some p.id → (d, j) = (c, i)) (listed : (c, i, s.slot c i) ∈ s.allSlots) :
    exec (.packetReoffer p.id) s = .next (s.tryEnter c i) := by
  show execPacketReoffer p.id s = _
  unfold execPacketReoffer
  split
  · next d j y found =>
    have at_ : (d, j) = (c, i) := only d j y (List.mem_of_find?_eq_some found) (by simpa using List.find?_some found)
    cases at_
    rfl
  · next none_ =>
    have here := List.find?_eq_none.mp none_ _ listed
    have closed' : (s.slot c i).th.closedPkt = some p := closed
    simp [closed'] at here

/-! ### A packet that lands (06 R172; 10 R300) -/

/-- A message register after a packet's words: as it was if no word names it, else filled with the value of one that does. -/
theorem rm_fold_fill (int : Option Nat) (words : List (Nat × W64)) (t : Thread) (n : Nat) :
    let u := words.foldl (fun t (k, v) => t.wm k ⟨v, true, (t.rm k).pend || int = some k⟩) t
    ((∀ v, (n, v) ∉ words) ∧ u.rm n = t.rm n) ∨ ∃ v, (n, v) ∈ words ∧ u.rm n = ⟨v, true, (t.rm n).pend || int = some n⟩ := by
  induction words generalizing t with
  | nil => exact .inl ⟨fun _ => List.not_mem_nil, rfl⟩
  | cons x words ih =>
    obtain ⟨k, v⟩ := x
    rw [List.foldl_cons]
    by_cases here : n = k
    · subst here
      rcases ih (t.wm n ⟨v, true, (t.rm n).pend || int = some n⟩) with ⟨-, same⟩ | ⟨w, mem, eq⟩
      · exact .inr ⟨v, List.mem_cons_self, same.trans (Thread.rm_wm_self ..)⟩
      · refine .inr ⟨w, List.mem_cons_of_mem _ mem, eq.trans ?_⟩
        rw [Thread.rm_wm_self, Bool.or_assoc, Bool.or_self]
    · have other := t.rm_wm_ne ⟨v, true, (t.rm k).pend || int = some k⟩ here
      rcases ih (t.wm k ⟨v, true, (t.rm k).pend || int = some k⟩) with ⟨out, same⟩ | ⟨w, mem, eq⟩
      · refine .inl ⟨fun w h => ?_, same.trans other⟩
        rcases List.mem_cons.mp h with e | h
        · exact here (congrArg Prod.fst e)
        · exact out w h
      · exact .inr ⟨w, List.mem_cons_of_mem _ mem, eq.trans (by rw [other])⟩

theorem rm_fill (p : Packet) (t : Thread) (n : Nat) :
    ((∀ v, (n, v) ∉ p.words) ∧ (p.fill t).rm n = t.rm n) ∨ ∃ v, (n, v) ∈ p.words ∧ (p.fill t).rm n = ⟨v, true, (t.rm n).pend || p.int = some n⟩ :=
  rm_fold_fill p.int p.words t n

/-- The state in which a held packet, and the rope command that it ends, is held no longer. -/
def State.unheld (s : State) (c : Nat) (h : HeldPkt) : State :=
  let s := s.modCell c fun x => { x with held := x.held.filter fun y => y.pkt.id != h.pkt.id }
  { s with cmds := s.cmds.filter fun x => x.2.pkt != h.pkt.id }

theorem unheld_cell (h : HeldPkt) : (s.unheld c h).cell c = { s.cell c with held := (s.cell c).held.filter fun y => y.pkt.id != h.pkt.id } :=
  s.cell_setCell_self c _

theorem unheld_slot (h : HeldPkt) (d j : Nat) : (s.unheld c h).slot d j = s.slot d j :=
  s.slot_modCell c (g := fun x => { x with held := x.held.filter fun y => y.pkt.id != h.pkt.id }) (fun _ => rfl) d j

theorem unheld_switchedOut (h : HeldPkt) (fn : Option Nat) : (s.unheld c h).switchedOut c fn i = s.switchedOut c fn i := by
  have tenant (p : Nat) : (s.unheld c h).slotTenant p c i = s.slotTenant p c i := by
    unfold State.slotTenant
    rw [unheld_cell]
    rfl
  unfold State.switchedOut
  simp only [tenant]
  rfl

/-- A ready thread waits for no message. -/
theorem arrived_ready (ready : (s.slot c i).state = .ready) (p : Packet) : s.arrived c i p = s := by
  unfold State.arrived
  simp only [ready]

/-- A landing for a ready thread notes its sender and fills the registers. -/
theorem land_ready {h : HeldPkt} (ready : (s.slot c h.slot).state = .ready) (here : s.switchedOut c h.fn h.slot = false) :
    s.land c h = (((s.unheld c h).noteTh ephLand c h.slot h.source).modTh c h.slot h.pkt.fill).arrived c h.slot h.pkt := by
  have here1 : (s.unheld c h).switchedOut c h.fn h.slot = false := by rw [unheld_switchedOut, here]
  have ready1 : ((s.unheld c h).slot c h.slot).state = .ready := by rw [unheld_slot, ready]
  unfold State.unheld at *
  unfold State.land
  dsimp only at *
  simp only [here1, ready1, Bool.false_eq_true, if_false]

/-- The packet is taken from its cell, and the thread's registers are as its words fill them. -/
theorem land_ready_regs {h : HeldPkt} (ready : (s.slot c h.slot).state = .ready) (here : s.switchedOut c h.fn h.slot = false) :
    (¬ s.records c h.slot → (s.land c h).mem = s.mem) ∧ (∀ x ∈ ((s.land c h).cell c).held, x.pkt.id ≠ h.pkt.id) ∧
      ∃ r l, (s.land c h).th c h.slot = h.pkt.fill { s.th c h.slot with resv := r, resvLost := l } := by
  have ready1 : ((s.unheld c h).slot c h.slot).state = .ready := by rw [unheld_slot, ready]
  obtain ⟨held, r, l, kept⟩ := (Keeps.note (s := s.unheld c h) (c := c) (i := h.slot) ((s.unheld c h).partOf c h.slot) ephLand c h.slot
    h.source).of_ready ready1
  have memory : ¬ s.records c h.slot → ((s.unheld c h).noteTh ephLand c h.slot h.source).mem = s.mem := fun h1 => by
    have mode : ((s.unheld c h).part ((s.unheld c h).partOf c h.slot)).ephMode ≠ 1 := by
      rw [State.partOf, unheld_slot]
      exact h1
    exact note_mem mode ..
  rw [land_ready ready here]
  unfold State.noteTh at *
  generalize (s.unheld c h).note ((s.unheld c h).partOf c h.slot) ephLand c h.slot h.source = noted at *
  have fills : ((noted.modTh c h.slot h.pkt.fill).slot c h.slot).state = .ready := by
    rw [State.slot_modTh_self, kept]
    exact ready1
  have th : noted.th c h.slot = { s.th c h.slot with resv := r, resvLost := l } := by
    rw [State.th, kept, State.th, unheld_slot]
    rfl
  rw [arrived_ready fills h.pkt]
  refine ⟨memory, fun x hx => ?_, r, l, by rw [State.th_modTh_self, th]⟩
  rw [State.modTh, State.setTh, State.cell_setSlot, if_pos rfl] at hx
  have hx' : x ∈ (noted.cell c).held := hx
  rw [held, unheld_cell] at hx'
  simpa using (List.mem_filter.mp hx').2

/-- A packet that can land fills exactly the registers that its words name. -/
theorem packetLanding_ready {h : HeldPkt} (held : s.heldAt h.pkt.id = some (c, h)) (lands : s.canLand c h = true) (slot : h.slot = i)
    (ready : (s.slot c i).state = .ready) (here : s.switchedOut c h.fn i = false) :
    ∃ u : State, exec (.packetLanding h.pkt.id) s = .next u ∧ (¬ s.records c i → u.mem = s.mem) ∧ (∀ x ∈ (u.cell c).held, x.pkt.id ≠ h.pkt.id) ∧
      (∀ n v, (n, v) ∈ h.pkt.words → (∀ v', (n, v') ∈ h.pkt.words → v' = v) → ((u.th c i).rm n).full = true ∧ ((u.th c i).rm n).val = v) ∧
      (∀ n, h.pkt.int = some n → (∃ v, (n, v) ∈ h.pkt.words) → ((u.th c i).rm n).pend = true) ∧
      (∀ n, (∀ v, (n, v) ∉ h.pkt.words) → (u.th c i).rm n = (s.th c i).rm n) := by
  subst slot
  have go : exec (.packetLanding h.pkt.id) s = .next (s.land c h) := by
    show execPacketLanding h.pkt.id s = _
    simp only [execPacketLanding, State.landOrHold, held, lands, if_true]
  obtain ⟨memory, gone, r, l, th⟩ := land_ready_regs ready here
  refine ⟨_, go, memory, gone, fun n v mem only => ?_, fun n int named => ?_, fun n out => ?_⟩
  all_goals
    rw [th]
    rcases rm_fill h.pkt { s.th c h.slot with resv := r, resvLost := l } n with ⟨none_, eq⟩ | ⟨w, mem', eq⟩
  · exact absurd mem (none_ v)
  · rw [eq]
    exact ⟨rfl, only w mem'⟩
  · obtain ⟨v, mem⟩ := named
    exact absurd mem (none_ v)
  · rw [eq, int]
    simp
  · exact eq
  · exact absurd mem' (out w)

/-! ### Barriers, timeouts, checksum faults and scrubs (04 R119; 07 R195, R203, R213; 20 R418) -/

theorem barArrivalCount_one {fn n k : Nat} (one : s.arrivals = [⟨c, i, fn, n, k⟩]) (sliced : s.slicedAt c = none) :
    (s.earlierOf c i fn k = false → exec (.barArrivalCount c i) s =
      .next (({ s with arrivals := [] } : State).modCell c fun x => x.setBar n ((x.bar n).count 1 0))) ∧
    (s.earlierOf c i fn k = true → exec (.barArrivalCount c i) s = .next (s.dueLater (.barCount c i))) := by
  have sliced' : ({ s with arrivals := [] } : State).slicedAt c = none := sliced
  have unchanged : ({ s with arrivals := [⟨c, i, fn, n, k⟩] } : State) = s := by rw [← one]
  refine ⟨fun h => ?_, fun h => ?_⟩ <;> show execBarArrivalCount c i s = _
  · simp [execBarArrivalCount, one, h, State.modBarFor, sliced', State.modBar]
  · simp [execBarArrivalCount, one, h, unchanged]

theorem finish_ok_pairWait (s0 s : State) (c i : Nat) (opens : Bool) :
    ((finish s0 c i (.ok s) opens).th c i).pairWait = (s.th c i).pairWait := by
  obtain ⟨_, _, _, _, _, _, _, _, _, h⟩ := Thread.counted_advance_paces (s.th c i) opens
  rw [finish_ok_th, h]

theorem writeD_pairWait (o : Opnd) (v : W64) : ((s.writeD c i o v).th c i).pairWait = (s.th c i).pairWait := by
  cases o with
  | s n => simp [State.writeD]
  | m n => simp [State.writeD]
  | k n => simp [State.writeD, State.th]
  | v n => rfl
  | p n => rfl
  | imm x => rfl

/-- A pair function that ends empties the message registers that it reads and waits no longer. -/
theorem pairDone_start (ms : List Nat) (t : Thread) :
    ∃ m, ms.foldl (fun t k => t.wm k { t.rm k with full := false }) { t with pairWait := none } = { t with m := m, pairWait := none } := by
  suffices h : ∀ u : Thread, ∃ m, ms.foldl (fun t k => t.wm k { t.rm k with full := false }) u = { u with m := m } from h _
  induction ms with
  | nil => exact fun u => ⟨u.m, rfl⟩
  | cons k ms ih =>
    intro u
    obtain ⟨m, eq⟩ := ih (u.wm k { u.rm k with full := false })
    exact ⟨m, by rw [List.foldl_cons, eq]; rfl⟩

theorem pairTimeout_due {w : PairWait} (waits : (s.slot c i).pairWaits = some w) (late : w.first + w.limit ≤ s.cycle) :
    ∃ u : State, exec (.pairTimeout c i) s = .next u ∧ (u.th c i).pairWait = none ∧
      (∀ k : BitVec 6, w.d = .s k → k ≠ 0 → ((u.th c i).rs k.toNat).data = 2) ∧ (u.th c i).retired = (s.th c i).retired + 1 ∧ u.mem = s.mem := by
  have go : exec (.pairTimeout c i) s = .next (s.pairDone c i w.ms w.d 2) := by
    show execPairTimeout c i s = _
    simp only [execPairTimeout, waits, late, if_true]
  obtain ⟨m, start⟩ := pairDone_start w.ms (s.th c i)
  have done : ∃ s1, s1.th c i = { s.th c i with m := m, pairWait := none } ∧ s1.mem = s.mem ∧
      s.pairDone c i w.ms w.d 2 = finish s1 c i (.ok (s1.writeD c i w.d 2)) := ⟨_, (s.th_modTh_self c i _).trans start, rfl, rfl⟩
  obtain ⟨s1, th1, mem1, done⟩ := done
  have write := DestOnly.writeD w.d c i 2 s1
  have ends (d : Opnd) := DestOnly.finish d s1 (s1.writeD c i w.d 2) c i false
  rw [← done] at ends
  refine ⟨_, go, ?_, fun k hk h0 => ?_, ?_, (write.trans (ends w.d)).mem.trans mem1⟩
  · rw [done, finish_ok_pairWait, writeD_pairWait, th1]
  · have written : (s1.writeD c i w.d 2).th c i = (s1.th c i).ws k.toNat (dataReg 2) := by
      rw [hk]
      exact s1.th_modTh_self c i _
    rw [(ends (.imm 0)).thread.rs k nofun, written, Thread.rs_ws_self _ _ fun e => h0 (BitVec.eq_of_toNat_eq e)]
    rfl
  · rw [(write.trans (ends w.d)).thread.retired, th1]

theorem alignTimeout_due {w : AlignWait} (waits : (s.th c i).align = some w) (late : w.first + w.limit ≤ s.cycle)
    (ready : (s.slot c i).state = .ready) (here : w.addr = (s.th c i).pc) : ∃ u : State, exec (.alignTimeout c i) s = .next u ∧
      (u.th c i).align = none ∧ (u.th c i).retired = (s.th c i).retired + 1 ∧ (u.th c i).s = (s.th c i).s ∧ u.mem = s.mem := by
  have waitsAt : (s.slot c i).waitsAt w.cohort.toNat (s.th c i).pc = true := by
    have waits' : (s.slot c i).th.align = some w := waits
    simp [Slot.waitsAt, ready, waits', here, State.th]
  have go : exec (.alignTimeout c i) s = .next (s.alignDone c i) := by
    show execAlignTimeout c i s = _
    simp only [execAlignTimeout, waits, waitsAt, Bool.not_true, Bool.false_eq_true, if_false, late, if_true]
  obtain ⟨_, _, _, _, _, _, _, _, _, done⟩ := Thread.counted_advance_paces ({ s.th c i with align := none } : Thread) false
  have th : (s.alignDone c i).th c i = _ := (finish_ok_th s _ c i false).trans ((congrArg (fun t => (Thread.counted t false).advance)
    (s.th_modTh_self c i fun t => { t with align := none })).trans done)
  exact ⟨_, go, by rw [th], by rw [th], by rw [th], finish_ok_mem s _ c i false⟩

theorem checksumFaultTrap_due {tile st : Nat} (fault : (s.th c i).ckTrap = some (tile, st)) (ready : (s.slot c i).state = .ready)
    (again : (s.th c i).again = false) (pkt : (s.th c i).pktOpen = false) : exec (.checksumFaultTrap c i) s =
      .next (((s.abortTh c i 0x43 0x0F).modTh c i fun x => { x with ckTrap := none }).takeTrap c i ⟨0x0F, tile, BitVec.ofNat 96 st, true⟩) := by
  show execChecksumFaultTrap c i s = _
  simp only [execChecksumFaultTrap, fault, atBoundary_ready ready again, pkt, Bool.not_false, Bool.and_self, if_true, abandon_ready ready]

/-- What is left of a thread that ended reads zero. -/
theorem Thread.ended_regs (t : Thread) (n : Nat) : t.ended.rs n = {} ∧ t.ended.rv n = {} := by
  unfold Thread.ended
  dsimp only
  refine ⟨?_, rfl⟩
  unfold Thread.rs
  split <;> rfl

theorem registerScrubDone_dead (dead : (s.slot c i).state = .dead) : ∃ u : State, exec (.registerScrubDone c i) s = .next u ∧
    (u.slot c i).state = .empty ∧ (u.slot c i).bind = none ∧ (∀ n, (u.th c i).rs n = {}) ∧ (∀ n, (u.th c i).rv n = {}) ∧ u.mem = s.mem := by
  let y : Slot := { s.slot c i with state := .empty, th := (s.slot c i).th.ended, bind := none }
  have go : exec (.registerScrubDone c i) s = .next ((s.setSlot c i y).slotFreed c) := by
    show execRegisterScrubDone c i s = _
    simp only [execRegisterScrubDone, dead, if_true, y]
  have slot : ((s.setSlot c i y).slotFreed c).slot c i = y := s.slot_setSlot_self c i y
  have th : ((s.setSlot c i y).slotFreed c).th c i = (s.slot c i).th.ended := congrArg Slot.th slot
  refine ⟨_, go, by rw [slot], by rw [slot], fun n => ?_, fun n => ?_, rfl⟩
  · rw [th]
    exact (Thread.ended_regs _ n).1
  · rw [th]
    exact (Thread.ended_regs _ n).2

/-! ### The statement -/

/-- Settles O53: each event of a slot does what its lemma above says. -/
theorem threadEvents : Obligations.ThreadEvents := by
  unfold Obligations.ThreadEvents
  intro s c i t quiet
  have rest (q : quiet) : AtRest s c i := by
    obtain ⟨ready, pair, region, hnd, pkt, again⟩ := q
    exact ⟨ready, pair, region, hnd, pkt, again⟩
  refine ⟨fun q mode tpend arrival => ?_, fun n _ q mie imask low => ?_, timerExpiry_due, imaskWindowEnd_due, fun p => packetCountClose_due,
    fun p u closed earlier new notClosed => ⟨fun accepted next => ?_, fun free => ?_, fun refused => ?_⟩, fun p => packetReoffer_closed,
    fun h => packetLanding_ready, fun fn n k => barArrivalCount_one, fun w => pairTimeout_due, fun w => alignTimeout_due,
    fun tile st => checksumFaultTrap_due, registerScrubDone_dead⟩
  · obtain ⟨u, l, go, mem, th⟩ := timerInterrupt_quiet (rest q) mode tpend arrival
    obtain ⟨ut, st, mt, taken⟩ := Thread.takeTimer_eq { s.th c i with resv := none, resvLost := l }
    refine ⟨u, go, mem, by rw [th, Thread.takeTimer_trapRegs]; rfl, ?_⟩
    rw [th, taken]
    exact ⟨rfl, rfl, rfl, rfl, rfl, rfl⟩
  · obtain ⟨u, l, go, mem, th⟩ := arrivalInterrupt_quiet (rest q) mie imask low
    obtain ⟨ut, st, mt, taken⟩ := Thread.takeArrival_eq { s.th c i with resv := none, resvLost := l } n
    refine ⟨u, go, mem, by rw [th, Thread.takeArrival_trapRegs]; rfl, ?_⟩
    rw [th, taken]
    exact ⟨rfl, (s.th c i).rm_wm_self n _, rfl, rfl, rfl⟩
  · exact congrArg _ (tryEnter_accepted closed earlier new accepted next)
  · obtain ⟨y, accepted, held, th⟩ := accept_place (s := s.numbered) (h := s.firstOffer c i p) free
    exact ⟨y, accepted, held, (congrArg Thread.openClosed (th c i)).trans notClosed⟩
  · exact congrArg _ (tryEnter_refused closed earlier new refused)

end Sys2Proof.Machine
end

section
/-!
PROOF. The magnitudes of a format's bit patterns, and the roundings to a grid of them (02 R46, R47).
-/
namespace Sys2Proof.Machine

/-! ### Rounding to a grid -/

/-- The roundings that take a value of sign `neg` toward zero. -/
abbrev TowardZero (rnd : Nat) (neg : Bool) : Prop := rnd = 1 ∨ rnd = (if neg then 2 else 3)

/-- `le` and `ge` compare one magnitude with the numbers of half units: `le k` says that k half units are at most it, `ge k` that they are at
least it. -/
structure Cut (le ge : Nat → Prop) : Prop where
  le_mono {j k : Nat} : j ≤ k → le k → le j
  ge_mono {j k : Nat} : j ≤ k → ge j → ge k
  not_ge {j k : Nat} : j < k → le k → ¬ ge j

/-- `y` is the place in the increasing grid `g`, in units, to which a rounding takes a magnitude; a tie goes to the even place. -/
inductive GridRounds (g : Nat → Nat) (rnd : Nat) (neg : Bool) (le ge : Nat → Prop) (y : Nat) : Prop where
  | nearest (near : rnd = 0) (above : ge (g y + g (y + 1)) ∧ (y % 2 = 1 → ¬ le (g y + g (y + 1))))
      (below : 0 < y → le (g (y - 1) + g y) ∧ (y % 2 = 1 → ¬ ge (g (y - 1) + g y)))
  | toward (near : rnd ≠ 0) (zero : TowardZero rnd neg) (atMost : le (2 * g y)) (above : ¬ le (2 * g (y + 1)))
  | away (near : rnd ≠ 0) (zero : ¬ TowardZero rnd neg) (atLeast : ge (2 * g y)) (below : 0 < y → ¬ ge (2 * g (y - 1)))

section
variable {g g' : Nat → Nat} {rnd y y' : Nat} {neg : Bool} {le ge : Nat → Prop}

/-- A rounding stays right in a finer grid that has the place itself, no place in the gap above it, and none in the gap below it unless the
value lies at or above the place. -/
theorem GridRounds.refine (cut : Cut le ge) (h : GridRounds g rnd neg le ge y) (place : g' y' = g y) (parity : y' % 2 = y % 2)
    (gapAbove : g (y + 1) ≤ g' (y' + 1))
    (gapBelow : 0 < y' → (0 < y ∧ g' (y' - 1) ≤ g (y - 1)) ∨ (le (2 * g y) ∧ g' (y' - 1) < g y)) : GridRounds g' rnd neg le ge y' := by
  obtain ⟨near, ⟨above, aboveOdd⟩, below⟩ | ⟨near, zero, atMost, above⟩ | ⟨near, zero, atLeast, below⟩ := h
  · refine .nearest near ?_ fun pos => ?_ <;> rw [place, parity]
    · exact ⟨cut.ge_mono (by omega) above, fun odd h => aboveOdd odd (cut.le_mono (by omega) h)⟩
    · obtain ⟨pos', gap⟩ | ⟨le, lt⟩ := gapBelow pos
      · obtain ⟨below, belowOdd⟩ := below pos'
        exact ⟨cut.le_mono (by omega) below, fun odd h => belowOdd odd (cut.ge_mono (by omega) h)⟩
      · exact ⟨cut.le_mono (by omega) le, fun _ => cut.not_ge (by omega) le⟩
  · refine .toward near zero (by rwa [place]) fun h => above (cut.le_mono (by omega) h)
  · refine .away near zero (by rwa [place]) fun pos => ?_
    obtain ⟨pos', gap⟩ | ⟨le, lt⟩ := gapBelow pos
    · exact fun h => below pos' (cut.ge_mono (by omega) h)
    · exact cut.not_ge (by omega) le

end

/-! ### Magnitudes -/

namespace Fmt
variable {t : Fmt}

/-- The sizes of the formats of the scalar functions lie in these bounds. -/
structure Sized (t : Fmt) : Prop where
  eb_pos : 0 < t.eb
  mb_pos : 0 < t.mb
  mb_le : t.mb ≤ 52

theorem sized_of_mem (h : t ∈ ([⟨5, 10⟩, ⟨8, 7⟩, ⟨8, 23⟩, ⟨11, 52⟩] : List Fmt)) : t.Sized := by
  simp only [List.mem_cons, List.not_mem_nil, or_false] at h
  rcases h with rfl | rfl | rfl | rfl <;> exact ⟨by decide, by decide, by decide⟩

/-- A power of two of positive exponent is even. -/
theorem two_pow_even {n : Nat} (pos : 0 < n) : 2 ^ n % 2 = 0 :=
  Nat.mod_eq_zero_of_dvd ⟨2 ^ (n - 1), by rw [← Nat.pow_succ', Nat.succ_eq_add_one, Nat.sub_add_cancel pos]⟩

/-- In the binade of 2^E units, the significand `n` stands at the place E × 2^mb + n, also when it is carried to 2^(mb + 1). -/
theorem mag_binade {E n : Nat} (normal : E = 0 ∨ 2 ^ t.mb ≤ n) (le : n ≤ 2 ^ (t.mb + 1)) : t.mag (E * 2 ^ t.mb + n) = n * 2 ^ E := by
  have pos : 0 < 2 ^ t.mb := Nat.two_pow_pos t.mb
  rw [Nat.pow_succ] at le
  unfold mag
  generalize 2 ^ t.mb = P at *
  by_cases small : n < P
  · obtain rfl : E = 0 := by omega
    rw [Nat.zero_mul, Nat.zero_add, if_pos (Nat.div_eq_of_lt small), Nat.pow_zero, Nat.mul_one]
  · obtain ⟨r, rfl⟩ := Nat.exists_eq_add_of_le (Nat.not_lt.mp small)
    have split : E * P + (P + r) = r + (E + 1) * P := by have := Nat.add_one_mul E P; omega
    have later : r / P + (E + 1) ≠ 0 := Nat.succ_ne_zero _
    rw [split, Nat.add_mul_div_right _ _ pos, Nat.add_mul_mod_self_right, if_neg later]
    by_cases normal : r < P
    · rw [Nat.div_eq_of_lt normal, Nat.mod_eq_of_lt normal, Nat.zero_add, Nat.add_sub_cancel]
    · obtain rfl : r = P := by omega
      have carried : 1 + (E + 1) - 1 = E + 1 := by omega
      rw [Nat.div_self pos, Nat.mod_self, carried, Nat.pow_succ, Nat.add_zero, Nat.mul_comm (2 ^ E), ← Nat.mul_assoc, Nat.mul_two]

/-- Each place stands in a binade with a significand below 2^(mb + 1). -/
theorem exists_binade (t : Fmt) (y : Nat) : ∃ n, y = (y / 2 ^ t.mb - 1) * 2 ^ t.mb + n ∧
    (y / 2 ^ t.mb - 1 = 0 ∨ 2 ^ t.mb ≤ n) ∧ n < 2 ^ (t.mb + 1) := by
  have lt := Nat.mod_lt y (Nat.two_pow_pos t.mb)
  have eq := Nat.div_add_mod' y (2 ^ t.mb)
  rw [Nat.pow_succ]
  generalize 2 ^ t.mb = P at *
  generalize y % P = r at *
  cases h : y / P with
  | zero =>
    rw [h, Nat.zero_mul] at eq
    rw [Nat.zero_sub, Nat.zero_mul]
    exact ⟨y, by omega, .inl rfl, by omega⟩
  | succ E =>
    rw [h, Nat.add_mul] at eq
    rw [Nat.add_sub_cancel]
    exact ⟨P + r, by omega, .inr (by omega), by omega⟩

theorem mag_succ (t : Fmt) (y : Nat) : t.mag (y + 1) = t.mag y + 2 ^ (y / 2 ^ t.mb - 1) := by
  obtain ⟨n, eq, normal, lt⟩ := t.exists_binade y
  generalize y / 2 ^ t.mb - 1 = E at *
  rw [eq, Nat.add_assoc, mag_binade (by omega) lt, mag_binade normal (Nat.le_of_lt lt), Nat.succ_mul]

theorem mag_lt {y z : Nat} (h : y < z) : t.mag y < t.mag z := by
  induction h with
  | refl => exact Nat.lt_of_lt_of_eq (Nat.lt_add_of_pos_right (Nat.two_pow_pos _)) (t.mag_succ y).symm
  | step _ ih => exact Nat.lt_of_lt_of_le ih (Nat.le_trans (Nat.le_add_right _ _) (Nat.le_of_eq (t.mag_succ _).symm))

theorem mag_le {y z : Nat} (h : y ≤ z) : t.mag y ≤ t.mag z := by
  obtain rfl | lt := Nat.eq_or_lt_of_le h
  · exact Nat.le_refl _
  · exact Nat.le_of_lt (mag_lt lt)

/-- The gap above a place of the binade E or a higher one. -/
theorem mag_gap {E y : Nat} (h : E = 0 ∨ (E + 1) * 2 ^ t.mb ≤ y) : t.mag y + 2 ^ E ≤ t.mag (y + 1) := by
  rw [mag_succ]
  refine Nat.add_le_add_left (Nat.pow_le_pow_right Nat.two_pos ?_) _
  obtain rfl | h := h
  · exact Nat.zero_le _
  · have := (Nat.le_div_iff_mul_le (Nat.two_pow_pos t.mb)).mpr h
    omega

/-- A significand rounded in units of its binade is the value rounded to the grid of all magnitudes. -/
theorem gridRounds_mag {rnd : Nat} {neg : Bool} {le ge : Nat → Prop} {E n : Nat} (size : t.Sized) (cut : Cut le ge)
    (h : GridRounds (fun k => k * 2 ^ E) rnd neg le ge n) (normal : E = 0 ∨ (2 ^ t.mb ≤ n ∧ le (2 * (2 ^ t.mb * 2 ^ E))))
    (carry : n ≤ 2 ^ (t.mb + 1)) : GridRounds t.mag rnd neg le ge (E * 2 ^ t.mb + n) := by
  have place := mag_binade (normal.imp_right And.left) carry
  have even := two_pow_even size.mb_pos
  refine h.refine cut place ?_ ?_ fun pos => ?_
  · rw [Nat.add_mod, Nat.mul_mod, even, Nat.mul_zero, Nat.zero_mod, Nat.zero_add, Nat.mod_mod]
  · have gap := mag_gap (t := t) (E := E) (y := E * 2 ^ t.mb + n) (normal.imp_right fun h => by rw [Nat.add_mul]; omega)
    rwa [place, ← Nat.succ_mul] at gap
  · by_cases first : E ≠ 0 ∧ n = 2 ^ t.mb
    · obtain ⟨notZero, rfl⟩ := first
      exact .inr ⟨(normal.resolve_left notZero).2, place ▸ mag_lt (Nat.sub_one_lt_of_lt pos)⟩
    · have pos : 0 < n := by
        obtain rfl | ⟨le, -⟩ := normal
        · omega
        · exact Nat.lt_of_lt_of_le (Nat.two_pow_pos t.mb) le
      have step : E * 2 ^ t.mb + n - 1 = E * 2 ^ t.mb + (n - 1) := by omega
      refine .inl ⟨pos, Nat.le_of_eq ?_⟩
      rw [step, mag_binade (by omega) (by omega)]

/-! ### Results beyond the largest finite value -/

theorem Sized.infBits_pos (size : t.Sized) : 0 < t.infBits := by
  have := Nat.one_lt_two_pow (Nat.ne_of_gt size.eb_pos)
  exact Nat.mul_pos (by omega) (Nat.two_pow_pos _)

theorem Sized.infBits_even (size : t.Sized) : t.infBits % 2 = 0 := by
  rw [infBits, Nat.mul_mod, two_pow_even size.mb_pos, Nat.mul_zero, Nat.zero_mod]

theorem signBit_eq (t : Fmt) : 2 ^ (t.width - 1) = t.signBit := by
  have bits : t.width - 1 = t.eb + t.mb := by unfold width; omega
  rw [bits, signBit]

theorem infBits_lt_signBit (t : Fmt) : t.infBits < t.signBit := by
  rw [infBits, signBit, Nat.pow_add]
  exact Nat.mul_lt_mul_of_pos_right (Nat.sub_lt (Nat.two_pow_pos _) Nat.one_pos) (Nat.two_pow_pos _)

section
variable {rnd y : Nat} {neg : Bool} {le ge : Nat → Prop}

/-- A place below the infinity is the result. -/
theorem rounds_of_lt (h : GridRounds t.mag rnd neg le ge y) (lt : y < t.infBits) :
    t.Rounds rnd neg le ge ((if neg then t.signBit else 0) + y) := by
  refine ⟨y, by rw [signBit_eq], Nat.le_of_lt lt, ?_⟩
  dsimp only
  obtain ⟨near, above, below⟩ | ⟨near, zero, atMost, above⟩ | ⟨near, zero, atLeast, below⟩ := h
  · rw [if_pos near]
    refine ⟨fun _ => above, fun pos => ?_⟩
    rw [Nat.sub_add_cancel pos]
    exact below pos
  · rw [if_neg near, if_pos zero]
    exact ⟨lt, atMost, fun _ => above⟩
  · rw [if_neg near, if_neg zero]
    exact ⟨fun _ => atLeast, below⟩

/-- A place at the infinity or above it gives the infinity, unless the rounding is toward zero. -/
theorem rounds_infBits (size : t.Sized) (cut : Cut le ge) (h : GridRounds t.mag rnd neg le ge y) (reach : t.infBits ≤ y)
    (notZero : ¬ TowardZero rnd neg) : t.Rounds rnd neg le ge ((if neg then t.signBit else 0) + t.infBits) := by
  have pos := size.infBits_pos
  have even := size.infBits_even
  have atInf : t.mag t.infBits ≤ t.mag y := mag_le reach
  have under : t.mag (t.infBits - 1) ≤ t.mag (y - 1) := mag_le (Nat.sub_le_sub_right reach 1)
  refine ⟨t.infBits, by rw [signBit_eq], Nat.le_refl _, ?_⟩
  dsimp only
  obtain ⟨near, -, below⟩ | ⟨near, zero, -, -⟩ | ⟨near, zero, -, below⟩ := h
  · rw [if_pos near]
    refine ⟨fun lt => absurd lt (Nat.lt_irrefl _), fun _ => ⟨?_, fun odd => by omega⟩⟩
    rw [Nat.sub_add_cancel pos]
    exact cut.le_mono (Nat.add_le_add under atInf) (below (by omega)).1
  · exact absurd zero notZero
  · rw [if_neg near, if_neg zero]
    exact ⟨fun lt => absurd lt (Nat.lt_irrefl _), fun _ h => below (by omega) (cut.ge_mono (by omega) h)⟩

/-- Toward zero, a place at the infinity or above it gives the largest finite value, and the value lies above that. -/
theorem rounds_maxFinite (size : t.Sized) (cut : Cut le ge) (h : GridRounds t.mag rnd neg le ge y) (reach : t.infBits ≤ y)
    (zero : TowardZero rnd neg) : t.Rounds rnd neg le ge ((if neg then t.signBit else 0) + (t.infBits - 1)) ∧
      ¬ ge (2 * t.mag (t.infBits - 1)) := by
  have pos := size.infBits_pos
  have under : t.mag (t.infBits - 1) < t.mag y := mag_lt (by omega)
  obtain ⟨near, -, -⟩ | ⟨near, -, atMost, -⟩ | ⟨-, notZero, -, -⟩ := h
  · exact absurd zero (by subst near; cases neg <;> decide)
  · refine ⟨⟨t.infBits - 1, by rw [signBit_eq], Nat.sub_le _ _, ?_⟩, cut.not_ge (by omega) atMost⟩
    dsimp only
    rw [if_neg near, if_pos zero]
    exact ⟨by omega, cut.le_mono (by omega) atMost, fun h => by omega⟩
  · exact absurd zero notZero

end

end Fmt

end Sys2Proof.Machine
end

section
/-!
PROOF. The integer to which the machine rounds a quotient (02 R47).
-/
namespace Sys2Proof.Machine

/-! ### Comparison of scaled numbers -/

/-- Scaled numbers may be compared in any unit 2^u that is small enough. -/
theorem scaledLe_iff {a b : Nat} {i j : Int} (u : Int) (hi : u ≤ i) (hj : u ≤ j) :
    scaledLe a i b j ↔ a * 2 ^ (i - u).toNat ≤ b * 2 ^ (j - u).toNat := by
  have left : (i - u).toNat = (i - min i j).toNat + (min i j - u).toNat := by omega
  have right : (j - u).toNat = (j - min i j).toNat + (min i j - u).toNat := by omega
  rw [scaledLe, left, right, Nat.pow_add, Nat.pow_add, ← Nat.mul_assoc, ← Nat.mul_assoc]
  exact (Nat.mul_le_mul_right_iff (Nat.two_pow_pos _)).symm

/-! ### A quotient in quarters -/

/-- What the machine sees of the value m × 2^e, with a further fraction of a unit when `sticky`: the halves of 2^q in it, and whether there is
more; each half counts two. -/
def quarters (m : Nat) (e : Int) (sticky : Bool) (q : Int) : Nat :=
  if q ≤ e then 4 * (m * 2 ^ (e - q).toNat)
  else 2 * (m / 2 ^ ((q - e).toNat - 1)) + (m % 2 ^ ((q - e).toNat - 1) ≠ 0 || sticky).toNat

/-- The rounding of a number of quarters, and whether it is inexact: a half is a tie. -/
def roundQuarters (rnd : Nat) (neg : Bool) (w : Nat) : Nat × Bool :=
  (w / 4 + (if rnd = 0 then 2 < w % 4 || (w % 4 = 2 && w / 4 % 2 = 1) else !decide (TowardZero rnd neg) && w % 4 ≠ 0).toNat, w % 4 ≠ 0)

/-- The model tests for the roundings that do not go toward zero by name. -/
theorem toInf_iff {rnd : Nat} {neg : Bool} (rounding : rnd < 4) :
    (rnd = 0 || (rnd = 2 && !neg) || (rnd = 3 && neg)) = true ↔ ¬ TowardZero rnd neg := by
  obtain rfl | rfl | rfl | rfl : rnd = 0 ∨ rnd = 1 ∨ rnd = 2 ∨ rnd = 3 := by omega
  all_goals cases neg <;> decide

section
variable {rnd m : Nat} {neg sticky : Bool} {e q : Int}

/-- A whole number of units. -/
theorem roundQ_whole (le : q ≤ e) : roundQ rnd neg m e false q = roundQuarters rnd neg (quarters m e false q) := by
  have whole : 4 * (m * 2 ^ (e - q).toNat) % 4 = 0 := Nat.mul_mod_right 4 _
  have integer : 4 * (m * 2 ^ (e - q).toNat) / 4 = m * 2 ^ (e - q).toNat := Nat.mul_div_cancel_left _ (by decide)
  rw [roundQ, quarters, if_pos le, if_pos le, roundQuarters, whole, integer]
  by_cases near : rnd = 0 <;> simp [near]

/-- Less than a quarter of a unit. -/
theorem roundQ_small (rounding : rnd < 4) (hm : m ≠ 0) (lt : e < q) (small : Nat.log2 m + 2 < (q - e).toNat) :
    roundQ rnd neg m e sticky q = roundQuarters rnd neg (quarters m e sticky q) := by
  have bound : m < 2 ^ ((q - e).toNat - 1) :=
    Nat.lt_of_lt_of_le Nat.lt_log2_self (Nat.pow_le_pow_right Nat.two_pos (by omega))
  have one : quarters m e sticky q = 1 := by
    rw [quarters, if_neg (Int.not_le.mpr lt), Nat.div_eq_of_lt bound, Nat.mod_eq_of_lt bound]
    rw [decide_eq_true hm]
    rfl
  rw [one, roundQ, if_neg (Int.not_le.mpr lt)]
  dsimp only
  rw [if_pos small]
  obtain rfl | rfl | rfl | rfl : rnd = 0 ∨ rnd = 1 ∨ rnd = 2 ∨ rnd = 3 := by omega
  all_goals cases neg <;> simp [hm, roundQuarters, TowardZero]

/-- With `h` halves of P units and a rest of `r` units, the machine's tests are those of the quarters. -/
theorem splitRounds_eq {h r P : Nat} (rounding : rnd < 4) (rest : r < P) :
    (h / 2 + (if rnd = 0 then P < r + P * (h % 2) || (r + P * (h % 2) = P && (sticky || h / 2 % 2 = 1)) else if rnd = 1 then false
        else if rnd = 2 then (r + P * (h % 2) ≠ 0 || sticky) && !neg else (r + P * (h % 2) ≠ 0 || sticky) && neg : Bool).toNat,
      (r + P * (h % 2) ≠ 0 || sticky : Bool)) = roundQuarters rnd neg (2 * h + (r ≠ 0 || sticky : Bool).toNat) := by
  have whole (s : Bool) : (2 * h + s.toNat) / 4 = h / 2 := by cases s <;> simp only [Bool.toNat_false, Bool.toNat_true] <;> omega
  have fraction (s : Bool) : (2 * h + s.toNat) % 4 = 2 * (h % 2) + s.toNat := by cases s <;> simp only [Bool.toNat_false, Bool.toNat_true] <;> omega
  rw [roundQuarters, whole, fraction]
  obtain even | odd := Nat.mod_two_eq_zero_or_one h
  · have notMore : ¬ P < r := by omega
    have notHalf : r ≠ P := by omega
    rw [even, Nat.mul_zero, Nat.add_zero, Nat.mul_zero, Nat.zero_add]
    generalize h / 2 = n
    obtain rfl | rfl | rfl | rfl : rnd = 0 ∨ rnd = 1 ∨ rnd = 2 ∨ rnd = 3 := by omega
    all_goals cases (r ≠ 0 || sticky : Bool) <;> cases neg <;> simp [notMore, notHalf, TowardZero]
  · have more : decide (P < r + P) = decide (r ≠ 0) := decide_eq_decide.mpr (by omega)
    have half : decide (r + P = P) = !decide (r ≠ 0) := by rw [← decide_not]; exact decide_eq_decide.mpr (by omega)
    have some : decide (r + P ≠ 0) = true := decide_eq_true (by omega)
    rw [odd, Nat.mul_one, Nat.mul_one]
    simp only [more, half, some]
    generalize h / 2 = n
    generalize decide (r ≠ 0) = x
    obtain rfl | rfl | rfl | rfl : rnd = 0 ∨ rnd = 1 ∨ rnd = 2 ∨ rnd = 3 := by omega
    · cases x <;> cases sticky <;> simp
    all_goals cases x <;> cases sticky <;> cases neg <;> simp [TowardZero]

/-- The bits of `m` below a unit 2^q, and the sticky fraction below them. -/
theorem roundQ_split (rounding : rnd < 4) (lt : e < q) (large : ¬ Nat.log2 m + 2 < (q - e).toNat) :
    roundQ rnd neg m e sticky q = roundQuarters rnd neg (quarters m e sticky q) := by
  obtain ⟨k, hk⟩ : ∃ k, (q - e).toNat = k + 1 := ⟨(q - e).toNat - 1, by omega⟩
  rw [quarters, roundQ, if_neg (Int.not_le.mpr lt), if_neg (Int.not_le.mpr lt)]
  dsimp only
  rw [if_neg large, hk, Nat.add_sub_cancel]
  have high : m / 2 ^ (k + 1) = m / 2 ^ k / 2 := by rw [Nat.pow_succ, Nat.div_div_eq_div_mul]
  have low : m % 2 ^ (k + 1) = m % 2 ^ k + 2 ^ k * (m / 2 ^ k % 2) := Nat.mod_pow_succ
  have rest : m % 2 ^ k < 2 ^ k := Nat.mod_lt _ (Nat.two_pow_pos k)
  rw [high, low]
  generalize m / 2 ^ k = h at *
  generalize m % 2 ^ k = r at *
  generalize 2 ^ k = P at *
  exact splitRounds_eq rounding rest

/-- The machine rounds the quarters of the quotient. A sticky fraction needs a unit below 2^q. -/
theorem roundQ_eq (rounding : rnd < 4) (hm : m ≠ 0) (wide : sticky = true → e < q) :
    roundQ rnd neg m e sticky q = roundQuarters rnd neg (quarters m e sticky q) := by
  by_cases le : q ≤ e
  · obtain rfl : sticky = false := by
      rw [← Bool.not_eq_true]
      exact fun h => absurd (wide h) (Int.not_lt.mpr le)
    exact roundQ_whole le
  · by_cases small : Nat.log2 m + 2 < (q - e).toNat
    · exact roundQ_small rounding hm (Int.not_le.mp le) small
    · exact roundQ_split rounding (Int.not_le.mp le) small

/-- When the machine rounds `n` units and `f` quarters up. -/
theorem roundsUp_cases {n f u : Nat} (hu : u = (if rnd = 0 then 2 < f || (f = 2 && n % 2 = 1) else !decide (TowardZero rnd neg) && f ≠ 0).toNat) :
    (rnd = 0 ∧ (u = 1 ∧ (2 < f ∨ (f = 2 ∧ n % 2 = 1)) ∨ u = 0 ∧ ¬ (2 < f ∨ (f = 2 ∧ n % 2 = 1)))) ∨
    (rnd ≠ 0 ∧ TowardZero rnd neg ∧ u = 0) ∨ (rnd ≠ 0 ∧ ¬ TowardZero rnd neg ∧ (u = 1 ∧ f ≠ 0 ∨ u = 0 ∧ f = 0)) := by
  by_cases near : rnd = 0
  · rw [if_pos near, ← Bool.decide_and, ← Bool.decide_or] at hu
    by_cases up : 2 < f ∨ (f = 2 ∧ n % 2 = 1)
    · exact .inl ⟨near, .inl ⟨by rw [hu, decide_eq_true up]; rfl, up⟩⟩
    · exact .inl ⟨near, .inr ⟨by rw [hu, decide_eq_false up]; rfl, up⟩⟩
  · rw [if_neg near] at hu
    by_cases zero : TowardZero rnd neg
    · exact .inr (.inl ⟨near, zero, by rw [hu, decide_eq_true zero]; rfl⟩)
    · by_cases whole : f = 0
      · exact .inr (.inr ⟨near, zero, .inr ⟨by rw [hu, decide_eq_false (not_not_intro whole), Bool.and_false]; rfl, whole⟩⟩)
      · exact .inr (.inr ⟨near, zero, .inl ⟨by rw [hu, decide_eq_false zero, decide_eq_true whole]; rfl, whole⟩⟩)

/-- The place of the rounded quarters in the grid of multiples of 2^E units, where `le` and `ge` compare the value with multiples of 2^E half
units. -/
theorem gridRounds_quarters {le ge : Nat → Prop} {w E : Nat} (hle : ∀ j, le (j * 2 ^ E) ↔ 2 * j ≤ w) (hge : ∀ j, ge (j * 2 ^ E) ↔ w ≤ 2 * j) :
    GridRounds (fun k => k * 2 ^ E) rnd neg le ge (roundQuarters rnd neg w).1 ∧ ((roundQuarters rnd neg w).2 = true ↔
      ¬ (le (2 * ((roundQuarters rnd neg w).1 * 2 ^ E)) ∧ ge (2 * ((roundQuarters rnd neg w).1 * 2 ^ E)))) := by
  have twice (n : Nat) : 2 * (n * 2 ^ E) = 2 * n * 2 ^ E := (Nat.mul_assoc ..).symm
  have sum (a b : Nat) : a * 2 ^ E + b * 2 ^ E = (a + b) * 2 ^ E := (Nat.add_mul ..).symm
  unfold roundQuarters
  dsimp only
  have f4 : w % 4 < 4 := Nat.mod_lt _ (by decide)
  have eq : w = 4 * (w / 4) + w % 4 := (Nat.div_add_mod w 4).symm
  generalize w / 4 = n at *
  generalize w % 4 = f at *
  generalize hu : Bool.toNat _ = u
  obtain ⟨near, up⟩ | ⟨near, zero, up⟩ | ⟨near, zero, up⟩ := roundsUp_cases hu.symm
  all_goals refine ⟨?_, by rw [twice, hle, hge, decide_eq_true_iff]; omega⟩
  · refine .nearest near ?_ fun pos => ?_
    · rw [sum, hle, hge]
      omega
    · rw [sum, hle, hge]
      omega
  · refine .toward near zero ?_ ?_
    · rw [twice, hle]
      omega
    · rw [twice, hle]
      omega
  · refine .away near zero ?_ fun pos => ?_
    · rw [twice, hge]
      omega
    · rw [twice, hge]
      omega

end

end Sys2Proof.Machine
end

section
/-!
PROOF. The one rounding of every floating result (02 R47): what `Fmt.round` delivers and when it is inexact.
-/
namespace Sys2Proof.Machine

/-! ### What the quarters of a quotient say of the value -/

section
variable {m j p : Nat} {sticky : Bool} {e q : Int}

theorem quarters_lt (h : Nat.log2 m + e ≤ q + p) : quarters m e sticky q < 4 * 2 ^ (p + 1) := by
  have bits : m < 2 ^ (Nat.log2 m + 1) := Nat.lt_log2_self
  unfold quarters
  split
  · next le =>
    refine Nat.mul_lt_mul_of_pos_left (Nat.lt_of_lt_of_le (Nat.mul_lt_mul_of_pos_right bits (Nat.two_pow_pos _)) ?_) (by decide)
    rw [← Nat.pow_add]
    exact Nat.pow_le_pow_right Nat.two_pos (by omega)
  · have high : m / 2 ^ ((q - e).toNat - 1) < 2 ^ (p + 2) := by
      rw [Nat.div_lt_iff_lt_mul (Nat.two_pow_pos _), ← Nat.pow_add]
      exact Nat.lt_of_lt_of_le bits (Nat.pow_le_pow_right Nat.two_pos (by omega))
    have sticky := Bool.toNat_le (m % 2 ^ ((q - e).toNat - 1) ≠ 0 || sticky)
    rw [Nat.pow_succ] at high
    omega

theorem le_quarters (hm : m ≠ 0) (h : Nat.log2 m + e = q + p) : 4 * 2 ^ p ≤ quarters m e sticky q := by
  have bits : 2 ^ Nat.log2 m ≤ m := Nat.log2_self_le hm
  unfold quarters
  split
  · next le =>
    refine Nat.mul_le_mul_left 4 (Nat.le_trans ?_ (Nat.mul_le_mul_right _ bits))
    rw [← Nat.pow_add]
    exact Nat.pow_le_pow_right Nat.two_pos (by omega)
  · have high : 2 ^ (p + 1) ≤ m / 2 ^ ((q - e).toNat - 1) := by
      rw [Nat.le_div_iff_mul_le (Nat.two_pow_pos _), ← Nat.pow_add]
      exact Nat.le_trans (Nat.pow_le_pow_right Nat.two_pos (by omega)) bits
    rw [Nat.pow_succ] at high
    omega

/-- A number is at most a multiple of P if its quotient, rounded up, is at most the factor. -/
theorem le_mul_iff_div {P : Nat} (pos : 0 < P) : m ≤ j * P ↔ 2 * (m / P) + (m % P ≠ 0 : Bool).toNat ≤ 2 * j := by
  have eq := Nat.div_add_mod' m P
  by_cases zero : m % P = 0
  · rw [zero, Nat.add_zero] at eq
    rw [← eq, Nat.mul_le_mul_right_iff pos, Nat.mul_div_cancel _ pos, Nat.mul_mod_left,
      decide_eq_false (not_not_intro rfl), Bool.toNat_false]
    omega
  · have ne : m ≠ j * P := by
      rintro rfl
      exact zero (Nat.mul_mod_left j P)
    have lt := Nat.div_lt_iff_lt_mul (x := m) (y := j) pos
    rw [decide_eq_true zero, Bool.toNat_true]
    omega

/-- Numbers of halves of 2^q compare with the quarters as they do with the value. -/
theorem le_quarters_iff : scaledLe j (q - 1) m e ↔ 2 * j ≤ quarters m e sticky q := by
  unfold quarters
  split
  · next le =>
    have unit : (q - 1 - (q - 1)).toNat = 0 := by omega
    have double : (e - (q - 1)).toNat = (e - q).toNat + 1 := by omega
    rw [scaledLe_iff (q - 1) (by omega) (by omega), unit, double, Nat.pow_zero, Nat.mul_one, Nat.pow_succ, ← Nat.mul_assoc]
    omega
  · have unit : (e - e).toNat = 0 := by omega
    have half : (q - 1 - e).toNat = (q - e).toNat - 1 := by omega
    have sticky := Bool.toNat_le (m % 2 ^ ((q - e).toNat - 1) ≠ 0 || sticky)
    rw [scaledLe_iff e (by omega) (by omega), unit, half, Nat.pow_zero, Nat.mul_one, ← Nat.le_div_iff_mul_le (Nat.two_pow_pos _)]
    omega

theorem quarters_le_iff (whole : sticky = false) : scaledLe m e j (q - 1) ↔ quarters m e sticky q ≤ 2 * j := by
  unfold quarters
  split
  · next le =>
    have unit : (q - 1 - (q - 1)).toNat = 0 := by omega
    have double : (e - (q - 1)).toNat = (e - q).toNat + 1 := by omega
    rw [scaledLe_iff (q - 1) (by omega) (by omega), unit, double, Nat.pow_zero, Nat.mul_one, Nat.pow_succ, ← Nat.mul_assoc]
    omega
  · have unit : (e - e).toNat = 0 := by omega
    have half : (q - 1 - e).toNat = (q - e).toNat - 1 := by omega
    rw [scaledLe_iff e (by omega) (by omega), unit, half, Nat.pow_zero, Nat.mul_one, le_mul_iff_div (Nat.two_pow_pos _), whole, Bool.or_false]

theorem quarters_sticky_le_iff (more : sticky = true) (lt : e < q) : ¬ scaledLe j (q - 1) m e ↔ quarters m e sticky q ≤ 2 * j := by
  rw [le_quarters_iff, quarters, if_neg (Int.not_le.mpr lt), more, Bool.or_true, Bool.toNat_true]
  omega

end

namespace Fmt
variable {t : Fmt} {rnd m : Nat} {neg sticky : Bool} {e : Int} {le ge : Nat → Prop} {long : Prop}

/-- `le` and `ge` compare the value m × 2^e, with a further fraction of a unit when `sticky`, with the multiples of the powers of two of half
units; of a value of which `m` holds only the first bits (`long`), with the multiples of the powers from 2^e on. -/
structure Measures (t : Fmt) (le ge : Nat → Prop) (m : Nat) (e : Int) (sticky : Bool) (long : Prop) : Prop where
  cut : Cut le ge
  long_of_sticky : sticky = true → long
  le_iff (p : Int) (j : Nat) : t.halfUnit ≤ p → (long → e ≤ p) → (le (j * 2 ^ (p - t.halfUnit).toNat) ↔ scaledLe j p m e)
  ge_iff (p : Int) (j : Nat) : t.halfUnit ≤ p → (long → e ≤ p) →
    (ge (j * 2 ^ (p - t.halfUnit).toNat) ↔ if sticky = true then ¬ scaledLe j p m e else scaledLe m e j p)

/-- The bits of `r` are the value to which the rounding takes a value that `le` and `ge` compare with numbers of half units, and nx tells
whether they are another value. -/
def RoundsOnce (t : Fmt) (rnd : Nat) (r : Nat × Flags) (neg : Bool) (le ge : Nat → Prop) : Prop :=
  t.Rounds rnd neg le ge r.1 ∧ (r.2.getLsbD 7 = true ↔ ¬ (r.1 % 2 ^ (t.width - 1) < t.infBits ∧
    le (2 * t.mag (r.1 % 2 ^ (t.width - 1))) ∧ ge (2 * t.mag (r.1 % 2 ^ (t.width - 1)))))

/-- A sign is the bit above a magnitude. -/
theorem sign_add_mod {y : Nat} (h : y ≤ t.infBits) : ((if neg then t.signBit else 0) + y) % 2 ^ (t.width - 1) = y := by
  have lt := Nat.lt_of_le_of_lt h t.infBits_lt_signBit
  rw [signBit_eq]
  cases neg
  · rw [if_neg Bool.false_ne_true, Nat.zero_add, Nat.mod_eq_of_lt lt]
  · rw [if_pos rfl, Nat.add_mod_left, Nat.mod_eq_of_lt lt]

theorem roundsOnce_of_rounds {y : Nat} {g : Flags} (h : y ≤ t.infBits) (rounds : t.Rounds rnd neg le ge ((if neg then t.signBit else 0) + y))
    (nx : g.getLsbD 7 = true ↔ ¬ (y < t.infBits ∧ le (2 * t.mag y) ∧ ge (2 * t.mag y))) :
    t.RoundsOnce rnd ((if neg then t.signBit else 0) + y, g) neg le ge := by
  refine ⟨rounds, ?_⟩
  dsimp only
  rw [sign_add_mod h]
  exact nx

/-- A result in range raises nx when it is inexact; the underflow flag beside it is another bit. -/
theorem nx_iff (inexact tiny : Bool) :
    ((if inexact then fNx else 0) ||| (if inexact && tiny then fUf else 0)).getLsbD 7 = true ↔ inexact = true := by
  cases inexact <;> cases tiny <;> decide

/-- The magnitude that is rounded, before it meets the infinity. -/
theorem gridRounds_roundQ (size : t.Sized) (rounding : rnd < 4) (hm : m ≠ 0) (value : t.Measures le ge m e sticky long)
    (wide : long → t.mb < Nat.log2 m) {q : Int} (hq : q = max (Nat.log2 m + e) (1 - (t.bias : Int)) - t.mb) :
    let r := roundQ rnd neg m e sticky q
    let y := (q + t.mb + t.bias - 1).toNat * 2 ^ t.mb + r.1
    GridRounds t.mag rnd neg le ge y ∧ (r.2 = true ↔ ¬ (le (2 * t.mag y) ∧ ge (2 * t.mag y))) := by
  have wide' (h : long) : e < q := by have := wide h; omega
  have unit : t.halfUnit ≤ q - 1 := by unfold halfUnit; omega
  have binade : (q - 1 - t.halfUnit).toNat = (q + t.mb + t.bias - 1).toNat := by unfold halfUnit; omega
  have hle (j : Nat) : le (j * 2 ^ (q - 1 - t.halfUnit).toNat) ↔ 2 * j ≤ quarters m e sticky q :=
    (value.le_iff (q - 1) j unit fun h => Int.le_sub_one_of_lt (wide' h)).trans le_quarters_iff
  have hge (j : Nat) : ge (j * 2 ^ (q - 1 - t.halfUnit).toNat) ↔ quarters m e sticky q ≤ 2 * j := by
    rw [value.ge_iff (q - 1) j unit fun h => Int.le_sub_one_of_lt (wide' h)]
    split
    · next more => exact quarters_sticky_le_iff more (wide' (value.long_of_sticky more))
    · next whole => exact quarters_le_iff (Bool.eq_false_iff.mpr whole)
  rw [roundQ_eq rounding hm fun h => wide' (value.long_of_sticky h), ← binade]
  have high : quarters m e sticky q < 4 * 2 ^ (t.mb + 1) := quarters_lt (by omega)
  have low (h : (q - 1 - t.halfUnit).toNat ≠ 0) : 4 * 2 ^ t.mb ≤ quarters m e sticky q := le_quarters hm (by omega)
  generalize (q - 1 - t.halfUnit).toNat = E at *
  generalize quarters m e sticky q = w at *
  obtain ⟨grid, inexact⟩ := gridRounds_quarters (rnd := rnd) (neg := neg) hle hge
  intro r y
  have near : w / 4 ≤ r.1 ∧ r.1 ≤ w / 4 + 1 := ⟨Nat.le_add_right _ _, Nat.add_le_add_left (Bool.toNat_le _) _⟩
  have normal : E = 0 ∨ (2 ^ t.mb ≤ r.1 ∧ le (2 * (2 ^ t.mb * 2 ^ E))) := by
    by_cases first : E = 0
    · exact .inl first
    · have := low first
      refine .inr ⟨by omega, ?_⟩
      rw [← Nat.mul_assoc, hle]
      omega
  have carry : r.1 ≤ 2 ^ (t.mb + 1) := by omega
  refine ⟨gridRounds_mag size value.cut grid normal carry, ?_⟩
  rw [mag_binade (normal.imp_right And.left) carry]
  exact inexact

/-- The machine rounds an exact value once. -/
theorem roundMag_roundsOnce (size : t.Sized) (rounding : rnd < 4) (hm : m ≠ 0) (value : t.Measures le ge m e sticky long)
    (wide : long → t.mb < Nat.log2 m) : t.RoundsOnce rnd (t.roundMag rnd neg m e sticky) neg le ge := by
  obtain ⟨place, inexact⟩ := gridRounds_roundQ (neg := neg) size rounding hm value wide rfl
  unfold roundMag
  dsimp only
  split
  · next reach =>
    have overflow : (fOf ||| fNx).getLsbD 7 = true := by decide
    by_cases zero : TowardZero rnd neg
    · obtain ⟨rounds, lt⟩ := rounds_maxFinite size value.cut place reach zero
      rw [if_neg (c := (_ || _ || _) = true) ((not_congr (toInf_iff rounding)).mpr (not_not_intro zero))]
      exact roundsOnce_of_rounds (Nat.sub_le _ _) rounds (iff_of_true overflow fun h => lt h.2.2)
    · rw [if_pos (c := (_ || _ || _) = true) ((toInf_iff rounding).mpr zero)]
      exact roundsOnce_of_rounds (Nat.le_refl _) (rounds_infBits size value.cut place reach zero)
        (iff_of_true overflow fun h => Nat.lt_irrefl _ h.1)
  · next below =>
    have below := Nat.not_le.mp below
    refine roundsOnce_of_rounds (Nat.le_of_lt below) (rounds_of_lt place below) ?_
    rw [and_iff_right below, ← inexact]
    exact nx_iff _ _

/-- A finite non-zero value is rounded once. -/
theorem round_roundsOnce (size : t.Sized) (rounding : rnd < 4) (hm : m ≠ 0) (value : t.Measures le ge m e sticky long)
    (wide : long → t.mb < Nat.log2 m) : t.RoundsOnce rnd (t.round rnd (.fin neg m e) sticky) neg le ge := by
  rw [round, if_neg hm]
  exact roundMag_roundsOnce size rounding hm value wide

end Fmt

/-! ### Comparisons with scaled numbers -/

section
variable {m : Nat} {e i : Int} {f : Nat → Nat}

/-- Comparing an increasing function of the number of half units with a number is comparing one magnitude. -/
theorem cut_scaledLe (mono : ∀ {j k}, j < k → f j < f k) : Cut (fun k => scaledLe (f k) i m e) (fun k => scaledLe m e (f k) i) := by
  have mono' {j k : Nat} (h : j ≤ k) : f j ≤ f k := by
    obtain rfl | lt := Nat.eq_or_lt_of_le h
    · exact Nat.le_refl _
    · exact Nat.le_of_lt (mono lt)
  unfold scaledLe
  refine ⟨fun h le => ?_, fun h ge => ?_, fun h le ge => ?_⟩
  · exact Nat.le_trans (Nat.mul_le_mul_right _ (mono' h)) le
  · rw [Int.min_comm] at ge ⊢
    exact Nat.le_trans ge (Nat.mul_le_mul_right _ (mono' h))
  · rw [Int.min_comm] at ge
    exact absurd (Nat.lt_of_lt_of_le (Nat.mul_lt_mul_of_pos_right (mono h) (Nat.two_pow_pos _)) (Nat.le_trans le ge)) (Nat.lt_irrefl _)

/-- A power of two may stand in the number or in the exponent. -/
theorem scaledLe_shift (a m : Nat) (s : Nat) (i e : Int) : (scaledLe (a * 2 ^ s) i m e ↔ scaledLe a (i + s) m e) ∧
    (scaledLe m e (a * 2 ^ s) i ↔ scaledLe m e a (i + s)) := by
  have shift (u : Int) (h : u ≤ i) : (i + s - u).toNat = s + (i - u).toNat := by omega
  have unit {j k : Int} (a b : Nat) (hj : min i e ≤ j) (hk : min i e ≤ k) := scaledLe_iff (a := a) (b := b) (min i e) hj hk
  rw [unit _ _ (by omega) (by omega), unit _ _ (by omega) (by omega), unit _ _ (by omega) (by omega), unit _ _ (by omega) (by omega),
    shift (min i e) (by omega), Nat.pow_add, Nat.mul_assoc]
  exact ⟨.rfl, .rfl⟩

/-- An exact value is measured by comparing it. -/
theorem Fmt.measures_exact (t : Fmt) (m : Nat) (e : Int) :
    t.Measures (fun k => scaledLe k t.halfUnit m e) (fun k => scaledLe m e k t.halfUnit) m e false False := by
  refine ⟨cut_scaledLe (f := fun k => k) fun h => h, nofun, fun p j unit _ => ?_, fun p j unit _ => ?_⟩
  all_goals have unit : t.halfUnit + (p - t.halfUnit).toNat = p := by omega
  · rw [(scaledLe_shift ..).1, unit]
  · rw [(scaledLe_shift ..).2, unit, if_neg Bool.false_ne_true]

end

end Sys2Proof.Machine
end

section
/-!
PROOF. Bit patterns and their values (02 R46): what a finite pattern decodes to, and that its value rounds to itself.
-/
namespace Sys2Proof.Machine

namespace Fmt
variable {t : Fmt} {rnd x : Nat}

/-- A finite pattern: its value stands at its own place, the significand `m` in the binade of 2^E least subnormals. -/
structure FinitePattern (t : Fmt) (x : Nat) (n : Bool) (m : Nat) (e : Int) (E : Nat) : Prop where
  sign : n = decide (x / t.signBit % 2 = 1)
  exponent : e = E + 1 - t.bias - t.mb
  place : x % t.signBit = E * 2 ^ t.mb + m
  normal : E = 0 ∨ 2 ^ t.mb ≤ m
  lt : m < 2 ^ (t.mb + 1)
  finite : E * 2 ^ t.mb + m < t.infBits

theorem mod_signBit (t : Fmt) (x : Nat) : x % t.signBit = x / 2 ^ t.mb % 2 ^ t.eb * 2 ^ t.mb + x % 2 ^ t.mb := by
  rw [signBit, Nat.add_comm t.eb, Nat.pow_add, Nat.mod_mul, Nat.add_comm, Nat.mul_comm]

theorem decode_eq_fin {n : Bool} {m : Nat} {e : Int} (h : t.decode x = .fin n m e) : ∃ E, t.FinitePattern x n m e E := by
  have place := t.mod_signBit x
  have ex := Nat.mod_lt (x / 2 ^ t.mb) (Nat.two_pow_pos t.eb)
  have mt := Nat.mod_lt x (Nat.two_pow_pos t.mb)
  have two := Nat.pow_succ' (m := 2) (n := t.mb)
  unfold decode at h
  dsimp only at h
  generalize x / 2 ^ t.mb % 2 ^ t.eb = f at *
  split at h
  · split at h <;> cases h
  · next notMax =>
    have finite : (f + 1) * 2 ^ t.mb ≤ t.infBits := Nat.mul_le_mul_right _ (by omega)
    rw [Nat.add_one_mul] at finite
    split at h
    · next zero =>
      cases h
      rw [zero, Nat.zero_mul, Nat.zero_add] at finite
      exact ⟨0, rfl, by omega, by rw [place, zero], .inl rfl, by omega, by omega⟩
    · next pos =>
      cases h
      obtain ⟨E, rfl⟩ := Nat.exists_eq_succ_of_ne_zero pos
      rw [Nat.succ_mul] at place finite
      exact ⟨E, rfl, by omega, by omega, .inr (by omega), by omega, by omega⟩

theorem decode_eq_inf {n : Bool} (h : t.decode x = .inf n) : n = decide (x / t.signBit % 2 = 1) ∧ x % t.signBit = t.infBits := by
  have place := t.mod_signBit x
  unfold decode at h
  dsimp only at h
  split at h
  · next max =>
    split at h
    · next zero =>
      cases h
      exact ⟨rfl, by rw [place, max, zero]; rfl⟩
    · cases h
  · split at h <;> cases h

/-- A pattern is its sign bit and its magnitude. -/
theorem sign_add_magnitude (hx : x < 2 ^ t.width) {n : Bool} (hn : n = decide (x / t.signBit % 2 = 1)) :
    (if n then t.signBit else 0) + x % t.signBit = x := by
  have eq := Nat.div_add_mod x t.signBit
  have lt : x / t.signBit < 2 := Nat.div_lt_of_lt_mul (by
    rwa [signBit, ← Nat.pow_succ, show (t.eb + t.mb).succ = t.width by unfold width; omega])
  subst hn
  generalize x / t.signBit = b at *
  obtain rfl | rfl : b = 0 ∨ b = 1 := by omega
  · rw [if_neg (by decide)]
    omega
  · rw [if_pos (by decide)]
    omega

/-- A finite non-zero value of the format needs no rounding. -/
theorem FinitePattern.round_eq {n : Bool} {m E : Nat} {e : Int} (h : t.FinitePattern x n m e E) (hm : m ≠ 0) (hx : x < 2 ^ t.width) :
    t.round rnd (.fin n m e) = (x, 0) := by
  have log : Nat.log2 m < t.mb + 1 := (Nat.log2_lt hm).mpr h.lt
  have log' : E = 0 ∨ t.mb ≤ Nat.log2 m := h.normal.imp_right (Nat.le_log2 hm).mpr
  have exponent := h.exponent
  have unit : max (Nat.log2 m + e) (1 - (t.bias : Int)) - t.mb = e := by omega
  have binade : (e + t.mb + t.bias - 1).toNat = E := by omega
  have whole : roundQ rnd n m e false e = (m, false) := by
    rw [roundQ, if_pos (Int.le_refl e), Int.sub_self, Int.toNat_zero, Nat.pow_zero, Nat.mul_one]
  rw [round, if_neg hm, roundMag]
  dsimp only
  rw [unit, binade, whole]
  dsimp only
  rw [if_neg (Nat.not_le.mpr h.finite), ← h.place, sign_add_magnitude hx h.sign, Bool.false_and,
    if_neg Bool.false_ne_true, if_neg Bool.false_ne_true]
  rfl

/-- Rounding the value of a pattern gives the pattern back. -/
theorem round_decode (hx : x < 2 ^ t.width) (notNan : (t.decode x).isNan = false) : t.round rnd (t.decode x) = (x, 0) := by
  cases h : t.decode x with
  | nan sig =>
    rw [h] at notNan
    cases notNan
  | inf n =>
    obtain ⟨sign, place⟩ := decode_eq_inf h
    rw [round, ← place, sign_add_magnitude hx sign]
  | fin n m e =>
    obtain ⟨E, fin⟩ := decode_eq_fin h
    by_cases hm : m = 0
    · have zero : x % t.signBit = 0 := by
        have := fin.normal
        have := Nat.two_pow_pos t.mb
        rw [fin.place, hm, show E = 0 by omega, Nat.zero_mul]
      have eq := sign_add_magnitude hx fin.sign
      rw [round, if_pos hm]
      rw [zero, Nat.add_zero] at eq
      rw [eq]
    · exact fin.round_eq hm hx

end Fmt

end Sys2Proof.Machine
end

section
/-!
PROOF. Quotient and root (04 R107): what the machine keeps of them is enough for one rounding.
-/
namespace Sys2Proof.Machine

/-! ### The root -/

/-- Digit by digit, the root of the first bits is kept. -/
theorem isqrt_steps {k n : Nat} (hn : n < 2 ^ k * 2 ^ k) (j : Nat) (hj : j ≤ k) :
    let r := (List.range j).foldl (fun r i => let b := r + 2 ^ (k - 1 - i); if b * b ≤ n then b else r) 0
    r * r ≤ n ∧ n < (r + 2 ^ (k - j)) * (r + 2 ^ (k - j)) := by
  induction j with
  | zero =>
    refine ⟨Nat.zero_le _, ?_⟩
    rw [List.range_zero, List.foldl_nil, Nat.zero_add, Nat.sub_zero]
    exact hn
  | succ j ih =>
    obtain ⟨low, high⟩ := ih (by omega)
    rw [List.range_succ, List.foldl_append]
    generalize (List.range j).foldl _ 0 = r at *
    have digit : 2 ^ (k - j) = 2 ^ (k - 1 - j) + 2 ^ (k - 1 - j) := by
      rw [show k - j = k - 1 - j + 1 by omega, Nat.pow_succ, Nat.mul_two]
    rw [digit, ← Nat.add_assoc] at high
    rw [show k - (j + 1) = k - 1 - j by omega, List.foldl_cons, List.foldl_nil]
    dsimp only
    split
    · next le => exact ⟨le, high⟩
    · next gt => exact ⟨low, Nat.not_le.mp gt⟩

/-- The integer square root. -/
theorem isqrt_spec {k n : Nat} (hn : n < 2 ^ k * 2 ^ k) : isqrt k n * isqrt k n ≤ n ∧ n < (isqrt k n + 1) * (isqrt k n + 1) := by
  have steps := isqrt_steps hn k (Nat.le_refl k)
  rw [Nat.sub_self, Nat.pow_zero] at steps
  exact steps

/-- A number is at most the integer root if its square is at most the number below the root. -/
theorem le_isqrt_iff {k n a : Nat} (hn : n < 2 ^ k * 2 ^ k) : a ≤ isqrt k n ↔ a * a ≤ n := by
  obtain ⟨low, high⟩ := isqrt_spec hn
  refine ⟨fun h => Nat.le_trans (Nat.mul_le_mul h h) low, fun h => Nat.le_of_lt_succ (Nat.lt_of_not_le fun gt => ?_)⟩
  exact absurd (Nat.le_trans (Nat.mul_le_mul gt gt) h) (Nat.not_le.mpr high)

/-- A square is at least a number if its root is at least the integer root, and more if that is not exact. -/
theorem le_sq_iff {k n a : Nat} (hn : n < 2 ^ k * 2 ^ k) :
    n ≤ a * a ↔ if decide (isqrt k n * isqrt k n ≠ n) = true then ¬ a ≤ isqrt k n else isqrt k n ≤ a := by
  obtain ⟨low, -⟩ := isqrt_spec hn
  have root := le_isqrt_iff (a := a) hn
  by_cases whole : isqrt k n * isqrt k n = n
  · rw [if_neg (by rw [decide_eq_true_iff]; exact not_not_intro whole), ← Nat.mul_self_le_mul_self_iff (m := isqrt k n), whole]
  · rw [if_pos (decide_eq_true whole), root, Nat.not_le]
    refine ⟨fun h => Nat.lt_of_le_of_ne h fun eq => ?_, Nat.le_of_lt⟩
    have up := root.mpr (Nat.le_of_eq eq.symm)
    exact whole (Nat.le_antisymm low (Nat.le_trans h (Nat.mul_le_mul up up)))

/-! ### The quotient -/

/-- A product is at least a number if the factor is at least the integer quotient, and more if that leaves a remainder. -/
theorem le_mul_iff {n a l : Nat} (hl : 0 < l) : n ≤ a * l ↔ if decide (n % l ≠ 0) = true then ¬ a ≤ n / l else n / l ≤ a := by
  rw [le_mul_iff_div hl]
  by_cases whole : n % l = 0
  · rw [if_neg (by rw [decide_eq_true_iff]; exact not_not_intro whole), decide_eq_false (not_not_intro whole), Bool.toNat_false]
    omega
  · rw [if_pos (decide_eq_true whole), decide_eq_true whole, Bool.toNat_true]
    omega

namespace Fmt
variable {t : Fmt} {rnd x y : Nat} {n k : Bool} {m l : Nat} {e d : Int}

/-! ### What the kept digits measure -/

/-- The quotient with its remainder kept as a sticky fraction is measured by comparing products. -/
theorem measures_div (t : Fmt) (m : Nat) (e d : Int) (hl : 0 < l) : t.Measures (fun j => scaledLe (j * l) (t.halfUnit + d) m e)
    (fun j => scaledLe m e (j * l) (t.halfUnit + d)) (m * 2 ^ 160 / l) (e - d - 160) (m * 2 ^ 160 % l ≠ 0) True := by
  refine ⟨cut_scaledLe fun h => Nat.mul_lt_mul_of_pos_right h hl, fun _ => trivial, fun p j unit wide => ?_, fun p j unit wide => ?_⟩
  all_goals
    have wide := wide trivial
    have exponent : t.halfUnit + d + (p - t.halfUnit).toNat = p + d := by omega
    have product : j * 2 ^ (p - t.halfUnit).toNat * l = j * l * 2 ^ (p - t.halfUnit).toNat := Nat.mul_right_comm ..
    have scale : (p + d - (e - 160)).toNat = (p - (e - d - 160)).toNat := by omega
    have digits : (e - (e - 160)).toNat = 160 := by omega
    have last : (e - d - 160 - (e - d - 160)).toNat = 0 := by omega
  · rw [product, (scaledLe_shift ..).1, exponent, scaledLe_iff (e - 160) (by omega) (by omega),
      scaledLe_iff (e - d - 160) (by omega) (by omega), scale, digits, last, Nat.pow_zero, Nat.mul_one, Nat.le_div_iff_mul_le hl,
      Nat.mul_right_comm]
  · rw [product, (scaledLe_shift ..).2, exponent, scaledLe_iff (e - 160) (by omega) (by omega),
      scaledLe_iff (e - d - 160) (by omega) (by omega), scaledLe_iff (e - d - 160) (by omega) (by omega), scale, digits, last,
      Nat.pow_zero, Nat.mul_one, Nat.mul_right_comm]
    exact le_mul_iff hl

/-- The root with its remainder kept as a sticky fraction is measured by comparing squares. -/
theorem measures_sqrt (t : Fmt) {m p : Nat} {e f : Int} (low : 2 * f ≤ e) (hp : m * 2 ^ (e - 2 * f).toNat = p) {b : Nat} (short : p < 2 ^ b * 2 ^ b) :
    t.Measures (fun j => scaledLe (j * j) (2 * t.halfUnit) m e) (fun j => scaledLe m e (j * j) (2 * t.halfUnit))
      (isqrt b p) f (isqrt b p * isqrt b p ≠ p) True := by
  refine ⟨cut_scaledLe fun h => Nat.mul_self_lt_mul_self h, fun _ => trivial, fun q j unit wide => ?_, fun q j unit wide => ?_⟩
  all_goals
    have wide := wide trivial
    have exponent : 2 * t.halfUnit + ((q - t.halfUnit).toNat + (q - t.halfUnit).toNat : Nat) = 2 * q := by omega
    have square (s : Nat) : j * 2 ^ s * (j * 2 ^ s) = j * j * 2 ^ (s + s) := by rw [Nat.pow_add, Nat.mul_mul_mul_comm]
    have scale : (2 * q - 2 * f).toNat = (q - f).toNat + (q - f).toNat := by omega
    have last : (f - f).toNat = 0 := by omega
  · rw [square, (scaledLe_shift ..).1, exponent, scaledLe_iff (2 * f) (by omega) low, scaledLe_iff f wide (Int.le_refl f), scale, last, hp,
      ← square, ← le_isqrt_iff short, Nat.pow_zero, Nat.mul_one]
  · rw [square, (scaledLe_shift ..).2, exponent, scaledLe_iff (2 * f) low (by omega), scaledLe_iff f wide (Int.le_refl f),
      scaledLe_iff f (Int.le_refl f) wide, scale, last, hp, ← square, le_sq_iff short, Nat.pow_zero, Nat.mul_one]

/-! ### The operations -/

theorem fdiv_of_fin (hx : t.decode x = .fin n m e) (hy : t.decode y = .fin k l d) (hm : m ≠ 0) (hl : l ≠ 0) :
    t.fdiv rnd x y = t.round rnd (.fin (n != k) (m * 2 ^ 160 / l) (e - d - 160)) (m * 2 ^ 160 % l ≠ 0) := by
  rw [fdiv, hx, hy]
  dsimp only
  rw [if_neg hl, if_neg hm]

/-- The significands of the formats have at most 53 bits. -/
theorem FinitePattern.short {E : Nat} (size : t.Sized) (h : t.FinitePattern x n m e E) : m < 2 ^ 53 :=
  Nat.lt_of_lt_of_le h.lt (Nat.pow_le_pow_right Nat.two_pos (Nat.succ_le_succ size.mb_le))

/-- Division delivers the exact quotient rounded once. -/
theorem fdiv_roundsOnce (size : t.Sized) (rounding : rnd < 4) (hx : t.decode x = .fin n m e) (hy : t.decode y = .fin k l d)
    (hm : m ≠ 0) (hl : l ≠ 0) : t.RoundsOnce rnd (t.fdiv rnd x y) (n != k) (fun j => scaledLe (j * l) (t.halfUnit + d) m e)
      (fun j => scaledLe m e (j * l) (t.halfUnit + d)) := by
  obtain ⟨_, fin⟩ := decode_eq_fin hy
  have short := fin.short size
  have long : 2 ^ 53 ≤ m * 2 ^ 160 / l := (Nat.le_div_iff_mul_le (Nat.pos_of_ne_zero hl)).mpr (by omega)
  have ne : m * 2 ^ 160 / l ≠ 0 := by omega
  rw [fdiv_of_fin hx hy hm hl]
  exact round_roundsOnce size rounding ne (t.measures_div m e d (Nat.pos_of_ne_zero hl)) fun _ =>
    Nat.lt_of_lt_of_le (Nat.lt_succ_of_le size.mb_le) ((Nat.le_log2 ne).mpr long)

/-- The machine takes the root of a significand that has an even exponent. -/
theorem fsqrt_of_fin (hx : t.decode x = .fin false m e) (hm : m ≠ 0) : ∃ (p : Nat) (f : Int), m ≤ p ∧ p ≤ 2 * m ∧ 2 * f ≤ e ∧
    m * 2 ^ (e - 2 * (f - 80)).toNat = p * 2 ^ 160 ∧ t.fsqrt rnd x = t.round rnd (.fin false (isqrt 120 (p * 2 ^ 160)) (f - 80))
      (isqrt 120 (p * 2 ^ 160) * isqrt 120 (p * 2 ^ 160) ≠ p * 2 ^ 160) := by
  by_cases even : e % 2 = 0
  · have digits : (e - 2 * (e / 2 - 80)).toNat = 160 := by omega
    refine ⟨m, e / 2, Nat.le_refl m, by omega, by omega, by rw [digits], ?_⟩
    rw [fsqrt, hx]
    dsimp only
    rw [if_neg hm, if_neg Bool.false_ne_true, if_pos even]
  · have digits : (e - 2 * ((e - 1) / 2 - 80)).toNat = 161 := by omega
    refine ⟨2 * m, (e - 1) / 2, by omega, Nat.le_refl _, by omega, by rw [digits]; omega, ?_⟩
    rw [fsqrt, hx]
    dsimp only
    rw [if_neg hm, if_neg Bool.false_ne_true, if_neg even]

/-- The square root delivers the exact root rounded once. -/
theorem fsqrt_roundsOnce (size : t.Sized) (rounding : rnd < 4) (hx : t.decode x = .fin false m e) (hm : m ≠ 0) :
    t.RoundsOnce rnd (t.fsqrt rnd x) false (fun j => scaledLe (j * j) (2 * t.halfUnit) m e) (fun j => scaledLe m e (j * j) (2 * t.halfUnit)) := by
  obtain ⟨_, fin⟩ := decode_eq_fin hx
  have bits := fin.short size
  obtain ⟨p, f, hp, le, low, scaled, eq⟩ := fsqrt_of_fin (rnd := rnd) hx hm
  have short : p * 2 ^ 160 < 2 ^ 120 * 2 ^ 120 := by omega
  have long : 2 ^ 80 ≤ isqrt 120 (p * 2 ^ 160) := (le_isqrt_iff short).mpr (by omega)
  have ne : isqrt 120 (p * 2 ^ 160) ≠ 0 := by omega
  rw [eq]
  exact round_roundsOnce size rounding ne (t.measures_sqrt (by omega) scaled short) fun _ =>
    Nat.lt_of_lt_of_le (Nat.lt_of_le_of_lt size.mb_le (by decide)) ((Nat.le_log2 ne).mpr long)

end Fmt

end Sys2Proof.Machine
end

section
/-!
PROOF. O26: the floating rules on values (02 R46-R48, 04 R107, R108).
-/
namespace Sys2Proof.Machine

theorem scaled_eq_inUnits (n : Bool) (m : Nat) (e u : Int) : scaled n m e u = inUnits n m e u := by
  cases n <;> simp [scaled, inUnits]

theorem inUnits_not (n : Bool) (m : Nat) (e u : Int) : inUnits (!n) m e u = -inUnits n m e u := by
  cases n <;> simp [inUnits]

namespace FVal

/-- The sum of finite values is the exact one, unless that is zero. -/
theorem add_fin {rnd : Nat} {n k : Bool} {m l : Nat} {e d : Int} (ne : inUnits n m e (min e d) + inUnits k l d (min e d) ≠ 0) :
    (FVal.fin n m e).add rnd (.fin k l d) = (ofScaled (inUnits n m e (min e d) + inUnits k l d (min e d)) (min e d), 0) := by
  have nonzero : ¬ (m = 0 && l = 0) = true := by
    intro h
    obtain ⟨rfl, rfl⟩ : m = 0 ∧ l = 0 := by simpa using h
    simp [inUnits] at ne
  simp only [add, scaled_eq_inUnits]
  rw [if_neg nonzero, if_neg ne]

theorem nan_add (rnd : Nat) (v : FVal) : (FVal.nan false).add rnd v = (.nan false, if v.isSig then fNv else 0) := by
  cases v <;> rfl

theorem add_symm (rnd : Nat) (a b : FVal) : a.add rnd b = b.add rnd a := by
  cases a with
  | nan s => cases b <;> simp [add, Bool.or_comm]
  | inf n =>
    cases b with
    | inf k => cases n <;> cases k <;> rfl
    | _ => rfl
  | fin n m e =>
    cases b with
    | fin k l d =>
      simp only [add, Int.min_comm d, Int.add_comm (scaled k l d _), Bool.and_comm (decide (l = 0))]
      cases n <;> cases k <;> rfl
    | _ => rfl

theorem mul_symm (a b : FVal) : a.mul b = b.mul a := by
  cases a with
  | nan s => cases b <;> simp [mul, Bool.or_comm]
  | inf n => cases b <;> simp [mul, Bool.xor_comm]
  | fin n m e => cases b <;> simp [mul, Bool.xor_comm, Int.add_comm, Nat.mul_comm]

end FVal

namespace Fmt
variable {t : Fmt} {rnd x y z : Nat} {n k : Bool} {m l : Nat} {e d : Int}

theorem fadd_comm (t : Fmt) (rnd x y : Nat) : t.fadd rnd x y = t.fadd rnd y x := by
  rw [fadd, fadd, FVal.add_symm]

theorem fmul_comm (t : Fmt) (rnd x y : Nat) : t.fmul rnd x y = t.fmul rnd y x := by
  rw [fmul, fmul, FVal.mul_symm]

/-! ### Exact sums and products of finite operands -/

/-- An exact result adds no flag to those of its rounding. -/
theorem no_further_flags (r : Nat × Flags) : (r.1, 0 ||| r.2) = r := Prod.ext rfl BitVec.zero_or

theorem fadd_of_fin (hx : t.decode x = .fin n m e) (hy : t.decode y = .fin k l d)
    (ne : inUnits n m e (min e d) + inUnits k l d (min e d) ≠ 0) :
    t.fadd rnd x y = t.round rnd (ofScaled (inUnits n m e (min e d) + inUnits k l d (min e d)) (min e d)) := by
  rw [fadd, hx, hy, FVal.add_fin ne]
  exact no_further_flags _

theorem fsub_of_fin (hx : t.decode x = .fin n m e) (hy : t.decode y = .fin k l d)
    (ne : inUnits n m e (min e d) - inUnits k l d (min e d) ≠ 0) :
    t.fsub rnd x y = t.round rnd (ofScaled (inUnits n m e (min e d) - inUnits k l d (min e d)) (min e d)) := by
  rw [Int.sub_eq_add_neg, ← inUnits_not] at ne ⊢
  rw [fsub, hx, hy, FVal.negate, FVal.add_fin ne]
  exact no_further_flags _

theorem fmul_of_fin (hx : t.decode x = .fin n m e) (hy : t.decode y = .fin k l d) :
    t.fmul rnd x y = t.round rnd (.fin (n != k) (m * l) (e + d)) := by
  rw [fmul, hx, hy, FVal.mul]
  exact no_further_flags _

theorem ffma_of_fin {q : Bool} {p : Nat} {g : Int} (hx : t.decode x = .fin n m e) (hy : t.decode y = .fin k l d) (hz : t.decode z = .fin q p g)
    (ne : inUnits (n != k) (m * l) (e + d) (min (e + d) g) + inUnits q p g (min (e + d) g) ≠ 0) :
    t.ffma rnd x y z =
      t.round rnd (ofScaled (inUnits (n != k) (m * l) (e + d) (min (e + d) g) + inUnits q p g (min (e + d) g)) (min (e + d) g)) := by
  rw [ffma, hx, hy, hz, FVal.mul]
  have noFlags : (0 : Flags) ||| 0 = 0 := rfl
  dsimp only
  rw [FVal.add_fin ne, noFlags]
  exact no_further_flags _

/-! ### Edge cases -/

theorem fdiv_zero (hx : t.decode x = .fin n m e) (hm : m ≠ 0) (hy : t.decode y = .fin k 0 d) :
    t.fdiv rnd x y = ((if n = k then 0 else 2 ^ (t.width - 1)) + t.infBits, 0x10) := by
  rw [signBit_eq]
  cases n <;> cases k <;> simp [fdiv, hx, hy, hm, round, fDz]

theorem fsqrt_neg (hx : t.decode x = .fin true m e) :
    t.fsqrt rnd x = if m = 0 then (2 ^ (t.width - 1), 0) else (t.nan, 0x08) := by
  rw [signBit_eq]
  simp [fsqrt, hx, round, fNv]

/-- The product of zero and an infinity is a NaN with nv, to which an addend adds nothing. -/
theorem ffma_zero_inf (hx : t.decode x = .fin n 0 e) (hy : t.decode y = .inf k) :
    t.ffma rnd x y z = (t.nan, 0x08) ∧ t.ffma rnd y x z = (t.nan, 0x08) := by
  have flags (sig : Bool) : fNv ||| (if sig then fNv else 0) ||| 0 = fNv := by cases sig <;> decide
  refine ⟨?_, ?_⟩ <;> simp only [ffma, hx, hy, FVal.mul, if_true, FVal.nan_add, round, Bool.false_eq_true, if_false, flags] <;> rfl

theorem fcmp_zeros (hx : t.decode x = .fin n 0 e) (hy : t.decode y = .fin k 0 d) :
    t.fcmp 0 x y = (true, 0) ∧ t.fcmp 1 x y = (false, 0) := by
  cases n <;> cases k <;> simp [fcmp, hx, hy, FVal.eqv, FVal.lt, FVal.isNan, FVal.isSig, FVal.cmp, scaled]

theorem fcmp_nan (nan : (t.decode x).isNan = true ∨ (t.decode y).isNan = true) :
    (t.fcmp 0 x y).1 = false ∧ t.fcmp 1 x y = (false, 0x08) ∧ t.fcmp 2 x y = (false, 0x08) ∧ (t.fcmp 3 x y).1 = true := by
  rcases nan with h | h <;> simp [fcmp, FVal.eqv, FVal.lt, h, fNv]

end Fmt

/-! ### The statement -/

/-- Settles O26: each operation is the rounding of its exact result, which `Fmt.round_roundsOnce` measures; the edge cases are read off. -/
theorem floatingRulesOnValues : Obligations.FloatingRulesOnValues := by
  unfold Obligations.FloatingRulesOnValues
  intro t rnd x y z format rounding
  have size := Fmt.sized_of_mem format
  refine ⟨fun n m e hm => ?_, fun n m e k l d hx hy => ⟨Fmt.fadd_of_fin hx hy, Fmt.fsub_of_fin hx hy, fun hm hl => ⟨Fmt.fmul_of_fin hx hy, ?_⟩,
      fun q p g hz => Fmt.ffma_of_fin hx hy hz⟩, fun m e hx hm => Fmt.fsqrt_roundsOnce size rounding hx hm, Fmt.round_decode,
    t.fadd_comm rnd x y, t.fmul_comm rnd x y, fun n m e k d => Fmt.fdiv_zero, fun m e => Fmt.fsqrt_neg, fun n e k => Fmt.ffma_zero_inf,
    fun n k e d => Fmt.fcmp_zeros, Fmt.fcmp_nan⟩
  · exact Fmt.round_roundsOnce size rounding hm (t.measures_exact m e) nofun
  · exact Fmt.fdiv_roundsOnce size rounding hx hy hm hl

end Sys2Proof.Machine
end

section
/-!
PROOF. The fields of a 96-bit word (03 R76, R77, R80): each read from the encoder's word is the one that was written, and the fields that a
decoded word gives make up that word.
-/
namespace Sys2Proof

/-! ### Operand specifiers (03 R80) -/

theorem Opnd.ofByte_toByte (o : Opnd) : Opnd.ofByte o.toByte = some o := by
  cases o with
  | s i => revert i; decide
  | v i => revert i; decide
  | m i => revert i; decide
  | k i => revert i; decide
  | p i => revert i; decide
  | imm x => revert x; decide

theorem Opnd.toByte_getD_ofByte {b : Byte} (h : (Opnd.ofByte b).isSome = true) : ((Opnd.ofByte b).getD (.s 0)).toByte = b := by
  revert b; decide

/-! ### The two halves of the encoder's word -/

section
variable (r : Row) (f : Fields)

/-- Bits [47:0] of a word, which every form shares (03 R76). -/
def lowerHalf : BitVec (2 + 1 + 2 + 1 + 8 + 8 + 8 + 1 + 3 + 6 + 8) :=
  0#2 ++ BitVec.ofBool f.n ++ f.cp ++ BitVec.ofBool f.e ++ f.b.toByte ++ f.a.toByte ++ f.d.toByte ++ BitVec.ofBool f.gi ++ f.gp ++
    BitVec.ofNat 6 r.fn ++ BitVec.ofNat 8 r.op

/-- The C byte of a form: reserved in the R3 form (03 R77). -/
def Form.cByte (form : Form) (c : Opnd) : Byte := if form = .r3 then 0 else c.toByte

/-- Bits [95:48] of a word (03 R77). -/
def upperHalf : BitVec (32 + 8 + 8) :=
  if r.form = .i48 then f.imm else (f.imm.extractLsb' 0 32 ++ f.m ++ r.form.cByte f.c : BitVec (32 + 8 + 8))

theorem encodeFields_eq_halves : encodeFields r f = upperHalf r f ++ lowerHalf r f := by
  unfold encodeFields upperHalf Form.cByte
  cases r.form <;> rfl

theorem encodeFields_lower {n len : Nat} (h : n + len ≤ 48) : (encodeFields r f).extractLsb' n len = (lowerHalf r f).extractLsb' n len := by
  rw [encodeFields_eq_halves]
  exact BitVec.extractLsb'_append_eq_of_add_le h
theorem encodeFields_upper {n len : Nat} (h : 48 ≤ n) : (encodeFields r f).extractLsb' n len = (upperHalf r f).extractLsb' (n - 48) len := by
  rw [encodeFields_eq_halves]
  exact BitVec.extractLsb'_append_eq_of_le h

theorem getLsbD_of_extract {w : W96} {n : Nat} {b : Bool} (h : w.extractLsb' n 1 = BitVec.ofBool b) : w.getLsbD n = b := by
  rw [BitVec.getLsbD_eq_extractLsb', h]
  cases b <;> rfl

/-! ### Each field as the encoder writes it -/

theorem encodeFields_op : (encodeFields r f).extractLsb' 0 8 = BitVec.ofNat 8 r.op := by
  rw [encodeFields_lower r f (by decide), lowerHalf]
  exact BitVec.extractLsb'_append_eq_right
theorem encodeFields_fn : (encodeFields r f).extractLsb' 8 6 = BitVec.ofNat 6 r.fn := by
  rw [encodeFields_lower r f (by decide), lowerHalf, BitVec.extractLsb'_append_eq_of_le (by decide)]
  exact BitVec.extractLsb'_append_eq_right
theorem encodeFields_gp : (encodeFields r f).extractLsb' 14 3 = f.gp := by
  rw [encodeFields_lower r f (by decide), lowerHalf]
  iterate 2 rw [BitVec.extractLsb'_append_eq_of_le (by decide)]
  exact BitVec.extractLsb'_append_eq_right
theorem encodeFields_gi : (encodeFields r f).getLsbD 17 = f.gi := by
  refine getLsbD_of_extract ?_
  rw [encodeFields_lower r f (by decide), lowerHalf]
  iterate 3 rw [BitVec.extractLsb'_append_eq_of_le (by decide)]
  exact BitVec.extractLsb'_append_eq_right
theorem encodeFields_d : (encodeFields r f).extractLsb' 18 8 = f.d.toByte := by
  rw [encodeFields_lower r f (by decide), lowerHalf]
  iterate 4 rw [BitVec.extractLsb'_append_eq_of_le (by decide)]
  exact BitVec.extractLsb'_append_eq_right
theorem encodeFields_a : (encodeFields r f).extractLsb' 26 8 = f.a.toByte := by
  rw [encodeFields_lower r f (by decide), lowerHalf]
  iterate 5 rw [BitVec.extractLsb'_append_eq_of_le (by decide)]
  exact BitVec.extractLsb'_append_eq_right
theorem encodeFields_b : (encodeFields r f).extractLsb' 34 8 = f.b.toByte := by
  rw [encodeFields_lower r f (by decide), lowerHalf]
  iterate 6 rw [BitVec.extractLsb'_append_eq_of_le (by decide)]
  exact BitVec.extractLsb'_append_eq_right
theorem encodeFields_e : (encodeFields r f).getLsbD 42 = f.e := by
  refine getLsbD_of_extract ?_
  rw [encodeFields_lower r f (by decide), lowerHalf]
  iterate 7 rw [BitVec.extractLsb'_append_eq_of_le (by decide)]
  exact BitVec.extractLsb'_append_eq_right
theorem encodeFields_cp : (encodeFields r f).extractLsb' 43 2 = f.cp := by
  rw [encodeFields_lower r f (by decide), lowerHalf]
  iterate 8 rw [BitVec.extractLsb'_append_eq_of_le (by decide)]
  exact BitVec.extractLsb'_append_eq_right
theorem encodeFields_n : (encodeFields r f).getLsbD 45 = f.n := by
  refine getLsbD_of_extract ?_
  rw [encodeFields_lower r f (by decide), lowerHalf]
  iterate 9 rw [BitVec.extractLsb'_append_eq_of_le (by decide)]
  exact BitVec.extractLsb'_append_eq_right
theorem encodeFields_h : (encodeFields r f).extractLsb' 46 2 = 0 := by
  rw [encodeFields_lower r f (by decide), lowerHalf]
  iterate 10 rw [BitVec.extractLsb'_append_eq_of_le (by decide)]
  exact BitVec.extractLsb'_eq_self

theorem encodeFields_imm48 (h : r.form = .i48) : (encodeFields r f).extractLsb' 48 48 = f.imm := by
  rw [encodeFields_upper r f (by decide), upperHalf, if_pos h]
  exact BitVec.extractLsb'_eq_self

section
variable {r} (h : r.form ≠ .i48)
include h

theorem encodeFields_c : (encodeFields r f).extractLsb' 48 8 = r.form.cByte f.c := by
  rw [encodeFields_upper r f (by decide), upperHalf, if_neg h]
  exact BitVec.extractLsb'_append_eq_right
theorem encodeFields_m : (encodeFields r f).extractLsb' 56 8 = f.m := by
  rw [encodeFields_upper r f (by decide), upperHalf, if_neg h, BitVec.extractLsb'_append_eq_of_le (by decide)]
  exact BitVec.extractLsb'_append_eq_right
theorem encodeFields_imm32 : (encodeFields r f).extractLsb' 64 32 = f.imm.extractLsb' 0 32 := by
  rw [encodeFields_upper r f (by decide), upperHalf, if_neg h]
  iterate 2 rw [BitVec.extractLsb'_append_eq_of_le (by decide)]
  exact BitVec.extractLsb'_eq_self
end

end

/-! ### Fields to word and back -/

theorem Form.ne_i48_of_hasC {form : Form} (h : form.hasC = true) : form ≠ .i48 := by
  rintro rfl
  contradiction
theorem Form.cByte_of_hasC {form : Form} (h : form.hasC = true) (c : Opnd) : form.cByte c = c.toByte := by
  refine if_neg ?_
  rintro rfl
  contradiction

theorem Row.fits_iff {r : Row} {f : Fields} : r.fits f = true ↔ r.fieldError f = none ∧ (r.form.hasC = true ∨ f.c = .s 0) ∧
    (r.form.hasM = true ∨ f.m = 0) ∧ (r.form = .i48 ∨ f.imm.toNat < 2 ^ 32) := by
  simp only [Row.fits, Bool.and_eq_true, Bool.or_eq_true, decide_eq_true_eq, beq_iff_eq, Option.isNone_iff_eq_none, and_assoc]

/-- The immediate of a form that has no imm48 is the 32 bits of its word. -/
theorem setWidth_extract_of_lt {x : BitVec 48} (h : x.toNat < 2 ^ 32) : (x.extractLsb' 0 32).setWidth 48 = x := by
  refine BitVec.eq_of_toNat_eq ?_
  rw [BitVec.toNat_setWidth, BitVec.extractLsb'_toNat]
  simp only [Nat.shiftRight_zero]
  omega

/-- The decoder reads the fields that the encoder wrote, where they fit the form. -/
theorem rawFields_encodeFields {r : Row} {f : Fields} (fits : r.fits f = true) : rawFields r.form (encodeFields r f) = f := by
  obtain ⟨-, hc, hm, hi⟩ := Row.fits_iff.mp fits
  have c : (if r.form.hasC then (Opnd.ofByte ((encodeFields r f).extractLsb' 48 8)).getD (.s 0) else .s 0) = f.c := by
    split
    · next has => rw [encodeFields_c f (Form.ne_i48_of_hasC has), Form.cByte_of_hasC has, Opnd.ofByte_toByte, Option.getD_some]
    · next hasnt => exact (hc.resolve_left hasnt).symm
  have m : (if r.form.hasM then (encodeFields r f).extractLsb' 56 8 else 0) = f.m := by
    split
    · next has => exact encodeFields_m f fun e => by rw [e] at has; contradiction
    · next hasnt => exact (hm.resolve_left hasnt).symm
  have imm : (rawFields r.form (encodeFields r f)).imm = f.imm := by
    unfold rawFields
    dsimp only
    split
    · next i48 => exact encodeFields_imm48 r f i48
    · next i32 => rw [encodeFields_imm32 f i32, setWidth_extract_of_lt (hi.resolve_left i32)]
  simp only [rawFields] at imm ⊢
  rw [imm, c, m, encodeFields_d, encodeFields_a, encodeFields_b, encodeFields_gp, encodeFields_cp, encodeFields_gi, encodeFields_e, encodeFields_n]
  simp only [Opnd.ofByte_toByte, Option.getD_some]

theorem specsOk_encodeFields (r : Row) (f : Fields) : specsOk r.form (encodeFields r f) = true := by
  have c : (!r.form.hasC || (Opnd.ofByte ((encodeFields r f).extractLsb' 48 8)).isSome) = true := by
    cases has : r.form.hasC with
    | false => rfl
    | true => rw [encodeFields_c f (Form.ne_i48_of_hasC has), Form.cByte_of_hasC has, Opnd.ofByte_toByte]; rfl
  rw [specsOk, c, encodeFields_d, encodeFields_a, encodeFields_b]
  simp only [Opnd.ofByte_toByte]
  rfl

theorem looseOk_encodeFields (r : Row) (f : Fields) : looseOk r.form (encodeFields r f) = true := by
  have c : (r.form != .r3 || (encodeFields r f).extractLsb' 48 8 = 0) = true := by
    cases form : r.form with
    | r3 =>
      rw [encodeFields_c f (by rw [form]; decide), form]
      rfl
    | r4 | i32 | i48 | br | eng => rfl
  rw [looseOk, c, encodeFields_h]
  rfl

/-! ### Word to fields and back -/

theorem ofBool_getLsbD (w : W96) (n : Nat) : BitVec.ofBool (w.getLsbD n) = w.extractLsb' n 1 := by
  rw [BitVec.getLsbD_eq_extractLsb']
  generalize w.extractLsb' n 1 = b
  revert b
  decide

theorem Form.hasM_of_ne {form : Form} (i48 : form ≠ .i48) : form.hasM = true := by
  cases form with
  | i48 => contradiction
  | r3 | r4 | i32 | br | eng => rfl
theorem Form.hasC_of_ne {form : Form} (i48 : form ≠ .i48) (r3 : form ≠ .r3) : form.hasC = true := by
  cases form with
  | i48 | r3 => contradiction
  | r4 | i32 | br | eng => rfl

section
variable {r : Row} {w : W96} (loose : looseOk r.form w = true) (specs : specsOk r.form w = true)
include loose specs

theorem lowerHalf_rawFields (op : BitVec.ofNat 8 r.op = w.extractLsb' 0 8) (fn : BitVec.ofNat 6 r.fn = w.extractLsb' 8 6) :
    lowerHalf r (rawFields r.form w) = w.extractLsb' 0 48 := by
  simp only [specsOk, Bool.and_eq_true] at specs
  obtain ⟨⟨⟨d, a⟩, b⟩, -⟩ := specs
  simp only [looseOk, Bool.and_eq_true, decide_eq_true_eq] at loose
  have h : 0#2 = w.extractLsb' 46 2 := loose.1.symm
  simp only [lowerHalf, rawFields, op, fn, h, ofBool_getLsbD, Opnd.toByte_getD_ofByte d, Opnd.toByte_getD_ofByte a, Opnd.toByte_getD_ofByte b,
    BitVec.extractLsb'_append_extractLsb'_eq_extractLsb']

theorem cByte_rawFields (i48 : r.form ≠ .i48) : r.form.cByte (rawFields r.form w).c = w.extractLsb' 48 8 := by
  by_cases r3 : r.form = .r3
  · simp only [looseOk, r3, Bool.and_eq_true, bne_self_eq_false, Bool.false_or, decide_eq_true_eq] at loose
    rw [loose.2, Form.cByte, if_pos r3]
  · have has := Form.hasC_of_ne i48 r3
    simp only [specsOk, has, Bool.and_eq_true, Bool.not_true, Bool.false_or] at specs
    simp only [rawFields, Form.cByte_of_hasC has, has, if_true, Opnd.toByte_getD_ofByte specs.2]

theorem upperHalf_rawFields : upperHalf r (rawFields r.form w) = w.extractLsb' 48 48 := by
  unfold upperHalf
  split
  · next i48 => simp only [rawFields, i48]
  · next i48 =>
    have imm : (rawFields r.form w).imm.extractLsb' 0 32 = w.extractLsb' 64 32 := by
      simp only [rawFields]
      rw [BitVec.extractLsb'_setWidth_of_le (by decide), BitVec.extractLsb'_eq_self]
    have m : (rawFields r.form w).m = w.extractLsb' 56 8 := if_pos (Form.hasM_of_ne i48)
    simp only [imm, m, cByte_rawFields loose specs i48, BitVec.extractLsb'_append_extractLsb'_eq_extractLsb']

/-- A word that passes the checks of its form is made up of the fields that the decoder reads (03 R76, R77, R84). -/
theorem encodeFields_rawFields (op : BitVec.ofNat 8 r.op = w.extractLsb' 0 8) (fn : BitVec.ofNat 6 r.fn = w.extractLsb' 8 6) :
    encodeFields r (rawFields r.form w) = w := by
  rw [encodeFields_eq_halves, lowerHalf_rawFields loose specs op fn, upperHalf_rawFields loose specs]
  exact BitVec.extractLsb'_append_extractLsb'
end

/-- The fields that the decoder reads have nothing where their form has no field (03 R77). -/
theorem rawFields_fits {r : Row} {w : W96} (err : r.fieldError (rawFields r.form w) = none) : r.fits (rawFields r.form w) = true := by
  refine Row.fits_iff.mpr ⟨err, ?_, ?_, ?_⟩
  · cases has : r.form.hasC <;> simp [rawFields, has]
  · cases has : r.form.hasM <;> simp [rawFields, has]
  · by_cases i48 : r.form = .i48
    · exact .inl i48
    · have := (w.extractLsb' 64 32).isLt
      simp [rawFields, i48]
      omega

end Sys2Proof
end

section
/-!
PROOF. O1, O2, O3: words and instructions (03 R75 to R84, R90).
-/
namespace Sys2Proof

/-! ### The table and the constructors (03 R90) -/

/-- A row of the table: its OP and FN fit their fields, its OP has its form, and OP, FN and a modifier that it allows name its instruction. -/
structure Row.Names (r : Row) (f : Fields) (i : Instr) : Prop where
  op : r.op < 2 ^ 8
  fn : r.fn < 2 ^ 6
  form : opAllocated r.op = some r.form
  ctor : r.m.ok f.m = true → ∃ mk, ctorAt r.op r.fn = some mk ∧ mk f = i

/-- Where one function has two rows, its modifier byte says which (03 R90). -/
theorem ite_of_is_zero {m : Byte} {x y : Instr} (ok : MRule.ok m (.is 0) = true) : (if m = 1 then x else y) = y := by
  refine if_neg ?_
  rintro rfl
  contradiction
theorem ite_of_is_one {m : Byte} {x y : Instr} (ok : MRule.ok m (.is 1) = true) : (if m = 1 then x else y) = x := by
  refine if_pos (BitVec.eq_of_toNat_eq ?_)
  simpa [MRule.ok] using ok

theorem rowOf_names {i : Instr} {r : Row} {f : Fields} (h : rowOf i = some (r, f)) : r.Names f i := by
  cases i
  case iaMov | ctlBr | cpFfr | mxChk | ropePin | qClose =>
    cases h
    exact ⟨by decide, by decide, rfl, fun ok => ⟨_, rfl, ite_of_is_zero ok⟩⟩
  case iaMovC | ctlBrBq | cpFfrRec | mxChkInject | ropePinH | qCloseKill =>
    cases h
    exact ⟨by decide, by decide, rfl, fun ok => ⟨_, rfl, ite_of_is_one ok⟩⟩
  case amoAdd dbl _ | amoAnd dbl _ | amoOr dbl _ | amoXor dbl _ | amoMin dbl _ | amoMax dbl _ | amoMinu dbl _ | amoMaxu dbl _ | amoSwap dbl _ | amoCas dbl _ =>
    cases h
    cases dbl <;> exact ⟨by decide, by decide, rfl, fun _ => ⟨_, rfl, rfl⟩⟩
  all_goals
    cases h <;> exact ⟨by decide, by decide, rfl, fun _ => ⟨_, rfl, rfl⟩⟩

theorem rowOf_ctorAt {op fn : Nat} {mk : Fields → Instr} (h : ctorAt op fn = some mk) (f : Fields) :
    ∃ r, rowOf (mk f) = some (r, f) ∧ r.op = op ∧ r.fn = fn := by
  have made : (ctorAt op fn).map (fun g => g f) = some (mk f) := by rw [h, Option.map_some]
  generalize mk f = i at made
  unfold ctorAt at made
  repeat' split at made
  all_goals
    dsimp only [Option.map] at made
    cases made <;> repeat' split
  all_goals exact ⟨_, rfl, rfl, rfl⟩

/-! ### Decoding -/

/-- The checks that the row of an instruction passes: reserved bits and modifier (03 R84 codes 2 and 5). -/
theorem Row.checks_of_fieldError {r : Row} {f : Fields} (h : r.fieldError f = none) : r.imm.resvOk f.imm = true ∧ r.m.ok f.m = true := by
  unfold Row.fieldError at h
  split at h
  · contradiction
  next resv =>
  split at h
  · contradiction
  split at h
  · contradiction
  next m => simpa using And.intro resv m

/-- What the decoder has found when it answers an instruction (03 R84). -/
theorem decodeWord_ok_iff {w : W96} {i : Instr} : decodeWord w = .ok i ↔ ∃ form mk r f, opAllocated (w.extractLsb' 0 8).toNat = some form ∧
    ctorAt (w.extractLsb' 0 8).toNat (w.extractLsb' 8 6).toNat = some mk ∧ mk (rawFields form w) = i ∧ rowOf i = some (r, f) ∧
    looseOk form w = true ∧ specsOk form w = true ∧ r.fieldError f = none := by
  unfold decodeWord
  constructor
  · intro h
    split at h
    · contradiction
    next form alloc =>
    split at h
    · contradiction
    next mk ctor =>
    dsimp only at h
    split at h
    · contradiction
    next r f row =>
    split at h
    · contradiction
    next loose =>
    split at h
    · contradiction
    next specs =>
    split at h
    · contradiction
    next err =>
    cases h
    simp only [Bool.not_eq_true, Bool.not_eq_false', Bool.and_eq_true] at loose specs
    exact ⟨form, mk, r, f, alloc, ctor, rfl, row, loose.1, specs, err⟩
  · rintro ⟨form, mk, r, f, alloc, ctor, rfl, row, loose, specs, err⟩
    simp only [alloc, ctor, row, loose, specs, err, (Row.checks_of_fieldError err).1]
    rfl

/-- Settles O2: the decoder finds the row of the word's OP and FN, and reads the fields that the encoder wrote. -/
theorem threadWordsRoundTrip : Obligations.ThreadWordsRoundTrip := by
  unfold Obligations.ThreadWordsRoundTrip
  intro i w wf enc
  obtain ⟨⟨r, f⟩, row, rfl⟩ := Option.map_eq_some_iff.mp enc
  simp only [Instr.wf, row] at wf
  obtain ⟨err, -⟩ := Row.fits_iff.mp wf
  have names := rowOf_names row
  obtain ⟨mk, ctor, rfl⟩ := names.ctor (Row.checks_of_fieldError err).2
  refine decodeWord_ok_iff.mpr ⟨r.form, mk, r, f, ?_, ?_, ?_, row, looseOk_encodeFields r f, specsOk_encodeFields r f, err⟩
  · rw [encodeFields_op, BitVec.toNat_ofNat, Nat.mod_eq_of_lt names.op, names.form]
  · rw [encodeFields_op, encodeFields_fn, BitVec.toNat_ofNat, BitVec.toNat_ofNat, Nat.mod_eq_of_lt names.op, Nat.mod_eq_of_lt names.fn, ctor]
  · rw [rawFields_encodeFields wf]

/-! ### Bytes (03 R75) -/

theorem wordLE_append (bs cs : List Byte) : wordLE (bs ++ cs) = wordLE bs + 256 ^ bs.length * wordLE cs := by
  induction bs with
  | nil => simp [wordLE]
  | cons b bs ih =>
    rw [List.cons_append, wordLE, ih, wordLE, List.length_cons, Nat.pow_succ', Nat.mul_add, Nat.mul_assoc, Nat.add_assoc]

/-- The bytes of a word in ascending order are its number. -/
theorem wordLE_bytes (w : W96) (n : Nat) : wordLE ((List.range n).map fun k => w.extractLsb' (8 * k) 8) = w.toNat % 256 ^ n := by
  induction n with
  | zero => simp [wordLE, Nat.mod_one]
  | succ n ih =>
    rw [List.range_succ, List.map_append, wordLE_append, ih, List.length_map, List.length_range, List.map_singleton, Nat.mod_pow_succ]
    simp [wordLE, BitVec.extractLsb'_toNat, Nat.shiftRight_eq_div_pow, Nat.pow_mul]

theorem decodeBytes_word (w : W96) (rest : List Byte) :
    decodeBytes ((List.range 12).map (fun k => w.extractLsb' (32 * (k / 4) + 8 * (k % 4)) 8) ++ rest) = (decodeWord w).map fun i => (i, rest) := by
  have parcels : (List.range 12).map (fun k => w.extractLsb' (32 * (k / 4) + 8 * (k % 4)) 8) = (List.range 12).map fun k => w.extractLsb' (8 * k) 8 :=
    rfl
  have length : ((List.range 12).map fun k => w.extractLsb' (8 * k) 8).length = 12 := by rw [List.length_map, List.length_range]
  have word : BitVec.ofNat 96 (wordLE ((List.range 12).map fun k => w.extractLsb' (8 * k) 8)) = w := by
    rw [wordLE_bytes, Nat.mod_eq_of_lt (show w.toNat < 256 ^ 12 from w.isLt), BitVec.ofNat_toNat, BitVec.setWidth_eq]
  rw [parcels, decodeBytes, List.take_left' length, List.drop_left' length, word, if_neg]
  rw [List.length_append, length]
  omega

/-- Settles O3: the decoder reads every bit of a word into a field or checks that it is as its form has it. -/
theorem decodedWordsEncodeBack : Obligations.DecodedWordsEncodeBack := by
  unfold Obligations.DecodedWordsEncodeBack
  refine ⟨?_, decodeBytes_word, fun bs short => ⟨0, if_pos short⟩⟩
  intro i w h
  obtain ⟨form, mk, r, f, alloc, ctor, rfl, row, loose, specs, err⟩ := decodeWord_ok_iff.mp h
  obtain ⟨r', row', op, fn⟩ := rowOf_ctorAt ctor (rawFields form w)
  obtain ⟨rfl, rfl⟩ : r' = r ∧ rawFields form w = f := by simpa [row'] using row
  obtain rfl : r'.form = form := Option.some.inj (by rw [← alloc, ← op, (rowOf_names row).form])
  constructor
  · simp only [Instr.wf, row, rawFields_fits err]
  · rw [encode, row, Option.map_some, encodeFields_rawFields loose specs]
    · rw [op, BitVec.ofNat_toNat, BitVec.setWidth_eq]
    · rw [fn, BitVec.ofNat_toNat, BitVec.setWidth_eq]

/-- Settles O1: each word is evaluated. -/
theorem manualWordsDecode : Obligations.ManualWordsDecode := by
  unfold Obligations.ManualWordsDecode
  exact ⟨rfl, rfl, rfl, rfl, rfl, rfl⟩

end Sys2Proof
end

section
/-!
PROOF. O10, O11, O12: the checks of an issue that come before the effect (03 R82, R83 steps 2 to 5, R85, R86).
-/
namespace Sys2Proof.Machine

/-- Every thread instruction runs through the one shared issue, with a body of its own (03 R83). -/
theorem exec_thread {i : Instr} {r : Row} {f : Fields} (h : rowOf i = some (r, f)) (s : State) :
    ∃ body, exec i s = .next (runRow r f body s.cur.1 s.cur.2 s) := by
  have thread : ∃ body, exec i s = .next (runThread i body s) := by
    cases i <;> cases h <;> exact ⟨_, rfl⟩
  obtain ⟨body, run⟩ := thread
  exact ⟨charged r (body f), by rw [run, runThread, h]⟩

/-! ### The outcome of each check, in the order of the checks -/

section
variable {i : Instr} {r : Row} {f : Fields} {s : State} (row : rowOf i = some (r, f)) (enc : r.dynError f s.me = false)
include row enc

theorem exec_of_classError {k : Nat} (cls : r.classError f = some k) : exec i s = .next (s.traps 2 k (encodeFields r f)) := by
  obtain ⟨body, run⟩ := exec_thread row s
  rw [State.me] at enc
  simp only [run, runRow, enc, cls]
  rfl

variable (cls : r.classError f = none)
include cls

theorem exec_of_mode_lt (mode : s.me.mode.num < r.mode) : exec i s = .next (s.traps 3 0 (encodeFields r f)) := by
  obtain ⟨body, run⟩ := exec_thread row s
  rw [State.me] at enc mode
  simp only [run, runRow, enc, cls, mode, if_true]
  rfl

theorem exec_of_guard_false (mode : r.mode ≤ s.me.mode.num) (here : s.incoming s.cur.1 s.cur.2 = false) (guard : s.me.guard f = false)
    (limit : s.me.region = none ∨ s.me.icount < 64) : exec i s = .next s.next := by
  obtain ⟨body, run⟩ := exec_thread row s
  have within : (s.me.region.isSome && decide (64 ≤ s.me.icount)) = false := by
    rcases limit with none | lt
    · rw [none]
      rfl
    · rw [decide_eq_false (Nat.not_le.mpr lt), Bool.and_false]
  rw [State.me] at enc mode guard within
  simp only [run, runRow, enc, cls, Nat.not_lt.mpr mode, here, guard, within]
  exact congrArg _ (finish_ok s s rfl)
end

/-- The detail of the trap is the first field that fails its class (03 R85). -/
theorem classError_eq_some {r : Row} {f : Fields} {k : Nat} (h : r.classError f = some k) :
    (k = 0 ∧ r.d.dstOk f.m f.d = false) ∨ (k = 1 ∧ r.d.dstOk f.m f.d = true ∧ r.a.srcOk f.m f.a = false) ∨
      (k = 2 ∧ r.d.dstOk f.m f.d = true ∧ r.a.srcOk f.m f.a = true ∧ r.b.srcOk f.m f.b = false) ∨
      (k = 3 ∧ r.d.dstOk f.m f.d = true ∧ r.a.srcOk f.m f.a = true ∧ r.b.srcOk f.m f.b = true ∧ r.c.srcOk f.m f.c = false) := by
  unfold Row.classError at h
  repeat' split at h
  all_goals simp_all

/-- Settles O10: the class check comes before the checks of mode and guard (03 R83 steps 3 to 5), and names the first field that fails. -/
theorem operandClassTrap : Obligations.OperandClassTrap := by
  unfold Obligations.OperandClassTrap
  exact fun i r f s k row enc cls => ⟨exec_of_classError row enc cls, classError_eq_some cls⟩

/-- Settles O11: the check of the mode comes before the guard (03 R83 steps 4 and 5). -/
theorem privilegeTrap : Obligations.PrivilegeTrap := by
  unfold Obligations.PrivilegeTrap
  exact fun i r f s row enc cls mode => exec_of_mode_lt row enc cls mode

/-- Settles O12: a false guard ends the issue as an instruction that has done nothing (03 R82). -/
theorem falseGuardSuppressesTheWholeEffect : Obligations.FalseGuardSuppressesTheWholeEffect := by
  unfold Obligations.FalseGuardSuppressesTheWholeEffect
  intro i r f s row enc cls mode here guard limit
  exact exec_of_guard_false row enc cls mode here (by rw [Thread.guard, guard, bne_self_eq_false]) limit

end Sys2Proof.Machine
end

section
/-!
PROOF. O5: whose move the next step is, and the instruction that it runs (01 R10, 03 R83, R84, 19 R390, R395).
-/
namespace Sys2Proof.Machine

/-! ### The first of a list that is due -/

theorem takeFirst_eq_none {α : Type} {p : α → Bool} {l : List α} (h : ∀ x ∈ l, p x = false) : takeFirst p l = none := by
  induction l with
  | nil => rfl
  | cons x l ih =>
    obtain ⟨hx, hl⟩ := List.forall_mem_cons.mp h
    rw [takeFirst, hx, ih hl]
    rfl

theorem takeFirst_append {α : Type} {p : α → Bool} {before rest : List α} {x : α} (h : ∀ y ∈ before, p y = false) (hx : p x = true) :
    takeFirst p (before ++ x :: rest) = some (x, before ++ rest) := by
  induction before with
  | nil => rw [List.nil_append, takeFirst, hx]; rfl
  | cons y before ih =>
    obtain ⟨hy, hl⟩ := List.forall_mem_cons.mp h
    rw [List.cons_append, takeFirst, hy, ih hl]
    rfl

theorem takeFirst_not_none {α : Type} {p : α → Bool} {l : List α} (h : ∀ x ∈ l, p x = true) : takeFirst (!p ·) l = none :=
  takeFirst_eq_none fun x hx => by rw [h x hx, Bool.not_true]
theorem takeFirst_not_append {α : Type} {p : α → Bool} {before rest : List α} {x : α} (h : ∀ y ∈ before, p y = true) (hx : p x = false) :
    takeFirst (!p ·) (before ++ x :: rest) = some (x, before ++ rest) :=
  takeFirst_append (fun y hy => by rw [h y hy, Bool.not_true]) (by rw [hx, Bool.not_false])

/-! ### The next move -/

section
variable {s : State}

theorem nextMove_agenda {ins : Instr} {before rest : List Instr} (aborts : s.aborts = []) (agenda : s.agenda = before ++ ins :: rest)
    (outside : ∀ j ∈ before, fromOutside j = true) (inside : fromOutside ins = false) :
    nextMove s = .run ins { s with agenda := before ++ rest } := by
  simp only [nextMove, aborts, agenda, takeFirst_not_append outside inside]

theorem nextMove_due {d : Due} {before rest : List Due} (aborts : s.aborts = []) (agenda : ∀ i ∈ s.agenda, fromOutside i = true)
    (due : s.due = before ++ d :: rest) (late : ∀ j ∈ before, s.arriving j = true) (now : s.arriving d = false) :
    nextMove s = .run d.instr { s with due := before ++ rest } := by
  simp only [nextMove, aborts, takeFirst_not_none agenda, due, takeFirst_not_append late now]

theorem nextMove_engine {p : Nat} {b : Bool} (quiet : Quiet s) (engine : s.engineAt s.turn = some (p, b)) : nextMove s = s.engineMove p b := by
  obtain ⟨aborts, agenda, due⟩ := quiet
  simp only [nextMove, aborts, takeFirst_not_none agenda, takeFirst_not_none due, engine]

theorem engineMove_overrun {p : Nat} {b : Bool} (spent : (s.engine p b).budget ≤ (s.engine p b).steps) :
    s.engineMove p b = .run (.decisionOverrun p b) { s with curEng := (p, b), turn := 2 * p + b.toNat + 1 } := by
  simp only [State.engineMove, spent, if_true]

theorem engineMove_cue {p : Nat} {b : Bool} {w : W32} {i : Instr} (left : (s.engine p b).steps < (s.engine p b).budget)
    (word : (s.engine p b).prog[(s.engine p b).pc]? = some w) (cue : decodeCue w = some i) :
    s.engineMove p b = .run i (({ s with curEng := (p, b), turn := 2 * p + b.toNat + 1 } : State).setEngine p b
      { s.engine p b with steps := (s.engine p b).steps + 1 }) := by
  simp only [State.engineMove, Nat.not_le.mpr left, word, cue, if_false]
end

/-! ### The slot that issues -/

section
variable {s s1 : State} {c i : Nat} {bs : List Byte}

/-- A thread in which nothing is takeable, or that issues an instruction again, has no step at its boundary (01 R40, 06 R174, 07 R203). -/
theorem boundaryStep_eq_none (calm : (s.th c i).again = true ∨ (((s.th c i).ckTrap.isSome && !(s.th c i).pktOpen) = false ∧ s.followInt c i = none ∧
    ((s.th c i).arrivalReady && !s.lockHolds c i) = false ∧ (s.timerTakes c i && !s.lockHolds c i) = false)) : s.boundaryStep c i = none := by
  unfold State.boundaryStep
  rcases calm with again | ⟨check, follow, arrival, timer⟩
  · simp only [again, if_true]
  · simp [check, follow, arrival, timer]

/-- What the bytes that a slot has fetched make its move. -/
noncomputable def codeMove (c i : Nat) (w : W96) (s : State) : Move :=
  match decodeWord w with
  | .error k => .go (s.takeTrap c i ⟨1, illegalCode w (s.th c i) k, w, false⟩)
  | .ok ins => .run ins s

theorem nextMove_issues (h : Issues s c i bs s1) : nextMove s = codeMove c i (BitVec.ofNat 96 (wordLE bs)) s1 := by
  obtain ⟨⟨aborts, agenda, due⟩, engine, turn, calm, waits, fetched⟩ := h
  simp only [nextMove, aborts, takeFirst_not_none agenda, takeFirst_not_none due, engine]
  generalize s.cellAtTurn (max s.turn 512) (s.cells.map (·.1)) = x at turn calm waits fetched ⊢
  obtain ⟨s', chosen⟩ := x
  subst turn
  dsimp only at calm waits fetched ⊢
  simp only [State.slotMove, boundaryStep_eq_none calm, waits, fetched]
  rfl
end

/-- Settles O5: the next move is the first that is due, the decision engine's, or that of the slot whose turn it is. -/
theorem stepRunsTheDecodedInstruction : Obligations.StepRunsTheDecodedInstruction := by
  unfold Obligations.StepRunsTheDecodedInstruction
  refine ⟨?_, ?_, ?_, ?_, ?_⟩
  · intro s c i bs s1 ins issues word
    simp only [step, nextMove_issues issues, codeMove, word]
  · intro s c i bs s1 k issues word
    simp only [step, nextMove_issues issues, codeMove, word]
  · intro s ins before rest aborts agenda outside inside
    simp only [step, nextMove_agenda aborts agenda outside inside]
  · intro s d before rest aborts agenda due late now
    simp only [step, nextMove_due aborts agenda due late now]
  · intro s p b quiet engine
    constructor
    · intro spent
      simp only [step, nextMove_engine quiet engine, engineMove_overrun spent]
    · intro w i left word cue
      simp only [step, nextMove_engine quiet engine, engineMove_cue left word cue]

end Sys2Proof.Machine
end

section
/-!
PROOF. O6: the fetch of code in the own pool (03 R83 step 1, R94; 06 R143).
-/
namespace Sys2Proof.Machine

/-! ### Bytes of a number in memory (02 R45) -/

theorem natToBytes_readNat_succ (m : List Host.Cell) (key n : Nat) :
    natToBytes (n + 1) (readNat m key (n + 1)) = readByte m key :: natToBytes n (readNat m (key + 1) n) := by
  have := (readByte m key).isLt
  rw [readNat, natToBytes, show ((readByte m key).toNat + 256 * readNat m (key + 1) n) / 256 = readNat m (key + 1) n by omega]
  congr 1
  refine BitVec.eq_of_toNat_eq ?_
  rw [BitVec.toNat_ofNat]
  omega

theorem getD_natToBytes_readNat (m : List Host.Cell) (key n j : Nat) (h : j < n) :
    (natToBytes n (readNat m key n)).getD j 0 = readByte m (key + j) := by
  induction n generalizing key j with
  | zero => omega
  | succ n ih =>
    rw [natToBytes_readNat_succ]
    cases j with
    | zero => rfl
    | succ j => rw [List.getD_cons_succ, ih (key + 1) j (by omega), Nat.add_right_comm, Nat.add_assoc]

/-! ### An own-pool address (06 R143) -/

theorem kindOf_of_lt {key : Nat} (h : key < 2 ^ 31) : kindOf key = .pool (key / 2 ^ 20) := if_pos h

theorem poolKey_line_le {c o : Nat} (cell : c < 1024) (inside : o < 2 ^ 20) : poolKey c (64 * (o / 64)) + 64 ≤ 2 ^ 31 := by
  unfold poolKey
  omega

theorem spaceOf_ownPool {s : State} {c o : Nat} (part : Nat) (user : Bool) (inside : o < 2 ^ 20) (above : bits (s.cell c).pword 0 8 * 4096 ≤ o) :
    s.spaceOf part c user (0xE00000000000 + o) 1 = .ok (some (poolKey c o)) := by
  have sp : (0xE00000000000 + o) / 2 ^ 44 % 16 = 14 := by omega
  have zero : (0xE00000000000 + o) / 2 ^ 20 % 2 ^ 24 = 0 := by omega
  have low : (0xE00000000000 + o) % 2 ^ 20 = o := by omega
  unfold State.spaceOf
  dsimp only
  rw [sp, zero, low]
  simp [Nat.not_lt.mpr above]

/-- No throttling holds an access to a pool (21 R436). -/
theorem holdAct_pool (s : State) (f agent : Nat) {key : Nat} (n : Nat) (pool : key + n ≤ 2 ^ 31) (pos : 0 < n) :
    s.holdAct f agent [(key, n)] = (s, none) := by
  have behind : s.behind none f [(key, n)] false = false := by
    have notHbm : isHbm key = false := by
      unfold isHbm
      rw [Bool.and_eq_false_iff]
      left
      rw [decide_eq_false_iff_not]
      omega
    simp [State.behind, notHbm]
  have rows : s.rowsWait (some f) [(key, n)] = none := by
    have free (u : Nat) (hu : u ∈ units 64 key n) : s.throttleWait (some f) (64 * u) = none := by
      have : 64 * u < 2 ^ 31 := by
        unfold units at hu
        rw [if_neg (by omega)] at hu
        obtain ⟨j, hj, rfl⟩ := List.mem_map.mp hu
        have := List.mem_range.mp hj
        omega
      unfold State.throttleWait
      rw [kindOf_of_lt this]
    unfold State.rowsWait
    rw [List.flatMap_cons, List.flatMap_nil, List.append_nil]
    dsimp only
    rw [List.filterMap_eq_nil_iff.mpr free]
    rfl
  unfold State.holdAct State.holdFor
  simp only [behind, rows, Bool.false_eq_true, if_false]

theorem poisoned_eq_false {s : State} {key n : Nat} (h : ∀ k, key / 4 ≤ k → k ≤ (key + n - 1) / 4 → k ∉ s.poison) : s.poisoned key n = false := by
  refine List.any_eq_false.mpr fun u hu => ?_
  unfold units at hu
  split at hu
  · contradiction
  · obtain ⟨j, hj, rfl⟩ := List.mem_map.mp hu
    have := List.mem_range.mp hj
    simpa using h (j + key / 4) (by omega) (by omega)

/-! ### The fetch -/

/-- The bytes that the pool of a cell holds in a 64-byte line. -/
def poolLine (m : List Host.Cell) (c line : Nat) : List Byte := natToBytes 64 (readNat m (poolKey c (64 * line)) 64)

/-- A fetch of code at `off` of the own pool of cell `c`, begun in state `s`, has reached state `t`: the cluster keeps of that pool only lines as
memory holds them, which user mode may execute. -/
structure Fetching (c : Nat) (s t : State) : Prop where
  mem : t.mem = s.mem
  poison : t.poison = s.poison
  cells : t.cells = s.cells
  lines : ∀ x ∈ t.icache, x.1 = clusterOf c → x.2.1 = 8192 + c → x.2.2.2 = (true, poolLine s.mem c x.2.2.1)

namespace Fetching
variable {c : Nat} {s t : State}

theorem th (h : Fetching c s t) (i : Nat) : t.th c i = s.th c i := by
  rw [State.th, State.th, State.slot, State.slot, State.cell, State.cell, h.cells]

theorem lineHeld_cases (h : Fetching c s t) (line : Nat) :
    lineHeld t (clusterOf c) (8192 + c) line = none ∨ lineHeld t (clusterOf c) (8192 + c) line = some (true, poolLine s.mem c line) := by
  unfold lineHeld
  cases found : t.icache.find? fun (a, b, l, _) => a = clusterOf c && b = 8192 + c && l = line with
  | none => exact .inl rfl
  | some x =>
    right
    have is := List.find?_some found
    simp only [Bool.and_eq_true, decide_eq_true_eq] at is
    obtain ⟨⟨cluster, space⟩, rfl⟩ := is
    rw [Option.map_some, h.lines x (List.mem_of_find?_eq_some found) cluster space]

theorem spends {u : State} (h : Fetching c s t) (e : Spends t u) : Fetching c s u := by
  obtain ⟨_, _, _, _, rfl⟩ := e
  exact ⟨h.mem, h.poison, h.cells, h.lines⟩

theorem fillLine (h : Fetching c s t) (line : Nat) :
    Fetching c s (t.fillLine (clusterOf c) (8192 + c) line (poolKey c (64 * line)) true).1 ∧
      (t.fillLine (clusterOf c) (8192 + c) line (poolKey c (64 * line)) true).2 = poolLine s.mem c line := by
  refine ⟨⟨h.mem, h.poison, h.cells, fun x hx cluster space => ?_⟩, by rw [State.fillLine, h.mem, poolLine]⟩
  rcases List.mem_append.mp hx with kept | new
  · refine h.lines x ?_ cluster space
    revert kept
    split
    · exact id
    · exact fun kept => (List.mem_filter.mp kept).1
  · obtain rfl := List.mem_singleton.mp new
    rw [h.mem, poolLine]

end Fetching

/-- The code of a user-mode thread at `off` of its own pool, which its capability lets it fetch and in which nothing is poisoned (03 R83 step 1). -/
structure OwnCode (s : State) (c i off : Nat) : Prop where
  cell : c < 1024
  inside : off + 128 ≤ 2 ^ 20
  mode : (s.th c i).mode = .user
  tag : (s.th c i).ucap.tag = true
  exec : (s.th c i).ucap.has permExec = true
  base : (s.th c i).ucap.base ≤ 0xE00000000000 + off
  top : 0xE00000000000 + off + 12 ≤ (s.th c i).ucap.top
  above : bits (s.cell c).pword 0 8 * 4096 ≤ off
  clean : ∀ k, off / 64 * 16 ≤ k → k < off / 64 * 16 + 32 → (2 ^ 18 * c + k) ∉ s.poison

section
variable {s t : State} {c i off : Nat} (code : OwnCode s c i off)
include code

theorem OwnCode.capCheck_eq_none {o : Nat} (lo : off ≤ o) (hi : o < off + 12) :
    capCheck (s.th c i).codeCap [permExec] (0xE00000000000 + o) 1 = none := by
  have base := code.base
  have top := code.top
  have bounds : (s.th c i).ucap.base ≤ 0xE00000000000 + o ∧ 0xE00000000000 + o + 1 ≤ (s.th c i).ucap.top := by omega
  unfold capCheck Thread.codeCap
  rw [code.mode]
  simp [code.tag, code.exec, bounds]

theorem OwnCode.not_poisoned (h : Fetching c s t) {a n : Nat} (lo : off / 64 * 64 ≤ a) (hi : a + n ≤ off / 64 * 64 + 128) (pos : 0 < n) :
    t.poisoned (poolKey c a) n = false := by
  refine poisoned_eq_false fun k hk hk' => ?_
  unfold poolKey at hk hk'
  rw [h.poison, show k = 2 ^ 18 * c + (k - 2 ^ 18 * c) by omega]
  exact code.clean _ (by omega) (by omega)

/-- Each byte is read as the pool holds it, from a line that the cluster keeps or from memory. -/
theorem OwnCode.fetchByte (h : Fetching c s t) {o : Nat} (lo : off ≤ o) (hi : o < off + 12) :
    ∃ u, t.fetchByte c i (0xE00000000000 + o) = (u, .ok (some (readByte s.mem (poolKey c o)))) ∧ Fetching c s u := by
  have cell := code.cell
  have inside := code.inside
  have above := code.above
  have space : t.space c i true (0xE00000000000 + o) 1 = .ok (some (poolKey c o)) := by
    refine spaceOf_ownPool _ true (by omega) ?_
    rw [State.cell, h.cells]
    exact Nat.le_trans above lo
  have small : o < 2 ^ 20 := by omega
  have number : 8192 + poolKey c o / 2 ^ 20 = 8192 + c := by unfold poolKey; omega
  have line : (0xE00000000000 + o) % 2 ^ 20 / 64 = o / 64 := by omega
  have start : poolKey c o - poolKey c o % 64 = poolKey c (64 * (o / 64)) := by unfold poolKey; omega
  have byte : (poolLine s.mem c (o / 64)).getD ((0xE00000000000 + o) % 64) 0 = readByte s.mem (poolKey c o) := by
    rw [poolLine, getD_natToBytes_readNat _ _ _ _ (by omega), show poolKey c (64 * (o / 64)) + (0xE00000000000 + o) % 64 = poolKey c o by
      unfold poolKey; omega]
  unfold State.fetchByte
  simp only [h.th, code.capCheck_eq_none lo hi, code.mode, decide_true, space, Option.isSome_some, Option.isNone_some, Bool.false_and,
    Bool.false_eq_true, if_false, if_true, number, line]
  rcases h.lineHeld_cases (o / 64) with free | held
  · have read := h.spends (access_spends t (t.payer c i) (poolKey c (64 * (o / 64))) 64 false)
    have unit := code.not_poisoned read (a := o) (n := 1) (by omega) (by omega) (by decide)
    have all := code.not_poisoned read (a := 64 * (o / 64)) (n := 64) (by omega) (by omega) (by decide)
    obtain ⟨filled, bytes⟩ := read.fillLine (o / 64)
    simp only [free, start, holdAct_pool t _ _ 64 (poolKey_line_le cell small) (by decide), unit, all, Bool.or_true, bytes, byte, Bool.false_eq_true, if_false]
    exact ⟨_, rfl, filled⟩
  · simp only [held, Bool.true_or, if_true, byte]
    exact ⟨t, rfl, h⟩

/-- The bytes from `o` on follow those that are read already. -/
theorem OwnCode.fetchFrom (n : Nat) : ∀ {t : State} {o : Nat} (acc : List Byte), Fetching c s t → off ≤ o → o + n = off + 12 →
    ∃ u, t.fetchFrom c i (0xE00000000000 + o) n acc = (u, .bytes (acc.reverse ++ natToBytes n (readNat s.mem (poolKey c o) n))) ∧
      Fetching c s u := by
  induction n with
  | zero =>
    intro t o acc h _ _
    exact ⟨t, by rw [State.fetchFrom, natToBytes, List.append_nil], h⟩
  | succ n ih =>
    intro t o acc h lo hi
    obtain ⟨u, byte, hu⟩ := code.fetchByte h lo (by omega)
    obtain ⟨v, rest, hv⟩ := ih (readByte s.mem (poolKey c o) :: acc) hu (Nat.le_succ_of_le lo) (by omega)
    refine ⟨v, ?_, hv⟩
    rw [State.fetchFrom, byte]
    dsimp only
    rw [Nat.add_assoc, rest, natToBytes_readNat_succ, List.reverse_cons, List.append_assoc, List.singleton_append, poolKey, poolKey, Nat.add_assoc]
end

/-- Settles O6: byte by byte, while the cluster keeps only lines as memory holds them. -/
theorem fetchReadsOwnPoolCode : Obligations.FetchReadsOwnPoolCode := by
  unfold Obligations.FetchReadsOwnPoolCode
  intro s c i off cell inside mode pc tag exec base top above notHeld clean
  have code : OwnCode s c i off := ⟨cell, inside, mode, tag, exec, base, top, above, clean⟩
  have begun : Fetching c s s := ⟨rfl, rfl, rfl, fun x hx cluster space => absurd space (notHeld x hx cluster)⟩
  obtain ⟨s1, fetched, reached⟩ := code.fetchFrom 12 [] begun (Nat.le_refl off) rfl
  exact ⟨s1, by rw [State.fetch, pc, fetched, List.reverse_nil, List.nil_append], reached.mem⟩

end Sys2Proof.Machine
end

section
/-!
PROOF. O7: every step answers a next state (log entry 48).
-/
namespace Sys2Proof.Machine

/-- The machine goes on: no fault and no refusal. -/
def Goes (x : Host.Outcome State Fault Refusal) : Prop := ∃ t, x = .next t

theorem Goes.next (t : State) : Goes (.next t) := ⟨t, rfl⟩

/-! ### What the host writes (18 R363, R365) -/

theorem execDoorbellTail_goes (q : Nat) (value : W32) (s : State) : Goes (execDoorbellTail q value s) := by
  unfold execDoorbellTail
  split <;> exact Goes.next _

theorem execDoorbellCplhead_goes (q : Nat) (value : W32) (s : State) : Goes (execDoorbellCplhead q value s) := by
  unfold execDoorbellCplhead
  split <;> exact Goes.next _

theorem doorWrite_goes (s : State) (q off : Nat) (data : List Byte) : Goes (s.doorWrite q off data) := by
  unfold State.doorWrite
  dsimp only
  split
  · exact Goes.next _
  · split
    · exact execDoorbellTail_goes ..
    · split
      · exact execDoorbellCplhead_goes ..
      · exact Goes.next _

theorem hostRegs_goes (s : State) (loc : HostLoc) (data : List Byte) (poisoned : Bool) : Goes (s.hostRegs loc data poisoned) := by
  unfold State.hostRegs
  split
  · exact Goes.next _
  · cases loc with
    | door q off => exact doorWrite_goes ..
    | vfDoor f off =>
      dsimp only
      split
      · exact doorWrite_goes ..
      · exact Goes.next _
    | bar4 _ | pf1 _ | vfBar4 _ _ _ | bar0 _ | vfBar0 _ _ | hostMem _ => exact Goes.next _

theorem hostWrite_goes (s : State) (id : Option Nat) (loc : HostLoc) (data : List Byte) (poisoned : Bool) : Goes (s.hostWrite id loc data poisoned) := by
  unfold State.hostWrite
  split
  · exact Goes.next _
  · split
    · exact Goes.next _
    · split
      · exact Goes.next _
      · exact Goes.next _
      · exact Goes.next _
      · split
        · exact Goes.next _
        · exact hostRegs_goes ..

/-- A write of the host that a controller has held is made again (18 R372). -/
theorem execThrottleRelease_goes (req : Nat) (s : State) : Goes (execThrottleRelease req s) := by
  unfold execThrottleRelease
  split
  · exact Goes.next _
  next h _ =>
  rcases h.again with _ | ⟨l, d, p⟩ | _ | _ | _ | _ | _ | _
  · dsimp only
    repeat' split
    all_goals exact Goes.next _
  · exact hostWrite_goes ..
  all_goals exact Goes.next _

/-! ### Every step -/

/-- A thread instruction ends as its issue ends; every branch of a step of a unit, the host or a peer answers a state. -/
theorem exec_goes (i : Instr) (s : State) : Goes (exec i s) := by
  cases i
  case hostWrite => exact hostWrite_goes ..
  case throttleRelease => exact execThrottleRelease_goes ..
  case doorbellTail => exact execDoorbellTail_goes ..
  case doorbellCplhead => exact execDoorbellCplhead_goes ..
  case
      feRequestRetry | lrLeaseExpiry | memoryReply | writeAck | registerScrubDone | timerInterrupt | arrivalInterrupt | packetCountClose |
      packetReoffer | commitPerform | pairTimeout | alignTimeout | copySegmentWrite | cpGEntryRead | cpmxChainEnqueue | matrixStep |
      engineCompletion | checksumFaultTrap | engineFaultRecord | engineFaultReply | ropeCommandExecute | ropeResultLanding |
      walkRecordEmit | walkTailPoll | nodeReclaim | stageRefill | headPacketRead | dispatchEvent | tickEvent | controlEventTake |
      decisionOverrun | fixedPolicyDecision | cueRdw | cueBind | hostAtomicCompletion | pldmRequest | flitReceive | fabricResponse |
      peerTimeout | layoutCommit | journalRecovery | sliceSwitch | granuleExchange | cellStateExchange | hbmRefresh | sequencerTakeover |
      retune | warmResetRestore | cueLoadVerified | registerWrite | forwardedFaultResolution =>
    dsimp only [exec,
      execFeRequestRetry, execLrLeaseExpiry, execMemoryReply, execWriteAck, execRegisterScrubDone, execTimerInterrupt,
      execArrivalInterrupt, execPacketCountClose, execPacketReoffer, execCommitPerform, execPairTimeout, execAlignTimeout,
      execCopySegmentWrite, execCpGEntryRead, execCpmxChainEnqueue, execMatrixStep, execEngineCompletion, execChecksumFaultTrap,
      execEngineFaultRecord, execEngineFaultReply, execRopeCommandExecute, execRopeResultLanding, execWalkRecordEmit, execWalkTailPoll,
      execNodeReclaim, execStageRefill, execHeadPacketRead, execDispatchEvent, execTickEvent, execControlEventTake, execDecisionOverrun,
      execFixedPolicyDecision, execCueRdw, execCueBind, execHostAtomicCompletion, execPldmRequest, execFlitReceive, execFabricResponse,
      execPeerTimeout, execLayoutCommit, execJournalRecovery, execSliceSwitch, execGranuleExchange, execCellStateExchange, execHbmRefresh,
      execSequencerTakeover, execRetune, execWarmResetRestore, execCueLoadVerified, execRegisterWrite, execForwardedFaultResolution]
    repeat' split
    all_goals exact Goes.next _
  all_goals exact Goes.next _

/-- Settles O7: the next move is a state or runs one instruction or event, which answers a state. -/
theorem stepNeverStops : Obligations.StepNeverStops := by
  unfold Obligations.StepNeverStops
  intro s
  unfold step
  split
  · exact exec_goes ..
  · exact Goes.next _

end Sys2Proof.Machine
end
